-- ==== Sys2Proof/Word.lean ====
section
/-!
DEFINITION. The word types of the Xolon 6 and the 64-lane word of a row (R1, R17, R87).
-/
namespace Sys2Proof

abbrev Byte := BitVec 8
/-- A lane word (R87). -/
abbrev Word := BitVec 32
/-- A `g` register, a slot, a parameter word (R86, R105). -/
abbrev DWord := BitVec 64
/-- One bit per lane of a row: active masks, predicates, fault masks. -/
abbrev LaneMask := BitVec 64

/-- W, the number of lanes of a lane block (R17, LANEW of R92). -/
abbrev laneCount : Nat := 64

/-- One 32-bit word in each of the 64 lanes. -/
abbrev Lanes := Vector Word 64

/-- The lanes whose lane `l` holds `f l`. -/
def Lanes.build (f : Nat → Word) : Lanes := ⟨⟨(List.range 64).map f⟩, by simp⟩

/-- The word of lane `l`; lanes are numbered 0 to 63. -/
def Lanes.get (v : Lanes) (l : Nat) : Word := v.toArray.toList.getD l 0

/-- The same word in every lane. -/
def Lanes.fill (w : Word) : Lanes := Lanes.build fun _ => w

/-- Bit `l` of the mask built from a predicate on lanes. -/
def LaneMask.build (f : Nat → Bool) : LaneMask :=
  (List.range 64).foldl (fun m l => if f l then m ||| (1#64 <<< l) else m) 0#64

end Sys2Proof
end

