-- ==== Sys2Proof/Machine/Flags.lean ====
section
/-!
DEFINITION. The FP sticky flags of a row (R152) and how an instruction sets them (R153).
-/
namespace Sys2Proof

/-- The FP sticky flags of R152 as bits of one byte; bit 7 is reserved. -/
abbrev FpFlags := BitVec 8

namespace FpFlags
def none : FpFlags := 0
/-- invalid operation -/
def nv : FpFlags := 0x01
/-- division by zero -/
def dz : FpFlags := 0x02
/-- overflow -/
def ovf : FpFlags := 0x04
/-- underflow -/
def unf : FpFlags := 0x08
/-- inexact -/
def nx : FpFlags := 0x10
/-- argument of VSIN or VCOS out of range -/
def range : FpFlags := 0x20
/-- integer clamp -/
def sat : FpFlags := 0x40
end FpFlags

/-- A flag when a condition holds. -/
def FpFlags.when (c : Bool) (f : FpFlags) : FpFlags := if c then f else 0

/-- The OR of the flags of several elements (R153). -/
def FpFlags.join (l : List FpFlags) : FpFlags := l.foldl (· ||| ·) 0

end Sys2Proof
end

