-- ==== Sys2Proof/Syntax.lean ====
section
/-!
DEFINITION. The instruction set: one constructor for each row of the opcode table.  The 116 mnemonics of
Opcode Map and Instruction Summary (some rows split a mnemonic by form), then the device's own steps.
-/
namespace Sys2Proof

abbrev GReg := BitVec 6
abbrev VReg := BitVec 8

/-- Element types of R117. -/
inductive ElemTy where
  | f32 | f16 | bf16 | i32 | n32 | i16 | i8 | n8
  deriving DecidableEq, Repr

/-- Rounding modes of R118. -/
inductive Rnd where
  | rne | rz | ru | rd
  deriving DecidableEq, Repr

/-- Carry codes of R41. -/
inductive CarryCode where
  | none | k1 | k2 | k3 | k4 | rows | ck1 | ck2
  deriving DecidableEq, Repr

/-- Loop counters. -/
inductive LoopReg where
  | lc0 | lc1 | lc2
  deriving DecidableEq, Repr

/-- The sequencing of a generator instruction (R109, R110): only the fields that the selector uses. -/
inductive Seq where
  | next
  | jump (off : BitVec 14)
  | jt (f : BitVec 3) (off : BitVec 14)
  | jf (f : BitVec 3) (off : BitVec 14)
  | call (off : BitVec 14)
  | ret
  | lend (n : LoopReg) (off : BitVec 14)
  | exit
  deriving DecidableEq, Repr

/-- Second operand of a two-source generator instruction (R362). -/
inductive GSrc where
  | reg (r : GReg)
  | imm (v : BitVec 16)
  deriving DecidableEq, Repr

/-- Conditions of GCMP (R364). -/
inductive GCond where
  | eq | ne | lt | le | ltu | leu
  deriving DecidableEq, Repr

/-- Access sizes of GLD and GST (R367). -/
inductive Size where
  | b | h | w | d
  deriving DecidableEq, Repr

/-- Operations of GAMO and VAMO (R370, R414). -/
inductive AtomicOp where
  | add | min | max | and | or | xor | exch | cas
  deriving DecidableEq, Repr

/-- Memory scopes of FENCE and BAR (R136). -/
inductive Scope where
  | cluster | gang | die | device | domain | system
  deriving DecidableEq, Repr

/-- A stretch name given directly or in the low byte of a register (R75). -/
inductive NameSrc where
  | imm (n : BitVec 8)
  | reg (a : GReg)
  deriving DecidableEq, Repr

/-- The buffers that carry full/empty bits (R137, R212). -/
inductive FeBuf where
  | ab | cb
  deriving DecidableEq, Repr

/-- Typed buffers (R205). -/
inductive Buf where
  | wb | ab | cb
  deriving DecidableEq, Repr

/-- The immediate of a format L-I slot with its substitution marker (R55). -/
inductive Sub where
  | imm (v : Word)
  | glo (n : GReg)
  | ghi (n : GReg)
  | hole (n : BitVec 4)
  deriving DecidableEq, Repr

/-- A parameter word with its marker (R55, R123); after substitution it is a 64-bit literal. -/
inductive Param where
  | lit (v : DWord)
  | g (n : GReg)
  | hole (n : BitVec 4)
  deriving DecidableEq, Repr

/-- The fields of a format L slot (R116). -/
structure LForm where
  pg : BitVec 4
  pn : Bool
  t : ElemTy
  vd : VReg
  va : VReg
  vb : VReg
  vc : BitVec 8
  ka : CarryCode
  kb : CarryCode
  la : BitVec 4
  rnd : Rnd
  fn : BitVec 4
  deriving DecidableEq, Repr

/-- The fields of a format L-I slot (R120). -/
structure LIForm where
  pg : BitVec 4
  pn : Bool
  t : ElemTy
  vd : BitVec 6
  va : BitVec 6
  src : Sub
  deriving DecidableEq, Repr

/-- The fields of an engine command (R122, R123). -/
structure EForm where
  fn : BitVec 4
  tag : BitVec 16
  head : BitVec 32
  p0 : Param
  p1 : Param
  p2 : Param
  p3 : Param
  deriving DecidableEq, Repr

/-- What a peer access asks for (R324). -/
inductive RemoteOp where
  | load (n : Nat)
  | store (data : List Byte)
  | atomic (op : AtomicOp) (wide : Bool) (operand compare : DWord)
  /-- a peer's VAMO lane with its FN, type and rounding (R414) -/
  | lane (fn : BitVec 4) (t : ElemTy) (rnd : Rnd) (operand compare : Word)
  deriving DecidableEq, Repr

/-- A unit that can be fenced (R326). -/
inductive FenceUnit where
  | cluster (n : Nat) | slice (n : Nat) | stack (n : Nat) | ucie (n : Nat) | storage (n : Nat) | ranoc (n : Nat)
  deriving DecidableEq, Repr

/-- A word that can be poisoned (R309, R310). -/
inductive PoisonLoc where
  | vreg (ctx item reg lane : Nat)
  | greg (ctx reg : Nat)
  | buf (ctx member : Nat) (b : Buf) (off : Nat)
  | mem (pa : Nat)
  deriving DecidableEq, Repr

/-- The NVMe status fields of a completion entry (R390). -/
structure NvmeStatus where
  sc : BitVec 8
  sct : BitVec 3
  crd : BitVec 2
  more : Bool
  dnr : Bool
  deriving DecidableEq, Repr

/-- One constructor per row of the opcode table.  Generator instructions carry their sequencing first; device steps carry
the context number `c`, the member number `m` or the queue number `q` they act on. -/
inductive Instr where
  | gadd (q : Seq) (d a : GReg) (b : GSrc)
  | gsub (q : Seq) (d a : GReg) (b : GSrc)
  | gmul (q : Seq) (d a : GReg) (b : GSrc)
  | gmulh (q : Seq) (d a : GReg) (b : GSrc)
  | gdiv (q : Seq) (d a : GReg) (b : GSrc)
  | grem (q : Seq) (d a : GReg) (b : GSrc)
  | gand (q : Seq) (d a : GReg) (b : GSrc)
  | gor (q : Seq) (d a : GReg) (b : GSrc)
  | gxor (q : Seq) (d a : GReg) (b : GSrc)
  | gshl (q : Seq) (d a : GReg) (b : GSrc)
  | gshr (q : Seq) (d a : GReg) (b : GSrc)
  | gsra (q : Seq) (d a : GReg) (b : GSrc)
  | gmin (q : Seq) (d a : GReg) (b : GSrc)
  | gmax (q : Seq) (d a : GReg) (b : GSrc)
  | gsel (q : Seq) (d a b : GReg) (f : BitVec 3)
  | gcmp (q : Seq) (cc : GCond) (f : BitVec 3) (a : GReg) (b : GSrc)
  | gclz (q : Seq) (d a : GReg)
  | gpopc (q : Seq) (d a : GReg)
  | gli (q : Seq) (d : GReg) (v : BitVec 29)
  | glih (q : Seq) (d : GReg) (v : BitVec 29)
  | gld (q : Seq) (sz : Size) (sx : Bool) (d a : GReg) (v : BitVec 16)
  | gst (q : Seq) (sz : Size) (d a : GReg) (v : BitVec 16)
  | gamo (q : Seq) (op : AtomicOp) (d a b : GReg)
  | gloop (q : Seq) (n : LoopReg) (b : GSrc)
  | gjmpr (link : Bool) (a : GReg)
  | gwfe (q : Seq) (b : GSrc)
  | gtrap (q : Seq) (v : BitVec 16)
  | grteRetry
  | grteSkip
  | grteDiscard
  | csrr (q : Seq) (d : GReg) (n : BitVec 12)
  | csrw (q : Seq) (a : GReg) (n : BitVec 12)
  | fence (q : Seq) (sc : Scope)
  | fenceX (q : Seq)
  | phaseAcq (q : Seq)
  | phaseRel (q : Seq)
  | phaseAcqrel (q : Seq)
  | bar (q : Seq) (sc : Scope)
  | capb (q : Seq) (n : BitVec 8)
  | capbDry (q : Seq) (n : BitVec 8)
  | cape (q : Seq) (d : GReg)
  | capx (q : Seq) (n : NameSrc)
  | rply (q : Seq) (n : NameSrc)
  | hset (q : Seq) (h : BitVec 4) (b : GSrc)
  | gvq (q : Seq) (d : GReg)
  | cdef (q : Seq) (mem : Bool) (x : BitVec 8) (a : GReg)
  | qrsv (q : Seq) (d : GReg) (n : BitVec 4)
  | qcmt (q : Seq) (a : GReg) (n : BitVec 4)
  | qpop (q : Seq) (d : GReg) (n : BitVec 4)
  | twait (q : Seq) (b : FeBuf) (full : Bool) (a : GReg)
  | tset (q : Seq) (b : FeBuf) (full : Bool) (a : GReg)
  | sopen (q : Seq) (n : BitVec 3) (a : GReg)
  | seof (q : Seq) (f n : BitVec 3)
  | scls (q : Seq) (n : BitVec 3)
  | npoll (q : Seq) (d a : GReg)
  | vadd (f : LForm)
  | vaddImm (f : LIForm)
  | vsub (f : LForm)
  | vsubImm (f : LIForm)
  | vmul (f : LForm)
  | vmulImm (f : LIForm)
  | vfma (f : LForm)
  | vfmaImm (f : LIForm)
  | vmin (f : LForm)
  | vminImm (f : LIForm)
  | vmax (f : LForm)
  | vmaxImm (f : LIForm)
  | vabs (f : LForm)
  | vneg (f : LForm)
  | vand (f : LForm)
  | vandImm (f : LIForm)
  | vor (f : LForm)
  | vorImm (f : LIForm)
  | vxor (f : LForm)
  | vxorImm (f : LIForm)
  | vshl (f : LForm)
  | vshlImm (f : LIForm)
  | vshr (f : LForm)
  | vshrImm (f : LIForm)
  | vsra (f : LForm)
  | vsraImm (f : LIForm)
  | vsel (f : LForm)
  | vmov (f : LForm)
  | vcvt (f : LForm)
  | vcvtAcc (f : LForm)
  | vcmp (f : LForm)
  | vclz (f : LForm)
  | vpopc (f : LForm)
  | vdot4 (f : LForm)
  | vrcp (f : LForm)
  | vrsq (f : LForm)
  | vsqrt (f : LForm)
  | vexp2 (f : LForm)
  | vlog2 (f : LForm)
  | vsin (f : LForm)
  | vcos (f : LForm)
  | vtanh (f : LForm)
  | vli (f : LIForm)
  | viota (f : LForm)
  | vld (f : LForm)
  | vst (f : LForm)
  | vldg (f : LForm)
  | vstg (f : LForm)
  | vamo (f : LForm)
  | sadv (f : LForm)
  | vshf (f : LForm)
  | vperm (f : LForm)
  | vred (f : LForm)
  | vscan (f : LForm)
  | vtrn (f : LForm)
  | vtopk (f : LForm)
  | vcmps (f : LForm)
  | vprune (f : LForm)
  | plog (f : LForm)
  | vote (f : LForm)
  | vexit (f : LForm)
  | cpy (e : EForm)
  | cpyRetire (c m : Nat)
  | fgat (e : EForm)
  | fhdl (e : EForm)
  | fetchUnitRetire (c m : Nat)
  | mldw (e : EForm)
  | mswp (e : EForm)
  | mma (e : EForm)
  | mmas (e : EForm)
  | mclr (e : EForm)
  | mscl (e : EForm)
  | mrdy (e : EForm)
  | mwait (e : EForm)
  | matrixCommandComplete (c m : Nat)
  | cwait (e : EForm)
  | nsubRead (e : EForm)
  | nsubWrite (e : EForm)
  | nsubFlush (e : EForm)
  | nsubRetire (pair k : Nat) (st : NvmeStatus) (data : List Byte)
  | sisec (e : EForm)
  | sunion (e : EForm)
  | sdiff (e : EForm)
  | smadd (e : EForm)
  | sprd (e : EForm)
  | schk (e : EForm)
  | generatorFetch (c : Nat)
  | emission (c : Nat)
  | replaySegmentFeed (c : Nat)
  | engineHandover (c m : Nat)
  | fenceMarker (c : Nat)
  | phaseMarker (c : Nat)
  | barMarker (c : Nat)
  | tsetMarker (c : Nat)
  | cdefMarker (c : Nat)
  | carrySend (c m : Nat)
  | trapEntry (c : Nat)
  | engineFaultAfterExit (c : Nat)
  | dispatchCompletion (c : Nat)
  | launch (q : Nat)
  | launchPlacement (k base : Nat)
  | revocation (c : Nat)
  | ashResume (c : Nat)
  | lentRangeSpill (c m k : Nat)
  | switchOut (c : Nat) (crimson : Bool)
  | preemptDeferExpiry (c : Nat)
  | restore (c base : Nat)
  | timer (c slice : Nat)
  | deadline (c : Nat)
  | domcreate (q : Nat)
  | domdestroy (q : Nat)
  | qenable (q : Nat)
  | qdisable (q : Nat)
  | shootdown (q : Nat)
  | shootdownAck (k : Nat)
  | patch (q : Nat)
  | nvmepair (q : Nat)
  | nvmefree (q : Nat)
  | ticket (q : Nat)
  | commit (q : Nat) (slot : DWord)
  | errcnt (q : Nat) (v : Word)
  | enEnable
  | enDisable
  | registerWrite (addr : Nat) (v : DWord)
  | hostCxlMemRead (x n : Nat)
  | hostCxlMemWrite (x : Nat) (data : List Byte)
  | remoteAccess (pa : Nat) (op : RemoteOp)
  | reset
  | selfTestReport
  | attestationReport (nonce : List Byte)
  | runtimeFence (u : FenceUnit)
  | criticalTemperature (die : Nat)
  | uncorrectableError (l : PoisonLoc)
  | deviceNumberSet (n : BitVec 10)
  | unassignedControlKind (q : Nat)
  deriving DecidableEq, Repr

end Sys2Proof
end

