-- ==== Sys2Proof/Machine/Numeric.lean ====
section
/-!
DEFINITION. Number formats and arithmetic (R145-R170): exact values are dyadic rationals `± m * 2^e`, rounded once at the end.
-/
namespace Sys2Proof

/-- A binary format of R145 with subnormals: exponent and fraction bits. -/
structure Fmt where
  eb : Nat
  fb : Nat
  deriving DecidableEq, Repr

def fmtF32 : Fmt := ⟨8, 23⟩
def fmtF16 : Fmt := ⟨5, 10⟩
def fmtBF16 : Fmt := ⟨8, 7⟩

def Fmt.bias (f : Fmt) : Nat := 2 ^ (f.eb - 1) - 1
/-- The pattern of +infinity. -/
def Fmt.inf (f : Fmt) : Nat := (2 ^ f.eb - 1) * 2 ^ f.fb
/-- The sign bit of a pattern. -/
def Fmt.sign (f : Fmt) : Nat := 2 ^ (f.eb + f.fb)
/-- The default NaN (R145). -/
def Fmt.dnan (f : Fmt) : Nat := f.inf + 2 ^ (f.fb - 1)

/-- The format of a floating-point element type. -/
def ElemTy.fmt : ElemTy → Fmt
  | .f16 => fmtF16
  | .bf16 => fmtBF16
  | _ => fmtF32

/-- A value: a NaN, an infinity, or exactly `± m * 2^e`. -/
inductive FVal where
  | nan (quiet : Bool)
  | inf (neg : Bool)
  | fin (neg : Bool) (m : Nat) (e : Int)
  deriving DecidableEq, Repr

/-- The value of a pattern (R145, R146). -/
def FVal.decode (f : Fmt) (w : Nat) : FVal :=
  let neg := w / f.sign % 2 == 1
  let ex : Nat := w / 2 ^ f.fb % 2 ^ f.eb
  let fr := w % 2 ^ f.fb
  if ex == 2 ^ f.eb - 1 then (if fr == 0 then .inf neg else .nan (fr / 2 ^ (f.fb - 1) == 1))
  else if ex == 0 then .fin neg fr (1 - (f.bias : Int) - f.fb)
  else .fin neg (2 ^ f.fb + fr) ((ex : Int) - f.bias - f.fb)

def FVal.isNan : FVal → Bool
  | .nan _ => true
  | _ => false
def FVal.isSnan : FVal → Bool
  | .nan q => !q
  | _ => false
def FVal.isInf : FVal → Bool
  | .inf _ => true
  | _ => false
def FVal.isZero : FVal → Bool
  | .fin _ m _ => m == 0
  | _ => false
def FVal.neg : FVal → Bool
  | .nan _ => false
  | .inf n | .fin n _ _ => n

/-- `floor (m / 2^k)` rounded by the mode; `sticky` says that the exact value lies strictly above `m`. -/
def roundShift (r : Rnd) (neg : Bool) (m k : Nat) (sticky : Bool) : Nat × Bool :=
  if k > Nat.log2 m + 2 then
    let inexact := m != 0 || sticky
    let up := match r with
      | .rne | .rz => false
      | .ru => inexact && !neg
      | .rd => inexact && neg
    (if up then 1 else 0, inexact)
  else
    let q := m >>> k
    let rem := m - (q <<< k)
    let twice := 2 * rem
    let one := 2 ^ k
    let inexact := rem != 0 || sticky
    let up := match r with
      | .rne => decide (one < twice) || (twice == one && (sticky || q % 2 == 1))
      | .rz => false
      | .ru => inexact && !neg
      | .rd => inexact && neg
    (if up then q + 1 else q, inexact)

/-- `m * 2^e` brought to the unit `2^u` and rounded. -/
def roundTo (r : Rnd) (neg : Bool) (m : Nat) (e u : Int) (sticky : Bool) : Nat × Bool :=
  if u ≤ e then (m <<< (e - u).toNat, sticky) else roundShift r neg m (u - e).toNat sticky

/-- R150: the pattern of `± m * 2^e` in a format, with OF, UF and NX; `m` is not zero. -/
def Fmt.round (f : Fmt) (r : Rnd) (neg : Bool) (m : Nat) (e : Int) (sticky : Bool) : Nat × FpFlags :=
  let s := if neg then f.sign else 0
  let emin : Int := 1 - f.bias
  let top : Int := Nat.log2 m + e
  let away := match r with
    | .rne => true
    | .rz => false
    | .ru => !neg
    | .rd => neg
  let big := (s + (if away then f.inf else f.inf - 1), FpFlags.ovf ||| FpFlags.nx)
  if top > f.bias then big
  else
    let ex := if top < emin then emin else top
    let (q, inexact) := roundTo r neg m e (ex - f.fb) sticky
    let bits := (ex - emin).toNat * 2 ^ f.fb + q
    if f.inf ≤ bits then big
    else
      -- the result as an unbounded exponent would give it, for tininess
      let (q0, _) := roundTo r neg m e (top - f.fb) sticky
      let tiny := decide (top < emin) && !(top + 1 == emin && q0 == 2 ^ (f.fb + 1))
      (s + bits, FpFlags.when inexact FpFlags.nx ||| FpFlags.when (inexact && tiny) FpFlags.unf)

/-- The pattern of a value rounded to a format. -/
def Fmt.encode (f : Fmt) (r : Rnd) (v : FVal) (sticky : Bool := false) : Nat × FpFlags :=
  match v with
  | .nan _ => (f.dnan, 0)
  | .inf n => ((if n then f.sign else 0) + f.inf, 0)
  | .fin n m e => if m == 0 then (if n then f.sign else 0, 0) else f.round r n m e sticky

/-- An exact integer multiple of `2^e`. -/
def FVal.ofInt (z : Int) (e : Int) : FVal := .fin (decide (z < 0)) z.natAbs e

/-- Two finite values as integers over one unit. -/
def alignTwo (n1 : Bool) (m1 : Nat) (e1 : Int) (n2 : Bool) (m2 : Nat) (e2 : Int) : Int × Int × Int :=
  let u := if e1 ≤ e2 then e1 else e2
  let a : Int := ((m1 <<< (e1 - u).toNat : Nat) : Int)
  let b : Int := ((m2 <<< (e2 - u).toNat : Nat) : Int)
  (if n1 then -a else a, if n2 then -b else b, u)

/-- The exact sum; the sign of an exact zero sum by R150; the flag is NV of an invalid sum (R154). -/
def FVal.add (r : Rnd) (a b : FVal) : FVal × Bool :=
  match a, b with
  | .nan _, _ | _, .nan _ => (.nan true, false)
  | .inf x, .inf y => if x == y then (.inf x, false) else (.nan true, true)
  | .inf x, _ | _, .inf x => (.inf x, false)
  | .fin n1 m1 e1, .fin n2 m2 e2 =>
    let (x, y, u) := alignTwo n1 m1 e1 n2 m2 e2
    if x + y == 0 then
      (.fin (if m1 == 0 && m2 == 0 && n1 == n2 then n1 else r == .rd) 0 0, false)
    else (FVal.ofInt (x + y) u, false)

/-- The exact product (R154, R168); the flag is NV of zero times infinity. -/
def FVal.mul (a b : FVal) : FVal × Bool :=
  match a, b with
  | .nan _, _ | _, .nan _ => (.nan true, false)
  | .inf x, .inf y => (.inf (x != y), false)
  | .inf x, .fin n m _ | .fin n m _, .inf x => if m == 0 then (.nan true, true) else (.inf (x != n), false)
  | .fin n1 m1 e1, .fin n2 m2 e2 => (.fin (n1 != n2) (m1 * m2) (e1 + e2), false)

/-- The negation of a value. -/
def FVal.flip : FVal → FVal
  | .nan q => .nan q
  | .inf n => .inf (!n)
  | .fin n m e => .fin (!n) m e

/-- `a < b` of two values that are no NaN; zeros compare equal. -/
def FVal.lt (a b : FVal) : Bool :=
  match a, b with
  | .nan _, _ | _, .nan _ => false
  | .inf x, .inf y => x && !y
  | .inf x, _ => x
  | _, .inf y => !y
  | .fin n1 m1 e1, .fin n2 m2 e2 =>
    let (x, y, _) := alignTwo n1 m1 e1 n2 m2 e2
    decide (x < y)

/-- Whether some operand is a signalling NaN. -/
def anySnan (l : List FVal) : Bool := l.any FVal.isSnan

/-! ### Lane arithmetic on patterns (R154-R157) -/

def fAdd (f : Fmt) (r : Rnd) (a b : Nat) : Nat × FpFlags :=
  let x := FVal.decode f a
  let y := FVal.decode f b
  let (v, bad) := FVal.add r x y
  let (w, fl) := f.encode r v
  (w, fl ||| FpFlags.when (bad || anySnan [x, y]) FpFlags.nv)

def fSub (f : Fmt) (r : Rnd) (a b : Nat) : Nat × FpFlags :=
  let x := FVal.decode f a
  let y := FVal.decode f b
  let (v, bad) := FVal.add r x y.flip
  let (w, fl) := f.encode r v
  (w, fl ||| FpFlags.when (bad || anySnan [x, y]) FpFlags.nv)

def fMul (f : Fmt) (r : Rnd) (a b : Nat) : Nat × FpFlags :=
  let x := FVal.decode f a
  let y := FVal.decode f b
  let (v, bad) := FVal.mul x y
  let (w, fl) := f.encode r v
  (w, fl ||| FpFlags.when (bad || anySnan [x, y]) FpFlags.nv)

/-- One rounding of a * b + c (R154). -/
def fFma (f : Fmt) (r : Rnd) (a b c : Nat) : Nat × FpFlags :=
  let x := FVal.decode f a
  let y := FVal.decode f b
  let z := FVal.decode f c
  let (p, bad1) := FVal.mul x y
  let (v, bad2) := FVal.add r p z
  let (w, fl) := f.encode r v
  (w, fl ||| FpFlags.when (bad1 || bad2 || anySnan [x, y, z]) FpFlags.nv)

/-- R155: the lesser (`mx` false) or greater operand; −0 lies below +0. -/
def fMinMax (mx : Bool) (f : Fmt) (a b : Nat) : Nat × FpFlags :=
  let x := FVal.decode f a
  let y := FVal.decode f b
  let fl := FpFlags.when (anySnan [x, y]) FpFlags.nv
  if x.isNan && y.isNan then (f.dnan, fl)
  else if x.isNan then (b, fl)
  else if y.isNan then (a, fl)
  else
    let less := x.lt y || (x.isZero && y.isZero && x.neg && !y.neg)
    (if less != mx then a else b, fl)

/-- R157: the functions eq ne lt le gt ge un by number. -/
def fCmp (f : Fmt) (fn a b : Nat) : Bool × FpFlags :=
  let x := FVal.decode f a
  let y := FVal.decode f b
  let un := x.isNan || y.isNan
  let lt := x.lt y
  let gt := y.lt x
  let eq := !un && !lt && !gt
  let v := match fn with
    | 0 => eq
    | 1 => !eq
    | 2 => lt
    | 3 => lt || eq
    | 4 => gt
    | 5 => gt || eq
    | _ => un
  let ordered := decide (2 ≤ fn ∧ fn ≤ 5)
  (v, FpFlags.when (if ordered then un else anySnan [x, y]) FpFlags.nv)

/-! ### Integers (R148) -/

/-- An element of an integer type as an integer. -/
def elemInt (signed : Bool) (w : Nat) (v : Nat) : Int :=
  if signed && decide (2 ^ (w - 1) ≤ v) then (v : Int) - 2 ^ w else v

/-- The low `w` bits of an integer. -/
def wrapInt (w : Nat) (z : Int) : Nat := (z % ((2 ^ w : Nat) : Int)).toNat

/-- The clamp to the range of an element type, and whether it changed the value. -/
def clampInt (signed : Bool) (w : Nat) (z : Int) : Int × Bool :=
  let lo : Int := if signed then -((2 ^ (w - 1) : Nat) : Int) else 0
  let hi : Int := if signed then ((2 ^ (w - 1) : Nat) : Int) - 1 else ((2 ^ w : Nat) : Int) - 1
  if z < lo then (lo, true) else if hi < z then (hi, true) else (z, false)

/-- The exact result narrowed to an element, with `.sat` or by wrapping. -/
def narrowInt (sat signed : Bool) (w : Nat) (z : Int) : Nat × FpFlags :=
  if sat then
    let (c, hit) := clampInt signed w z
    (wrapInt w c, FpFlags.when hit FpFlags.sat)
  else (wrapInt w z, 0)

/-! ### Conversions (R158) -/

/-- Float to float: exact widening keeps a quiet NaN's sign and payload (R146). -/
def cvtFF (src dst : Fmt) (r : Rnd) (a : Nat) : Nat × FpFlags :=
  match FVal.decode src a with
  | .nan q =>
    if src.fb ≤ dst.fb && src.eb ≤ dst.eb && q then
      ((if a / src.sign % 2 == 1 then dst.sign else 0) + dst.inf + (a % 2 ^ src.fb) * 2 ^ (dst.fb - src.fb), 0)
    else (dst.dnan, FpFlags.when (!q) FpFlags.nv)
  | v => dst.encode r v

/-- A finite value rounded to an integer, and whether that changed it. -/
def roundInt (r : Rnd) (neg : Bool) (m : Nat) (e : Int) : Int × Bool :=
  let (q, inexact) := roundTo r neg m e 0 false
  (if neg then -(q : Int) else q, inexact)

/-- Float to integer. -/
def cvtFI (src : Fmt) (signed : Bool) (w : Nat) (r : Rnd) (a : Nat) : Nat × FpFlags :=
  match FVal.decode src a with
  | .nan _ => (0, FpFlags.nv)
  | .inf n =>
    let (c, _) := clampInt signed w (if n then -((2 ^ 80 : Nat) : Int) else ((2 ^ 80 : Nat) : Int))
    (wrapInt w c, FpFlags.nv)
  | .fin n m e =>
    let (z, inexact) := roundInt r n m e
    let (c, hit) := clampInt signed w z
    (wrapInt w c, if hit then FpFlags.nv else FpFlags.when inexact FpFlags.nx)

/-- Integer to float; F16 overflows, and then sets OF and NX as every overflow does (R150; log 70). -/
def cvtIF (signed : Bool) (w : Nat) (dst : Fmt) (r : Rnd) (a : Nat) : Nat × FpFlags :=
  let (p, fl) := dst.encode r (FVal.ofInt (elemInt signed w a) 0)
  (p, fl)

/-- Integer to integer. -/
def cvtII (s1 : Bool) (w1 : Nat) (s2 : Bool) (w2 : Nat) (a : Nat) : Nat × FpFlags :=
  let (c, hit) := clampInt s2 w2 (elemInt s1 w1 a)
  (wrapInt w2 c, FpFlags.when hit FpFlags.sat)

/-- The value of an A36 container; an exponent field of zero is a zero (R147). -/
def a36Decode (c : Nat) : FVal :=
  let neg := c / 2 ^ 35 % 2 == 1
  let ex : Nat := c / 2 ^ 27 % 256
  let fr : Nat := c % 2 ^ 27
  if ex == 255 then (if fr == 0 then .inf neg else .nan (fr / 2 ^ 26 == 1))
  else if ex == 0 then .fin neg 0 0
  else .fin neg (2 ^ 27 + fr) ((ex : Int) - 127 - 27)

/-- RoundA36 (R151). -/
def roundA36 (v : FVal) : Nat :=
  match v with
  | .nan _ => 0x7FC000000
  | .inf n => (if n then 2 ^ 35 else 0) + 255 * 2 ^ 27
  | .fin n m e =>
    let s := if n then 2 ^ 35 else 0
    if m == 0 then s
    else
      let top : Int := Nat.log2 m + e
      let (q, _) := roundTo .rne n m e (top - 27) false
      let (q, top) := if q == 2 ^ 28 then (2 ^ 27, top + 1) else (q, top)
      if top > 127 then s + 255 * 2 ^ 27
      else if top < -126 then s
      else s + (top + 127).toNat * 2 ^ 27 + (q - 2 ^ 27)

/-- The A36 sum of an accumulator and a term (R168 step 5, R170). -/
def a36Add (acc : Nat) (v : FVal) : Nat := roundA36 (FVal.add .rne (a36Decode acc) v).1

/-- A36 container to F32. -/
def cvtA36F32 (r : Rnd) (c : Nat) : Nat × FpFlags := fmtF32.encode r (a36Decode c)

/-- 36-bit accumulator to i32. -/
def cvtAccI32 (c : Nat) : Nat × FpFlags :=
  let (z, hit) := clampInt true 32 (elemInt true 36 (c % 2 ^ 36))
  (wrapInt 32 z, FpFlags.when hit FpFlags.sat)

/-- 36-bit accumulator to F32. -/
def cvtAccF32 (r : Rnd) (c : Nat) : Nat × FpFlags := fmtF32.encode r (FVal.ofInt (elemInt true 36 (c % 2 ^ 36)) 0)

/-! ### Roots and transcendental functions (R159-R161): correctly rounded from an approximation of 320 fraction bits -/

/-- `floor (sqrt n)` for `n < 4^k`, one result bit per step. -/
def isqrt (n : Nat) : Nat → Nat → Nat
  | 0, r => r
  | k + 1, r => isqrt n k (if (r + 2 ^ k) * (r + 2 ^ k) ≤ n then r + 2 ^ k else r)

def isqrtOf (n : Nat) : Nat := isqrt n (Nat.log2 n / 2 + 1) 0

/-- The results that R159 shares: NaN operands; otherwise the function of the finite or infinite value. -/
def fUnary (f : Fmt) (a : Nat) (k : FVal → Nat × FpFlags) : Nat × FpFlags :=
  match FVal.decode f a with
  | .nan q => (f.dnan, FpFlags.when (!q) FpFlags.nv)
  | v => k v

def fInvalid (f : Fmt) : Nat × FpFlags := (f.dnan, FpFlags.nv)

/-- VRCP. -/
def fRcp (f : Fmt) (r : Rnd) (a : Nat) : Nat × FpFlags :=
  fUnary f a fun v =>
    match v with
    | .fin n m e =>
      if m == 0 then ((f.encode r (.inf n)).1, FpFlags.dz)
      else
        let k := Nat.log2 m + 64
        f.round r n (2 ^ k / m) (-(k : Int) - e) (Nat.pow 2 k % m != 0)
    | v => f.encode r (.fin v.neg 0 0)

/-- VSQRT. -/
def fSqrt (f : Fmt) (r : Rnd) (a : Nat) : Nat × FpFlags :=
  fUnary f a fun v =>
    match v with
    | .fin n m e =>
      if m == 0 then f.encode r v
      else if n then fInvalid f
      else
        let j : Nat := if (e % 2 == 0) then 64 else 65
        let m2 := m <<< j
        let y := isqrtOf m2
        f.round r false y ((e - j) / 2) (y * y != m2)
    | v => if v.neg then fInvalid f else f.encode r (.inf false)

/-- VRSQ. -/
def fRsq (f : Fmt) (r : Rnd) (a : Nat) : Nat × FpFlags :=
  fUnary f a fun v =>
    match v with
    | .fin n m e =>
      if m == 0 then ((f.encode r (.inf n)).1, FpFlags.dz)
      else if n then fInvalid f
      else
        let (m, e) := if e % 2 == 0 then (m, e) else (2 * m, e - 1)
        let k := Nat.log2 m + 64
        let y := isqrtOf (2 ^ (2 * k) / m)
        f.round r false y (-(k : Int) - e / 2) (y * y * m != Nat.pow 2 (2 * k))
    | v => if v.neg then fInvalid f else f.encode r (.fin false 0 0)

/-- Fraction bits of the approximations. -/
def apx : Nat := 320
/-- π and ln 2 truncated at 320 fraction bits. -/
def piFix : Int := 0x3243f6a8885a308d313198a2e03707344a4093822299f31d0082efa98ec4e6c89452821e638d01377
def ln2Fix : Int := 0xb17217f7d1cf79abc9e3b39803f2f6af40f343267298b62d8a0d175b8baafa2be7b876206debac98

/-- `term * x^j / (j+1)(j+2)…` summed over the terms still to come. -/
def expSeries (x : Int) : Nat → Nat → Int → Int → Int
  | 0, _, _, s => s
  | n + 1, j, t, s => expSeries x n (j + 1) (t * x / 2 ^ apx / (j : Int)) (s + t)

/-- `e^x` for a fixed-point `|x| < 1`. -/
def expFix (x : Int) : Int := expSeries x 90 1 (2 ^ apx) 0

/-- Series with every second term of the exponential and alternating signs: from 1 the cosine, from x the sine. -/
def trigSeries (x2 : Int) : Nat → Nat → Int → Int → Int
  | 0, _, _, s => s
  | n + 1, j, t, s => trigSeries x2 n (j + 2) (-(t * x2 / 2 ^ apx) / ((j : Int) * (j + 1))) (s + t)

def cosFix (x : Int) : Int := trigSeries (x * x / 2 ^ apx) 60 1 (2 ^ apx) 0
def sinFix (x : Int) : Int := trigSeries (x * x / 2 ^ apx) 60 2 x 0

/-- The magnitude of a finite value in fixed point, truncated. -/
def toFix (m : Nat) (e : Int) : Int :=
  if 0 ≤ e + apx then ((m <<< (e + apx).toNat : Nat) : Int) else ((m >>> (-(e + apx)).toNat : Nat) : Int)

/-- A fixed-point approximation of an irrational value, rounded. -/
def Fmt.ofFix (f : Fmt) (z : Int) : Nat × FpFlags := f.round .rne (decide (z < 0)) z.natAbs (-(apx : Int)) true

/-- A value whose magnitude lies just below `m * 2^e`. -/
def Fmt.justBelow (f : Fmt) (neg : Bool) (m : Nat) (e : Int) : Nat × FpFlags :=
  f.round .rne neg (m * 2 ^ 64 - 1) (e - 64) true

/-- Below this power of two the sine, the cosine and the hyperbolic tangent are next to their first term. -/
def tinyArg (m : Nat) (e : Int) : Bool := decide ((Nat.log2 m : Int) + e < -40)

/-- VEXP2. -/
def fExp2 (f : Fmt) (a : Nat) : Nat × FpFlags :=
  fUnary f a fun v =>
    match v with
    | .fin n m e =>
      if m == 0 then f.encode .rne (.fin false 1 0)
      else if (Nat.log2 m : Int) + e > 8 then
        (if n then f.round .rne false (2 ^ 64) (-1000) true else f.round .rne false 1 1000 false)
      else if tinyArg m e then
        (if n then f.justBelow false 1 0 else f.round .rne false (2 ^ 64) (-64) true)
      else
        let x := if n then -(toFix m e) else toFix m e
        let k := x / 2 ^ apx
        let fr := x % 2 ^ apx
        if fr == 0 then f.round .rne false 1 k false
        else f.round .rne false (expFix (fr * ln2Fix / 2 ^ apx)).natAbs (k - apx) true
    | v => f.encode .rne (if v.neg then .fin false 0 0 else .inf false)

/-- Bits of the binary logarithm of `y / 2^320` in [1, 2), by repeated squaring. -/
def log2Bits : Nat → Nat → Nat → Nat
  | 0, _, acc => acc
  | n + 1, y, acc =>
    let y2 := y * y / 2 ^ apx
    if 2 ^ (apx + 1) ≤ y2 then log2Bits n (y2 / 2) (2 * acc + 1) else log2Bits n y2 (2 * acc)

/-- VLOG2. -/
def fLog2 (f : Fmt) (a : Nat) : Nat × FpFlags :=
  fUnary f a fun v =>
    match v with
    | .fin n m e =>
      if m == 0 then ((f.encode .rne (.inf true)).1, FpFlags.dz)
      else if n then fInvalid f
      else
        let l := Nat.log2 m
        let k : Int := l + e
        if m == 2 ^ l then f.encode .rne (FVal.ofInt k 0)
        else
          let z := k * 2 ^ 128 + (log2Bits 128 (m * 2 ^ (apx - l)) 0 : Nat)
          if z < 0 then f.round .rne true (z.natAbs - 1) (-128) true else f.round .rne false z.natAbs (-128) true
    | v => if v.neg then fInvalid f else f.encode .rne (.inf false)

/-- The reduced argument and the quadrant of a fixed-point angle (R161). -/
def reduceArg (x : Int) : Int × Int :=
  let half := piFix / 2
  (x % half, (x / half) % 4)

/-- VSIN and VCOS of a finite argument that is not tiny and lies below 2^24 in magnitude. -/
def fTrig (f : Fmt) (cosine neg : Bool) (m : Nat) (e : Int) : Nat × FpFlags :=
  let (x, q) := reduceArg (toFix m e)
  let quad := if cosine then (q + 1) % 4 else q
  let s := if quad % 2 == 0 then sinFix x else cosFix x
  let s := if 2 ≤ quad then -s else s
  f.ofFix (if neg && !cosine then -s else s)

/-- VSIN. -/
def fSin (f : Fmt) (a : Nat) : Nat × FpFlags :=
  fUnary f a fun v =>
    match v with
    | .fin n m e =>
      if m == 0 then f.encode .rne v
      else if (Nat.log2 m : Int) + e ≥ 24 then (f.dnan, FpFlags.range)
      else if tinyArg m e then f.justBelow n m e
      else fTrig f false n m e
    | _ => fInvalid f

/-- VCOS. -/
def fCos (f : Fmt) (a : Nat) : Nat × FpFlags :=
  fUnary f a fun v =>
    match v with
    | .fin n m e =>
      if m == 0 then f.encode .rne (.fin false 1 0)
      else if (Nat.log2 m : Int) + e ≥ 24 then (f.dnan, FpFlags.range)
      else if tinyArg m e then f.justBelow false 1 0
      else fTrig f true n m e
    | _ => fInvalid f

/-- `e^-x` for a fixed-point `0 ≤ x`. -/
def expNeg (x : Int) : Int :=
  let k := x / ln2Fix
  expFix (-(x % ln2Fix)) / 2 ^ k.toNat

/-- VTANH. -/
def fTanh (f : Fmt) (a : Nat) : Nat × FpFlags :=
  fUnary f a fun v =>
    match v with
    | .fin n m e =>
      if m == 0 then f.encode .rne v
      else if (Nat.log2 m : Int) + e ≥ 5 then f.justBelow n 1 0
      else if tinyArg m e then f.justBelow n m e
      else
        let t := expNeg (2 * toFix m e)
        let z := (2 ^ apx - t) * 2 ^ apx / (2 ^ apx + t)
        f.ofFix (if n then -z else z)
    | v => f.encode .rne (.fin v.neg 1 0)

/-! ### SX blocks (R162-R165) -/

/-- Mantissa bits of format codes 1 to 3 (R166). -/
def sxM (fmt : Nat) : Nat := if fmt == 1 then 2 else if fmt == 2 then 4 else 7
/-- Bytes of a block. -/
def sxBytes (fmt : Nat) : Nat := if fmt == 1 then 8 else if fmt == 2 then 12 else 18

/-- The little-endian number of a list of bytes. -/
def leNat : List Byte → Nat
  | [] => 0
  | b :: l => b.toNat + 256 * leNat l

/-- The `n` low bytes of a number, least significant first. -/
def leBytes : Nat → Nat → List Byte
  | 0, _ => []
  | n + 1, v => BitVec.ofNat 8 v :: leBytes n (v / 256)

/-- Shared exponent, quad steps and elements (sign, mantissa) of a block. -/
structure SxBlock where
  e : Nat
  delta : List Nat
  elems : List (Bool × Nat)
  deriving DecidableEq, Repr

/-- A block from its bytes (R162). -/
def SxBlock.ofBytes (M : Nat) (b : List Byte) : SxBlock :=
  let steps := (b.getD 1 0).toNat
  let area := leNat (b.drop 2)
  { e := (b.getD 0 0).toNat
    delta := (List.range 4).map fun q => steps / 4 ^ q % 4
    elems := (List.range 16).map fun k =>
      let fld := area / 2 ^ ((M + 1) * k) % 2 ^ (M + 1)
      (fld / 2 ^ M == 1, fld % 2 ^ M) }

/-- The bytes of a block. -/
def SxBlock.toBytes (M : Nat) (b : SxBlock) : List Byte :=
  let steps := (b.delta.zipIdx.map fun (d, q) => d * 4 ^ q).sum
  let area := (b.elems.zipIdx.map fun ((s, m), k) => ((if s then 2 ^ M else 0) + m) * 2 ^ ((M + 1) * k)).sum
  leBytes 1 b.e ++ leBytes 1 steps ++ leBytes (2 * (M + 1)) area

/-- The value of element k (R163). -/
def SxBlock.value (M : Nat) (b : SxBlock) (k : Nat) : FVal :=
  if b.e == 255 then .nan true
  else
    let (s, m) := b.elems.getD k (false, 0)
    .fin s m ((b.e : Int) - 127 - (b.delta.getD (k / 4) 0 : Nat) - ((M : Int) - 1))

/-- Element k as F32; always exact. -/
def SxBlock.f32 (M : Nat) (b : SxBlock) (k : Nat) : Nat := (fmtF32.encode .rne (b.value M k)).1

/-- Magnitude of an F32 value that is no NaN in units of 2^-149; an infinity counts as 2^128 (R164). -/
def sxMag (w : Nat) : Nat :=
  match FVal.decode fmtF32 w with
  | .fin _ m e => m <<< (e + 149).toNat
  | _ => 2 ^ 277

/-- SXEncode (R164) with the flags of R165. -/
def sxEncode (M : Nat) (x : List Nat) : SxBlock × FpFlags :=
  let v := x.map (FVal.decode fmtF32)
  if v.any FVal.isNan then
    (⟨255, List.replicate 4 0, List.replicate 16 (false, 0)⟩, FpFlags.when (anySnan v) FpFlags.nv)
  else
    let a := x.map sxMag
    let amax := a.foldl max 0
    let emax : Int := if amax == 0 then -127 else (Nat.log2 amax : Int) - 149
    let e : Nat := min 254 (emax + 127).toNat
    let delta := (List.range 4).map fun q =>
      [1, 2, 3].foldl (fun d k => if ((a.drop (4 * q)).take 4).all fun y => decide (y * 2 ^ k < amax) then k else d) 0
    let unit := fun j : Nat => (e : Int) - 127 - (delta.getD (j / 4) 0 : Nat) - ((M : Int) - 1)
    let ms := a.zipIdx.map fun (y, j) => min (roundTo .rne false y (-149) (unit j) false).1 (2 ^ M - 1)
    let elems := (v.zip ms).map fun (s, m) => (s.neg, m)
    let unf := (a.zip ms).any fun (y, m) => y != 0 && m == 0
    let nx := ((a.zip v).zip ms).zipIdx.any fun (((y, s), m), j) => s.isInf || m <<< (unit j + 149).toNat != y
    (⟨e, delta, elems⟩,
      FpFlags.when (decide (emax + 127 > 254)) FpFlags.ovf ||| FpFlags.when unf FpFlags.unf ||| FpFlags.when nx FpFlags.nx)

end Sys2Proof
end

