-- ==== Sys2Proof/Machine/Crypto.lean ====
section
/-!
DEFINITION. SHAKE256 and Ed448 under RFC 8032, by which the firmware image, the device identity and the attestation report are signed
(R327).
-/
namespace Sys2Proof.Machine

/-! ## SHAKE256 -/

/-- Rotation offset of each lane of the Keccak state, lane x + 5y at that index. -/
def keccakRot : List Nat :=
  [0, 1, 62, 28, 27, 36, 44, 6, 55, 20, 3, 10, 43, 25, 39, 41, 45, 15, 21, 8, 18, 2, 61, 56, 14]

/-- Round constants. -/
def keccakConst : List DWord :=
  [0x0000000000000001, 0x0000000000008082, 0x800000000000808A, 0x8000000080008000, 0x000000000000808B, 0x0000000080000001,
   0x8000000080008081, 0x8000000000008009, 0x000000000000008A, 0x0000000000000088, 0x0000000080008009, 0x000000008000000A] ++
  [0x000000008000808B, 0x800000000000008B, 0x8000000000008089, 0x8000000000008003, 0x8000000000008002, 0x8000000000000080,
   0x000000000000800A, 0x800000008000000A, 0x8000000080008081, 0x8000000000008080, 0x0000000080000001, 0x8000000080008008]

/-- One round: θ, ρ and π, χ, ι. -/
def keccakRound (a : List DWord) (rc : DWord) : List DWord :=
  let col := (List.range 5).map fun x => (List.range 5).foldl (fun v y => v ^^^ a.getD (x + 5 * y) 0) 0
  let a := a.zipIdx.map fun (v, i) => v ^^^ col.getD ((i + 4) % 5) 0 ^^^ (col.getD ((i % 5 + 1) % 5) 0).rotateLeft 1
  let b := (List.range 25).map fun i =>
    let x := (i % 5 + 3 * (i / 5)) % 5
    let src := x + 5 * (i % 5)
    (a.getD src 0).rotateLeft (keccakRot.getD src 0)
  b.zipIdx.map fun (v, i) =>
    let row := i / 5 * 5
    let w := v ^^^ (~~~(b.getD (row + (i % 5 + 1) % 5) 0) &&& b.getD (row + (i % 5 + 2) % 5) 0)
    if i == 0 then w ^^^ rc else w

def keccak (a : List DWord) : List DWord := keccakConst.foldl keccakRound a

/-- Bytes absorbed and squeezed at a time. -/
def shakeRate : Nat := 136

/-- The blocks absorbed, one for each count. -/
def shakeAbsorb : Nat → List Byte → List DWord → List DWord
  | 0, _, a => a
  | n + 1, m, a =>
    let block := m.take shakeRate
    shakeAbsorb n (m.drop shakeRate)
      (keccak (a.zipIdx.map fun (v, i) => v ^^^ BitVec.ofNat 64 (leNat ((block.drop (8 * i)).take 8))))

/-- The blocks squeezed out of a state. -/
def shakeSqueeze : Nat → List DWord → List Byte
  | 0, _ => []
  | n + 1, a => (a.flatMap fun w => leBytes 8 w.toNat).take shakeRate ++ shakeSqueeze n (keccak a)

/-- The message with the padding of SHAKE256 up to whole blocks. -/
def shakePad (m : List Byte) : List Byte :=
  let n := shakeRate - 1 - m.length % shakeRate
  if n == 0 then m ++ [0x9F] else m ++ [0x1F] ++ List.replicate (n - 1) 0 ++ [0x80]

/-- `n` bytes of SHAKE256 of a message. -/
def shake256 (m : List Byte) (n : Nat) : List Byte :=
  let p := shakePad m
  (shakeSqueeze (n / shakeRate + 1) (shakeAbsorb (p.length / shakeRate) p (List.replicate 25 0))).take n

/-! ## Ed448 -/

/-- The field, the curve's d, the order of the base point. -/
def edP : Nat := 2 ^ 448 - 2 ^ 224 - 1
def edD : Nat := edP - 39081
def edL : Nat := 2 ^ 446 - 13818066809895115352007386748515426880336692474882178609894547503885

/-- `b ^ e` in the field, for exponents below 2 ^ 448. -/
def edPow (b e : Nat) : Nat :=
  (List.range 448).foldr (fun i v => let w := v * v % edP
                                     if e.testBit i then w * b % edP else w) 1

def edSub (a b : Nat) : Nat := (a + (edP - b % edP)) % edP

/-- A point in projective coordinates. -/
structure EdPoint where
  x : Nat
  y : Nat
  z : Nat
  deriving DecidableEq, Repr

def edZero : EdPoint := ⟨0, 1, 1⟩
def edBase : EdPoint :=
  ⟨224580040295924300187604334099896036246789641632564134246125461686950415467406032909029192869357953282578032075146446173674602635247710,
   298819210078481492676017930443930673437544040154080242095928241372331506189835876003536878655418784733982303233503462500531545062832660, 1⟩

/-- Addition; it is complete on this curve. -/
def edAdd (p q : EdPoint) : EdPoint :=
  let a := p.z * q.z % edP
  let b := a * a % edP
  let c := p.x * q.x % edP
  let d := p.y * q.y % edP
  let e := edD * (c * d % edP) % edP
  let f := edSub b e
  let g := (b + e) % edP
  let h := (p.x + p.y) * (q.x + q.y) % edP
  ⟨a * f % edP * edSub (edSub h c) d % edP, a * g % edP * edSub d c % edP, f * g % edP⟩

/-- A multiple of a point, for factors below 2 ^ 456. -/
def edMul (n : Nat) (p : EdPoint) : EdPoint :=
  (List.range 456).foldr (fun i v => let w := edAdd v v
                                     if n.testBit i then edAdd w p else w) edZero

/-- Equality of points. -/
def edSame (p q : EdPoint) : Bool := p.x * q.z % edP == q.x * p.z % edP && p.y * q.z % edP == q.y * p.z % edP

/-- A point in 57 bytes. -/
def edEncode (p : EdPoint) : List Byte :=
  let i := edPow p.z (edP - 2)
  leBytes 57 (p.y * i % edP + p.x * i % edP % 2 * 2 ^ 455)

/-- The point that 57 bytes encode; none for an encoding of none. -/
def edDecode (bs : List Byte) : Option EdPoint :=
  let v := leNat bs
  let y := v % 2 ^ 455
  let sign := v / 2 ^ 455
  let yy := y * y % edP
  let u := edSub yy 1
  let w := edSub (edD * yy) 1
  let x := edPow u 3 * w % edP * edPow (edPow u 5 * edPow w 3 % edP) ((edP - 3) / 4) % edP
  if bs.length != 57 || decide (edP ≤ y) || w * (x * x % edP) % edP != u || (x == 0 && sign == 1) then none
  else some ⟨if x % 2 == sign then x else edP - x, y, 1⟩

/-- The hash of Ed448 with an empty context, as a number: the ASCII bytes of SigEd448, two zero bytes, the message. -/
def edHash (m : List Byte) : Nat := leNat (shake256 ([0x53, 0x69, 0x67, 0x45, 0x64, 0x34, 0x34, 0x38, 0, 0] ++ m) 114)

/-- The signature verifies over a message under a public key. -/
def edVerify (key m sig : List Byte) : Bool :=
  let s := leNat (sig.drop 57)
  match edDecode key, edDecode (sig.take 57) with
  | some a, some r =>
    sig.length == 114 && decide (s < edL) &&
      edSame (edMul (4 * s % edL) edBase) (edMul 4 (edAdd r (edMul (edHash (sig.take 57 ++ key ++ m) % edL) a)))
  | _, _ => false

/-- The secret scalar and the prefix of a 57-byte seed. -/
def edSecret (seed : List Byte) : Nat × List Byte :=
  let h := shake256 seed 114
  (leNat (h.take 56) / 4 * 4 % 2 ^ 447 + 2 ^ 447, h.drop 57)

/-- The public key of a seed. -/
def edPublic (seed : List Byte) : List Byte := edEncode (edMul (edSecret seed).1 edBase)

/-- The 114-byte signature of a message under a seed's key. -/
def edSign (seed m : List Byte) : List Byte :=
  let (a, pre) := edSecret seed
  let r := edHash (pre ++ m) % edL
  let rb := edEncode (edMul r edBase)
  let k := edHash (rb ++ edPublic seed ++ m) % edL
  rb ++ leBytes 57 ((r + k * a) % edL)

end Sys2Proof.Machine
end

