-- ==== Sys2Proof/Config.lean ====
section
/-!
DEFINITION. What the part fixes (R17, R22, R57, R80, R210, R221, R223) and the free values: constants with no body, so that
no proof can depend on what they are.
-/
namespace Sys2Proof.Config

/-- Clusters of the package (R13). -/
def clusters : Nat := 192
/-- Stream buffer slots a context of each kind may hold in one lane block (R57). -/
def ownerShare : Nat := 384
def ashShare : Nat := 64
/-- Vote horizons VQLAT and VQLATM (R80, R92). -/
def vqlat : Nat := 64
def vqlatm : Nat := 128
/-- Vote queue entries (R79), queued replays and staging slots (R71), command staging (R60). -/
def vqDepth : Nat := 16
def replayDepth : Nat := 16
def stagingDepth : Nat := 64
def commandStaging : Nat := 64
/-- Slots of one stretch, its hole sites, slots of a backing region, slots of a segment (R65, R66, R74). -/
def stretchMax : Nat := 4096
def holeMax : Nat := 16
def backingSlots : Nat := 131072
def segment : Nat := 16
/-- Carry inbox entries (R49). -/
def inboxDepth : Nat := 32
/-- Range scoreboard entries of a cluster (R210), fetch queue (R243) and storage queue (R393) of a context. -/
def scoreboard : Nat := 2048
def fetchQueue : Nat := 256
def storageQueue : Nat := 64
/-- Lines of the phase store buffer a context of each kind may hold (R221), lines of a view (R223). -/
def ownerLines : Nat := 48
def ashLines : Nat := 8
def viewLines : Nat := 1024
/-- Populated bytes of one die's HBM4E and the start of its reserved top (R195, R215). -/
def dieBytes : Nat := 128 * 10 ^ 9
def dieReserved : Nat := 128 * 10 ^ 9 - 2 ^ 30
/-- Register granules and row positions of a lane block (R24, R280). -/
def granules : Nat := 128
def rowsPerBlock : Nat := 8
/-- Space of the ash pool of a die (R215). -/
def ashPool : Nat := 112 * 2 ^ 20
/-- Hardware queues (R269). -/
def queues : Nat := 4096

/-- FREE VALUE (log 8): whether a read inside a lookahead window returns the written value (R84); by counter and by the
read's operand and lane. -/
opaque lookaheadNew : Nat → Nat → Bool
/-- FREE VALUE (log 9): whether a read of a CB word that a matrix command covers returns the written value (R190). -/
opaque cbReadNew : Nat → Nat → Bool
/-- FREE VALUE (log 10): the bytes of CB containers whose operands were written in flight (R190); by counter and offset. -/
opaque unspecifiedByte : Nat → Nat → Byte
/-- FREE VALUE (log 11): whether a byte of an aliased overlap receives its copied value (R348). -/
opaque aliasCopied : Nat → Nat → Bool
/-- FREE VALUE (log 18): whether a fetch of a slot that the host has overwritten returns the newer content (R319); by counter
and by version. -/
opaque fetchNew : Nat → Nat → Bool
/-- FREE VALUE (log 12): the bytes of the loaded firmware, by version, where the boot inputs hold no image (R327). -/
opaque firmware : Nat → List Byte
/-- FREE VALUE (log 12): the seed of the device identity key, where the boot inputs do not hold it (R327). -/
opaque identitySeed : List Byte
/-- FREE VALUE (log 19): bytes of the ash pool that the largest image and spill of an ash context take for each member
(R215; the matrix section of R103 is opaque); by rows, registers, carried registers and buffer sizes. -/
opaque ashSpace : Nat → Nat → Nat → Nat → Nat → Nat → Nat
/-- FREE VALUE (log 13): the bytes of a poisoned host read (R319); by address. -/
opaque poisonedByte : Nat → Byte

/-- FREE VALUE (log 14): the block of 64 bytes at which a context's engine dump begins; by context and by the cluster of its leader,
since the dump moves with the context (R317). -/
opaque dumpBlock : Nat → Nat → BitVec 49
/-- The address of a context's engine dump, which TADDR of PREEMPT and RESTORE holds: a canonical address (R193) that is aligned, so that
the handler's loads and stores can reach the dump's words (R316; log 14). -/
def dumpAddress (k cluster : Nat) : DWord := (dumpBlock k cluster).zeroExtend 64 <<< 6
/-- FREE VALUE (log 14): the opaque body of a matrix section (R103, R191), as words; by save, section and member. -/
opaque imageBody : Nat → Nat → Nat → List DWord
/-- FREE VALUE (log 14): words of the image that hold nothing (unused entries, a deadline that is not pending) and the base of an
allocation; by save and place. -/
opaque imageWord : Nat → Nat → DWord
/-- FREE VALUE (log 14): slot offset of a stretch's content in the backing region (R100); by context and content. -/
opaque backingOffset : Nat → Nat → Nat

/-- FREE VALUE (log 77): the partial sum that a matrix command leaves in a latch (R175); by counter, rank, stage and column. -/
opaque latchSum : Nat → Nat → Nat → Nat → BitVec 36

/-- FREE VALUE (log 16): block size and largest transfer in bytes of a namespace that no controller has reported; by port,
requester and namespace. -/
opaque nsBlock : Nat → Nat → Nat → Nat
opaque nsMaxXfer : Nat → Nat → Nat → Nat

end Sys2Proof.Config
end

