-- ==== Sys2Proof/Machine/State.lean ====
section
/-!
DEFINITION. The state of the device as plain data: everything the manual names (Architectural State and the Save Image and the
chapters it points to), the inputs still to come, and what is in hand in the current step.  Also the reasons a step can stop.
-/
namespace Sys2Proof.Machine

/-- Cause codes of R294, in table order. -/
inductive Cause where
  | illegal | privf | csrbad | rsovf | rsund | align | noncanon | nomap | ptebad | perm | fmtf | bufv | capseq | capdup | capnone
  | vqempty | carryr | carryk | qstate | qbad | strbad | gtrap | hstate | illop | illtype | illmark | subbad | illreg | lafld
  | vqovf | caplen | caphole | capfull | inspf | mrange | mdfmt | hdlbad | frange | decf | crcf | sortf | crange | nsubf | mchk
  | timer | deadline | preempt | restore
  deriving DecidableEq, Repr

/-- Domains of R294. -/
inductive TrapDom where
  | g | e | l | x
  deriving DecidableEq, Repr

/-- A fault record (R295) as it is raised. -/
structure Trap where
  cause : Cause
  dom : TrapDom
  rpl : Option (BitVec 8 × BitVec 12) := none
  esn : BitVec 48 := 0
  addr : DWord := 0
  mask : LaneMask := 0
  pc : DWord := 0
  deriving DecidableEq, Repr

/-- The engines of a member (R353, R315); the matrix bank counts as one. -/
inductive Engine where
  | copy | fetch | storage | matrix
  deriving DecidableEq, Repr

/-! ## Registers of a row -/

/-- Shape tags (R89). -/
inductive Tag where
  | u | a | g
  deriving DecidableEq, Repr

/-- A row register: the 64 words and the tag (R87, R89). -/
structure VRegister where
  lanes : Lanes
  tag : Tag
  deriving DecidableEq, Repr

/-- An open lookahead window (R84): slots up to ESN `last` that read `reg` may see `old` in the lanes of `mask`. -/
structure Window where
  reg : Nat
  old : Lanes
  mask : LaneMask
  last : BitVec 48
  deriving DecidableEq, Repr

/-- Frozen values of a retired row (R46), with the order number and ESN at which it retired. -/
structure Frozen where
  seq : Nat
  esn : BitVec 48
  regs : List (Nat × Lanes)
  deriving DecidableEq, Repr

/-- A VAMO under way (R414): the lanes below `next` have been performed and answered `old`; their flags reach the row when the slot
completes (R153). -/
structure AmoPart where
  next : Nat
  old : Lanes
  flags : BitVec 8 := 0
  deriving DecidableEq, Repr

/-- A register instance kept for a consumer that has not yet read it (R45): what the producer of consumer `item` held after the
slot with order number `seq`, with its poisoned lanes. -/
structure Instance where
  seq : Nat
  item : Nat
  operandB : Bool
  reg : Nat
  lanes : Lanes
  bad : LaneMask
  deriving DecidableEq, Repr

/-- A byte of global memory as a translation found it: physical address of the die 0 copy, and whether the page is replicated. -/
structure GLoc where
  pa : Nat
  rep : Bool
  deriving DecidableEq, Repr

/-- A lane's unit in memory as the checks of R216 found it: lane, address, format code, locations. -/
structure LaneUnit where
  lane : Nat
  va : Nat
  fmt : Nat
  locs : List GLoc
  deriving DecidableEq, Repr

/-- A row (R87). -/
structure Row where
  item : Nat
  member : Nat
  /-- first granule of its placement in its lane block (R280) -/
  granule : Nat
  regs : List VRegister
  preds : Vector LaneMask 16
  mask : LaneMask
  rng : Vector DWord 64
  flags : BitVec 8
  /-- order number of the next stream entry the row takes -/
  issue : Nat
  windows : List Window
  retired : Option Frozen
  /-- the fault that stopped the row (R297), with the order number of its slot -/
  stop : Option (Nat × Trap)
  /-- a fault of a slot with a lookahead window at which the row has not stopped yet (R85): order number, record, last ESN of the
  window -/
  late : Option (Nat × Trap × BitVec 48) := none
  /-- order numbers of slots of that window that have completed before the slot itself (R85), and the lanes that they wrote -/
  ahead : List Nat := []
  overwritten : List (Nat × LaneMask) := []
  /-- instances of those slots that consumers wait for until the slot itself is over (R45), each with the lanes of its register that slots
  of the window had written by then -/
  due : List (Instance × LaneMask) := []
  /-- the active mask of that slot, when slots of its window have completed before it (R85, R29) -/
  lateMask : Option LaneMask := none
  /-- the row has completed the slot that it had in execution when the gang began to halt (R298) -/
  halted : Bool := false
  /-- a VAMO of which some lanes have been performed (R414) -/
  amo : Option AmoPart := none
  /-- order number of a slot that stalls, with the units that its checks found (R211) -/
  held : Option (Nat × List LaneUnit) := none
  deriving DecidableEq, Repr

/-! ## The stream -/

/-- A stream position recorded at emission (R254). -/
structure StreamPos where
  base : Nat
  len : Nat
  val : Bool
  isOpen : Bool
  cur : Nat
  deriving DecidableEq, Repr

/-- Stream-ordered markers (R63), with what each fixed when it executed; `fixed` are the word locations of CDEF.mem (R345). -/
inductive Marker where
  | fence (sc : Scope)
  | fenceX
  | phase (rel acq : Bool)
  | bar (sc : Scope)
  | tset (b : FeBuf) (full : Bool) (off : Nat)
  | cdef (x : Nat) (mem : Bool) (a : DWord) (fixed : List GLoc)
  deriving DecidableEq, Repr

/-- What a stream entry holds: a slot after substitution or a marker. -/
inductive StreamItem where
  | slot (i : Instr)
  | marker (m : Marker)
  deriving DecidableEq, Repr

/-- An entry of the stream (R56, R57): an order number, the ESN (0 for markers), carry distances (R42), stream positions (R254),
β and the budget of an SCHK (R261), the origin in a replay, the emission PC, the key count K of R290, and the G slot of a marker
(R100). -/
structure Entry where
  seq : Nat
  esn : BitVec 48
  item : StreamItem
  kA : Nat := 0
  kB : Nat := 0
  streams : List StreamPos := []
  beta : BitVec 16 := 0
  budget : BitVec 16 := 0
  rpl : Option (BitVec 8 × BitVec 12) := none
  pc : DWord := 0
  key : Nat := 0
  gslot : DWord := 0
  deriving DecidableEq, Repr

/-- A recorded slot of a stretch (R66, R67): holes keep their marker; `vals` are the values substituted at capture. -/
structure RecSlot where
  i : Instr
  kA : Nat
  kB : Nat
  vals : List DWord
  pc : DWord
  deriving DecidableEq, Repr

/-- A stretch name that is not empty (R65). -/
structure Stretch where
  name : BitVec 8
  defined : Bool
  dry : Bool
  /-- number of the content in the backing region, so that a queued replay outlives its name (R73) -/
  content : Nat
  recs : List RecSlot
  deriving DecidableEq, Repr

/-- A queued or running replay (R71, R74). -/
structure Replay where
  name : BitVec 8
  content : Nat
  recs : List RecSlot
  /-- next segment to feed -/
  segment : Nat
  esn : BitVec 48
  binds : Vector Word 16
  /-- per slot: stream positions, β, budget -/
  fixed : List (List StreamPos × BitVec 16 × BitVec 16)
  key : Nat
  deriving DecidableEq, Repr

/-- What waits behind replays before it enters the stream buffers (R71). -/
inductive Intake where
  | replay (r : Replay)
  | entry (e : Entry)
  deriving DecidableEq, Repr

/-- What a vote-queue entry counts (R78, R82). -/
inductive VoteKind where
  | any | all | cnt | schk
  deriving DecidableEq, Repr

/-- A vote-queue entry (R79): its reserved ESN, the order number once fed, what has been contributed, the result. -/
structure VqEntry where
  esn : BitVec 48
  kind : VoteKind
  seq : Option Nat
  anySet : Bool
  allSet : Bool
  count : Nat
  /-- members that have answered an SCHK -/
  answered : Nat
  result : Option DWord
  budget : BitVec 16
  deriving DecidableEq, Repr

/-- A stream register (R252). -/
structure StreamReg where
  base : Nat
  len : Nat
  val : Bool
  isOpen : Bool
  cur : Nat
  deriving DecidableEq, Repr

/-- A carry inbox entry (R49). -/
structure InboxEntry where
  seq : Nat
  consumer : Nat
  operandB : Bool
  reg : Nat
  lanes : Lanes
  bad : LaneMask
  deriving DecidableEq, Repr

/-! ## A member's buffers and engines -/

/-- States of a lendable range (R208). -/
inductive LendState where
  | untouched | touched
  | lent (holder : Nat)
  /-- lent, and reclaimed by an access of the owner that waits for the spill -/
  | owed (holder : Nat)
  deriving DecidableEq, Repr

/-- A lendable range of an owner (R208). -/
structure Lend where
  buf : Buf
  off : Nat
  len : Nat
  st : LendState
  deriving DecidableEq, Repr

/-- A typed buffer: allocation size, bytes by offset (unlisted bytes are 0), full/empty bits (R205, R212). -/
structure BufMem where
  size : Nat
  cells : List Host.Cell
  full : BitVec 1024
  deriving DecidableEq, Repr

/-- Spaces that ranges are compared in (R210, R211). -/
inductive Space where
  | global
  | buf (b : Buf)
  deriving DecidableEq, Repr

structure Range where
  sp : Space
  lo : Nat
  len : Nat
  deriving DecidableEq, Repr

/-- How far an engine command has come. -/
inductive CmdState where
  | queued
  | started
  | faulted (t : Trap)
  deriving DecidableEq, Repr

/-- A line snapshot of a view (R223), by the physical address it was read at. -/
structure ViewLine where
  pa : Nat
  data : List Byte
  deriving DecidableEq, Repr

/-- An engine command handed over and not retired: its entry, the row registers copied at hand-over (R181, R246), whether it
waits for an MRDY (R185), how far it has come. -/
structure Cmd where
  e : Entry
  copied : List Lanes
  held : Bool
  st : CmdState
  /-- physical lines of the global destination, which leave the view at retirement (R224) -/
  lines : List Nat := []
  /-- TADDR of a poisoned word among the copied registers (R310) -/
  spoiled : Option Nat := none
  /-- lines of global memory that the engine has read ahead of the others (R336) -/
  got : List ViewLine := []
  deriving DecidableEq, Repr

/-- A range-scoreboard entry (R210). -/
structure BoardEntry where
  seq : Nat
  eng : Engine
  dst : Option Range
  src : List Range
  deriving DecidableEq, Repr

/-- A weight plane (R175, R386): format code and the tile's stored bytes. -/
structure Plane where
  code : Nat
  tile : List Byte
  deriving DecidableEq, Repr

/-- A matrix command whose ranges no MWAIT has covered yet (R190). -/
structure Hazard where
  tag : BitVec 16
  seq : Nat
  reads : List Range
  cb : Range
  /-- bytes of the CB range before the command wrote it, once it has -/
  old : Option (List Byte)
  tainted : Bool
  deriving DecidableEq, Repr

/-- A bank of the matrix array (R175). -/
structure Bank where
  active : Plane
  shadow : Plane
  rowScale : List (BitVec 16)
  colScale : List (BitVec 16)
  flags : BitVec 256
  queue : List Cmd
  hazards : List Hazard
  /-- bank 1 is bound to this ash context (R176); true for an owner -/
  bound : Bool
  /-- loaded or used since it was bound: a command has been handed over to it (R191) -/
  used : Bool := false
  /-- what the partial-sum latches hold (R175): none while every sum is 0 (R94, R184), else the number of the free values that the last
  command left in them; `Bank.latch` reads them -/
  sums : Option Nat := none
  deriving DecidableEq, Repr

/-- A line of the phase store buffer (R221): its first byte's location and the masked bytes. -/
structure PsbLine where
  loc : GLoc
  data : List (Option Byte)
  /-- places of bytes that a row of higher item has stored at the same slot or at a later one on another member: they are not performed
  (R32) -/
  lost : List Nat := []
  /-- places of bytes that a lane slot stored last, with its order number (R32) -/
  slots : List (Nat × Nat) := []
  /-- the virtual lines, with their domain, through which its bytes were stored (R218) -/
  vas : List (Nat × Nat) := []
  deriving DecidableEq, Repr

/-- What a context has on one cluster (R14, R21). -/
structure Member where
  cluster : Nat
  wb : BufMem
  ab : BufMem
  cb : BufMem
  lends : List Lend
  /-- spilled contents of ranges lent to this context: buffer, owner's offset, bytes (R208) -/
  spilled : List (Buf × Nat × List Byte)
  handles : Vector (BitVec 256) 64
  bank : Bank
  copyQ : List Cmd
  fetchQ : List Cmd
  storageQ : List Cmd
  board : List BoardEntry
  /-- every entry below this order number has been handed over here -/
  handed : Nat
  /-- the MWAIT or CWAIT that holds the rows (R186, R354); on a member without rows, where none holds, those that have not completed
  (R60) -/
  holds : List Entry
  psb : List PsbLine
  view : List ViewLine
  /-- snapshots taken ahead of the loads that add them to the view (R223) -/
  early : List ViewLine := []
  inbox : List InboxEntry
  deriving DecidableEq, Repr

/-! ## Contexts -/

/-- Traffic classes (R278). -/
inductive TrafficClass where
  | crimson | normal | bulk | ash
  deriving DecidableEq, Repr

/-- Why a generator does not move (R282). -/
inductive GenState where
  | running
  | sleepQueue (q : Nat) (d : GReg) (sq : Seq)
  /-- asleep in GWFE with this mask -/
  | sleepEvent (mask : BitVec 3)
  /-- asleep in TWAIT -/
  | sleepGranule
  | stopped
  deriving DecidableEq, Repr

/-- What ended a dispatch (R268). -/
structure Ended where
  status : BitVec 8
  reason : BitVec 8
  tcause : DWord
  tesn : DWord
  deriving DecidableEq, Repr

/-- The trap being handled: its record, the reported row, the engine it came from, whether a CDEF marker raised it (R299, R303). -/
structure Handling where
  trap : Trap
  row : Option Nat
  eng : Option (Nat × Engine)
  marker : Bool
  /-- the handler was entered after StopContext (R308) -/
  afterExit : Bool
  /-- where the generator goes on, and what a skip of an emission or generator fault adds (R303, R144) -/
  resume : DWord
  skipLen : Nat
  deriving DecidableEq, Repr

/-- A command written to the engine dump (R315). -/
structure DumpEntry where
  esn : BitVec 48
  eng : Engine
  member : Nat
  cmd : Cmd
  dropped : Bool
  /-- handed over again (R317); its bytes stand in the dump until the next switch -/
  handed : Bool := false
  deriving DecidableEq, Repr

/-- A save image: its bytes (R98). -/
abbrev Image := List Byte

/-- Phases of a switch (R314, R317). -/
inductive SwitchPhase where
  | inside
  /-- the PREEMPT handler runs; the switch continues at its GRTE -/
  | preempting
  | out
  /-- the RESTORE handler runs, or that of a fault recorded at the switch (R318); the restore continues at its GRTE -/
  | restoring
  /-- the engine dump is handed over again; the generator and the rows resume behind it (R317) -/
  | rehanding
  deriving DecidableEq, Repr

/-- What a generator asleep in TWAIT waits for, and whether the granules have been in that state (R283, R405). -/
structure TwaitFor where
  buf : Buf
  off : Nat
  full : Bool
  met : Bool
  deriving DecidableEq, Repr

/-- Bytes that a row has stored at a slot that other rows still have to take (R32): its order number, the item, the member, the words of
a buffer by offset or the bytes of global memory by physical address. -/
structure SlotStore where
  seq : Nat
  item : Nat
  member : Nat
  cells : List (Space × Nat)
  deriving DecidableEq, Repr

structure Ctx where
  id : Nat
  domain : Nat
  cls : TrafficClass
  mono : Bool
  monoGroup : Nat
  monoRank : Nat
  mm1 : Bool
  rowCount : Nat
  regCount : Nat
  kbase : DWord
  rodata : DWord
  compl : DWord
  launchQueue : Nat
  launchSlot : Nat
  /-- device queue bound to each context queue (R265) -/
  queues : Vector (Option Nat) 16
  /-- last slot taken from each device queue and not released (R270) -/
  taken : List (Nat × Nat)
  carried : List Nat
  gen : GenState
  g : Vector DWord 64
  f : BitVec 8
  lc : Vector Word 3
  h : Vector Word 16
  rstack : List DWord
  pc : DWord
  ir : Option Instr
  nextEsn : BitVec 48
  nextSeq : Nat
  ck1 : BitVec 16
  ck2 : BitVec 16
  rmax : BitVec 16
  beta : BitVec 16
  dense : Bool
  priv : Bool
  handler : Bool
  tvec : DWord
  tcause : DWord
  tesn : DWord
  taddr : DWord
  tmask : DWord
  tpc : DWord
  cycle : DWord
  /-- generator instructions completed on the leader (R93) and lane slots emitted (R290) -/
  genCount : Nat
  emitCount : Nat
  /-- ESNs fed into the stream -/
  fed : Nat
  latches : BitVec 3
  deadline : Option DWord
  /-- events that wait for the handler's return, with the TADDR they will report (R305) -/
  timerWaits : Option DWord
  deadlineWaits : Option DWord
  /-- CYCLE at which TIMER was last raised (R311) -/
  lastTimer : DWord
  vq : List VqEntry
  streams : Vector StreamReg 8
  stretches : List Stretch
  nextContent : Nat
  intake : List Intake
  stream : List Entry
  /-- inspection slots and handler markers waiting (R302, R337); with the items still to execute the first -/
  channel : List (Entry × List Nat)
  defaults : List (Nat × Lanes)
  kept : List Instance
  rows : List Row
  members : List Member
  handling : Option Handling
  /-- a fault has been detected and the gang halts (R298) -/
  halting : Bool
  /-- REALTIME at the arrival of a pre-emption that waits for the handler's return (R306) -/
  deferred : Option DWord
  switch : SwitchPhase
  /-- the generator slept when the switch abandoned its QPOP, GWFE or TWAIT (R290, R314) -/
  slept : Bool
  image : Option Image
  dump : List DumpEntry
  revoked : Bool
  ended : Option Ended
  completed : Bool
  /-- `State.moves` at the last instruction of the generator (R282), and at the last slot of each member's lane block (R287) -/
  ranAt : Nat := 0
  issuedAt : List ((Nat × Nat) × Nat) := []
  twait : Option TwaitFor := none
  /-- the pre-emption that switched the owner out, with those it shares with the other owners of its partitions (R26) -/
  swap : Option Nat := none
  /-- stores of rows at slots that rows of lower item have not taken (R32) -/
  stores : List SlotStore := []
  /-- inspection slots emitted, which K counts and no ESN does (R290, R302) -/
  inspCount : Nat := 0
  /-- what the handlers of switches have executed and emitted, which K does not count; K while such a handler runs (R290) -/
  keySkip : Nat := 0
  keyHold : Option Nat := none
  deriving DecidableEq, Repr

/-! ## The device -/

/-- Consumers of a device queue (R269). -/
inductive Consumer where
  | context | launch | control
  deriving DecidableEq, Repr

/-- A device queue (R269, R270, R320). -/
structure DevQueue where
  num : Nat
  domain : Option Nat
  ring : Nat
  logd : Nat
  logr : Nat
  consumer : Consumer
  crimson : Bool
  bitmap : Nat
  budget : Nat
  ticket : Nat
  head : Nat
  committed : List Nat
  unreleased : List Nat
  sleepers : List Nat
  /-- REALTIME of the last commit (R312) and the slot that COMMIT reads return (R320) -/
  lastCommit : DWord
  lastSlot : DWord
  deriving DecidableEq, Repr

/-- A kernel of a code object with the defaults of its directives (R132). -/
structure Kernel where
  entry : DWord
  rodata : DWord
  rows : Nat
  regs : Nat
  gang : Nat
  cls : TrafficClass
  wb : Nat
  ab : Nat
  cb : Nat
  lends : List (Buf × Nat × Nat)
  carry : List Nat
  mmrev : Nat
  levels : List (Nat × Nat × Nat)
  mono : Bool
  params : List GReg
  handler : Option DWord
  /-- extents of the stretches that `.stretch` names: name, first and last slot of the kernel -/
  extents : List (Nat × Nat × Nat) := []
  deriving DecidableEq, Repr

/-- One level of a function in an Abeus container (R291): 2 tile, 1 loop, 0 Kator; its version word (for Kator the revision that it
declares), the kernel that it stands for, the code that the translator makes of it, at a byte offset of the object, and its read-only
data, which lie at the kernel's RODATA (R132). -/
structure AbeusLevel where
  level : Nat
  version : Nat
  kernel : Kernel
  place : Nat
  code : List Byte
  data : List Byte := []
  deriving DecidableEq, Repr

/-- The cross-reference table of a container (R291): the loop nests of each tile operation, and the Kator slot range of each loop nest. -/
structure CrossRef where
  tiles : List (Nat × List Nat)
  nests : List (Nat × Nat × Nat)
  deriving DecidableEq, Repr

/-- An Abeus container as it is given to the translator: the domain, where the code object goes, the levels of each function, the
cross-reference table. -/
structure Container where
  domain : Nat
  va : Nat
  funcs : List (List AbeusLevel)
  xref : CrossRef := ⟨[], []⟩
  deriving DecidableEq, Repr

/-- A translated code object (R291, R265). -/
structure CodeObj where
  domain : Nat
  va : Nat
  kernels : List Kernel
  deriving DecidableEq, Repr

/-- The launch parameters in force after the defaults (R265, R132). -/
structure LaunchRec where
  kernel : Kernel
  gang : Nat
  rows : Nat
  regs : Nat
  cls : TrafficClass
  mono : Bool
  monoGroup : Nat
  wb : Nat
  ab : Nat
  cb : Nat
  seed : DWord
  compl : DWord
  queues : Vector (Option Nat) 16
  tvec : DWord
  params : List DWord
  deriving DecidableEq, Repr

/-- An accepted launch that has not been placed (R281). -/
structure Waiting where
  k : Nat
  queue : Nat
  slot : Nat
  domain : Nat
  rank : Nat
  reported : Bool
  params : LaunchRec
  /-- the base at which an ash launch has taken space in the ash pools (R215) -/
  pool : Nat := 0
  deriving DecidableEq, Repr

/-- A namespace behind a storage port, as its controller reports it (R392). -/
structure Namespace where
  port : Nat
  requester : Nat
  ns : Nat
  block : Nat
  maxXfer : Nat
  deriving DecidableEq, Repr

/-- A submitted NVMe command that has no completion entry yet. -/
structure NvmeCmd where
  ctx : Nat
  tag : BitVec 16
  kind : BitVec 2
  seq : Nat
  lba : DWord
  fua : Bool
  /-- physical locations of the data, one per byte -/
  locs : List GLoc
  /-- lines of a write's payload that the controller has read already (R336, R394) -/
  got : List ViewLine := []
  deriving DecidableEq, Repr

/-- An NVMe I/O queue pair (R276, R321) with its submitted commands and unreported completions. -/
structure NvmePair where
  num : Nat
  port : Nat
  requester : Nat
  ns : Nat
  entries : Nat
  domain : Nat
  submitted : List NvmeCmd
  done : List (BitVec 16 × BitVec 2 × NvmeStatus)
  /-- first block and payload of the write commands that have retired, oldest first (R322, R393) -/
  written : List (DWord × List Byte) := []
  deriving DecidableEq, Repr

/-- A translation (R197): page base, size, physical base, replication, format, permissions. -/
structure Xlat where
  base : Nat
  size : Nat
  pa : Nat
  rep : Bool
  fmt : Nat
  r : Bool
  w : Bool
  x : Bool
  u : Bool
  deriving DecidableEq, Repr

/-- A shootdown in progress (R218). -/
structure Shoot where
  k : Nat
  queue : Nat
  slot : Nat
  domain : Nat
  lo : Nat
  len : Nat
  /-- address of the completion record -/
  compl : Nat
  /-- domain of the control queue -/
  via : Option Nat
  /-- the result word of the completion record: of a PATCH the number of contexts that it parked (R293) -/
  result : Nat := 0
  deriving DecidableEq, Repr

/-- Fenced units (R326). -/
structure Fenced where
  clusters : BitVec 192
  slices : BitVec 256
  hbm : BitVec 8
  ucie : BitVec 8
  storage : BitVec 4
  ranoc : BitVec 16
  deriving DecidableEq, Repr

/-- A firmware image with its signature, and the vendor key in the fuses (R327). -/
structure FirmwareImage where
  bytes : List Byte
  signature : List Byte
  vendorKey : List Byte
  deriving DecidableEq, Repr

/-- What bring-up finds (R325): the verdicts of the security block, the fuses and the signature, versions, the units that fail. -/
structure BootInputs where
  securityOk : Bool
  fusesOk : Bool
  signatureOk : Bool
  version : Nat
  rollback : Nat
  skoconOk : Bool
  failing : Fenced
  /-- the image that the boot ROM verifies itself; none when only its verdict is known -/
  image : Option FirmwareImage := none
  /-- the seed of the device identity key (R327), when it is known -/
  identity : Option (List Byte) := none
  deriving DecidableEq, Repr

/-- Where the device stands (R325, R326). -/
inductive DevPhase where
  | atReset
  | running
  | amber (step code : BitVec 8)
  deriving DecidableEq, Repr

/-- Reports to the management controller and the host. -/
inductive Report where
  | fragwait (k : Nat)
  | imgbad (c : Nat)
  | killed (c : Nat)
  /-- units have been fenced at run time: STATUS.REPLACE is set (R328) -/
  | replace
  | badRead (x : Nat)
  | badWrite (x : Nat)
  | selfTest (bytes : List Byte)
  | attestation (bytes : List Byte)
  /-- a fault of a context that its leaf controller reports (R264), with TCAUSE -/
  | fault (c : Nat) (tcause : DWord)
  /-- an error that was corrected on read (R309) -/
  | corrected (l : PoisonLoc)
  deriving DecidableEq, Repr

/-- A message of a leaf controller to the Skocon scheduler (R263, R264): it waits in its sender until it is sent, and holds one of the
link's permits from then until the receiver accepts it. -/
structure Message where
  leaf : Nat
  crimson : Bool
  sent : Bool
  body : Report
  deriving DecidableEq, Repr

/-- The place of a context's accesses in the order of its Monochrome group (R290). -/
structure MonoPlace where
  id : Nat
  group : Nat
  rank : Nat
  key : Nat
  deriving DecidableEq, Repr

/-- A drained line that its region's home has not performed yet: a port has accepted it (R227), or it waits for its place in the order
of a Monochrome group (R290). -/
structure Accepted where
  /-- the context whose stores it holds, which its releases and its completion record wait for (R227, R240) -/
  owner : Nat
  region : Nat
  bytes : List (GLoc × Byte)
  place : Option MonoPlace := none
  /-- the virtual lines, with their domain, through which its bytes were stored (R218) -/
  vas : List (Nat × Nat) := []
  deriving DecidableEq, Repr

/-- What the scheduler has a leaf controller do (R264). -/
inductive OrderBody where
  | place (k : Nat)
  | switchOut (c : Nat)
  | restore (c : Nat)
  deriving DecidableEq, Repr

/-- A message of the Skocon scheduler to a leaf controller that has been sent and not accepted: it holds one of the link's permits
(R263). -/
structure Order where
  leaf : Nat
  crimson : Bool
  body : OrderBody
  deriving DecidableEq, Repr

/-- Slice lengths in ac of the classes that have one; 0 means none (R311). -/
structure Slices where
  normal : Nat
  bulk : Nat
  ash : Nat
  deriving DecidableEq, Repr

/-- Who moves. -/
inductive Turn where
  | gen (c : Nat)
  | row (c item : Nat)
  /-- a row's turn in which at most `n` lanes of an atomic are performed (R414) -/
  | rowPart (c item n : Nat)
  /-- a row's turn whose fault, if any, is detected later (R85) -/
  | rowLate (c item : Nat)
  | engine (c m : Nat) (e : Engine)
  /-- the turn of the command with order number `seq` of an engine, which runs, or reads the line at a physical address and no other
  (R336, R347) -/
  | command (c m : Nat) (e : Engine) (seq : Nat) (line : Option Nat)
  | hold (c m : Nat)
  /-- a leaf controller sends its next message, or the scheduler accepts the next one of a link (R263) -/
  | linkSend (leaf : Nat)
  | linkAccept (leaf : Nat)
  /-- a leaf controller accepts the next message of the scheduler (R263) -/
  | orderAccept (leaf : Nat)
  /-- the next line of a region that waits for nothing is performed (R227, R290) -/
  | port (region : Nat)
  | step (i : Instr)
  deriving DecidableEq, Repr

/-- An input from outside or a choice that the manual leaves to timing, in the order in which it happens. -/
inductive Input where
  | turn (t : Turn)
  /-- `n` periods of the arithmetic clock pass (R7) -/
  | ac (n : Nat)
  /-- a snapshot of a line is taken for a member of a context before the load that adds it to the view (R223) -/
  | snapshot (c m line : Nat)
  /-- the controller reads a line of the payload of the `k`-th submitted command of a pair (R336, R394) -/
  | payload (pair k line : Nat)
  /-- a translation is cached (R218) -/
  | cache (domain : Nat) (va : DWord)
  /-- the `n`-th cached translation of an address, or a walk when there is none, is the one that accesses use from now on (R218) -/
  | prefer (domain : Nat) (va : DWord) (n : Nat)
  /-- the same for the fetches of generators (R218, R219) -/
  | preferCode (domain : Nat) (va : DWord) (n : Nat)
  /-- cached translations of an address are discarded (R218) -/
  | discard (domain : Nat) (va : DWord)
  /-- the translator is given a container (R291) -/
  | container (x : Container)
  /-- the host reads 64 bits at an offset of BAR0 (R5, R320) -/
  | registerRead (addr : Nat)
  /-- the host programs the base of the device's HDM decoder (R319) -/
  | hdmBase (a : Nat)
  /-- the firmware gives the traffic classes their slices (R311) -/
  | slices (x : Slices)
  /-- a correctable error is corrected on read (R309) -/
  | corrected (l : PoisonLoc)
  /-- a controller reports a namespace (R321) -/
  | found (n : Namespace)
  deriving DecidableEq, Repr

/-- What is being executed: a context, a member, a row, a stream entry. -/
structure Hand where
  ctx : Nat
  member : Nat
  row : Nat
  entry : Option Entry
  /-- how many lanes of an atomic are performed in this turn (R414), or the line that an engine reads ahead (R336); none is all
  of them -/
  part : Option Nat := none
  /-- a lane fault of a slot with a lookahead window is detected after slots of the window (R85) -/
  late : Bool := false
  deriving DecidableEq, Repr

structure State where
  phase : DevPhase
  boot : BootInputs
  fenced : Fenced
  deviceNumber : Option (BitVec 10)
  realtime : DWord
  mem : List Host.Cell
  domains : List (Nat × Nat)
  tlb : List (Nat × Xlat)
  /-- translations that generators fetch under until a shootdown is acknowledged (R219) -/
  codeTlb : List (Nat × Xlat)
  code : List CodeObj
  queues : List DevQueue
  /-- errors counted per queue; the windows of R320 exist for every queue number -/
  errcnt : List (Nat × Word)
  ctlDesc : Vector DWord 4
  ctlEn : Bool
  ctlBad : Bool
  /-- EN = 0 has been written and takes effect once every record taken has completed (R320) -/
  ctlClosing : Bool
  /-- base of the host's memory window (R319) -/
  hdmBase : Nat
  /-- what the last host read of TICKET or over CXL.mem, or the last peer read or atomic, returned -/
  hostRead : List Byte
  namespaces : List Namespace
  pairs : List NvmePair
  shoots : List Shoot
  waiting : List Waiting
  ctxs : List Ctx
  poison : List PoisonLoc
  /-- slots (physical address, bytes) as they stood before host writes that no acknowledged shootdown covers yet (R319) -/
  oldSlots : List (Nat × List Byte)
  log : List Report
  /-- messages on the command links and in their senders (R263) -/
  links : List Message
  /-- messages of the scheduler that hold a permit of their leaf's link (R263) -/
  orders : List Order
  /-- drained lines that are not performed yet, oldest first (R227, R290) -/
  accepted : List Accepted
  slices : Slices
  nextId : Nat
  nextRank : Nat
  agenda : List Input
  hand : Hand
  /-- the last transition found its condition unmet and changed nothing else -/
  waited : Bool
  /-- counter of free values (log 5) -/
  free : Nat
  /-- turns taken by generators and rows, which say who moved least recently (R282, R287) -/
  moves : Nat
  deriving DecidableEq, Repr

/-- Why the machine stops.  No program reaches a stop: every step that `Sys2Proof.Machine.step` takes has somebody in hand. -/
inductive Fault where
  /-- raised by a meaning when the context, member, row or slot that `State.hand` names does not exist; safe, since the
  hardware executes nothing without an executor -/
  | noExecutor
  deriving DecidableEq, Repr

/-- Why an instruction is refused. -/
inductive Refusal where
  /-- not modelled yet; safe, no arm of `exec` raises it any more -/
  | notModelled (mnemonic : String)
  deriving DecidableEq, Repr

/-- No unit fenced. -/
def Fenced.clear : Fenced := ⟨0, 0, 0, 0, 0, 0⟩

/-- The device right after reset (R325): before step 1, nothing enabled, nothing launched, memory with nothing listed. -/
def State.reset : State :=
  { phase := .atReset
    boot := { securityOk := true, fusesOk := true, signatureOk := true, version := 0, rollback := 0, skoconOk := true,
              failing := Fenced.clear }
    fenced := Fenced.clear
    deviceNumber := none
    realtime := 0
    mem := []
    domains := []
    tlb := []
    codeTlb := []
    code := []
    queues := []
    errcnt := []
    ctlDesc := Vector.replicate 4 0
    ctlEn := false
    ctlBad := false
    ctlClosing := false
    hdmBase := 0
    hostRead := []
    namespaces := []
    pairs := []
    shoots := []
    waiting := []
    ctxs := []
    poison := []
    oldSlots := []
    log := []
    links := []
    orders := []
    accepted := []
    slices := ⟨0, 0, 0⟩
    nextId := 0
    nextRank := 0
    agenda := []
    hand := { ctx := 0, member := 0, row := 0, entry := none }
    waited := false
    free := 0
    moves := 0 }

end Sys2Proof.Machine
end

