-- ==== Sys2Proof/Machine/Memory.lean ====
section
/-!
DEFINITION. Byte maps in one canonical form (addresses strictly rising, no listed byte equal to what an unlisted address
reads as), physical addresses (R195, R200, R215), page tables (R196-R199) and the buffers' bytes (R205).
-/
namespace Sys2Proof.Machine

/-! ## Byte maps -/

/-- The byte at an address; an unlisted address reads as zero (log 1 for memory; R94 for the typed buffers). -/
def Memory.read (m : List Host.Cell) (a : Nat) : Byte :=
  match m with
  | [] => 0
  | (b, v) :: l => if b == a then v else Memory.read l a

/-- The canonical form. -/
def Memory.wf : List Host.Cell → Bool
  | [] => true
  | [(_, v)] => v != 0
  | (a, v) :: (b, w) :: l => v != 0 && decide (a < b) && Memory.wf ((b, w) :: l)

/-- One byte written; writing zero removes the entry. -/
def Memory.write (m : List Host.Cell) (a : Nat) (v : Byte) : List Host.Cell :=
  match m with
  | [] => if v == 0 then [] else [(a, v)]
  | (b, w) :: l =>
    if a < b then (if v == 0 then (b, w) :: l else (a, v) :: (b, w) :: l)
    else if a == b then (if v == 0 then l else (a, v) :: l)
    else (b, w) :: Memory.write l a v

/-- `n` bytes from an address on. -/
def Memory.readN (m : List Host.Cell) (a n : Nat) : List Byte := (List.range n).map fun k => Memory.read m (a + k)

/-- Bytes written from an address on. -/
def Memory.writeN (m : List Host.Cell) (a : Nat) : List Byte → List Host.Cell
  | [] => m
  | v :: l => Memory.writeN (Memory.write m a v) (a + 1) l

/-- A little-endian word of `n` bytes (R3). -/
def Memory.word (m : List Host.Cell) (a n : Nat) : Nat := leNat (Memory.readN m a n)

/-! ## Physical addresses -/

/-- An offset of region 0x0 lies in a fenced stack: stack 2d + k holds the k-th half of die d's populated bytes (R18, R326; log 61). -/
def stackFenced (f : Fenced) (pa : Nat) : Bool :=
  f.hbm != 0 && f.hbm.getLsbD (2 * (pa / 2 ^ 37 % 4) + pa % 2 ^ 37 / (Config.dieBytes / 2))

/-- A link to a region is left: of region 0x1 a module of the host port, of region 0x2 a Ranoc port (R18, R319, R324). -/
def Fenced.linked (f : Fenced) (region : Nat) : Bool :=
  match region with
  | 1 => f.ucie != BitVec.allOnes 8
  | 2 => f.ranoc != BitVec.allOnes 16
  | _ => true

/-- A storage port is fenced (R328). -/
def State.portFenced (s : State) (port : Nat) : Bool := s.fenced.storage.getLsbD port

/-- R195: the region exists, its unassigned bits are zero, and in regions 0 and 2 the offset is populated; a fenced stack takes its
bytes away (R18; log 61), and so do the links of a region once none is left (log 84). -/
def paExists (f : Fenced) (pa : Nat) : Bool :=
  match pa / 2 ^ 52 with
  | 0 => decide (pa % 2 ^ 52 < 2 ^ 39) && decide (pa % 2 ^ 37 < Config.dieBytes) && !stackFenced f pa
  | 1 => f.linked 1
  | 2 => decide (pa % 2 ^ 52 < 2 ^ 49) && decide (pa % 2 ^ 37 < Config.dieBytes) && f.linked 2
  | _ => false

/-- R215: an offset in the reserved top of a die. -/
def paReserved (pa : Nat) : Bool :=
  decide (pa < 2 ^ 52) && decide (Config.dieReserved ≤ pa % 2 ^ 37)

/-- The stack that holds the reserved top of a die is fenced (R18, R215; log 61). -/
def topFenced (f : Fenced) (die : Nat) : Bool := f.hbm.getLsbD (2 * die + 1)

/-- An address that a page-table entry may hold (R198). -/
def paMappable (f : Fenced) (pa : Nat) : Bool := paExists f pa && !paReserved pa

/-- The copy of a location on a die (R200). -/
def GLoc.on (l : GLoc) (die : Nat) : Nat :=
  if l.rep then l.pa - (l.pa / 2 ^ 37 % 4) * 2 ^ 37 + die * 2 ^ 37 else l.pa

/-- The addresses of a location's copies. -/
def GLoc.copies (l : GLoc) : List Nat := if l.rep then (List.range 4).map l.on else [l.pa]

/-- Every copy of a location lies where a page may map (R195, R198; log 61). -/
def GLoc.mappable (f : Fenced) (l : GLoc) : Bool := l.copies.all (paMappable f)

def GLoc.next (l : GLoc) (k : Nat) : GLoc := ⟨l.pa + k, l.rep⟩

/-- The 128-byte line of a location (R213). -/
def GLoc.line (l : GLoc) : GLoc := ⟨l.pa - l.pa % 128, l.rep⟩

/-- The die of a cluster (R13). -/
def dieOf (cluster : Nat) : Nat := cluster / 48

/-- A byte performed at home, in every copy of a replicated page (R220, R232). -/
def homeWrite (m : List Host.Cell) (l : GLoc) (v : Byte) : List Host.Cell :=
  if l.rep then (List.range 4).foldl (fun m d => Memory.write m (l.on d) v) m else Memory.write m l.pa v

/-! ## Translation -/

/-- Why a translation fails (R193, R198, R199). -/
inductive XErr where
  | noncanon | nomap | ptebad | perm
  deriving DecidableEq, Repr

def XErr.cause : XErr → Cause
  | .noncanon => .noncanon
  | .nomap => .nomap
  | .ptebad => .ptebad
  | .perm => .perm

/-- R193. -/
def canonical (va : Nat) : Bool := va / 2 ^ 56 % 256 == 0 || va / 2 ^ 56 % 256 == 255

/-- Bits of a page-table entry (R197). -/
def pteBits (e lo n : Nat) : Nat := e / 2 ^ lo % 2 ^ n

/-- Number of address bits below level `l` (R196). -/
def levelShift (l : Nat) : Nat := match l with
  | 0 => 16
  | 1 => 21
  | 2 => 30
  | 3 => 39
  | _ => 48

/-- R198: the entry breaks no rule at its level. -/
def pteOk (f : Fenced) (e level : Nat) : Bool :=
  let leaf := pteBits e 1 1 == 1
  let addr := pteBits e 12 44 * 4096
  pteBits e 7 5 == 0 && pteBits e 62 2 == 0 && GLoc.mappable f ⟨addr, leaf && pteBits e 6 1 == 1⟩ &&
    (if leaf then
      decide (level ≤ 2) && addr % 2 ^ levelShift level == 0 && decide (pteBits e 56 4 < 8) && decide (pteBits e 60 2 < 2) &&
        (pteBits e 6 1 == 0 || (decide (addr < 2 ^ 52) && pteBits addr 37 2 == 0))
    else level != 0 && pteBits e 2 5 == 0 && pteBits e 56 6 == 0)

/-- The walk from a level on (R196). -/
def walk (m : List Host.Cell) (f : Fenced) (va : Nat) : Nat → Nat → Except XErr Xlat
  | level, table =>
    let idx := va / 2 ^ levelShift level % (if level == 0 then 32 else 512)
    let e := Memory.word m (table + 8 * idx) 8
    if e % 2 == 0 then .error .nomap
    else if !pteOk f e level then .error .ptebad
    else
      let addr := pteBits e 12 44 * 4096
      if pteBits e 1 1 == 1 then
        .ok { base := va - va % 2 ^ levelShift level, size := 2 ^ levelShift level, pa := addr, rep := pteBits e 6 1 == 1,
              fmt := pteBits e 56 4, r := pteBits e 2 1 == 1, w := pteBits e 3 1 == 1, x := pteBits e 4 1 == 1,
              u := pteBits e 5 1 == 1 }
      else
        match level with
        | 0 => .error .ptebad
        | l + 1 => walk m f va l addr

/-- The translation of a canonical address in a domain: the first cached one (R218), else a walk, whose root table must not lie in a
fenced stack (log 61).  Which of the cached ones stands
first, and whether one is cached, are inputs: an access may use the old or the new translation. -/
def lookup (s : State) (domain va : Nat) : Except XErr Xlat :=
  if !canonical va then .error .noncanon
  else
    match s.tlb.find? fun (d, x) => d == domain && decide (x.base ≤ va ∧ va < x.base + x.size) with
    | some (_, x) => .ok x
    | none =>
      match s.domains.find? fun d => d.1 == domain with
      | none => .error .nomap
      | some (_, root) => if paExists s.fenced root then walk s.mem s.fenced va 4 root else .error .ptebad

/-- Kinds of access (R199). -/
inductive Access where
  | load | store | atomic | fetch | patch
  deriving DecidableEq, Repr

/-- R199: the permission bits; a leaf with X and W counts as W = 0 except for the patch engine. -/
def Xlat.permits (x : Xlat) (user : Bool) (k : Access) : Bool :=
  let w := x.w && !x.x
  (!user || x.u) &&
    match k with
    | .load => x.r
    | .store => w
    | .atomic => x.r && w
    | .fetch => x.x
    | .patch => x.x

/-- Where a page holds an address. -/
def Xlat.loc (x : Xlat) (va : Nat) : GLoc := ⟨x.pa + (va - x.base), x.rep⟩

/-- Translation and permission of one byte; a byte of a mapped page of which a copy lies at an unpopulated or reserved address raises
PTEBAD (log 15, log 61). -/
def translate (s : State) (domain va : Nat) (user : Bool) (k : Access) : Except XErr (GLoc × Nat) :=
  match lookup s domain va with
  | .error e => .error e
  | .ok x =>
    if !(x.loc va).mappable s.fenced then .error .ptebad
    else if !x.permits user k then .error .perm
    else .ok (x.loc va, x.fmt)

/-- The locations of `n` consecutive bytes, the first failure with its address. -/
def translateN (s : State) (domain : Nat) (user : Bool) (k : Access) : Nat → Nat → Except (XErr × Nat) (List GLoc)
  | _, 0 => .ok []
  | va, n + 1 =>
    match translate s domain va user k with
    | .error e => .error (e, va)
    | .ok (l, _) =>
      match translateN s domain user k ((va + 1) % 2 ^ 64) n with
      | .error e => .error e
      | .ok ls => .ok (l :: ls)

/-- The bytes at locations as a cluster of die `die` reads them at home (R200, R235). -/
def homeRead (m : List Host.Cell) (die : Nat) (ls : List GLoc) : List Byte := ls.map fun l => Memory.read m (l.on die)

/-- Bytes performed at home (R220, R232). -/
def homeWriteN (m : List Host.Cell) (ls : List (GLoc × Byte)) : List Host.Cell :=
  ls.foldl (fun m x => homeWrite m x.1 x.2) m

end Sys2Proof.Machine
end

