-- ==== Sys2Proof/Machine/OpTable.lean ====
section
/-!
DEFINITION. The lane opcode tables of R138, R139, R140 and R409: for each opcode the element types and functions it defines
and the fields it uses, from which the causes ILLTYPE (R119, R123, R142), ILLREG (R88) and LAFLD (R83) follow.
-/
namespace Sys2Proof

/-- Elements per lane word, P(T) of R408. -/
def perWord : ElemTy → Nat
  | .f32 | .i32 | .n32 => 1
  | .f16 | .bf16 | .i16 => 2
  | .i8 | .n8 => 4

/-- Width of an element in bits (R117). -/
def elemBits (t : ElemTy) : Nat := 32 / perWord t

/-- The code of an element type (R117). -/
def ElemTy.code : ElemTy → BitVec 3
  | .f32 => 0 | .f16 => 1 | .bf16 => 2 | .i32 => 3 | .n32 => 4 | .i16 => 5 | .i8 => 6 | .n8 => 7

/-- The element type of a code (R117). -/
def ElemTy.ofCode (c : BitVec 3) : ElemTy :=
  match c.toNat with
  | 0 => .f32 | 1 => .f16 | 2 => .bf16 | 3 => .i32 | 4 => .n32 | 5 => .i16 | 6 => .i8 | _ => .n8

/-- T-set F of the opcode map. -/
def isF : ElemTy → Bool
  | .f32 | .f16 | .bf16 => true
  | _ => false

/-- T-set Iw. -/
def isIw : ElemTy → Bool
  | .i32 | .n32 => true
  | _ => false

/-- T-set I. -/
def isI (t : ElemTy) : Bool := !isF t

/-- T-set S. -/
def isS : ElemTy → Bool
  | .i32 | .i16 | .i8 => true
  | _ => false

/-- Signed integer types of R117. -/
def isSigned (t : ElemTy) : Bool := isS t

/-- How an opcode uses a register field (the letters of R409). -/
inductive Use where
  /-- the field must be zero -/
  | no
  /-- a register that is only written, or a group that is only written -/
  | wr
  /-- a register or group that is read; a carry is permitted -/
  | rd
  /-- an even pair that is read; a carry is permitted -/
  | pair
  /-- a predicate in [3:0], [7:4] zero -/
  | pred
  /-- a stream in [2:0], [7:3] zero -/
  | stream
  /-- an immediate -/
  | imm
  deriving DecidableEq, Repr

/-- One row of R409. -/
structure LRow where
  t : ElemTy → Bool
  fn : ElemTy → Nat → Bool
  vd : Use := .wr
  va : Use := .rd
  vb : Use := .no
  vc : Use := .no
  rnd : ElemTy → Nat → Bool := fun _ _ => false
  la : Bool := false

def allT : ElemTy → Bool := fun _ => true
def onlyF32 : ElemTy → Bool := fun t => t == .f32
def fn0 : ElemTy → Nat → Bool := fun _ n => n == 0
def fnBuf : ElemTy → Nat → Bool := fun _ n => decide (1 ≤ n ∧ n ≤ 3)
def rndF : ElemTy → Nat → Bool := fun t _ => isF t

/-- The rows of R409 by opcode; none for an opcode that no format L row assigns (R141). -/
def lRow (op : Nat) : Option LRow :=
  match op with
  | 0x00 | 0x01 | 0x02 =>
    some { t := allT, fn := fun t n => n == 0 || (n == 1 && isI t), vb := .rd, rnd := rndF }
  | 0x03 => some { t := isF, fn := fn0, vb := .rd, vc := .rd, rnd := rndF }
  | 0x04 | 0x05 => some { t := allT, fn := fn0, vb := .rd }
  | 0x06 | 0x07 => some { t := fun t => isF t || isS t, fn := fn0 }
  | 0x08 | 0x09 | 0x0A => some { t := isIw, fn := fn0, vb := .rd }
  | 0x0B | 0x0C => some { t := isI, fn := fn0, vb := .rd }
  | 0x0D => some { t := isS, fn := fn0, vb := .rd }
  | 0x0E => some { t := allT, fn := fn0, vb := .rd, vc := .pred }
  | 0x0F => some { t := allT, fn := fn0 }
  | 0x10 => some { t := allT, fn := fun _ n => decide (n < 8), vb := .rd, vc := .imm, rnd := fun _ _ => true }
  | 0x11 =>
    some { t := fun t => t == .f32 || isIw t, fn := fun t n => decide (n ≤ 5) || (n == 6 && t == .f32), vd := .pred, vb := .rd }
  | 0x12 | 0x13 => some { t := isI, fn := fn0 }
  | 0x14 => some { t := fun t => t == .i8 || t == .n8, fn := fun _ n => decide (n ≤ 1), vb := .rd, vc := .rd }
  | 0x18 | 0x19 | 0x1A => some { t := isF, fn := fn0, rnd := rndF, la := true }
  | 0x1B | 0x1C | 0x1D | 0x1E | 0x1F => some { t := isF, fn := fn0, la := true }
  | 0x30 => some { t := isIw, fn := fn0, va := .no }
  | 0x40 => some { t := allT, fn := fnBuf, vc := .imm, la := true }
  | 0x41 => some { t := allT, fn := fnBuf, vd := .no, vb := .rd, vc := .imm }
  | 0x42 => some { t := allT, fn := fun _ n => decide (n ≤ 1), va := .pair, vc := .imm, la := true }
  | 0x43 => some { t := allT, fn := fn0, vd := .no, va := .pair, vb := .rd, vc := .imm }
  | 0x44 =>
    some { t := fun t => t == .f32 || isIw t, fn := fun t n => decide (n ≤ 2) || (decide (n ≤ 7) && isIw t), va := .pair, vb := .rd,
           vc := .imm, rnd := fun t n => t == .f32 && n == 0, la := true }
  | 0x45 => some { t := fun t => t == .f32 || isIw t, fn := fn0, va := .stream }
  | 0x50 => some { t := allT, fn := fun _ n => decide (n ≤ 1), vc := .imm }
  | 0x51 => some { t := allT, fn := fn0, vb := .rd, la := true }
  | 0x52 =>
    some { t := allT, fn := fun t n => decide (n ≤ 2) || (decide (n ≤ 5) && isIw t), rnd := fun t n => isF t && n == 0 }
  | 0x53 => some { t := allT, fn := fun _ n => decide (n ≤ 2), rnd := fun t n => isF t && n == 0 }
  | 0x54 => some { t := allT, fn := fn0, la := true }
  | 0x55 => some { t := fun t => t == .f32 || isIw t, fn := fun _ _ => true, vb := .wr, vc := .imm, la := true }
  | 0x56 => some { t := fun t => isF t || isS t, fn := fn0 }
  | 0x57 => some { t := isF, fn := fn0, vb := .rd }
  | 0x60 => some { t := onlyF32, fn := fun _ n => decide (n ≤ 4), vd := .pred, va := .pred, vb := .pred }
  | 0x61 => some { t := onlyF32, fn := fun _ n => decide (n ≤ 2), vd := .no, va := .pred }
  | 0x62 => some { t := onlyF32, fn := fn0, vd := .no, va := .no }
  | _ => none

/-- A field satisfies its use. -/
def Use.ok (u : Use) (v : BitVec 8) : Bool :=
  match u with
  | .no => v == 0
  | .wr | .rd | .imm => true
  | .pair => v.toNat % 2 == 0
  | .pred => decide (v.toNat < 16)
  | .stream => decide (v.toNat < 8)

/-- A carry code is permitted only on an operand that is read (R410). -/
def Use.carryOk (u : Use) (k : CarryCode) : Bool :=
  k == .none || u == .rd || u == .pair

/-- Two register ranges (first, count) overlap. -/
def rangesMeet (a b : Nat × Nat) : Bool := decide (a.1 < b.1 + b.2 ∧ b.1 < a.1 + a.2)

/-- Register groups of VTOPK (R435): values, indices with the count, candidates. -/
def topkGroups (f : LForm) : (Nat × Nat) × (Nat × Nat) × (Nat × Nat) :=
  let m := (f.vc.toNat + 63) / 64
  ((f.vd.toNat, m), (f.vb.toNat, m + 1), (f.va.toNat, f.fn.toNat + 1))

/-- The restrictions of single opcodes beyond R409's columns: R419, R420, R414, R431, R435, R418, R436, R396. -/
def lExtra (op : Nat) (f : LForm) : Bool :=
  match op with
  | 0x10 =>
    if f.vc.toNat < 128 then
      let s := ElemTy.ofCode (f.fn.extractLsb' 0 3)
      let ps := perWord s
      let pd := perWord f.t
      let q := f.vc.toNat
      f.vb == 0 && f.kb == .none && s != f.t &&
        (if pd < ps then decide (q < ps / pd) else if ps < pd then decide (q < pd / ps) else q == 0)
    else
      f.vc == 0x80 && ((f.t == .f32 && (f.fn == 1 || f.fn == 5)) || (f.t == .i32 && f.fn == 5))
  | 0x44 => f.fn == 7 || f.vc == 0
  | 0x50 => decide (f.vc.toNat < 128) || decide (f.vc.toNat < 144)
  | 0x54 => f.va.toNat % 8 == 0 && f.vd.toNat % 8 == 0
  | 0x55 =>
    let (v, i, c) := topkGroups f
    decide (1 ≤ f.vc.toNat ∧ f.vc.toNat ≤ 128) && !rangesMeet v i && !rangesMeet v c && !rangesMeet i c
  | 0x56 => f.vd.toNat % 2 == 0
  | 0x60 => f.fn != 4 || f.vb == 0
  | _ => true

/-- No ILLTYPE cause is present in a format L slot of an assigned opcode. -/
def lTypeOk (op : Nat) (f : LForm) : Bool :=
  match lRow op with
  | none => false
  | some r =>
    r.t f.t && r.fn f.t f.fn.toNat && r.vd.ok f.vd && r.va.ok f.va && r.vb.ok f.vb && r.vc.ok f.vc &&
      r.va.carryOk f.ka && r.vb.carryOk f.kb && (r.rnd f.t f.fn.toNat || f.rnd == .rne) && lExtra op f

/-- LA is zero or the opcode permits a lookahead window (R83). -/
def lLaOk (op : Nat) (f : LForm) : Bool :=
  f.la == 0 || ((lRow op).map (fun r => r.la)).getD false

/-- Whether an L-I opcode is assigned (R138, R141). -/
def liAssigned (op : Nat) : Bool :=
  decide (0x20 ≤ op ∧ op ≤ 0x2F) && op != 0x26 && op != 0x27 && op != 0x2E

/-- No ILLTYPE cause is present in a format L-I slot of an assigned opcode (R142, R121). -/
def liTypeOk (op : Nat) (f : LIForm) : Bool :=
  if op == 0x2F then f.va == 0 else ((lRow (op - 0x20)).map fun r => r.t f.t).getD false

/-- One row of the engine commands: functions, defined head bits, number of parameter words used. -/
structure ERow where
  fn : Nat → Bool
  head : BitVec 32 := 0
  params : Nat := 0

/-- The rows of R140 and R179, R346, R246, R244, R259, R255 and the NSUB entry. -/
def eRow (op : Nat) (fn : Nat) : Option ERow :=
  match op with
  | 0x70 => some { fn := fun n => [0, 1, 2, 8, 9, 10, 12, 13, 14].contains n, head := if fn % 4 == 2 then 1 else 0, params := 3 }
  | 0x71 => some { fn := fun n => decide (n ≤ 1), head := 0x07FF3F01, params := 3 }
  | 0x72 => some { fn := fun n => n == 0, head := 0x3F, params := 1 }
  | 0x73 => some { fn := fun n => decide (n ≤ 5), head := 1, params := 1 }
  | 0x74 => some { fn := fun n => n == 0 }
  | 0x75 => some { fn := fun n => decide (n ≤ 5), head := 3, params := 4 }
  | 0x76 => some { fn := fun n => decide (1 ≤ n ∧ n ≤ 3), head := 0xFF03, params := 4 }
  | 0x77 => some { fn := fun n => n == 0 }
  | 0x78 => some { fn := fun n => decide (n ≤ 1), params := 1 }
  | 0x79 => some { fn := fun n => n == 0 }
  | 0x7A => some { fn := fun n => n == 0, head := 1, params := 1 }
  | 0x7B => some { fn := fun n => decide (n ≤ 2) }
  | 0x7C => some { fn := fun n => decide (n ≤ 2), head := if fn == 1 then 1 else 0, params := if fn == 2 then 1 else 4 }
  | 0x7D => some { fn := fun n => decide (n ≤ 3), head := 0x3F, params := 2 }
  | 0x7E => some { fn := fun n => n == 0, head := 0x03FFFFFF, params := 4 }
  | 0x7F => some { fn := fun n => n == 0, head := 0x0FFFFFFF, params := 3 }
  | _ => none

/-- No ILLTYPE cause is present in an engine command (R123, R142); MWAIT uses P0 only when S is set. -/
def eTypeOk (op : Nat) (e : EForm) : Bool :=
  match eRow op e.fn.toNat with
  | none => false
  | some r =>
    let n := if op == 0x7A && e.head == 0 then 0 else r.params
    r.fn e.fn.toNat && (e.head &&& ~~~r.head) == 0 && (decide (0 < n) || e.p0 == .lit 0) && (decide (1 < n) || e.p1 == .lit 0) &&
      (decide (2 < n) || e.p2 == .lit 0) && (decide (3 < n) || e.p3 == .lit 0)

/-- The format L opcode and fields of a lane instruction. -/
def Instr.lform : Instr → Option (Nat × LForm)
  | .vadd f => some (0x00, f) | .vsub f => some (0x01, f) | .vmul f => some (0x02, f) | .vfma f => some (0x03, f)
  | .vmin f => some (0x04, f) | .vmax f => some (0x05, f) | .vabs f => some (0x06, f) | .vneg f => some (0x07, f)
  | .vand f => some (0x08, f) | .vor f => some (0x09, f) | .vxor f => some (0x0A, f) | .vshl f => some (0x0B, f)
  | .vshr f => some (0x0C, f) | .vsra f => some (0x0D, f) | .vsel f => some (0x0E, f) | .vmov f => some (0x0F, f)
  | .vcvt f => some (0x10, f) | .vcvtAcc f => some (0x10, f) | .vcmp f => some (0x11, f) | .vclz f => some (0x12, f)
  | .vpopc f => some (0x13, f) | .vdot4 f => some (0x14, f) | .vrcp f => some (0x18, f) | .vrsq f => some (0x19, f)
  | .vsqrt f => some (0x1A, f) | .vexp2 f => some (0x1B, f) | .vlog2 f => some (0x1C, f) | .vsin f => some (0x1D, f)
  | .vcos f => some (0x1E, f) | .vtanh f => some (0x1F, f) | .viota f => some (0x30, f) | .vld f => some (0x40, f)
  | .vst f => some (0x41, f) | .vldg f => some (0x42, f) | .vstg f => some (0x43, f) | .vamo f => some (0x44, f)
  | .sadv f => some (0x45, f) | .vshf f => some (0x50, f) | .vperm f => some (0x51, f) | .vred f => some (0x52, f)
  | .vscan f => some (0x53, f) | .vtrn f => some (0x54, f) | .vtopk f => some (0x55, f) | .vcmps f => some (0x56, f)
  | .vprune f => some (0x57, f) | .plog f => some (0x60, f) | .vote f => some (0x61, f) | .vexit f => some (0x62, f)
  | _ => none

/-- The format L-I opcode and fields of a lane instruction. -/
def Instr.liform : Instr → Option (Nat × LIForm)
  | .vaddImm f => some (0x20, f) | .vsubImm f => some (0x21, f) | .vmulImm f => some (0x22, f) | .vfmaImm f => some (0x23, f)
  | .vminImm f => some (0x24, f) | .vmaxImm f => some (0x25, f) | .vandImm f => some (0x28, f) | .vorImm f => some (0x29, f)
  | .vxorImm f => some (0x2A, f) | .vshlImm f => some (0x2B, f) | .vshrImm f => some (0x2C, f) | .vsraImm f => some (0x2D, f)
  | .vli f => some (0x2F, f)
  | _ => none

/-- The opcode and fields of an engine command. -/
def Instr.eform : Instr → Option (Nat × EForm)
  | .cpy e => some (0x70, e) | .fgat e => some (0x71, e) | .fhdl e => some (0x72, e) | .mldw e => some (0x73, e)
  | .mswp e => some (0x74, e) | .mma e => some (0x75, e) | .mmas e => some (0x76, e) | .mclr e => some (0x77, e)
  | .mscl e => some (0x78, e) | .mrdy e => some (0x79, e) | .mwait e => some (0x7A, e) | .cwait e => some (0x7B, e)
  | .nsubRead e => some (0x7C, e) | .nsubWrite e => some (0x7C, e) | .nsubFlush e => some (0x7C, e)
  | .sisec e => some (0x7D, e) | .sunion e => some (0x7D, e) | .sdiff e => some (0x7D, e) | .smadd e => some (0x7D, e)
  | .sprd e => some (0x7E, e) | .schk e => some (0x7F, e)
  | _ => none

/-- Registers of a use: one register, a pair, or none. -/
def Use.regs (u : Use) (v : BitVec 8) : List (Nat × Nat) :=
  match u with
  | .wr | .rd => [(v.toNat, 1)]
  | .pair => [(v.toNat, 2)]
  | _ => []

/-- Every register group that a slot names (R88), as (first, count); SADV's second destination is checked apart (R254). -/
def Instr.groups (i : Instr) : List (Nat × Nat) :=
  match i with
  | .vtrn f => [(f.vd.toNat, 8), (f.va.toNat, 8)]
  | .vtopk f => let (v, x, c) := topkGroups f; [v, x, c]
  | .vcmps f => [(f.vd.toNat, 2), (f.va.toNat, 1)]
  | .vcvt f => [(f.vd.toNat, 1), (f.va.toNat, 1)]
  | .vamo f => [(f.vd.toNat, 1), (f.va.toNat, 2), (f.vb.toNat, 1)] ++ (if f.fn == 7 then [(f.vc.toNat, 1)] else [])
  | .fgat e => [(((e.head.extractLsb' 16 8).toNat), 2 * ((e.head.extractLsb' 24 3).toNat + 1))]
  | .mmas e => [((e.head.extractLsb' 8 8).toNat, 128)]
  | .vli f => [(f.vd.toNat, 1)]
  | _ =>
    match i.lform with
    | some (op, f) =>
      match lRow op with
      | some r => r.vd.regs f.vd ++ r.va.regs f.va ++ r.vb.regs f.vb ++ r.vc.regs f.vc
      | none => []
    | none =>
      match i.liform with
      | some (_, f) => [(f.vd.toNat, 1), (f.va.toNat, 1)]
      | none => []

/-- The registers that the va operand of a slot reads, for the carry rules of R43. -/
def Instr.vaRegs (i : Instr) : List Nat :=
  match i with
  | .vtrn f => (List.range 8).map (f.va.toNat + ·)
  | .vtopk f => (List.range (f.fn.toNat + 1)).map (f.va.toNat + ·)
  | _ =>
    match i.lform with
    | some (op, f) =>
      match (lRow op).map (fun r => r.va) with
      | some Use.rd => [f.va.toNat]
      | some Use.pair => [f.va.toNat, f.va.toNat + 1]
      | _ => []
    | none => []

/-- The register that the vb operand of a slot reads. -/
def Instr.vbRegs (i : Instr) : List Nat :=
  match i.lform with
  | some (op, f) => if (lRow op).map (fun r => r.vb) == some Use.rd then [f.vb.toNat] else []
  | none => []

/-- The registers of a use that is written. -/
def Use.written (u : Use) (v : BitVec 8) : List Nat := if u == .wr then [v.toNat] else []

/-- The registers that a lane slot writes; SADV's are left aside, which takes its slots in order (`Instr.inOrder`). -/
def Instr.destRegs (i : Instr) : List Nat :=
  match i with
  | .vtrn f => (List.range 8).map (f.vd.toNat + ·)
  | .vtopk f => let (v, x, _) := topkGroups f; (List.range v.2).map (v.1 + ·) ++ (List.range x.2).map (x.1 + ·)
  | .vcmps f => [f.vd.toNat, f.vd.toNat + 1]
  | _ =>
    match i.lform with
    | some (op, f) => ((lRow op).map fun r => r.vd.written f.vd ++ r.vb.written f.vb).getD []
    | none => (i.liform.map fun x => [x.2.vd.toNat]).getD []

/-- The registers that a lane slot reads: its operands, vc, and a destination that is a source too (R419, the immediate form of VFMA). -/
def Instr.sourceRegs (i : Instr) : List Nat :=
  i.vaRegs ++ i.vbRegs ++
    match i with
    | .vcvt f => [f.vd.toNat]
    | .vamo f => [f.vc.toNat]
    | _ =>
      match i.lform with
      | some (op, f) => ((lRow op).map fun r => if r.vc == .rd then [f.vc.toNat] else []).getD []
      | none => (i.liform.map fun x => [x.2.va.toNat, x.2.vd.toNat]).getD []

/-- A slot with an effect beyond its registers and flags, for which R84 keeps the order of R31: memory, buffers, streams, predicates, masks,
random numbers, engines. -/
def Instr.inOrder (i : Instr) : Bool :=
  match i with
  | .vld _ | .vst _ | .vldg _ | .vstg _ | .vamo _ | .sadv _ | .vcmp _ | .vprune _ | .plog _ | .vexit _ => true
  | _ => i.lform.isNone && i.liform.isNone

end Sys2Proof
end

