-- ==== Sys2Proof/Machine/Ops.lean ====
section
/-!
DEFINITION. The named operations that the meanings share: contexts, rows and members, emission numbers (R56), the phase store
buffer and the view (R220-R224), poison (R309, R310), row retirement (R29, R46), taking a trap (R295-R305), ending a dispatch
(R304, R305) and the end of a generator instruction (R109-R113).
-/
namespace Sys2Proof.Machine

abbrev Out := Host.Outcome State Fault Refusal

/-- The step took effect. -/
def done (s : State) : Out := .next { s with waited := false }
/-- The step's condition does not hold: nothing changes. -/
def wait (s : State) : Out := .next { s with waited := true }

/-! ## Lists -/

/-- The elements for which `p` holds replaced. -/
def mapIf {α : Type} (p : α → Bool) (f : α → α) (l : List α) : List α := l.map fun x => if p x then f x else x

/-- Element `n` replaced. -/
def setAt {α : Type} : List α → Nat → α → List α
  | [], _, _ => []
  | _ :: l, 0, y => y :: l
  | x :: l, n + 1, y => x :: setAt l n y

/-- The smallest by a measure, the first on a tie. -/
def leastBy {α : Type} (m : α → Nat) : List α → Option α
  | [] => none
  | x :: l =>
    match leastBy m l with
    | none => some x
    | some y => if m y < m x then some y else some x

/-- The element of `l` with the measure least in lexicographic order of two numbers. -/
def leastBy2 {α : Type} (m : α → Nat × Nat) : List α → Option α
  | [] => none
  | x :: l =>
    match leastBy2 m l with
    | none => some x
    | some y => if (m y).1 < (m x).1 || ((m y).1 == (m x).1 && decide ((m y).2 < (m x).2)) then some y else some x

/-! ## Contexts, members and rows -/

def State.ctxOf (s : State) (c : Nat) : Option Ctx := s.ctxs.find? fun x => x.id == c

/-- The context with its new contents. -/
def State.putCtx (s : State) (c : Ctx) : State := { s with ctxs := mapIf (fun x => x.id == c.id) (fun _ => c) s.ctxs }

/-- A context changed, when it exists. -/
def State.updCtx (s : State) (k : Nat) (f : Ctx → Ctx) : State :=
  match s.ctxOf k with
  | none => s
  | some c => s.putCtx (f c)

def Ctx.member (c : Ctx) (m : Nat) : Option Member := c.members[m]?
/-- The cluster of the leader. -/
def Ctx.base (c : Ctx) : Nat := ((c.member 0).map fun m => m.cluster).getD 0
def Ctx.putMember (c : Ctx) (m : Nat) (mb : Member) : Ctx := { c with members := setAt c.members m mb }
def Ctx.rowOf (c : Ctx) (item : Nat) : Option Row := c.rows.find? fun r => r.item == item
def Ctx.putRow (c : Ctx) (r : Row) : Ctx := { c with rows := mapIf (fun x => x.item == r.item) (fun _ => r) c.rows }

/-- An ash context (R36). -/
def Ctx.ash (c : Ctx) : Bool := c.cls == .ash
/-- A row that still takes slots. -/
def Row.live (r : Row) : Bool := r.retired.isNone
def Ctx.liveRows (c : Ctx) : List Row := c.rows.filter Row.live
/-- The live rows of a member. -/
def Ctx.memberRows (c : Ctx) (m : Nat) : List Row := c.rows.filter fun r => r.live && r.member == m
/-- The lane block of a row (R24). -/
def Ctx.blockOf (c : Ctx) (r : Row) : Nat := (r.item - r.member * c.rowCount) % 4
/-- The generator has executed EXIT. -/
def Ctx.exited (c : Ctx) : Bool := c.gen == .stopped || c.handling.any fun h => h.afterExit

/-- A row has performed some lanes of an atomic and not yet all (R414). -/
def Ctx.midSlot (c : Ctx) : Bool := c.liveRows.any fun r => r.amo.isSome

/-- Faults that rows were still to find stop them now (R85). -/
def Row.stopLate (r : Row) : Row :=
  { r with stop := match r.late with
      | some (seq, t, _) => some (seq, t)
      | none => r.stop, late := none }
def Ctx.stopLate (c : Ctx) : Ctx := { c with rows := c.rows.map Row.stopLate }

/-- The context is switched in and its rows and generator may move. -/
def Ctx.active (c : Ctx) : Bool := c.switch == .inside && !c.revoked && c.ended.isNone

/-- No L or X trap is being handled: the rows may take slots (R303). -/
def Ctx.rowsIssue (c : Ctx) : Bool := c.active && !(c.handling.any fun h => h.trap.dom == .l || h.trap.dom == .x)

/-- The rows move freely: the gang does not halt either (R298). -/
def Ctx.rowsMove (c : Ctx) : Bool := c.rowsIssue && !c.halting

/-- The handler of the switch under way runs: PREEMPT's before the image is written, RESTORE's and that of a fault recorded at the switch
before the commands are handed over again (R314, R317, R318). -/
def Ctx.switchHandler (c : Ctx) : Bool :=
  c.handler && ((c.switch == .preempting && c.handling.any fun h => h.trap.cause == .preempt) || c.switch == .restoring)

/-- The generator may execute: also in the handlers of a switch (R314, R317), not behind a handler whose return a deferred pre-emption
waited for (R380). -/
def Ctx.genMoves (c : Ctx) : Bool :=
  (c.switch == .inside || c.switchHandler) && (c.handler || c.deferred.isNone) && !c.revoked && c.ended.isNone && !c.halting && c.gen != .stopped

/-- The device has fenced clusters, stacks or links (R95). -/
def Fenced.any (f : Fenced) : Bool := f != Fenced.clear

/-! ## Emission sequence numbers (R56) -/

/-- The number after an ESN. -/
def esnNext (e : BitVec 48) : BitVec 48 := if e + 1 == 0 then 1 else e + 1

/-- The ESN `n` places after `e` (0 is never assigned). -/
def esnAdd (e : BitVec 48) (n : Nat) : BitVec 48 :=
  let v := e.toNat + n
  if v < 2 ^ 48 then BitVec.ofNat 48 v else BitVec.ofNat 48 (v - (2 ^ 48 - 1))

/-- a precedes b. -/
def esnBefore (a b : BitVec 48) : Bool :=
  let d := (b - a).toNat
  decide (1 ≤ d ∧ d < 2 ^ 47)

/-! ## Tag and lane access -/

def Row.reg (r : Row) (n : Nat) : Lanes := ((r.regs[n]?).map fun v => v.lanes).getD (Lanes.fill 0)
def Row.tag (r : Row) (n : Nat) : Tag := ((r.regs[n]?).map fun v => v.tag).getD .g
def Row.setReg (r : Row) (n : Nat) (v : VRegister) : Row := { r with regs := setAt r.regs n v }
/-- p15 reads all ones (R87). -/
def Row.pred (r : Row) (n : Nat) : LaneMask := if n == 15 then BitVec.allOnes 64 else (r.preds.toList.getD n 0)
/-- A write to p15 is ignored (R87). -/
def Row.setPred (r : Row) (n : Nat) (v : LaneMask) : Row :=
  if n == 15 then r else { r with preds := r.preds.setIfInBounds n v }

/-! ## Generator registers (R86) -/

/-- g0 reads zero. -/
def Ctx.greg (c : Ctx) (r : GReg) : DWord := if r == 0 then 0 else c.g.toList.getD r.toNat 0
/-- A write to g0 is ignored. -/
def Ctx.setG (c : Ctx) (r : GReg) (v : DWord) : Ctx := if r == 0 then c else { c with g := c.g.setIfInBounds r.toNat v }
/-- f7 reads true. -/
def Ctx.flag (c : Ctx) (f : BitVec 3) : Bool := f == 7 || c.f.getLsbD f.toNat
/-- A write to f7 is ignored. -/
def Ctx.setFlag (c : Ctx) (f : BitVec 3) (v : Bool) : Ctx :=
  if f == 7 then c else { c with f := (c.f &&& ~~~(1#8 <<< f.toNat)) ||| (if v then 1#8 <<< f.toNat else 0) }
def loopNum : LoopReg → Nat
  | .lc0 => 0
  | .lc1 => 1
  | .lc2 => 2
def Ctx.loop (c : Ctx) (n : LoopReg) : Word := c.lc.toList.getD (loopNum n) 0
def Ctx.setLoop (c : Ctx) (n : LoopReg) (v : Word) : Ctx := { c with lc := c.lc.setIfInBounds (loopNum n) v }
def Ctx.hole (c : Ctx) (n : BitVec 4) : Word := c.h.toList.getD n.toNat 0
/-- The second operand of R362. -/
def Ctx.src (c : Ctx) : GSrc → DWord
  | .reg r => c.greg r
  | .imm v => v.signExtend 64

/-! ## Poison (R309, R310) -/

/-- A memory word is poisoned: the copy at physical address `pa`. -/
def State.memPoisoned (s : State) (pa : Nat) : Bool :=
  s.poison.any fun p => match p with
    | .mem q => q / 4 == pa / 4
    | _ => false

def State.gPoisoned (s : State) (c : Nat) (r : GReg) : Bool := r != 0 && s.poison.contains (.greg c r.toNat)
def State.bufPoisoned (s : State) (c m : Nat) (b : Buf) (off : Nat) : Bool :=
  s.poison.any fun p => match p with
    | .buf c2 m2 b2 o2 => c2 == c && m2 == m && b2 == b && o2 / 4 == off / 4
    | _ => false
def State.laneMask (s : State) (c item reg : Nat) : LaneMask :=
  if s.poison.isEmpty then 0 else LaneMask.build fun l => s.poison.contains (.vreg c item reg l)

/-- Poison cleared where `p` holds. -/
def State.cure (s : State) (p : PoisonLoc → Bool) : State := { s with poison := s.poison.filter fun x => !p x }

/-- A write of all four bytes of a word clears its poison. -/
def cureMem (s : State) (pas : List Nat) : State :=
  if s.poison == [] then s
  else s.cure fun p => match p with
    | .mem q => (List.range 4).all fun k => pas.contains (q / 4 * 4 + k)
    | _ => false

/-! ## Monochrome order (R290) -/

/-- The slot makes an access of R290: global memory through lanes, or an engine hand-over. -/
def Instr.ordered (i : Instr) : Bool :=
  i.eform.isSome || match i with
    | .vldg _ | .vstg _ | .vamo _ | .sadv _ => true
    | _ => false

def StreamItem.ordered : StreamItem → Bool
  | .slot i => Instr.ordered i
  | .marker (.tset ..) => false
  | .marker (.cdef _ mem ..) => mem
  | .marker _ => true

/-- Keys of the accesses that a replay or an entry on its way into the stream still has to make. -/
def Intake.keys : Intake → List Nat
  | .replay r =>
    ((r.recs.zipIdx.drop (Config.segment * r.segment)).filter fun x => Instr.ordered x.1.i).map fun x => r.key + 1 + x.2
  | .entry e => if e.item.ordered then [e.key] else []

/-- Keys of the accesses that stand in the stream or on their way into it. -/
def Ctx.streamKeys (c : Ctx) : List Nat :=
  ((c.stream.filter fun e => e.item.ordered).map fun e => e.key) ++ c.intake.flatMap Intake.keys

/-- Keys of the accesses that wait in the handler channel (R302, R337). -/
def Ctx.channelKeys (c : Ctx) : List Nat := (c.channel.filter fun x => x.1.item.ordered).map fun x => x.1.key

/-- Instructions executed and slots emitted, inspection slots too. -/
def Ctx.emittedAll (c : Ctx) : Nat := c.genCount + c.emitCount + c.inspCount

/-- The key of what the generator does now; the handlers of a switch leave it as it was (R290). -/
def Ctx.key (c : Ctx) : Nat := c.keyHold.getD (c.emittedAll - c.keySkip)

/-- K goes on where the handler of a switch found it (R290). -/
def Ctx.resumeKey (c : Ctx) : Ctx :=
  match c.keyHold with
  | none => c
  | some k => { c with keyHold := none, keySkip := c.emittedAll - k }

/-- Keys from which on a context still has to make accesses: none of one that sleeps, which stands outside the order, also while it is
switched out; of one that has exited those that its instructions have left behind, and the drain of its end (R290, R335; log 79). -/
def Ctx.frontier (c : Ctx) : List Nat :=
  match c.gen with
  | .running => if c.slept && c.switch != .inside && !c.switchHandler then [] else c.key :: (c.streamKeys ++ c.channelKeys)
  | .stopped => c.streamKeys ++ c.channelKeys ++ if c.members.any fun m => !m.psb.isEmpty then [c.key] else []
  | _ => []

/-- The place of a context's accesses of a key. -/
def Ctx.monoPlace (c : Ctx) (key : Nat) : MonoPlace := ⟨c.id, c.monoGroup, c.monoRank, key⟩

/-- A key and a rank stand before a place. -/
def MonoPlace.behind (p : MonoPlace) (key rank : Nat) : Bool := decide (key < p.key) || (key == p.key && decide (rank < p.rank))

/-- Another context of the group has an access before a place still to make or to be performed: a context that runs or is switched out, an
accepted launch that waits, with its first access (log 79), a drained line. -/
def orderBlocked (s : State) (p : MonoPlace) : Bool :=
  p.group != 0 &&
    ((s.ctxs.any fun d => d.id != p.id && d.mono && d.monoGroup == p.group && d.ended.isNone && d.frontier.any fun k => p.behind k d.monoRank) ||
      (s.waiting.any fun w => w.params.mono && w.params.monoGroup == p.group && p.behind 0 w.rank) ||
      s.accepted.any fun a => a.place.any fun q => q.id != p.id && q.group == p.group && p.behind q.key q.rank)

/-- An access of the context waits for another context of its group. -/
def groupBlocked (s : State) (c : Ctx) (key : Nat) : Bool := c.mono && orderBlocked s (c.monoPlace key)

/-- Some access of the group with a smaller key has not been performed.  The context's own drained lines and its own slots count too, those
of the stream unless its rows stand still under a handler. -/
def monoBlocked (s : State) (c : Ctx) (key : Nat) : Bool :=
  (c.mono && (s.accepted.any fun a => a.place.any fun q => q.id == c.id)) ||
    (c.mono && ((if c.rowsMove then c.streamKeys else []) ++ c.channelKeys).any fun k => decide (k < key)) || groupBlocked s c key

/-- The key at which a save or the end of a dispatch drains the lines of a context: that of its first access still to be made, since each of
these waits for the lines (R290, R335; log 65). -/
def Ctx.drainKey (c : Ctx) : Nat := (c.streamKeys ++ c.channelKeys).foldl min c.key

/-- Buffered lines of a Monochrome context that other accesses of its group still go before (R290). -/
def linesHeld (s : State) (c : Ctx) : Bool := groupBlocked s c c.drainKey && c.members.any fun m => !m.psb.isEmpty

/-! ## Global memory at home and through a context (R220-R224, R242) -/

/-- Bytes performed at home. -/
def State.perform (s : State) (ls : List (GLoc × Byte)) : State :=
  cureMem { s with mem := homeWriteN s.mem ls } (ls.flatMap fun x => x.1.copies)

/-- The bytes of a buffered line that its drain performs: the masked ones, but for those that a row of higher item has stored at the same
slot or at a later one (R32; log 73). -/
def PsbLine.bytes (p : PsbLine) : List (GLoc × Byte) :=
  p.data.zipIdx.filterMap fun (b, k) => if p.lost.contains k then none else b.map fun v => (p.loc.next k, v)

/-- The region of R195 in which a location lies. -/
def GLoc.region (l : GLoc) : Nat := l.pa / 2 ^ 52

/-- A drained line of context `k`: performed at home in region 0x0, so that lines drained under pressure are performed in the order of their creation
(log 50), else accepted by the port of its region (R222, R227). -/
def drainLine (k : Nat) (s : State) (p : PsbLine) : State :=
  if p.loc.region == 0 then s.perform p.bytes else { s with accepted := s.accepted ++ [⟨k, p.loc.region, p.bytes, none, p.vas⟩] }

/-- A drain of lines (R222). -/
def drainLines (k : Nat) (s : State) (l : List PsbLine) : State := l.foldl (drainLine k) s

/-- The line that is performed next in a region: the first that waits for no place in a group's order (R227, R290); none over a port of
which no link is left (log 84). -/
def nextAccepted (s : State) (region : Nat) : Option Accepted :=
  if s.fenced.linked region then s.accepted.find? fun a => a.region == region && a.place.all fun p => !orderBlocked s p else none

/-- The home of a region performs its next line. -/
def performNext (s : State) (region : Nat) : State :=
  match nextAccepted s region with
  | none => s
  | some a => { (s.perform a.bytes) with accepted := s.accepted.erase a }

/-- The line waits for nothing but its turn at its port. -/
def Accepted.moves (f : Fenced) (a : Accepted) : Bool := a.place.isNone && f.linked a.region

/-- Every line that a port has accepted performed, in order; lines that wait for their place in a group or for a link stay. -/
def flushPorts (s : State) : State :=
  if s.accepted == [] then s
  else { ((s.accepted.filter (Accepted.moves s.fenced)).foldl (fun s a => s.perform a.bytes) s) with
           accepted := s.accepted.filter fun a => !a.moves s.fenced }

/-- A line among these locations is accepted and not performed: a read of it waits behind it at the port (log 62). -/
def portBusy (s : State) (ls : List GLoc) : Bool :=
  s.accepted.any fun a => a.place.isNone && a.bytes.any fun x => ls.any fun l => l.line == x.1.line

/-- The bytes of a line that has drained stay in the snapshots of it, so that the context's loads go on seeing its own stores
(R225; log 62). -/
def Member.seeDrained (mb : Member) (p : PsbLine) : Member :=
  let see := fun (v : ViewLine) => { v with data := (v.data.zip p.data).map fun x => x.2.getD x.1 }
  let seen := mapIf (fun v => v.pa == p.loc.on (dieOf mb.cluster)) see
  { mb with view := seen mb.view, early := seen mb.early }

/-- A member whose buffered lines have drained. -/
def Member.afterDrain (mb : Member) : Member := { (mb.psb.foldl Member.seeDrained mb) with psb := [] }

/-- Every buffered line of a member of context `k` performed (R242). -/
def drainMember (k : Nat) (s : State) (mb : Member) : State × Member := (flushPorts (drainLines k s mb.psb), mb.afterDrain)

/-- Every buffered line of a context drained, on every member.  DESIGN CHOICE (log 50): R222 gives no order; the buffers drain in the order of
the members, so that of two members' entries for one byte, stored at slots that R32 does not order, the higher member's remains. -/
def drainCtx (s : State) (c : Ctx) : State × Ctx :=
  (c.members.foldl (fun s mb => drainLines c.id s mb.psb) s, { c with members := c.members.map Member.afterDrain })

/-- The lines of a context drained with a place in the order of its group (R290). -/
def drainLater (s : State) (c : Ctx) : State × Ctx :=
  ({ s with accepted := s.accepted ++ c.members.flatMap fun mb => mb.psb.map fun p =>
      ⟨c.id, p.loc.region, p.bytes, some (c.monoPlace c.drainKey), p.vas⟩ },
    { c with members := c.members.map Member.afterDrain })

/-- The drain at a save and at the end of a dispatch (R222): the buffer is empty behind it; lines that accesses of the context's
Monochrome group go before are performed in their turn (R290; log 65). -/
def drainOut (s : State) (c : Ctx) : State × Ctx := if linesHeld s c then drainLater s c else drainCtx s c

/-- A member's view dropped (R224), and the snapshots taken ahead, which an acquire ends too (R223). -/
def Member.unseen (mb : Member) : Member := { mb with view := [], early := [] }

/-- The view dropped on every member (R224). -/
def Ctx.dropView (c : Ctx) : Ctx := { c with members := c.members.map Member.unseen }

/-- The lines of some physical lines (every copy) leave a member's view. -/
def Member.dropLines (mb : Member) (lines : List Nat) : Member :=
  let keep := fun (v : ViewLine) => !lines.contains v.pa
  { mb with view := mb.view.filter keep, early := mb.early.filter keep }

/-- A context's share of the phase store buffer (R221). -/
def Ctx.lineShare (c : Ctx) : Nat := if c.ash then Config.ashLines else Config.ownerLines

/-- What a store says of itself: a lane store its slot, and the locations that rows of higher item on other members have stored at it
(R32); every store the virtual line through which it reaches each physical one, with its domain (R218). -/
structure StoreTag where
  slot : Option Nat := none
  lost : List GLoc := []
  vas : List (GLoc × Nat × Nat) := []

/-- The virtual lines of `n` bytes from an address on, by the physical lines of their locations. -/
def vaLines (domain va : Nat) (ls : List GLoc) : List (GLoc × Nat × Nat) :=
  (ls.zipIdx.map fun x => (x.1.line, domain, (va + x.2) % 2 ^ 64 / 128 * 128)).eraseDups

/-- Bytes put into a buffered line, by their place in it. -/
def PsbLine.put (p : PsbLine) (tag : StoreTag) (bs : List (Nat × Byte)) : PsbLine :=
  let there := bs.map fun x => x.1
  { p with
    data := bs.foldl (fun d x => setAt d x.1 (some x.2)) p.data
    lost := (p.lost.filter fun k => !there.contains k) ++ there.filter fun k => tag.lost.contains (p.loc.next k)
    slots := (p.slots.filter fun x => !there.contains x.1) ++ match tag.slot with
      | some e => there.map fun k => (k, e)
      | none => []
    vas := (p.vas ++ (tag.vas.filter fun x => x.1 == p.loc).map fun x => x.2).eraseDups }

/-- Bytes of one line, by their place in it, merged into the phase store buffer; a new entry in a full share drains the oldest (R221,
R222).  DESIGN CHOICE (log 50): a line of region 0x0 that is drained so is performed at once, in the order in which entries were made. -/
def bufferLine (c : Ctx) (tag : StoreTag) (s : State) (mb : Member) (line : GLoc) (bs : List (Nat × Byte)) : State × Member :=
  if mb.psb.any fun p => p.loc == line then
    (s, { mb with psb := mapIf (fun p => p.loc == line) (fun p => p.put tag bs) mb.psb })
  else
    let fresh : PsbLine := PsbLine.put ⟨line, List.replicate 128 none, [], [], []⟩ tag bs
    match mb.psb with
    | [] => (s, { mb with psb := [fresh] })
    | p :: rest =>
      if c.lineShare ≤ mb.psb.length then (drainLine c.id s p, { (mb.seeDrained p) with psb := rest ++ [fresh] })
      else (s, { mb with psb := mb.psb ++ [fresh] })

/-- Bytes stored by member `m` of a context, line by line, so that a line enters the buffer as a whole (R229); under MM1 performed at
once and the view dropped, when a store was made at all (R242). -/
def storeBytes (s : State) (c : Ctx) (mb : Member) (ls : List (GLoc × Byte)) (tag : StoreTag := {}) (made : Bool := !ls.isEmpty) :
    State × Member :=
  let r := (ls.map fun x => x.1.line).eraseDups.foldl (fun (x : State × Member) line =>
    bufferLine c tag x.1 x.2 line ((ls.filter fun y => y.1.line == line).map fun y => (y.1.pa % 128, y.2))) (s, mb)
  if c.mm1 && made then
    let (s, mb) := drainMember c.id r.1 r.2
    (s, mb.unseen)
  else r

/-- A snapshot of a line taken ahead of the load that will add it to the view (R223); a later one takes the place of an earlier one. -/
def Member.snapAhead (mb : Member) (m : List Host.Cell) (pa : Nat) : Member :=
  { mb with early := (mb.early.filter fun v => v.pa != pa) ++ [⟨pa, Memory.readN m pa 128⟩] }

/-- What a snapshot of a line holds: its home value at an instant ahead of the load (R223), or now. -/
def Member.snapData (mb : Member) (m : List Host.Cell) (pa : Nat) : List Byte :=
  ((mb.early.find? fun v => v.pa == pa).map fun v => v.data).getD (Memory.readN m pa 128)

/-- The snapshot of a line added by a load when it is not in the view, the oldest displaced (R223). -/
def snapshotLine (m : List Host.Cell) (mb : Member) (pa : Nat) : Member :=
  if mb.view.any fun v => v.pa == pa then mb
  else
    let v := if Config.viewLines ≤ mb.view.length then mb.view.drop 1 else mb.view
    { mb with view := v ++ [⟨pa, mb.snapData m pa⟩], early := mb.early.filter fun v => v.pa != pa }

/-- The snapshots of some lines, each taken once (R223, R229). -/
def snapLines (m : List Host.Cell) : List Nat → Member → List ViewLine × Member
  | [], mb => ([], mb)
  | pa :: rest, mb =>
    let mb := snapshotLine m mb pa
    let r := snapLines m rest mb
    ((mb.view.filter fun v => v.pa == pa) ++ r.1, r.2)

/-- The store buffer holds a byte of its own, which a load returns whatever stands at home (R223). -/
def Member.overlaid (mb : Member) (l : GLoc) : Bool :=
  ((mb.psb.find? fun p => p.loc == l.line).bind fun p => (p.data.getD (l.pa % 128) none)).isSome

/-- One byte of a load: the snapshot's, overlaid with the buffer's (R223). -/
def loadByte (snaps : List ViewLine) (mb : Member) (l : GLoc) : Byte :=
  let pa := l.on (dieOf mb.cluster)
  match (mb.psb.find? fun p => p.loc == l.line).bind fun p => (p.data.getD (l.pa % 128) none) with
  | some v => v
  | none => (((snaps.find? fun v => v.pa == pa - pa % 128).map fun v => v.data).getD []).getD (pa % 128) 0

/-- Bytes of one access in order: every line is read in one snapshot (R229). -/
def loadBytes (m : List Host.Cell) (mb : Member) (ls : List GLoc) : List Byte × Member :=
  let pas := ls.map fun l => l.on (dieOf mb.cluster)
  let r := snapLines m (pas.map fun pa => pa - pa % 128).eraseDups mb
  (ls.map (loadByte r.1 r.2), r.2)

/-- Before an atomic of context `k`: the line of a location drained, the line dropped from the view in every copy (R222, R224, R234); outside region
0x0 what the ports have accepted is performed before it. -/
def atomicLine (k : Nat) (s : State) (mb : Member) (l : GLoc) : State × Member :=
  let mine := mb.psb.filter fun p => p.loc == l.line
  let s := drainLines k s mine
  (if l.region == 0 then s else flushPorts s,
    ({ mb with psb := mb.psb.filter fun p => p.loc != l.line }).dropLines (l.line.copies))

/-- The new value of an atomic on `w` bits (R370, R414); the compare value only for `.cas`. -/
def atomicNew (op : AtomicOp) (w : Nat) (old b cmp : Nat) : Nat :=
  match op with
  | .add => (old + b) % 2 ^ w
  | .min => if elemInt true w old ≤ elemInt true w b then old else b
  | .max => if elemInt true w b ≤ elemInt true w old then old else b
  | .and => old &&& b
  | .or => old ||| b
  | .xor => old ^^^ b
  | .exch => b
  | .cas => if old == cmp then b else old

/-- An atomic performed at home on the copy of die 0 (R231, R234): the old value and the state after; `f` answers none when
nothing is written (R371, R414). -/
def performAtomic (s : State) (ls : List GLoc) (f : Nat → Option Nat) : Nat × State :=
  let old := leNat (homeRead s.mem 0 ls)
  (old, match f old with
    | some v => s.perform (ls.zip (leBytes ls.length v))
    | none => s)

/-! ## The range scoreboard (R210, R211) -/

def Range.meets (a b : Range) : Bool := a.sp == b.sp && decide (a.lo < b.lo + b.len ∧ b.lo < a.lo + a.len)

/-- Two ranges compared in 64-byte granules (R211). -/
def Range.meets64 (a b : Range) : Bool :=
  a.sp == b.sp && a.len != 0 && b.len != 0 &&
    decide (a.lo / 64 ≤ (b.lo + b.len - 1) / 64 ∧ b.lo / 64 ≤ (a.lo + a.len - 1) / 64)

/-! ## Streams, rows and retirement -/

/-- The entry is an engine command. -/
def Entry.isEngine (e : Entry) : Bool :=
  match e.item with
  | .slot i => i.eform.isSome
  | .marker _ => false
def Entry.isMarker (e : Entry) : Bool :=
  match e.item with
  | .slot _ => false
  | .marker _ => true

/-- The entry lies behind the row: taken, also in the window of a slot that is still to be taken (R85), or an engine command handed
over on the row's member. -/
def Ctx.passedBy (c : Ctx) (r : Row) (e : Entry) : Bool :=
  decide (e.seq < r.issue) || r.ahead.contains e.seq || (e.isEngine && decide (e.seq < ((c.member r.member).map fun m => m.handed).getD 0))

/-- The next entry a row takes; behind a slot whose fault has not stopped the row yet, if there is one (R85). -/
def Ctx.nextEntry (c : Ctx) (r : Row) : Option Entry :=
  c.stream.find? fun e => !c.passedBy r e && !(r.late.any fun x => x.1 == e.seq)

/-! ## Rows before and behind a slot -/

/-- Rows of one slot follow item order. -/
def monoRowBlocked (s : State) (c : Ctx) (r : Row) (e : Entry) : Bool :=
  monoBlocked s c e.key || (c.mono && c.rows.any fun q => q.live && decide (q.item < r.item) && !c.passedBy q e)

/-- Every non-retired row has completed every slot below an order number, on one member or on all. -/
def Ctx.rowsBeyond (c : Ctx) (m : Option Nat) (seq : Nat) : Bool :=
  c.rows.all fun r => !r.live || (m.isSome && m != some r.member) ||
    c.stream.all fun e => decide (seq ≤ e.seq) || c.passedBy r e

/-- Every earlier engine command has been handed over on a member. -/
def Ctx.enginesBeyond (c : Ctx) (m : Nat) (seq : Nat) : Bool :=
  c.stream.all fun e => !e.isEngine || decide (seq ≤ e.seq) || decide (e.seq < ((c.member m).map fun x => x.handed).getD 0)

/-- ESNs that every row of a member has passed or retired before reaching; an MWAIT or CWAIT that holds the rows is not behind them
(R93, R186, R353). -/
def Ctx.passedEsns (c : Ctx) (m : Nat) : Nat :=
  if (c.memberRows m).isEmpty then c.emitCount
  else
    c.fed - (c.stream.filter fun e => !e.isMarker && (c.memberRows m).any fun r => !c.passedBy r e).length -
      ((c.member m).map fun mb => mb.holds.length).getD 0

/-- Entries that every row and every member has left behind disappear (R57, R59, R60). -/
def Ctx.prune (c : Ctx) : Ctx :=
  { c with stream := c.stream.filter fun e =>
      e.isMarker || (if e.isEngine then c.members.any fun m => decide (m.handed ≤ e.seq)
        else c.rows.any fun r => r.live && !c.passedBy r e),
           stores := c.stores.filter fun x => c.rows.any fun r => r.live && decide (r.item < x.item) && decide (r.issue ≤ x.seq) }

/-- A vote resolves once every non-retired row has completed it (R78, R79). -/
def Ctx.resolveVotes (c : Ctx) : Ctx :=
  { c with vq := c.vq.map fun v =>
      match v.kind, v.seq, v.result with
      | .schk, _, _ => v
      | k, some q, none =>
        if c.rows.all fun r => !r.live || decide (q < r.issue) || r.ahead.contains q then
          { v with result := some (match k with
            | .any => if v.anySet then 1 else 0
            | .all => if v.allSet then 1 else 0
            | _ => BitVec.ofNat 64 v.count) }
        else v
      | _, _, _ => v }

/-- R29, R46: a row retires at an order number: granules free, carried registers frozen, what waits for it dropped. -/
def Ctx.retireRow (c : Ctx) (r : Row) (seq : Nat) (esn : BitVec 48) : Ctx :=
  let r := { r with retired := some ⟨seq, esn, c.carried.map fun x => (x, r.reg x)⟩, windows := [], stop := none, late := none, amo := none, held := none,
                    due := [], lateMask := none }
  let c := { c.putRow r with kept := c.kept.filter fun k => k.item != r.item }
  { c with members := c.members.map fun m => { m with inbox := m.inbox.filter fun k => k.consumer != r.item } }

/-- No MWAIT or CWAIT holds the rows of a member. -/
def Ctx.unheld (c : Ctx) (m : Nat) : Bool := (c.member m).all fun mb => mb.holds.isEmpty

/-- A slot that a row completes before it retires at EXIT: a lane instruction (R29), and an MWAIT or CWAIT, which holds the rows (log 32); no
other engine command, no marker. -/
def Instr.keepsRow (i : Instr) : Bool :=
  match i with
  | .mwait _ | .cwait _ => true
  | _ => i.eform.isNone

/-- The same of what the stream holds. -/
def StreamItem.keepsRow : StreamItem → Bool
  | .slot i => Instr.keepsRow i
  | .marker _ => false

/-- The same of what is still to enter the stream. -/
def Intake.keepsRow : Intake → Bool
  | .entry e => e.item.keepsRow
  | .replay r => (r.recs.drop (Config.segment * r.segment)).any fun x => Instr.keepsRow x.i

/-- After EXIT a row retires once it has completed every lane instruction and no wait holds it (R29, R186; log 32).  DESIGN CHOICE (log 32):
the ESN that R46 has recorded is then the one that the next slot would get, as it is at a discard. -/
def Ctx.retireDone (c : Ctx) : Ctx :=
  if c.exited && c.intake.all fun i => !i.keepsRow then
    c.rows.foldl (fun c x =>
      match c.rowOf x.item with
      | some r =>
        if r.live && c.unheld r.member && c.stream.all (fun e => !e.item.keepsRow || c.passedBy r e) then c.retireRow r c.nextSeq c.nextEsn
        else c
      | none => c) c
  else c

/-- Inspection slots are executed in non-retired rows only (R302). -/
def Ctx.pruneChannel (c : Ctx) : Ctx :=
  { c with channel := (c.channel.map fun x =>
      if x.1.isMarker then x else (x.1, x.2.filter fun k => (c.rowOf k).any Row.live)).filter fun x => x.1.isMarker || !x.2.isEmpty }

/-- What follows every change of a row's position. -/
def Ctx.settle (c : Ctx) : Ctx := c.retireDone.prune.resolveVotes.prune.pruneChannel

/-! ## Hardware queues (R269-R272) -/

def State.queueOf (s : State) (n : Nat) : Option DevQueue := s.queues.find? fun q => q.num == n
def State.putQueue (s : State) (q : DevQueue) : State := { s with queues := mapIf (fun x => x.num == q.num) (fun _ => q) s.queues }

def DevQueue.size (q : DevQueue) : Nat := 2 ^ q.logd
/-- The virtual or, for queue 0, physical address of a slot. -/
def DevQueue.slotAddr (q : DevQueue) (slot : Nat) : Nat := q.ring + slot % q.size * 2 ^ q.logr

/-- Byte `j` of BITMAP: the commit bits of ring positions 8j to 8j + 7 (R437). -/
def DevQueue.mirrorByte (q : DevQueue) (j : Nat) : Byte :=
  BitVec.ofNat 8 ((List.range 8).map fun k => if q.committed.any fun x => x % q.size == 8 * j + k then 2 ^ k else 0).sum

/-- Byte `j` of a queue's BITMAP written from the commit bits (R437).  DESIGN CHOICE (log 88): a page that does not translate leaves the
mirror as it is. -/
def mirror (s : State) (q : DevQueue) (j : Nat) : State :=
  let a := q.bitmap + j
  let loc : Option GLoc := match q.domain with
    | none => if paMappable s.fenced a then some ⟨a, false⟩ else none
    | some d => match translate s d a false .store with
      | .ok (l, _) => some l
      | .error _ => none
  match loc with
  | none => s
  | some l => s.perform [(l, q.mirrorByte j)]

/-- The whole BITMAP of a queue that is enabled: its commit bits are clear (R437). -/
def mirrorAll (s : State) (q : DevQueue) : State := (List.range ((q.size + 7) / 8)).foldl (fun s j => mirror s q j) s

/-- QRSV (R270): the reserved slot, or all ones. -/
def reserveSlot (s : State) (q : DevQueue) : DWord × State :=
  if q.ticket < q.size || !(q.unreleased.contains (q.ticket - q.size)) then
    (BitVec.ofNat 64 q.ticket, s.putQueue { q with ticket := q.ticket + 1, unreleased := q.unreleased ++ [q.ticket] })
  else (BitVec.allOnes 64, s)

/-- Slot HEAD of a queue (as it stands in `q`) is taken: its commit bit is cleared and HEAD advances. -/
def takeHead (s : State) (q : DevQueue) : State :=
  let q1 := { q with head := q.head + 1, committed := q.committed.filter fun x => x != q.head }
  mirror (s.putQueue q1) q1 (q.head % q.size / 8)

/-- A slot released. -/
def releaseSlot (s : State) (qn slot : Nat) : State :=
  match s.queueOf qn with
  | none => s
  | some q => s.putQueue { q with unreleased := q.unreleased.filter fun x => x != slot }

/-- What a context gets with a slot: the last slot taken from the queue, and a deadline on a Crimson queue (R312).  DESIGN CHOICE (log 22): a
sleeper's deadline counts from the queue's latest commit, also where the slot that it takes was committed earlier. -/
def Ctx.tookSlot (c : Ctx) (q : DevQueue) (woken : Bool) : Ctx :=
  let c := { c with taken := (c.taken.filter fun t => t.1 != q.num) ++ [(q.num, q.head)] }
  if woken && q.crimson && q.budget != 0 then
    { c with deadline := some (q.lastCommit + BitVec.ofNat 64 q.budget) }
  else c

/-! ## Commits and sleepers (R272, R376) -/

/-- NextPC of an instruction that cannot fail any more (R109); the return-stack faults are checked before (R111). -/
def Ctx.nextPc (c : Ctx) (q : Seq) : Ctx :=
  let dest := fun (off : BitVec 14) => c.pc + off.signExtend 64
  match q with
  | .next => { c with pc := c.pc + 1 }
  | .jump off => { c with pc := dest off }
  | .jt f off => { c with pc := if c.flag f then dest off else c.pc + 1 }
  | .jf f off => { c with pc := if c.flag f then c.pc + 1 else dest off }
  | .call off => { c with pc := dest off, rstack := c.rstack ++ [c.pc + 1] }
  | .ret => { c with pc := c.rstack.getLastD 0, rstack := c.rstack.dropLast }
  | .lend n off =>
    if 1 < (c.loop n).toNat then { (c.setLoop n (c.loop n - 1)) with pc := dest off } else { (c.setLoop n 0) with pc := c.pc + 1 }
  | .exit => c

/-- R111: the fault of the sequencing, if any. -/
def Ctx.seqFault (c : Ctx) (q : Seq) : Option Cause :=
  match q with
  | .call _ => if 16 ≤ c.rstack.length then some .rsovf else none
  | .ret => if c.rstack.isEmpty then some .rsund else none
  | _ => none

/-- StopContext (R113, R70, R272). -/
def stopContext (s : State) (c : Ctx) : State :=
  let c' := { c with gen := .stopped, ir := none, stretches := c.stretches.filter fun x => x.defined, taken := [] }
  c.taken.foldl (fun s t => releaseSlot s t.1 t.2) (s.putCtx c'.settle)

/-- A generator instruction has completed: NextPC, or StopContext for EXIT. -/
def retireGen (s : State) (c : Ctx) (q : Seq) : State :=
  let c := { c with ir := none, gen := .running, genCount := c.genCount + 1, twait := none }
  match q with
  | .exit => stopContext s c
  | _ => s.putCtx (c.nextPc q)

/-- The sleepers of a queue served in order while slot HEAD is committed (R272); at most `n` of them. -/
def wakeSleepers (s : State) (qn : Nat) : Nat → State
  | 0 => s
  | n + 1 =>
    match s.queueOf qn with
    | none => s
    | some q =>
      match q.sleepers with
      | [] => s
      | w :: rest =>
        if q.committed.contains q.head then
          match s.ctxOf w with
          | none => wakeSleepers (s.putQueue { q with sleepers := rest }) qn n
          | some c =>
            match c.gen with
            | .sleepQueue _ d sq =>
              let s := takeHead s { q with sleepers := rest }
              let c := (c.setG d (BitVec.ofNat 64 q.head)).tookSlot q true
              let s := retireGen (s.cure fun p => p == .greg w d.toNat) c sq
              wakeSleepers s qn n
            | _ => wakeSleepers (s.putQueue { q with sleepers := rest }) qn n
        else s

/-- A commit bit set: latch 0 of every context bound to the queue, then the sleepers (R272, R376). -/
def commitSlot (s : State) (q : DevQueue) (slot : Nat) : State :=
  let q := { q with committed := q.committed ++ [slot], lastCommit := s.realtime, lastSlot := BitVec.ofNat 64 slot }
  let s := mirror (s.putQueue q) q (slot % q.size / 8)
  let s := { s with ctxs := s.ctxs.map fun c =>
    if c.queues.toList.contains (some q.num) then { c with latches := c.latches ||| 1 } else c }
  wakeSleepers s q.num (q.sleepers.length + 1)

/-- A context leaves every sleeper list (R270). -/
def unsleep (s : State) (c : Ctx) : State × Ctx :=
  let c := match c.gen with
    | .stopped => c
    | _ => { c with gen := .running, twait := none }
  ({ s with queues := s.queues.map fun q => { q with sleepers := q.sleepers.filter fun w => w != c.id } }, c)

/-! ## Traps (R294-R305) -/

/-- The code of a cause (R294). -/
def Cause.code : Cause → Nat
  | .illegal => 0x01 | .privf => 0x02 | .csrbad => 0x03 | .rsovf => 0x04 | .rsund => 0x05 | .align => 0x06
  | .noncanon => 0x07 | .nomap => 0x08 | .ptebad => 0x09 | .perm => 0x0A | .fmtf => 0x0B | .bufv => 0x0C
  | .capseq => 0x0D | .capdup => 0x0E | .capnone => 0x0F | .vqempty => 0x10 | .carryr => 0x11 | .carryk => 0x12
  | .qstate => 0x13 | .qbad => 0x14 | .strbad => 0x15 | .gtrap => 0x16 | .hstate => 0x17
  | .illop => 0x20 | .illtype => 0x21 | .illmark => 0x22 | .subbad => 0x23 | .illreg => 0x24 | .lafld => 0x25
  | .vqovf => 0x26 | .caplen => 0x27 | .caphole => 0x28 | .capfull => 0x29 | .inspf => 0x2A
  | .mrange => 0x30 | .mdfmt => 0x31 | .hdlbad => 0x32 | .frange => 0x33 | .decf => 0x34 | .crcf => 0x35 | .sortf => 0x36
  | .crange => 0x37 | .nsubf => 0x38 | .mchk => 0x40 | .timer => 0x50 | .deadline => 0x51 | .preempt => 0x52 | .restore => 0x53

def TrapDom.code : TrapDom → Nat
  | .g => 0
  | .e => 1
  | .l => 2
  | .x => 3

/-- TCAUSE (R96). -/
def Trap.word (t : Trap) : DWord :=
  BitVec.ofNat 64 (t.cause.code + t.dom.code * 2 ^ 8 +
    match t.rpl with
    | none => 0
    | some (n, i) => 2 ^ 10 + n.toNat * 2 ^ 11 + i.toNat * 2 ^ 19)

/-- The fault record written (R295). -/
def Ctx.record (c : Ctx) (t : Trap) : Ctx :=
  { c with tcause := t.word, tesn := t.esn.zeroExtend 64, taddr := t.addr, tmask := t.mask, tpc := t.pc }

/-- What remains of an engine queue when a dispatch is cut short: the commands that have started (R304). -/
def startedOnly (l : List Cmd) : List Cmd := l.filter fun x => x.st == .started

/-- R304, R305: the dispatch ends; lines drain (R222, R290), rows retire, commands not started are dropped.  A row that is discarded so
records the context's next ESN (R46; log 32). -/
def endContext (s : State) (c : Ctx) (status reason : BitVec 8) (tcause tesn : DWord) : State :=
  let (s, c) := unsleep s c
  let (s, c) := drainOut s c
  let c := c.liveRows.foldl (fun c r => c.retireRow r c.nextSeq c.nextEsn) c
  let members := c.members.map fun m =>
    let left := startedOnly m.copyQ ++ startedOnly m.fetchQ ++ startedOnly m.storageQ ++ startedOnly m.bank.queue
    { m with copyQ := startedOnly m.copyQ, fetchQ := startedOnly m.fetchQ, storageQ := startedOnly m.storageQ, holds := [],
             inbox := [], board := m.board.filter fun b => left.any fun x => x.e.seq == b.seq,
             bank := { m.bank with queue := startedOnly m.bank.queue } }
  let c := { c with members := members, stream := [], intake := [], channel := [], kept := [], handling := none,
                    halting := false, deferred := none,
                    switch := if c.switch == .out then .out else .inside, handler := false, priv := false,
                    ended := some ⟨status, reason, tcause, tesn⟩, deadline := none }
  stopContext s c

/-- A message is left with the leaf controller of a cluster (R263). -/
def post (s : State) (leaf : Nat) (crimson : Bool) (x : Report) : State :=
  { s with links := s.links ++ [{ leaf := leaf, crimson := crimson, sent := false, body := x }] }

/-- Events are no faults (R294). -/
def Cause.isEvent : Cause → Bool
  | .gtrap | .timer | .deadline | .preempt | .restore => true
  | _ => false

/-- The cluster whose leaf controller sees a fault: the reported row's or engine's, else the leader's. -/
def Ctx.faultLeaf (c : Ctx) (h : Handling) : Nat :=
  let m := match h.eng, h.row with
    | some (m, _), _ => m
    | none, some item => item / c.rowCount
    | none, none => 0
  ((c.member m).map fun mb => mb.cluster).getD 0

/-- R264: a fault is reported to the scheduler. -/
def reportFault (s : State) (c : Ctx) (t : Trap) (h : Handling) : State :=
  if t.cause.isEvent then s else post s (c.faultLeaf h) (c.cls == .crimson) (.fault c.id t.word)

/-- A trap is taken (R301, R305): the handler entered, or the context killed. -/
def takeTrap (s : State) (c : Ctx) (t : Trap) (h : Handling) : State :=
  if c.handler then
    let c := c.record t
    endContext s c 2 0x20 c.tcause c.tesn
  else if c.tvec == 0 then
    let c := c.record t
    endContext s c 2 0x23 c.tcause c.tesn
  else
    let (s, c) := unsleep s c
    s.putCtx { (c.record t) with priv := true, handler := true, pc := c.tvec, ir := none, gen := .running,
                                 halting := false, handling := some h }

/-- A trap is taken, and a fault reported (R264). -/
def enterTrap (s : State) (c : Ctx) (t : Trap) (h : Handling) : State := takeTrap (reportFault s c t h) c t h

/-- A fault that a row or a wait of member `m` finds under a handler is a double fault (R305): nothing returns from it, so that `h` only
says whose leaf controller reports it. -/
def doubleFault (s : State) (c : Ctx) (m : Nat) (t : Trap) : State :=
  enterTrap s c t { trap := t, row := none, eng := some (m, .matrix), marker := false, afterExit := c.exited, resume := c.pc, skipLen := 0 }

/-- Among the rows stopped with a fault, the one of lowest ESN, then of lowest item (R299). -/
def Ctx.reported (c : Ctx) : Option (Row × Nat × Trap) :=
  (leastBy2 (fun x => (x.2.1, x.1.item)) (c.liveRows.filterMap fun r => r.stop.map fun p => (r, p.1, p.2)))

/-- A generator, emission or event trap: precise, no row is reported (R296).  DESIGN CHOICE (log 85): a fault of domain G at an engine command's
slot, whose parameter word does not translate or whose `=g` register is poisoned, is skipped to PC + 1 as R303's row for G has it, where R144
has the skip of a lane slot add its length. -/
def plainTrap (s : State) (c : Ctx) (t : Trap) (skipLen : Nat := 1) : State :=
  enterTrap s c t { trap := t, row := none, eng := none, marker := false, afterExit := false, resume := t.pc, skipLen := skipLen }

/-- A generator fault of the instruction at PC. -/
def genFault (s : State) (c : Ctx) (cause : Cause) (addr : DWord) : Out :=
  done (plainTrap s c { cause := cause, dom := .g, addr := addr, pc := c.pc })

/-- An emission fault of the slot at PC. -/
def emitFault (s : State) (c : Ctx) (len : Nat) (cause : Cause) (addr : DWord) : Out :=
  done (plainTrap s c { cause := cause, dom := .e, addr := addr, pc := c.pc } len)

/-! ## The frame of a generator instruction (R361) -/

/-- What the own effect of a generator instruction came to. -/
inductive GenRes where
  /-- not ready (R282) -/
  | wait
  /-- a precise generator fault with its TADDR -/
  | trap (cause : Cause) (addr : DWord)
  /-- the context after the effect, in the state after the effect -/
  | ok (s : State) (c : Ctx)
  /-- a precise emission fault of RPLY (R72) -/
  | emit (cause : Cause) (addr : DWord)

/-- TADDR of a poisoned word (R310): space and index. -/
def poisonAddr (space index : Nat) : DWord := BitVec.ofNat 64 (space * 2 ^ 60 + index % 2 ^ 60)

/-- The context in hand. -/
def withCtx (s : State) (f : Ctx → Out) : Out :=
  match s.ctxOf s.hand.ctx with
  | none => .fault .noExecutor
  | some c => f c

/-- A generator instruction: poisoned sources, the own effect, the faults of its sequencing (which undo the effect), NextPC. -/
def genStep (s : State) (q : Seq) (srcs : List GReg) (f : Ctx → GenRes) : Out :=
  withCtx s fun c =>
    match srcs.find? fun r => s.gPoisoned c.id r with
    | some r => genFault s c .mchk (poisonAddr 4 r.toNat)
    | none =>
      match f c with
      | .wait => wait s
      | .trap cause addr => genFault s c cause addr
      | .emit cause addr => emitFault s c 1 cause addr
      | .ok s1 c1 =>
        match c.seqFault q with
        | some cause => genFault s c cause 0
        | none => done (retireGen s1 c1 q)

/-- The registers that a second operand reads. -/
def srcRegs : GSrc → List GReg
  | .reg r => [r]
  | .imm _ => []

/-- A result in g`d`: writing the register clears its poison (R309). -/
def genWrite (s : State) (c : Ctx) (d : GReg) (v : DWord) : GenRes :=
  .ok (s.cure fun p => p == .greg c.id d.toNat) (c.setG d v)

/-- An instruction that only computes a value for g`d`. -/
def genCompute (s : State) (q : Seq) (d : GReg) (srcs : List GReg) (f : Ctx → DWord) : Out :=
  genStep s q srcs fun c => genWrite s c d (f c)

/-- TSET markers of the context that have not taken effect (R283). -/
def Ctx.tsetPending (c : Ctx) : Bool :=
  let isTset := fun (e : Entry) => match e.item with
    | .marker (.tset _ _ _) => true
    | _ => false
  c.stream.any isTset || c.intake.any fun i => match i with
    | .entry e => isTset e
    | .replay _ => false

/-- Markers of FENCE, PHASE and BAR that have not taken effect (R64). -/
def Ctx.orderPending (c : Ctx) : Bool :=
  let isOrder := fun (e : Entry) => match e.item with
    | .marker (.fence _) | .marker .fenceX | .marker (.phase _ _) | .marker (.bar _) => true
    | _ => false
  c.stream.any isOrder || (c.channel.any fun x => isOrder x.1) || c.intake.any fun i => match i with
    | .entry e => isOrder e
    | .replay _ => false

end Sys2Proof.Machine
end

