-- ==== Sys2Proof/Machine/GenCtl.lean ====
section
/-!
DEFINITION. Control instructions of the generator but for GRTE (R373-R378) and the system registers (R92, R93, R351, R352).
-/
namespace Sys2Proof.Machine

/-- R373. -/
def execGloop (q : Seq) (n : LoopReg) (b : GSrc) (s : State) : Out :=
  genStep s q (srcRegs b) fun c => .ok s (c.setLoop n ((c.src b).truncate 32))

/-- R374: the target is not checked here (R375). -/
def execGjmpr (link : Bool) (a : GReg) (s : State) : Out :=
  withCtx s fun c =>
    if s.gPoisoned c.id a then genFault s c .mchk (poisonAddr 4 a.toNat)
    else if link && decide (16 ≤ c.rstack.length) then genFault s c .rsovf 0
    else
      done (s.putCtx { c with pc := c.greg a, rstack := if link then c.rstack ++ [c.pc + 1] else c.rstack, ir := none,
                              gen := .running, genCount := c.genCount + 1 })

/-- R376: the first pass over unset latches puts the context to sleep; it is executed again until a latch of the mask is set. -/
def execGwfe (q : Seq) (b : GSrc) (s : State) : Out :=
  withCtx s fun c =>
    let m : BitVec 3 := (c.src b).truncate 3
    if (srcRegs b).any (s.gPoisoned c.id) || m == 0 || (c.latches &&& m) != 0 then
      genStep s q (srcRegs b) fun c => .ok s { c with latches := c.latches &&& ~~~m }
    else if c.gen == .sleepEvent m then wait s
    else done (s.putCtx { c with gen := .sleepEvent m })

/-- R378: the sequencing completes first, its faults take the trap's place. -/
def execGtrap (q : Seq) (v : BitVec 16) (s : State) : Out :=
  withCtx s fun c =>
    match c.seqFault q with
    | some cause => genFault s c cause 0
    | none =>
      let s := retireGen s c q
      match s.ctxOf c.id with
      | none => .fault .noExecutor
      | some c => genFault s c .gtrap (v.zeroExtend 64)

/-! ## System registers -/

/-- Numbers that R92 assigns. -/
def csrAssigned (n : Nat) : Bool :=
  decide (n ≤ 8) || decide (0x10 ≤ n ∧ n ≤ 0x12) || decide (0x20 ≤ n ∧ n ≤ 0x22) || n == 0x30 || n == 0x31 ||
    decide (0x40 ≤ n ∧ n ≤ 0x45) || decide (0x100 ≤ n ∧ n ≤ 0x10F)

/-- The SUPER registers of R92. -/
def csrSuper (n : Nat) : Bool := decide (0x40 ≤ n ∧ n ≤ 0x45)

/-- RETIRED of a member (R93). -/
def Ctx.retiredCount (c : Ctx) (m : Nat) : Nat := (if m == 0 then c.genCount else 0) + c.passedEsns m

/-- STATUS (R95). -/
def statusWord (s : State) (c : Ctx) : DWord :=
  BitVec.ofNat 64 ((if c.dense then 1 else 0) + (if s.fenced.any then 2 ^ 8 else 0) + (if c.mm1 then 2 ^ 9 else 0) +
    (if c.ash then 2 ^ 10 else 0) + (if c.handler then 2 ^ 11 else 0))

/-- HEAD of the queue bound to context queue `n` (R272, R352). -/
def qslot (s : State) (c : Ctx) (n : Nat) : DWord :=
  match c.queues.toList.getD n none with
  | none => 0
  | some dq => ((s.queueOf dq).map fun q => BitVec.ofNat 64 q.head).getD 0

/-- The value of a system register (R92, R93). -/
def csrValue (s : State) (c : Ctx) (n : Nat) : DWord :=
  let retired := BitVec.ofNat 64 (c.retiredCount 0)
  match n with
  | 0x000 => 0
  | 0x001 => BitVec.ofNat 64 c.rowCount
  | 0x002 => 64
  | 0x003 => BitVec.ofNat 64 Config.vqlat
  | 0x004 => BitVec.ofNat 64 Config.vqlatm
  | 0x005 => c.ck1.zeroExtend 64
  | 0x006 => c.ck2.zeroExtend 64
  | 0x007 => c.kbase
  | 0x008 => c.rodata
  | 0x010 => if c.mono then retired else c.cycle
  | 0x011 => if c.mono then retired else s.realtime
  | 0x012 => retired
  | 0x020 => statusWord s c
  | 0x021 => if c.priv then 1 else 0
  | 0x022 => if c.mono then 1 else 0
  | 0x030 => c.rmax.zeroExtend 64
  | 0x031 => c.beta.zeroExtend 64
  | 0x040 => c.tvec
  | 0x041 => c.tcause
  | 0x042 => c.tesn
  | 0x043 => c.taddr
  | 0x044 => c.tmask
  | 0x045 => c.tpc
  | n => qslot s c (n - 0x100)

/-- Every emitted slot has been completed or skipped in every row (R289): none is left to take, none waits for its fault (R85), and no MWAIT or
CWAIT holds the row. -/
def Ctx.drained (c : Ctx) : Bool :=
  c.intake.isEmpty && c.liveRows.all fun r => (c.nextEntry r).isNone && r.late.isNone && c.unheld r.member

/-- R351, R352; the leader's cluster is member 0, so ITEMBASE reads 0. -/
def execCsrr (q : Seq) (d : GReg) (n : BitVec 12) (s : State) : Out :=
  genStep s q [] fun c =>
    let k := n.toNat
    if !csrAssigned k then .trap .csrbad (n.zeroExtend 64)
    else if csrSuper k && !c.priv then .trap .privf 0
    else if c.mono && decide (0x10 ≤ k ∧ k ≤ 0x12) && !c.drained then .wait
    else genWrite s c d (csrValue s c k)

/-- The field-by-field writes of R351. -/
def csrWrite (c : Ctx) (n : Nat) (v : DWord) : Ctx :=
  let low : BitVec 16 := v.truncate 16
  match n with
  | 0x005 => if low == 0 then c else { c with ck1 := low }
  | 0x006 => if low == 0 then c else { c with ck2 := low }
  | 0x020 => { c with dense := c.dense && !v.getLsbD 0 }
  | 0x030 => { c with rmax := low }
  | 0x031 => { c with beta := low }
  | 0x040 => { c with tvec := v }
  | _ => c

/-- R351. -/
def execCsrw (q : Seq) (a : GReg) (n : BitVec 12) (s : State) : Out :=
  genStep s q [a] fun c =>
    let k := n.toNat
    if !csrAssigned k then .trap .csrbad (n.zeroExtend 64)
    else if csrSuper k && !c.priv then .trap .privf 0
    else .ok s (csrWrite c k (c.greg a))

end Sys2Proof.Machine
end

