-- ==== Sys2Proof/WellFormed.lean ====
section
/-!
DEFINITION. When an instruction is well formed: a form that the encodings admit and that no fetch or static emission check
refuses (R108, R110, R119, R123, R142), and device steps whose numbers exist.
-/
namespace Sys2Proof

/-- A parameter literal that a marker 0b00 word can hold (R55): the sign extension of 62 bits. -/
def Param.encodable : Param → Bool
  | .lit v => (v.extractLsb' 0 62).signExtend 64 == v
  | _ => true

def EForm.encodable (e : EForm) : Bool :=
  e.p0.encodable && e.p1.encodable && e.p2.encodable && e.p3.encodable

/-- A unit of the package (R326). -/
def FenceUnit.exists : FenceUnit → Bool
  | .cluster n => decide (n < 192)
  | .slice n => decide (n < 256)
  | .stack n => decide (n < 8)
  | .ucie n => decide (n < 8)
  | .storage n => decide (n < 4)
  | .ranoc n => decide (n < 16)

/-- The function field that separates rows of one opcode agrees with the constructor (R392, R255, R419, R420). -/
def Instr.rowOk : Instr → Bool
  | .vcvt f => decide (f.vc.toNat < 128)
  | .vcvtAcc f => decide (128 ≤ f.vc.toNat)
  | .nsubRead e => e.fn == 0
  | .nsubWrite e => e.fn == 1
  | .nsubFlush e => e.fn == 2
  | .sisec e => e.fn == 0
  | .sunion e => e.fn == 1
  | .sdiff e => e.fn == 2
  | .smadd e => e.fn == 3
  | _ => true

/-- Numbers of device steps lie in range (R269, R321, R326, R11). -/
def Instr.stepOk : Instr → Bool
  | .launch q | .domcreate q | .domdestroy q | .qenable q | .qdisable q | .shootdown q | .patch q | .nvmepair q | .nvmefree q
  | .ticket q | .commit q _ | .errcnt q _ | .unassignedControlKind q => decide (q < 4096)
  | .nsubRetire p _ _ _ => decide (p < 1024)
  | .launchPlacement _ b | .restore _ b => decide (b < 192)
  | .criticalTemperature d => decide (d < 4)
  | .runtimeFence u => u.exists
  | .attestationReport n => n.length == 32
  | _ => true

/-- Well-formed instructions. -/
def Instr.wellFormed (i : Instr) : Bool :=
  match i with
  | .gld _ sz sx _ _ _ => !(sx && sz == .d)
  | .gtrap q _ => q != .exit
  | _ =>
    match i.lform with
    | some (op, f) => lTypeOk op f && i.rowOk
    | none =>
      match i.liform with
      | some (op, f) => liTypeOk op f
      | none =>
        match i.eform with
        | some (op, e) => eTypeOk op e && e.encodable && i.rowOk
        | none => i.stepOk

end Sys2Proof
end

