-- ==== Sys2Proof/Decode.lean ====
section
/-!
DEFINITION. From slots to instructions (R105, R107, R116, R120, R122, R133-R142) and back.  The decoder is total and refuses
by name; the first four emission causes of R143 are decided here, the others need the state.
-/
namespace Sys2Proof

/-- Why a slot is refused: the G-domain trap ILLEGAL (R108, R134), the first four causes of R143, or too few bytes. -/
inductive DecodeErr where
  | illegal | illop | illmark | illtype | subbad | truncated
  deriving DecidableEq, Repr

/-- Bits [lo+n-1:lo] of a slot (R1). -/
def fieldOf (w : DWord) (lo n : Nat) : BitVec n := w.extractLsb' lo n

/-- R109, R110: the sequencing fields of a generator slot, none when they break R110. -/
def decodeSeq (w : DWord) : Option Seq :=
  let fs := fieldOf w 57 3
  let off := fieldOf w 43 14
  match (fieldOf w 60 3).toNat with
  | 0 => if fs == 0 && off == 0 then some .next else none
  | 1 => if fs == 0 then some (.jump off) else none
  | 2 => some (.jt fs off)
  | 3 => some (.jf fs off)
  | 4 => if fs == 0 then some (.call off) else none
  | 5 => if fs == 0 && off == 0 then some .ret else none
  | 6 =>
    match fs.toNat with
    | 0 => some (.lend .lc0 off)
    | 1 => some (.lend .lc1 off)
    | 2 => some (.lend .lc2 off)
    | _ => none
  | _ => if fs == 0 && off == 0 then some .exit else none

/-- The second operand of R362: the unused field must be zero. -/
def decodeSrc (i : Bool) (gb : GReg) (imm : BitVec 16) : Option GSrc :=
  if i then (if gb == 0 then some (.imm imm) else none) else (if imm == 0 then some (.reg gb) else none)

/-- The two-source mould of R362. -/
def mould (op : Nat) (q : Seq) (d a : GReg) (b : GSrc) : Option Instr :=
  match op with
  | 0x00 => some (.gadd q d a b) | 0x01 => some (.gsub q d a b) | 0x02 => some (.gmul q d a b)
  | 0x03 => some (.gmulh q d a b) | 0x04 => some (.gdiv q d a b) | 0x05 => some (.grem q d a b)
  | 0x06 => some (.gand q d a b) | 0x07 => some (.gor q d a b) | 0x08 => some (.gxor q d a b)
  | 0x09 => some (.gshl q d a b) | 0x0A => some (.gshr q d a b) | 0x0B => some (.gsra q d a b)
  | 0x0C => some (.gmin q d a b) | 0x0D => some (.gmax q d a b)
  | _ => none

def condOf (n : Nat) : Option GCond :=
  match n with
  | 0 => some .eq | 1 => some .ne | 2 => some .lt | 3 => some .le | 4 => some .ltu | 5 => some .leu
  | _ => none

def sizeOf2 (n : BitVec 2) : Size :=
  match n.toNat with
  | 0 => .b | 1 => .h | 2 => .w | _ => .d

def atomicOf (n : BitVec 3) : AtomicOp :=
  match n.toNat with
  | 0 => .add | 1 => .min | 2 => .max | 3 => .and | 4 => .or | 5 => .xor | 6 => .exch | _ => .cas

def scopeOf (n : Nat) : Option Scope :=
  match n with
  | 1 => some .cluster | 2 => some .gang | 3 => some .die | 4 => some .device | 5 => some .domain | 6 => some .system
  | _ => none

def loopOf (n : Nat) : Option LoopReg :=
  match n with
  | 0 => some .lc0 | 1 => some .lc1 | 2 => some .lc2
  | _ => none

/-- The function field of TWAIT and TSET (R137). -/
def feOf (gb : GReg) : Option (FeBuf × Bool) :=
  match gb.toNat with
  | 2 => some (.ab, false) | 3 => some (.cb, false) | 6 => some (.ab, true) | 7 => some (.cb, true)
  | _ => none

/-- R135, R136, R137: a generator slot; none is the trap ILLEGAL. -/
def decodeG (w : DWord) : Option Instr :=
  let op := (fieldOf w 35 8).toNat
  let gd : GReg := fieldOf w 29 6
  let ga : GReg := fieldOf w 23 6
  let gb : GReg := fieldOf w 17 6
  let i := w.getLsbD 16
  let imm : BitVec 16 := fieldOf w 0 16
  match decodeSeq w with
  | none => none
  | some q =>
    match op with
    | 0x0E => if !i && decide (imm.toNat < 8) then some (.gsel q gd ga gb (imm.extractLsb' 0 3)) else none
    | 0x0F =>
      match condOf (gd.extractLsb' 3 3).toNat, decodeSrc i gb imm with
      | some cc, some b => some (.gcmp q cc (gd.extractLsb' 0 3) ga b)
      | _, _ => none
    | 0x10 => if !i && gb == 0 && imm == 0 then some (.gclz q gd ga) else none
    | 0x11 => if !i && gb == 0 && imm == 0 then some (.gpopc q gd ga) else none
    | 0x12 => some (.gli q gd (fieldOf w 0 29))
    | 0x13 => some (.glih q gd (fieldOf w 0 29))
    | 0x40 =>
      if i && decide (gb.toNat < 7) then some (.gld q (sizeOf2 (gb.extractLsb' 0 2)) (gb.getLsbD 2) gd ga imm) else none
    | 0x41 => if i && decide (gb.toNat < 4) then some (.gst q (sizeOf2 (gb.extractLsb' 0 2)) gd ga imm) else none
    | 0x42 => if !i && decide (imm.toNat < 8) then some (.gamo q (atomicOf (imm.extractLsb' 0 3)) gd ga gb) else none
    | 0x60 =>
      match loopOf gd.toNat, decodeSrc i gb imm with
      | some n, some b => if ga == 0 then some (.gloop q n b) else none
      | _, _ => none
    | 0x61 => if q == .next && !i && imm == 0 && gd == 0 && decide (gb.toNat < 2) then some (.gjmpr (gb.getLsbD 0) ga) else none
    | 0x62 => if gd == 0 && ga == 0 then (decodeSrc i gb imm).map (.gwfe q) else none
    | 0x63 => if i && gd == 0 && ga == 0 && gb == 0 && q != .exit then some (.gtrap q imm) else none
    | 0x64 =>
      if q == .next && i && gd == 0 && ga == 0 && gb == 0 then
        match imm.toNat with
        | 0 => some .grteRetry
        | 1 => some .grteSkip
        | 2 => some .grteDiscard
        | _ => none
      else none
    | 0x65 => if i && ga == 0 && gb == 0 && decide (imm.toNat < 4096) then some (.csrr q gd (imm.extractLsb' 0 12)) else none
    | 0x66 => if i && gd == 0 && gb == 0 && decide (imm.toNat < 4096) then some (.csrw q ga (imm.extractLsb' 0 12)) else none
    | 0x67 =>
      if i && gd == 0 && ga == 0 && gb == 0 then
        (if imm.toNat == 8 then some (.fenceX q) else (scopeOf imm.toNat).map (.fence q))
      else none
    | 0x68 =>
      if i && gd == 0 && ga == 0 && gb == 0 then
        match imm.toNat with
        | 1 => some (.phaseAcq q)
        | 2 => some (.phaseRel q)
        | 3 => some (.phaseAcqrel q)
        | _ => none
      else none
    | 0x69 => if i && gd == 0 && ga == 0 && gb == 0 then (scopeOf imm.toNat).map (.bar q) else none
    | 0x80 =>
      if i && gd == 0 && ga == 0 && gb == 0 && decide (imm.toNat < 512) then
        (if imm.getLsbD 8 then some (.capbDry q (imm.extractLsb' 0 8)) else some (.capb q (imm.extractLsb' 0 8)))
      else none
    | 0x81 => if !i && ga == 0 && gb == 0 && imm == 0 then some (.cape q gd) else none
    | 0x82 => if gd == 0 && gb == 0 then (decodeName i ga imm).map (.capx q) else none
    | 0x83 => if gd == 0 && gb == 0 then (decodeName i ga imm).map (.rply q) else none
    | 0x84 =>
      if decide (gd.toNat < 16) && gb == 0 then
        (if i then (if ga == 0 then some (.hset q (gd.extractLsb' 0 4) (.imm imm)) else none)
         else if imm == 0 then some (.hset q (gd.extractLsb' 0 4) (.reg ga)) else none)
      else none
    | 0x85 => if !i && ga == 0 && gb == 0 && imm == 0 then some (.gvq q gd) else none
    | 0x86 =>
      if i && gd == 0 && decide (gb.toNat < 2) && decide (imm.toNat < 256) then
        some (.cdef q (gb.getLsbD 0) (imm.extractLsb' 0 8) ga)
      else none
    | 0x87 => if i && ga == 0 && gb == 0 && decide (imm.toNat < 16) then some (.qrsv q gd (imm.extractLsb' 0 4)) else none
    | 0x88 => if i && gd == 0 && gb == 0 && decide (imm.toNat < 16) then some (.qcmt q ga (imm.extractLsb' 0 4)) else none
    | 0x89 => if i && ga == 0 && gb == 0 && decide (imm.toNat < 16) then some (.qpop q gd (imm.extractLsb' 0 4)) else none
    | 0x8A =>
      match feOf gb with
      | some (b, full) => if !i && gd == 0 && imm == 0 then some (.twait q b full ga) else none
      | none => none
    | 0x8B =>
      match feOf gb with
      | some (b, full) => if !i && gd == 0 && imm == 0 then some (.tset q b full ga) else none
      | none => none
    | 0x8C =>
      if !i && decide (gd.toNat < 8) && gb == 0 && imm == 0 then some (.sopen q (gd.extractLsb' 0 3) ga) else none
    | 0x8D =>
      if !i && decide (gd.toNat < 8) && decide (ga.toNat < 8) && gb == 0 && imm == 0 then
        some (.seof q (gd.extractLsb' 0 3) (ga.extractLsb' 0 3))
      else none
    | 0x8E => if !i && decide (gd.toNat < 8) && ga == 0 && gb == 0 && imm == 0 then some (.scls q (gd.extractLsb' 0 3)) else none
    | 0x8F => if !i && gb == 0 && imm == 0 then some (.npoll q gd ga) else none
    | op => (decodeSrc i gb imm).bind (mould op q gd ga)
where
  /-- A stretch name of CAPX and RPLY (R75). -/
  decodeName (i : Bool) (ga : GReg) (imm : BitVec 16) : Option NameSrc :=
    if i then (if ga == 0 && decide (imm.toNat < 256) then some (.imm (imm.extractLsb' 0 8)) else none)
    else if imm == 0 then some (.reg ga) else none

def rndOf (n : BitVec 2) : Rnd :=
  match n.toNat with
  | 0 => .rne | 1 => .rz | 2 => .ru | _ => .rd

def carryOf (n : BitVec 3) : CarryCode :=
  match n.toNat with
  | 0 => .none | 1 => .k1 | 2 => .k2 | 3 => .k3 | 4 => .k4 | 5 => .rows | 6 => .ck1 | _ => .ck2

/-- R116. -/
def decodeLForm (w : DWord) : LForm :=
  { pg := fieldOf w 52 4, pn := w.getLsbD 51, t := ElemTy.ofCode (fieldOf w 48 3), vd := fieldOf w 40 8, va := fieldOf w 32 8,
    vb := fieldOf w 24 8, vc := fieldOf w 16 8, ka := carryOf (fieldOf w 13 3), kb := carryOf (fieldOf w 10 3),
    la := fieldOf w 6 4, rnd := rndOf (fieldOf w 4 2), fn := fieldOf w 0 4 }

/-- R138, R139: the constructor of an assigned format L opcode. -/
def mkL (op : Nat) (f : LForm) : Option Instr :=
  match op with
  | 0x00 => some (.vadd f) | 0x01 => some (.vsub f) | 0x02 => some (.vmul f) | 0x03 => some (.vfma f)
  | 0x04 => some (.vmin f) | 0x05 => some (.vmax f) | 0x06 => some (.vabs f) | 0x07 => some (.vneg f)
  | 0x08 => some (.vand f) | 0x09 => some (.vor f) | 0x0A => some (.vxor f) | 0x0B => some (.vshl f)
  | 0x0C => some (.vshr f) | 0x0D => some (.vsra f) | 0x0E => some (.vsel f) | 0x0F => some (.vmov f)
  | 0x10 => if f.vc.toNat < 128 then some (.vcvt f) else some (.vcvtAcc f)
  | 0x11 => some (.vcmp f) | 0x12 => some (.vclz f) | 0x13 => some (.vpopc f) | 0x14 => some (.vdot4 f)
  | 0x18 => some (.vrcp f) | 0x19 => some (.vrsq f) | 0x1A => some (.vsqrt f) | 0x1B => some (.vexp2 f)
  | 0x1C => some (.vlog2 f) | 0x1D => some (.vsin f) | 0x1E => some (.vcos f) | 0x1F => some (.vtanh f)
  | 0x30 => some (.viota f) | 0x40 => some (.vld f) | 0x41 => some (.vst f) | 0x42 => some (.vldg f)
  | 0x43 => some (.vstg f) | 0x44 => some (.vamo f) | 0x45 => some (.sadv f) | 0x50 => some (.vshf f)
  | 0x51 => some (.vperm f) | 0x52 => some (.vred f) | 0x53 => some (.vscan f) | 0x54 => some (.vtrn f)
  | 0x55 => some (.vtopk f) | 0x56 => some (.vcmps f) | 0x57 => some (.vprune f) | 0x60 => some (.plog f)
  | 0x61 => some (.vote f) | 0x62 => some (.vexit f)
  | _ => none

/-- The constructor of an assigned format L-I opcode. -/
def mkLI (op : Nat) (f : LIForm) : Option Instr :=
  match op with
  | 0x20 => some (.vaddImm f) | 0x21 => some (.vsubImm f) | 0x22 => some (.vmulImm f) | 0x23 => some (.vfmaImm f)
  | 0x24 => some (.vminImm f) | 0x25 => some (.vmaxImm f) | 0x28 => some (.vandImm f) | 0x29 => some (.vorImm f)
  | 0x2A => some (.vxorImm f) | 0x2B => some (.vshlImm f) | 0x2C => some (.vshrImm f) | 0x2D => some (.vsraImm f)
  | 0x2F => some (.vli f)
  | _ => none

/-- R140: the constructor of an engine command; FN separates the NSUB and merge rows. -/
def mkE (op : Nat) (e : EForm) : Option Instr :=
  match op with
  | 0x70 => some (.cpy e) | 0x71 => some (.fgat e) | 0x72 => some (.fhdl e) | 0x73 => some (.mldw e)
  | 0x74 => some (.mswp e) | 0x75 => some (.mma e) | 0x76 => some (.mmas e) | 0x77 => some (.mclr e)
  | 0x78 => some (.mscl e) | 0x79 => some (.mrdy e) | 0x7A => some (.mwait e) | 0x7B => some (.cwait e)
  | 0x7C =>
    match e.fn.toNat with
    | 0 => some (.nsubRead e)
    | 1 => some (.nsubWrite e)
    | _ => some (.nsubFlush e)
  | 0x7D =>
    match e.fn.toNat with
    | 0 => some (.sisec e)
    | 1 => some (.sunion e)
    | 2 => some (.sdiff e)
    | _ => some (.smadd e)
  | 0x7E => some (.sprd e)
  | 0x7F => some (.schk e)
  | _ => none

/-- R55: the immediate of an L-I slot; ILLMARK for a reserved marker. -/
def decodeSub (w : DWord) : Except DecodeErr (Sub × Bool) :=
  let v : Word := fieldOf w 0 32
  match (fieldOf w 32 4).toNat with
  | 0 => .ok (.imm v, true)
  | 1 => .ok (.glo (v.extractLsb' 0 6), decide (v.toNat < 64))
  | 3 => .ok (.ghi (v.extractLsb' 0 6), decide (v.toNat < 64))
  | 2 => .ok (.hole (v.extractLsb' 0 4), decide (v.toNat < 16))
  | _ => .error .illmark

/-- R55: a parameter word and whether its must-be-zero bits are zero; none is the marker 0b11. -/
def decodeParam (w : DWord) : Option (Param × Bool) :=
  let c : BitVec 62 := fieldOf w 0 62
  match (fieldOf w 62 2).toNat with
  | 0 => some (.lit (c.signExtend 64), true)
  | 1 => some (.g (c.extractLsb' 0 6), decide (c.toNat < 64))
  | 2 => some (.hole (c.extractLsb' 0 4), decide (c.toNat < 16))
  | _ => none

/-- A lane slot with its parameter words (R54, R124, R141, R142, R143). -/
def decodeLane (w p0 p1 p2 p3 : DWord) : Except DecodeErr Instr :=
  let op := (fieldOf w 56 7).toNat
  if op < 0x20 ∨ (0x30 ≤ op ∧ op < 0x70) then
    let f := decodeLForm w
    match mkL op f with
    | none => .error .illop
    | some i => if lTypeOk op f then .ok i else .error .illtype
  else if op < 0x30 then
    if !liAssigned op then .error .illop
    else
      match decodeSub w with
      | .error e => .error e
      | .ok (src, zeros) =>
        let f : LIForm := { pg := fieldOf w 52 4, pn := w.getLsbD 51, t := ElemTy.ofCode (fieldOf w 48 3), vd := fieldOf w 42 6,
                            va := fieldOf w 36 6, src := src }
        if !liTypeOk op f then .error .illtype
        else if !zeros then .error .subbad
        else match mkLI op f with
          | some i => .ok i
          | none => .error .illop
  else
    match fieldOf w 52 4 == 0xF, decodeParam p0, decodeParam p1, decodeParam p2, decodeParam p3 with
    | true, some (a, za), some (b, zb), some (c, zc), some (d, zd) =>
      let e : EForm := { fn := fieldOf w 48 4, tag := fieldOf w 32 16, head := fieldOf w 0 32, p0 := a, p1 := b, p2 := c, p3 := d }
      if !eTypeOk op e then .error .illtype
      else if !(za && zb && zc && zd) then .error .subbad
      else match mkE op e with
        | some i => .ok i
        | none => .error .illop
    | _, _, _, _, _ => .error .illmark

/-- Slots of an instruction whose head is `w` (R144). -/
def slotLength (w : DWord) : Nat := if w.getLsbD 63 && (fieldOf w 56 7).toNat ≥ 0x70 then 5 else 1

/-- Any slot, with the four slots that follow it (R105). -/
def decodeSlots (w p0 p1 p2 p3 : DWord) : Except DecodeErr Instr :=
  if w.getLsbD 63 then decodeLane w p0 p1 p2 p3
  else match decodeG w with
    | some i => .ok i
    | none => .error .illegal

/-- The slots of a little-endian byte string (R3). -/
def slotAt (bs : List Byte) (n : Nat) : Option DWord :=
  let b := (bs.drop (8 * n)).take 8
  if b.length == 8 then some (b.foldr (fun x acc => (acc <<< 8) ||| x.zeroExtend 64) 0) else none

/-- Decoding any bytes: the instruction at their start. -/
def decodeBytes (bs : List Byte) : Except DecodeErr Instr :=
  match slotAt bs 0 with
  | none => .error .truncated
  | some w =>
    if slotLength w = 5 then
      match slotAt bs 1, slotAt bs 2, slotAt bs 3, slotAt bs 4 with
      | some a, some b, some c, some d => decodeSlots w a b c d
      | _, _, _, _ => .error .truncated
    else decodeSlots w 0 0 0 0

/-- The bytes of a slot, lowest address first (R3). -/
def slotBytes (w : DWord) : List Byte := (List.range 8).map fun k => w.extractLsb' (8 * k) 8

/-- What the decoder reads from `nbits` bits of slots, the bits above zero: the first slot is bits 63..0 of `w`, a parameter
word follows above it. -/
def decodeTableWord (_nbits w : Nat) : Option Instr :=
  (decodeBytes (((List.range 5).map fun k => slotBytes (BitVec.ofNat 64 (w / 2 ^ (64 * k)))).flatten)).toOption

/-! ## The encoder -/

def encodeSeq : Seq → BitVec 3 × BitVec 3 × BitVec 14
  | .next => (0, 0, 0)
  | .jump off => (1, 0, off)
  | .jt f off => (2, f, off)
  | .jf f off => (3, f, off)
  | .call off => (4, 0, off)
  | .ret => (5, 0, 0)
  | .lend .lc0 off => (6, 0, off)
  | .lend .lc1 off => (6, 1, off)
  | .lend .lc2 off => (6, 2, off)
  | .exit => (7, 0, 0)

/-- R107. -/
def packG (q : Seq) (op : BitVec 8) (gd ga gb : BitVec 6) (i : Bool) (imm : BitVec 16) : DWord :=
  let s := encodeSeq q
  0#1 ++ s.1 ++ s.2.1 ++ s.2.2 ++ op ++ gd ++ ga ++ gb ++ BitVec.ofBool i ++ imm

/-- R108: the layout of GLI and GLIH. -/
def packGli (q : Seq) (op : BitVec 8) (gd : BitVec 6) (v : BitVec 29) : DWord :=
  let s := encodeSeq q
  0#1 ++ s.1 ++ s.2.1 ++ s.2.2 ++ op ++ gd ++ v

def packSrc (q : Seq) (op : BitVec 8) (gd ga : BitVec 6) : GSrc → DWord
  | .reg b => packG q op gd ga b false 0
  | .imm v => packG q op gd ga 0 true v

def packName (q : Seq) (op : BitVec 8) : NameSrc → DWord
  | .imm n => packG q op 0 0 0 true (n.zeroExtend 16)
  | .reg a => packG q op 0 a 0 false 0

def rndCode : Rnd → BitVec 2
  | .rne => 0 | .rz => 1 | .ru => 2 | .rd => 3

def carryCode : CarryCode → BitVec 3
  | .none => 0 | .k1 => 1 | .k2 => 2 | .k3 => 3 | .k4 => 4 | .rows => 5 | .ck1 => 6 | .ck2 => 7

def condCode : GCond → BitVec 3
  | .eq => 0 | .ne => 1 | .lt => 2 | .le => 3 | .ltu => 4 | .leu => 5

def sizeCode : Size → BitVec 2
  | .b => 0 | .h => 1 | .w => 2 | .d => 3

def atomicCode : AtomicOp → BitVec 3
  | .add => 0 | .min => 1 | .max => 2 | .and => 3 | .or => 4 | .xor => 5 | .exch => 6 | .cas => 7

def scopeCode : Scope → BitVec 16
  | .cluster => 1 | .gang => 2 | .die => 3 | .device => 4 | .domain => 5 | .system => 6

def loopCode : LoopReg → BitVec 6
  | .lc0 => 0 | .lc1 => 1 | .lc2 => 2

def feCode (b : FeBuf) (full : Bool) : BitVec 6 :=
  match b, full with
  | .ab, false => 2 | .cb, false => 3 | .ab, true => 6 | .cb, true => 7

/-- R116. -/
def packL (op : Nat) (f : LForm) : DWord :=
  1#1 ++ BitVec.ofNat 7 op ++ f.pg ++ BitVec.ofBool f.pn ++ f.t.code ++ f.vd ++ f.va ++ f.vb ++ f.vc ++ carryCode f.ka ++
    carryCode f.kb ++ f.la ++ rndCode f.rnd ++ f.fn

def packSub : Sub → BitVec 36
  | .imm v => 0#4 ++ v
  | .glo n => 1#4 ++ n.zeroExtend 32
  | .ghi n => 3#4 ++ n.zeroExtend 32
  | .hole n => 2#4 ++ n.zeroExtend 32

/-- R120. -/
def packLI (op : Nat) (f : LIForm) : DWord :=
  1#1 ++ BitVec.ofNat 7 op ++ f.pg ++ BitVec.ofBool f.pn ++ f.t.code ++ f.vd ++ f.va ++ packSub f.src

def packParam : Param → DWord
  | .lit v => 0#2 ++ v.extractLsb' 0 62
  | .g n => 1#2 ++ n.zeroExtend 62
  | .hole n => 2#2 ++ n.zeroExtend 62

/-- R122. -/
def packE (op : Nat) (e : EForm) : List DWord :=
  [1#1 ++ BitVec.ofNat 7 op ++ 0xF#4 ++ e.fn ++ e.tag ++ e.head, packParam e.p0, packParam e.p1, packParam e.p2, packParam e.p3]

/-- The slots of an instruction; a device step has none. -/
def encode (i : Instr) : List DWord :=
  match i with
  | .gadd q d a b => [packSrc q 0x00 d a b]
  | .gsub q d a b => [packSrc q 0x01 d a b]
  | .gmul q d a b => [packSrc q 0x02 d a b]
  | .gmulh q d a b => [packSrc q 0x03 d a b]
  | .gdiv q d a b => [packSrc q 0x04 d a b]
  | .grem q d a b => [packSrc q 0x05 d a b]
  | .gand q d a b => [packSrc q 0x06 d a b]
  | .gor q d a b => [packSrc q 0x07 d a b]
  | .gxor q d a b => [packSrc q 0x08 d a b]
  | .gshl q d a b => [packSrc q 0x09 d a b]
  | .gshr q d a b => [packSrc q 0x0A d a b]
  | .gsra q d a b => [packSrc q 0x0B d a b]
  | .gmin q d a b => [packSrc q 0x0C d a b]
  | .gmax q d a b => [packSrc q 0x0D d a b]
  | .gsel q d a b f => [packG q 0x0E d a b false (f.zeroExtend 16)]
  | .gcmp q cc f a b => [packSrc q 0x0F (condCode cc ++ f) a b]
  | .gclz q d a => [packG q 0x10 d a 0 false 0]
  | .gpopc q d a => [packG q 0x11 d a 0 false 0]
  | .gli q d v => [packGli q 0x12 d v]
  | .glih q d v => [packGli q 0x13 d v]
  | .gld q sz sx d a v => [packG q 0x40 d a (0#3 ++ BitVec.ofBool sx ++ sizeCode sz) true v]
  | .gst q sz d a v => [packG q 0x41 d a (0#4 ++ sizeCode sz) true v]
  | .gamo q op d a b => [packG q 0x42 d a b false ((atomicCode op).zeroExtend 16)]
  | .gloop q n b => [packSrc q 0x60 (loopCode n) 0 b]
  | .gjmpr link a => [packG .next 0x61 0 a (0#5 ++ BitVec.ofBool link) false 0]
  | .gwfe q b => [packSrc q 0x62 0 0 b]
  | .gtrap q v => [packG q 0x63 0 0 0 true v]
  | .grteRetry => [packG .next 0x64 0 0 0 true 0]
  | .grteSkip => [packG .next 0x64 0 0 0 true 1]
  | .grteDiscard => [packG .next 0x64 0 0 0 true 2]
  | .csrr q d n => [packG q 0x65 d 0 0 true (n.zeroExtend 16)]
  | .csrw q a n => [packG q 0x66 0 a 0 true (n.zeroExtend 16)]
  | .fence q sc => [packG q 0x67 0 0 0 true (scopeCode sc)]
  | .fenceX q => [packG q 0x67 0 0 0 true 8]
  | .phaseAcq q => [packG q 0x68 0 0 0 true 1]
  | .phaseRel q => [packG q 0x68 0 0 0 true 2]
  | .phaseAcqrel q => [packG q 0x68 0 0 0 true 3]
  | .bar q sc => [packG q 0x69 0 0 0 true (scopeCode sc)]
  | .capb q n => [packG q 0x80 0 0 0 true (n.zeroExtend 16)]
  | .capbDry q n => [packG q 0x80 0 0 0 true (0#7 ++ 1#1 ++ n)]
  | .cape q d => [packG q 0x81 d 0 0 false 0]
  | .capx q n => [packName q 0x82 n]
  | .rply q n => [packName q 0x83 n]
  | .hset q h (.reg a) => [packG q 0x84 (h.zeroExtend 6) a 0 false 0]
  | .hset q h (.imm v) => [packG q 0x84 (h.zeroExtend 6) 0 0 true v]
  | .gvq q d => [packG q 0x85 d 0 0 false 0]
  | .cdef q mem x a => [packG q 0x86 0 a (0#5 ++ BitVec.ofBool mem) true (x.zeroExtend 16)]
  | .qrsv q d n => [packG q 0x87 d 0 0 true (n.zeroExtend 16)]
  | .qcmt q a n => [packG q 0x88 0 a 0 true (n.zeroExtend 16)]
  | .qpop q d n => [packG q 0x89 d 0 0 true (n.zeroExtend 16)]
  | .twait q b full a => [packG q 0x8A 0 a (feCode b full) false 0]
  | .tset q b full a => [packG q 0x8B 0 a (feCode b full) false 0]
  | .sopen q n a => [packG q 0x8C (n.zeroExtend 6) a 0 false 0]
  | .seof q f n => [packG q 0x8D (f.zeroExtend 6) (n.zeroExtend 6) 0 false 0]
  | .scls q n => [packG q 0x8E (n.zeroExtend 6) 0 0 false 0]
  | .npoll q d a => [packG q 0x8F d a 0 false 0]
  | _ =>
    match i.lform with
    | some (op, f) => [packL op f]
    | none =>
      match i.liform with
      | some (op, f) => [packLI op f]
      | none =>
        match i.eform with
        | some (op, e) => packE op e
        | none => []

end Sys2Proof
end

