-- ==== Sys2Proof/Machine/Buffers.lean ====
section
/-!
DEFINITION. Typed buffers (R205-R209, R212): where an offset lies, what an access does to a lendable range, bytes and
full/empty bits.
-/
namespace Sys2Proof.Machine

/-- The base of the offsets at which an ash context reaches the owner's lendable ranges (R208). -/
def lendBase : Nat := 0x800000

def Member.buf (m : Member) (b : Buf) : BufMem :=
  match b with
  | .wb => m.wb
  | .ab => m.ab
  | .cb => m.cb
def Member.setBuf (m : Member) (b : Buf) (x : BufMem) : Member :=
  match b with
  | .wb => { m with wb := x }
  | .ab => { m with ab := x }
  | .cb => { m with cb := x }

/-- The owner of a cluster and its member there; none while it is switched out, so that an ash access to a lendable offset raises BUFV
then (R208; log 67). -/
def ownerOn (s : State) (cluster : Nat) : Option (Ctx × Nat) :=
  s.ctxs.findSome? fun c =>
    if c.ash || c.completed || c.switch == .out then none
    else (c.members.zipIdx.find? fun x => x.1.cluster == cluster).map fun x => (c, x.2)

/-- Where bytes of a buffer lie: a context, a member, an offset there, and the lendable range for a lent one. -/
structure BufPlace where
  ctx : Nat
  member : Nat
  off : Nat
  lend : Option Nat
  deriving DecidableEq, Repr

/-- The place of `n` bytes at an offset, none outside the allocation and every range that can be lent (R206, R208); bytes over two ranges
that meet lie in neither (log 82). -/
def placeOf (s : State) (c : Ctx) (m : Nat) (b : Buf) (off n : Nat) : Option BufPlace :=
  match c.member m with
  | none => none
  | some mb =>
    if decide (off + n ≤ (mb.buf b).size) then some ⟨c.id, m, off, none⟩
    else if c.ash && decide (lendBase ≤ off) then
      (ownerOn s mb.cluster).bind fun (o, om) =>
        let off := off - lendBase
        ((o.member om).map fun x => x.lends).getD [] |>.zipIdx |>.findSome? fun (l, k) =>
          if l.buf == b && decide (l.off ≤ off ∧ off + n ≤ l.off + l.len) then some ⟨o.id, om, off, some k⟩ else none
    else none

/-- The bytes at a place. -/
def readPlace (s : State) (b : Buf) (p : BufPlace) (n : Nat) : List Byte :=
  match (s.ctxOf p.ctx).bind fun c => c.member p.member with
  | none => List.replicate n 0
  | some mb => Memory.readN (mb.buf b).cells p.off n

/-- A member replaced in a state. -/
def State.updMember (s : State) (c m : Nat) (f : Member → Member) : State :=
  match s.ctxOf c with
  | none => s
  | some x =>
    match x.member m with
    | none => s
    | some mb => s.putCtx (x.putMember m (f mb))

/-- Bytes written at a place; a whole word written loses its poison. -/
def writePlace (s : State) (b : Buf) (p : BufPlace) (bytes : List Byte) : State :=
  let s := s.updMember p.ctx p.member fun mb =>
    mb.setBuf b { mb.buf b with cells := Memory.writeN (mb.buf b).cells p.off bytes }
  if s.poison == [] then s
  else s.cure fun x => match x with
    | .buf c m b2 o => c == p.ctx && m == p.member && b2 == b && decide (p.off ≤ o / 4 * 4 ∧ o / 4 * 4 + 4 ≤ p.off + bytes.length)
    | _ => false

/-- The bytes of a context's buffer. -/
def bufRead (s : State) (c : Ctx) (m : Nat) (b : Buf) (off n : Nat) : List Byte :=
  ((placeOf s c m b off n).map fun p => readPlace s b p n).getD (List.replicate n 0)

/-- Bytes stored to a context's buffer. -/
def bufWrite (s : State) (c : Ctx) (m : Nat) (b : Buf) (off : Nat) (bytes : List Byte) : State :=
  match placeOf s c m b off bytes.length with
  | none => s
  | some p => writePlace s b p bytes

/-- The first poisoned byte of a buffer range. -/
def bufPoison (s : State) (c : Ctx) (m : Nat) (b : Buf) (off n : Nat) : Option Nat :=
  if s.poison == [] then none
  else (placeOf s c m b off n).bind fun p => (List.range n).find? fun k => s.bufPoisoned p.ctx p.member b (p.off + k)

/-! ## Lendable ranges (R208) -/

/-- An ash context is revoked: its rows stop, its granules are free, its lendings end with a spill (R285, R286). -/
def revoke (s : State) (c : Nat) : State :=
  match s.ctxOf c with
  | none => s
  | some x => s.putCtx { x with revoked := true }

/-- What an access finds. -/
inductive Touch where
  | ready (s : State)
  /-- the holder has been revoked; the access waits for the spill -/
  | revoked (s : State)
  | wait

def State.updLend (s : State) (c m k : Nat) (f : Lend → Lend) : State :=
  s.updMember c m fun mb => { mb with lends := mb.lends.zipIdx.map fun (l, j) => if j == k then f l else l }

/-- Bytes of a range set to zero. -/
def zeroRange (s : State) (c m : Nat) (b : Buf) (off n : Nat) : State :=
  s.updMember c m fun mb =>
    mb.setBuf b { mb.buf b with cells := (mb.buf b).cells.filter fun x => decide (x.1 < off ∨ off + n ≤ x.1) }

/-- Poison that moves with its word. -/
def State.movePoison (s : State) (f : PoisonLoc → PoisonLoc) : State :=
  if s.poison == [] then s else { s with poison := s.poison.map f }

/-- What a context regains of its spilled bytes in a lendable range: those at the range's own offsets, zero elsewhere (R208, log 24). -/
def regained (back : List (Buf × Nat × List Byte)) (l : Lend) : List Byte :=
  (List.range l.len).map fun j =>
    ((back.find? fun x => x.1 == l.buf && decide (x.2.1 ≤ l.off + j ∧ l.off + j < x.2.1 + x.2.2.length)).map fun x =>
      x.2.2.getD (l.off + j - x.2.1) 0).getD 0

/-- The spilled bytes that a range does not take back stay. -/
def spilledOutside (back : List (Buf × Nat × List Byte)) (l : Lend) : List (Buf × Nat × List Byte) :=
  back.flatMap fun x =>
    if x.1 != l.buf || decide (x.2.1 + x.2.2.length ≤ l.off ∨ l.off + l.len ≤ x.2.1) then [x]
    else
      [(x.1, x.2.1, x.2.2.take (l.off - x.2.1)), (x.1, l.off + l.len, x.2.2.drop (l.off + l.len - x.2.1))].filter fun y => !y.2.2.isEmpty

/-- The access of an ash context to a range of the owner; spilled bytes stand at the holder's own offsets (R208). -/
def touchLent (s : State) (c : Ctx) (m : Nat) (p : BufPlace) (k : Nat) : Touch :=
  match ((s.ctxOf p.ctx).bind fun o => o.member p.member).bind fun mb => mb.lends[k]? with
  | none => .wait
  | some l =>
    match l.st with
    | .touched | .owed _ => .wait
    | .lent h => if h == c.id then .ready s else .wait
    | .untouched =>
      let s := zeroRange s p.ctx p.member l.buf l.off l.len
      let s := s.updLend p.ctx p.member k fun l => { l with st := .lent c.id }
      -- a resumed context regains what was spilled for it
      let back := ((c.member m).map fun mb => mb.spilled).getD []
      let s := if back.isEmpty then s else writePlace s l.buf ⟨p.ctx, p.member, l.off, some k⟩ (regained back l)
      let s := s.movePoison fun x => match x with
        | .buf h hm b o =>
          if h == c.id && hm == m && b == l.buf && decide (lendBase + l.off ≤ o ∧ o < lendBase + l.off + l.len)
            then .buf p.ctx p.member b (o - lendBase) else x
        | x => x
      .ready (s.updMember c.id m fun mb => { mb with spilled := spilledOutside mb.spilled l })

/-- The access of an owner to its own bytes: each lendable range they meet; a lent one is reclaimed. -/
def touchOwn (c m : Nat) (b : Buf) (off n : Nat) : List (Lend × Nat) → State → Touch
  | [], s => .ready s
  | (l, k) :: rest, s =>
    if l.buf == b && decide (off < l.off + l.len ∧ l.off < off + n) then
      match l.st with
      | .lent h => .revoked (revoke (s.updLend c m k fun l => { l with st := .owed h }) h)
      | .owed _ => .wait
      | .touched => touchOwn c m b off n rest s
      | .untouched => touchOwn c m b off n rest (s.updLend c m k fun l => { l with st := .touched })
    else touchOwn c m b off n rest s

/-- R208: what the access of a context to a place does first. -/
def touch (s : State) (c : Ctx) (m : Nat) (b : Buf) (p : BufPlace) (n : Nat) : Touch :=
  match p.lend with
  | some k => touchLent s c m p k
  | none => if c.ash then .ready s else touchOwn c.id m b p.off n (((c.member m).map fun mb => mb.lends.zipIdx).getD []) s

/-- The accesses of a list of offsets (each of `n` bytes), all of them ready or none made. -/
def touchAll (s : State) (c : Ctx) (m : Nat) (b : Buf) (n : Nat) : List Nat → Touch
  | [] => .ready s
  | off :: rest =>
    match placeOf s c m b off n with
    | none => touchAll s c m b n rest
    | some p =>
      match touch s c m b p n with
      | .ready s => touchAll s c m b n rest
      | t => t

/-! ## Full/empty bits (R212) -/

def feBuf : FeBuf → Buf
  | .ab => .ab
  | .cb => .cb

/-- The bit of the granule at an offset. -/
def granuleBit (s : State) (c : Ctx) (m : Nat) (b : Buf) (off : Nat) : Bool :=
  match placeOf s c m b off 1 with
  | none => false
  | some p => (((s.ctxOf p.ctx).bind fun x => x.member p.member).map fun mb => (mb.buf b).full.getLsbD (p.off / 4096)).getD false

/-- The bits of the granule at an offset are the context's: a range of an owner is not lent, and one of another owner is lent to it (R208,
R212). -/
def bitsHeld (s : State) (c : Ctx) (m : Nat) (b : Buf) (off : Nat) : Bool :=
  match placeOf s c m b off 1 with
  | none => true
  | some p =>
    match ((s.ctxOf p.ctx).bind fun x => x.member p.member).map fun mb => mb.lends with
    | none => true
    | some ls => ls.all fun l =>
        !(l.buf == b && decide (l.off ≤ p.off ∧ p.off < l.off + l.len)) ||
          match l.st with
          | .lent h | .owed h => h == c.id && p.lend.isSome
          | _ => p.lend.isNone

/-- A generator asleep in TWAIT learns that its granules are in the state that it waits for, its earlier TSETs having taken effect
(R405); bits of a range that is lent to another context are not its own. -/
def noteTwait (s : State) (c : Ctx) : Ctx :=
  match c.twait with
  | none => c
  | some w =>
    if !c.tsetPending && (List.range c.members.length).all fun m => bitsHeld s c m w.buf w.off && granuleBit s c m w.buf w.off == w.full
      then { c with twait := some { w with met := true } } else c

/-- The bits of the granules that bytes touch set to a state. -/
def setGranules (s : State) (c : Ctx) (m : Nat) (b : Buf) (off n : Nat) (v : Bool) : State :=
  match placeOf s c m b off n with
  | none => s
  | some p =>
    let lo := p.off / 4096
    let hi := (p.off + n - 1) / 4096
    let mask : BitVec 1024 := (List.range (hi + 1 - lo)).foldl (fun x k => x ||| (1#1024 <<< (lo + k))) 0
    let s := s.updMember p.ctx p.member fun mb =>
      let x := mb.buf b
      mb.setBuf b { x with full := if v then x.full ||| mask else x.full &&& ~~~mask }
    { s with ctxs := s.ctxs.map (noteTwait s) }

/-- A place in an owner's range is lent to the context; its own bytes always are its own. -/
def heldBy (s : State) (c : Ctx) (p : BufPlace) : Bool :=
  match p.lend with
  | none => true
  | some k => (((s.ctxOf p.ctx).bind fun o => o.member p.member).bind fun mb => mb.lends[k]?).any fun l => l.st == .lent c.id

end Sys2Proof.Machine
end

