-- ==== Sys2Proof/Machine/Stream.lean ====
section
/-!
DEFINITION. How slots and markers enter the stream buffers (R57-R60, R71, R80).
-/
namespace Sys2Proof.Machine

/-- The lane blocks of a member that hold a live row. -/
def Ctx.liveBlocks (c : Ctx) (m : Nat) : List Nat :=
  (List.range 4).filter fun b => (c.memberRows m).any fun r => c.blockOf r == b

/-- Entries of a lane block that some live row there has not left behind (R57). -/
def Ctx.occupancy (c : Ctx) (m b : Nat) : Nat :=
  let rows := (c.memberRows m).filter fun r => c.blockOf r == b
  (c.stream.filter fun e => e.isMarker || rows.any fun r => !c.passedBy r e).length

/-- Commands and markers staged on a member without a live row (R60). -/
def Ctx.staged (c : Ctx) (m : Nat) : Nat :=
  let handed := ((c.member m).map fun x => x.handed).getD 0
  (c.stream.filter fun e => e.isMarker || (e.isEngine && decide (handed ≤ e.seq))).length

/-- A context's share of a block's stream buffer (R57). -/
def Ctx.streamShare (c : Ctx) : Nat := if c.ash then Config.ashShare else Config.ownerShare

/-- Room for `n` lane slots and `k` commands or markers in every target stream buffer and staging (R58, R60, R74, R76). -/
def Ctx.roomFor (c : Ctx) (n k : Nat) : Bool :=
  c.members.zipIdx.all fun (_, m) =>
    if (c.memberRows m).isEmpty then decide (c.staged m + max 1 k ≤ Config.commandStaging)
    else (c.liveBlocks m).all fun b => decide (c.occupancy m b + n + k ≤ c.streamShare)

/-- The vote horizon in force (R80). -/
def Ctx.horizon (c : Ctx) : Nat := if 1 < c.members.length then Config.vqlatm else Config.vqlat

/-- Steps from one ESN to a later one; 0, which no slot has, is no step at the wrap (R56, R80; log 78). -/
def esnDist (v e : BitVec 48) : Nat := if v.toNat ≤ e.toNat then e.toNat - v.toNat else e.toNat + (2 ^ 48 - 1) - v.toNat

/-- No unresolved vote blocks the ESN (R80). -/
def Ctx.horizonOk (c : Ctx) (e : BitVec 48) : Bool :=
  c.vq.all fun v => v.result.isSome || !(v.esn == e || esnBefore v.esn e) || decide (esnDist v.esn e < c.horizon)

/-- An entry enters the stream buffers: it takes its order number, and its vote-queue entry learns it. -/
def Ctx.push (c : Ctx) (e : Entry) : Ctx :=
  let e := { e with seq := c.nextSeq }
  let c := { c with stream := c.stream ++ [e], nextSeq := c.nextSeq + 1 }
  let c := if e.isMarker then c
    else { c with fed := c.fed + 1, vq := mapIf (fun v => v.esn == e.esn) (fun v => { v with seq := some e.seq }) c.vq }
  c.settle

/-- Whether an entry may enter now. -/
def Ctx.canPush (c : Ctx) (e : Entry) : Bool :=
  if e.isMarker then c.roomFor 0 1
  else (if e.isEngine then c.roomFor 0 1 else c.roomFor 1 0) && c.horizonOk e.esn

/-- The stream unit accepts an entry: into the stream buffers, or behind queued replays into the staging (R58, R71); a
marker takes a staging place as a slot does, and waits for one (log 71).  A slot is accepted under the vote horizon when it enters the
stream buffers, not when it enters the staging (R80; log 78). -/
def Ctx.accept (c : Ctx) (e : Entry) : Option Ctx :=
  if c.intake.isEmpty then (if c.canPush e then some (c.push e) else none)
  else
    let waiting := (c.intake.filter fun i => match i with
      | .entry _ => true
      | .replay _ => false).length
    if waiting < Config.stagingDepth then some { c with intake := c.intake ++ [.entry e] } else none

/-- A marker of the generator, with its G slot (R63); in a handler it goes through the handler channel (R337). -/
def Ctx.placeMarker (c : Ctx) (i : Instr) (m : Marker) : Option Ctx :=
  let e : Entry := { seq := 0, esn := 0, item := .marker m, pc := c.pc, key := c.key, gslot := (encode i).headD 0 }
  if c.handler then some { c with channel := c.channel ++ [(e, [])] } else c.accept e

end Sys2Proof.Machine
end

