-- ==== Sys2Proof/Machine/EngineOps.lean ====
section
/-!
DEFINITION. What the engines share (R59, R187, R210, R243, R251, R349): operands, ranges, the scoreboard, faults of a queue, the
hazards of matrix commands (R190), retirement.
-/
namespace Sys2Proof.Machine

/-! ## Operands -/

/-- A parameter word after substitution. -/
def pval (p : Param) : Nat :=
  match p with
  | .lit v => v.toNat
  | _ => 0

/-- The engine command of an entry. -/
def Entry.engineCmd (e : Entry) : Option (Nat × EForm) :=
  match e.item with
  | .slot i => i.eform
  | .marker _ => none

/-- The engine that runs a command; none for MRDY, MWAIT and CWAIT, which act at hand-over or hold the rows. -/
def engineOf (i : Instr) : Option Engine :=
  match i with
  | .cpy _ => some .copy
  | .fgat _ | .fhdl _ | .sisec _ | .sunion _ | .sdiff _ | .smadd _ | .sprd _ | .schk _ => some .fetch
  | .mldw _ | .mswp _ | .mma _ | .mmas _ | .mclr _ | .mscl _ => some .matrix
  | .nsubRead _ | .nsubWrite _ | .nsubFlush _ => some .storage
  | _ => none

def Member.queue (m : Member) (e : Engine) : List Cmd :=
  match e with
  | .copy => m.copyQ
  | .fetch => m.fetchQ
  | .storage => m.storageQ
  | .matrix => m.bank.queue
def Member.setQueue (m : Member) (e : Engine) (q : List Cmd) : Member :=
  match e with
  | .copy => { m with copyQ := q }
  | .fetch => { m with fetchQ := q }
  | .storage => { m with storageQ := q }
  | .matrix => { m with bank := { m.bank with queue := q } }

def Cmd.failed (x : Cmd) : Bool :=
  match x.st with
  | .faulted _ => true
  | _ => false
def Cmd.tag (x : Cmd) : BitVec 16 := (x.e.engineCmd.map fun y => y.2.tag).getD 0

/-! ## Ranges (R210, R243, R357, R403, R404) -/

/-- ⌈F ÷ 64⌉·8, the bytes of a neuron mask (R259). -/
def maskBytes (f : Nat) : Nat := (f + 63) / 64 * 8
/-- D, F and r of SPRD and SCHK heads (R259). -/
def headD (h : BitVec 32) : Nat := (h.toNat % 1024 + 1) * 16
def headF (h : BitVec 32) : Nat := (h.toNat / 1024 % 4096 + 1) * 16
def headR (h : BitVec 32) : Nat := (h.toNat / 2 ^ 22 % 16 + 1) * 16

/-- CPY's destination and source spaces by FN (R346). -/
def cpyDst (fn : BitVec 4) : Space :=
  match fn.toNat % 4 with
  | 1 => .buf .wb
  | 2 => .buf .ab
  | _ => .global
def cpySrc (fn : BitVec 4) : Space :=
  match fn.toNat / 4 with
  | 2 => .buf .ab
  | 3 => .buf .cb
  | _ => .global

/-- The bytes of an output entry of a merge (R255): pairs when both streams have values. -/
def mergeEntry (streams : List StreamPos) : Nat := if streams.all fun p => p.val then 8 else 4

/-- The ranges of a command that takes an entry: destination and sources. -/
def cmdRanges (e : Entry) (i : Instr) : Option (Option Range × List Range) :=
  match i with
  | .cpy x => some (some ⟨cpyDst x.fn, pval x.p0, pval x.p2⟩, [⟨cpySrc x.fn, pval x.p1, pval x.p2⟩])
  | .fgat x => some (some ⟨.buf (if x.fn == 0 then .ab else .wb), pval x.p0, pval x.p1 * pval x.p2⟩, [])
  | .sprd x =>
    let d := headD x.head
    let f := headF x.head
    let r := headR x.head
    some (some ⟨.buf .ab, pval x.p3, maskBytes f + 4 + 4 * f⟩,
      [⟨.buf .ab, pval x.p0, 2 * d⟩, ⟨.buf .wb, pval x.p1, r * (d / 16) * 12⟩, ⟨.buf .wb, pval x.p2, f * (r / 16) * 12⟩])
  | .schk x =>
    let d := headD x.head
    let f := headF x.head
    some (some ⟨.buf .ab, pval x.p2, 4 + 4 * f⟩, [⟨.buf .ab, pval x.p0, 2 * d⟩, ⟨.buf .ab, pval x.p1, maskBytes f⟩])
  | .sisec x | .sunion x | .sdiff x | .smadd x =>
    some (some ⟨.buf .ab, pval x.p0, 8 + pval x.p1 * mergeEntry e.streams⟩, [])
  | _ => none

/-- CPY's range checks (R347) in their order: the value TADDR holds when one fails. -/
def cpyRangeBad (s : State) (c : Ctx) (m : Nat) (x : EForm) : Option Nat :=
  let n := pval x.p2
  let bad := fun (o : Nat) (sp : Space) => o % 4 != 0 || (match sp with
    | .global => false
    | .buf b => (placeOf s c m b o n).isNone)
  if n % 4 != 0 || decide (n < 4) || decide (2 ^ 24 < n) then some n
  else if bad (pval x.p0) (cpyDst x.fn) then some (pval x.p0)
  else if bad (pval x.p1) (cpySrc x.fn) then some (pval x.p1)
  else none

/-- The scoreboard entry that a command takes at hand-over (R210, R243, R347). -/
def boardEntry (s : State) (c : Ctx) (m : Nat) (e : Entry) (i : Instr) : Option BoardEntry :=
  match i with
  | .cpy x => if (cpyRangeBad s c m x).isSome then none else (cmdRanges e i).map fun r => ⟨e.seq, .copy, r.1, r.2⟩
  | _ => (cmdRanges e i).map fun r => ⟨e.seq, .fetch, r.1, r.2⟩

/-- Entries in use on the cluster of a member, over all contexts (R210). -/
def boardUsed (s : State) (cluster : Nat) : Nat :=
  (s.ctxs.map fun c => ((c.members.filter fun m => m.cluster == cluster).map fun m => m.board.length).sum).sum

/-- R210: no earlier entry of the context stands against a command's ranges. -/
def boardClear (mb : Member) (b : BoardEntry) : Bool :=
  mb.board.all fun x =>
    decide (b.seq ≤ x.seq) ||
      !((match x.dst with
          | some d => (b.dst.toList ++ b.src).any d.meets
          | none => false) ||
        (match b.dst with
          | some d => x.src.any d.meets
          | none => false))

/-! ## Hazards of matrix commands (R190) -/

/-- Free bytes left in a range of CB (log 10), as long as the context holds it (R208). -/
def scramble (s : State) (c : Ctx) (m : Nat) (r : Range) : State :=
  if (placeOf s c m .cb r.lo r.len).any (heldBy s c) then
    { bufWrite s c m .cb r.lo ((List.range r.len).map fun k => Config.unspecifiedByte s.free k) with free := s.free + 1 }
  else s

/-- A write to a range while matrix commands are in flight: what they write becomes unspecified. -/
def taintHazards (s : State) (c : Nat) (m : Nat) (w : Range) : State :=
  match s.ctxOf c with
  | none => s
  | some x =>
    match x.member m with
    | none => s
    | some mb =>
      let hit := mb.bank.hazards.filter fun h => h.reads.any w.meets
      if hit.isEmpty then s
      else
        let s := s.updMember c m fun mb =>
          { mb with bank := { mb.bank with hazards := mapIf (fun h => h.reads.any w.meets) (fun h => { h with tainted := true }) mb.bank.hazards } }
        (hit.filter fun h => h.old.isSome).foldl (fun s h => scramble s x m h.cb) s

/-- A 32-bit word of CB as a lane or a copy reads it (R190): before or after each command in flight that wrote it, one choice for each
command, so that it may be the value before the first, between two of them, or after the last. -/
def cbWord (mb : Member) (free off : Nat) (now : List Byte) : List Byte :=
  mb.bank.hazards.zipIdx.foldl (fun v (h, j) =>
    match h.old with
    | some old =>
      if decide (h.cb.lo ≤ off ∧ off + 4 ≤ h.cb.lo + h.cb.len) && !Config.cbReadNew free (2 ^ 24 * j + off)
        then (old.drop (off - h.cb.lo)).take 4 else v
    | none => v) now

/-- Bytes of a buffer as a lane or a copy reads them, word by word; CB under R190. -/
def bufLoad (s : State) (c : Ctx) (m : Nat) (b : Buf) (off n : Nat) : List Byte :=
  let bytes := bufRead s c m b off n
  match c.member m with
  | none => bytes
  | some mb =>
    if b == .cb && !mb.bank.hazards.isEmpty then
      (List.range (n / 4)).flatMap fun k => cbWord mb s.free (off + 4 * k) ((bytes.drop (4 * k)).take 4)
    else bytes

/-- Bytes that a lane or a copy stores to a buffer. -/
def bufStore (s : State) (c : Ctx) (m : Nat) (b : Buf) (off : Nat) (bytes : List Byte) : State :=
  taintHazards (bufWrite s c m b off bytes) c.id m ⟨.buf b, off, bytes.length⟩

/-- Ranges of a matrix command (R190, R385): what it reads, and the CB range it writes. -/
def matrixRow (i : Instr) : Nat :=
  match i with
  | .mma x => [128, 192, 288, 256, 512, 512].getD x.fn.toNat 0
  | .mmas x => [0, 384, 576, 512].getD x.fn.toNat 0
  | _ => 0

/-- Bytes of a stored tile (R171). -/
def tileBytes (fn : Nat) : Nat := [32768, 49152, 73728, 65536, 131072, 131072].getD fn 0

/-- a0, c0, m, the stride in force, Z of an MMA or MMAS. -/
def mmaShape (i : Instr) (x : EForm) : Nat × Nat × Nat × Nat × Bool :=
  let d := pval x.p3
  (pval x.p0, pval x.p1, pval x.p2, if d == 0 then matrixRow i else d, x.head.getLsbD 1)

def matrixRanges (i : Instr) : List Range × Range :=
  match i with
  | .mma x | .mmas x =>
    let (a, c, m, d, z) := mmaShape i x
    let cb : Range := ⟨.buf .cb, c, m * 2048⟩
    ([⟨.buf .ab, a, (m - 1) * d + matrixRow i⟩] ++ (if z then [] else [cb]), cb)
  | .mldw x => ([⟨.buf .wb, pval x.p0, tileBytes x.fn.toNat⟩], ⟨.buf .cb, 0, 0⟩)
  | .mscl x => ([⟨.buf .wb, pval x.p0, 512⟩], ⟨.buf .cb, 0, 0⟩)
  | _ => ([], ⟨.buf .cb, 0, 0⟩)

/-- The record of a matrix command from its hand-over or release on; a write to its operands or to its accumulator range taints it, also
when it does not read the accumulators (R190). -/
def newHazard (e : Entry) (i : Instr) : Hazard :=
  let (r, cb) := matrixRanges i
  { tag := (i.eform.map fun y => y.2.tag).getD 0, seq := e.seq, reads := if cb.len == 0 || r.contains cb then r else r ++ [cb], cb := cb,
    old := none, tainted := false }

/-- The command waits for an MRDY (R185). -/
def isHeld (i : Instr) : Bool :=
  match i with
  | .mldw x | .mma x | .mmas x => x.head.getLsbD 0
  | _ => false

/-! ## Global memory as an engine reads it (R235, R336) -/

/-- The die whose copies an engine reads, and the lines that it has read ahead. -/
structure ReadPort where
  die : Nat
  got : List ViewLine

/-- The line at a physical address read ahead; one that has been read stays as it was read. -/
def readAhead (m : List Host.Cell) (got : List ViewLine) (line : Nat) : List ViewLine :=
  let pa := line - line % 128
  if got.any fun v => v.pa == pa then got else got ++ [⟨pa, Memory.readN m pa 128⟩]

/-- One byte: of the line read ahead, else at home. -/
def ReadPort.byte (p : ReadPort) (m : List Host.Cell) (l : GLoc) : Byte :=
  let pa := l.on p.die
  match p.got.find? fun v => v.pa == pa - pa % 128 with
  | some v => v.data.getD (pa % 128) 0
  | none => Memory.read m pa
def ReadPort.read (p : ReadPort) (m : List Host.Cell) (ls : List GLoc) : List Byte := ls.map (p.byte m)

/-- The port of a command on a member. -/
def Cmd.port (x : Cmd) (mb : Member) : ReadPort := ⟨dieOf mb.cluster, x.got⟩

/-! ## Running a command -/

/-- A fresh free value for the next reader. -/
def bump (s : State) : State := { s with free := s.free + 1 }

/-- The space code of a buffer in TADDR (R310). -/
def bufCode : Buf → Nat
  | .wb => 1
  | .ab => 2
  | .cb => 3

/-- The first poisoned byte among buffer ranges that an engine reads, as TADDR (R310). -/
def enginePoison (s : State) (c : Ctx) (m : Nat) (l : List (Buf × Nat × Nat)) : Option Nat :=
  if s.poison == [] then none
  else l.findSome? fun (b, off, n) => (bufPoison s c m b off n).map fun k => (poisonAddr (bufCode b) (off + k)).toNat

/-- The accesses of an engine to buffer ranges under R208. -/
def touchRanges (c : Ctx) (m : Nat) : List (Buf × Nat × Nat) → State → Touch
  | [], s => .ready s
  | (b, off, n) :: rest, s =>
    match placeOf s c m b off n with
    | none => touchRanges c m rest s
    | some p =>
      match touch s c m b p n with
      | .ready s => touchRanges c m rest s
      | t => t

/-- What a run of the head command came to. -/
inductive EngRes where
  | wait
  /-- a fault with its cause, TADDR and TMASK, in a state that keeps what was already written -/
  | fault (s : State) (cause : Cause) (addr : Nat) (mask : LaneMask)
  /-- the state after the effect, and the lines that leave the view at retirement -/
  | ok (s : State) (lines : List Nat)
  /-- an access revoked the holder of a lent range (R208): the command has not run yet -/
  | moved (s : State)

/-- The record of an engine fault (R295). -/
def engineTrap (e : Entry) (cause : Cause) (addr : Nat) (mask : LaneMask) : Trap :=
  { cause := cause, dom := .x, rpl := e.rpl, esn := e.esn, addr := BitVec.ofNat 64 addr, mask := mask,
    pc := if e.rpl.isSome then 0 else e.pc }

/-- The command with an order number changed in a queue. -/
def updCmd (s : State) (c m : Nat) (g : Engine) (seq : Nat) (f : Cmd → Cmd) : State :=
  s.updMember c m fun mb => mb.setQueue g (mapIf (fun x => x.e.seq == seq) f (mb.queue g))

/-- A scoreboard entry freed. -/
def freeBoard (s : State) (c m seq : Nat) : State :=
  s.updMember c m fun mb => { mb with board := mb.board.filter fun b => b.seq != seq }

/-- An MWAIT that stands before a command in a bank's queue has not completed: the commands behind it take no effect (R385).  It holds rows
where there are any, so that none is handed over behind it; where there are none it stands among the waits of the member (R60). -/
def Member.behindMwait (mb : Member) (x : Cmd) : Bool :=
  mb.holds.any fun h => decide (h.seq < x.e.seq) && match h.item with
    | .slot (.mwait _) => true
    | _ => false

/-- The commands of a queue that may act, oldest first, none behind a faulted one, and of a bank none behind an MWAIT (R385).  Every CPY runs from its hand-over (R347, R348), and a
line may be read ahead for any command but a matrix command (R336); else the first that has not started, unless, but for storage, one
before it still runs (R187, R243). -/
def turnCmds (mb : Member) (g : Engine) (ahead : Bool) : List Cmd :=
  let q := (mb.queue g).takeWhile fun x => !x.failed && !(g == .matrix && mb.behindMwait x)
  if g == .copy || (ahead && g != .matrix) then q.filter fun x => x.st == .queued
  else ((q.dropWhile fun x => x.st == .started && g == .storage).take 1).filter fun x => x.st == .queued

/-- The command that a turn of an engine has in hand: one of them that holds the instruction, by its order number when the hand names
one. -/
def cmdInHand (s : State) (mb : Member) (g : Engine) (i : Instr) : Option Cmd :=
  (turnCmds mb g s.hand.part.isSome).find? fun x => x.e.item == .slot i && s.hand.entry.all fun e => e.seq == x.e.seq

/-- What a command of an engine finds in memory.  The copy engine and the fetch unit reach a region's home through its port, behind the
lines that the port has accepted (R228, R235, R237; log 62). -/
def engineMemory (s : State) (g : Engine) : State := if g == .copy || g == .fetch then flushPorts s else s

/-- Every queued command before `seq`, and before the fault of its queue, that takes an entry has it: only one that is run again after its
fault can be without, and then those behind it wait (R187, R348, R349; log 21). -/
def earlierListed (s : State) (c : Ctx) (m : Nat) (mb : Member) (seq : Nat) : Bool :=
  [mb.copyQ, mb.fetchQ].all fun q => (q.takeWhile fun y => !y.failed).all fun y =>
    y.st != .queued || decide (seq ≤ y.e.seq) || (mb.board.any fun b => b.seq == y.e.seq) ||
      match y.e.item with
      | .slot i => (boardEntry s c m y.e i).isNone
      | .marker _ => true

/-- The command's scoreboard entry stands, taken again after a retry when there is room (R187, R210), and whether no entry stands against
it. -/
def ensureBoard (s : State) (c : Ctx) (m : Nat) (mb : Member) (e : Entry) (i : Instr) : Option (State × Bool) :=
  match boardEntry s c m e i with
  | none => some (s, true)
  | some b =>
    let clear := boardClear mb b && earlierListed s c m mb e.seq
    if mb.board.any fun x => x.seq == e.seq then some (s, clear)
    else if Config.scoreboard ≤ boardUsed s mb.cluster then none
    else some (s.updMember c.id m fun mb => { mb with board := mb.board ++ [b] }, clear)

/-- A command takes its entry, when there is room. -/
def listCmd (k m : Nat) (s : State) (y : Cmd) : State :=
  match (s.ctxOf k).bind fun c => (c.member m).map fun mb => (c, mb), y.e.item with
  | some (c, mb), .slot i => ((ensureBoard s c m mb y.e i).map fun x => x.1).getD s
  | _, _ => s

/-- The commands that run again after a fault take their entries before anything of the context goes on (R187, R348). -/
def relist (s : State) (c : Ctx) : State :=
  c.members.zipIdx.foldl (fun s x =>
    ((x.1.copyQ.takeWhile fun y => !y.failed) ++ x.1.fetchQ.takeWhile fun y => !y.failed).foldl (listCmd c.id x.2) s) s

/-- R176: an owner uses bank 0; an ash context needs bank 1 of its cluster bound to it or free. -/
def bankFor (s : State) (c : Ctx) (mb : Member) : Bool :=
  !c.ash || mb.bank.bound ||
    !(s.ctxs.any fun d => d.ash && d.id != c.id && !d.completed && d.members.any fun x => x.cluster == mb.cluster && x.bank.bound)

/-- The bank is bound when one of its commands runs (R176, R192). -/
def bindBank (s : State) (c m : Nat) (g : Engine) : State :=
  if g == .matrix then s.updMember c m fun mb => { mb with bank := { mb.bank with bound := true } } else s

/-- R191: the bank is loaded or used. -/
def useBank (s : State) (c m : Nat) : State := s.updMember c m fun mb => { mb with bank := { mb.bank with used := true } }

/-- What a turn of an engine does with the command in hand: the run, or one line read ahead (R336). -/
def runOrRead (s : State) (c : Ctx) (m : Nat) (g : Engine) (x : Cmd) (run : EngRes) : EngRes :=
  match s.hand.part with
  | none => run
  | some line => .moved (updCmd s c.id m g x.e.seq fun y => { y with got := readAhead s.mem y.got line })

/-- An engine runs the command in hand, in the queue of the member in hand.  `early` is the check that comes before the wait for
overlapping entries (R347); a command that waits for them keeps the entry that it has taken. -/
def engineStep (s : State) (g : Engine) (i : Instr) (f : State → Ctx → Nat → Member → Cmd → EngRes)
    (early : State → Ctx → Nat → Member → Option (Cause × Nat) := fun _ _ _ _ => none) : Out :=
  withCtx s fun c =>
    let m := s.hand.member
    match c.member m with
    | none => .fault .noExecutor
    | some mb =>
      match cmdInHand s mb g i with
      | none => wait s
      | some x =>
        if c.switch != .inside || (g == .matrix && (c.revoked || !bankFor s c mb)) then wait s
        else
          match ensureBoard (engineMemory s g) c m mb x.e i with
          | none => wait s
          | some (s1, clear) =>
            let faulty := fun (s2 : State) cause addr mask =>
              let s2 := freeBoard s2 c.id m x.e.seq
              done (updCmd s2 c.id m g x.e.seq fun y => { y with st := .faulted (engineTrap x.e cause addr mask) })
            if !clear then
              (match early s1 c m mb with
                | some (cause, addr) => faulty s1 cause addr 0
                | none =>
                  let s2 := ((ensureBoard s c m mb x.e i).map fun x => x.1).getD s
                  if s2 == s then wait s else done s2)
            else
              match (bindBank s1 c.id m g).ctxOf c.id with
              | none => .fault .noExecutor
              | some c1 =>
                match runOrRead (bindBank s1 c.id m g) c1 m g x (f (bindBank s1 c.id m g) c1 m ((c1.member m).getD mb) x) with
                | .wait => wait s
                | .moved s2 => if s2 == s then wait s else done s2
                | .ok s2 lines => done (updCmd s2 c.id m g x.e.seq fun y => { y with st := .started, lines := lines })
                | .fault s2 cause addr mask => faulty s2 cause addr mask

/-- Latch 1 of GWFE (R376). -/
def Ctx.engineLatch (c : Ctx) : Ctx := { c with latches := c.latches ||| 2 }

/-- The lines of a retired command's global destination leave the member's view, its scoreboard entry is freed (R210, R224). -/
def Member.retired (mb : Member) (y : Cmd) : Member :=
  { mb.dropLines y.lines with board := mb.board.filter fun b => b.seq != y.e.seq }

/-- The first command of a queue that has run leaves it; latch 1 is set (R376). The command and the state after. -/
def popHead (s : State) (c : Ctx) (m : Nat) (g : Engine) : Option (Cmd × State) :=
  match c.member m with
  | none => none
  | some mb =>
    match (mb.queue g).find? fun y => y.st == .started with
    | some y =>
      if c.switch == .inside then some (y, s.putCtx (c.putMember m ((mb.setQueue g ((mb.queue g).erase y)).retired y)).engineLatch) else none
    | none => none

/-- The first command of a queue that has run has come to its end. -/
def retireHead (s : State) (c m : Nat) (g : Engine) (f : State → Ctx → Cmd → State) : Out :=
  match s.ctxOf c with
  | none => .fault .noExecutor
  | some x =>
    match popHead s x m g with
    | none => wait s
    | some (y, s) => done (f s x y)

/-! ## Raising a queue's fault (R186, R187, R251, R349, R354) -/

/-- The fault that stops a queue, if any. -/
def queueFault (q : List Cmd) : Option (Cmd × Trap) :=
  q.findSome? fun x => match x.st with
    | .faulted t => some (x, t)
    | _ => none

/-- Rows stop with a fault and the gang halts, each row with the slot that it has in execution still to complete (R297, R298); a slot that
is retried is checked again (R216). -/
def stopRows (c : Ctx) (p : Row → Bool) (seq : Nat) (t : Trap) : Ctx :=
  { c with rows := c.rows.map fun r => { r with stop := if r.live && p r then some (seq, t) else r.stop,
                                                late := if r.live && p r then none else r.late,
                                                held := if r.live && p r then none else r.held,
                                                halted := c.halting && r.halted }, halting := true }

/-- The end of a MWAIT or CWAIT on a member: the covered commands, and how the wait stands. -/
inductive WaitRes where
  | waits
  | over
  /-- completes with the fault -/
  | faulty (x : Cmd) (t : Trap)

/-- A wait ends with the fault of its queue once every command that it covers stands at or behind the faulted one (R187, R354). -/
def waitResult (q : List Cmd) (seq : Nat) (tag : BitVec 16) : WaitRes :=
  let covered := q.filter fun x => decide (x.e.seq < seq) && (tag == 0xFFFF || x.tag == tag)
  if covered.isEmpty then .over
  else
    match queueFault q with
    | some (x, t) => if covered.all fun y => decide (x.e.seq ≤ y.e.seq) then .faulty x t else .waits
    | none => .waits

/-- The wait of a member that holds an instruction: the first of them. -/
def Member.waitOf (mb : Member) (i : Instr) : Option Entry := mb.holds.find? fun h => h.item == .slot i

/-- A wait of the member is over. -/
def clearHold (s : State) (c m : Nat) (h : Entry) : State :=
  match s.ctxOf c with
  | none => s
  | some x =>
    match x.member m with
    | none => s
    | some mb => s.putCtx (x.putMember m { mb with holds := mb.holds.filter fun y => y.seq != h.seq }).settle

/-- A wait completes with a fault: its rows stop; on a member without rows nothing is raised here (R308). -/
def raiseAtWait (s : State) (c : Ctx) (m : Nat) (h : Entry) (seq : Nat) (t : Trap) : State :=
  if (c.memberRows m).isEmpty then clearHold s c.id m h
  else if c.handler then doubleFault s c m t
  else s.putCtx (stopRows c (fun r => r.member == m) seq t)

/-! ## After a handler (R187, R299, R303) -/

/-- A command as it was handed over: not started, no line read (R235). -/
def Cmd.fresh (x : Cmd) : Cmd := { x with st := .queued, got := [] }

/-- A faulted command runs again from its start. -/
def rerun (q : List Cmd) (esn : BitVec 48) : List Cmd := mapIf (fun x => x.failed && x.e.esn == esn) Cmd.fresh q

def Member.mapQueues (mb : Member) (f : List Cmd → List Cmd) : Member :=
  { mb with copyQ := f mb.copyQ, fetchQ := f mb.fetchQ, storageQ := f mb.storageQ, bank := { mb.bank with queue := f mb.bank.queue } }

/-- Queues whose fault was raised in the halt and not reported run their command again (R299). -/
def rerunRaised (c : Ctx) : Ctx :=
  c.rows.foldl (fun c r =>
    match r.stop with
    | some (_, t) =>
      if t.dom == .x then
        match c.member r.member with
        | some mb => c.putMember r.member (mb.mapQueues fun q => rerun q t.esn)
        | none => c
      else c
    | none => c) c

/-- An SCHK that was dropped answers all ones (R262, R382). -/
def dropVote (c : Ctx) (esn : BitVec 48) : Ctx :=
  { c with vq := mapIf (fun v => v.esn == esn && v.kind == .schk && v.result.isNone) (fun v => { v with result := some (BitVec.allOnes 64) }) c.vq }

/-- R382: what a discard leaves of the vote queue: votes over the rows that completed them; all ones for an SCHK without its
result, since some member's command has not started and is dropped. -/
def discardVotes (c : Ctx) : Ctx :=
  { c with vq := c.vq.map fun v =>
      match v.result, v.kind with
      | some _, _ => v
      | none, .schk => { v with result := some (BitVec.allOnes 64) }
      | none, .any => { v with result := some (if v.anySet then 1 else 0) }
      | none, .all => { v with result := some (if v.allSet then 1 else 0) }
      | none, .cnt => { v with result := some (BitVec.ofNat 64 v.count) } }

/-- `.skip` of an engine fault: the reported command is dropped from its queue; a faulty flag write drops its MWAIT. -/
def dropCommand (c : Ctx) (m : Nat) (esn : BitVec 48) : Ctx :=
  match c.member m with
  | none => c
  | some mb =>
    let mb := mb.mapQueues fun q => q.filter fun x => !(x.failed && x.e.esn == esn)
    let mb := { mb with holds := mb.holds.filter fun h => h.esn != esn }
    dropVote (c.putMember m mb) esn

/-- The handler's choice acts on the queues (R187, R251, R299, R303). -/
def resumeQueues (c : Ctx) (skip : Bool) : Ctx :=
  match c.handling with
  | none => c
  | some h =>
    match h.eng with
    | none => rerunRaised c
    | some (m, _) =>
      let c := if skip then dropCommand c m h.trap.esn
        else match c.member m with
          | some mb => c.putMember m (mb.mapQueues fun q => rerun q h.trap.esn)
          | none => c
      rerunRaised c

end Sys2Proof.Machine
end

