-- ==== Sys2Proof/Machine/Matrix.lean ====
section
/-!
DEFINITION. The matrix array (R168-R192, R385-R389): its arithmetic, its commands, MWAIT.
-/
namespace Sys2Proof.Machine

/-! ## Arithmetic (R168-R170, R182) -/

/-- An element of a block as the array multiplies it: sign, mantissa, quad step. -/
structure MatElem where
  neg : Bool
  m : Nat
  delta : Nat
  deriving DecidableEq, Repr

/-- Sixteen elements with their shared exponent. -/
structure MatBlock where
  e : Nat
  elems : List MatElem
  deriving DecidableEq, Repr

/-- An SX block in the array's form. -/
def matBlock (M : Nat) (bytes : List Byte) : MatBlock :=
  let b := SxBlock.ofBytes M bytes
  ⟨b.e, b.elems.zipIdx.map fun ((s, m), k) => ⟨s, m, b.delta.getD (k / 4) 0⟩⟩

/-- S of R168 step 2. -/
def blockSum (a w : MatBlock) : Int :=
  (a.elems.zip w.elems).foldl (fun acc (x, y) =>
    let t : Int := (x.m * y.m * 2 ^ ((3 - x.delta) + (3 - y.delta)) : Nat)
    acc + (if x.neg != y.neg then -t else t)) 0

/-- P of R168 steps 3 and 4, with the special cases of R168 and R169. -/
def blockProduct (M : Nat) (a w : MatBlock) (rowScale colScale : BitVec 16) : Nat :=
  let sigma := (FVal.mul (FVal.decode fmtF16 rowScale.toNat) (FVal.decode fmtF16 colScale.toNat)).1
  if a.e == 255 || w.e == 255 then roundA36 (.nan true)
  else
    let S := blockSum a w
    let x : FVal := FVal.ofInt S ((a.e : Int) + w.e - 254 - 2 * ((M : Int) - 1) - 6)
    match (FVal.mul x sigma).1 with
    | .fin n m e => if m == 0 then roundA36 (.fin false 0 0) else roundA36 (.fin n m e)
    | v => roundA36 v

/-- R168 step 5. -/
def addBlock (M : Nat) (acc : Nat) (a w : MatBlock) (rs cs : BitVec 16) : Nat :=
  a36Add acc (a36Decode (blockProduct M a w rs cs))

/-- One INT8 product into a 36-bit accumulator (R149): the new accumulator and whether it was clamped. -/
def addInt8 (acc : Nat × Bool) (a w : Byte) : Nat × Bool :=
  let (z, hit) := clampInt true 36 (elemInt true 36 acc.1 + a.toInt * w.toInt)
  (wrapInt 36 z, acc.2 || hit)

/-- One F16 or BF16 product (R170). -/
def addFloat (f : Fmt) (acc : Nat) (a w : Nat) : Nat := a36Add acc (FVal.mul (FVal.decode f a) (FVal.decode f w)).1

/-- Element size of the formats that are no SX (R172). -/
def elemSize (fn : Nat) : Nat := if fn == 3 then 1 else 2

/-- The element of a tile without blocks (R172). -/
def tileElem (fn : Nat) (tile : List Byte) (k n : Nat) : Nat :=
  leNat ((tile.drop ((k * 256 + n) * elemSize fn)).take (elemSize fn))

/-- Mantissa bits of FN 0 to 2. -/
def fnM (fn : Nat) : Nat := sxM (fn + 1)

/-- Block j of column n (R172). -/
def tileBlock (fn : Nat) (tile : List Byte) (j n : Nat) : MatBlock :=
  matBlock (fnM fn) ((tile.drop ((j * 256 + n) * sxBytes (fn + 1))).take (sxBytes (fn + 1)))

/-! ### Metadata of MMAS (R181, R182) -/

/-- The metadata field of logical group g of column n. -/
def metaField (regs : List Lanes) (n g : Nat) : Nat :=
  let w := 32 * n + g / 2
  let v := ((regs.getD (w / 64) (Lanes.fill 0)).get (w % 64)).toNat
  if g % 2 == 0 then v % 4096 else v / 65536 % 4096

/-- The four positions of a field. -/
def metaPos (fld : Nat) : List Nat := (List.range 4).map fun q => fld / 8 ^ q % 8

def fieldOk (fld : Nat) : Bool :=
  match metaPos fld with
  | [a, b, c, d] => decide (a < b ∧ b < c ∧ c < d)
  | _ => false

/-- A word of the metadata registers holds a field that is not strictly increasing. -/
def metaWordBad (w : Nat) : Bool := !fieldOk (w % 4096) || !fieldOk (w / 65536 % 4096)

/-- MDFMT: TMASK and the index of the lowest register at fault. -/
def metaBad (regs : List Lanes) : Option (LaneMask × Nat) :=
  match regs.zipIdx.find? fun (r, _) => (List.range 64).any fun l => metaWordBad (r.get l).toNat with
  | none => none
  | some (_, k) => some (LaneMask.build fun l => regs.any fun r => metaWordBad (r.get l).toNat, k)

/-- Logical block j of column n of a compressed SX tile: pruned positions have m = 0 (R182). -/
def sparseBlock (fn : Nat) (tile : List Byte) (regs : List Lanes) (j n : Nat) : MatBlock :=
  let b := tileBlock fn tile (j / 2) n
  ⟨b.e, (List.range 16).map fun k =>
    let g := 2 * j + k / 8
    match (metaPos (metaField regs n g)).findIdx? fun p => p == k % 8 with
    | some q => b.elems.getD (4 * (g % 4) + q) ⟨false, 0, 0⟩
    | none => ⟨false, 0, b.elems.getD (4 * (g % 4)) ⟨false, 0, 0⟩ |>.delta⟩⟩

/-- The weight of logical position k of column n of a compressed INT8 tile. -/
def sparseElem (tile : List Byte) (regs : List Lanes) (k n : Nat) : Nat :=
  let g := k / 8
  match (metaPos (metaField regs n g)).findIdx? fun p => p == k % 8 with
  | some q => tileElem 3 tile (4 * g + q) n
  | none => 0

/-- MatrixRow(r, n) of R182 for an activation row: the accumulator and whether an INT8 sum was clamped. -/
def matrixCell (fn : Nat) (md : Option (List Lanes)) (tile act : List Byte) (acc : Nat) (rs cs : BitVec 16) (n : Nat) :
    Nat × Bool :=
  let K := if md.isSome then 512 else 256
  if fn ≤ 2 then
    let M := fnM fn
    let B := sxBytes (fn + 1)
    ((List.range (K / 16)).foldl (fun acc j =>
      let w := match md with
        | some regs => sparseBlock fn tile regs j n
        | none => tileBlock fn tile j n
      addBlock M acc (matBlock M ((act.drop (j * B)).take B)) w rs cs) acc, false)
  else if fn == 3 then
    (List.range K).foldl (fun acc k =>
      let w := match md with
        | some regs => sparseElem tile regs k n
        | none => tileElem 3 tile k n
      addInt8 acc (act.getD k 0) (BitVec.ofNat 8 w)) (acc, false)
  else
    let f := if fn == 4 then fmtF16 else fmtBF16
    ((List.range K).foldl (fun acc k => addFloat f acc (leNat ((act.drop (2 * k)).take 2)) (tileElem fn tile k n)) acc, false)

/-! ## Checks (R180, R385, R386) -/

/-- The checks of a WB operand of `n` bytes at w0. -/
def weightCheck (s : State) (c : Ctx) (m : Nat) (w0 n : Nat) : Option Nat :=
  if w0 % 4 != 0 then some w0 else if (placeOf s c m .wb w0 n).isNone then some w0 else none

/-- The checks of an MMA or MMAS: TADDR of the first that fails. -/
def mmaCheck (s : State) (c : Ctx) (m : Nat) (mb : Member) (i : Instr) (x : EForm) : Option Nat :=
  let (a, cb, rows, d, _) := mmaShape i x
  let rb := matrixRow i
  if a % 4 != 0 then some a
  else if cb % 8 != 0 then some cb
  else if decide (rows < 1 ∨ 768 < rows) then some rows
  else if decide (d < rb) then some (pval x.p3)
  else if (placeOf s c m .ab a ((rows - 1) * d + rb)).isNone then some a
  else if (placeOf s c m .cb cb (rows * 2048)).isNone then some cb
  else if mb.bank.active.code != x.fn.toNat + 1 then some (2 ^ 63 + mb.bank.active.code)
  else none

/-- No scoreboard entry of the context overlaps a range (R188). -/
def offBoard (mb : Member) (r : Range) : Bool := !(mb.board.any fun b => (b.dst.toList ++ b.src).any r.meets)

/-- The buffer ranges that a matrix command reads or writes. -/
def matrixBufs (i : Instr) : List (Buf × Nat × Nat) :=
  let (r, cb) := matrixRanges i
  (r ++ (if cb.len == 0 then [] else [cb])).filterMap fun r => match r.sp with
    | .buf b => some (b, r.lo, r.len)
    | .global => none
/-- The words that a command reads: of the activations the rows and not what lies between them (R173, R310). -/
def matrixReads (i : Instr) : List (Buf × Nat × Nat) :=
  match i with
  | .mma x | .mmas x =>
    let (a, c, m, d, z) := mmaShape i x
    ((List.range m).map fun r => (.ab, a + r * d, matrixRow i)) ++ if z then [] else [(.cb, c, m * 2048)]
  | _ =>
    (matrixRanges i).1.filterMap fun r => match r.sp with
      | .buf b => some (b, r.lo, r.len)
      | .global => none

/-- What a matrix command does once its checks hold: the waits of R188 and R208, the words it reads, the effect.  A range that is lent
makes it wait: matrix commands of an owner revoke nobody (R285; log 63). -/
def matrixRun (s : State) (c : Ctx) (m : Nat) (mb : Member) (i : Instr) (f : State → EngRes) : EngRes :=
  if c.revoked || (matrixRanges i).1.any fun r => r.sp != .buf .cb && !offBoard mb r then .wait
  else
    match touchRanges c m (matrixBufs i) s with
    | .wait | .revoked _ => .wait
    | .ready s =>
      match enginePoison s c m (matrixReads i) with
      | some a => .fault s .mchk a 0
      | none => f (useBank s c.id m)

def updBank (s : State) (c m : Nat) (f : Bank → Bank) : State := s.updMember c m fun mb => { mb with bank := f mb.bank }

/-- The accumulator rows of a command, as bytes of CB, and the columns clamped. -/
def matrixRows (fn : Nat) (md : Option (List Lanes)) (bank : Bank) (acts : List (List Byte)) (accs : List Nat) :
    List Byte × BitVec 256 :=
  let cells := acts.zipIdx.flatMap fun (act, r) => (List.range 256).map fun n =>
    matrixCell fn md bank.active.tile act (accs.getD (r * 256 + n) 0) (bank.rowScale.getD (r % 256) 0) (bank.colScale.getD n 0) n
  (cells.flatMap fun x => leBytes 8 x.1,
    (cells.zipIdx.filter fun x => x.1.2).foldl (fun f x => f ||| (1#256 <<< (x.2 % 256))) 0)

/-- The partial sum that a latch of a bank holds (R175): by rank, stage and column. -/
def Bank.latch (b : Bank) (rank stage col : Nat) : BitVec 36 :=
  match b.sums with
  | none => 0
  | some n => Config.latchSum n rank stage col

/-- MMA and MMAS (R182): the checks at the head of the queue (R180, R181), the hold (R185), the effect on CB and the flags, with
the hazard rules of R190; the sums that it leaves in the latches are free values (log 77).  The machine check of a poisoned metadata register stands behind the MRANGE checks, before MDFMT and before the
hold is released (log 69). -/
def runMma (i : Instr) (x : EForm) (md : Option (List Lanes)) (s : State) (c : Ctx) (m : Nat) (mb : Member) (cmd : Cmd) : EngRes :=
  match mmaCheck s c m mb i x with
  | some v => .fault s .mrange v 0
  | none =>
    match cmd.spoiled with
    | some a => .fault s .mchk a 0
    | none =>
    match md.bind metaBad with
    | some (mask, k) => .fault s .mdfmt ((x.head.extractLsb' 8 8).toNat + k) mask
    | none =>
      if cmd.held then .wait
      else matrixRun s c m mb i fun s =>
        let (a, cb, rows, d, z) := mmaShape i x
        let acts := (List.range rows).map fun r => bufRead s c m .ab (a + r * d) (matrixRow i)
        let old := bufRead s c m .cb cb (rows * 2048)
        let accs := if z then [] else (List.range (rows * 256)).map fun k => leNat ((old.drop (8 * k)).take 8) % 2 ^ 36
        let (bytes, flags) := matrixRows x.fn.toNat md mb.bank acts accs
        let s := updBank (bufWrite s c m .cb cb bytes) c.id m fun b =>
          { b with flags := b.flags ||| flags, sums := some s.free,
                   hazards := mapIf (fun h => h.seq == cmd.e.seq) (fun h => { h with old := some old }) b.hazards }
        let s := bump s
        if mb.bank.hazards.any fun h => h.seq == cmd.e.seq && h.tainted then .ok (scramble s c m ⟨.buf .cb, cb, rows * 2048⟩) []
        else .ok s []

/-! ## Meanings -/

/-- R172, R180, R183, R185, R386. -/
def execMldw (x : EForm) (s : State) : Out :=
  engineStep s .matrix (.mldw x) fun s c m mb cmd =>
    let n := tileBytes x.fn.toNat
    match weightCheck s c m (pval x.p0) n with
    | some v => .fault s .mrange v 0
    | none => if cmd.held then .wait else matrixRun s c m mb (.mldw x) fun s =>
        .ok (updBank s c.id m fun b => { b with shadow := ⟨x.fn.toNat + 1, bufRead s c m .wb (pval x.p0) n⟩ }) []

/-- R183, R386: planes and codes exchange. -/
def execMswp (x : EForm) (s : State) : Out :=
  engineStep s .matrix (.mswp x) fun s c m mb _ =>
    matrixRun s c m mb (.mswp x) fun s => .ok (updBank s c.id m fun b => { b with active := b.shadow, shadow := b.active }) []

def execMma (x : EForm) (s : State) : Out :=
  engineStep s .matrix (.mma x) fun s c m mb cmd => runMma (.mma x) x none s c m mb cmd

def execMmas (x : EForm) (s : State) : Out :=
  engineStep s .matrix (.mmas x) fun s c m mb cmd => runMma (.mmas x) x (some cmd.copied) s c m mb cmd

/-- R184, R388: the latches and the flags are cleared. -/
def execMclr (x : EForm) (s : State) : Out :=
  engineStep s .matrix (.mclr x) fun s c m mb _ =>
    matrixRun s c m mb (.mclr x) fun s => .ok (updBank s c.id m fun b => { b with flags := 0, sums := none }) []

/-- R183: 256 row or column scales. -/
def execMscl (x : EForm) (s : State) : Out :=
  engineStep s .matrix (.mscl x) fun s c m mb _ =>
    match weightCheck s c m (pval x.p0) 512 with
    | some v => .fault s .mrange v 0
    | none => matrixRun s c m mb (.mscl x) fun s =>
        let bytes := bufRead s c m .wb (pval x.p0) 512
        let scales := (List.range 256).map fun k => BitVec.ofNat 16 (leNat ((bytes.drop (2 * k)).take 2))
        .ok (updBank s c.id m fun b => if x.fn == 0 then { b with rowScale := scales } else { b with colScale := scales }) []

/-- The head command of a bank completes; a bank restored without its binding waits for it (R192). -/
def execMatrixCommandComplete (c m : Nat) (s : State) : Out :=
  match (s.ctxOf c).bind fun x => (x.member m).map fun mb => (x, mb) with
  | none => .fault .noExecutor
  | some (x, mb) => if bankFor s x mb then retireHead s c m .matrix fun s _ _ => bindBank s c m .matrix else wait s

/-- The flag write of an MWAIT would leave CB or its alignment (R186). -/
def flagsBad (s : State) (c : Ctx) (m : Nat) (c0 : Nat) : Bool := c0 % 8 != 0 || (placeOf s c m .cb c0 32).isNone

/-- R308: the flag write of an MWAIT that holds no row fails; it is raised once the context has exited. -/
def flagFault (s : State) (c : Ctx) (m : Nat) : Option (Entry × Trap) :=
  (c.member m).bind fun mb => mb.holds.findSome? fun h =>
    match h.item with
    | .slot (.mwait x) =>
      (match waitResult mb.bank.queue h.seq x.tag with
        | .over => if x.head.getLsbD 0 && flagsBad s c m (pval x.p0) then some (h, engineTrap h .mrange (pval x.p0) 0) else none
        | _ => none)
    | _ => none

/-- An MWAIT has completed, which sets latch 1 as the retirement of every matrix command does (R179, R376). -/
def endMwait (s : State) (c m : Nat) (h : Entry) : State := (clearHold s c m h).updCtx c Ctx.engineLatch

/-- R186, R389: the bank's flags written at c0 and cleared; a bad c0 raises MRANGE at the MWAIT, or after EXIT when no row of
the member is left (R308). -/
def writeFlags (s : State) (c : Ctx) (m : Nat) (mb : Member) (h : Entry) (c0 : Nat) (bad : Bool) : State :=
  let s1 := updBank s c.id m fun b => { b with flags := 0 }
  if bad then
    match s1.ctxOf c.id with
    | none => s1
    | some c1 => if (c1.memberRows m).isEmpty then s1 else raiseAtWait s1 c1 m h h.seq (engineTrap h .mrange c0 0)
  else endMwait (bufWrite (bindBank (useBank s1 c.id m) c.id m .matrix) c m .cb c0 (leBytes 32 mb.bank.flags.toNat)) c.id m h

/-- R208: the access of a flag write to its range, which may lie in a range that can be lent; it revokes nobody (R285; log 63). -/
def touchFlags (s : State) (c : Ctx) (m : Nat) (c0 : Nat) : Touch :=
  if flagsBad s c m c0 then .ready s else touchRanges c m [(.cb, c0, 32)] s

/-- R186, R187: the MWAIT in hand holds its member's rows until the covered commands have completed; it then ends the
hazards it covers (R190). -/
def execMwait (x : EForm) (s : State) : Out :=
  withCtx s fun c =>
    let m := s.hand.member
    match c.member m with
    | none => .fault .noExecutor
    | some mb =>
      match mb.waitOf (.mwait x) with
      | none => wait s
      | some h =>
        if c.switch != .inside then wait s
        else
          match waitResult mb.bank.queue h.seq x.tag with
          | .waits => wait s
          | .faulty y t => if !c.rowsIssue then wait s else done (raiseAtWait s c m h y.e.seq t)
          | .over =>
            let ended := fun (s : State) => updBank s c.id m fun b =>
              { b with hazards := b.hazards.filter fun z => !(decide (z.seq < h.seq) && (x.tag == 0xFFFF || z.tag == x.tag)) }
            if x.head.getLsbD 0 then
              (if !c.rowsIssue || !bankFor s c mb || (flagsBad s c m (pval x.p0) && (c.memberRows m).isEmpty && mb.bank.flags == 0) then wait s
                else
                  match touchFlags s c m (pval x.p0) with
                  | .wait | .revoked _ => wait s
                  | .ready s1 => done (writeFlags (ended s1) c m mb h (pval x.p0) (flagsBad s c m (pval x.p0))))
            else done (endMwait (ended s) c.id m h)

end Sys2Proof.Machine
end

