-- ==== Sys2Proof/Machine/Row.lean ====
section
/-!
DEFINITION. What every lane slot shares (R28, R31, R45, R48, R84, R87, R90, R153, R287, R289, R297, R302, R407, R408): whose
turn it is, the sources, the writes, completion, lane faults.
-/
namespace Sys2Proof.Machine

/-! ## Whose turn it is -/

/-- R31, R48, R289: the rows of the same lane block of the member; under Monochrome mode a fixed rotation, one slot each. -/
def Ctx.blockOrder (c : Ctx) (r : Row) (e : Entry) : Bool :=
  c.rows.all fun q =>
    !(q.live && q.member == r.member && c.blockOf q == c.blockOf r) || q.item == r.item ||
      (if q.item < r.item then c.passedBy q e
       else !c.mono || c.stream.all fun x => decide (e.seq ≤ x.seq) || c.passedBy q x)

/-- R32: the rows of a context perform an atomic in item order (log 73); of a store the bytes of the highest item remain, in whatever order
rows take it (`Ctx.outranked`). -/
def Ctx.storeOrder (c : Ctx) (r : Row) (e : Entry) : Bool :=
  match e.item with
  | .slot (.vamo _) => c.rows.all fun q => !(q.live && decide (q.item < r.item)) || c.passedBy q e
  | _ => true

/-- R38, R286: a row whose context is revoked still finishes the atomic that it has in execution. -/
def Ctx.finishes (c : Ctx) (r : Row) : Bool := r.amo.isSome && { c with revoked := false }.rowsIssue

/-- LA of a slot (R83). -/
def laOf (i : Instr) : BitVec 4 := (i.lform.map fun x => x.2.la).getD 0

/-- DEDUCED (R84, R85; log 45): a slot `j` of the window of `i`, whose fault has not stopped the row yet, may complete before `i` does: its
effects are registers and flags alone, and of the registers it leaves those that `i` reads, the carried ones, and where it opens a window
itself those that `i` writes. -/
def mayPrecede (c : Ctx) (i j : Instr) : Bool :=
  !j.inOrder && (i.sourceRegs ++ c.carried ++ (if laOf j == 0 then [] else i.destRegs)).all fun x => !j.destRegs.contains x

/-- The same of the slot of an entry. -/
def Ctx.mayPrecede (c : Ctx) (seq : Nat) (e : Entry) : Bool :=
  match c.stream.find? fun x => x.seq == seq with
  | none => false
  | some x =>
    match x.item, e.item with
    | .slot i, .slot j => Machine.mayPrecede c i j
    | _, _ => false

/-- A row can take a slot of the stream now (R31, R32, R186, R287, R353): while the gang halts only the slot that it had in execution
(R298), behind a slot that has faulted only the slots of its window (R85), none when one of them has emptied its active mask (R29). -/
def Ctx.rowReady (c : Ctx) (r : Row) (e : Entry) : Bool :=
  (c.rowsIssue || c.finishes r) && (r.late.isNone || r.mask != 0) && (!c.halting || !r.halted) && r.live && r.stop.isNone && c.nextEntry r == some e && c.blockOrder r e && c.storeOrder r e &&
    ((c.member r.member).all fun m => m.holds.all fun h => decide (e.seq < h.seq)) &&
    (r.late.all fun x => !esnBefore x.2.2 e.esn && c.mayPrecede x.1 e)

/-- The row has taken all that it takes before the handler's return (R302): nothing is left, or the marker that raised the
trap stands before it, and no MWAIT or CWAIT holds it still; in the handler of a switch the rows stand where they are. -/
def Ctx.rowDrained (c : Ctx) (r : Row) : Bool :=
  c.switchHandler || (c.handling.any fun h => h.trap.dom == .l || h.trap.dom == .x) ||
    (c.unheld r.member && ((c.handling.any (fun h => h.marker) && (c.nextEntry r).any Entry.isMarker) ||
      (c.intake.isEmpty && (c.nextEntry r).isNone && r.late.isNone)))

/-- An inspection slot is at the head of the handler channel and this row is the next to execute it (R302); a context that is switched
out or not yet restored executes none (R314, R317). -/
def Ctx.inspReady (c : Ctx) (r : Row) (e : Entry) : Bool :=
  r.live && c.handler && !c.halting && (c.switch == .inside || c.switchHandler) && c.rowDrained r &&
    match c.channel with
    | (x, k :: _) :: _ => x == e && k == r.item
    | _ => false

/-- A slot as a row executes it; `insp` marks an inspection slot. -/
structure RowSlot where
  c : Ctx
  r : Row
  e : Entry
  insp : Bool

/-- The guard of a lane slot (R116, R120). -/
def guardOf (i : Instr) : BitVec 4 × Bool :=
  match i.lform with
  | some (_, f) => (f.pg, f.pn)
  | none =>
    match i.liform with
    | some (_, f) => (f.pg, f.pn)
    | none => (15, false)

/-- The active mask under which a row takes its next slot: for a slot that faulted late that from before the slots of its window (R85). -/
def Row.maskNow (r : Row) : LaneMask := if r.late.isSome then r.mask else r.lateMask.getD r.mask

/-- The participating lanes (R28, R408); an inspection slot ignores the active mask (R302). -/
def RowSlot.part (t : RowSlot) (i : Instr) : LaneMask :=
  let (pg, pn) := guardOf i
  let g := if pn then ~~~(t.r.pred pg.toNat) else t.r.pred pg.toNat
  if t.insp then g else g &&& t.r.maskNow

/-- What a row's execution of a slot came to. -/
inductive RowRes where
  /-- the slot is not ready: a carried operand, the scoreboard, a lent range -/
  | wait
  /-- an access revoked the holder of a lent range (R208); the slot has not executed -/
  | moved (s : State)
  /-- a lane fault: cause, TADDR, TMASK (R216, R310) -/
  | fault (cause : Cause) (addr : DWord) (mask : LaneMask)
  /-- the stall raises the fault of a stopped queue (R251, R349) -/
  | raise (seq : Nat) (t : Trap)
  /-- the state and the row after the effect -/
  | ok (s : State) (r : Row)

/-! ## Completion and faults -/

/-- What a completed slot leaves for the consumers of its carried operands (R45, R50). -/
def carriedOut (s : State) (c : Ctx) (r : Row) (e : Entry) (i : Instr) : List Instance :=
  let keep := fun (b : Bool) (k : Nat) (regs : List Nat) =>
    if k == 0 || !((c.rowOf (r.item + k)).any Row.live) then []
    else regs.map fun x => ({ seq := e.seq, item := r.item + k, operandB := b, reg := x, lanes := r.reg x,
                              bad := s.laneMask c.id r.item x } : Instance)
  keep false e.kA i.vaRegs ++ keep true e.kB i.vbRegs

/-- The lanes of a register that slots completed ahead of this one have written (R85). -/
def Row.lanesAhead (r : Row) (reg : Nat) : LaneMask :=
  (r.overwritten.filter fun x => x.1 == reg).foldl (fun m x => m ||| x.2) 0

/-- A row behind a slot that has completed or been skipped; behind a slot whose fault has not stopped it yet only that is noted
(R85), with the instances that wait for that slot (R45). -/
def Row.took (r : Row) (e : Entry) (halting : Bool) (out : List Instance) : Row :=
  if r.late.isSome then
    { r with ahead := r.ahead ++ [e.seq], halted := halting, amo := none, held := none,
             due := r.due ++ out.map fun x => (x, r.lanesAhead x.reg) }
  else { r with issue := e.seq + 1, ahead := r.ahead.filter fun q => decide (e.seq < q), overwritten := [], halted := halting, amo := none,
                held := none, due := [], lateMask := none, windows := r.windows.filter fun w => esnBefore e.esn w.last }

/-- The instances that a completed slot makes known to consumers: its own, and those of the slots of its window that completed before it;
none while the row is behind a slot that is not over (R45). -/
def Row.known (c : Ctx) (r : Row) (out : List Instance) : List Instance :=
  if r.late.isSome then [] else ((r.due.map fun x => x.1).filter fun x => (c.rowOf x.item).any Row.live) ++ out

/-- The last slot that the row has completed, when it is behind `e`: its order number and ESN (R46, R85). -/
def Ctx.lastTaken (c : Ctx) (r : Row) (e : Entry) : Nat × BitVec 48 :=
  match r.ahead.getLast? with
  | none => (e.seq, e.esn)
  | some q => if e.seq < q then (q, ((c.stream.find? fun x => x.seq == q).map fun x => x.esn).getD e.esn) else (e.seq, e.esn)

/-- A slot of the stream completes or is skipped in a row: the position advances, the instances that the row read go, those of
its consumers come (R45, R49); an empty active mask retires the row (R29), once no slot before it is still to come (R85). -/
def passSlot (s : State) (c : Ctx) (r0 : Row) (e : Entry) (i : Instr) : State :=
  let out := carriedOut s c r0 e i
  let r := r0.took e c.halting out
  let kept := (c.kept.filter fun (k : Instance) => !(k.seq == e.seq && k.item == r.item)) ++ r0.known c out
  let members := c.members.map fun m =>
    { m with inbox := m.inbox.filter fun (k : InboxEntry) => !(k.seq == e.seq && k.consumer == r.item) }
  let last := c.lastTaken r0 e
  let c := { c.putRow r with kept := kept, members := members }
  let c := if r.mask == 0 && r.late.isNone then c.retireRow r last.1 last.2 else c
  s.putCtx c.settle

/-- A row has executed an inspection slot. -/
def passInspection (s : State) (c : Ctx) (r : Row) : State :=
  let c := c.putRow r
  s.putCtx { c with channel := match c.channel with
    | (e, _ :: rest) :: more => (e, rest) :: more
    | l => l }.pruneChannel

/-- The slot in hand has executed in its row; a free value that it read is not used again (log 5). -/
def completeSlot (s : State) (t : RowSlot) (r : Row) (i : Instr) : State :=
  let used := !t.r.windows.isEmpty || (t.c.member r.member).any fun m => !m.bank.hazards.isEmpty
  let s := if used then { s with free := s.free + 1 } else s
  match s.ctxOf t.c.id with
  | none => s
  | some c => if t.insp then passInspection s c r else passSlot s c r t.e i

/-- The record of a lane fault (R295). -/
def laneTrap (e : Entry) (cause : Cause) (addr : DWord) (mask : LaneMask) : Trap :=
  { cause := cause, dom := .l, rpl := e.rpl, esn := e.esn, addr := addr, mask := mask, pc := if e.rpl.isSome then 0 else e.pc }

/-- A row stops with a fault and the gang halts (R297, R298); under a handler it is a double fault (R305). -/
def stopRow (s : State) (c : Ctx) (item seq : Nat) (t : Trap) : State :=
  if c.handler then doubleFault s c (item / c.rowCount) t
  else s.putCtx (stopRows c (fun r => r.item == item) seq t)

/-- A lane fault: the row stops, at a slot whose fault came before if there is one; the fault of a slot with a window may be detected
after slots of the window have completed (R85). -/
def faultSlot (s : State) (c : Ctx) (r : Row) (e : Entry) (i : Instr) (insp : Bool) (t : Trap) : State :=
  match r.late with
  | some (seq, t0, _) => if insp then stopRow s c r.item e.seq t else stopRow s c r.item seq t0
  | none =>
    if s.hand.late && laOf i != 0 && !insp && !c.handler && !c.halting then
      s.putCtx (c.putRow { r with late := some (e.seq, t, esnAdd e.esn (laOf i).toNat), lateMask := some r.maskNow, held := none })
    else stopRow s c r.item e.seq t

/-- A lane slot: the row in hand takes the entry in hand, which must hold the instruction (R407). -/
def rowStep (s : State) (i : Instr) (f : RowSlot → RowRes) : Out :=
  withCtx s fun c =>
    match c.rowOf s.hand.row, s.hand.entry with
    | some r, some e =>
      let insp := !c.rowReady r e && c.inspReady r e
      if e.item != .slot i || !(c.rowReady r e || insp) then wait s
      else
        match f ⟨c, r, e, insp⟩ with
        | .wait => wait s
        | .moved s1 => if s1 == s then wait s else done s1
        | .fault cause addr mask => done (faultSlot s c r e i insp (laneTrap e cause addr mask))
        | .raise seq t => done (stopRow s c r.item ((r.late.map fun x => x.1).getD seq) ((r.late.map fun x => x.2.1).getD t))
        | .ok s1 r1 => done (completeSlot s1 ⟨c, r, e, insp⟩ r1 i)
    | _, _ => .fault .noExecutor

/-! ## Sources -/

/-- A source as a slot reads it: the words, the poisoned lanes, the tag, the register. -/
structure Source where
  lanes : Lanes
  bad : LaneMask
  tag : Tag
  reg : Nat

/-- A source operand: its register, its carry distance, whether it is vb (R41). -/
structure Operand where
  reg : Nat
  k : Nat
  b : Bool

/-- Most operands of a slot. -/
def operandPlaces : Nat := 16

/-- R84: a lane read inside open windows, newest first: the current word, or an older one (log 8); a window that does not reach the lane
says nothing of it.  The windows of operand `j` choose at the places `j`, `j + 16`, `j + 32` and so on, so that no two operands share a
choice, however many windows are open. -/
def windowWord (free place : Nat) (l : Nat) : List Window → Word → Word
  | [], v => v
  | w :: rest, v =>
    if !w.mask.getLsbD l then windowWord free (place + operandPlaces) l rest v
    else if Config.lookaheadNew free (64 * place + l) then v
    else windowWord free (place + operandPlaces) l rest (w.old.get l)

/-- The row's own register, as operand number `j` of its slot; a register with an open window counts as tagged G (log 17). -/
def rowSource (s : State) (t : RowSlot) (j reg : Nat) : Source :=
  let ws := if t.insp then [] else (t.r.windows.filter fun w => w.reg == reg && !esnBefore w.last t.e.esn).reverse
  let bad := s.laneMask t.c.id t.r.item reg
  if ws.isEmpty then ⟨t.r.reg reg, bad, t.r.tag reg, reg⟩
  else ⟨Lanes.build fun l => windowWord s.free j l ws ((t.r.reg reg).get l), bad, .g, reg⟩

/-- CarryValue (R45): none while the value is not there. -/
def carrySource (s : State) (t : RowSlot) (o : Operand) : Option Source :=
  let r := t.r
  if r.item < o.k then some ⟨((t.c.defaults.find? fun d => d.1 == o.reg).map fun d => d.2).getD (Lanes.fill 0), 0, .g, o.reg⟩
  else
    let p := r.item - o.k
    if p / t.c.rowCount == r.member then
      match t.c.kept.find? fun x => x.seq == t.e.seq && x.item == r.item && x.operandB == o.b && x.reg == o.reg with
      | some x => some ⟨x.lanes, x.bad, .g, o.reg⟩
      | none =>
        match (t.c.rowOf p).bind fun q => q.retired with
        | some z =>
          if z.seq ≤ t.e.seq then
            some ⟨((z.regs.find? fun d => d.1 == o.reg).map fun d => d.2).getD (Lanes.fill 0), s.laneMask t.c.id p o.reg, .g, o.reg⟩
          else none
        | none => none
    else
      (t.c.member r.member).bind fun m =>
        (m.inbox.find? fun x => x.seq == t.e.seq && x.consumer == r.item && x.operandB == o.b && x.reg == o.reg).map fun x =>
          ⟨x.lanes, x.bad, .g, o.reg⟩

/-- The operands in order, none while one is not there. -/
def sources (s : State) (t : RowSlot) : Nat → List Operand → Option (List Source)
  | _, [] => some []
  | j, o :: rest =>
    match (if o.k == 0 then some (rowSource s t j o.reg) else carrySource s t o), sources s t (j + 1) rest with
    | some x, some l => some (x :: l)
    | _, _ => none

/-- The source words on which the result of a lane depends, as (operand, lane) pairs. -/
abbrev Deps := Nat → List (Nat × Nat)

/-- An instruction that is not collective: the lane's own words of `n` operands. -/
def ownLane (n : Nat) (_ : LaneMask) (_ : List Source) : Deps := fun l => (List.range n).map fun j => (j, l)

def Source.isBad (l : List Source) (p : Nat × Nat) : Bool := (l[p.1]?).any fun x => x.bad.getLsbD p.2

/-- R310, R411: the lanes that read a poisoned word, and the register of the first. -/
def poisonedSource (part : LaneMask) (srcs : List Source) (dep : Deps) : Option (LaneMask × Nat) :=
  if srcs.all fun x => x.bad == 0 then none
  else
    let hits := (List.range 64).filter fun l => part.getLsbD l && (dep l).any (Source.isBad srcs)
    match hits with
    | [] => none
    | l :: _ =>
      let reg := (((dep l).find? (Source.isBad srcs)).bind fun p => (srcs[p.1]?).map fun x => x.reg).getD 0
      some (LaneMask.build fun k => hits.contains k, reg)

/-- The sources read and clean, or the wait or machine check that comes first; an atomic under way has passed its checks (R414). -/
def withSources (s : State) (t : RowSlot) (part : LaneMask) (ops : List Operand) (dep : LaneMask → List Source → Deps)
    (f : List Source → RowRes) : RowRes :=
  match sources s t 0 ops with
  | none => .wait
  | some srcs =>
    match (if !t.insp && t.r.amo.isSome then none else poisonedSource part srcs (dep part srcs)) with
    | some (mask, reg) => .fault .mchk (poisonAddr 0 reg) mask
    | none => f srcs

/-- va and vb of a slot with their distances; further registers carry none (R41). -/
def vaOp (t : RowSlot) (reg : BitVec 8) : Operand := ⟨reg.toNat, t.e.kA, false⟩
def vbOp (t : RowSlot) (reg : BitVec 8) : Operand := ⟨reg.toNat, t.e.kB, true⟩
def plainOp (reg : Nat) : Operand := ⟨reg, 0, false⟩

/-- A word of an operand. -/
def srcWord (srcs : List Source) (j l : Nat) : Word := ((srcs[j]?).map fun x => x.lanes.get l).getD 0

/-! ## Results -/

/-- The results of a slot: whole registers of which the participating lanes are taken, their tag when every lane wrote and no
source was carried, the flags, a predicate, the RNG states. -/
structure Result where
  writes : List (Nat × Lanes) := []
  tag : Tag := .g
  flags : FpFlags := 0
  pred : Option (Nat × LaneMask) := none
  rng : Option (Vector DWord 64) := none

/-- The earlier of two ESNs. -/
def esnMin (a b : BitVec 48) : BitVec 48 := if esnBefore a b then a else b

/-- The windows of a row after a write to a register: older values are out of reach, or a new window opens, behind whose end they
are (R84, R85). -/
def windowsAfter (t : RowSlot) (part : LaneMask) (la : BitVec 4) (r : Row) (reg : Nat) : List Window :=
  let apart := mapIf (fun w => w.reg == reg) (fun w => { w with mask := w.mask &&& ~~~part }) r.windows
  if la == 0 || t.insp then apart
  else
    let last := esnAdd t.e.esn la.toNat
    apart ++ ((r.windows.filter fun w => w.reg == reg).map fun w => { w with mask := w.mask &&& part, last := esnMin w.last last }) ++
      [⟨reg, r.reg reg, part, last⟩]

/-- The lanes of a register that a slot writes: what later slots have written stays (R85). -/
def Row.writable (r : Row) (insp : Bool) (part : LaneMask) (reg : Nat) : LaneMask :=
  if r.late.isSome || insp then part else part &&& ~~~(r.lanesAhead reg)

/-- Instances of slots completed ahead receive what the slot before them writes, in the lanes that none of those slots had written (R45). -/
def Row.fillDue (r : Row) (insp : Bool) (part : LaneMask) (w : Nat × Lanes) : Row :=
  if r.late.isSome || insp then r
  else
    let fill := fun (x : Instance × LaneMask) =>
      ({ x.1 with bad := x.1.bad &&& ~~~(part &&& ~~~x.2),
                  lanes := Lanes.build fun l => if (part &&& ~~~x.2).getLsbD l then w.2.get l else x.1.lanes.get l }, x.2)
    { r with due := mapIf (fun x => x.1.reg == w.1) fill r.due }

/-- One destination register written in the participating lanes, with its tag (R90). -/
def writeReg (t : RowSlot) (part : LaneMask) (la : BitVec 4) (tag : Tag) (r : Row) (w : Nat × Lanes) : Row :=
  let lanes := r.writable t.insp part w.1
  let r := r.fillDue t.insp part w
  if lanes == 0 then r
  else
    { r.setReg w.1 ⟨Lanes.build fun l => if lanes.getLsbD l then w.2.get l else (r.reg w.1).get l,
                     if lanes == BitVec.allOnes 64 then tag else .g⟩ with
      windows := windowsAfter t lanes la r w.1,
      overwritten := if r.late.isSome && !t.insp then r.overwritten ++ [(w.1, lanes)] else r.overwritten }

/-- A whole word written loses its poison (R309). -/
def cureLanes (s : State) (t : RowSlot) (part : LaneMask) (regs : List Nat) : State :=
  if s.poison.isEmpty then s
  else s.cure fun p => match p with
    | .vreg c item reg lane => c == t.c.id && item == t.r.item && regs.contains reg && part.getLsbD lane
    | _ => false

/-- The results written (R407, R153). -/
def applyResult (s : State) (t : RowSlot) (part : LaneMask) (la : BitVec 4) (x : Result) : RowRes :=
  let tag := if t.e.kA == 0 && t.e.kB == 0 then x.tag else .g
  let r := x.writes.foldl (writeReg t part la tag) t.r
  let r := match x.pred with
    | some (p, m) => r.setPred p ((r.pred p &&& ~~~part) ||| (m &&& part))
    | none => r
  .ok (cureLanes s t part (x.writes.map fun w => w.1)) { r with flags := r.flags ||| x.flags, rng := x.rng.getD r.rng }

/-- A slot that only computes: operands, dependences, results. -/
def computeSlot (s : State) (i : Instr) (la : BitVec 4) (ops : RowSlot → List Operand)
    (dep : LaneMask → List Source → Deps) (g : RowSlot → LaneMask → List Source → Result) : Out :=
  rowStep s i fun t =>
    let part := t.part i
    withSources s t part (ops t) dep fun srcs => applyResult s t part la (g t part srcs)

end Sys2Proof.Machine
end

