-- ==== Sys2Proof/Machine/Copy.lean ====
section
/-!
DEFINITION. The copy engine: CPY (R346-R350), its retirement, and CWAIT (R353, R354).
-/
namespace Sys2Proof.Machine

/-- Locations of a global operand, or the translation fault (R347). -/
def cpyLocs (s : State) (c : Ctx) (sp : Space) (a n : Nat) (k : Access) : Except (XErr × Nat) (List GLoc) :=
  match sp with
  | .global => translateN s c.domain true k a n
  | .buf _ => .ok []

/-- The buffer ranges of a CPY. -/
def cpyBufs (x : EForm) : List (Buf × Nat × Nat) :=
  (match cpyDst x.fn with
    | .buf b => [(b, pval x.p0, pval x.p2)]
    | .global => []) ++
  (match cpySrc x.fn with
    | .buf b => [(b, pval x.p1, pval x.p2)]
    | .global => [])

/-- R348: the bytes that land when two global operands meet only through different virtual addresses (log 11). -/
def aliasBytes (s : State) (die : Nat) (apart : Bool) (src dst : List GLoc) (bytes : List Byte) : List Byte :=
  if !apart then bytes
  else
    (bytes.zip dst).zipIdx.map fun ((v, l), k) =>
      if src.any (fun y => l.copies.any fun p => y.copies.contains p) && !Config.aliasCopied s.free k then Memory.read s.mem (l.on die) else v

/-- R347: the checks that come before the wait for overlapping entries. -/
def cpyEarly (x : EForm) (s : State) (c : Ctx) (m : Nat) (_ : Member) : Option (Cause × Nat) :=
  match cpyRangeBad s c m x with
  | some v => some (.crange, v)
  | none =>
    match cpyLocs s c (cpyDst x.fn) (pval x.p0) (pval x.p2) .store with
    | .error (e, va) => some (e.cause, va)
    | .ok _ =>
      match cpyLocs s c (cpySrc x.fn) (pval x.p1) (pval x.p2) .load with
      | .error (e, va) => some (e.cause, va)
      | .ok _ => none

/-- R347: checks, the bytes of the source, the bytes of the destination. -/
def runCpy (x : EForm) (s : State) (c : Ctx) (m : Nat) (mb : Member) (cmd : Cmd) : EngRes :=
  let n := pval x.p2
  match cpyRangeBad s c m x with
  | some v => .fault s .crange v 0
  | none =>
    match cpyLocs s c (cpyDst x.fn) (pval x.p0) n .store with
    | .error (e, va) => .fault s e.cause va 0
    | .ok dst =>
      match cpyLocs s c (cpySrc x.fn) (pval x.p1) n .load with
      | .error (e, va) => .fault s e.cause va 0
      | .ok src =>
        match touchRanges c m (cpyBufs x) s with
        | .wait => .wait
        | .revoked s => .moved s
        | .ready s =>
          let die := dieOf mb.cluster
          let bad := if s.poison == [] then none
            else match cpySrc x.fn with
              | .buf b => enginePoison s c m [(b, pval x.p1, n)]
              | .global => (src.zipIdx.find? fun y => s.memPoisoned (y.1.on die)).map fun y => (poisonAddr 5 (pval x.p1 + y.2)).toNat
          match bad with
          | some a => .fault s .mchk a 0
          | none =>
            let bytes := match cpySrc x.fn with
              | .global => (cmd.port mb).read s.mem src
              | .buf b => bufLoad s c m b (pval x.p1) n
            let s := bump s
            match cpyDst x.fn with
            | .buf b => .ok (bufStore s c m b (pval x.p0) bytes) []
            | .global =>
              let apart := cpySrc x.fn == .global && !(decide (pval x.p0 < pval x.p1 + n ∧ pval x.p1 < pval x.p0 + n))
              .ok (s.perform (dst.zip (aliasBytes s die apart src dst bytes))) (dst.flatMap fun l => l.line.copies).eraseDups

def execCpy (x : EForm) (s : State) : Out := engineStep s .copy (.cpy x) (runCpy x) (cpyEarly x)

/-- R347: at retirement the touched granules become full when head bit 0 is set; those of a lent range only while the context holds
it (R212). -/
def cpyRetired (m : Nat) (s : State) (x : Ctx) (y : Cmd) : State :=
  match y.e.item with
  | .slot (.cpy e) =>
    if e.head.getLsbD 0 && (placeOf s x m .ab (pval e.p0) (pval e.p2)).any (heldBy s x) then setGranules s x m .ab (pval e.p0) (pval e.p2) true
    else s
  | _ => s

def execCpyRetire (c m : Nat) (s : State) : Out := retireHead s c m .copy (cpyRetired m)

/-- R353: the engine that a CWAIT names. -/
def cwaitEngine (fn : BitVec 4) : Engine :=
  match fn.toNat with
  | 0 => .copy
  | 1 => .fetch
  | _ => .storage

/-- R353, R354: the CWAIT in hand holds its member's rows until the covered commands have retired, or completes with the fault. -/
def execCwait (x : EForm) (s : State) : Out :=
  withCtx s fun c =>
    let m := s.hand.member
    match c.member m with
    | none => .fault .noExecutor
    | some mb =>
      match mb.waitOf (.cwait x) with
      | none => wait s
      | some h =>
        if c.switch != .inside then wait s
        else
          match waitResult (mb.queue (cwaitEngine x.fn)) h.seq x.tag with
          | .waits => wait s
          | .over => done (clearHold s c.id m h)
          | .faulty y t => if !c.rowsIssue then wait s else done (raiseAtWait s c m h y.e.seq t)

end Sys2Proof.Machine
end

