-- ==== Sys2Proof/Machine/Dump.lean ====
section
/-!
DEFINITION. Stream slots as words (R100, R315), and the engine dump as the bytes that a PREEMPT or RESTORE handler reads and rewrites
(R315, R316).
-/
namespace Sys2Proof.Machine

/-- Words as bytes, least significant first. -/
def dwordBytes (l : List DWord) : List Byte := l.flatMap fun w => leBytes 8 w.toNat

/-- A little-endian field of a record. -/
def fld (bs : List Byte) (off n : Nat) : Nat := leNat ((bs.drop off).take n)

/-- A parameter word as it stands in the stream: once substituted, all 64 bits are the value (R55). -/
def paramWord : Param → DWord
  | .lit v => v
  | p => packParam p

/-- Head and P0-P3 of a slot; a format without parameters has zeros there. -/
def slotWords (i : Instr) : List DWord :=
  (encode i).headD 0 :: match i.eform with
    | some (_, e) => [e.p0, e.p1, e.p2, e.p3].map paramWord
    | none => [0, 0, 0, 0]

/-- A slot with other parameter words. -/
def withParams (i : Instr) (p : Nat → DWord) : Instr :=
  match i.eform with
  | some (op, e) => (mkE op { e with p0 := .lit (p 0), p1 := .lit (p 1), p2 := .lit (p 2), p3 := .lit (p 3) }).getD i
  | none => i

/-- Engine field of an entry; 3 for a command that the handler dropped. -/
def DumpEntry.engineCode (d : DumpEntry) : Nat :=
  if d.dropped then 3
  else match d.eng with
    | .copy => 0
    | .fetch => 1
    | .storage => 2
    | .matrix => 3

/-- Head and parameters of a dumped command. -/
def DumpEntry.slot (d : DumpEntry) : List DWord :=
  match d.cmd.e.item with
  | .slot i => slotWords i
  | .marker _ => [0, 0, 0, 0, 0]

/-- The 64-byte entry of a command. -/
def DumpEntry.bytes (d : DumpEntry) : List Byte :=
  dwordBytes ([BitVec.ofNat 64 (d.esn.toNat + d.engineCode * 2 ^ 48)] ++ d.slot ++ [BitVec.ofNat 64 d.member, 0])

/-- The 32-byte header and the entries in ESN order. -/
def dumpBytes (l : List DumpEntry) : List Byte :=
  dwordBytes [BitVec.ofNat 64 l.length, BitVec.ofNat 64 (32 + 64 * l.length), 0, 0] ++ l.flatMap DumpEntry.bytes

/-- R316: the entry with parameter words of the handler's, dropped or not. -/
def DumpEntry.edited (d : DumpEntry) (p : Nat → DWord) (drop : Bool) : DumpEntry :=
  { d with dropped := drop, cmd := { d.cmd with e := { d.cmd.e with item := match d.cmd.e.item with
    | .slot i => .slot (withParams i p)
    | m => m } } }

/-- The entry that 64 bytes of the dump say: parameter words and a dropping engine field; a change of another field has no effect
(R316, R8; log 14). -/
def DumpEntry.reread (d : DumpEntry) (bs : List Byte) : DumpEntry :=
  d.edited (fun j => BitVec.ofNat 64 (fld bs (16 + 8 * j) 8)) (fld bs 0 8 / 2 ^ 48 % 4 == 3)

/-- Bytes written at an offset of the dump. -/
def writeDump (l : List DumpEntry) (off : Nat) (bs : List Byte) : List DumpEntry :=
  let all := dumpBytes l
  let new := all.take off ++ bs ++ all.drop (off + bs.length)
  l.zipIdx.map fun (d, j) => d.reread ((new.drop (32 + 64 * j)).take 64)

/-- The offset in the dump of `n` bytes that a PREEMPT or RESTORE handler addresses: the dump begins at the address that TADDR gives, also
when the handler goes on after another switch (R294, R306, R316; log 14). -/
def Ctx.dumpOffset (c : Ctx) (a n : Nat) : Option Nat :=
  let base := c.taddr.toNat
  if c.handler && (c.handling.any fun h => h.trap.cause == .preempt || h.trap.cause == .restore) && decide (base ≤ a ∧ a + n ≤ base + (32 + 64 * c.dump.length)) then some (a - base) else none

end Sys2Proof.Machine
end

