-- ==== Sys2Proof/Machine/GenMem.lean ====
section
/-!
DEFINITION. The memory instructions of the generator: GLD, GST, GAMO (R367-R372).
-/
namespace Sys2Proof.Machine

/-- Bytes of an access size (R367). -/
def sizeBytes : Size → Nat
  | .b => 1
  | .h => 2
  | .w => 4
  | .d => 8

/-- The checks of R368 in their order, for an access of `n` bytes: the locations, or the cause. -/
def genAccess (s : State) (c : Ctx) (a n : Nat) (k : Access) : Except Cause (List GLoc) :=
  if !canonical a then .error .noncanon
  else if a % n != 0 then .error .align
  else
    match translate s c.domain a (!c.priv) k with
    | .error e => .error e.cause
    | .ok (l, _) => .ok ((List.range n).map l.next)

/-- The first poisoned byte that a read of the copies on a die finds at home, as an index (R310). -/
def poisonedAt (s : State) (die : Nat) (ls : List GLoc) : Option Nat :=
  if s.poison == [] then none else (ls.zipIdx.find? fun x => s.memPoisoned (x.1.on die)).map fun x => x.2

/-- The same of a load, which takes the bytes of the store buffer from there (R223). -/
def poisonedLoad (s : State) (mb : Member) (ls : List GLoc) : Option Nat :=
  if s.poison == [] then none
  else (ls.zipIdx.find? fun x => !mb.overlaid x.1 && s.memPoisoned (x.1.on (dieOf mb.cluster))).map fun x => x.2

/-- The same of an atomic, before which the context's own line has drained (R222, R371). -/
def poisonedAtomic (s : State) (k : Nat) (mb : Member) (ls : List GLoc) : Option Nat :=
  if s.poison == [] then none else poisonedAt (ls.foldl (fun (x : State × Member) l => atomicLine k x.1 x.2 l) (s, mb)).1 0 ls

/-- What a generator access finds poisoned: a store reads nothing. -/
def poisonedFor (k : Access) (s : State) (c : Ctx) (mb : Member) (ls : List GLoc) : Option Nat :=
  match k with
  | .store => none
  | .atomic => poisonedAtomic s c.id mb ls
  | _ => poisonedLoad s mb ls

/-- A generator access: the checks, then the effect on the leader's view and buffer (R223), or on the engine dump of a switch (R316). -/
def genMemory (s : State) (c : Ctx) (addr : DWord) (n : Nat) (k : Access) (onDump : Nat → GenRes)
    (f : Member → List GLoc → GenRes) : GenRes :=
  if c.orderPending || monoBlocked s c c.key then .wait
  else
    match (if canonical addr.toNat && addr.toNat % n == 0 then c.dumpOffset addr.toNat n else none) with
    | some off => onDump off
    | none =>
      match genAccess s c addr.toNat n k with
      | .error e => .trap e addr
      | .ok ls =>
        match c.member 0 with
        | none => .wait
        | some mb =>
          if k == .load && portBusy s ls then .wait
          else
          match poisonedFor k s c mb ls with
          | some i => .trap .mchk (poisonAddr 5 (addr.toNat + i))
          | none => f mb ls

/-- A generator load of `n` bytes, and what is done with them. -/
def genLoad (s : State) (c : Ctx) (addr : DWord) (n : Nat) (f : List Byte → Ctx → GenRes) : GenRes :=
  genMemory s c addr n .load (fun off => f (((dumpBytes c.dump).drop off).take n) c) fun mb ls =>
    let x := loadBytes s.mem mb ls
    f x.1 (c.putMember 0 x.2)

/-- R367, R368. -/
def execGld (q : Seq) (sz : Size) (sx : Bool) (d a : GReg) (v : BitVec 16) (s : State) : Out :=
  genStep s q [a] fun c =>
    genLoad s c (c.greg a + v.signExtend 64) (sizeBytes sz) fun bs c =>
      genWrite s c d (BitVec.ofInt 64 (elemInt sx (8 * sizeBytes sz) (leNat bs)))

/-- R367, R368, R242. -/
def execGst (q : Seq) (sz : Size) (d a : GReg) (v : BitVec 16) (s : State) : Out :=
  genStep s q [a, d] fun c =>
    let addr := c.greg a + v.signExtend 64
    let bs := leBytes (sizeBytes sz) (c.greg d).toNat
    genMemory s c addr (sizeBytes sz) .store (fun off => .ok s { c with dump := writeDump c.dump off bs }) fun mb ls =>
      let (s1, mb) := storeBytes s c mb (ls.zip bs) { vas := vaLines c.domain addr.toNat ls }
      .ok s1 (c.putMember 0 mb)

/-- R370, R371: the compare value of `.cas` is the destination's; the old value is returned. -/
def execGamo (q : Seq) (op : AtomicOp) (d a b : GReg) (s : State) : Out :=
  genStep s q ([a, b] ++ (if op == .cas then [d] else [])) fun c =>
    let new := fun old =>
      if op == .cas && old != (c.greg d).toNat then none else some (atomicNew op 64 old (c.greg b).toNat (c.greg d).toNat)
    genMemory s c (c.greg a) 8 .atomic
      (fun off =>
        let old := fld (dumpBytes c.dump) off 8
        genWrite s (match new old with
          | some v => { c with dump := writeDump c.dump off (leBytes 8 v) }
          | none => c) d (BitVec.ofNat 64 old))
      fun mb ls =>
        match ls with
        | [] => .wait
        | l :: _ =>
          let (s1, mb) := atomicLine c.id s mb l
          let (old, s2) := performAtomic s1 ls new
          genWrite s2 (c.putMember 0 mb) d (BitVec.ofNat 64 old)

end Sys2Proof.Machine
end

