-- ==== Sys2Proof/Machine/Capture.lean ====
section
/-!
DEFINITION. Capture and replay (R65-R75, R341-R343, R399), hole bindings (R384), the vote queue's pop (R381) and CDEF at
execution (R344).
-/
namespace Sys2Proof.Machine

/-! ## Stretches -/

def Ctx.stretch (c : Ctx) (n : BitVec 8) : Option Stretch := c.stretches.find? fun x => x.name == n
def Ctx.capturing (c : Ctx) : Option Stretch := c.stretches.find? fun x => !x.defined
def nameOf (c : Ctx) : NameSrc → BitVec 8
  | .imm n => n
  | .reg a => (c.greg a).truncate 8
def nameRegs : NameSrc → List GReg
  | .imm _ => []
  | .reg a => [a]

/-- R341. -/
def beginCapture (s : State) (q : Seq) (n : BitVec 8) (dry : Bool) : Out :=
  genStep s q [] fun c =>
    if c.handler then .trap .hstate 0
    else if c.capturing.isSome then .trap .capseq (n.zeroExtend 64)
    else if (c.stretch n).isSome then .trap .capdup (n.zeroExtend 64)
    else .ok s { c with stretches := c.stretches ++ [⟨n, false, dry, c.nextContent, []⟩], nextContent := c.nextContent + 1 }

def execCapb (q : Seq) (n : BitVec 8) (s : State) : Out := beginCapture s q n false
def execCapbDry (q : Seq) (n : BitVec 8) (s : State) : Out := beginCapture s q n true

/-- R341: the name becomes defined and the count is written. -/
def execCape (q : Seq) (d : GReg) (s : State) : Out :=
  genStep s q [] fun c =>
    if c.handler then .trap .hstate 0
    else
      match c.capturing with
      | none => .trap .capseq 0x100
      | some x =>
        genWrite s { c with stretches := mapIf (fun y => y.name == x.name) (fun y => { y with defined := true }) c.stretches } d
          (BitVec.ofNat 64 x.recs.length)

/-- R341, R73. -/
def execCapx (q : Seq) (n : NameSrc) (s : State) : Out :=
  genStep s q (nameRegs n) fun c =>
    let n := nameOf c n
    if c.handler then .trap .hstate 0
    else if c.capturing.isSome then .trap .capseq (n.zeroExtend 64)
    else if (c.stretch n).isNone then .trap .capnone (n.zeroExtend 64)
    else .ok s { c with stretches := c.stretches.filter fun x => x.name != n }

/-! ## What an ESN fixes: stream positions, votes, the bound of an SCHK -/

/-- Items of the dispatch (R23). -/
def Ctx.itemCount (c : Ctx) : Nat := c.members.length * c.rowCount

def Ctx.streamReg (c : Ctx) (n : Nat) : StreamReg := c.streams.toList.getD n ⟨0, 0, false, false, 0⟩
def Ctx.setStream (c : Ctx) (n : Nat) (r : StreamReg) : Ctx := { c with streams := c.streams.setIfInBounds n r }
def StreamReg.pos (r : StreamReg) : StreamPos := ⟨r.base, r.len, r.val, r.isOpen, r.cur⟩

/-- The streams that a slot names, with whether it is a merge. -/
def streamsOf (i : Instr) : Option (Bool × List Nat) :=
  match i with
  | .sadv f => some (false, [f.va.toNat % 8])
  | .sisec e | .sunion e | .sdiff e | .smadd e => some (true, [e.head.toNat % 8, e.head.toNat / 8 % 8])
  | _ => none

/-- R254: the positions a slot receives, and the cursors after. -/
def Ctx.takeStreams (c : Ctx) (i : Instr) : List StreamPos × Ctx :=
  match streamsOf i with
  | none => ([], c)
  | some (merge, ns) =>
    (ns.map fun n => (c.streamReg n).pos,
      ns.foldl (fun c n =>
        let r := c.streamReg n
        c.setStream n { r with cur := if merge then r.len else r.cur + c.itemCount * 64 }) c)

/-- The vote-queue entry that a slot reserves (R79). -/
def voteKind (i : Instr) : Option VoteKind :=
  match i with
  | .vote f => some (match f.fn.toNat with
    | 0 => .any
    | 1 => .all
    | _ => .cnt)
  | .schk _ => some .schk
  | _ => none

def newVote (c : Ctx) (esn : BitVec 48) (k : VoteKind) : VqEntry :=
  { esn := esn, kind := k, seq := none, anySet := false, allSet := true, count := 0, answered := 0, result := none, budget := c.rmax }

/-- SADV's second destination (R254): the register that must exist when the stream has values. -/
def sadvPair (c : Ctx) (i : Instr) : Option Nat :=
  match i with
  | .sadv f => if (c.streamReg (f.va.toNat % 8)).val then some (f.vd.toNat + 1) else none
  | _ => none

/-! ## RPLY -/

/-- What R399 fixes for every slot of a stretch in order, and the cursors after. -/
def fixSlots (c : Ctx) : List RecSlot → List (List StreamPos × BitVec 16 × BitVec 16) × Ctx
  | [] => ([], c)
  | r :: rest =>
    let (p, c) := c.takeStreams r.i
    let (l, c) := fixSlots c rest
    ((p, c.beta, c.rmax) :: l, c)

/-- The vote-queue entries of a stretch whose first ESN is `e`. -/
def replayVotes (c : Ctx) (e : BitVec 48) (recs : List RecSlot) : List VqEntry :=
  recs.zipIdx.filterMap fun (r, j) => (voteKind r.i).map fun k => newVote c (esnAdd e j) k

def Ctx.replays (c : Ctx) : Nat :=
  (c.intake.filter fun i => match i with
    | .replay _ => true
    | .entry _ => false).length

/-- R399, R71, R72.  DESIGN CHOICE (log 42): the ILLREG of a stretch with several SADV slots out of range names the lowest of their
registers; an RPLY of a stretch of length 0, which reserves nothing, does not wait while 16 replays are queued. -/
def execRply (q : Seq) (n : NameSrc) (s : State) : Out :=
  genStep s q (nameRegs n) fun c =>
    let n := nameOf c n
    if c.handler then .trap .hstate 0
    else if c.capturing.isSome then .trap .capseq (n.zeroExtend 64)
    else
      match c.stretch n with
      | none => .trap .capnone (n.zeroExtend 64)
      | some x =>
        match (x.recs.filterMap fun r => sadvPair c r.i).filter fun r => decide (c.regCount ≤ r) with
        | r :: rest => .emit .illreg (BitVec.ofNat 64 (rest.foldl min r))
        | [] =>
          let votes := replayVotes c c.nextEsn x.recs
          if 16 < c.vq.length + votes.length then .emit .vqovf 0
          else if x.recs.isEmpty then .ok s c
          else if Config.replayDepth ≤ c.replays then .wait
          else
            let (fixed, c1) := fixSlots c x.recs
            let r : Replay := { name := n, content := x.content, recs := x.recs, segment := 0, esn := c.nextEsn, binds := c.h,
                                fixed := fixed, key := c.key }
            .ok s { c1 with intake := c1.intake ++ [.replay r], vq := c1.vq ++ votes, nextEsn := esnAdd c.nextEsn x.recs.length,
                            emitCount := c1.emitCount + x.recs.length }

/-! ## HSET, GVQ, CDEF -/

/-- R384. -/
def execHset (q : Seq) (h : BitVec 4) (b : GSrc) (s : State) : Out :=
  genStep s q (srcRegs b) fun c => .ok s { c with h := c.h.setIfInBounds h.toNat ((c.src b).truncate 32) }

/-- R381. -/
def execGvq (q : Seq) (d : GReg) (s : State) : Out :=
  genStep s q [] fun c =>
    if c.handler then .trap .hstate 0
    else
      match c.vq with
      | [] => .trap .vqempty 0
      | v :: rest =>
        match v.result with
        | none => .wait
        | some r => genWrite s { c with vq := rest } d r

/-- R344 at execution: the checks in their order, then the marker. -/
def execCdef (q : Seq) (mem : Bool) (x : BitVec 8) (a : GReg) (s : State) : Out :=
  genStep s q [] fun c =>
    if c.handler then .trap .hstate 0
    else if !c.carried.contains x.toNat then .trap .carryr (x.zeroExtend 64)
    else if s.gPoisoned c.id a then .trap .mchk (poisonAddr 4 a.toNat)
    else
      let v := c.greg a
      let place := fun locs =>
        match c.placeMarker (.cdef q mem x a) (.cdef x.toNat mem v locs) with
        | none => GenRes.wait
        | some c => .ok s c
      if !mem then place []
      else if c.orderPending then .wait
      else if v.toNat % 4 != 0 then .trap .align v
      else
        match translateN s c.domain (!c.priv) .load v.toNat 256 with
        | .error (e, va) => .trap e.cause (BitVec.ofNat 64 va)
        | .ok locs => place locs

end Sys2Proof.Machine
end

