-- ==== Sys2Proof/Machine/Emission.lean ====
section
/-!
DEFINITION. Fetch, emission and replay feed: GENERATOR_FETCH, EMISSION, REPLAY_SEGMENT_FEED (R42, R43, R54-R58, R61, R62,
R66-R68, R72, R74, R76, R79, R88, R105, R106, R134, R143, R302, R375).
-/
namespace Sys2Proof.Machine

/-! ## Fetch -/

/-- The virtual address of a slot (R375). -/
def slotVa (pc : DWord) : Nat := 8 * pc.toNat % 2 ^ 64

/-- The content that a fetch finds: that of memory, or one from before a host write (R319, log 18). -/
def oldSlot (free : Nat) : Nat → List (Nat × List Byte) → Nat → List Byte → List Byte
  | _, [], _, now => now
  | k, (q, old) :: rest, pa, now =>
    if q == pa && !Config.fetchNew free k then old else oldSlot free (k + 1) rest pa now

/-- The bytes of `n` slots from a slot address on, or the fault of their fetch (R134, R143, R375). -/
def fetchSlots (s : State) (c : Ctx) (die : Nat) (pc : DWord) (n : Nat) : Except (Cause × DWord) (List Byte) :=
  match translateN { s with tlb := s.codeTlb ++ s.tlb } c.domain (!c.priv) .fetch (slotVa pc) (8 * n) with
  | .error (e, va) => .error (e.cause, BitVec.ofNat 64 va)
  | .ok ls =>
    match (if s.poison == [] then none else ls.zipIdx.find? fun x => s.memPoisoned (x.1.on die)) with
    | some (_, k) => .error (.mchk, poisonAddr 5 ((slotVa pc + k) % 2 ^ 64))
    | none =>
      .ok ((List.range n).flatMap fun k =>
        let slot := (ls.drop (8 * k)).take 8
        oldSlot s.free 0 s.oldSlots.reverse (((slot.head?).map fun l => l.on die).getD 0) (homeRead s.mem die slot))

/-- R219: the translations under which a fetch of `n` slots was made are kept for later fetches. -/
def keepCode (s : State) (c : Ctx) (pc : DWord) (n : Nat) : State :=
  (List.range n).foldl (fun s k =>
    match lookup { s with tlb := s.codeTlb ++ s.tlb } c.domain (slotVa (pc + BitVec.ofNat 64 k)) with
    | .ok x => if s.codeTlb.contains (c.domain, x) then s else { s with codeTlb := s.codeTlb ++ [(c.domain, x)] }
    | .error _ => s) s

/-- The whole instruction at a slot address: a lane slot of an engine command with its four parameter words (R105). -/
def fetchInstr (s : State) (c : Ctx) (die : Nat) (pc : DWord) : Except (Cause × DWord) (List Byte) :=
  match fetchSlots s c die pc 1 with
  | .error e => .error e
  | .ok bs =>
    match slotAt bs 0 with
    | none => .ok bs
    | some w => if slotLength w == 5 then fetchSlots s c die pc 5 else .ok bs

/-- The emission cause of a decoding failure (R143). -/
def DecodeErr.cause : DecodeErr → Cause
  | .illegal | .truncated => .illegal
  | .illop => .illop
  | .illmark => .illmark
  | .illtype => .illtype
  | .subbad => .subbad

/-- R54, R134: the slot at PC is decoded; a lane slot that the first four causes of R143 meet is an emission fault. -/
def execGeneratorFetch (k : Nat) (s : State) : Out :=
  match s.ctxOf k with
  | none => .fault .noExecutor
  | some c =>
    if !(c.genMoves && c.ir.isNone && c.gen == .running) then wait s
    else
      match c.member 0 with
      | none => .fault .noExecutor
      | some mb =>
        match fetchInstr s c (dieOf mb.cluster) c.pc with
        | .error (cause, a) => genFault s c cause a
        | .ok bs =>
          match decodeBytes bs with
          | .ok i => done ((keepCode (if s.oldSlots.isEmpty then s else { s with free := s.free + 1 }) c c.pc (bs.length / 8)).putCtx { c with ir := some i })
          | .error e =>
            if e == .illegal || e == .truncated then genFault s c .illegal 0
            else emitFault s c (if bs.length == 40 then 5 else 1) (DecodeErr.cause e) 0

/-! ## Substitution (R55) -/

def subValue (c : Ctx) : Sub → Word
  | .imm v => v
  | .glo n => (c.greg n).truncate 32
  | .ghi n => (c.greg n).extractLsb' 32 32
  | .hole n => c.hole n

def paramValue (c : Ctx) : Param → DWord
  | .lit v => v
  | .g n => c.greg n
  | .hole n => (c.hole n).zeroExtend 64

/-- An instruction with its immediate and its parameter words replaced. -/
def mapFields (f : Sub → Sub) (g : Param → Param) (i : Instr) : Instr :=
  match i.liform with
  | some (op, x) => (mkLI op { x with src := f x.src }).getD i
  | none =>
    match i.eform with
    | some (op, x) => (mkE op { x with p0 := g x.p0, p1 := g x.p1, p2 := g x.p2, p3 := g x.p3 }).getD i
    | none => i

/-- The substituted slot. -/
def substituted (c : Ctx) (i : Instr) : Instr := mapFields (fun x => .imm (subValue c x)) (fun x => .lit (paramValue c x)) i

/-- The slot as a capture keeps it: holes stay, everything else is a literal (R67). -/
def recorded (c : Ctx) (i : Instr) : Instr :=
  mapFields (fun x => match x with
      | .hole n => .hole n
      | x => .imm (subValue c x))
    (fun x => match x with
      | .hole n => .hole n
      | x => .lit (paramValue c x)) i

/-- A recorded slot with a replay's hole bindings (R72). -/
def bound (b : Vector Word 16) (i : Instr) : Instr :=
  let h := fun (n : BitVec 4) => b.toList.getD n.toNat 0
  mapFields (fun x => match x with
      | .hole n => .imm (h n)
      | x => x)
    (fun x => match x with
      | .hole n => .lit ((h n).zeroExtend 64)
      | x => x) i

/-- The parameter words of an instruction. -/
def paramsOf (i : Instr) : List Param :=
  match i.eform with
  | some (_, x) => [x.p0, x.p1, x.p2, x.p3]
  | none => []

/-- The hole sites of a slot. -/
def holeSites (i : Instr) : List (BitVec 4) :=
  (match i.liform with
    | some (_, x) => (match x.src with
      | .hole n => [n]
      | _ => [])
    | none => []) ++
  (paramsOf i).filterMap fun p => match p with
    | .hole n => some n
    | _ => none

/-- The `g` registers that a slot's markers name. -/
def markedRegs (i : Instr) : List GReg :=
  (match i.liform with
    | some (_, x) => (match x.src with
      | .glo n | .ghi n => [n]
      | _ => [])
    | none => []) ++
  (paramsOf i).filterMap fun p => match p with
    | .g n => some n
    | _ => none

/-! ## The checks of R143 that need the state -/

/-- The carry codes of a slot. -/
def carryCodes (i : Instr) : CarryCode × CarryCode :=
  match i.lform with
  | some (_, f) => (f.ka, f.kb)
  | none => (.none, .none)

/-- The distance of a carry code (R41, R42). -/
def carryDistance (c : Ctx) : CarryCode → Nat
  | .none => 0
  | .k1 => 1
  | .k2 => 2
  | .k3 => 3
  | .k4 => 4
  | .rows => c.rowCount
  | .ck1 => c.ck1.toNat
  | .ck2 => c.ck2.toNat

/-- R88: the lowest register at or above the count among the groups that a slot names. -/
def illRegister (c : Ctx) (i : Instr) : Option Nat :=
  let groups := i.groups ++ ((sadvPair c i).map fun r => (r, 1)).toList
  (groups.filterMap fun g => if c.regCount < g.1 + g.2 then some (max g.1 c.regCount) else none).min?

/-- R302: the kinds that an inspection slot may not be. -/
def notInspectable (i : Instr) : Bool :=
  i.eform.isSome || carryCodes i != (.none, .none) ||
    match i with
    | .vote _ | .vexit _ | .sadv _ => true
    | _ => false

/-- A carried register that is not declared (R43). -/
def undeclaredCarry (c : Ctx) (i : Instr) : Option Nat :=
  let bad := fun (k : CarryCode) (l : List Nat) => if k == .none then none else l.find? fun r => !c.carried.contains r
  (bad (carryCodes i).1 i.vaRegs).or (bad (carryCodes i).2 i.vbRegs)

/-- A distance above ROWS (R43). -/
def longCarry (c : Ctx) (i : Instr) : Option Nat :=
  [carryDistance c (carryCodes i).1, carryDistance c (carryCodes i).2].find? fun k => decide (c.rowCount < k)

/-- Slots that a recorded slot occupies in the backing region (R66). -/
def RecSlot.size (r : RecSlot) : Nat := if r.i.eform.isSome then 5 else 1
def recsSize (l : List RecSlot) : Nat := (l.map RecSlot.size).sum

/-- Slots of the backing region in use: stretches, and contents that only queued replays still hold (R73). -/
def Ctx.backingUsed (c : Ctx) : Nat :=
  let held := c.intake.filterMap fun x => match x with
    | .replay r => if c.stretches.any (fun y => y.content == r.content) then none else some (r.content, recsSize r.recs)
    | .entry _ => none
  (c.stretches.map fun x => recsSize x.recs).sum + (held.eraseDups.map fun x => x.2).sum

/-- The emission cause of a slot with its TADDR, in the order of R143. -/
def emissionCause (c : Ctx) (i : Instr) : Option (Cause × Nat) :=
  let cap := if c.handler then none else c.capturing
  let dry := cap.any fun x => x.dry
  match illRegister c i with
  | some r => some (.illreg, r)
  | none =>
    if c.handler && notInspectable i then some (.inspf, 0)
    else if !(i.lform.all fun x => lLaOk x.1 x.2) then some (.lafld, 0)
    else
      match undeclaredCarry c i with
      | some r => some (.carryr, r)
      | none =>
        match longCarry c i with
        | some k => some (.carryk, k)
        | none =>
          if (voteKind i).isSome && !dry && decide (Config.vqDepth ≤ c.vq.length) then some (.vqovf, 0)
          else
            match cap with
            | none => none
            | some x =>
              if Config.stretchMax ≤ x.recs.length then some (.caplen, 0)
              else if Config.holeMax < (x.recs.map fun r => (holeSites r.i).length).sum + (holeSites i).length then some (.caphole, 0)
              else if Config.backingSlots < c.backingUsed + (if i.eform.isSome then 5 else 1) then some (.capfull, 0)
              else none

/-! ## Emission -/

/-- The slot recorded in the stretch being captured (R66, R67). -/
def Ctx.recordSlot (c : Ctx) (i : Instr) : Ctx :=
  let r : RecSlot := { i := recorded c i, kA := carryDistance c (carryCodes i).1, kB := carryDistance c (carryCodes i).2,
                       vals := (holeSites i).map fun n => (c.hole n).zeroExtend 64, pc := c.pc }
  { c with stretches := mapIf (fun x => !x.defined) (fun x => { x with recs := x.recs ++ [r] }) c.stretches }

/-- The generator has passed the slot (R54). -/
def Ctx.passSlotAt (c : Ctx) (i : Instr) : Ctx :=
  { c with pc := c.pc + (if i.eform.isSome then 5 else 1), ir := none }

/-- R302: the rows in which an inspection slot executes. -/
def Ctx.inspectionRows (c : Ctx) : List Nat :=
  match c.handling with
  | none => []
  | some h =>
    if h.trap.dom == .l || h.trap.dom == .x then h.row.toList.filter fun k => (c.rowOf k).any Row.live
    else c.liveRows.map fun r => r.item

/-- An inspection slot enters the handler channel. -/
def inspect (c : Ctx) (i : Instr) : Ctx :=
  let e : Entry := { seq := 0, esn := 0, item := .slot (substituted c i), beta := c.beta, budget := c.rmax, pc := c.pc, key := c.key }
  let rows := c.inspectionRows
  { c.passSlotAt i with channel := if rows.isEmpty then c.channel else c.channel ++ [(e, rows)], inspCount := c.inspCount + 1 }

/-- A slot gets its ESN and enters the stream; none while the stream unit does not accept it. -/
def emitSlot (c : Ctx) (i : Instr) : Option Ctx :=
  let (pos, c1) := c.takeStreams i
  let e : Entry := { seq := 0, esn := c.nextEsn, item := .slot (substituted c i), kA := carryDistance c (carryCodes i).1,
                     kB := carryDistance c (carryCodes i).2, streams := pos, beta := c.beta, budget := c.rmax, pc := c.pc,
                     key := c.key }
  let c1 := { c1 with vq := c1.vq ++ ((voteKind i).map fun k => newVote c c.nextEsn k).toList,
                      nextEsn := esnNext c.nextEsn, emitCount := c.emitCount + 1 }
  let c1 := if c.capturing.isSome then c1.recordSlot i else c1
  (c1.passSlotAt i).accept e

/-- R54: the lane slot that has been fetched is checked, substituted, numbered and handed to the stream unit. -/
def execEmission (k : Nat) (s : State) : Out :=
  match s.ctxOf k with
  | none => .fault .noExecutor
  | some c =>
    match c.ir with
    | none => wait s
    | some i =>
      if !(c.genMoves && c.gen == .running && (i.lform.isSome || i.liform.isSome || i.eform.isSome)) then wait s
      else
        let len := if i.eform.isSome then 5 else 1
        match emissionCause c i with
        | some (cause, a) => emitFault s c len cause (BitVec.ofNat 64 a)
        | none =>
          match (markedRegs i).find? (s.gPoisoned c.id) with
          | some r => genFault s c .mchk (poisonAddr 4 r.toNat)
          | none =>
            if c.handler then done (s.putCtx (inspect c i))
            else if c.capturing.any fun x => x.dry then done (s.putCtx ((c.recordSlot i).passSlotAt i))
            else
              match emitSlot c i with
              | none => wait s
              | some c => done (s.putCtx c)

/-! ## Replay feed -/

/-- The entries of a replay's next segment (R72, R74). -/
def segmentEntries (r : Replay) : List Entry :=
  ((r.recs.zip r.fixed).zipIdx.drop (Config.segment * r.segment)).take Config.segment |>.map fun ((x, (pos, beta, budget)), j) =>
    { seq := 0, esn := esnAdd r.esn j, item := .slot (bound r.binds x.i), kA := x.kA, kB := x.kB, streams := pos, beta := beta,
      budget := budget, rpl := some (r.name, BitVec.ofNat 12 j), pc := x.pc, key := r.key + 1 + j }

/-- R74, R71: the head of the intake enters the stream buffers, a replay by whole segments. -/
def execReplaySegmentFeed (k : Nat) (s : State) : Out :=
  match s.ctxOf k with
  | none => .fault .noExecutor
  | some c =>
    if !c.rowsMove then wait s
    else
      match c.intake with
      | [] => wait s
      | .entry e :: rest =>
        if c.canPush e then done (s.putCtx ({ c with intake := rest }.push e)) else wait s
      | .replay r :: rest =>
        let es := segmentEntries r
        let engines := (es.filter Entry.isEngine).length
        if !(c.roomFor (es.length - engines) engines && es.all fun e => c.horizonOk e.esn) then wait s
        else
          let c1 := es.foldl Ctx.push c
          let beyond := decide (r.recs.length ≤ Config.segment * (r.segment + 1))
          done (s.putCtx { c1 with intake := if beyond then rest else .replay { r with segment := r.segment + 1 } :: rest }.settle)

end Sys2Proof.Machine
end

