-- ==== Sys2Proof/Machine/Place.lean ====
section
/-!
DEFINITION. Where contexts may stand: clusters (R21, R25, R26, R36, R288, R326), buffers (R205), granules and row positions
(R24, R280).
-/
namespace Sys2Proof.Machine

/-- The context has its generator slot, buffers and clusters (R307, R314): it is neither over nor switched out. -/
def Ctx.resident (c : Ctx) : Bool := !c.completed && c.switch != .out
/-- Its rows hold granules and row positions (R286). -/
def Ctx.onBlocks (c : Ctx) : Bool := c.resident && !c.revoked
def Ctx.onCluster (c : Ctx) (k : Nat) : Bool := c.members.any fun m => m.cluster == k

/-- The cluster of a member (R25). -/
def clusterOf (base m : Nat) : Nat := (base + m) % Config.clusters

/-- R25: where a gang may begin. -/
def baseOk (base gang : Nat) : Bool :=
  decide (base < Config.clusters ∧ gang ≤ Config.clusters) && (if 4 ≤ gang then base % 4 == 0 else decide (base % 4 + gang ≤ 4))

/-- A cluster is not fenced. -/
def State.whole (s : State) (k : Nat) : Bool := !s.fenced.clusters.getLsbD k

/-- R26: every context resident in the partition of a cluster belongs to the domain. -/
def domainOk (s : State) (self domain k : Nat) : Bool :=
  s.ctxs.all fun d => d.id == self || !d.resident || d.domain == domain || !(d.members.any fun m => m.cluster / 4 == k / 4)

/-- R207, R21: the contexts of the cluster other than `self` leave room in the three buffers. -/
def buffersFit (s : State) (self k wb ab cb : Nat) : Bool :=
  let others := s.ctxs.filter fun d => d.id != self && d.resident
  let used := fun (f : Member → Nat) => ((others.map fun d => ((d.members.filter fun m => m.cluster == k).map f).sum)).sum
  decide (used (fun m => m.wb.size) + wb ≤ 4 * 2 ^ 20) && decide (used (fun m => m.ab.size) + ab ≤ 4 * 2 ^ 20) &&
    decide (used (fun m => m.cb.size) + cb ≤ 3 * 2 ^ 19)

/-- What a placement puts on each cluster. -/
structure Request where
  /-- the context to place, which does not stand in its own way -/
  self : Nat
  domain : Nat
  ash : Bool
  mono : Bool
  /-- the ash contexts of the clusters make way (R285): Crimson and Monochrome placements -/
  evicts : Bool
  regs : Nat
  wb : Nat
  ab : Nat
  cb : Nat

/-- R21, R36, R288: who else is on the cluster. -/
def companyOk (s : State) (r : Request) (k : Nat) : Bool :=
  let others := s.ctxs.filter fun d => d.id != r.self && d.resident && d.onCluster k
  if r.ash then
    others.any (fun d => !d.ash) && decide ((others.filter Ctx.ash).length ≤ 1) && others.all fun d => !d.mono
  else others.all Ctx.ash

/-- A cluster can take a member of the request, granules apart. -/
def clusterOk (s : State) (r : Request) (k : Nat) : Bool :=
  s.whole k && domainOk s r.self r.domain k && companyOk s r k && buffersFit s r.self k r.wb r.ab r.cb

/-- Granules in use in a lane block: first granule and number, one pair for each resident row. -/
def usedGranules (s : State) (r : Request) (k b : Nat) : List (Nat × Nat) :=
  (s.ctxs.filter fun d => d.id != r.self && d.onBlocks && !(r.evicts && d.ash && d.onCluster k)).flatMap fun d =>
    (d.liveRows.filter fun x => ((d.member x.member).any fun m => m.cluster == k) && d.blockOf x == b).map fun x => (x.granule, d.regCount / 8)

/-- The next power of two at or above `n`. -/
def alignOf (n : Nat) : Nat := if n ≤ 1 then 1 else if n ≤ 2 then 2 else if n ≤ 4 then 4 else if n ≤ 8 then 8 else if n ≤ 16 then 16 else 32

/-- R280: a run of `n` free granules at an aligned index, the lowest of them (log 33), in a block with a free row position. -/
def granuleFor (used : List (Nat × Nat)) (n : Nat) : Option Nat :=
  if Config.rowsPerBlock ≤ used.length then none
  else
    let a := alignOf n
    ((List.range (Config.granules / a)).map fun j => j * a).find? fun g =>
      decide (g + n ≤ Config.granules) && used.all fun u => decide (u.1 + u.2 ≤ g ∨ g + n ≤ u.1)

/-- R280: granules for the rows of one member, one by one in item order, given by their local indices. -/
def placeLocals (s : State) (r : Request) (k : Nat) : List Nat → List (Nat × Nat × Nat) → Option (List Nat)
  | [], _ => some []
  | j :: rest, taken =>
    let b := j % 4
    let mine := (taken.filter fun x => x.1 == b).map fun x => x.2
    match granuleFor (usedGranules s r k b ++ mine) (r.regs / 8) with
    | none => none
    | some g =>
      match placeLocals s r k rest (taken ++ [(b, g, r.regs / 8)]) with
      | none => none
      | some l => some (g :: l)

/-- The granules of a whole gang, given by the local indices of each member's rows. -/
def placeMembers (s : State) (r : Request) (base : Nat) : Nat → List (List Nat) → Option (List (List Nat))
  | _, [] => some []
  | m, js :: rest =>
    let k := clusterOf base m
    if !clusterOk s r k then none
    else
      match placeLocals s r k js [], placeMembers s r base (m + 1) rest with
      | some l, some ls => some (l :: ls)
      | _, _ => none

/-- The whole gang placed at a base. -/
def placeGang (s : State) (r : Request) (base : Nat) (rows : List (List Nat)) : Option (List (List Nat)) :=
  if baseOk base rows.length then placeMembers s r base 0 rows else none

/-- The request of a context that is to return (R281, R317). -/
def Ctx.request (c : Ctx) : Request :=
  let size := fun (f : Member → Nat) => ((c.member 0).map f).getD 0
  { self := c.id, domain := c.domain, ash := c.ash, mono := c.mono, evicts := c.cls == .crimson || c.mono, regs := c.regCount,
    wb := size fun m => m.wb.size, ab := size fun m => m.ab.size, cb := size fun m => m.cb.size }

/-- The local indices of the rows that still need granules, member by member. -/
def Ctx.localsOf (c : Ctx) : List (List Nat) :=
  c.members.zipIdx.map fun (_, m) => (c.memberRows m).map fun r => r.item - m * c.rowCount

/-- The rows with the granules of a placement. -/
def Ctx.withGranules (c : Ctx) (base : Nat) (gs : List (List Nat)) : Ctx :=
  let rows := c.members.zipIdx.flatMap fun (_, m) =>
    ((c.memberRows m).zip (gs.getD m [])).map fun (r, g) => { r with granule := g }
  let c := rows.foldl Ctx.putRow c
  { c with members := c.members.zipIdx.map fun (mb, m) => { mb with cluster := clusterOf base m } }

/-- R285: the ash contexts on the clusters of a Crimson or Monochrome placement are revoked. -/
def evictAsh (s : State) (r : Request) (base gang : Nat) : State :=
  if !r.evicts then s
  else
    let on := fun (d : Ctx) => (List.range gang).any fun m => d.onCluster (clusterOf base m)
    { s with ctxs := mapIf (fun d => d.ash && d.id != r.self && d.onBlocks && on d) (fun d => { d with revoked := true }) s.ctxs }

/-! ## Command links (R263) -/

/-- Permits of a link, and how many of them only messages about Crimson-class work may take. -/
def linkPermits : Nat := 8
def crimsonPermits : Nat := 2

/-- A permit of a link is free for a message, beside those that hold one; each says whether it is about Crimson-class work. -/
def permitLeft (held : List Bool) (crimson : Bool) : Bool :=
  decide (held.length < linkPermits) && (crimson || decide ((held.filter fun x => !x).length < linkPermits - crimsonPermits))

/-- The scheduler has a permit for a message to each of some leaf controllers; without one it waits (log 75). -/
def orderRoom (s : State) (leaves : List Nat) (crimson : Bool) : Bool :=
  leaves.all fun l => permitLeft ((s.orders.filter fun x => x.leaf == l).map fun x => x.crimson) crimson

/-- The messages sent. -/
def sendOrders (s : State) (leaves : List Nat) (crimson : Bool) (b : OrderBody) : State :=
  { s with orders := s.orders ++ leaves.map fun l => ⟨l, crimson, b⟩ }

/-- The clusters of a gang at a base. -/
def leavesAt (base gang : Nat) : List Nat := (List.range gang).map (clusterOf base)

end Sys2Proof.Machine
end

