-- ==== Sys2Proof/Machine/SaveImage.lean ====
section
/-!
DEFINITION. The save image as bytes (R98-R103) and the checks of a restore on those bytes (R104).  The widths that the manual leaves
out are log 14's, and what it gives no content for is a free value.
-/
namespace Sys2Proof.Machine

/-- A plane of zero weights; bytes beyond the list are zero. -/
def zeroPlane : Plane := ⟨0, []⟩

/-- A bank at the start of a dispatch (R94). -/
def freshBank (ash : Bool) : Bank :=
  { active := zeroPlane, shadow := zeroPlane, rowScale := List.replicate 256 0x3C00, colScale := List.replicate 256 0x3C00, flags := 0,
    queue := [], hazards := [], bound := !ash, sums := none }

/-- A section of an image (R98). -/
structure ImageSection where
  kind : Nat
  member : Nat
  body : List Byte
  deriving DecidableEq, Repr

/-- R98: the 16-byte section header and the body. -/
def ImageSection.bytes (x : ImageSection) : List Byte :=
  leBytes 2 x.kind ++ leBytes 2 x.member ++ leBytes 4 0 ++ leBytes 8 x.body.length ++ x.body

/-- R98: the 32-byte header and the sections. -/
def imageBytes (magic version gang : Nat) (l : List ImageSection) : List Byte :=
  let body := l.flatMap ImageSection.bytes
  leBytes 4 magic ++ leBytes 2 version ++ leBytes 2 l.length ++ leBytes 8 (32 + body.length) ++ leBytes 8 gang ++ leBytes 8 0 ++ body

/-! ## Sections -/

/-- `n` words: the given ones, and free values behind them; by save and by place. -/
def fitWords (k place n : Nat) (l : List DWord) : List DWord := (List.range n).map fun i => l.getD i (Config.imageWord k (place + i))

/-- R79: a vote-queue entry in two words. -/
def voteWords (k place : Nat) (v : VqEntry) : List DWord :=
  [v.esn.zeroExtend 64 ||| (if v.result.isSome then BitVec.twoPow 64 63 else 0), v.result.getD (Config.imageWord k place)]

/-- R252. -/
def streamWords (r : StreamReg) : List DWord :=
  [BitVec.ofNat 64 r.base, BitVec.ofNat 64 (r.len + (if r.val then 2 ^ 32 else 0) + (if r.isOpen then 2 ^ 33 else 0)),
   BitVec.ofNat 64 r.cur, 0]

/-- R99: the 431 words of the generator section; `k` numbers the save. -/
def generatorWords (s : State) (c : Ctx) (k : Nat) : List DWord :=
  [c.pc, c.nextEsn.zeroExtend 64,
   BitVec.ofNat 64 (leNat ((List.range 8).map fun i => if c.flag (BitVec.ofNat 3 i) then 1 else 0))] ++
  c.lc.toList.map (fun w => w.zeroExtend 64) ++
  [BitVec.ofNat 64 c.rstack.length] ++ fitWords k 100 16 c.rstack ++
  (List.range 8).map (fun i => (c.hole (BitVec.ofNat 4 (2 * i + 1)) ++ c.hole (BitVec.ofNat 4 (2 * i)) : DWord)) ++
  [c.ck1.zeroExtend 64, c.ck2.zeroExtend 64, c.rmax.zeroExtend 64, c.beta.zeroExtend 64, c.tvec, statusWord s c, c.cycle,
   c.deadline.getD (Config.imageWord k 0), BitVec.ofNat 64 (c.retiredCount 0)] ++
  [c.tcause, c.tesn, c.taddr, c.tmask, c.tpc] ++
  (List.range 64).map (fun i => c.greg (BitVec.ofNat 6 i)) ++
  [BitVec.ofNat 64 c.vq.length] ++ fitWords k 200 32 (c.vq.zipIdx.flatMap fun x => voteWords k (300 + x.2) x.1) ++
  c.streams.toList.flatMap streamWords ++
  ((c.member 0).map fun mb => mb.handles.toList.flatMap fun h => (List.range 4).map fun i => h.extractLsb' (64 * i) 64).getD (List.replicate 256 0) ++
  [BitVec.ofNat 64 ((if c.priv then 1 else 0) + (if c.timerWaits.isSome then 2 else 0) + (if c.deadlineWaits.isSome then 4 else 0) +
    8 * c.latches.toNat)]

/-- R100: a queued replay in ten words. -/
def replayWords (c : Ctx) (r : Replay) : List DWord :=
  [BitVec.ofNat 64 (r.name.toNat + r.segment * 2 ^ 8 + r.recs.length * 2 ^ 17 + Config.backingOffset c.id r.content % 2 ^ 17 * 2 ^ 30),
   r.esn.zeroExtend 64] ++
  (List.range 8).map fun i => (r.binds.toList.getD (2 * i + 1) 0 ++ r.binds.toList.getD (2 * i) 0 : DWord)

/-- R100: an entry in six words: ESN, head and P0-P3, or for a marker 0, its G slot, and in P0 the a of a CDEF (R345). -/
def Entry.words (e : Entry) : List DWord :=
  e.esn.zeroExtend 64 :: match e.item with
    | .slot i => slotWords i
    | .marker (.cdef _ _ a _) => [e.gslot, a, 0, 0, 0]
    | .marker _ => [e.gslot, 0, 0, 0, 0]

/-- R100: a number of entries, and the entries. -/
def countedEntries (l : List Entry) : List DWord := BitVec.ofNat 64 l.length :: l.flatMap Entry.words

/-- The entries in a lane block's stream buffer: those that a row of it has not left behind, commands that have not been handed over,
markers (R57, R60), and first the waits that hold the rows (R354); none where every row has retired. -/
def Ctx.blockEntries (c : Ctx) (m b : Nat) : List Entry :=
  let rows := (c.memberRows m).filter fun r => c.blockOf r == b
  let mb := c.member m
  if rows.isEmpty then []
  else
  let there := c.stream.filter fun e =>
    e.isMarker || (e.isEngine && mb.all fun x => decide (x.handed ≤ e.seq)) || rows.any fun r => !c.passedBy r e
  ((mb.map fun x => x.holds).getD []).filter (fun h => !there.contains h) ++ there

/-- The row cursor of a lane block: how many of its rows have taken the first slot of its buffer already (R97). -/
def Ctx.rowCursor (c : Ctx) (m b : Nat) : Nat :=
  match (c.blockEntries m b).find? fun e => !e.isMarker with
  | none => 0
  | some e => ((c.memberRows m).filter fun r => c.blockOf r == b && c.passedBy r e).length

/-- R100: the entries of the four lane blocks and, on the leader, the replay queue and the staging slots. -/
def streamBody (c : Ctx) (m : Nat) : List Byte :=
  let block := fun b =>
    let l := c.blockEntries m b
    [BitVec.ofNat 64 l.length, BitVec.ofNat 64 (c.rowCursor m b)] ++ l.flatMap Entry.words
  let replays := c.intake.filterMap fun x => match x with
    | .replay r => some r
    | .entry _ => none
  let staged := c.intake.filterMap fun x => match x with
    | .replay _ => none
    | .entry e => some e
  dwordBytes ((List.range 4).flatMap block ++
    if m == 0 then [BitVec.ofNat 64 replays.length] ++ replays.flatMap (replayWords c) ++ countedEntries staged else [])

/-- The tag codes of R101. -/
def tagCode : Tag → Nat
  | .u => 0
  | .a => 1
  | .g => 2

/-- R101: 2 bits for each register, in whole groups of 8 bytes. -/
def tagMap (l : List Tag) : List Byte :=
  leBytes (8 * ((l.length + 31) / 32)) (l.zipIdx.foldl (fun v x => v + tagCode x.1 * 4 ^ x.2) 0)

/-- R101: the stored body of a register: u, or b and s, or the 64 words. -/
def registerBytes (v : VRegister) : List Byte :=
  match v.tag with
  | .u => leBytes 4 (v.lanes.get 0).toNat
  | .a => leBytes 4 (v.lanes.get 0).toNat ++ leBytes 4 (v.lanes.get 1 - v.lanes.get 0).toNat
  | .g => v.lanes.toList.flatMap fun w => leBytes 4 w.toNat

/-- A number of bytes rounded up to a multiple of 8. -/
def up8 (n : Nat) : Nat := (n + 7) / 8 * 8

/-- R87: the ESN of the next slot the row takes. -/
def Ctx.issueEsn (c : Ctx) (r : Row) : BitVec 48 :=
  ((c.stream.find? fun e => e.esn != 0 && !c.passedBy r e).map fun e => e.esn).getD
    (((c.intake.findSome? fun x => match x with
      | .replay p => if p.recs.isEmpty then none else some (esnAdd p.esn (p.segment * Config.segment))
      | .entry e => if e.esn != 0 then some e.esn else none)).getD c.nextEsn)

/-- R101: the record of a row. -/
def rowRecord (c : Ctx) (r : Row) : List Byte :=
  let body := r.regs.flatMap registerBytes
  leBytes 4 r.item ++ leBytes 2 r.regs.length ++ leBytes 2 r.flags.toNat ++ leBytes 8 r.mask.toNat ++ leBytes 8 (c.issueEsn r).toNat ++
    leBytes 8 0 ++ dwordBytes ((List.range 15).map r.pred) ++ dwordBytes r.rng.toList ++ tagMap (r.regs.map fun v => v.tag) ++
    body ++ List.replicate (up8 body.length - body.length) 0

/-- The 256 bytes of a register. -/
def laneBytes (v : Lanes) : List Byte := v.toList.flatMap fun w => leBytes 4 w.toNat

/-- R46, R102: a frozen row: item, retirement ESN, its declared registers. -/
def frozenBytes (r : Row) : List Byte :=
  match r.retired with
  | none => []
  | some f => dwordBytes [BitVec.ofNat 64 r.item, f.esn.zeroExtend 64] ++ f.regs.flatMap fun x => laneBytes x.2

/-- R49, R102: an inbox entry: ESN; consumer item, operand and register; the data. -/
def inboxBytes (c : Ctx) (x : InboxEntry) : List Byte :=
  let esn := ((c.stream.find? fun e => e.seq == x.seq).map fun e => e.esn).getD 0
  dwordBytes [esn.zeroExtend 64, BitVec.ofNat 64 (x.consumer + (if x.operandB then 2 ^ 32 else 0) + x.reg * 2 ^ 40)] ++ laneBytes x.lanes

/-- R102: the defaults of the carried registers, the carry buffer, the carry inbox.  A frozen row stays in the carry buffer until every
row of greater item has retired (R46). -/
def carryBody (c : Ctx) (m : Nat) : List Byte :=
  let frozen := c.rows.filter fun r => r.member == m && r.retired.isSome && c.rows.any fun q => q.live && decide (r.item < q.item)
  let inbox := ((c.member m).map fun x => x.inbox).getD []
  c.defaults.flatMap (fun d => laneBytes d.2) ++ dwordBytes [BitVec.ofNat 64 frozen.length] ++ frozen.flatMap frozenBytes ++
    dwordBytes [BitVec.ofNat 64 inbox.length] ++ inbox.flatMap (inboxBytes c)

/-- The `h` index of each hole of a recorded slot, with the place of the field: 0 for an imm32 field or P0, then P1-P3 (R67). -/
def slotHoles (i : Instr) : List (Nat × BitVec 4) :=
  (match i.liform with
    | some (_, f) => match f.src with
      | .hole n => [(0, n)]
      | _ => []
    | none => []) ++
  match i.eform with
  | some (_, e) => [e.p0, e.p1, e.p2, e.p3].zipIdx.filterMap fun x => match x.1 with
    | .hole n => some (x.2, n)
    | _ => none
  | none => []

/-- The hole table of a stretch: slot index, field, `h` index, four bytes a site (R65, R67). -/
def Stretch.sites (x : Stretch) : List Nat :=
  x.recs.zipIdx.flatMap fun r => (slotHoles r.1.i).map fun h => r.2 + h.1 * 2 ^ 12 + h.2.toNat * 2 ^ 16

/-- R102: a directory entry of 72 bytes: state, length, hole count and content offset in the first word, then the 16 sites.  The
codes are the model's: 0 empty, 1 capturing, 2 defined, 5 capturing dry (log 14). -/
def directoryEntry (c : Ctx) (n : Nat) : List Byte :=
  match c.stretches.find? fun x => x.name.toNat == n with
  | none => List.replicate 72 0
  | some x =>
    leBytes 8 ((if x.defined then 2 else if x.dry then 5 else 1) + x.recs.length * 2 ^ 8 + x.sites.length * 2 ^ 24 +
      Config.backingOffset c.id x.content % 2 ^ 17 * 2 ^ 32) ++ (List.range 16).flatMap fun i => leBytes 4 (x.sites.getD i 0)

def umberBody (c : Ctx) : List Byte := (List.range 256).flatMap (directoryEntry c)

/-- State of a lendable range as a word, with the holder of a lent one from bit 8 on; the codes are the model's (log 14). -/
def LendState.code : LendState → Nat
  | .untouched => 0
  | .touched => 1
  | .lent h => 2 + h * 2 ^ 8
  | .owed h => 3 + h * 2 ^ 8

/-- R102: a typed buffer: the allocation's base, which is a free value, its length, its lendable ranges, full/empty bits, contents. -/
def bufferBytes (k m : Nat) (mb : Member) (b : Buf) : List Byte :=
  let x := mb.buf b
  let lends := mb.lends.filter fun l => l.buf == b
  let place := match b with
    | .wb => 0
    | .ab => 1
    | .cb => 2
  dwordBytes ([Config.imageWord k (400 + 4 * m + place), BitVec.ofNat 64 x.size, BitVec.ofNat 64 lends.length] ++
    lends.flatMap fun l => [BitVec.ofNat 64 l.off, BitVec.ofNat 64 l.len, BitVec.ofNat 64 l.st.code]) ++
    (if b == Buf.wb then [] else leBytes 128 x.full.toNat) ++ Memory.readN x.cells 0 x.size ++
    List.replicate (up8 x.size - x.size) 0

/-- R103, R191: the version word and the opaque body; KIND 0 for a bank neither loaded nor used since it was bound. -/
def matrixBody (c : Ctx) (k m : Nat) (b : Bank) : List Byte :=
  let body := if b.used then (Config.imageBody k 7 m).take (2 ^ 28 - 1) else []
  dwordBytes (BitVec.ofNat 64 (1 + 6 * 2 ^ 16 + (if !b.used then 0 else if c.ash then 2 else 1) * 2 ^ 32 + body.length * 2 ^ 36) :: body)

/-- R98: the sections in ascending order of type, those of one type in member order (log 14). -/
def sectionsOf (s : State) (c : Ctx) (k : Nat) : List ImageSection :=
  let each := fun (t : Nat) (f : Nat → Member → List Byte) => c.members.zipIdx.map fun x => (⟨t, x.2, f x.2 x.1⟩ : ImageSection)
  ⟨1, 0, dwordBytes (generatorWords s c k)⟩ :: each 2 (fun m _ => streamBody c m) ++
    each 3 (fun m _ => (c.memberRows m).flatMap (rowRecord c)) ++ each 4 (fun m _ => carryBody c m) ++
    [⟨5, 0, umberBody c⟩] ++ each 6 (fun m mb => [Buf.wb, Buf.ab, Buf.cb].flatMap (bufferBytes k m mb)) ++
    each 7 (fun m mb => matrixBody c k m mb.bank)

/-- The image that a save writes (R98). -/
def saveImage (s : State) (c : Ctx) (k : Nat) : Image := imageBytes 0x58564931 1 c.members.length (sectionsOf s c k)

/-! ## The checks of a restore (R104) -/

/-- The sections of an image, read from their headers. -/
def sectionsIn : Nat → List Byte → List ImageSection
  | 0, _ => []
  | n + 1, l =>
    let len := fld l 8 8
    ⟨fld l 0 2, fld l 2 2, (l.drop 16).take len⟩ :: sectionsIn n (l.drop (16 + len))

/-- Bytes of a stored register with a tag code. -/
def codeSize (t : Nat) : Nat := if t == 0 then 4 else if t == 1 then 8 else 256

/-- No record of a row section holds a reserved tag-map code. -/
def tagsOk : Nat → List Byte → Bool
  | 0, _ => true
  | fuel + 1, l =>
    if l.isEmpty then true
    else
      let n := fld l 4 2
      let width := 8 * ((n + 31) / 32)
      let map := fld l 664 width
      let codes := (List.range n).map fun m => map / 4 ^ m % 4
      (codes.all fun t => t != 3) && tagsOk fuel (l.drop (664 + width + up8 (codes.foldl (fun v t => v + codeSize t) 0)))

/-- R104: magic, image version, every tag-map code, VER and IMPL. -/
def imageOk (i : Image) : Bool :=
  fld i 0 4 == 0x58564931 && fld i 4 2 == 1 &&
    (sectionsIn (fld i 6 2) (i.drop 32)).all fun x =>
      if x.kind == 3 then tagsOk x.body.length x.body
      else if x.kind == 7 then fld x.body 0 2 == 1 && fld x.body 2 2 == 6
      else true

end Sys2Proof.Machine
end

