-- ==== Sys2Proof/Machine/Switch.lean ====
section
/-!
DEFINITION. Switching a context out and in, events, revocation (R38, R51, R97-R104, R178, R191, R192, R208, R281, R285, R286,
R305, R306, R311, R312, R314-R318, R377, R380).
-/
namespace Sys2Proof.Machine

/-! ## Lent ranges (R208) -/

/-- A lent range spills to its holder's backing and is zero-filled; one that an access of the owner reclaimed is touched then (R208).
The range's granules are empty: every spill counts as an owner's reclaim (R212; log 64). -/
def spillRange (s : State) (c m k : Nat) (l : Lend) (holder : Nat) : State :=
  match (s.ctxOf c).bind fun x => x.member m with
  | none => s
  | some mb =>
    let bytes := Memory.readN (mb.buf l.buf).cells l.off l.len
    let s := match s.ctxOf holder with
      | none => s
      | some h =>
        match (h.members.zipIdx.find? fun x => x.1.cluster == mb.cluster) with
        | none => s
        | some (hm, j) =>
          let s := s.putCtx (h.putMember j { hm with spilled := spilledOutside hm.spilled l ++ [(l.buf, l.off, bytes)] })
          s.movePoison fun x => match x with
            | .buf o om b off =>
              if o == c && om == m && b == l.buf && decide (l.off ≤ off ∧ off < l.off + l.len) then .buf holder j b (lendBase + off) else x
            | x => x
    let s := zeroRange s c m l.buf l.off l.len
    let s := s.updLend c m k fun l => { l with st := match l.st with
      | .owed _ => .touched
      | _ => .untouched }
    match s.ctxOf c with
    | some x => if l.buf == Buf.wb then s else setGranules s x m l.buf l.off l.len false
    | none => s

/-- The holder of a lent range no longer uses it: revoked, switched out or over. -/
def holderGone (s : State) (h : Nat) : Bool :=
  match s.ctxOf h with
  | none => true
  | some d => d.revoked || d.switch == .out || d.completed || d.ended.isSome

/-- R208: a range whose holder was revoked spills; one that an access of the owner has reclaimed spills whatever has become of its
holder. -/
def execLentRangeSpill (c m k : Nat) (s : State) : Out :=
  match (s.ctxOf c).bind fun x => x.member m with
  | none => .fault .noExecutor
  | some mb =>
    match mb.lends[k]? with
    | none => .fault .noExecutor
    | some l =>
      match l.st with
      | .lent h => if holderGone s h then done (spillRange s c m k l h) else wait s
      | .owed h => done (spillRange s c m k l h)
      | _ => wait s

/-- A range that is lent to a context, or was until an access of the owner reclaimed it, has not been spilled (R208). -/
def State.owesSpill (s : State) (k : Nat) : Bool :=
  s.ctxs.any fun c => c.members.any fun mb => mb.lends.any fun l => l.st == .lent k || l.st == .owed k

/-- Every lent range of an owner that leaves its clusters spills (log 24). -/
def spillAll (s : State) (c : Ctx) : State :=
  c.members.zipIdx.foldl (fun s (mb, m) =>
    mb.lends.zipIdx.foldl (fun s (l, k) => match l.st with
      | .lent h | .owed h => spillRange s c.id m k l h
      | _ => s) s) s

/-! ## Switching out (R314) -/

/-- The started commands of the copy engine or the fetch unit run to retirement (step 3). -/
def retireStarted (s : State) (c m : Nat) (g : Engine) : Nat → State
  | 0 => s
  | n + 1 =>
    match s.ctxOf c with
    | none => s
    | some x =>
      match popHead s x m g with
      | none => s
      | some (y, s1) => retireStarted (if g == .copy then cpyRetired m s1 x y else s1) c m g n

/-- The commands of a member that go to the engine dump: handed over and not started; matrix commands stay in the bank. -/
def dumpOf (mb : Member) (m : Nat) : List DumpEntry :=
  [Engine.copy, Engine.fetch, Engine.storage].flatMap fun g =>
    ((mb.queue g).filter fun x => x.st == .queued).map fun x => { esn := x.e.esn, eng := g, member := m, cmd := x.fresh, dropped := false }

/-- Dump entries in ESN order. -/
def insertDump (d : DumpEntry) : List DumpEntry → List DumpEntry
  | [] => [d]
  | x :: l => if x.cmd.e.seq ≤ d.cmd.e.seq then x :: insertDump d l else d :: x :: l
def sortDump (l : List DumpEntry) : List DumpEntry := l.foldl (fun acc d => insertDump d acc) []

/-- The member without the dumped commands and their scoreboard entries. -/
def Member.dumped (mb : Member) : Member :=
  let gone := fun (q : List Cmd) => q.filter fun x => x.st != .queued
  let keep := (mb.copyQ ++ mb.fetchQ ++ mb.storageQ).filter fun x => x.st != .queued
  { mb with copyQ := gone mb.copyQ, fetchQ := gone mb.fetchQ, storageQ := gone mb.storageQ,
            board := mb.board.filter fun b => keep.any fun x => x.e.seq == b.seq }

/-- Steps 5 to 7: the bank frozen and unbound, the lines drained, the view dropped, the image written; the context leaves its clusters.
DESIGN CHOICE (log 61): a fenced stack that holds the reserved top of a die takes its ash pool away; partition swaps and captures, whose
backing regions R18 does not name, go on there. -/
def finishSwitch (s : State) (k : Nat) : State :=
  match s.ctxOf k with
  | none => s
  | some c =>
  let s := if c.ash then s else spillAll s c
  let c := (s.ctxOf k).getD c
  let (s, c) := drainOut s c
  let c := c.dropView
  let c1 := { c with switch := .out, image := some (saveImage s c s.free), deferred := none, halting := false,
                     members := c.members.map fun mb => { mb with bank := { mb.bank with bound := !c.ash } } }
  { s.putCtx c1 with free := s.free + 1 }

/-- R314: steps 1 to 4, and the rest unless a PREEMPT handler is entered; `quiet` is a Crimson or an expired pre-emption. -/
def startSwitch (s : State) (k : Nat) (quiet : Bool) : State :=
  match s.ctxOf k with
  | none => s
  | some c =>
    let slept := (c.gen != .running && c.gen != .stopped) || (c.slept && c.switch == .rehanding)
    let (s, c) := unsleep s c
    let rows := c.rows.map fun r => { r.stopLate with windows := [], held := none }
    let s := s.putCtx { c with slept := slept, ir := none, halting := false, rows := rows }
    let s := c.members.zipIdx.foldl (fun s (mb, m) =>
      retireStarted (retireStarted s k m .copy mb.copyQ.length) k m .fetch mb.fetchQ.length) s
    match s.ctxOf k with
    | none => s
    | some c =>
      let c := { c with dump := sortDump ((c.dump.filter fun d => !d.handed) ++ c.members.zipIdx.flatMap fun (mb, m) => dumpOf mb m),
                        members := c.members.map Member.dumped }
      if c.tvec != 0 && !c.handler && !quiet then
        let t : Trap := { cause := .preempt, dom := .g, addr := Config.dumpAddress k c.base, pc := c.pc }
        enterTrap s { c with switch := .preempting, keyHold := some c.key } t
          { trap := t, row := none, eng := none, marker := false, afterExit := c.exited, resume := c.pc, skipLen := 0 }
      else finishSwitch (s.putCtx c) k

/-- R306: a pre-emption of one context: deferred while a handler is active, the PREEMPT handler of an earlier one too, unless a Crimson
launch causes it. -/
def preemptOne (s : State) (crimson : Bool) (k : Nat) : State :=
  match s.ctxOf k with
  | none => s
  | some c =>
    if c.handler && !crimson then
      (if c.deferred.isSome then s else s.putCtx { c with deferred := some s.realtime })
    else startSwitch s k crimson

/-- The context can be switched out: no row is inside a slot (R97), and no fault recorded at a switch waits for its report (R318). -/
def Ctx.switchable (c : Ctx) : Bool :=
  c.switch != .out && !c.completed && c.ended.isNone && !c.revoked && !c.midSlot &&
    (c.switch == .inside || c.switch == .rehanding || c.handler)

/-- R26: the partitions that contexts touch. -/
def partitionsOf (l : List Ctx) : List Nat := (l.flatMap fun c => c.members.map fun m => m.cluster / 4).eraseDups

/-- R26: with an owner, every other owner of the partitions that its gang touches, and so on. -/
def withNeighbours (s : State) : Nat → List Ctx → List Ctx
  | 0, l => l
  | n + 1, l =>
    let ps := partitionsOf l
    withNeighbours s n (s.ctxs.filter fun d => !d.ash && d.resident && d.ended.isNone && d.members.any fun m => ps.contains (m.cluster / 4))

/-- The contexts that a pre-emption of one switches out together. -/
def switchSet (s : State) (c : Ctx) : List Ctx := if c.ash then [c] else withNeighbours s s.ctxs.length [c]

/-- 20 µs in ac (R7, R306). -/
def deferLimit : Nat := 18800

/-- R306: a pre-emption that a handler has deferred for 20 µs is taken with the handler in place; one that the handler's return found with a
row inside a slot is taken behind that slot (R97). -/
def execPreemptDeferExpiry (k : Nat) (s : State) : Out :=
  match s.ctxOf k with
  | none => .fault .noExecutor
  | some c =>
    match c.deferred with
    | none => wait s
    | some t =>
      if !c.switchable then wait s
      else if !c.handler then done (startSwitch (s.putCtx { c with deferred := none }) k false)
      else if decide (deferLimit ≤ (s.realtime - t).toNat) then done (startSwitch s k true)
      else wait s

/-! ## Events -/

/-- An event is taken now (R295, R301). -/
def eventTrap (s : State) (c : Ctx) (cause : Cause) (addr : DWord) : State :=
  let t : Trap := { cause := cause, dom := .g, addr := addr, pc := c.pc }
  enterTrap s c t { trap := t, row := none, eng := none, marker := false, afterExit := false, resume := c.pc, skipLen := 0 }

/-- TIMER and DEADLINE can be delivered (R301, R298, R113): a trap vector is set, the generator has not stopped. -/
def Ctx.hearsEvents (c : Ctx) : Bool := c.tvec != 0 && c.gen != .stopped

/-- R380: what waited for the handler's return, in order; a fault recorded at a switch is reported first (R318). -/
def resumeEvents (s : State) (k : Nat) : State :=
  match s.ctxOf k with
  | none => s
  | some c =>
    if c.handler || c.ended.isSome || c.switch != .inside then s
    else if c.deferred.isSome then (if c.midSlot then s else startSwitch (s.putCtx { c with deferred := none }) k false)
    else if c.rows.any fun r => r.live && r.stop.isSome then s.putCtx { c with halting := true }
    else if !c.hearsEvents then s.putCtx { c with timerWaits := none, deadlineWaits := none }
    else
      match c.timerWaits, c.deadlineWaits with
      | some v, _ => eventTrap s { c with timerWaits := none } .timer v
      | none, some v => eventTrap s { c with deadlineWaits := none } .deadline v
      | none, none => s

/-- R281: a revoked ash context returns once aligned granules are free for all its rows, and behind the spill of what was lent to it
(R208, log 24). -/
def execAshResume (k : Nat) (s : State) : Out :=
  match s.ctxOf k with
  | none => .fault .noExecutor
  | some c =>
    if !(c.revoked && c.resident && c.ended.isNone) || s.owesSpill k then wait s
    else
      let base := ((c.member 0).map fun m => m.cluster).getD 0
      match placeGang s c.request base c.localsOf with
      | none => wait s
      | some gs => done (resumeEvents (s.putCtx { c.withGranules base gs with revoked := false }) k)

/-- R311: the slice of a class; Crimson has none. -/
def Slices.of (x : Slices) : TrafficClass → Nat
  | .crimson => 0
  | .normal => x.normal
  | .bulk => x.bulk
  | .ash => x.ash

/-- R311: CYCLE has reached a multiple of the slice since TIMER was last raised. -/
def Ctx.timerDue (c : Ctx) (slice : Nat) : Bool := slice != 0 && decide (c.lastTimer.toNat / slice < c.cycle.toNat / slice)

/-- R311: TIMER, with the multiple of the slice that CYCLE has reached; it waits while the gang halts. -/
def execTimer (k slice : Nat) (s : State) : Out :=
  match s.ctxOf k with
  | none => .fault .noExecutor
  | some c =>
    if slice != s.slices.of c.cls || !c.timerDue slice || !c.resident || c.ended.isSome || c.halting then wait s
    else
      let at' : DWord := BitVec.ofNat 64 (c.cycle.toNat / slice * slice)
      let c := { c with lastTimer := c.cycle }
      if c.handler then done (s.putCtx { c with timerWaits := some (c.timerWaits.getD at') })
      else if !c.hearsEvents then done (s.putCtx c)
      else if c.revoked || c.switch != .inside then done (s.putCtx { c with timerWaits := some at' })
      else done (eventTrap s c .timer at')

/-- R312: the deadline is disarmed, latch 2 set; a context that does not sleep for it takes DEADLINE. -/
def execDeadline (k : Nat) (s : State) : Out :=
  match s.ctxOf k with
  | none => .fault .noExecutor
  | some c =>
    match c.deadline with
    | none => wait s
    | some d =>
      if s.realtime.toNat < d.toNat || !c.resident || c.ended.isSome || c.halting then wait s
      else
        let asleep := match c.gen with
          | .sleepEvent m => m.getLsbD 2
          | _ => false
        let c := { c with deadline := none, latches := c.latches ||| 4 }
        if asleep then done (s.putCtx c)
        else if c.handler then done (s.putCtx { c with deadlineWaits := some d })
        else if !c.hearsEvents then done (s.putCtx c)
        else if c.revoked || c.switch != .inside then done (s.putCtx { c with deadlineWaits := some d })
        else done (eventTrap s c .deadline d)

/-! ## Restore (R317) -/

/-- A dump entry is handed over again, with the row registers that its first hand-over copied (log 81): its queue, and a new scoreboard
entry; none while there is no room (R317). -/
def rehandOne (s : State) (c : Ctx) (d : DumpEntry) : Option Ctx :=
  if d.dropped then some (dropVote c d.esn)
  else
    match d.cmd.e.item, c.member d.member with
    | .slot i, some mb =>
      let b := boardEntry s c d.member d.cmd.e i
      if b.isSome && decide (Config.scoreboard ≤ boardUsed s mb.cluster) then none
      else some (c.putMember d.member { mb.setQueue d.eng (mb.queue d.eng ++ [d.cmd]) with board := mb.board ++ b.toList })
    | _, _ => some c

/-- An entry of the dump has been handed over again. -/
def Ctx.handedAgain (c : Ctx) (d : DumpEntry) : Ctx := { c with dump := mapIf (fun x => x == d) (fun x => { x with handed := true }) c.dump }

/-- The entries handed over in ESN order, as far as the scoreboard has room. -/
def rehand (k : Nat) : List DumpEntry → State → State
  | [], s => s
  | d :: rest, s =>
    match s.ctxOf k with
    | none => s
    | some c =>
      match rehandOne s c d with
      | none => s
      | some c => rehand k rest (s.putCtx (c.handedAgain d))

/-- R377, R312: latches 0 and 1, and a deadline that passed while the context was switched out. -/
def Ctx.wakeUp (c : Ctx) (now : DWord) : Ctx :=
  let c := { c with latches := c.latches ||| 3, switch := .inside }
  match c.deadline with
  | none => c
  | some d =>
    if now.toNat < d.toNat then c
    else { c with deadline := none, latches := c.latches ||| 4, deadlineWaits := some d }

/-- The leader's fetch handles, which the image holds, on every member (R99, R360). -/
def Ctx.sameHandles (c : Ctx) : Ctx :=
  match c.member 0 with
  | none => c
  | some l => { c with members := c.members.map fun mb => { mb with handles := l.handles } }

/-- Step 3 and 4 of R317. -/
def finishRestore (s : State) (k : Nat) : State :=
  match s.ctxOf k with
  | none => s
  | some c =>
    let s := rehand k (c.dump.filter fun d => !d.handed) s
    match s.ctxOf k with
    | none => s
    | some c => if c.dump.all fun d => d.handed then resumeEvents (s.putCtx (c.wakeUp s.realtime)) k else s

/-- Behind the RESTORE handler, or where none is entered: a fault recorded at the switch is reported before step 3 (R318), under a handler
that was active at the save as a double fault (R305); rows that an L or X trap holds stopped wait for its return (R299). -/
def continueRestore (s : State) (k : Nat) : State :=
  match s.ctxOf k with
  | none => s
  | some c =>
    match (if c.handling.any fun h => h.trap.dom == .l || h.trap.dom == .x then none else c.reported) with
    | some (r, _, t) => if c.handler then doubleFault s c r.member t else s.putCtx { c with halting := true }
    | none => finishRestore (s.putCtx { c with switch := .rehanding }) k

/-- The owners that were switched out together with a context, which return together (R26). -/
def swapSet (s : State) (c : Ctx) : List Ctx :=
  if c.swap.isNone then [c]
  else s.ctxs.filter fun d => d.swap == c.swap && d.switch == .out && !d.completed && d.ended.isNone

/-- One of them has not left its clusters yet (R306). -/
def swapOpen (s : State) (c : Ctx) : Bool :=
  c.swap.isSome && s.ctxs.any fun d => d.swap == c.swap && d.switch != .out && !d.completed && d.ended.isNone

/-- Where the contexts of a set go when `c` goes to a base: all by the same distance. -/
def movedBase (c : Ctx) (base : Nat) (d : Ctx) : Nat := (d.base + base + Config.clusters - c.base) % Config.clusters

/-- R192: an ash context's saved bank is bound again when bank 1 of the cluster is free; else its matrix commands wait for it. -/
def Ctx.rebound (s : State) (c : Ctx) : Ctx :=
  { c with members := c.members.map fun mb =>
      if mb.bank.used && bankFor s c mb then { mb with bank := { mb.bank with bound := true } } else mb }

/-- The contexts placed at their bases, none when one of them does not fit there (R25, R26, R317). -/
def placeSet (base : Ctx → Nat) : List Ctx → State → Option State
  | [], s => some s
  | c :: rest, s =>
    match placeGang s c.request (base c) c.localsOf with
    | none => none
    | some gs =>
      let s := evictAsh s c.request (base c) c.members.length
      let c := (c.withGranules (base c) gs).sameHandles.rebound s
      placeSet base rest (s.putCtx { c.dropView with switch := .restoring, image := none, swap := none })

/-- A set of contexts restored when `c` goes to a base: several of them by whole partitions, so that those of one partition stay in one
(R26). -/
def restoreSet (s : State) (c : Ctx) (base : Nat) (l : List Ctx) : Option State :=
  if decide (1 < l.length) && base % 4 != c.base % 4 then none else placeSet (movedBase c base) l s

/-- R317: the RESTORE handler entered, or the dump handed over. -/
def enterRestore (s : State) (k : Nat) : State :=
  match s.ctxOf k with
  | none => s
  | some c =>
    if c.tvec != 0 && !c.handler then
      let t : Trap := { cause := .restore, dom := .g, addr := Config.dumpAddress k c.base, pc := c.pc }
      enterTrap s { c with keyHold := some c.key } t
        { trap := t, row := none, eng := none, marker := false, afterExit := c.exited, resume := c.pc, skipLen := 0 }
    else continueRestore s k

/-- R104: an image that fails its checks ends its context alone, and is reported. -/
def rejectImage (s : State) (c : Ctx) : State :=
  let leader := c.base
  let c := { c with members := c.members.map fun mb => { mb with bank := { mb.bank with queue := [] } }, dump := [] }
  endContext (post s leader (c.cls == .crimson) (.imgbad c.id)) c 2 0x21 0 0

/-- R317, R26: the images of a context and of the owners that left with it are checked, the clusters taken, once there are permits to tell
their leaf controllers (R263) and behind the spill of what was lent to it (R208, log 24), the RESTORE handlers entered, the dumps handed over. -/
def execRestore (k base : Nat) (s : State) : Out :=
  match s.ctxOf k with
  | none => .fault .noExecutor
  | some c =>
    match c.switch with
    | .out =>
      if c.completed || c.ended.isSome || swapOpen s c || (swapSet s c).any (fun d => s.owesSpill d.id) then wait s
      else
        let l := swapSet s c
        match l.find? fun d => !(d.image.any imageOk) with
        | some d => done (rejectImage s d)
        | none =>
          let leaves := l.flatMap fun d => leavesAt (movedBase c base d) d.members.length
          let crimson := c.cls == .crimson
          if !orderRoom s leaves crimson then wait s
          else
          match restoreSet (sendOrders s leaves crimson (.restore k)) c base l with
          | none => wait s
          | some s1 => done (l.foldl (fun s d => enterRestore s d.id) s1)
    | .rehanding =>
      if c.ended.isSome then wait s
      else
        let s1 := finishRestore s k
        if s1 == s then wait s else done s1
    | _ => wait s

end Sys2Proof.Machine
end

