-- ==== Sys2Proof/Machine/Trap.lean ====
section
/-!
DEFINITION. Carry sends between members (R49-R52), the entry into a trap after a gang halt (R298, R299, R301), engine faults after
EXIT (R308), GRTE (R303, R304, R379, R380) and the completion of a dispatch (R30, R240, R268, R307).
-/
namespace Sys2Proof.Machine

/-! ## Carries between members -/

/-- A register instance that a consumer on the next member needs. -/
structure Need where
  e : Entry
  consumer : Nat
  operandB : Bool
  reg : Nat
  producer : Nat

/-- What the rows of member `m + 1` need from member `m` for one entry, in the order of R49, and of one operand in
register order: a group of registers is one entry for each of them, the register being a further part of the key (log 72). -/
def needsOf (c : Ctx) (m : Nat) (e : Entry) : List Need :=
  match e.item with
  | .marker _ => []
  | .slot i =>
    (c.memberRows (m + 1)).flatMap fun r =>
      if c.passedBy r e then []
      else
        let one := fun (b : Bool) (k : Nat) (regs : List Nat) =>
          if k != 0 && decide (k ≤ r.item) && (r.item - k) / c.rowCount == m then
            regs.map fun x => ({ e := e, consumer := r.item, operandB := b, reg := x, producer := r.item - k } : Need)
          else []
        one false e.kA i.vaRegs ++ one true e.kB i.vbRegs

/-- The instance is in the consumer's inbox. -/
def Need.sent (inbox : List InboxEntry) (n : Need) : Bool :=
  inbox.any fun x => x.seq == n.e.seq && x.consumer == n.consumer && x.operandB == n.operandB && x.reg == n.reg

/-- The instance itself, once the producer has completed the slot or had retired before it. -/
def Need.value (s : State) (c : Ctx) (n : Need) : Option (Lanes × LaneMask) :=
  match c.kept.find? fun x => x.seq == n.e.seq && x.item == n.consumer && x.operandB == n.operandB && x.reg == n.reg with
  | some x => some (x.lanes, x.bad)
  | none =>
    match (c.rowOf n.producer).bind fun q => q.retired with
    | some z =>
      if z.seq ≤ n.e.seq then
        some (((z.regs.find? fun d => d.1 == n.reg).map fun d => d.2).getD (Lanes.fill 0), s.laneMask c.id n.producer n.reg)
      else none
    | none => none

/-- R49: member `m` sends the first instance that it has not sent, when it is there and the inbox has room. -/
def execCarrySend (k m : Nat) (s : State) : Out :=
  match s.ctxOf k with
  | none => .fault .noExecutor
  | some c =>
    match c.member (m + 1) with
    | none => wait s
    | some mb =>
      match (c.stream.flatMap (needsOf c m)).find? fun n => !n.sent mb.inbox with
      | none => wait s
      | some n =>
        match n.value s c with
        | none => wait s
        | some (v, bad) =>
          if !c.rowsMove || decide (Config.inboxDepth ≤ mb.inbox.length) then wait s
          else
            let x : InboxEntry := { seq := n.e.seq, consumer := n.consumer, operandB := n.operandB, reg := n.reg, lanes := v, bad := bad }
            let c := c.putMember (m + 1) { mb with inbox := mb.inbox ++ [x] }
            done (s.putCtx { c with kept := c.kept.filter fun y =>
              !(y.seq == n.e.seq && y.item == n.consumer && y.operandB == n.operandB && y.reg == n.reg) })

/-! ## Trap entry -/

/-- The engine whose queue a command's fault stopped, on a member. -/
def engineOfFault (c : Ctx) (m : Nat) (esn : BitVec 48) : Engine :=
  match c.member m with
  | none => .matrix
  | some mb =>
    let hit := fun (q : List Cmd) => q.any fun x => x.failed && x.e.esn == esn
    if hit mb.copyQ then .copy else if hit mb.fetchQ then .fetch else if hit mb.storageQ then .storage else .matrix

/-- R299, R301: every row has stopped; the chosen fault is reported and the handler entered, or the context killed. -/
def execTrapEntry (k : Nat) (s : State) : Out :=
  match s.ctxOf k with
  | none => .fault .noExecutor
  | some c =>
    if !c.halting || c.ended.isSome || c.revoked || !(c.switch == .inside || c.switch == .restoring) || c.midSlot then wait s
    else
      let c := c.stopLate
      match c.reported with
      | none => done (s.putCtx { c with halting := false })
      | some (r, _, t) =>
        let eng := if t.dom == .x then some (r.member, engineOfFault c r.member t.esn) else none
        done (enterTrap s c t { trap := t, row := some r.item, eng := eng, marker := false, afterExit := c.gen == .stopped,
                                resume := c.pc, skipLen := 0 })

/-- A command waits for a scoreboard entry of its context (R188, R210). -/
def Member.blocked (mb : Member) (x : Cmd) : Bool :=
  (mb.board.any fun b => b.seq == x.e.seq && !boardClear mb b) || match x.e.item with
    | .slot i => (matrixRanges i).1.any fun r => r.sp != .buf .cb && !offBoard mb r
    | .marker _ => false

/-- A queue is empty or has stopped: nothing of it runs, and what stands before its fault waits for an entry (R308; log 80). -/
def Member.queueOver (mb : Member) (g : Engine) : Bool :=
  ((mb.queue g).all fun x => x.st != .started) && (turnCmds mb g false).all mb.blocked
def Member.queuesOver (mb : Member) : Bool := [Engine.copy, .fetch, .storage, .matrix].all mb.queueOver

/-- The faults that stop queues and those of flag writes, with their member and engine. -/
def Ctx.queueFaults (c : Ctx) (s : State) : List (Nat × Nat × Engine × Trap) :=
  c.members.zipIdx.flatMap fun (mb, m) =>
    ([Engine.copy, .fetch, .storage, .matrix].filterMap fun g => (queueFault (mb.queue g)).map fun (x, t) => (x.e.seq, m, g, t)) ++
      ((flagFault s c m).map fun (h, t) => (h.seq, m, Engine.matrix, t)).toList

/-- R308: after EXIT a fault that nothing raised is taken, the one of lowest ESN first; no row is stopped, TMASK is 0. -/
def execEngineFaultAfterExit (k : Nat) (s : State) : Out :=
  match s.ctxOf k with
  | none => .fault .noExecutor
  | some c =>
    if c.gen != .stopped || !c.liveRows.isEmpty || !c.intake.isEmpty || c.handler || !c.active || c.halting || c.completed ||
        !(c.members.all Member.queuesOver) then wait s
    else
      match leastBy2 (fun x => (x.1, x.2.1)) (c.queueFaults s) with
      | none => wait s
      | some (_, m, g, t) =>
        let t := { t with mask := 0 }
        done (enterTrap s c t { trap := t, row := none, eng := some (m, g), marker := false, afterExit := true, resume := c.pc, skipLen := 0 })

/-! ## GRTE -/

/-- The handling in force; a handler without one (no run has it) resumes at TPC. -/
def Ctx.handlingNow (c : Ctx) : Handling :=
  let plain : Handling := { trap := { cause := .gtrap, dom := .g, pc := c.tpc }, row := none, eng := none, marker := false,
                            afterExit := false, resume := c.tpc, skipLen := 1 }
  c.handling.getD plain

/-- The resume PC (R303). -/
def Handling.resumePc (h : Handling) (skip : Bool) : DWord :=
  match h.trap.dom with
  | .l | .x => h.resume
  | _ => if skip && !h.marker && !h.trap.cause.isEvent then h.trap.pc + BitVec.ofNat 64 h.skipLen else h.trap.pc

/-- R345: the marker that raised the machine check takes effect with the default unchanged. -/
def Ctx.skipMarker (c : Ctx) : Ctx :=
  match c.stream.find? Entry.isMarker with
  | some e => { c with stream := c.stream.filter fun x => x.seq != e.seq }.settle
  | none => c

/-- R303: `.skip` of a lane fault: the reported row treats its slot as predicated off. -/
def skipRowSlot (s : State) (k item : Nat) : State :=
  match s.ctxOf k with
  | none => s
  | some c =>
    match c.rowOf item with
    | none => s
    | some r =>
      match c.nextEntry r with
      | some e =>
        (match e.item with
          | .slot i => if r.live then passSlot s c r e i else s
          | .marker _ => s)
      | none => s

/-- A row whose fault is no longer kept (R299). -/
def Row.unstopped (r : Row) : Row := { r with stop := none }

/-- The return with retry or skip: queues and rows, then what R380 and the switch go on with. -/
def grteResume (s : State) (c : Ctx) (skip : Bool) : State :=
  let h := c.handlingNow
  let lx := h.trap.dom == .l || h.trap.dom == .x
  let c := if lx then resumeQueues c skip else c
  let c := { c with priv := false, handler := false, ir := none, genCount := c.genCount + 1, handling := none, pc := h.resumePc skip,
                    gen := if h.afterExit then .stopped else .running,
                    rows := if lx then c.rows.map Row.unstopped else c.rows }.resumeKey
  let c := if skip && h.marker then c.skipMarker else c
  let s := s.putCtx c.settle
  let s := if lx then relist s c else s
  let s := match h.row with
    | some item => if skip && h.trap.dom == TrapDom.l then skipRowSlot s c.id item else s
    | none => s
  match c.switch with
  | .preempting => finishSwitch s c.id
  | .restoring => continueRestore s c.id
  | _ => resumeEvents s c.id

/-- R379: the checks, the wait for inspection slots and for the markers behind them (R337), then the choice. -/
def grte (s : State) (f : Ctx → State) : Out :=
  withCtx s fun c =>
    if !c.priv then genFault s c .privf 0
    else if !c.handler then genFault s c .hstate 0
    else if !c.channel.isEmpty then wait s
    else done (f c)

def execGrteRetry (s : State) : Out := grte s fun c => grteResume s c false
def execGrteSkip (s : State) : Out := grte s fun c => grteResume s c true

/-- R304: the dispatch ends with STATUS 3 and TCAUSE.CODE as its reason. -/
def execGrteDiscard (s : State) : Out :=
  grte s fun c => endContext s { discardVotes c with genCount := c.genCount + 1 } 3 (c.tcause.truncate 8) c.tcause c.tesn

/-! ## Completion -/

/-- A record written at a virtual address of a domain, whatever its alignment; one that does not translate is dropped (log 25). -/
def writeRecord (s : State) (domain : Nat) (va : DWord) (ws : List DWord) : State :=
  match translateN s domain true .store va.toNat 64 with
  | .error _ => s
  | .ok ls => s.perform (ls.zip (dwordBytes ws))

/-- The row flags of a dispatch (R153). -/
def Ctx.allFlags (c : Ctx) : BitVec 8 := c.rows.foldl (fun f r => f ||| r.flags) 0

/-- RETIRED summed over the members (R93). -/
def Ctx.retiredSum (c : Ctx) : Nat := (c.members.zipIdx.map fun x => c.retiredCount x.2).sum

/-- R268: the fields count up to the end of the dispatch.  DESIGN CHOICE (log 25): +24 and +32 hold CYCLE and device time also under Monochrome
mode, where R93 has CSRR read RETIRED; for STATUS 2 and 3 CYCLE stands since the kill, and REALTIME is that of the record's writing. -/
def completionWords (s : State) (c : Ctx) : List DWord :=
  let (st, tcause, tesn) := match c.ended with
    | none => ((0 : DWord), (0 : DWord), (0 : DWord))
    | some e => (e.status.zeroExtend 64 ||| (e.reason.zeroExtend 64 <<< 8), e.tcause, e.tesn)
  [st, c.allFlags.zeroExtend 64, BitVec.ofNat 64 c.retiredSum, c.cycle, s.realtime, tcause, tesn, 0]

/-- R307: nothing of the context is left to run. -/
def Ctx.over (c : Ctx) : Bool :=
  !c.completed && c.gen == .stopped && !c.handler && !c.halting && c.liveRows.isEmpty && c.intake.isEmpty && c.stream.isEmpty &&
    (c.switch == .inside || c.ended.isSome) &&
    c.members.all fun mb => mb.holds.isEmpty && mb.copyQ.isEmpty && mb.fetchQ.isEmpty && mb.storageQ.isEmpty && mb.bank.queue.isEmpty

/-- R208: the ranges that an owner has lent or touched are its own and untouched once its dispatch ends; nothing spills then. -/
def Ctx.endLends (c : Ctx) : Ctx :=
  { c with members := c.members.map fun mb => { mb with lends := mb.lends.map fun l => { l with st := .untouched } } }

/-- R268, R240: every line drained (in Monochrome order, R290) and performed, the record written, the generator slot free.  The record waits
for every line of the dispatch that a port has accepted, also at a port without a link (log 84). -/
def execDispatchCompletion (k : Nat) (s : State) : Out :=
  match s.ctxOf k with
  | none => .fault .noExecutor
  | some c =>
    if !c.over || linesHeld s c then wait s
    else
      let d := drainCtx s c
      let s1 := flushPorts d.1
      if s1.accepted.any fun a => a.owner == c.id then
        (if c.members.all fun mb => mb.psb.isEmpty then wait s else done (d.1.putCtx d.2))
      else
        let s2 := s1.putCtx { d.2.endLends with completed := true }
        done (writeRecord s2 c.domain c.compl (completionWords s2 d.2))

end Sys2Proof.Machine
end

