-- ==== Sys2Proof/Machine/Launch.lean ====
section
/-!
DEFINITION. Launch records (R22, R37, R39, R132, R215, R265, R267), the start of a dispatch (R23, R27, R94, R266, R280, R281,
R288) and what the scheduler turns to next (R278, R281).
-/
namespace Sys2Proof.Machine

/-! ## Records -/

/-- The bytes of a record that the scheduler or the firmware reads at home: at a physical address for queue 0, else at a
virtual address of the queue's domain; none when a page fails (log 26) or a word is poisoned.  DESIGN CHOICE (log 26): the check as a CPY
source (R275) is that of the pages, not the alignment to 4 bytes of R347, so that the descriptor of QENABLE may stand anywhere. -/
def readRecord (s : State) (domain : Option Nat) (a n : Nat) : Option (List Byte) :=
  let locs : Option (List GLoc) := match domain with
    | none =>
      let ls := (List.range n).map fun k => (⟨a + k, false⟩ : GLoc)
      if ls.all fun l => decide (l.pa < 2 ^ 52) && paMappable s.fenced l.pa then some ls else none
    | some d => (translateN s d true .load a n).toOption
  match locs with
  | none => none
  | some ls => if s.poison != [] && ls.any (fun l => s.memPoisoned (l.on 0)) then none else some (homeRead s.mem 0 ls)

/-- Errors counted in a queue's ERRCNT (R273, R277, R320). -/
def countError (s : State) (q : Nat) : State :=
  let v := ((s.errcnt.find? fun x => x.1 == q).map fun x => x.2).getD 0
  { s with errcnt := (s.errcnt.filter fun x => x.1 != q) ++ [(q, v + 1)] }

/-- The queue's slot HEAD is committed: its number. -/
def headSlot (s : State) (q : Nat) : Option DevQueue :=
  (s.queueOf q).bind fun x => if x.committed.contains x.head then some x else none

/-! ## The checks of a launch -/

/-- R39: levels as (count, domain, scope), innermost first. -/
def levelsOk (rows : Nat) (l : List (Nat × Nat × Nat)) : Bool :=
  decide (1 ≤ l.length ∧ l.length ≤ 8) &&
    (l.all fun x => decide (1 ≤ x.1 ∧ x.1 ≤ 65535 ∧ x.2.1 ≤ 5 ∧ x.2.2 ≤ 6 ∧ x.2.1 ≤ x.2.2)) &&
    ((l.zip (l.drop 1)).all fun x => decide (x.1.2.1 ≤ x.2.2.1)) &&
    ((l.filter fun x => decide (x.2.1 ≤ 1)).foldl (fun n x => n * x.1) 1) == rows

/-- Bytes of the ash pool that a member of an ash context takes (R215, log 19). -/
def Ctx.poolShare (c : Ctx) : Nat :=
  let size := fun (f : Member → Nat) => ((c.member 0).map f).getD 0
  Config.ashSpace c.rowCount c.regCount c.carried.length (size fun m => m.wb.size) (size fun m => m.ab.size) (size fun m => m.cb.size)

def LaunchRec.poolShare (p : LaunchRec) : Nat := Config.ashSpace p.rows p.regs p.kernel.carry.length p.wb p.ab p.cb

/-- R215: the ash pools of the dies have space for a gang at a base, beside the ash contexts and the accepted ash launches that wait; none
where the stack that holds the pool is fenced (R18). -/
def poolOk (s : State) (p : LaunchRec) (base : Nat) : Bool :=
  p.cls != .ash || (List.range 4).all fun die =>
    let onDie := fun (gang base : Nat) => ((List.range gang).filter fun m => dieOf (clusterOf base m) == die).length
    let held := ((s.ctxs.filter fun c => c.ash && !c.completed).map fun c =>
      (c.members.filter fun m => dieOf m.cluster == die).length * c.poolShare).sum
    let taken := ((s.waiting.filter fun w => w.params.cls == .ash).map fun w => onDie w.params.gang w.pool * w.params.poolShare).sum
    let new := onDie p.gang base
    new == 0 || (!topFenced s.fenced die && decide (held + taken + new * p.poolShare ≤ Config.ashPool))

/-- Bases at which a gang stands on unfenced clusters (R25). -/
def wholeBases (s : State) (gang : Nat) : List Nat :=
  (List.range Config.clusters).filter fun b => baseOk b gang && (List.range gang).all fun m => s.whole (clusterOf b m)

/-- A field of a launch record that takes the kernel's value when it is `dflt`. -/
def orElse (v dflt k : Nat) : Nat := if v == dflt then k else v

def classOf (n : Nat) (k : TrafficClass) : TrafficClass :=
  match n with
  | 1 => .crimson
  | 2 => .normal
  | 3 => .bulk
  | 4 => .ash
  | _ => k

/-- The parameters in force (R265, R132). -/
def launchRec (k : Kernel) (bs : List Byte) : LaunchRec :=
  let size := fun (off dflt : Nat) => orElse (fld bs off 4) 0xFFFFFFFF dflt
  let queue := fun (n : Nat) => if fld bs (48 + 2 * n) 2 == 0xFFFF then none else some (fld bs (48 + 2 * n) 2)
  let tvec := fld bs 112 8
  { kernel := k
    gang := orElse (fld bs 12 2) 0 k.gang
    rows := orElse (fld bs 14 1) 0 k.rows
    regs := orElse (8 * fld bs 15 1) 0 k.regs
    cls := classOf (fld bs 16 1) k.cls
    mono := if fld bs 17 1 == 0 then k.mono else fld bs 17 1 == 2
    monoGroup := fld bs 18 1
    wb := size 20 k.wb
    ab := size 24 k.ab
    cb := size 28 k.cb
    seed := BitVec.ofNat 64 (fld bs 32 8)
    compl := BitVec.ofNat 64 (fld bs 40 8)
    queues := Vector.ofFn fun n => queue n.val
    tvec := if tvec == 0 then (k.handler.map fun h => k.entry + h).getD 0 else if tvec == 2 ^ 64 - 1 then 0 else BitVec.ofNat 64 tvec
    params := (List.range 16).map fun n => BitVec.ofNat 64 (fld bs (128 + 8 * n) 8) }

/-- The levels in force; none when the default hierarchy of R39 applies. -/
def launchLevels (k : Kernel) (bs : List Byte) : Option (List (Nat × Nat × Nat)) :=
  let n := fld bs 19 1
  if n == 0 then (if k.levels.isEmpty then none else some k.levels)
  else some ((List.range (min n 8)).map fun j =>
    let w := fld bs (80 + 4 * j) 4
    (w % 65536, w / 2 ^ 16 % 8, w / 2 ^ 19 % 8))

/-- R267: the checks after CODEBAD, in table order; the code of the first reason. -/
def launchRefusal (s : State) (domain : Nat) (p : LaunchRec) (bs : List Byte) : Option Nat :=
  let perBlock := (p.rows + 3) / 4 * p.regs
  let sizeBad := fun (n cap : Nat) => n % 4096 != 0 || decide (cap < n)
  let lendBad := fun (l : Buf × Nat × Nat) => decide ((match l.1 with
    | .wb => p.wb
    | .ab => p.ab
    | .cb => p.cb) < l.2.1 + l.2.2)
  if p.rows < 1 ∨ 32 < p.rows then some 0x01
  else if p.regs % 8 != 0 || decide (p.regs < 8) || decide (256 < p.regs) || (p.kernel.carry.any fun r => decide (p.regs ≤ r)) ||
      decide (1024 < perBlock) then some 0x02
  else if decide (8 < fld bs 19 1) || !((launchLevels p.kernel bs).all (levelsOk p.rows)) then some 0x03
  else if p.kernel.mmrev != 1 && p.kernel.mmrev != 2 then some 0x04
  else if p.cls == .ash && (decide (256 < perBlock) || p.mono || !((wholeBases s p.gang).isEmpty || (wholeBases s p.gang).any (poolOk s p)))
    then some 0x05
  else if p.gang < 1 ∨ (wholeBases s p.gang).isEmpty then some 0x06
  else if sizeBad p.wb (4 * 2 ^ 20) || sizeBad p.ab (4 * 2 ^ 20) || sizeBad p.cb (3 * 2 ^ 19) || p.kernel.lends.any lendBad then some 0x08
  else if p.queues.toList.any fun q => match q with
    | none => false
    | some n => n == 0 || !((s.queueOf n).any fun x => x.domain == some domain) then some 0x09
  else if fld bs 120 8 != 0 || decide (4 < fld bs 16 1) || decide (2 < fld bs 17 1) ||
      ((List.range 8).any fun j => fld bs (80 + 4 * j) 4 / 2 ^ 22 != 0) then some 0x0A
  else none

/-- The kernel that a record names, in a code object that passed translation (R265, R291). -/
def launchKernel (s : State) (domain : Nat) (bs : List Byte) : Option Kernel :=
  if fld bs 0 8 % 4096 != 0 then none
  else (s.code.find? fun o => o.domain == domain && o.va == fld bs 0 8).bind fun o => o.kernels[fld bs 8 4]?

/-- A refused launch: the completion record of R268, and the slot released. -/
def refuseLaunch (s : State) (domain q slot : Nat) (bs : List Byte) (reason : Nat) : State :=
  releaseSlot (writeRecord s domain (BitVec.ofNat 64 (fld bs 40 8)) [BitVec.ofNat 64 (1 + reason * 256), 0, 0, 0, s.realtime, 0, 0, 0]) q slot

/-- R267: the scheduler takes the record of slot HEAD and refuses it or lets it wait for its placement. -/
def execLaunch (q : Nat) (s : State) : Out :=
  match headSlot s q with
  | none => wait s
  | some dq =>
    match dq.consumer, dq.domain with
    | .launch, some d =>
      if s.phase != .running then wait s
      else
        let s1 := takeHead s dq
        match readRecord s1 (some d) (dq.slotAddr dq.head) 256 with
        | none => done (releaseSlot (countError s1 q) q dq.head)
        | some bs =>
          match launchKernel s1 d bs with
          | none => done (refuseLaunch s1 d q dq.head bs 0x07)
          | some k =>
            let p := launchRec k bs
            match launchRefusal s1 d p bs with
            | some reason => done (refuseLaunch s1 d q dq.head bs reason)
            | none =>
              done { s1 with waiting := s1.waiting ++ [{ k := s1.nextId, queue := q, slot := dq.head, domain := d, rank := s1.nextRank,
                                                         reported := false, params := p,
                                                         pool := ((wholeBases s1 p.gang).find? (poolOk s1 p)).getD 0 }],
                             nextId := s1.nextId + 1, nextRank := s1.nextRank + 1 }
    | _, _ => wait s

/-! ## The start of a dispatch -/

/-- Seed of R266. -/
def seedOf (seed : DWord) (x : Nat) : DWord :=
  let z := seed + BitVec.ofNat 64 (x + 1) * 0x9E3779B97F4A7C15#64
  let z := (z ^^^ (z >>> 30)) * 0xBF58476D1CE4E5B9#64
  let z := (z ^^^ (z >>> 27)) * 0x94D049BB133111EB#64
  let z := z ^^^ (z >>> 31)
  if z == 0 then 1 else z

/-- A row at the start of a dispatch (R27). -/
def freshRow (p : LaunchRec) (item member granule : Nat) : Row :=
  { item := item, member := member, granule := granule, regs := List.replicate p.regs ⟨Lanes.fill 0, .u⟩,
    preds := Vector.replicate 16 0, mask := BitVec.allOnes 64, rng := Vector.ofFn fun l => seedOf p.seed (item * 64 + l.val), flags := 0,
    issue := 0, windows := [], retired := none, stop := none }

/-- A member at the start of a dispatch (R94, R205, R208, R212).  DESIGN CHOICE (log 33): a launch record that makes a kernel with `.lend`
ranges an ash context is accepted and its ranges are dropped, since an ash context lends nothing. -/
def freshMember (p : LaunchRec) (cluster : Nat) : Member :=
  let buf := fun (n : Nat) => ({ size := n, cells := [], full := 0 } : BufMem)
  { cluster := cluster, wb := buf p.wb, ab := buf p.ab, cb := buf p.cb,
    lends := if p.cls == .ash then [] else p.kernel.lends.map fun l => ⟨l.1, l.2.1, l.2.2, .untouched⟩,
    spilled := [], handles := Vector.replicate 64 0, bank := freshBank (p.cls == .ash), copyQ := [], fetchQ := [], storageQ := [],
    board := [], handed := 0, holds := [], psb := [], view := [], inbox := [] }

/-- The registers that `.param` names take their words; `g0` reads zero anyway. -/
def paramRegs (p : LaunchRec) : Vector DWord 64 :=
  (p.kernel.params.zip p.params).foldl (fun g x => g.setIfInBounds x.1.toNat x.2) (Vector.replicate 64 0)

/-- A context at the start of its dispatch (R94, R95, R265). -/
def freshCtx (w : Waiting) (base : Nat) (gs : List (List Nat)) : Ctx :=
  let p := w.params
  { id := w.k, domain := w.domain, cls := p.cls, mono := p.mono, monoGroup := p.monoGroup, monoRank := w.rank, mm1 := p.kernel.mmrev == 1,
    rowCount := p.rows, regCount := p.regs, kbase := p.kernel.entry, rodata := p.kernel.rodata, compl := p.compl, launchQueue := w.queue,
    launchSlot := w.slot, queues := p.queues, taken := [], carried := p.kernel.carry, gen := .running, g := paramRegs p, f := 0,
    lc := Vector.replicate 3 0, h := Vector.replicate 16 0, rstack := [], pc := p.kernel.entry, ir := none, nextEsn := 1, nextSeq := 0,
    ck1 := 1, ck2 := 1, rmax := 0xFFFF, beta := 0x7C00, dense := false, priv := false, handler := false, tvec := p.tvec, tcause := 0,
    tesn := 0, taddr := 0, tmask := 0, tpc := 0, cycle := 0, genCount := 0, emitCount := 0, fed := 0, latches := 0, deadline := none,
    timerWaits := none, deadlineWaits := none, lastTimer := 0, vq := [], streams := Vector.replicate 8 ⟨0, 0, false, false, 0⟩,
    stretches := [], nextContent := 0, intake := [], stream := [], channel := [],
    defaults := p.kernel.carry.map fun r => (r, Lanes.fill 0), kept := [],
    rows := gs.zipIdx.flatMap fun (l, m) => l.zipIdx.map fun (g, j) => freshRow p (m * p.rows + j) m g,
    members := (List.range p.gang).map fun m => freshMember p (clusterOf base m), handling := none, halting := false, deferred := none,
    switch := .inside, slept := false, image := none, dump := [], revoked := false, ended := none, completed := false }

/-- What a waiting launch asks of the lane blocks.  DESIGN CHOICE (log 66): a Crimson or Monochrome launch that only ash contexts stand against
takes its place and revokes them at once (R36, R288), so that it does not wait and reports no FRAGWAIT (R281). -/
def Waiting.request (w : Waiting) : Request :=
  let p := w.params
  { self := w.k, domain := w.domain, ash := p.cls == .ash, mono := p.mono, evicts := p.cls != .ash && (p.cls == .crimson || p.mono),
    regs := p.regs, wb := p.wb, ab := p.ab, cb := p.cb }

/-- Where a waiting launch fits at a base (R280, R36, R288, R215). -/
def Waiting.fits (s : State) (w : Waiting) (base : Nat) : Option (List (List Nat)) :=
  if poolOk { s with waiting := s.waiting.filter fun x => x.k != w.k } w.params base then placeGang s w.request base (List.replicate w.params.gang (List.range w.params.rows)) else none

/-- The first base at which a waiting launch fits. -/
def Waiting.base? (s : State) (w : Waiting) : Option Nat :=
  (List.range Config.clusters).find? fun b => (w.fits s b).isSome

/-- R280, R281: the launch is placed at the base, once there are permits to tell its leaf controllers (R263), and its dispatch starts;
FRAGWAIT once when it fits nowhere. -/
def execLaunchPlacement (k base : Nat) (s : State) : Out :=
  match s.waiting.find? fun w => w.k == k with
  | none => .fault .noExecutor
  | some w =>
    match w.fits s base with
    | some gs =>
      let leaves := leavesAt base w.params.gang
      if !orderRoom s leaves (w.params.cls == .crimson) then wait s
      else
      let s1 := evictAsh (sendOrders s leaves (w.params.cls == .crimson) (.place k)) w.request base w.params.gang
      let s1 := { s1 with ctxs := s1.ctxs ++ [freshCtx w base gs], waiting := s1.waiting.filter fun x => x.k != k }
      done (releaseSlot s1 w.queue w.slot)
    | none =>
      if w.reported || (w.base? s).isSome then wait s
      else
        let told := post s (clusterOf base 0) (w.params.cls == .crimson) (.fragwait k)
        done { told with waiting := mapIf (fun x => x.k == k) (fun x => { x with reported := true }) told.waiting }

/-! ## What the scheduler turns to (R278, R281) -/

def classRank : TrafficClass → Nat
  | .crimson => 0
  | .normal => 1
  | .bulk => 2
  | .ash => 3

/-- The PREEMPT handler of the context runs for a pre-emption that the launch does not follow: one that began behind its acceptance, or one
whose handler it has bounded already (R306).  A Crimson launch waits for no handler. -/
def Waiting.awaits (w : Waiting) (c : Ctx) : Bool :=
  w.params.cls != .crimson && c.switch == .preempting && (!(c.swap.any fun n => decide (n < w.k)) || c.deferred.isSome)

/-- Owner gangs that a launch may pre-empt: every owner that would stop with them ranks below it (R278).  Those that are leaving are
pre-empted once more by a launch that was accepted since. -/
def Ctx.preemptible (s : State) (w : Waiting) (c : Ctx) : Bool :=
  !c.ash && !w.awaits c && c.switchable && (switchSet s c).all fun d => decide (classRank w.params.cls < classRank d.cls)

/-- The state with some gangs switched out. -/
def withoutGangs (s : State) (vs : List Ctx) : State :=
  { s with ctxs := mapIf (fun c => vs.any fun v => v.id == c.id) (fun c => { c with switch := .out }) s.ctxs }

/-- The order in which owner gangs are pre-empted (R278): Bulk before Normal, the most recently launched first. -/
def victimKey (s : State) (c : Ctx) : Nat × Nat := (3 - classRank c.cls, s.nextId - c.id)

def pairLe (a b : Nat × Nat) : Bool := decide (a.1 < b.1) || (a.1 == b.1 && decide (a.2 ≤ b.2))

/-- The launch fits where it is, or where gangs whose PREEMPT handlers it awaits will have left. -/
def Waiting.hasPlace (s : State) (w : Waiting) : Bool :=
  (w.base? s).isSome || (w.base? (withoutGangs s (s.ctxs.filter w.awaits))).isSome

/-- The owner gang to pre-empt next, for a launch that finds no free placement (R278): the first of those on the clusters that the launch
would take, where no more gangs of the order go than it takes for the launch to fit. -/
def victim (s : State) (w : Waiting) : Option Ctx :=
  if w.params.cls == .ash || w.hasPlace s then none
  else
    let vs := s.ctxs.filter (Ctx.preemptible s w)
    let upTo := fun (v : Ctx) => vs.filter fun c => pairLe (victimKey s c) (victimKey s v)
    let fits := fun (v : Ctx) => w.base? (withoutGangs s (s.ctxs.filter w.awaits ++ upTo v))
    match leastBy2 (victimKey s) (vs.filter fun v => (fits v).isSome) with
    | none => none
    | some last =>
      match fits last with
      | none => none
      | some b =>
        leastBy2 (victimKey s)
          ((upTo last).filter fun c => (List.range w.params.gang).any fun m => c.members.any fun x => x.cluster / 4 == clusterOf b m / 4)

/-- The ash contexts on the clusters that a launch takes at a base. -/
def ashAt (s : State) (w : Waiting) (base : Nat) : List Ctx :=
  s.ctxs.filter fun c => c.ash && c.onBlocks && c.ended.isNone && (List.range w.params.gang).any fun m => c.onCluster (clusterOf base m)

/-- R281: the ash contexts that leaf controllers revoke for a Crimson or Normal launch: those of the first clusters on which it fits
without them, and of every cluster when there are none such (log 66). -/
def ashInTheWay (s : State) (w : Waiting) : List Ctx :=
  if !(w.params.cls == .crimson || w.params.cls == .normal) then []
  else
    match (List.range Config.clusters).find? fun b =>
        !(ashAt s w b).isEmpty && (placeGang s { w.request with evicts := true } b (List.replicate w.params.gang (List.range w.params.rows))).isSome with
    | some b => ashAt s w b
    | none => s.ctxs.filter fun c => c.ash && c.onBlocks && c.ended.isNone

/-- The one that is revoked next: the most recently launched, once FRAGWAIT has been reported. -/
def nextRevoked (s : State) (w : Waiting) : Option Ctx :=
  if !w.reported || (w.base? s).isSome then none else leastBy (fun c => s.nextId - c.id) (ashInTheWay s w)

/-- What a waiting launch leads to: its placement, the FRAGWAIT report, a revocation, a pre-emption. -/
def Waiting.turn (s : State) (w : Waiting) : Option Instr :=
  match w.base? s with
  | some b => some (.launchPlacement w.k b)
  | none =>
    if !w.reported then some (.launchPlacement w.k 0)
    else
      match nextRevoked s w with
      | some c => some (.revocation c.id)
      | none => (victim s w).map fun c => .switchOut c.id (w.params.cls == .crimson)

/-- R285, R286: the leaf controller revokes an ash context for a launch that waits (R281): the rows are parked with everything they hold
and their granules are free; the generator stops. -/
def execRevocation (k : Nat) (s : State) : Out :=
  match s.ctxOf k with
  | none => .fault .noExecutor
  | some c =>
    if c.ash && c.onBlocks && c.ended.isNone && s.waiting.any fun w => (nextRevoked s w).any fun d => d.id == k then done (revoke s k) else wait s

/-- R278: a waiting launch pre-empts the context: the owner whose turn it is, or an ash context when an owner launch fits nowhere
(log 66). -/
def preempts (s : State) (c : Ctx) (crimson : Bool) : Bool :=
  s.waiting.any fun w => crimson == (w.params.cls == .crimson) &&
    (if c.ash then w.params.cls != .ash && (w.base? s).isNone else (victim s w).any fun d => d.id == c.id)

/-- The contexts of a set that are owners leave, and return, together (R26). -/
def State.swapTogether (s : State) (l : List Ctx) : State :=
  let n := (l.findSome? fun d => d.swap).getD s.nextId
  { s with ctxs := mapIf (fun c => !c.ash && l.any fun d => d.id == c.id) (fun c => { c with swap := some n }) s.ctxs,
           nextId := max s.nextId (n + 1) }

/-- R314: the context and the owners of its partitions, all of which can be switched out (R26), are pre-empted for a launch that waits, once
there are permits to tell their leaf controllers (R263). -/
def execSwitchOut (k : Nat) (crimson : Bool) (s : State) : Out :=
  match s.ctxOf k with
  | none => .fault .noExecutor
  | some c =>
    let l := switchSet s c
    let leaves := l.flatMap fun d => d.members.map fun m => m.cluster
    if !(l.any fun d => d.id == k) || !(l.all Ctx.switchable) || !preempts s c crimson || !orderRoom s leaves crimson then wait s
    else
      let s1 := l.foldl (fun s d => preemptOne s crimson d.id) (s.swapTogether l)
      if s1 == s then wait s else done (sendOrders s1 leaves crimson (.switchOut k))

/-- The launches that wait, in the order of their classes, then of their acceptance. -/
def waitingOrder (s : State) : List Waiting :=
  [0, 1, 2, 3].flatMap fun r => s.waiting.filter fun w => classRank w.params.cls == r

/-- A waiting launch of the class or above stands before a context of the class that would return. -/
def waitsBefore (s : State) (cls : TrafficClass) : Bool :=
  s.waiting.any fun w => w.params.cls != .ash && decide (classRank w.params.cls ≤ min 1 (classRank cls))

/-- The base at which a context and those that left with it return: where it was, else the first at which all fit. -/
def returnBase (s : State) (c : Ctx) : Nat :=
  ((c.base :: List.range Config.clusters).find? fun b => (restoreSet s c b (swapSet s c)).isSome).getD c.base

/-- What waiting launches lead to, then the return of revoked and switched-out contexts (R281, R317). -/
def schedulerTurns (s : State) : List Instr :=
  (waitingOrder s).filterMap (Waiting.turn s) ++
    (s.ctxs.filter fun c => c.switch == .rehanding).map (fun c => .restore c.id 0) ++
    (s.ctxs.filter fun c => c.revoked && !c.completed && !waitsBefore s c.cls).map (fun c => .ashResume c.id) ++
    (s.ctxs.filter fun c => c.switch == .out && !c.completed && c.ended.isNone && !waitsBefore s c.cls).map fun c =>
      .restore c.id (returnBase s c)

end Sys2Proof.Machine
end

