-- ==== Sys2Proof/Machine/Control.lean ====
section
/-!
DEFINITION. Control records (R196, R218, R269, R275-R277, R291-R293, R321): domains, queues, shootdowns, patches, storage pairs.
-/
namespace Sys2Proof.Machine

/-! ## The frame of a control record (R276, R277) -/

/-- What the own effect of a record came to. -/
inductive CtlRes where
  /-- refused with a code of R277 -/
  | refused (code : Nat)
  /-- done, with the result word -/
  | ok (s : State) (result : Nat)
  /-- in progress: the completion record follows (SHOOTDOWN, PATCH) -/
  | pending (s : State)

def ctlPriv : Nat := 0x40
def ctlBad : Nat := 0x41
def ctlBusy : Nat := 0x42
def ctlNoObj : Nat := 0x43
def ctlPatchRef : Nat := 0x44

/-- Where a record's completion record goes; none drops the record (R277). -/
def ctlLocs (s : State) (domain : Option Nat) (a : Nat) : Option (List GLoc) :=
  match domain with
  | none =>
    let ls := (List.range 64).map fun k => (⟨a + k, false⟩ : GLoc)
    if ls.all fun l => decide (l.pa < 2 ^ 52) && paMappable s.fenced l.pa then some ls else none
  | some d => (translateN s d true .store a 64).toOption

/-- A completion record of R277. -/
def ctlComplete (s : State) (domain : Option Nat) (a q slot status result : Nat) : State :=
  let s := match ctlLocs s domain a with
    | none => countError s q
    | some ls => s.perform (ls.zip (dwordBytes [BitVec.ofNat 64 status, BitVec.ofNat 64 result, 0, 0, 0, 0, 0, 0]))
  releaseSlot s q slot

/-- Every byte of a record outside the named ranges is zero. -/
def restZero (bs : List Byte) (used : List (Nat × Nat)) : Bool :=
  bs.zipIdx.all fun (b, k) => b == 0 || used.any fun u => decide (u.1 ≤ k ∧ k < u.1 + u.2)

/-- The kinds of R276. -/
def ctlAssigned (k : Nat) : Bool := decide (1 ≤ k ∧ k ≤ 8)

/-- The next record of a control queue, when its kind is the one asked for: taken, checked, carried out or refused. `used` are
the bytes that the kind names from +16 on; `host` marks the kinds of queue 0 only. -/
def ctlStep (s : State) (q : Nat) (kind : Nat → Bool) (host : Bool) (used : List (Nat × Nat))
    (f : State → DevQueue → List Byte → CtlRes) : Out :=
  match headSlot s q with
  | none => wait s
  | some dq =>
    if s.phase != .running || dq.consumer != .control || (q == 0 && s.ctlClosing) || (s.shoots.any fun x => x.queue == q) then wait s
    else
      match readRecord s dq.domain (dq.slotAddr dq.head) 128 with
      | none => if kind 0 then done (releaseSlot (countError (takeHead s dq) q) q dq.head) else wait s
      | some bs =>
        if !kind (fld bs 0 2) then wait s
        else
          let s1 := takeHead s dq
          let a := fld bs 8 8
          if (ctlLocs s1 dq.domain a).isNone then done (releaseSlot (countError s1 q) q dq.head)
          else
            let r : CtlRes :=
              if host && dq.domain.isSome then .refused ctlPriv
              else if a % 64 != 0 || !restZero bs ([(0, 2), (8, 8)] ++ used) then .refused ctlBad
              else f s1 dq bs
            match r with
            | .refused code => done (ctlComplete s1 dq.domain a q dq.head (1 + code * 256) 0)
            | .ok s2 v => done (ctlComplete s2 dq.domain a q dq.head 0 v)
            | .pending s2 => done s2

/-- The domain may be named on the queue (R276). -/
def mayName (dq : DevQueue) (d : Nat) : Bool := dq.domain.all fun x => x == d

def domainExists (s : State) (d : Nat) : Bool := s.domains.any fun x => x.1 == d

/-- R277: an unassigned KIND; a record that cannot be read is dropped here (log 26). -/
def execUnassignedControlKind (q : Nat) (s : State) : Out :=
  ctlStep s q (fun k => !ctlAssigned k) false [(16, 112)] fun _ _ _ => .refused ctlBad

/-! ## Domains -/

/-- R276, R196. -/
def execDomcreate (q : Nat) (s : State) : Out :=
  ctlStep s q (fun k => k == 1) true [(16, 16)] fun s _ bs =>
    let d := fld bs 16 8
    let root := fld bs 24 8
    if decide (1024 ≤ d) || root % 4096 != 0 || decide (2 ^ 52 ≤ root) || !paExists s.fenced root then .refused ctlBad
    else if domainExists s d then .refused ctlNoObj
    else .ok { s with domains := s.domains ++ [(d, root)] } 0

/-- R276. -/
def execDomdestroy (q : Nat) (s : State) : Out :=
  ctlStep s q (fun k => k == 2) true [(16, 8)] fun s _ bs =>
    let d := fld bs 16 8
    if 1024 ≤ d then .refused ctlBad
    else if !domainExists s d then .refused ctlNoObj
    else if s.ctxs.any (fun c => c.domain == d && !c.completed) || s.queues.any (fun x => x.domain == some d) ||
        s.pairs.any fun p => p.domain == d then .refused ctlBusy
    else .ok { s with domains := s.domains.filter fun x => x.1 != d } 0

/-! ## Queues -/

/-- R269, R275: a descriptor, as the queue that it describes; LOGD 0 lies outside 1-16 (log 28), and a launch
queue may have slots smaller than its records (log 83). -/
def queueOf (s : State) (num : Nat) (domain : Option Nat) (budget : Nat) (bs : List Byte) : Option DevQueue :=
  let ring := fld bs 0 8
  let w := fld bs 8 8
  let bitmap := fld bs 16 8
  let logd := w % 16
  let logr := w / 2 ^ 8 % 16
  let kind := if num == 0 then 2 else w / 2 ^ 12 % 8
  let consumer : Option Consumer := match kind with
    | 0 => some .context
    | 1 => some .launch
    | 2 => some .control
    | _ => none
  let flat := num != 0 || (decide (ring < 2 ^ 52) && paMappable s.fenced ring && decide (bitmap < 2 ^ 52) && paMappable s.fenced bitmap)
  match consumer with
  | none => none
  | some consumer =>
    if ring % 4096 != 0 || decide (2 ^ 57 ≤ ring) || logd == 0 || decide (logr < 6) || decide (12 < logr) || w / 16 % 16 != 0 || w / 2 ^ 16 != 0 ||
        bitmap % 8 != 0 || decide (2 ^ 57 ≤ bitmap) || fld bs 24 8 != 0 || (consumer == .control && decide (logr < 7)) || !flat then none
    else
      some { num := num, domain := domain, ring := ring, logd := logd, logr := logr, consumer := consumer, crimson := w / 2 ^ 15 % 2 == 1,
             bitmap := bitmap, budget := budget, ticket := 0, head := 0, committed := [], unreleased := [], sleepers := [],
             lastCommit := 0, lastSlot := 0 }

/-- R276, R437: the descriptor is read as the queue's addresses are; the BITMAP of the queue is clear as its commit bits are. -/
def execQenable (q : Nat) (s : State) : Out :=
  ctlStep s q (fun k => k == 3) false [(16, 32)] fun s dq bs =>
    let n := fld bs 16 8
    let d := fld bs 32 8
    if decide (n < 1) || decide (4096 ≤ n) || decide (1024 ≤ d) then .refused ctlBad
    else if !mayName dq d then .refused ctlPriv
    else
      match readRecord s dq.domain (fld bs 24 8) 32 with
      | none => .refused ctlBad
      | some desc =>
        match queueOf s n (some d) (fld bs 40 8) desc with
        | none => .refused ctlBad
        | some x =>
          if !domainExists s d || (s.queueOf n).isSome then .refused ctlNoObj
          else .ok (mirrorAll { s with queues := s.queues ++ [x] } x) 0

/-- R276: a live launch is a context that is not over or a launch that waits. -/
def execQdisable (q : Nat) (s : State) : Out :=
  ctlStep s q (fun k => k == 4) false [(16, 8)] fun s dq bs =>
    let n := fld bs 16 8
    if decide (n < 1) || decide (4096 ≤ n) then .refused ctlBad
    else
      match s.queueOf n with
      | none => .refused ctlNoObj
      | some x =>
        let binds := fun (v : Vector (Option Nat) 16) => v.toList.contains (some n)
        if !(dq.domain.isNone || x.domain == dq.domain) then .refused ctlPriv
        else if !x.sleepers.isEmpty || (s.ctxs.any fun c => !c.completed && binds c.queues) || (s.waiting.any fun w => binds w.params.queues)
          then .refused ctlBusy
        else .ok { s with queues := s.queues.filter fun x => x.num != n } 0

/-! ## Shootdowns (R218) -/

/-- R218, R276: the shootdown is issued. -/
def execShootdown (q : Nat) (s : State) : Out :=
  ctlStep s q (fun k => k == 5) false [(16, 24)] fun s dq bs =>
    let d := fld bs 16 8
    let lo := fld bs 24 8
    let len := fld bs 32 8
    if decide (1024 ≤ d) || lo % 65536 != 0 || len % 65536 != 0 || decide (2 ^ 64 < lo + len) then .refused ctlBad
    else if !mayName dq d then .refused ctlPriv
    else if !domainExists s d then .refused ctlNoObj
    else .pending { s with shoots := s.shoots ++ [{ k := s.nextId, queue := q, slot := dq.head, domain := d, lo := lo, len := len,
                                                    compl := fld bs 8 8, via := dq.domain }], nextId := s.nextId + 1 }

/-- A translation covers part of a shot range. -/
def Xlat.meets (x : Xlat) (lo len : Nat) : Bool := decide (x.base < lo + len ∧ lo < x.base + x.size)

/-- A store through one of these virtual lines lies in a shot range (R218). -/
def viaRange (d lo len : Nat) (vas : List (Nat × Nat)) : Bool := vas.any fun x => x.1 == d && decide (lo ≤ x.2 ∧ x.2 < lo + len)

/-- A physical address lies in a page that the range maps to, by a cached translation or by the tables. -/
def inRange (s : State) (d lo len pa : Nat) : Bool :=
  let hit := fun (x : Xlat) => decide (x.pa ≤ pa ∧ pa < x.pa + x.size) || (x.rep && decide (x.pa % 2 ^ 37 ≤ pa % 2 ^ 37 ∧ pa % 2 ^ 37 < x.pa % 2 ^ 37 + x.size))
  (s.tlb ++ s.codeTlb).any (fun (e, x) => e == d && x.meets lo len && hit x) ||
    (List.range (len / 65536)).any fun j => match lookup { s with tlb := [] } d (lo + 65536 * j) with
      | .ok x => hit x
      | .error _ => false

/-- A CDEF.mem marker that reads elsewhere (R345). -/
def Entry.apart (e : Entry) (lo len : Nat) : Bool :=
  match e.item with
  | .marker (.cdef _ true a _) => decide (a.toNat + 256 ≤ lo ∨ lo + len ≤ a.toNat)
  | _ => true

/-- Accesses that may have used an old translation are over (R218, R345): started transfers, buffered stores and those at a port, by the
addresses through which they were made, the checks of stalled slots (R211), pending CDEF reads wherever their markers stand. -/
def accessesOver (s : State) (d lo len : Nat) : Bool :=
  (s.accepted.all fun a => !viaRange d lo len a.vas) &&
  s.ctxs.all fun c => c.domain != d || c.completed ||
    ((c.members.all fun mb =>
        (mb.copyQ ++ mb.fetchQ ++ mb.storageQ).all (fun x => x.st != .started) && mb.psb.all fun p => !viaRange d lo len p.vas) &&
      (c.liveRows.all fun r => r.held.all fun x => x.2.all fun u => decide (u.va + u.locs.length ≤ lo ∨ lo + len ≤ u.va)) &&
      (c.stream.all fun e => e.apart lo len) && (c.channel.all fun x => x.1.apart lo len) &&
      c.intake.all fun i => match i with
        | .entry e => e.apart lo len
        | .replay _ => true)

/-- The translations and old slot contents of a range are discarded. -/
def discardRange (s : State) (d lo len : Nat) : State :=
  let keep := fun (x : Nat × Xlat) => !(x.1 == d && x.2.meets lo len)
  { s with tlb := s.tlb.filter keep, codeTlb := s.codeTlb.filter keep, oldSlots := s.oldSlots.filter fun x => !inRange s d lo len x.1 }

/-- Queue 0 has a record taken that is not complete. -/
def controlBusy (s : State) : Bool := s.shoots.any fun x => x.queue == 0

/-- Queue 0 is no longer enabled. -/
def disableControl (s : State) : State :=
  { s with ctlEn := false, ctlClosing := false, queues := s.queues.filter fun x => x.num != 0 }

/-- A disable that was written while a record was under way takes effect with the record's completion (R320). -/
def settleControl (s : State) : State := if s.ctlClosing && !controlBusy s then disableControl s else s

/-- R218: the acknowledgement, and the completion record of the SHOOTDOWN or the PATCH that issued the shootdown. -/
def execShootdownAck (k : Nat) (s : State) : Out :=
  match s.shoots.find? fun x => x.k == k with
  | none => .fault .noExecutor
  | some x =>
    if !accessesOver s x.domain x.lo x.len then wait s
    else
      let s := discardRange s x.domain x.lo x.len
      let s := { s with shoots := s.shoots.filter fun y => y.k != k }
      done (settleControl (ctlComplete s x.via x.compl x.queue x.slot 0 x.result))

/-! ## The patch engine (R292, R293) -/

/-- A slot address in the target range. -/
def inTarget (target count : Nat) (p : DWord) : Bool := decide (target ≤ p.toNat ∧ p.toNat < target + count)

/-- The handler of an L or X trap returns to a PC that no register holds (log 29). -/
def Handling.keepsPc (h : Handling) : Bool := h.trap.dom == .l || h.trap.dom == .x

/-- The slot addresses that a patch must not strand: the PC, the return stack, and the PC that a handler of an L or X trap
returns to. -/
def Ctx.codeAddrs (c : Ctx) : List DWord :=
  [c.pc] ++ c.rstack ++ ((c.handling.filter Handling.keepsPc).map fun h => h.resume).toList

/-- The new address of a slot address. -/
def remap (target count : Nat) (map : List (Nat × Nat)) (p : DWord) : DWord :=
  if inTarget target count p then ((map.find? fun x => x.1 == p.toNat).map fun x => BitVec.ofNat 64 x.2).getD p else p

/-- A parked context with its addresses replaced; it fetches anew when it is released. -/
def Ctx.remapped (c : Ctx) (f : DWord → DWord) : Ctx :=
  { c with pc := f c.pc, rstack := c.rstack.map f, ir := none,
           handling := c.handling.map fun h => if h.keepsPc then { h with resume := f h.resume } else h }

/-- The pairs of a map. -/
def mapPairs (bs : List Byte) (n : Nat) : List (Nat × Nat) := (List.range n).map fun j => (fld bs (16 * j) 8, fld bs (16 * j + 8) 8)

/-- A range of bytes that the firmware reads with R permission (R292). -/
def readBytes (s : State) (d va n : Nat) : Option (List Byte) := readRecord s (some d) va n

/-- R293: the contexts of the range get their new addresses, the slots are written, the old copies of the slots are discarded, and the
shootdown of R218 is issued for the pages of the range.  DESIGN CHOICE (log 87): the contexts go on from there, and the record completes with
the acknowledgement. -/
def runPatch (s : State) (x : Shoot) (target count : Nat) (new : List Byte) (map : List (Nat × Nat)) (locs : List GLoc) : CtlRes :=
  let d := x.domain
  let parked := s.ctxs.filter fun c => c.domain == d && !c.completed && c.codeAddrs.any (inTarget target count)
  let stuck := parked.any fun c => c.codeAddrs.any fun p => inTarget target count p && !(map.any fun x => x.1 == p.toNat)
  if stuck then .refused ctlPatchRef
  else
    let s := parked.foldl (fun s c =>
      let (s, c) := unsleep s ((s.ctxOf c.id).getD c)
      s.putCtx (c.remapped (remap target count map))) s
    let s := s.perform (locs.zip new)
    let s := { s with oldSlots := s.oldSlots.filter fun y => !inRange s d x.lo x.len y.1 }
    .pending { s with shoots := s.shoots ++ [{ x with result := parked.length }], nextId := s.nextId + 1 }

/-- R292: the limits of a record, then R293. -/
def execPatch (q : Nat) (s : State) : Out :=
  ctlStep s q (fun k => k == 6) false [(16, 28), (48, 8)] fun s dq bs =>
    let d := fld bs 16 4
    let count := fld bs 20 4
    let target := fld bs 24 8
    let src := fld bs 32 8
    let mapn := fld bs 40 4
    let map := fld bs 48 8
    if decide (1024 ≤ d) || decide (count < 1) || decide (65536 < count) || src % 8 != 0 || decide (4096 < mapn) || map % 16 != 0 ||
        (mapn == 0 && map != 0) then .refused ctlBad
    else if !mayName dq d then .refused ctlPriv
    else if !domainExists s d then .refused ctlNoObj
    else
      match readBytes s d src (8 * count), readBytes s d map (16 * mapn), translateN s d false .patch (8 * target % 2 ^ 64) (8 * count) with
      | some new, some pairs, .ok locs =>
        let l := mapPairs pairs mapn
        let va := 8 * target % 2 ^ 64
        let x : Shoot := { k := s.nextId, queue := q, slot := dq.head, domain := d, lo := va / 65536 * 65536,
                           len := (va % 65536 + 8 * count + 65535) / 65536 * 65536, compl := fld bs 8 8, via := dq.domain }
        if (l.zip (l.drop 1)).all fun x => decide (x.1.1 ≤ x.2.1) then runPatch s x target count new l locs else .refused ctlBad
      | _, _, _ => .refused ctlBad

/-! ## Storage pairs (R321) -/

/-- R276, R321; a fenced storage port is out of range (log 84). -/
def execNvmepair (q : Nat) (s : State) : Out :=
  ctlStep s q (fun k => k == 7) true [(16, 40)] fun s _ bs =>
    let n := fld bs 16 8
    let w := fld bs 24 8
    let entries := fld bs 40 8
    let d := fld bs 48 8
    if decide (1024 ≤ n) || w / 4 % 2 ^ 14 != 0 || w / 2 ^ 32 != 0 || decide (entries < 2) || decide (4096 < entries) || decide (1024 ≤ d) ||
        s.portFenced (w % 4) then .refused ctlBad
    else if !domainExists s d || s.pairs.any (fun p => p.num == n) then .refused ctlNoObj
    else .ok { s with pairs := s.pairs ++ [{ num := n, port := w % 4, requester := w / 2 ^ 16 % 65536, ns := fld bs 32 8, entries := entries,
                                             domain := d, submitted := [], done := [] }] } 0

/-- The pair that a storage command names (R391). -/
def Entry.pair (e : Entry) : Option Nat :=
  match e.item with
  | .slot (.nsubRead x) | .slot (.nsubWrite x) | .slot (.nsubFlush x) => some (pval x.p0 % 1024)
  | _ => none

/-- A command on the pair has not retired: submitted, in a context's storage queue, or in its engine dump and not handed over
again. -/
def pairBusy (s : State) (p : NvmePair) : Bool :=
  !p.submitted.isEmpty || s.ctxs.any fun c => c.domain == p.domain && c.ended.isNone &&
    ((c.members.any fun mb => mb.storageQ.any fun x => x.e.pair == some p.num) ||
      c.dump.any fun d => !d.dropped && !d.handed && d.cmd.e.pair == some p.num)

/-- R276. -/
def execNvmefree (q : Nat) (s : State) : Out :=
  ctlStep s q (fun k => k == 8) true [(16, 8)] fun s _ bs =>
    let n := fld bs 16 8
    if 1024 ≤ n then .refused ctlBad
    else
      match s.pairs.find? fun p => p.num == n with
      | none => .refused ctlNoObj
      | some p =>
        if !pairBusy s p && p.done.isEmpty then .ok { s with pairs := s.pairs.filter fun p => p.num != n } 0 else .refused ctlBusy

end Sys2Proof.Machine
end

