-- ==== Sys2Proof/Machine/LaneArith.lean ====
section
/-!
DEFINITION. Lane instructions that compute each lane from its own words (R138, R412, R413, R415-R417, R419-R421, R423, R424,
R428, R433), in format L and with an immediate.
-/
namespace Sys2Proof.Machine

/-! ## Lanes and elements (R117, R408) -/

/-- Words and flags of the participating lanes. -/
def mapLanes (part : LaneMask) (f : Nat → Word × FpFlags) : Lanes × FpFlags :=
  let out := (List.range 64).map fun l => if part.getLsbD l then f l else (0, 0)
  (Lanes.build fun l => (out.getD l (0, 0)).1, FpFlags.join (out.map fun x => x.2))

/-- Element `k` of a word as a pattern of `w` bits. -/
def elemAt (w : Nat) (x : Word) (k : Nat) : Nat := x.toNat / 2 ^ (w * k) % 2 ^ w

/-- A word from the patterns of its elements. -/
def packElems (w : Nat) (l : List Nat) : Word := BitVec.ofNat 32 ((l.zipIdx.map fun (e, k) => e % 2 ^ w * 2 ^ (w * k)).sum)

/-- An operation on the elements of the same position. -/
def mapElems (t : ElemTy) (op : List Nat → Nat × FpFlags) (ws : List Word) : Word × FpFlags :=
  let out := (List.range (perWord t)).map fun k => op (ws.map fun x => elemAt (elemBits t) x k)
  (packElems (elemBits t) (out.map fun x => x.1), FpFlags.join (out.map fun x => x.2))

def op1 (g : Nat → Nat × FpFlags) : List Nat → Nat × FpFlags
  | a :: _ => g a
  | _ => (0, 0)
def op2 (g : Nat → Nat → Nat × FpFlags) : List Nat → Nat × FpFlags
  | a :: b :: _ => g a b
  | _ => (0, 0)
def op3 (g : Nat → Nat → Nat → Nat × FpFlags) : List Nat → Nat × FpFlags
  | a :: b :: c :: _ => g a b c
  | _ => (0, 0)

/-! ## Tags (R90), for an instruction that wrote every lane and carried nothing -/

/-- Every source uniform gives a uniform result. -/
def mapTag (l : List Tag) : Tag := if l.all fun x => x == .u then .u else .g

/-- VADD, VSUB, VMUL on 32-bit integers: one affine and one uniform source give an affine result,
unless it saturates (R89, R413). -/
def affineTag (t : ElemTy) (sat : Bool) (l : List Tag) : Tag :=
  if isIw t && !sat && (l == [.a, .u] || l == [.u, .a]) then .a else mapTag l

/-! ## The frames of the elementwise instructions -/

/-- Results of an elementwise instruction; `extra` are immediates. -/
def elemResult (t : ElemTy) (vd : Nat) (extra : List Word) (tag : List Tag → Tag) (op : List Nat → Nat × FpFlags)
    (part : LaneMask) (srcs : List Source) : Result :=
  let v := mapLanes part fun l => mapElems t op (srcs.map (fun x => x.lanes.get l) ++ extra)
  { writes := [(vd, v.1)], tag := tag (srcs.map (fun x => x.tag) ++ extra.map fun _ => Tag.u), flags := v.2 }

/-- One source va. -/
def unaryL (s : State) (i : Instr) (f : LForm) (op : Nat → Nat × FpFlags) : Out :=
  computeSlot s i f.la (fun t => [vaOp t f.va]) (ownLane 1) fun _ part srcs =>
    elemResult f.t f.vd.toNat [] mapTag (op1 op) part srcs

/-- Sources va and vb. -/
def binaryL (s : State) (i : Instr) (f : LForm) (tag : List Tag → Tag) (op : Nat → Nat → Nat × FpFlags) : Out :=
  computeSlot s i f.la (fun t => [vaOp t f.va, vbOp t f.vb]) (ownLane 2) fun _ part srcs =>
    elemResult f.t f.vd.toNat [] tag (op2 op) part srcs

/-- The immediate after substitution (R121). -/
def subWord : Sub → Word
  | .imm v => v
  | _ => 0

/-- Source va and the immediate; format L-I carries no distance (R41). -/
def binaryLI (s : State) (i : Instr) (f : LIForm) (tag : List Tag → Tag) (op : Nat → Nat → Nat × FpFlags) : Out :=
  computeSlot s i 0 (fun _ => [plainOp f.va.toNat]) (ownLane 1) fun _ part srcs =>
    elemResult f.t f.vd.toNat [subWord f.src] tag (op2 op) part srcs

/-! ## Operations on elements -/

/-- An element of an integer type as an integer (R117). -/
def intOf (t : ElemTy) (a : Nat) : Int := elemInt (isSigned t) (elemBits t) a
def fitInt (t : ElemTy) (sat : Bool) (z : Int) : Nat × FpFlags := narrowInt sat (isSigned t) (elemBits t) z

/-- R413. -/
def addElem (t : ElemTy) (r : Rnd) (sat : Bool) (a b : Nat) : Nat × FpFlags :=
  if isF t then fAdd t.fmt r a b else fitInt t sat (intOf t a + intOf t b)
def subElem (t : ElemTy) (r : Rnd) (sat : Bool) (a b : Nat) : Nat × FpFlags :=
  if isF t then fSub t.fmt r a b else fitInt t sat (intOf t a - intOf t b)
def mulElem (t : ElemTy) (r : Rnd) (sat : Bool) (a b : Nat) : Nat × FpFlags :=
  if isF t then fMul t.fmt r a b else fitInt t sat (intOf t a * intOf t b)
def minElem (t : ElemTy) (a b : Nat) : Nat × FpFlags :=
  if isF t then fMinMax false t.fmt a b else (if intOf t a ≤ intOf t b then a else b, 0)
def maxElem (t : ElemTy) (a b : Nat) : Nat × FpFlags :=
  if isF t then fMinMax true t.fmt a b else (if intOf t a ≤ intOf t b then b else a, 0)

/-- R412. -/
def absElem (t : ElemTy) (a : Nat) : Nat × FpFlags :=
  if isF t then (a % t.fmt.sign, 0) else fitInt t false (intOf t a).natAbs
def negElem (t : ElemTy) (a : Nat) : Nat × FpFlags :=
  if isF t then (if t.fmt.sign ≤ a then a - t.fmt.sign else a + t.fmt.sign, 0) else fitInt t false (-(intOf t a))

/-- R415. -/
def shlElem (t : ElemTy) (a b : Nat) : Nat × FpFlags := (a * 2 ^ (b % elemBits t) % 2 ^ elemBits t, 0)
def shrElem (t : ElemTy) (a b : Nat) : Nat × FpFlags := (a / 2 ^ (b % elemBits t), 0)
def sraElem (t : ElemTy) (a b : Nat) : Nat × FpFlags := fitInt t false (intOf t a / ((2 ^ (b % elemBits t) : Nat) : Int))

/-- R416. -/
def clzElem (t : ElemTy) (a : Nat) : Nat × FpFlags := (if a == 0 then elemBits t else elemBits t - 1 - Nat.log2 a, 0)
def popElem (t : ElemTy) (a : Nat) : Nat × FpFlags := (((List.range (elemBits t)).filter fun k => a.testBit k).length, 0)

/-- R417: signed or unsigned comparisons. -/
def intCmp (fn : Nat) (a b : Int) : Bool :=
  match fn with
  | 0 => a == b
  | 1 => a != b
  | 2 => decide (a < b)
  | 3 => decide (a ≤ b)
  | 4 => decide (b < a)
  | _ => decide (b ≤ a)
def cmpElem (t : ElemTy) (fn a b : Nat) : Bool × FpFlags :=
  if isF t then fCmp t.fmt fn a b else (intCmp fn (intOf t a) (intOf t b), 0)

/-- Conv of R419, under R158. -/
def convElem (src dst : ElemTy) (r : Rnd) (a : Nat) : Nat × FpFlags :=
  match isF src, isF dst with
  | true, true => cvtFF src.fmt dst.fmt r a
  | true, false => cvtFI src.fmt (isSigned dst) (elemBits dst) r a
  | false, true => cvtIF (isSigned src) (elemBits src) dst.fmt r a
  | false, false => cvtII (isSigned src) (elemBits src) (isSigned dst) (elemBits dst) a

/-! ## Arithmetic (R412, R413, R423) -/

def execVadd (f : LForm) (s : State) : Out := binaryL s (.vadd f) f (affineTag f.t (f.fn == 1)) (addElem f.t f.rnd (f.fn == 1))
def execVaddImm (f : LIForm) (s : State) : Out := binaryLI s (.vaddImm f) f (affineTag f.t false) (addElem f.t .rne false)
def execVsub (f : LForm) (s : State) : Out := binaryL s (.vsub f) f (affineTag f.t (f.fn == 1)) (subElem f.t f.rnd (f.fn == 1))
def execVsubImm (f : LIForm) (s : State) : Out := binaryLI s (.vsubImm f) f (affineTag f.t false) (subElem f.t .rne false)
def execVmul (f : LForm) (s : State) : Out := binaryL s (.vmul f) f (affineTag f.t (f.fn == 1)) (mulElem f.t f.rnd (f.fn == 1))
def execVmulImm (f : LIForm) (s : State) : Out := binaryLI s (.vmulImm f) f (affineTag f.t false) (mulElem f.t .rne false)
def execVmin (f : LForm) (s : State) : Out := binaryL s (.vmin f) f mapTag (minElem f.t)
def execVminImm (f : LIForm) (s : State) : Out := binaryLI s (.vminImm f) f mapTag (minElem f.t)
def execVmax (f : LForm) (s : State) : Out := binaryL s (.vmax f) f mapTag (maxElem f.t)
def execVmaxImm (f : LIForm) (s : State) : Out := binaryLI s (.vmaxImm f) f mapTag (maxElem f.t)
def execVabs (f : LForm) (s : State) : Out := unaryL s (.vabs f) f (absElem f.t)
def execVneg (f : LForm) (s : State) : Out := unaryL s (.vneg f) f (negElem f.t)

def execVfma (f : LForm) (s : State) : Out :=
  computeSlot s (.vfma f) 0 (fun t => [vaOp t f.va, vbOp t f.vb, plainOp f.vc.toNat]) (ownLane 3) fun _ part srcs =>
    elemResult f.t f.vd.toNat [] mapTag (op3 (fFma f.t.fmt f.rnd)) part srcs

/-- The immediate form reads its destination as the second factor. -/
def execVfmaImm (f : LIForm) (s : State) : Out :=
  computeSlot s (.vfmaImm f) 0 (fun _ => [plainOp f.va.toNat, plainOp f.vd.toNat]) (ownLane 2) fun _ part srcs =>
    elemResult f.t f.vd.toNat [subWord f.src] mapTag (op3 (fFma f.t.fmt .rne)) part srcs

/-! ## Bits (R415, R416) -/

def execVand (f : LForm) (s : State) : Out := binaryL s (.vand f) f mapTag fun a b => (a &&& b, 0)
def execVandImm (f : LIForm) (s : State) : Out := binaryLI s (.vandImm f) f mapTag fun a b => (a &&& b, 0)
def execVor (f : LForm) (s : State) : Out := binaryL s (.vor f) f mapTag fun a b => (a ||| b, 0)
def execVorImm (f : LIForm) (s : State) : Out := binaryLI s (.vorImm f) f mapTag fun a b => (a ||| b, 0)
def execVxor (f : LForm) (s : State) : Out := binaryL s (.vxor f) f mapTag fun a b => (a ^^^ b, 0)
def execVxorImm (f : LIForm) (s : State) : Out := binaryLI s (.vxorImm f) f mapTag fun a b => (a ^^^ b, 0)
def execVshl (f : LForm) (s : State) : Out := binaryL s (.vshl f) f mapTag (shlElem f.t)
def execVshlImm (f : LIForm) (s : State) : Out := binaryLI s (.vshlImm f) f mapTag (shlElem f.t)
def execVshr (f : LForm) (s : State) : Out := binaryL s (.vshr f) f mapTag (shrElem f.t)
def execVshrImm (f : LIForm) (s : State) : Out := binaryLI s (.vshrImm f) f mapTag (shrElem f.t)
def execVsra (f : LForm) (s : State) : Out := binaryL s (.vsra f) f mapTag (sraElem f.t)
def execVsraImm (f : LIForm) (s : State) : Out := binaryLI s (.vsraImm f) f mapTag (sraElem f.t)
def execVclz (f : LForm) (s : State) : Out := unaryL s (.vclz f) f (clzElem f.t)
def execVpopc (f : LForm) (s : State) : Out := unaryL s (.vpopc f) f (popElem f.t)

/-! ## Moves, comparison, constants (R417, R424, R428) -/

/-- VSEL: p`N` is read before the slot; the result is tagged G. -/
def execVsel (f : LForm) (s : State) : Out :=
  computeSlot s (.vsel f) 0 (fun t => [vaOp t f.va, vbOp t f.vb]) (ownLane 2) fun t _ srcs =>
    let p := t.r.pred (f.vc.toNat % 16)
    { writes := [(f.vd.toNat, Lanes.build fun l => if p.getLsbD l then srcWord srcs 0 l else srcWord srcs 1 l)] }

def execVmov (f : LForm) (s : State) : Out :=
  computeSlot s (.vmov f) 0 (fun t => [vaOp t f.va]) (ownLane 1) fun _ _ srcs =>
    { writes := [(f.vd.toNat, Lanes.build (srcWord srcs 0))], tag := mapTag (srcs.map fun x => x.tag) }

def execVcmp (f : LForm) (s : State) : Out :=
  computeSlot s (.vcmp f) 0 (fun t => [vaOp t f.va, vbOp t f.vb]) (ownLane 2) fun _ part srcs =>
    let at' := fun l => cmpElem f.t f.fn.toNat (srcWord srcs 0 l).toNat (srcWord srcs 1 l).toNat
    { pred := some (f.vd.toNat % 16, LaneMask.build fun l => (at' l).1),
      flags := FpFlags.join ((List.range 64).map fun l => if part.getLsbD l then (at' l).2 else 0) }

def execVli (f : LIForm) (s : State) : Out :=
  computeSlot s (.vli f) 0 (fun _ => []) (ownLane 0) fun _ _ _ =>
    { writes := [(f.vd.toNat, Lanes.fill (subWord f.src))], tag := .u }

def execViota (f : LForm) (s : State) : Out :=
  computeSlot s (.viota f) 0 (fun _ => []) (ownLane 0) fun _ _ _ =>
    { writes := [(f.vd.toNat, Lanes.build fun l => BitVec.ofNat 32 l)], tag := .a }

/-! ## Conversions and dot products (R419-R421) -/

/-- The word of a conversion from S to D with position q; `old` is the destination's word. -/
def convWord (src dst : ElemTy) (r : Rnd) (q : Nat) (old a : Word) : Word × FpFlags :=
  let ps := perWord src
  let pd := perWord dst
  let conv := fun k => convElem src dst r (elemAt (elemBits src) a k)
  if pd < ps then
    let out := (List.range pd).map fun k => conv (q * pd + k)
    (packElems (elemBits dst) (out.map fun x => x.1), FpFlags.join (out.map fun x => x.2))
  else if ps < pd then
    let out := (List.range ps).map conv
    (packElems (elemBits dst) ((List.range pd).map fun k =>
      if decide (q * ps ≤ k ∧ k < q * ps + ps) then (out.getD (k - q * ps) (0, 0)).1 else elemAt (elemBits dst) old k),
      FpFlags.join (out.map fun x => x.2))
  else
    let out := (List.range pd).map conv
    (packElems (elemBits dst) (out.map fun x => x.1), FpFlags.join (out.map fun x => x.2))

def execVcvt (f : LForm) (s : State) : Out :=
  let src := ElemTy.ofCode (f.fn.extractLsb' 0 3)
  let narrow := decide (perWord src < perWord f.t)
  computeSlot s (.vcvt f) 0 (fun t => vaOp t f.va :: (if narrow then [plainOp f.vd.toNat] else []))
      (ownLane (if narrow then 2 else 1)) fun _ part srcs =>
    let v := mapLanes part fun l => convWord src f.t f.rnd (f.vc.toNat % 128) (srcWord srcs 1 l) (srcWord srcs 0 l)
    { writes := [(f.vd.toNat, v.1)], tag := mapTag (srcs.map fun x => x.tag), flags := v.2 }

/-- R420: the container is vb[3:0] above va. -/
def convAcc (f : LForm) (a b : Word) : Nat × FpFlags :=
  let c := a.toNat + b.toNat % 16 * 2 ^ 32
  if f.fn == 1 then cvtA36F32 f.rnd c else if f.t == .f32 then cvtAccF32 f.rnd c else cvtAccI32 c

def execVcvtAcc (f : LForm) (s : State) : Out :=
  computeSlot s (.vcvtAcc f) 0 (fun t => [vaOp t f.va, vbOp t f.vb]) (ownLane 2) fun _ part srcs =>
    let v := mapLanes part fun l =>
      let x := convAcc f (srcWord srcs 0 l) (srcWord srcs 1 l)
      (BitVec.ofNat 32 x.1, x.2)
    { writes := [(f.vd.toNat, v.1)], tag := mapTag (srcs.map fun x => x.tag), flags := v.2 }

/-- R421: four signed or unsigned byte products and vc as a signed word. -/
def dotWord (t : ElemTy) (sat : Bool) (a b c : Word) : Word × FpFlags :=
  let sum := (List.range 4).foldl (fun (z : Int) k => z + intOf t (elemAt 8 a k) * intOf t (elemAt 8 b k)) c.toInt
  let x := narrowInt sat true 32 sum
  (BitVec.ofNat 32 x.1, x.2)

def execVdot4 (f : LForm) (s : State) : Out :=
  computeSlot s (.vdot4 f) 0 (fun t => [vaOp t f.va, vbOp t f.vb, plainOp f.vc.toNat]) (ownLane 3) fun _ part srcs =>
    let v := mapLanes part fun l => dotWord f.t (f.fn == 1) (srcWord srcs 0 l) (srcWord srcs 1 l) (srcWord srcs 2 l)
    { writes := [(f.vd.toNat, v.1)], tag := mapTag (srcs.map fun x => x.tag), flags := v.2 }

/-! ## Roots and transcendental functions (R433) -/

def execVrcp (f : LForm) (s : State) : Out := unaryL s (.vrcp f) f (fRcp f.t.fmt f.rnd)
def execVrsq (f : LForm) (s : State) : Out := unaryL s (.vrsq f) f (fRsq f.t.fmt f.rnd)
def execVsqrt (f : LForm) (s : State) : Out := unaryL s (.vsqrt f) f (fSqrt f.t.fmt f.rnd)
def execVexp2 (f : LForm) (s : State) : Out := unaryL s (.vexp2 f) f (fExp2 f.t.fmt)
def execVlog2 (f : LForm) (s : State) : Out := unaryL s (.vlog2 f) f (fLog2 f.t.fmt)
def execVsin (f : LForm) (s : State) : Out := unaryL s (.vsin f) f (fSin f.t.fmt)
def execVcos (f : LForm) (s : State) : Out := unaryL s (.vcos f) f (fCos f.t.fmt)
def execVtanh (f : LForm) (s : State) : Out := unaryL s (.vtanh f) f (fTanh f.t.fmt)

end Sys2Proof.Machine
end

