-- ==== Sys2Proof/Machine/LaneMem.lean ====
section
/-!
DEFINITION. Lane accesses to typed buffers and to global memory (R194, R202-R204, R206, R208, R211, R216, R223, R242, R254,
R290, R402, R414, R425-R427).
-/
namespace Sys2Proof.Machine

/-! ## Checks of every lane (R216) -/

def lanesOf (part : LaneMask) : List Nat := (List.range 64).filter fun l => part.getLsbD l

/-- A lane's check: its address or offset, and the causes present. -/
abbrev LaneCheck := Nat × Nat × List Cause

/-- The order of R216. -/
def checkOrder : List Cause := [.noncanon, .bufv, .nomap, .ptebad, .align, .perm, .fmtf]

/-- The first cause present in any lane, with the address of the lowest such lane and their mask. -/
def firstCause (l : List LaneCheck) : Option (Cause × Nat × LaneMask) :=
  checkOrder.findSome? fun c =>
    match l.filter fun x => x.2.2.contains c with
    | [] => none
    | x :: rest => some (c, x.2.1, LaneMask.build fun k => k == x.1 || rest.any fun y => y.1 == k)

/-- The stall of R211 on the scoreboard; a stall on an entry of a stopped queue raises the queue's fault (R251, R349). -/
def boardStall (mb : Member) (store : Bool) (ranges : List Range) : Option RowRes :=
  let hits := mb.board.filter fun x => ranges.any fun r => x.dst.any r.meets64 || (store && x.src.any r.meets64)
  if hits.isEmpty then none
  else
    match hits.findSome? fun x =>
      if (mb.queue x.eng).any fun y => y.e.seq == x.seq && y.st == .queued then queueFault (mb.queue x.eng) else none with
    | some (y, t) => some (.raise y.e.seq t)
    | none => some .wait

/-! ## Typed buffers (R206, R425) -/

def laneBuf (fn : BitVec 4) : Buf :=
  match fn.toNat with
  | 1 => .wb
  | 2 => .ab
  | _ => .cb

/-- The offset of a lane. -/
def laneOffset (v : Word) (disp : BitVec 8) : Nat := (v.toNat + 4 * disp.toNat) % 2 ^ 32

/-- BUFV (R206, R208). -/
def offsetBad (s : State) (c : Ctx) (m : Nat) (b : Buf) (o : Nat) : Bool :=
  o % 4 != 0 || decide (2 ^ 24 ≤ o) || (placeOf s c m b o 4).isNone

/-- The offsets of the participating lanes, lowest lane first. -/
def laneOffsets (f : LForm) (part : LaneMask) (srcs : List Source) : List (Nat × Nat) :=
  (lanesOf part).map fun l => (l, laneOffset (srcWord srcs 0 l) f.vc)

/-- The checks, the stall and the accesses of R208 come before `k`. -/
def bufferAccess (s : State) (t : RowSlot) (b : Buf) (store : Bool) (offs : List (Nat × Nat)) (k : State → Member → RowRes) : RowRes :=
  let m := t.r.member
  match t.c.member m with
  | none => .wait
  | some mb =>
    match firstCause (offs.map fun x => (x.1, x.2, if offsetBad s t.c m b x.2 then [.bufv] else [])) with
    | some (cause, a, mask) => .fault cause (BitVec.ofNat 64 a) mask
    | none =>
      match boardStall mb store (offs.map fun x => ⟨.buf b, x.2, 4⟩) with
      | some r => r
      | none =>
        match touchAll s t.c m b 4 (offs.map fun x => x.2) with
        | .wait => .wait
        | .revoked s => .moved s
        | .ready s => k s mb

/-- A poisoned word among those that lanes read from a buffer (R310). -/
def poisonedOffset (s : State) (t : RowSlot) (b : Buf) (offs : List (Nat × Nat)) : Option (Nat × LaneMask) :=
  if s.poison.isEmpty then none
  else
    match offs.filter fun x => (bufPoison s t.c t.r.member b x.2 4).isSome with
    | [] => none
    | x :: rest => some (x.2 + (bufPoison s t.c t.r.member b x.2 4).getD 0, LaneMask.build fun k => k == x.1 || rest.any fun y => y.1 == k)

/-! ### Stores of one place by several rows (R32) -/

/-- A row of higher item has stored the place already at the same slot or at a later one, on the same member or on another one.  R32 puts
the row's own store at the later slot before that one, and the row's earlier stores stand before both (log 73). -/
def Ctx.outranked (c : Ctx) (e : Entry) (r : Row) (same : Bool) (x : Space × Nat) : Bool :=
  c.stores.any fun y => decide (e.seq ≤ y.seq) && decide (r.item < y.item) && (y.member == r.member) == same && y.cells.contains x

/-- Rows of lower item have not taken the slot of a row. -/
def RowSlot.leads (t : RowSlot) : Bool := !t.insp && t.c.rows.any fun q => q.live && decide (q.item < t.r.item) && !t.c.passedBy q t.e

/-- What a row stores is noted while rows of lower item have not taken its slot. -/
def RowSlot.note (t : RowSlot) (cells : List (Space × Nat)) (c : Ctx) : Ctx :=
  if t.leads then { c with stores := c.stores ++ [⟨t.e.seq, t.r.item, t.r.member, cells⟩] } else c

/-- Bytes that rows of this member stored at a slot, or at an earlier one, and a row of a higher member stores there too: they are not
performed. -/
def Member.supersede (mb : Member) (seq : Nat) (ls : List GLoc) : Member :=
  { mb with psb := mb.psb.map fun p =>
      { p with lost := p.lost ++
          (ls.filter fun l => l.line == p.loc && p.slots.any fun x => x.1 == l.pa % 128 && decide (x.2 ≤ seq)).map fun l => l.pa % 128 } }

/-- The same on every member below that of a row. -/
def Ctx.supersede (c : Ctx) (e : Entry) (r : Row) (ls : List GLoc) : Ctx :=
  { c with members := c.members.zipIdx.map fun (mb, m) => if m < r.member then mb.supersede e.seq ls else mb }

/-- The bytes that a row's store to global memory puts into its member's buffer, and what it says of them: a row of higher item on the
same member keeps its bytes, those of another member are performed in place of the row's. -/
def RowSlot.storePart (t : RowSlot) (vas : List (GLoc × Nat × Nat)) (bytes : List (GLoc × Byte)) : List (GLoc × Byte) × StoreTag :=
  if t.insp then (bytes, { vas := vas })
  else (bytes.filter fun x => !t.c.outranked t.e t.r true (.global, x.1.pa),
    { slot := some t.e.seq, lost := (bytes.map fun x => x.1).filter fun l => t.c.outranked t.e t.r false (.global, l.pa), vas := vas })

/-- The context behind a row's store to global memory. -/
def RowSlot.stored (t : RowSlot) (c : Ctx) (ls : List GLoc) : Ctx :=
  if t.insp then c else t.note (ls.map fun l => (Space.global, l.pa)) (c.supersede t.e t.r ls)

def execVld (f : LForm) (s : State) : Out :=
  rowStep s (.vld f) fun t =>
    let part := t.part (.vld f)
    withSources s t part [vaOp t f.va] (ownLane 1) fun srcs =>
      let b := laneBuf f.fn
      let offs := laneOffsets f part srcs
      bufferAccess s t b false offs fun s _ =>
        match poisonedOffset s t b offs with
        | some (o, mask) => .fault .mchk (poisonAddr (bufCode b) o) mask
        | none =>
          applyResult s t part f.la
            { writes := [(f.vd.toNat, Lanes.build fun l =>
                BitVec.ofNat 32 (leNat (bufLoad s t.c t.r.member b (laneOffset (srcWord srcs 0 l) f.vc) 4)))] }

def execVst (f : LForm) (s : State) : Out :=
  rowStep s (.vst f) fun t =>
    let part := t.part (.vst f)
    withSources s t part [vaOp t f.va, vbOp t f.vb] (ownLane 2) fun srcs =>
      let b := laneBuf f.fn
      let offs := laneOffsets f part srcs
      bufferAccess s t b true offs fun s _ =>
        let mine := if t.insp then offs else offs.filter fun x => !t.c.outranked t.e t.r true (.buf b, x.2)
        let s1 := mine.foldl (fun s x => bufStore s t.c t.r.member b x.2 (leBytes 4 (srcWord srcs 1 x.1).toNat)) s
        .ok (if t.leads then s1.updCtx t.c.id (t.note (offs.map fun x => (.buf b, x.2))) else s1) t.r

/-! ## Global memory -/

/-- R194: the address of a lane. -/
def laneAddr (lo hi : Word) (disp : Nat) : Nat := (hi.toNat * 2 ^ 32 + lo.toNat + disp) % 2 ^ 64

/-- What a format code asks of an access: bytes, alignment, whether T is listed (R202-R204). -/
structure UnitRule where
  size : Nat
  align : Nat
  listed : Bool

/-- R202, R203. -/
def pageUnit (t : ElemTy) (fmt : Nat) : UnitRule :=
  if fmt == 0 then ⟨4, 4, true⟩
  else if fmt ≤ 3 then ⟨sxBytes fmt, 1, t == .f32⟩
  else if fmt == 4 then ⟨1, 1, t == .f32 || t == .i32⟩
  else if fmt ≤ 6 then ⟨2, 2, t == .f32⟩
  else ⟨4, 4, t == .f32⟩

/-- The causes present in one lane and its unit: the translation causes of all its bytes, or what the pages do not allow (R216). An address that is not aligned is checked in its first byte only. -/
def laneUnit (s : State) (domain : Nat) (user : Bool) (k : Access) (rule : Nat → UnitRule) (l va : Nat) : List Cause × LaneUnit :=
  match lookup s domain va with
  | .error e => ([e.cause], ⟨l, va, 0, []⟩)
  | .ok x =>
    let r := rule x.fmt
    let aligned := va % r.align == 0
    let vas := (List.range (if aligned then r.size else 1)).map fun j => (va + j) % 2 ^ 64
    let pages := vas.map fun a => (a, lookup s domain a)
    let bad := pages.filterMap fun p => match p.2 with
      | .error e => some e.cause
      | .ok y => if (y.loc p.1).mappable s.fenced then none else some Cause.ptebad
    if !bad.isEmpty then (bad, ⟨l, va, x.fmt, []⟩)
    else
      let oks := pages.filterMap fun p => p.2.toOption.map fun y => (p.1, y)
      ((if aligned then [] else [.align]) ++ (if oks.all fun y => y.2.permits user k then [] else [.perm]) ++
        (if r.listed && oks.all (fun y => y.2.fmt == x.fmt) then [] else [.fmtf]),
        ⟨l, va, x.fmt, oks.map fun y => y.2.loc y.1⟩)

/-- The first bad byte among the units that lanes read, and the lanes that read one (R310). -/
def badUnit (f : GLoc → Bool) (us : List LaneUnit) : Option (Nat × LaneMask) :=
  let bad := fun (u : LaneUnit) => u.locs.findIdx? f
  match us.filter fun u => (bad u).isSome with
  | [] => none
  | u :: rest => some (u.va + (bad u).getD 0, LaneMask.build fun k => k == u.lane || rest.any fun y => y.lane == k)

/-- A poisoned word at home among the units that lanes read (R310). -/
def poisonedUnit (s : State) (die : Nat) (us : List LaneUnit) : Option (Nat × LaneMask) :=
  if s.poison.isEmpty then none else badUnit (fun y => s.memPoisoned (y.on die)) us

/-- The same of a load through a member, which takes the bytes of the store buffer from there (R223). -/
def poisonedView (s : State) (mb : Member) (us : List LaneUnit) : Option (Nat × LaneMask) :=
  if s.poison.isEmpty then none else badUnit (fun y => !mb.overlaid y && s.memPoisoned (y.on (dieOf mb.cluster))) us

/-- The same of an atomic, before which the context's own lines have drained (R222, R414). -/
def poisonedDrained (s : State) (k : Nat) (mb : Member) (us : List LaneUnit) : Option (Nat × LaneMask) :=
  if s.poison.isEmpty then none
  else poisonedUnit ((us.flatMap fun u => u.locs).foldl (fun (x : State × Member) l => atomicLine k x.1 x.2 l) (s, mb)).1 0 us

/-- The addresses of the participating lanes. -/
def laneAddrs (part : LaneMask) (srcs : List Source) (disp : Nat) : List (Nat × Nat) :=
  (lanesOf part).map fun l => (l, laneAddr (srcWord srcs 0 l) (srcWord srcs 1 l) disp)

/-- The address pair of a slot. -/
def pairOps (t : RowSlot) (va : BitVec 8) : List Operand := [⟨va.toNat, t.e.kA, false⟩, ⟨va.toNat + 1, t.e.kA, false⟩]

/-- The units that a slot found before it stalled (R211). -/
def RowSlot.kept (t : RowSlot) : Option (List LaneUnit) :=
  if t.insp then none else (t.r.held.filter fun x => x.1 == t.e.seq).map fun x => x.2

/-- The VAMO of which the row has performed some lanes (R414). -/
def RowSlot.underWay (t : RowSlot) : Option AmoPart := if t.insp then none else t.r.amo

/-- A slot that stalls keeps the units that its checks found (R211). -/
def keepUnits (s : State) (t : RowSlot) (us : List LaneUnit) (res : RowRes) : RowRes :=
  if t.insp || t.kept == some us then res else .moved (s.putCtx (t.c.putRow { t.r with held := some (t.e.seq, us) }))

/-- The checks of R216 in every lane, made once: a lane fault, or the units.  DESIGN CHOICE (log 61): an access that was checked before a
stack was fenced still reaches the bytes that stood there. -/
def checkedUnits (t : RowSlot) (unit : Nat → Nat → List Cause × LaneUnit) (extra : List LaneUnit → Nat → List Cause)
    (addrs : List (Nat × Nat)) (go : List LaneUnit → RowRes) : RowRes :=
  match t.kept with
  | some us => go us
  | none =>
    let checked := addrs.map fun x => unit x.1 x.2
    let us := checked.map fun x => x.2
    match firstCause (checked.map fun x => (x.2.lane, x.2.va, x.1 ++ extra us x.2.lane)) with
    | some (cause, a, mask) => .fault cause (BitVec.ofNat 64 a) mask
    | none => go us

/-- The stall of R211 on global units, and a load's wait behind lines at a port; lanes of an atomic that are performed already stall no more. -/
def stallUnits (s : State) (t : RowSlot) (mb : Member) (store : Bool) (us : List LaneUnit) (go : List LaneUnit → RowRes) : RowRes :=
  if t.underWay.isSome then go us
  else
    match boardStall mb store (us.map fun u => ⟨.global, u.va, u.locs.length⟩) with
    | some .wait => keepUnits s t us .wait
    | some r => r
    | none => if !store && portBusy s (us.flatMap fun u => u.locs) then keepUnits s t us .wait else go us

/-- Checks, stall and Monochrome order of a global access, then `k` with the units in lane order; `extra` are causes that depend
on several lanes. -/
def globalAccess (s : State) (t : RowSlot) (k : Access) (store : Bool) (rule : Nat → UnitRule) (addrs : List (Nat × Nat))
    (extra : List LaneUnit → Nat → List Cause) (go : Member → List LaneUnit → RowRes) : RowRes :=
  match t.c.member t.r.member with
  | none => .wait
  | some mb =>
    checkedUnits t (fun a => laneUnit s t.c.domain (!t.insp) k rule a) extra addrs fun us =>
      stallUnits s t mb store us fun us =>
        if (if t.insp then monoBlocked s t.c t.e.key else monoRowBlocked s t.c t.r t.e) then keepUnits s t us .wait else go mb us

/-- The bytes of an access given to the units in order. -/
def splitUnits : List LaneUnit → List Byte → List (Nat × List Byte)
  | [], _ => []
  | u :: rest, bs => (u.lane, bs.take u.locs.length) :: splitUnits rest (bs.drop u.locs.length)

/-- The units of a load read through the member's view (R223, R229). -/
def loadUnits (m : List Host.Cell) (mb : Member) (us : List LaneUnit) : List (Nat × List Byte) × Member :=
  let r := loadBytes m mb (us.flatMap fun u => u.locs)
  (splitUnits us r.1, r.2)

/-- The value of R202. -/
def decodeUnit (t : ElemTy) (raw : Bool) (fmt l : Nat) (bs : List Byte) : Word :=
  let w := leNat bs
  if raw || fmt == 0 || fmt == 7 then BitVec.ofNat 32 w
  else if fmt ≤ 3 then BitVec.ofNat 32 ((SxBlock.ofBytes (sxM fmt) bs).f32 (sxM fmt) (l % 16))
  else if fmt == 4 then
    (if t == .i32 then BitVec.ofInt 32 (elemInt true 8 w) else BitVec.ofNat 32 (cvtIF true 8 fmtF32 .rne w).1)
  else BitVec.ofNat 32 (cvtFF (if fmt == 5 then fmtF16 else fmtBF16) fmtF32 .rne w).1

def execVldg (f : LForm) (s : State) : Out :=
  rowStep s (.vldg f) fun t =>
    let part := t.part (.vldg f)
    let raw := f.fn == 1
    withSources s t part (pairOps t f.va) (ownLane 2) fun srcs =>
      globalAccess s t .load false (if raw then fun _ => ⟨4, 4, true⟩ else pageUnit f.t) (laneAddrs part srcs (4 * f.vc.toNat))
          (fun _ _ => []) fun mb us =>
        match poisonedView s mb us with
        | some (a, mask) => .fault .mchk (poisonAddr 5 a) mask
        | none =>
          let (out, mb) := loadUnits s.mem mb us
          let fmtAt := fun l => ((us.find? fun u => u.lane == l).map fun u => u.fmt).getD 0
          applyResult (s.putCtx (t.c.putMember t.r.member mb)) t part f.la
            { writes := [(f.vd.toNat, Lanes.build fun l =>
                match out.find? fun x => x.1 == l with
                | some x => decodeUnit f.t raw (fmtAt l) l x.2
                | none => 0)] }

/-- The group rule of R203: a lane on a page of format 1 to 3 whose group is not complete or not at one address. -/
def groupBad (part : LaneMask) (us : List LaneUnit) (l : Nat) : List Cause :=
  match us.find? fun u => u.lane == l with
  | none => []
  | some u =>
    let group := (List.range 16).map fun j => l / 16 * 16 + j
    if decide (1 ≤ u.fmt ∧ u.fmt ≤ 3) &&
        !(group.all fun k => part.getLsbD k && us.any fun y => y.lane == k && y.va == u.va) then [.fmtf] else []

/-- The bytes of a lane's unit and the flags (R203); a block comes from lane 16q of its group. -/
def encodeUnit (t : ElemTy) (v : Nat → Word) (u : LaneUnit) : List Byte × FpFlags :=
  let w := (v u.lane).toNat
  if u.fmt == 0 || u.fmt == 7 then (leBytes 4 w, 0)
  else if u.fmt ≤ 3 then
    (if u.lane % 16 == 0 then
      let x := sxEncode (sxM u.fmt) ((List.range 16).map fun j => (v (u.lane + j)).toNat)
      (x.1.toBytes (sxM u.fmt), x.2)
    else ([], 0))
  else if u.fmt == 4 then
    let x := convElem t .i8 .rne w
    (leBytes 1 x.1, x.2)
  else
    let x := cvtFF fmtF32 (if u.fmt == 5 then fmtF16 else fmtBF16) .rne w
    (leBytes 2 x.1, x.2)

def execVstg (f : LForm) (s : State) : Out :=
  rowStep s (.vstg f) fun t =>
    let part := t.part (.vstg f)
    withSources s t part (pairOps t f.va ++ [vbOp t f.vb]) (ownLane 3) fun srcs =>
      globalAccess s t .store true (pageUnit f.t) (laneAddrs part srcs (4 * f.vc.toNat)) (groupBad part) fun mb us =>
        let out := us.map fun u => (u, encodeUnit f.t (srcWord srcs 2) u)
        let bytes := out.flatMap fun x => x.1.locs.zip x.2.1
        let mine := t.storePart ((us.flatMap fun u => vaLines t.c.domain u.va u.locs).eraseDups) bytes
        let (s1, mb) := storeBytes s t.c mb mine.1 mine.2 !bytes.isEmpty
        .ok (s1.putCtx (t.stored (t.c.putMember t.r.member mb) (bytes.map fun x => x.1))) { t.r with flags := t.r.flags ||| FpFlags.join (out.map fun x => x.2.2) }

/-- Op of R414 with its flags, by FN, T and RND. -/
def laneAtomic (fn : BitVec 4) (t : ElemTy) (rnd : Rnd) (old b cmp : Nat) : Nat × FpFlags :=
  match fn.toNat with
  | 0 => addElem t rnd false old b
  | 1 => minElem t old b
  | 2 => maxElem t old b
  | 3 => (old &&& b, 0)
  | 4 => (old ||| b, 0)
  | 5 => (old ^^^ b, 0)
  | 6 => (b, 0)
  | _ => (if old == cmp then b else old, 0)

def amoNew (f : LForm) (old b cmp : Nat) : Nat × FpFlags := laneAtomic f.fn f.t f.rnd old b cmp

/-- The lanes of a VAMO of context `k` one after another: old values and flags. -/
def amoLanes (k : Nat) (f : LForm) (b cmp : Nat → Word) : List LaneUnit → State → Member → List (Nat × Nat × FpFlags) × State × Member
  | [], s, mb => ([], s, mb)
  | u :: rest, s, mb =>
    let (s, mb) := match u.locs with
      | [] => (s, mb)
      | l :: _ => atomicLine k s mb l
    let new := fun old => amoNew f old (b u.lane).toNat (cmp u.lane).toNat
    let (old, s) := performAtomic s u.locs fun old => if (new old).1 == old then none else some (new old).1
    let (out, s, mb) := amoLanes k f b cmp rest s mb
    ((u.lane, old, (new old).2) :: out, s, mb)

/-- Old values by lane. -/
def amoOld (out : List (Nat × Nat × FpFlags)) (old : Lanes) : Lanes :=
  Lanes.build fun l => ((out.find? fun x => x.1 == l).map fun x => BitVec.ofNat 32 x.2.1).getD (old.get l)

def execVamo (f : LForm) (s : State) : Out :=
  rowStep s (.vamo f) fun t =>
    let part := t.part (.vamo f)
    let cas := f.fn == 7
    withSources s t part (pairOps t f.va ++ [vbOp t f.vb] ++ (if cas then [plainOp f.vc.toNat] else [])) (ownLane (if cas then 4 else 3))
        fun srcs =>
      globalAccess s t .atomic true (fun fmt => ⟨4, 4, fmt == 0⟩) (laneAddrs part srcs 0) (fun _ _ => []) fun mb us =>
        match (if t.underWay.isSome then none else poisonedDrained s t.c.id mb us) with
        | some (a, mask) => .fault .mchk (poisonAddr 5 a) mask
        | none =>
          let before := t.underWay.getD ⟨0, Lanes.fill 0, 0⟩
          let left := us.drop before.next
          let now := match s.hand.part with
            | some n => if t.insp then left else left.take n
            | none => left
          let (out, s1, mb) := amoLanes t.c.id f (srcWord srcs 2) (srcWord srcs 3) now s mb
          let old := amoOld out before.old
          let flags := FpFlags.join (out.map fun x => x.2.2)
          let s1 := s1.putCtx (t.c.putMember t.r.member mb)
          if now.length < left.length then
            (match s1.ctxOf t.c.id with
              | none => .wait
              | some c =>
                .moved (s1.putCtx (c.putRow { t.r with amo := some ⟨before.next + now.length, old, before.flags ||| flags⟩,
                                                       held := some (t.e.seq, us) })))
          else applyResult s1 t part f.la { writes := [(f.vd.toNat, old)], flags := before.flags ||| flags }

/-! ## SADV (R254, R402) -/

/-- The element index of a lane. -/
def sadvIndex (p : StreamPos) (item l : Nat) : Nat := p.cur + item * 64 + l

def execSadv (f : LForm) (s : State) : Out :=
  rowStep s (.sadv f) fun t =>
    let part := t.part (.sadv f)
    let p := t.e.streams.headD ⟨0, 0, false, false, 0⟩
    let w := if p.val then 8 else 4
    let there := fun l => p.isOpen && decide (sadvIndex p t.r.item l < p.len)
    let addrs := ((lanesOf part).filter there).map fun l => (l, (p.base + sadvIndex p t.r.item l * w) % 2 ^ 64)
    match t.c.member t.r.member with
    | none => .wait
    | some mb =>
      -- the format plays no part (R201)
      let unit := fun l a =>
        let x := laneUnit s t.c.domain true .load (fun _ => ⟨w, 1, true⟩) l a
        (x.1.filter fun c => c != .fmtf, x.2)
      checkedUnits t unit (fun _ _ => []) addrs fun us =>
        stallUnits s t mb false us fun us =>
          match poisonedUnit s (dieOf mb.cluster) us with
          | some (a, mask) => .fault .mchk (poisonAddr 5 a) mask
          | none =>
            let at' := fun l => (us.find? fun u => u.lane == l).map fun u => homeRead s.mem (dieOf mb.cluster) u.locs
            let word := fun k l => ((at' l).map fun bs => BitVec.ofNat 32 (leNat ((bs.drop k).take 4))).getD 0xFFFFFFFF
            applyResult s t part 0
              { writes := (f.vd.toNat, Lanes.build (word 0)) :: (if p.val then [(f.vd.toNat + 1, Lanes.build (word 4))] else []) }

end Sys2Proof.Machine
end

