-- ==== Sys2Proof/Machine/HostPort.lean ====
section
/-!
DEFINITION. The windows of the host, CXL.mem and the Ranoc peers (R5, R240, R273, R319, R320, R323, R324, R397).
-/
namespace Sys2Proof.Machine

/-- Bring-up is over: links are trained and clusters released (R325). -/
def State.up (s : State) : Bool := s.phase == .running

/-- The host reaches the device: a module of its port is left (R319).  DESIGN CHOICE (log 84): over none the host's accesses wait. -/
def State.hostUp (s : State) : Bool := s.up && s.fenced.linked 1

/-! ## Queue windows (R320) -/

/-- R273: a read of TICKET performs QRSV; the read of a queue that is not enabled returns all ones. -/
def execTicket (q : Nat) (s : State) : Out :=
  if !s.hostUp then wait s
  else
    match s.queueOf q with
    | none => done { s with hostRead := leBytes 8 (2 ^ 64 - 1) }
    | some dq =>
      let (v, s) := reserveSlot s dq
      done { s with hostRead := leBytes 8 v.toNat }

/-- A slot that a host commit may name (R271, R273). -/
def hostCommit (s : State) (q : Nat) (slot : DWord) : State :=
  match s.queueOf q with
  | none => countError s q
  | some dq =>
    if decide (dq.ticket ≤ slot.toNat) || decide (slot.toNat < dq.head) || dq.committed.contains slot.toNat then countError s q
    else commitSlot s dq slot.toNat

/-- R273: a write of COMMIT performs QCMT; an invalid one is dropped and counted. -/
def execCommit (q : Nat) (slot : DWord) (s : State) : Out := if s.hostUp then done (hostCommit s q slot) else wait s

/-- W1C of ERRCNT (R5). -/
def clearErrors (s : State) (q : Nat) (v : Word) : State :=
  { s with errcnt := (s.errcnt.map fun x => if x.1 == q then (x.1, x.2 &&& ~~~v) else x).filter fun x => x.2 != 0 }

def execErrcnt (q : Nat) (v : Word) (s : State) : Out := if s.hostUp then done (clearErrors s q v) else wait s

/-- The descriptor in CTLDESC. -/
def ctlDescBytes (s : State) : List Byte := s.ctlDesc.toList.flatMap fun w => leBytes 8 w.toNat

/-- R320: queue 0 enabled from CTLDESC, its BITMAP clear (R437), or BAD set; EN is not written over while it is 1 (log 30). -/
def enableControl (s : State) : State :=
  if s.ctlEn then s
  else
    match queueOf s 0 none 0 (ctlDescBytes s) with
    | none => { s with ctlBad := true }
    | some q => mirrorAll { s with ctlBad := false, ctlEn := true, queues := (s.queues.filter fun x => x.num != 0) ++ [q] } q

def execEnEnable (s : State) : Out := if s.hostUp then done (enableControl s) else wait s

/-- R320: writing 0 disables queue 0 once every record taken has completed.  DESIGN CHOICE (log 30): until then EN reads 1, writes to CTLDESC
stay ignored, and no further record is taken. -/
def writeDisable (s : State) : State := settleControl { s with ctlClosing := true }

def execEnDisable (s : State) : Out := if s.hostUp then done (writeDisable s) else wait s

/-- The offset of the control window in BAR0 (R320). -/
def ctlWindow : Nat := 0x40000

/-- R5, R320: a 64-bit write at an offset of BAR0, each register under its access code; RO and RSV fields ignore it. -/
def execRegisterWrite (addr : Nat) (v : DWord) (s : State) : Out :=
  if !s.hostUp then wait s
  else if addr < ctlWindow then
    match addr % 64 with
    | 8 => done (hostCommit s (addr / 64) v)
    | 16 => done (clearErrors s (addr / 64) (v.truncate 32))
    | _ => done s
  else
    match addr - ctlWindow with
    | 0x00 => done (if s.ctlEn then s else { s with ctlDesc := s.ctlDesc.setIfInBounds 0 v })
    | 0x08 => done (if s.ctlEn then s else { s with ctlDesc := s.ctlDesc.setIfInBounds 1 v })
    | 0x10 => done (if s.ctlEn then s else { s with ctlDesc := s.ctlDesc.setIfInBounds 2 v })
    | 0x18 => done (if s.ctlEn then s else { s with ctlDesc := s.ctlDesc.setIfInBounds 3 v })
    | 0x20 => done (if v.getLsbD 0 then enableControl s else writeDisable s)
    | _ => done s

/-- R5, R320: a 64-bit read at an offset of BAR0: what it returns, and the state after, since a read of TICKET reserves a slot (R273); the
window of a queue that is not enabled, and RSV fields, read as zero. -/
def bar0Read (s : State) (addr : Nat) : DWord × State :=
  if addr < ctlWindow then
    let n := addr / 64
    match addr % 64 with
    | 0 => match s.queueOf n with
      | none => (BitVec.allOnes 64, s)
      | some q => reserveSlot s q
    | 8 => (((s.queueOf n).map fun q => q.lastSlot).getD 0, s)
    | 16 => (BitVec.zeroExtend 64 (((s.errcnt.find? fun x => x.1 == n).map fun x => x.2).getD (0 : Word)), s)
    | 24 => (((s.queueOf n).map fun q => BitVec.ofNat 64 q.head).getD 0, s)
    | _ => (0, s)
  else
    match addr - ctlWindow with
    | 0x00 => (s.ctlDesc[0], s)
    | 0x08 => (s.ctlDesc[1], s)
    | 0x10 => (s.ctlDesc[2], s)
    | 0x18 => (s.ctlDesc[3], s)
    | 0x20 => ((if s.ctlEn then 1 else 0) ||| (if s.ctlBad then 2 else 0), s)
    | _ => (0, s)

/-- A host read of BAR0. -/
def hostRegisterRead (s : State) (addr : Nat) : Out :=
  if s.hostUp then
    let (v, s) := bar0Read s addr
    done { s with hostRead := leBytes 8 v.toNat }
  else wait s

/-! ## CXL.mem (R319, R240) -/

/-- A byte of region 0x0 that the host or a peer may reach: populated and not reserved. -/
def reachable (s : State) (x : Nat) : Bool := decide (x < 2 ^ 39) && paMappable s.fenced x

/-- One byte as an outside reader gets it: poisoned data where nothing can be reached or the word is poisoned (log 13). -/
def outsideByte (s : State) (x : Nat) : Byte :=
  if reachable s x && !(s.poison != [] && s.memPoisoned x) then Memory.read s.mem x else Config.poisonedByte x

/-- R319: the offset of region 0x0 that a host address reaches; none outside the window from HDMBASE on. -/
def hdmOffset (s : State) (a : Nat) : Option Nat := if s.hdmBase ≤ a ∧ a < s.hdmBase + 2 ^ 39 then some (a - s.hdmBase) else none

/-- R319: `n` bytes from host address `a` on. -/
def execHostCxlMemRead (a n : Nat) (s : State) : Out :=
  match if s.hostUp then hdmOffset s a else none with
  | none => wait s
  | some x =>
    let as := (List.range n).map fun k => x + k
    done { s with hostRead := as.map (outsideByte s), log := if as.all (reachable s) then s.log else s.log ++ [.badRead x] }

/-- The slots that a write changes, as they stood (R319). -/
def overwritten (s : State) (as : List Nat) : List (Nat × List Byte) :=
  ((as.map fun a => a / 8 * 8).eraseDups).map fun a => (a, Memory.readN s.mem a 8)

/-- Bytes that land in one copy alone, whatever page maps it (R240). -/
def writeCopy (s : State) (l : List (Nat × Byte)) : State :=
  let old := overwritten s (l.map fun x => x.1)
  let s := s.perform (l.map fun x => (⟨x.1, false⟩, x.2))
  { s with oldSlots := s.oldSlots ++ old }

/-- R319, R240: bytes that cannot be reached are dropped and logged. -/
def execHostCxlMemWrite (a : Nat) (data : List Byte) (s : State) : Out :=
  match if s.hostUp then hdmOffset s a else none with
  | none => wait s
  | some x =>
    let l := data.zipIdx.map fun (v, k) => (x + k, v)
    let s1 := writeCopy s (l.filter fun y => reachable s y.1)
    done { s1 with log := if l.all fun y => reachable s y.1 then s1.log else s1.log ++ [.badWrite x] }

/-! ## Peers (R323, R324) -/

/-- R324: a peer's load, store or atomic at the home slice of this device, which has a number in a load-store domain; it comes over any Ranoc
port that is left (log 84). -/
def execRemoteAccess (pa : Nat) (op : RemoteOp) (s : State) : Out :=
  if !s.up || !s.fenced.linked 2 || s.deviceNumber.isNone then wait s
  else
    match op with
    | .load n =>
      let as := (List.range n).map fun k => pa + k
      done { s with hostRead := as.map (outsideByte s), log := if as.all (reachable s) then s.log else s.log ++ [.badRead pa] }
    | .store data =>
      let l := data.zipIdx.map fun (v, k) => (pa + k, v)
      let s1 := writeCopy s (l.filter fun y => reachable s y.1)
      done { s1 with log := if l.all fun y => reachable s y.1 then s1.log else s1.log ++ [.badWrite pa] }
    | .atomic op wide operand compare =>
      let n := if wide then 8 else 4
      let w := 8 * n
      let as := (List.range n).map fun k => pa + k
      if !(as.all (reachable s)) then done { s with hostRead := as.map (outsideByte s), log := s.log ++ [.badWrite pa] }
      else
        let old := as.map (outsideByte s)
        let v := leNat old
        if op == .cas && v != compare.toNat % 2 ^ w then done { s with hostRead := old }
        else
          let new := atomicNew op w v (operand.toNat % 2 ^ w) (compare.toNat % 2 ^ w)
          done { writeCopy s (as.zip (leBytes n new)) with hostRead := old }
    | .lane fn t rnd operand compare =>
      let as := (List.range 4).map fun k => pa + k
      if !(as.all (reachable s)) then done { s with hostRead := as.map (outsideByte s), log := s.log ++ [.badWrite pa] }
      else
        let old := as.map (outsideByte s)
        let new := (laneAtomic fn t rnd (leNat old) operand.toNat compare.toNat).1
        if new == leNat old then done { s with hostRead := old }
        else done { writeCopy s (as.zip (leBytes 4 new)) with hostRead := old }

/-- R323: the fabric manager sets the number before any cluster is released. -/
def execDeviceNumberSet (n : BitVec 10) (s : State) : Out :=
  if s.phase == .atReset then done { s with deviceNumber := some n } else wait s

end Sys2Proof.Machine
end

