-- ==== Sys2Proof/Machine/BringUp.lean ====
section
/-!
DEFINITION. Bring-up, reports, fencing and hardware errors (R95, R309, R325-R329).
-/
namespace Sys2Proof.Machine

/-- R327: the boot ROM's verdict on the signature: of an image that it is given, else the one that the inputs hold. -/
def BootInputs.verified (b : BootInputs) : Bool :=
  match b.image with
  | some i => edVerify i.vendorKey i.bytes i.signature
  | none => b.signatureOk

/-- Step, failure code and fenced units at which bring-up ends; the code is 0 when it succeeds (R325, R326). -/
def bringUp (b : BootInputs) : BitVec 8 × BitVec 8 × Fenced :=
  let upTo3 : Fenced := { b.failing with ucie := 0, storage := 0, ranoc := 0 }
  if !b.securityOk then (1, 0x01, Fenced.clear)
  else if !b.fusesOk then (1, 0x02, Fenced.clear)
  else if !b.verified then (2, 0x03, Fenced.clear)
  else if b.version < b.rollback then (2, 0x04, Fenced.clear)
  else if !b.skoconOk then (3, 0x05, upTo3)
  else if b.failing.clusters == BitVec.allOnes 192 || b.failing.hbm == BitVec.allOnes 8 then (3, 0x06, upTo3)
  else (5, 0x00, b.failing)

/-- R325, R326: a reset leaves the device as it stands before its bring-up; in that state it is brought up, with the number that the fabric
manager has set by then (R323; log 51). What an input decides is kept: the boot inputs, the agenda. -/
def execReset (s : State) : Out :=
  let fresh : State := { State.reset with boot := s.boot, agenda := s.agenda, free := s.free }
  if s.phase != .atReset then done fresh
  else
    let (step, code, f) := bringUp s.boot
    done { fresh with phase := if code == 0 then .running else .amber step code, fenced := f, deviceNumber := s.deviceNumber }

/-! ## Reports -/

/-- Step and code of the report in force; none before bring-up. -/
def State.reportState (s : State) : Option (BitVec 8 × BitVec 8) :=
  match s.phase with
  | .atReset => none
  | .running => some (5, 0)
  | .amber step code => some (step, code)

/-- The self-test report (R326). -/
def selfTestBytes (s : State) (step code : BitVec 8) : List Byte :=
  leBytes 4 0x58564152 ++ leBytes 2 1 ++ [step, code] ++ leBytes 8 0 ++ leBytes 24 s.fenced.clusters.toNat ++
    leBytes 32 s.fenced.slices.toNat ++ leBytes 1 s.fenced.hbm.toNat ++ leBytes 1 s.fenced.ucie.toNat ++
    leBytes 1 s.fenced.storage.toNat ++ [0] ++ leBytes 2 s.fenced.ranoc.toNat ++ leBytes 2 0

/-- R326. -/
def execSelfTestReport (s : State) : Out :=
  match s.reportState with
  | none => wait s
  | some (step, code) => done { s with log := s.log ++ [.selfTest (selfTestBytes s step code)] }

/-- R327: the measurement: 64 bytes of SHAKE256 over firmware, self-test report and nonce. -/
def measurement (b : BootInputs) (report nonce : List Byte) : List Byte :=
  shake256 ((b.image.map fun i => i.bytes).getD (Config.firmware b.version) ++ report ++ nonce) 64

/-- R327: the signature over the measurement, with the device identity key; no report in the Amber state (log 12). -/
def execAttestationReport (nonce : List Byte) (s : State) : Out :=
  if !s.up then wait s
  else
    let seed := s.boot.identity.getD Config.identitySeed
    done { s with log := s.log ++ [.attestation (edSign seed (measurement s.boot (selfTestBytes s 5 0) nonce))] }

/-! ## Fencing -/

/-- R328: the contexts with a member on a fenced cluster are killed, and their gangs with them. -/
def killFenced (s : State) : State :=
  (s.ctxs.filter fun c => c.resident && c.ended.isNone && c.members.any fun m => !s.whole m.cluster).foldl (fun s c =>
    match s.ctxOf c.id with
    | some c => endContext { s with log := s.log ++ [.killed c.id] } c 2 0x22 0 0
    | none => s) s

def Fenced.add (f : Fenced) (u : FenceUnit) : Fenced :=
  match u with
  | .cluster n => { f with clusters := f.clusters ||| (1#192 <<< n) }
  | .slice n => { f with slices := f.slices ||| (1#256 <<< n) }
  | .stack n => { f with hbm := f.hbm ||| (1#8 <<< n) }
  | .ucie n => { f with ucie := f.ucie ||| (1#8 <<< n) }
  | .storage n => { f with storage := f.storage ||| (1#4 <<< n) }
  | .ranoc n => { f with ranoc := f.ranoc ||| (1#16 <<< n) }

/-- R328: units fenced at run time, the management interface told of REPLACE, the contexts of fenced clusters killed. -/
def fenceNow (s : State) (f : Fenced) : State := killFenced { s with fenced := f, log := s.log ++ [.replace] }

/-- R328. -/
def execRuntimeFence (u : FenceUnit) (s : State) : Out := if !s.up then wait s else done (fenceNow s (s.fenced.add u))

/-- R329: the clusters of a die that passes its critical temperature are fenced; its stacks stay. -/
def execCriticalTemperature (die : Nat) (s : State) : Out :=
  if !s.up then wait s
  else done (fenceNow s ((List.range 48).foldl (fun f k => f.add (.cluster (48 * die + k))) s.fenced))

/-! ## Uncorrectable errors (R309) -/

/-- The word exists. -/
def wordExists (s : State) : PoisonLoc → Bool
  | .vreg c item reg lane =>
    ((s.ctxOf c).bind fun x => x.rowOf item).any (fun r => r.live && decide (reg < r.regs.length)) && decide (lane < 64)
  | .greg c reg => (s.ctxOf c).isSome && decide (1 ≤ reg ∧ reg < 64)
  | .buf c m b off => ((s.ctxOf c).bind fun x => x.member m).any fun mb => decide (off < (mb.buf b).size)
  | .mem pa => paExists s.fenced pa

/-- The word becomes poisoned. -/
def execUncorrectableError (l : PoisonLoc) (s : State) : Out :=
  if wordExists s l && !s.poison.contains l then done { s with poison := s.poison ++ [l] } else wait s

end Sys2Proof.Machine
end

