-- ==== Sys2Proof/Machine/Codec.lean ====
section
/-!
DEFINITION. The block codings of the fetch unit: XBC (R248), LZ4 (R249), CRC-32C (R245).  A result of none is the cause DECF.
-/
namespace Sys2Proof

/-- Bit `k` of a byte stream's 64-bit plane. -/
def bitAt (n k : Nat) : Nat := n / 2 ^ k % 2

/-- The planes of one group: eight 64-bit words, zero where Z has the bit. -/
def xbcPlanes (z : Nat) : Nat → Nat → List Byte → Option (List Nat × List Byte)
  | 0, _, src => some ([], src)
  | n + 1, p, src =>
    if bitAt z p == 1 then (xbcPlanes z n (p + 1) src).map fun x => (0 :: x.1, x.2)
    else if src.length < 8 then none
    else (xbcPlanes z n (p + 1) (src.drop 8)).map fun x => (leNat (src.take 8) :: x.1, x.2)

/-- The 64 bytes of a group from its planes, for element width w. -/
def xbcGroup (w : Nat) (planes : List Nat) : List Byte :=
  let s := (List.range 64).map fun i =>
    BitVec.ofNat 8 (planes.zipIdx.foldl (fun v x => v + bitAt x.1 i * 2 ^ x.2) 0)
  (List.range 64).map fun j => s.getD (j % w * (64 / w) + j / w) 0

/-- The groups of a block and what is left of the source. -/
def xbcGroups (w : Nat) : Nat → List Byte → Option (List Byte × List Byte)
  | 0, src => some ([], src)
  | n + 1, src =>
    match src with
    | [] => none
    | z :: rest =>
      match xbcPlanes z.toNat 8 0 rest with
      | none => none
      | some (p, rest) => (xbcGroups w n rest).map fun x => (xbcGroup w p ++ x.1, x.2)

/-- XBCDecode (R248). -/
def xbcDecode (src : List Byte) (logb : Nat) : Option (List Byte) :=
  match src with
  | [] => none
  | h :: rest =>
    if 3 ≤ h.toNat then none
    else
      match xbcGroups (2 ^ h.toNat) (2 ^ logb / 64) rest with
      | some (out, []) => some out
      | _ => none

/-- Length extension bytes. -/
def lz4Ext : List Byte → Nat → Option (Nat × List Byte)
  | [], _ => none
  | b :: l, n => if b == 255 then lz4Ext l (n + 255) else some (n + b.toNat, l)

/-- A length field with its extension. -/
def lz4Len (nib : Nat) (src : List Byte) : Option (Nat × List Byte) := if nib == 15 then lz4Ext src 15 else some (nib, src)

/-- `n` bytes copied from `off` back; the output is kept newest first. -/
def lz4Copy (off : Nat) : Nat → List Byte → List Byte
  | 0, out => out
  | n + 1, out => lz4Copy off n (out.getD (off - 1) 0 :: out)

/-- Sequences one after the other (R249). -/
def lz4Run (cap : Nat) : Nat → List Byte → List Byte → Option (List Byte)
  | 0, _, _ => none
  | fuel + 1, src, out =>
    match src with
    | [] => none
    | tok :: rest =>
      match lz4Len (tok.toNat / 16) rest with
      | none => none
      | some (n, rest) =>
        if decide (rest.length < n) || decide (cap < out.length + n) then none
        else
          let out := (rest.take n).reverse ++ out
          match rest.drop n with
          | [] => if out.length == cap then some out.reverse else none
          | [_] => none
          | a :: b :: rest =>
            let off := a.toNat + 256 * b.toNat
            match lz4Len (tok.toNat % 16) rest with
            | none => none
            | some (k, rest) =>
              if off == 0 || decide (out.length < off) || decide (cap < out.length + k + 4) then none
              else lz4Run cap fuel rest (lz4Copy off (k + 4) out)

/-- Lz4Decode (R249). -/
def lz4Decode (src : List Byte) (logb : Nat) : Option (List Byte) := lz4Run (2 ^ logb) (src.length + 1) src []

/-- One byte of the reflected CRC with polynomial 0x1EDC6F41. -/
def crcByte (c : Nat) : Nat → Nat
  | 0 => c
  | n + 1 => crcByte (if c % 2 == 1 then (c / 2) ^^^ 0x82F63B78 else c / 2) n

/-- CRC-32C (R245). -/
def crc32c (l : List Byte) : Nat := (l.foldl (fun c b => crcByte (c ^^^ b.toNat) 8) 0xFFFFFFFF) ^^^ 0xFFFFFFFF

end Sys2Proof
end

