-- ==== Sys2Proof/Machine/Fetch.lean ====
section
/-!
DEFINITION. The fetch unit (R243-R262, R357-R360, R403, R404): handles, FGAT, the merge commands, SPRD and SCHK.
-/
namespace Sys2Proof.Machine

/-! ## Handles and global reads (R244, R245) -/

/-- A handle descriptor's fields. -/
structure HandleDesc where
  data : Nat
  dir : Nat
  kind : Nat
  logb : Nat
  count : Nat
  deriving DecidableEq, Repr

def handleOf (v : BitVec 256) : HandleDesc :=
  let w := fun k : Nat => v.toNat / 2 ^ (64 * k) % 2 ^ 64
  ⟨w 0 % 2 ^ 57, w 1 % 2 ^ 57, w 2 % 4, w 2 / 256 % 16 + 7, w 3 % 2 ^ 32⟩

/-- HDLBAD of FHDL (R244) for a descriptor that has been read. -/
def handleBad (v : BitVec 256) : Bool :=
  let w := fun k : Nat => v.toNat / 2 ^ (64 * k) % 2 ^ 64
  let h := handleOf v
  h.data % 8 != 0 || h.dir % 16 != 0 || decide (2 ^ 57 ≤ w 0) || decide (2 ^ 57 ≤ w 1) || h.kind == 3 || w 2 / 4 % 64 != 0 ||
    decide (16 < h.logb) || decide (2 ^ 12 ≤ w 2) || decide (2 ^ 32 ≤ w 3) || (h.kind != 0 && h.dir == 0) || h.count == 0 ||
    !canonical h.data || !canonical h.dir

/-- A failure of the fetch unit: cause and TADDR. -/
abbrev FetchErr := Cause × Nat

/-- Bytes of global memory at home as the fetch unit reads them (R235). -/
def fetchRead (s : State) (c : Ctx) (port : ReadPort) (va n : Nat) : Except FetchErr (List Byte) :=
  match translateN s c.domain true .load va n with
  | .error (e, a) => .error (e.cause, a)
  | .ok ls =>
    match (if s.poison == [] then none else ls.zipIdx.find? fun y => s.memPoisoned (y.1.on port.die)) with
    | some y => .error (.mchk, (poisonAddr 5 (va + y.2)).toNat)
    | none => .ok (port.read s.mem ls)

/-- FetchBlock (R245) of block b through handle number n. -/
def fetchBlock (s : State) (c : Ctx) (port : ReadPort) (h : HandleDesc) (n b : Nat) (verify : Bool) : Except FetchErr (List Byte) :=
  let finish := fun (raw : List Byte) (crc : Option Nat) =>
    let out := if h.kind == 0 then some raw else if h.kind == 1 then xbcDecode raw h.logb else lz4Decode raw h.logb
    match out with
    | none => Except.error (Cause.decf, b)
    | some out =>
      if out.length != 2 ^ h.logb then .error (.decf, b)
      else match crc with
        | some v => if verify && crc32c out != v then .error (.crcf, b) else .ok out
        | none => .ok out
  if h.dir == 0 then
    if verify then .error (.hdlbad, n)
    else
      match fetchRead s c port (h.data + b * 2 ^ h.logb) (2 ^ h.logb) with
      | .error e => .error e
      | .ok raw => finish raw none
  else
    match fetchRead s c port (h.dir + 16 * b) 16 with
    | .error e => .error e
    | .ok ent =>
      let w0 := leNat (ent.take 8)
      let w1 := leNat (ent.drop 8)
      let clen := w0 / 2 ^ 40 % 2 ^ 17
      if decide (2 ^ 57 ≤ w0) || decide (2 ^ 32 ≤ w1) || clen == 0 then .error (.decf, b)
      else
        match fetchRead s c port (h.data + w0 % 2 ^ 40) clen with
        | .error e => .error e
        | .ok raw => finish raw (some w1)

def handleAt (mb : Member) (n : Nat) : BitVec 256 := mb.handles.toList.getD n 0

/-- R244, R359; a P0 that is not canonical raises NONCANON as any engine read does, and HDLBAD is for an address in the descriptor
(log 68). -/
def execFhdl (x : EForm) (s : State) : Out :=
  engineStep s .fetch (.fhdl x) fun s c m mb cmd =>
    let n := x.head.toNat % 64
    let a := pval x.p0
    if a % 32 != 0 then .fault s .hdlbad n 0
    else
      match fetchRead s c (cmd.port mb) a 32 with
      | .error (cause, va) => .fault s cause va 0
      | .ok bytes =>
        let v : BitVec 256 := BitVec.ofNat 256 (leNat bytes)
        if handleBad v then .fault s .hdlbad n 0
        else .ok (s.updMember c.id m fun mb => { mb with handles := mb.handles.setIfInBounds n v }) []

/-! ## FGAT (R246, R247) -/

/-- R247: TADDR of the first operand that fails. -/
def fgatBad (s : State) (c : Ctx) (m : Nat) (x : EForm) : Option Nat :=
  let dst := pval x.p0
  let l := pval x.p1
  let cnt := pval x.p2
  let g := x.head.toNat / 2 ^ 24 % 8 + 1
  if dst % 4 != 0 then some dst
  else if l % 4 != 0 then some l
  else if decide (l < 4 ∨ 65536 < l) then some l
  else if decide (cnt < 1 ∨ 64 * g < cnt) then some cnt
  else if (placeOf s c m (if x.fn == 0 then .ab else .wb) dst (cnt * l)).isNone then some dst
  else none

/-- Pieces from j on (R246): a fault leaves the earlier pieces written. -/
def fgatPieces (x : EForm) (c : Ctx) (m : Nat) (port : ReadPort) (n : Nat) (h : HandleDesc) (regs : List Lanes) : Nat → Nat → State → EngRes
  | 0, _, s => .ok s []
  | k + 1, j, s =>
    let b := ((regs.getD (2 * (j / 64)) (Lanes.fill 0)).get (j % 64)).toNat
    let o := ((regs.getD (2 * (j / 64) + 1) (Lanes.fill 0)).get (j % 64)).toNat
    let l := pval x.p1
    let bit : LaneMask := 1#64 <<< (j % 64)
    if h.count ≤ b then .fault s .frange b bit
    else if 2 ^ h.logb < o + l then .fault s .frange o bit
    else
      match fetchBlock s c port h n b (x.head.getLsbD 0) with
      | .error (cause, a) => .fault s cause a (if cause == .decf || cause == .crcf then bit else 0)
      | .ok blk =>
        fgatPieces x c m port n h regs k (j + 1) (bufStore s c m (if x.fn == 0 then .ab else .wb) (pval x.p0 + j * l) ((blk.drop o).take l))

def execFgat (x : EForm) (s : State) : Out :=
  engineStep s .fetch (.fgat x) fun s c m mb cmd =>
    match fgatBad s c m x, cmd.spoiled with
    | some v, _ => .fault s .frange v 0
    | none, some a => .fault s .mchk a 0
    | none, none =>
      match touchRanges c m [(if x.fn == 0 then .ab else .wb, pval x.p0, pval x.p1 * pval x.p2)] s with
      | .wait => .wait
      | .revoked s => .moved s
      | .ready s =>
        let n := x.head.toNat / 256 % 64
        fgatPieces x c m (cmd.port mb) n (handleOf (handleAt mb n)) cmd.copied (pval x.p2) 0 s

/-! ## Merges (R255, R403) -/

/-- Element x of a stream position: key and value. -/
def streamElem (s : State) (c : Ctx) (port : ReadPort) (p : StreamPos) (x : Nat) : Except FetchErr (Nat × Nat) :=
  let w := if p.val then 8 else 4
  match fetchRead s c port (p.base + x * w) w with
  | .error e => .error e
  | .ok bs => .ok (leNat (bs.take 4), leNat (bs.drop 4))

/-- The next element of a range, checked against the last key (SORTF). -/
def nextElem (s : State) (c : Ctx) (port : ReadPort) (p : StreamPos) (x : Nat) (last : Option Nat) : Except FetchErr (Option (Nat × Nat)) :=
  if p.len ≤ x then .ok none
  else
    match streamElem s c port p x with
    | .error e => .error e
    | .ok (k, v) => if (last.map fun l => decide (k ≤ l)).getD false then .error (.sortf, x) else .ok (some (k, v))

/-- The kinds of merge. -/
inductive MergeOp where
  | isec | union | diff | madd
  deriving DecidableEq, Repr

/-- What a merge writes for the least key of both heads. -/
def mergeOut (op : MergeOp) (a b : Option (Nat × Nat)) : Option (Nat × Nat) :=
  match a, b with
  | some (k, v), none => if op == .isec then none else some (k, v)
  | none, some (k, v) => if op == .isec || op == .diff then none else some (k, v)
  | some (k, v), some (_, w) =>
    match op with
    | .isec | .union => some (k, v)
    | .diff => none
    | .madd => some (k, (fAdd fmtF32 .rne v w).1)
  | none, none => none

/-- Positions of the walk, last keys, output so far (newest first). -/
structure MergeState where
  i : Nat
  j : Nat
  la : Option Nat
  lb : Option Nat
  out : List (Nat × Nat)
  count : Nat

/-- The walk: the whole output, or the fault with what was written before.  DESIGN CHOICE (log 42): of two faulty ranges the walk reports
the fault that it meets first in key order, that of A before that of B at one step. -/
def mergeWalk (s : State) (c : Ctx) (port : ReadPort) (op : MergeOp) (cap : Nat) (p q : StreamPos) :
    Nat → MergeState → MergeState × Option FetchErr
  | 0, t => (t, none)
  | n + 1, t =>
    match nextElem s c port p t.i t.la, nextElem s c port q t.j t.lb with
    | .error e, _ => (t, some e)
    | _, .error e => (t, some e)
    | .ok none, .ok none => (t, none)
    | .ok a, .ok b =>
      let ka := a.map fun x => x.1
      let kb := b.map fun x => x.1
      let useA := match ka, kb with
        | some x, some y => decide (x ≤ y)
        | some _, none => true
        | none, _ => false
      let useB := match ka, kb with
        | some x, some y => decide (y ≤ x)
        | none, some _ => true
        | _, none => false
      let o := mergeOut op (if useA then a else none) (if useB then b else none)
      mergeWalk s c port op cap p q n
        { i := if useA then t.i + 1 else t.i, j := if useB then t.j + 1 else t.j, la := if useA then ka else t.la,
          lb := if useB then kb else t.lb, out := if t.count < cap then o.toList ++ t.out else t.out,
          count := t.count + o.toList.length }

/-- R255, R403: entries in key order, the count last; a destination that is not 8-byte aligned raises FRANGE as one outside the allocation
does (log 68).  DESIGN CHOICE (log 42): STRBAD of an SMADD of two streams without values names that of A. -/
def runMerge (op : MergeOp) (x : EForm) (s : State) (c : Ctx) (m : Nat) (mb : Member) (cmd : Cmd) : EngRes :=
  let dst := pval x.p0
  let cap := pval x.p1
  let ew := mergeEntry cmd.e.streams
  let p := cmd.e.streams.getD 0 ⟨0, 0, false, false, 0⟩
  let q := cmd.e.streams.getD 1 p
  if dst % 8 != 0 || decide (2 ^ 20 < cap) || (placeOf s c m .ab dst (8 + cap * ew)).isNone then .fault s .frange dst 0
  else if op == .madd && !p.val then .fault s .strbad (x.head.toNat % 8) 0
  else if op == .madd && !q.val then .fault s .strbad (x.head.toNat / 8 % 8) 0
  else
    match touchRanges c m [(.ab, dst, 8 + cap * ew)] s with
    | .wait => .wait
    | .revoked s => .moved s
    | .ready s =>
      let (t, err) := mergeWalk s c (cmd.port mb) op cap p q (p.len + q.len + 1) ⟨p.cur, q.cur, none, none, [], 0⟩
      let bytes := t.out.reverse.flatMap fun (k, v) => leBytes 4 k ++ (if ew == 8 then leBytes 4 v else [])
      let s := bufStore s c m .ab (dst + 8) bytes
      match err with
      | some (cause, a) => .fault s cause a 0
      | none => .ok (bufStore s c m .ab dst (leBytes 8 t.count)) []

def execSisec (x : EForm) (s : State) : Out := engineStep s .fetch (.sisec x) fun s c m mb cmd => runMerge .isec x s c m mb cmd
def execSunion (x : EForm) (s : State) : Out := engineStep s .fetch (.sunion x) fun s c m mb cmd => runMerge .union x s c m mb cmd
def execSdiff (x : EForm) (s : State) : Out := engineStep s .fetch (.sdiff x) fun s c m mb cmd => runMerge .diff x s c m mb cmd
def execSmadd (x : EForm) (s : State) : Out := engineStep s .fetch (.smadd x) fun s c m mb cmd => runMerge .madd x s c m mb cmd

/-! ## The ochre predictor (R259-R262) -/

/-- The sum of products in order, rounded to A36 at each step (R260). -/
def a36Dot (xs ws : List FVal) : Nat := (xs.zip ws).foldl (fun acc (x, w) => a36Add acc (FVal.mul x w).1) 0

/-- The elements of a row of SX blocks in G0. -/
def sxRow (fmt : Nat) (bytes : List Byte) : List FVal :=
  let B := sxBytes fmt
  (List.range (bytes.length / B)).flatMap fun j =>
    let b := SxBlock.ofBytes (sxM fmt) ((bytes.drop (j * B)).take B)
    (List.range 16).map fun k => b.value (sxM fmt) k

/-- The F16 elements of a list of bytes. -/
def f16Row (bytes : List Byte) : List FVal :=
  (List.range (bytes.length / 2)).map fun k => FVal.decode fmtF16 (leNat ((bytes.drop (2 * k)).take 2))

/-- s > 0, false for NaN. -/
def positive (v : FVal) : Bool :=
  match v with
  | .fin n m _ => !n && m != 0
  | .inf n => !n
  | .nan _ => false

/-- An index list (R259). -/
def indexList (l : List Nat) : List Byte := leBytes 4 l.length ++ l.flatMap (leBytes 4)

/-- The first offset that is misaligned or out of its buffer (R259). -/
def rangeBad (s : State) (c : Ctx) (m : Nat) (l : List (Buf × Nat × Nat)) : Option Nat :=
  (l.find? fun (b, off, n) => off % 4 != 0 || (placeOf s c m b off n).isNone).map fun y => y.2.1

/-- R260. -/
def execSprd (x : EForm) (s : State) : Out :=
  engineStep s .fetch (.sprd x) fun s c m _ _ =>
    let d := headD x.head
    let f := headF x.head
    let r := headR x.head
    let ranges : List (Buf × Nat × Nat) := [(.ab, pval x.p0, 2 * d), (.wb, pval x.p1, r * (d / 16) * 12),
      (.wb, pval x.p2, f * (r / 16) * 12), (.ab, pval x.p3, maskBytes f + 4 + 4 * f)]
    match rangeBad s c m ranges with
    | some v => .fault s .frange v 0
    | none =>
      match touchRanges c m ranges s with
      | .wait => .wait
      | .revoked s => .moved s
      | .ready s =>
        match enginePoison s c m (ranges.take 3) with
        | some a => .fault s .mchk a 0
        | none =>
          let xs := f16Row (bufRead s c m .ab (pval x.p0) (2 * d))
          let z := (List.range r).map fun j =>
            a36Decode (a36Dot xs (sxRow 2 (bufRead s c m .wb (pval x.p1 + 12 * j * (d / 16)) (12 * (d / 16)))))
          let active := (List.range f).map fun k =>
            positive (a36Decode (a36Dot z (sxRow 2 (bufRead s c m .wb (pval x.p2 + 12 * k * (r / 16)) (12 * (r / 16))))))
          let maskNat := (active.zipIdx.map fun (a, k) => if a then 2 ^ k else 0).sum
          let list := (active.zipIdx.filter fun y => y.1).map fun y => y.2
          let s := bufStore s c m .ab (pval x.p3) (leBytes (maskBytes f) maskNat)
          .ok (bufStore s c m .ab (pval x.p3 + maskBytes f) (indexList list)) []

/-- R262: an SCHK answers on one member. -/
def answerVote (s : State) (c esn' : Nat) (n : Nat) : State :=
  match s.ctxOf c with
  | none => s
  | some x =>
    let members := x.members.length
    let step := fun (v : VqEntry) =>
      let v := { v with count := v.count + n, answered := v.answered + 1 }
      if v.result.isNone && decide (members ≤ v.answered) then { v with result := some (BitVec.ofNat 64 v.count) } else v
    let vq := mapIf (fun v => v.esn.toNat == esn' && v.kind == .schk) step x.vq
    let failed := vq.any fun v => v.esn.toNat == esn' && v.kind == .schk && v.result == some (BitVec.ofNat 64 v.count) &&
      decide (members ≤ v.answered) && decide (v.budget.toNat < v.count)
    s.putCtx { x with vq := vq, dense := x.dense || failed }

/-- R262: a faulting SCHK resolves its entry at once to all ones and sets DENSE. -/
def failVote (s : State) (c : Nat) (esn : BitVec 48) : State :=
  match s.ctxOf c with
  | none => s
  | some x => s.putCtx { dropVote x esn with dense := true }

/-- The rows of the coarse copy from f on: the listed neurons, newest first (R261). -/
def schkRows (s : State) (c : Ctx) (port : ReadPort) (h : HandleDesc) (d : Nat) (xs : List FVal) (mask : Nat) (beta : FVal) :
    Nat → Nat → List Nat → Except FetchErr (List Nat)
  | 0, _, acc => .ok acc
  | n + 1, f, acc =>
    if mask / 2 ^ f % 2 == 1 then schkRows s c port h d xs mask beta n (f + 1) acc
    else
      match fetchRead s c port (h.data + 8 * f * (d / 16)) (8 * (d / 16)) with
      | .error e => .error e
      | .ok bytes =>
        let a := a36Decode (a36Dot xs (sxRow 1 bytes))
        let mag := match a with
          | .fin _ m e => FVal.fin false m e
          | .inf _ => .inf false
          | v => v
        let keep := mag.isNan || beta.isNan || beta.lt mag
        schkRows s c port h d xs mask beta n (f + 1) (if keep then f :: acc else acc)

/-- R261, R262, R404. -/
def execSchk (x : EForm) (s : State) : Out :=
  engineStep s .fetch (.schk x) fun s c m mb cmd =>
    let d := headD x.head
    let f := headF x.head
    let n := x.head.toNat / 2 ^ 22 % 64
    let h := handleOf (handleAt mb n)
    let fail := fun (s : State) cause a => EngRes.fault (failVote s c.id cmd.e.esn) cause a 0
    let ranges : List (Buf × Nat × Nat) := [(.ab, pval x.p0, 2 * d), (.ab, pval x.p1, maskBytes f), (.ab, pval x.p2, 4 + 4 * f)]
    match rangeBad s c m ranges with
    | some v => fail s .frange v
    | none =>
      if h.kind != 0 || h.dir != 0 || h.count == 0 then fail s .hdlbad n
      else
        match touchRanges c m ranges s with
        | .wait => .wait
        | .revoked s => .moved s
        | .ready s =>
          match enginePoison s c m (ranges.take 2) with
          | some a => fail s .mchk a
          | none =>
            let xs := f16Row (bufRead s c m .ab (pval x.p0) (2 * d))
            let mask := leNat (bufRead s c m .ab (pval x.p1) (maskBytes f))
            match schkRows s c (cmd.port mb) h d xs mask (FVal.decode fmtF16 cmd.e.beta.toNat) f 0 [] with
            | .error (cause, a) => fail s cause a
            | .ok l => .ok (answerVote (bufStore s c m .ab (pval x.p2) (indexList l.reverse)) c.id cmd.e.esn.toNat l.length) []

/-- R243: the head command of the fetch queue retires. -/
def execFetchUnitRetire (c m : Nat) (s : State) : Out := retireHead s c m .fetch fun s _ _ => s

end Sys2Proof.Machine
end

