-- ==== Sys2Proof/Machine/Gen.lean ====
section
/-!
DEFINITION. Register-to-register generator instructions (R361-R366).
-/
namespace Sys2Proof.Machine

/-- The frame of R362: `g`d becomes f of `g`a and the second operand. -/
def genTwo (s : State) (q : Seq) (d a : GReg) (b : GSrc) (f : DWord → DWord → DWord) : Out :=
  genCompute s q d ([a] ++ srcRegs b) fun c => f (c.greg a) (c.src b)

/-- GMULH: bits [127:64] of the signed product (R362). -/
def mulHigh (a b : DWord) : DWord := BitVec.ofInt 64 (a.toInt * b.toInt / 2 ^ 64)
/-- GDIV with its corner cases (R362). -/
def divSigned (a b : DWord) : DWord :=
  if b == 0 then BitVec.allOnes 64 else BitVec.ofInt 64 (Int.tdiv a.toInt b.toInt)
/-- GREM with its corner cases (R362). -/
def remSigned (a b : DWord) : DWord := if b == 0 then a else BitVec.ofInt 64 (Int.tmod a.toInt b.toInt)
/-- Leading zero bits of a word of `n` bits (R365). -/
def leadingZeros (n : Nat) (v : Nat) : Nat := if v == 0 then n else n - 1 - Nat.log2 v
/-- Set bits among the low `n` (R365). -/
def popCount : Nat → Nat → Nat
  | 0, _ => 0
  | n + 1, v => v % 2 + popCount n (v / 2)

/-- The conditions of GCMP (R364). -/
def gcond (cc : GCond) (a b : DWord) : Bool :=
  match cc with
  | .eq => a == b
  | .ne => a != b
  | .lt => BitVec.slt a b
  | .le => BitVec.sle a b
  | .ltu => BitVec.ult a b
  | .leu => BitVec.ule a b

def execGadd (q : Seq) (d a : GReg) (b : GSrc) (s : State) : Out := genTwo s q d a b fun x y => x + y
def execGsub (q : Seq) (d a : GReg) (b : GSrc) (s : State) : Out := genTwo s q d a b fun x y => x - y
def execGmul (q : Seq) (d a : GReg) (b : GSrc) (s : State) : Out := genTwo s q d a b fun x y => x * y
def execGmulh (q : Seq) (d a : GReg) (b : GSrc) (s : State) : Out := genTwo s q d a b mulHigh
def execGdiv (q : Seq) (d a : GReg) (b : GSrc) (s : State) : Out := genTwo s q d a b divSigned
def execGrem (q : Seq) (d a : GReg) (b : GSrc) (s : State) : Out := genTwo s q d a b remSigned
def execGand (q : Seq) (d a : GReg) (b : GSrc) (s : State) : Out := genTwo s q d a b fun x y => x &&& y
def execGor (q : Seq) (d a : GReg) (b : GSrc) (s : State) : Out := genTwo s q d a b fun x y => x ||| y
def execGxor (q : Seq) (d a : GReg) (b : GSrc) (s : State) : Out := genTwo s q d a b fun x y => x ^^^ y
/-- Shift counts are b[5:0]. -/
def execGshl (q : Seq) (d a : GReg) (b : GSrc) (s : State) : Out := genTwo s q d a b fun x y => x <<< (y.toNat % 64)
def execGshr (q : Seq) (d a : GReg) (b : GSrc) (s : State) : Out := genTwo s q d a b fun x y => x >>> (y.toNat % 64)
def execGsra (q : Seq) (d a : GReg) (b : GSrc) (s : State) : Out :=
  genTwo s q d a b fun x y => x.sshiftRight (y.toNat % 64)
def execGmin (q : Seq) (d a : GReg) (b : GSrc) (s : State) : Out := genTwo s q d a b fun x y => if BitVec.sle x y then x else y
def execGmax (q : Seq) (d a : GReg) (b : GSrc) (s : State) : Out := genTwo s q d a b fun x y => if BitVec.sle y x then x else y

/-- R363: only the selected operand's value is written; both registers are sources. -/
def execGsel (q : Seq) (d a b : GReg) (f : BitVec 3) (s : State) : Out :=
  genCompute s q d [a, b] fun c => if c.flag f then c.greg a else c.greg b

/-- R364. -/
def execGcmp (q : Seq) (cc : GCond) (f : BitVec 3) (a : GReg) (b : GSrc) (s : State) : Out :=
  genStep s q ([a] ++ srcRegs b) fun c => .ok s (c.setFlag f (gcond cc (c.greg a) (c.src b)))

/-- R365. -/
def execGclz (q : Seq) (d a : GReg) (s : State) : Out :=
  genCompute s q d [a] fun c => BitVec.ofNat 64 (leadingZeros 64 (c.greg a).toNat)
def execGpopc (q : Seq) (d a : GReg) (s : State) : Out :=
  genCompute s q d [a] fun c => BitVec.ofNat 64 (popCount 64 (c.greg a).toNat)

/-- R366. -/
def execGli (q : Seq) (d : GReg) (v : BitVec 29) (s : State) : Out := genCompute s q d [] fun _ => v.signExtend 64
def execGlih (q : Seq) (d : GReg) (v : BitVec 29) (s : State) : Out :=
  genCompute s q d [d] fun c => c.greg d * 0x20000000 + v.zeroExtend 64

end Sys2Proof.Machine
end

