-- ==== Sys2Proof/Machine/Handover.lean ====
section
/-!
DEFINITION. The hand-over of engine commands (R59, R60, R176, R181, R185, R210, R243, R393) and MRDY, which acts there.
-/
namespace Sys2Proof.Machine

/-- The next engine command of a member, when R59 lets it be handed over: every lower slot completed on the member, every
earlier marker in effect, no MWAIT or CWAIT pending that holds rows (R60). -/
def handoverEntry (s : State) (c : Ctx) (m : Nat) : Option (Member × Entry × Instr) :=
  match c.member m with
  | none => none
  | some mb =>
    match c.stream.find? fun e => e.isEngine && decide (mb.handed ≤ e.seq) with
    | none => none
    | some e =>
      match e.item with
      | .marker _ => none
      | .slot i =>
        if c.rowsMove && (mb.holds.isEmpty || (c.memberRows m).isEmpty) && c.rowsBeyond (some m) e.seq &&
            !(c.stream.any fun x => x.isMarker && decide (x.seq < e.seq)) && !monoBlocked s c e.key &&
            (!c.mono || (c.members.take m).all fun x => decide (e.seq < x.handed)) then some (mb, e, i)
        else none

/-- Registers copied at hand-over from the row of local index 0; a retired row reads as zero (R181, R246). -/
def copyRegs (s : State) (c : Ctx) (m first n : Nat) : List Lanes × Option Nat :=
  match c.rowOf (m * c.rowCount) with
  | some r =>
    if r.live then
      let bad := if s.poison == [] then none
        else (List.range n).find? fun k => s.laneMask c.id r.item (first + k) != 0
      ((List.range n).map fun k => r.reg (first + k), bad.map fun k => first + k)
    else (List.replicate n (Lanes.fill 0), none)
  | none => (List.replicate n (Lanes.fill 0), none)

def copiedRegs (s : State) (c : Ctx) (m : Nat) (i : Instr) : List Lanes × Option Nat :=
  match i with
  | .fgat x => copyRegs s c m (x.head.toNat / 65536 % 256) (2 * (x.head.toNat / 2 ^ 24 % 8 + 1))
  | .mmas x => copyRegs s c m (x.head.toNat / 256 % 256) 128
  | _ => ([], none)

/-- Commands of a member that the range scoreboard bounds: all of the copy queue, those of the fetch queue but for FHDL (R315). -/
def Member.ranged (mb : Member) : Nat :=
  mb.copyQ.length + (mb.fetchQ.filter fun x => match x.e.item with
    | .slot (.fhdl _) => false
    | _ => true).length

/-- Room in the engine's queue (R243, R315, R393). -/
def queueRoom (mb : Member) (g : Engine) (i : Instr) : Bool :=
  match g with
  | .copy => decide (mb.ranged < Config.scoreboard)
  | .fetch =>
    decide (mb.fetchQ.length < Config.fetchQueue) && match i with
      | .fhdl _ => true
      | _ => decide (mb.ranged < Config.scoreboard)
  | .storage => decide ((mb.storageQ.filter fun x => x.st != .started).length < Config.storageQueue)
  | _ => true

/-- The command enters its queue. -/
def enqueue (s : State) (c : Ctx) (m : Nat) (mb : Member) (e : Entry) (i : Instr) (g : Engine) : Option Ctx :=
  if !queueRoom mb g i || (g == .matrix && !bankFor s c mb) then none
  else
    let b := boardEntry s c m e i
    if b.isSome && decide (Config.scoreboard ≤ boardUsed s mb.cluster) then none
    else
      let (regs, bad) := copiedRegs s c m i
      let cmd : Cmd := { e := e, copied := regs, held := isHeld i, st := .queued, spoiled := bad.map fun k => (poisonAddr 0 k).toNat }
      let mb := { mb.setQueue g (mb.queue g ++ [cmd]) with board := mb.board ++ b.toList, handed := e.seq + 1 }
      let mb := if g == .matrix then
          { mb with bank := { mb.bank with bound := true, used := true, hazards := if isHeld i then mb.bank.hazards else mb.bank.hazards ++ [newHazard e i] } }
        else mb
      some (c.putMember m mb).settle

/-- R59: the hand-over of the next command of a member, MRDY apart. -/
def execEngineHandover (k m : Nat) (s : State) : Out :=
  match s.ctxOf k with
  | none => .fault .noExecutor
  | some c =>
    match handoverEntry s c m with
    | none => wait s
    | some (mb, e, i) =>
      match i with
      | .mrdy _ => wait s
      | .mwait _ =>
        if bankFor s c mb then
          done (s.putCtx (c.putMember m { mb with holds := mb.holds ++ [e], handed := e.seq + 1, bank := { mb.bank with bound := true } }).settle)
        else wait s
      | .cwait _ => done (s.putCtx (c.putMember m { mb with holds := mb.holds ++ [e], handed := e.seq + 1 }).settle)
      | _ =>
        match engineOf i with
        | none => wait s
        | some g =>
          if g == .storage && m != 0 then
            -- R392: an NSUB retires at hand-over everywhere but on the leader
            done (s.putCtx (c.putMember m { mb with handed := e.seq + 1 }).engineLatch.settle)
          else
            match enqueue s c m mb e i g with
            | none => wait s
            | some c => done (s.putCtx c)

/-- R185: the held commands with the tag that stand in the queue are released, and their hazards begin (R190). -/
def releaseHeld (b : Bank) (tag : BitVec 16) : Bank :=
  let hit := b.queue.filter fun x => x.held && x.tag == tag
  { b with queue := mapIf (fun x => x.held && x.tag == tag) (fun x => { x with held := false }) b.queue,
           hazards := b.hazards ++ hit.filterMap fun x => match x.e.item with
             | .slot i => some (newHazard x.e i)
             | .marker _ => none }

/-- MRDY at its hand-over (R385); like every matrix command it needs the bank (R176), and it retires there (R376). -/
def execMrdy (x : EForm) (s : State) : Out :=
  withCtx s fun c =>
    let m := s.hand.member
    match handoverEntry s c m with
    | none => wait s
    | some (mb, e, i) =>
      if i != .mrdy x || !bankFor s c mb then wait s
      else
        done (s.putCtx (c.putMember m { mb with bank := { releaseHeld mb.bank x.tag with bound := true }, handed := e.seq + 1 }).engineLatch.settle)

end Sys2Proof.Machine
end

