-- ==== Sys2Proof/Machine/LaneColl.lean ====
section
/-!
DEFINITION. Collective lane instructions (R256, R257, R418, R431, R434-R436), VPRUNE (R258, R432), the predicate and control
instructions PLOG, VOTE and VEXIT (R29, R78, R396, R422, R429).
-/
namespace Sys2Proof.Machine

/-! ## Moves across lanes (R431, R436) -/

/-- The offset of VSHF. -/
def shiftOf (v : BitVec 8) : Nat := if v.toNat < 128 then v.toNat else 4 * (v.toNat % 16)

def execVshf (f : LForm) (s : State) : Out :=
  let o := shiftOf f.vc
  let inside := fun l => f.fn == 0 || decide (l + o < 64)
  computeSlot s (.vshf f) 0 (fun t => [vaOp t f.va]) (fun _ _ l => if inside l then [(0, (l + o) % 64)] else []) fun _ _ srcs =>
    { writes := [(f.vd.toNat, Lanes.build fun l => if inside l then srcWord srcs 0 ((l + o) % 64) else 0)] }

def execVperm (f : LForm) (s : State) : Out :=
  let pick := fun srcs l => (srcWord srcs 1 l).toNat % 64
  computeSlot s (.vperm f) f.la (fun t => [vaOp t f.va, vbOp t f.vb]) (fun _ srcs l => [(1, l), (0, pick srcs l)]) fun _ _ srcs =>
    { writes := [(f.vd.toNat, Lanes.build fun l => srcWord srcs 0 (pick srcs l))] }

/-- Element position `e` of register `r` of the transposed group: the register and the element it comes from. -/
def trnFrom (r e : Nat) : Nat × Nat := (e % 8, e / 8 * 8 + r)

/-- R436. -/
def execVtrn (f : LForm) (s : State) : Out :=
  let p := perWord f.t
  let w := elemBits f.t
  let elem := fun srcs (x : Nat × Nat) => elemAt w (srcWord srcs x.1 (x.2 / p)) (x.2 % p)
  computeSlot s (.vtrn f) f.la (fun t => (List.range 8).map fun q => ⟨f.va.toNat + q, t.e.kA, false⟩)
      (fun _ _ l => (List.range 8).flatMap fun r => (List.range p).map fun k =>
        let x := trnFrom r (l * p + k)
        (x.1, x.2 / p)) fun _ _ srcs =>
    { writes := (List.range 8).map fun r =>
        (f.vd.toNat + r, Lanes.build fun l => packElems w ((List.range p).map fun k => elem srcs (trnFrom r (l * p + k)))) }

/-! ## Reductions and scans (R434) -/

/-- The operation of VRED and VSCAN on two elements. -/
def redElem (t : ElemTy) (r : Rnd) (fn a b : Nat) : Nat × FpFlags :=
  match fn with
  | 0 => addElem t r false a b
  | 1 => minElem t a b
  | 2 => maxElem t a b
  | 3 => (a &&& b, 0)
  | 4 => (a ||| b, 0)
  | _ => (a ^^^ b, 0)

/-- Comb: an absent operand leaves the other; flags are gathered. -/
def comb (op : Nat → Nat → Nat × FpFlags) (x y : Option Nat × FpFlags) : Option Nat × FpFlags :=
  match x.1, y.1 with
  | none, v => (v, x.2 ||| y.2)
  | u, none => (u, x.2 ||| y.2)
  | some u, some v =>
    let z := op u v
    (some z.1, x.2 ||| y.2 ||| z.2)

/-- One step of VRED: neighbours combined. -/
def pairUp {α : Type} (g : α → α → α) : List α → List α
  | x :: y :: l => g x y :: pairUp g l
  | l => l

/-- The element of a lane, absent when the lane does not participate. -/
def present (part : LaneMask) (t : ElemTy) (srcs : List Source) (k l : Nat) : Option Nat × FpFlags :=
  (if part.getLsbD l then some (elemAt (elemBits t) (srcWord srcs 0 l) k) else none, 0)

/-- VRED of element position `k`: six combining steps. -/
def reduceElem (op : Nat → Nat → Nat × FpFlags) (l : List (Option Nat × FpFlags)) : Option Nat × FpFlags :=
  ((List.range 6).foldl (fun l _ => pairUp (comb op) l) l).headD (none, 0)

/-- The participating lanes of the source. -/
def partDeps (part : LaneMask) (upto : Nat) : List (Nat × Nat) :=
  ((List.range upto).filter fun k => part.getLsbD k).map fun k => (0, k)

def execVred (f : LForm) (s : State) : Out :=
  computeSlot s (.vred f) 0 (fun t => [vaOp t f.va]) (fun part _ _ => partDeps part 64) fun _ part srcs =>
    let op := redElem f.t f.rnd f.fn.toNat
    let out := (List.range (perWord f.t)).map fun k => reduceElem op ((List.range 64).map (present part f.t srcs k))
    { writes := [(f.vd.toNat, Lanes.fill (packElems (elemBits f.t) (out.map fun x => x.1.getD 0)))],
      flags := FpFlags.join (out.map fun x => x.2) }

/-- The running values of VSCAN, one for each lane. -/
def scanElems (op : Nat → Nat → Nat × FpFlags) : Option Nat × FpFlags → List (Option Nat × FpFlags) → List (Option Nat × FpFlags)
  | _, [] => []
  | acc, x :: l =>
    let acc := if x.1.isSome then comb op acc x else acc
    acc :: scanElems op acc l

def execVscan (f : LForm) (s : State) : Out :=
  computeSlot s (.vscan f) 0 (fun t => [vaOp t f.va]) (fun part _ l => partDeps part (l + 1)) fun _ part srcs =>
    let op := redElem f.t f.rnd f.fn.toNat
    let out := (List.range (perWord f.t)).map fun k => scanElems op (none, 0) ((List.range 64).map (present part f.t srcs k))
    { writes := [(f.vd.toNat, Lanes.build fun l =>
        packElems (elemBits f.t) (out.map fun x => ((x[l]?).bind fun y => y.1).getD 0))],
      flags := FpFlags.join (out.map fun x => (x.getLastD (none, 0)).2) }

/-! ## Selection (R256, R257) -/

/-- The ranking key of VTOPK: every NaN below minus infinity, −0 equal to +0. -/
def rankKey (t : ElemTy) (w : Nat) : Int :=
  if t == .f32 then
    (if (FVal.decode fmtF32 w).isNan then -(2 ^ 40 : Int) else if 2 ^ 31 ≤ w then -((w - 2 ^ 31 : Nat) : Int) else (w : Int))
  else intOf t w

/-- A candidate: key, index, word. -/
abbrev Candidate := Int × Nat × Word

/-- A larger key ranks first, equal keys by lower index. -/
def insertRank (x : Candidate) : List Candidate → List Candidate
  | [] => [x]
  | y :: l => if decide (y.1 < x.1) || (y.1 == x.1 && decide (x.2.1 < y.2.1)) then x :: y :: l else y :: insertRank x l

def rankAll (l : List Candidate) : List Candidate := l.foldr insertRank []

/-- The word of a position without candidate. -/
def topkFill (t : ElemTy) : Word := if t == .f32 then 0xFF800000 else if t == .i32 then 0x80000000 else 0

/-- The candidates on which a lane's results depend: all of them, none when all of its positions are surplus (R256, R411). -/
def topkDeps (n k : Nat) : Deps := fun l =>
  if l < min k (n * 64) then (List.range n).flatMap fun q => (List.range 64).map fun j => (q, j) else []

/-- R435. -/
def execVtopk (f : LForm) (s : State) : Out :=
  let n := f.fn.toNat + 1
  let k := f.vc.toNat
  let m := (k + 63) / 64
  computeSlot s (.vtopk f) f.la (fun t => (List.range n).map fun q => ⟨f.va.toNat + q, t.e.kA, false⟩)
      (fun _ _ => topkDeps n k) fun _ _ srcs =>
    let cands := (List.range n).flatMap fun q => (List.range 64).map fun l =>
      let w := srcWord srcs q l
      (rankKey f.t w.toNat, q * 64 + l, w)
    let best := (rankAll cands).take (min k (n * 64))
    let at' := fun p : Nat => best[p]?
    { writes :=
        (List.range m).map (fun j => (f.vd.toNat + j, Lanes.build fun l => ((at' (64 * j + l)).map fun x => x.2.2).getD (topkFill f.t))) ++
        (List.range m).map (fun j =>
          (f.vb.toNat + j, Lanes.build fun l => ((at' (64 * j + l)).map fun x => BitVec.ofNat 32 x.2.1).getD 0xFFFFFFFF)) ++
        [(f.vb.toNat + m, Lanes.fill (BitVec.ofNat 32 (min k (n * 64))))] }

/-- The magnitude of an element; any NaN lies above every other (R257). -/
def magnitude (t : ElemTy) (a : Nat) : Nat :=
  if isF t then (if (FVal.decode t.fmt a).isNan then 2 ^ 40 else a % t.fmt.sign) else (intOf t a).natAbs

/-- The positions that a group of eight keeps: those with fewer than four better ones. -/
def keptPositions (mags : List Nat) : List Nat :=
  (List.range 8).filter fun i =>
    let mi := mags.getD i 0
    let better := (List.range 8).filter fun j =>
      let mj := mags.getD j 0
      decide (mi < mj) || (mj == mi && decide (j < i))
    decide (better.length < 4)

/-- R418. -/
def execVcmps (f : LForm) (s : State) : Out :=
  let p := perWord f.t
  let w := elemBits f.t
  let groups := 8 * p
  let lanesOf := fun g : Nat => (List.range 8).map fun j => (0, (8 * g + j) / p)
  computeSlot s (.vcmps f) 0 (fun t => [vaOp t f.va])
      (fun _ _ l => (if l < 32 then (List.range p).flatMap fun k => lanesOf ((l * p + k) / 4) else []) ++
        (if l < groups then lanesOf l else [])) fun _ _ srcs =>
    let elem := fun e : Nat => elemAt w (srcWord srcs 0 (e / p)) (e % p)
    let kept := (List.range groups).map fun g => keptPositions ((List.range 8).map fun j => magnitude f.t (elem (8 * g + j)))
    let packed := fun e : Nat => elem (8 * (e / 4) + ((kept.getD (e / 4) []).getD (e % 4) 0))
    { writes :=
        [(f.vd.toNat, Lanes.build fun l => if l < 32 then packElems w ((List.range p).map fun k => packed (l * p + k)) else 0),
         (f.vd.toNat + 1, Lanes.build fun l =>
           if l < groups then BitVec.ofNat 32 (((kept.getD l []).zipIdx.map fun (x, j) => x * 8 ^ j).sum) else 0)] }

/-! ## VPRUNE -/

/-- The step of the generator (R258). -/
def rngStep (st : DWord) : DWord :=
  let a := st ^^^ (st <<< 13)
  let b := a ^^^ (a >>> 7)
  b ^^^ (b <<< 17)

/-- Whether Prune keeps an element: u < p, decided exactly. -/
def pruneKeeps (u : Nat) (x tau : FVal) : Bool :=
  match x, tau with
  | .nan _, _ | _, .nan _ => true
  | .inf _, .inf _ => true
  | .fin _ _ _, .inf n => n
  | .inf _, .fin _ _ _ => true
  | .fin _ m e, .fin n mt et => n || mt == 0 || (FVal.fin false (u * mt) (et - 24)).lt (.fin false m e)

/-- One lane: the elements in order, each after a step of the state. -/
def pruneLane (t : ElemTy) (a b : Word) (st : DWord) : Word × DWord :=
  let r := (List.range (perWord t)).foldl (fun (acc : List Nat × DWord) k =>
    let st := rngStep acc.2
    let x := elemAt (elemBits t) a k
    let keep := pruneKeeps (st.toNat / 2 ^ 40) (FVal.decode t.fmt x) (FVal.decode t.fmt (elemAt (elemBits t) b k))
    (acc.1 ++ [if keep then x else 0], st)) ([], st)
  (packElems (elemBits t) r.1, r.2)

/-- The RNG states of the lanes. -/
def rngBuild (f : Nat → DWord) : Vector DWord 64 := ⟨⟨(List.range 64).map f⟩, by simp⟩

def execVprune (f : LForm) (s : State) : Out :=
  computeSlot s (.vprune f) 0 (fun t => [vaOp t f.va, vbOp t f.vb]) (ownLane 2) fun t part srcs =>
    let st := fun l => t.r.rng.toList.getD l 0
    let out := (List.range 64).map fun l => pruneLane f.t (srcWord srcs 0 l) (srcWord srcs 1 l) (st l)
    { writes := [(f.vd.toNat, Lanes.build fun l => (out.getD l (0, 0)).1)],
      rng := some (rngBuild fun l => if part.getLsbD l then (out.getD l (0, 0)).2 else st l) }

/-! ## Predicates and control -/

/-- R396. -/
def execPlog (f : LForm) (s : State) : Out :=
  computeSlot s (.plog f) 0 (fun _ => []) (ownLane 0) fun t _ _ =>
    let a := t.r.pred (f.va.toNat % 16)
    let b := t.r.pred (f.vb.toNat % 16)
    { pred := some (f.vd.toNat % 16, match f.fn.toNat with
        | 0 => a &&& b
        | 1 => a ||| b
        | 2 => a ^^^ b
        | 3 => a &&& ~~~b
        | _ => ~~~a) }

/-- The lanes of a mask. -/
def laneCountOf (m : LaneMask) : Nat := ((List.range 64).filter fun l => m.getLsbD l).length

/-- What a row contributes to a vote (R78). -/
def voteWith (v : VqEntry) (part p : LaneMask) : VqEntry :=
  match v.kind with
  | .any => { v with anySet := v.anySet || (p &&& part) != 0 }
  | .all => { v with allSet := v.allSet && (~~~p &&& part) == 0 }
  | .cnt => { v with count := v.count + laneCountOf (p &&& part) }
  | .schk => v

/-- R429. -/
def execVote (f : LForm) (s : State) : Out :=
  rowStep s (.vote f) fun t =>
    let p := t.r.pred (f.va.toNat % 16)
    let part := t.part (.vote f)
    .ok (s.putCtx { t.c with vq := mapIf (fun v => v.esn == t.e.esn) (fun v => voteWith v part p) t.c.vq }) t.r

/-- R422. -/
def execVexit (f : LForm) (s : State) : Out :=
  rowStep s (.vexit f) fun t => .ok s { t.r with mask := t.r.mask &&& ~~~(t.part (.vexit f)) }

end Sys2Proof.Machine
end

