-- ==== Sys2Proof/Machine/Order.lean ====
section
/-!
DEFINITION. The ordering instructions FENCE, PHASE, BAR and the effect of their markers (R63, R220-R228, R337-R340, R355, R395).
-/
namespace Sys2Proof.Machine

/-- An ordering instruction places its marker and waits only for room. -/
def placeOrder (s : State) (q : Seq) (i : Instr) (m : Marker) : Out :=
  genStep s q [] fun c =>
    match c.placeMarker i m with
    | none => .wait
    | some c => .ok s c

def execFence (q : Seq) (sc : Scope) (s : State) : Out := placeOrder s q (.fence q sc) (.fence sc)
def execFenceX (q : Seq) (s : State) : Out := placeOrder s q (.fenceX q) .fenceX
def execPhaseAcq (q : Seq) (s : State) : Out := placeOrder s q (.phaseAcq q) (.phase false true)
def execPhaseRel (q : Seq) (s : State) : Out := placeOrder s q (.phaseRel q) (.phase true false)
def execPhaseAcqrel (q : Seq) (s : State) : Out := placeOrder s q (.phaseAcqrel q) (.phase true true)
def execBar (q : Seq) (sc : Scope) (s : State) : Out := placeOrder s q (.bar q sc) (.bar sc)

/-! ## Markers -/

/-- The conditions of R63 for the entry with an order number, on every member; a wait holds nothing where no row is
left (R60). -/
def Ctx.markerReady (c : Ctx) (seq : Nat) : Bool :=
  c.rowsBeyond none seq && c.members.zipIdx.all fun (mb, m) =>
    c.enginesBeyond m seq && ((c.memberRows m).isEmpty || mb.holds.all fun h => decide (seq < h.seq))

/-- The marker that stands first: in the handler channel before the stream. -/
inductive MarkerAt where
  | channel (e : Entry) (m : Marker)
  | stream (e : Entry) (m : Marker)

/-- The first marker of the stream, when its conditions hold. -/
def Ctx.streamMarker (c : Ctx) : Option MarkerAt :=
  match c.stream.find? fun e => e.isMarker with
  | some e =>
    match e.item with
    | .marker m => if c.markerReady e.seq && c.rowsMove && !(c.handling.any fun h => h.marker) then some (.stream e m) else none
    | .slot _ => none
  | none => none

/-- The marker whose turn it is: the head of the handler channel (R337), else the first marker of the stream. -/
def Ctx.turnMarker (c : Ctx) : Option MarkerAt :=
  match c.channel with
  | (e, _) :: _ =>
    match e.item with
    | .marker m => if c.switch == .out || c.switch == .rehanding then none else some (.channel e m)
    | .slot _ => c.streamMarker
  | [] => c.streamMarker

/-- The marker leaves its place. -/
def Ctx.dropMarker (c : Ctx) : MarkerAt → Ctx
  | .channel _ _ => { c with channel := c.channel.drop 1 }
  | .stream e _ => { c with stream := c.stream.filter fun x => x.seq != e.seq }.settle
def MarkerAt.marker : MarkerAt → Marker
  | .channel _ m => m
  | .stream _ m => m
def MarkerAt.inChannel : MarkerAt → Bool
  | .channel _ _ => true
  | .stream _ _ => false
def MarkerAt.key : MarkerAt → Nat
  | .channel e _ => e.key
  | .stream e _ => e.key

/-- R227: every drained line of context `k` is acknowledged at the point that a scope demands; lines of region 0x0 are performed as they drain, ports
acknowledge what they accept up to DEVICE scope.  In a device without a domain DOMAIN acts as DEVICE. -/
def acknowledged (s : State) (k : Nat) (sc : Scope) : Bool :=
  let own := s.accepted.filter fun a => a.owner == k
  match sc with
  | .system => own.all fun a => a.place.isSome
  | .domain => s.deviceNumber.isNone || own.all fun a => a.place.isSome || a.region != 2
  | _ => true

/-- Release and acquire of a marker (R222, R224, R226): it takes effect and leaves its place once every drained line is acknowledged; until
then only the drain happens, none when that has happened already. -/
def releaseAcquire (s : State) (c0 : Ctx) (m : MarkerAt) (sc : Scope) (rel acq : Bool) : Option State :=
  let c := c0.dropMarker m
  let d := if rel then drainCtx s c else (s, c)
  if !rel || acknowledged d.1 c0.id sc then some (d.1.putCtx (if acq then d.2.dropView else d.2))
  else if c0.members.all fun mb => mb.psb.isEmpty then none
  else
    let e := drainCtx s c0
    some (e.1.putCtx e.2)

/-- A marker event of context `k`: `f` says what a marker of the kind does, none when the head is another kind or waits. -/
def markerStep (s : State) (k : Nat) (f : Ctx → MarkerAt → Option State) : Out :=
  match s.ctxOf k with
  | none => .fault .noExecutor
  | some c =>
    match c.turnMarker with
    | none => wait s
    | some m =>
      if monoBlocked s c m.key then wait s
      else
        match f c m with
        | none => wait s
        | some s => done s

/-- R355: FENCE and FENCE.x. -/
def execFenceMarker (k : Nat) (s : State) : Out :=
  markerStep s k fun c m =>
    match m.marker with
    | .fence sc => releaseAcquire s c m sc true true
    | .fenceX => releaseAcquire s c m .device true true
    | _ => none

/-- R395. -/
def execPhaseMarker (k : Nat) (s : State) : Out :=
  markerStep s k fun c m =>
    match m.marker with
    | .phase rel acq => releaseAcquire s c m .device rel acq
    | _ => none

/-- R338: commands of the copy, fetch and storage engines that a BAR still waits for: those not behind a fault. -/
def Ctx.enginesBusy (c : Ctx) (seq : Nat) : Bool :=
  c.members.any fun mb => [mb.copyQ, mb.fetchQ, mb.storageQ].any fun q =>
    (q.takeWhile fun x => match x.st with
      | .faulted _ => false
      | _ => true).any fun x => decide (x.e.seq < seq)

/-- R338, R337: in the handler channel a BAR waits for no engine. -/
def execBarMarker (k : Nat) (s : State) : Out :=
  markerStep s k fun c m =>
    match m with
    | .channel _ (.bar sc) => releaseAcquire s c m sc true true
    | .stream e (.bar sc) => if c.enginesBusy e.seq then none else releaseAcquire s c m sc true true
    | _ => none

/-- R284: the bit of the granule on every member; an owner access to a lent range counts under R208. -/
def setOnMembers (s : State) (c : Ctx) (b : Buf) (full : Bool) (off : Nat) : List Nat → Option State
  | [] => some s
  | m :: rest =>
    match placeOf s c m b off 1 with
    | none => setOnMembers s c b full off rest
    | some p =>
      match touch s c m b p 1 with
      | .ready s => setOnMembers (setGranules s c m b off 1 full) c b full off rest
      | .revoked _ | .wait => none

/-- R284, R405. -/
def execTsetMarker (k : Nat) (s : State) : Out :=
  markerStep s k fun c0 m =>
    match m.marker with
    | .tset b full off =>
      let c := c0.dropMarker m
      match setOnMembers (s.putCtx c) c (feBuf b) full off (List.range c.members.length) with
      | some s => some s
      | none =>
        -- a lent range: its holder is revoked, the marker waits
        match (List.range c.members.length).findSome? fun m =>
          match (placeOf s c m (feBuf b) off 1).map fun p => touch s c m (feBuf b) p 1 with
          | some (.revoked s) => some s
          | _ => none with
        | some s1 => if s1 == s then none else some s1
        | none => none
    | _ => none

/-- R344, R345: the default installed; a poisoned word raises MCHK and leaves the marker where it is. -/
def execCdefMarker (k : Nat) (s : State) : Out :=
  match s.ctxOf k with
  | none => .fault .noExecutor
  | some c0 =>
    match c0.turnMarker with
    | some (.stream e (.cdef x false a _)) =>
      if monoBlocked s c0 e.key then wait s
      else
        let c := c0.dropMarker (.stream e (.cdef x false a []))
        done (s.putCtx { c with defaults := mapIf (fun d => d.1 == x) (fun d => (d.1, Lanes.fill (a.truncate 32))) c.defaults })
    | some (.stream e (.cdef x true a fixed)) =>
      if monoBlocked s c0 e.key then wait s
      else
        match c0.member 0 with
        | none => .fault .noExecutor
        | some mb =>
          let bad := if s.poison == [] then none
            else fixed.zipIdx.find? fun y => !mb.overlaid y.1 && s.memPoisoned (y.1.on (dieOf mb.cluster))
          match bad with
          | some (_, i) =>
            if c0.halting then wait s
            else
              done (enterTrap s c0 { cause := .mchk, dom := .g, addr := poisonAddr 5 (a.toNat + i), pc := c0.pc }
                { trap := { cause := .mchk, dom := .g, addr := poisonAddr 5 (a.toNat + i), pc := c0.pc }, row := none, eng := none,
                  marker := true, afterExit := c0.exited, resume := c0.pc, skipLen := 0 })
          | none =>
            if portBusy s fixed then wait s
            else
            let (bs, mb) := loadBytes s.mem mb fixed
            let v := Lanes.build fun l => BitVec.ofNat 32 (leNat ((bs.drop (4 * l)).take 4))
            let c := (c0.dropMarker (.stream e (.cdef x true a fixed))).putMember 0 mb
            done (s.putCtx { c with defaults := mapIf (fun d => d.1 == x) (fun d => (d.1, v)) c.defaults })
    | _ => wait s

end Sys2Proof.Machine
end

