-- ==== Sys2Proof/Machine/Queue.lean ====
section
/-!
DEFINITION. Generator instructions on queues (R270-R274, R397), storage completions (R390), granules (R283, R284, R405) and
stream registers (R252, R253, R401).
-/
namespace Sys2Proof.Machine

/-! ## Queues -/

/-- The device queue bound to a context queue, with the checks that the queue instructions share (R271). -/
def boundQueue (s : State) (c : Ctx) (n : BitVec 4) : Option DevQueue :=
  (c.queues.toList.getD n.toNat none).bind s.queueOf

/-- The wait of R271 and R290. -/
def queueWaits (s : State) (c : Ctx) : Bool := c.orderPending || monoBlocked s c c.key

/-- R270. -/
def execQrsv (q : Seq) (d : GReg) (n : BitVec 4) (s : State) : Out :=
  genStep s q [] fun c =>
    if queueWaits s c then .wait
    else
      match boundQueue s c n with
      | none => .trap .qbad (n.zeroExtend 64)
      | some dq =>
        if dq.consumer == .control && !c.priv then .trap .privf 0
        else
          let (v, s1) := reserveSlot s dq
          genWrite s1 c d v

/-- R270, R271: the checks of QSTATE. -/
def slotBad (q : DevQueue) (slot : Nat) : Bool :=
  decide (q.ticket ≤ slot) || decide (slot < q.head) || q.committed.contains slot

/-- R270, R272. -/
def execQcmt (q : Seq) (a : GReg) (n : BitVec 4) (s : State) : Out :=
  genStep s q [a] fun c =>
    if queueWaits s c then .wait
    else
      match boundQueue s c n with
      | none => .trap .qbad (n.zeroExtend 64)
      | some dq =>
        let slot := (c.greg a).toNat
        if dq.consumer == .control && !c.priv then .trap .privf 0
        else if slotBad dq slot then .trap .qstate (c.greg a)
        else
          let s1 := commitSlot s dq slot
          match s1.ctxOf c.id with
          | none => .wait
          | some c1 => .ok s1 c1

/-- The slot that the context last took from a queue is released (R270). -/
def releaseLast (s : State) (c : Ctx) (qn : Nat) : State × Ctx :=
  ((c.taken.filter fun t => t.1 == qn).foldl (fun s t => releaseSlot s t.1 t.2) s,
    { c with taken := c.taken.filter fun t => t.1 != qn })

/-- R270, R272, R383: taken at once, or asleep at the end of the sleepers' list. -/
def execQpop (q : Seq) (d : GReg) (n : BitVec 4) (s : State) : Out :=
  withCtx s fun c =>
    match boundQueue s c n with
    | none => genStep s q [] fun c => if c.handler then .trap .hstate 0 else if queueWaits s c then .wait else .trap .qbad (n.zeroExtend 64)
    | some dq =>
      if c.handler then genFault s c .hstate 0
      else
        match c.gen with
        | .sleepQueue _ _ _ => wait s
        | _ =>
          if queueWaits s c then wait s
          else if dq.consumer != .context then genFault s c .qbad (n.zeroExtend 64)
          else
            match c.seqFault q with
            | some cause => genFault s c cause 0
            | none =>
              let (s1, c1) := releaseLast s c dq.num
              match s1.queueOf dq.num with
              | none => .fault .noExecutor
              | some dq =>
                if dq.committed.contains dq.head && dq.sleepers.isEmpty then
                  let s1 := takeHead s1 dq
                  let s1 := s1.cure fun p => p == .greg c.id d.toNat
                  done (retireGen s1 ((c1.setG d (BitVec.ofNat 64 dq.head)).tookSlot dq false) q)
                else
                  done ((s1.putQueue { dq with sleepers := dq.sleepers ++ [c.id] }).putCtx { c1 with gen := .sleepQueue dq.num d q })

/-! ## Storage completions -/

/-- The word of R390. -/
def pollWord (pair : Nat) (x : BitVec 16 × BitVec 2 × NvmeStatus) : DWord :=
  BitVec.ofNat 64 (x.1.toNat + x.2.2.sc.toNat * 2 ^ 16 + x.2.2.sct.toNat * 2 ^ 24 + x.2.2.crd.toNat * 2 ^ 27 +
    (if x.2.2.more then 2 ^ 29 else 0) + (if x.2.2.dnr then 2 ^ 30 else 0) + pair * 2 ^ 32 + x.2.1.toNat * 2 ^ 42)

/-- R390: the oldest unreported completion is reported once. -/
def execNpoll (q : Seq) (d a : GReg) (s : State) : Out :=
  genStep s q [a] fun c =>
    let p := (c.greg a).toNat % 1024
    match s.pairs.find? fun x => x.num == p && x.domain == c.domain with
    | none => genWrite s c d (BitVec.allOnes 64)
    | some x =>
      match x.done with
      | [] => genWrite s c d (BitVec.allOnes 64)
      | y :: rest =>
        genWrite { s with pairs := mapIf (fun z => z.num == p) (fun z => { z with done := rest }) s.pairs } c d (pollWord p y)

/-! ## Granules -/

/-- The offset lies in the context's allocation on every member (R283). -/
def granuleOk (s : State) (c : Ctx) (b : Buf) (off : Nat) : Bool :=
  (List.range c.members.length).all fun m => (placeOf s c m b off 1).isSome

/-- The access that TWAIT makes to the granule on every member (R208). -/
def touchMembers (c : Ctx) (b : Buf) (off : Nat) : List Nat → State → Touch
  | [], s => .ready s
  | m :: rest, s =>
    match placeOf s c m b off 1 with
    | none => .wait
    | some p =>
      match touch s c m b p 1 with
      | .ready s => touchMembers c b off rest s
      | t => t

/-- TWAIT goes on sleeping; what its access changed stays. -/
def sleepGranule (s s1 : State) (c : Ctx) (w : TwaitFor) : Out :=
  if c.gen == .sleepGranule && s1 == s then wait s
  else
    match s1.ctxOf c.id with
    | none => .fault .noExecutor
    | some c1 => done (s1.putCtx { c1 with gen := .sleepGranule, twait := some (c1.twait.getD w) })

/-- The granules of all members are in the state, or have been since the generator sleeps here (R405). -/
def granulesMet (s : State) (c : Ctx) (b : Buf) (full : Bool) (off : Nat) : Bool :=
  (c.twait.any fun w => w.met) || (List.range c.members.length).all fun m => granuleBit s c m b off == full

/-- R283, R405: an owner access to a lent granule revokes the holder; the granules of all members must be in the state.  DESIGN CHOICE (log
86): an offset outside the allocation raises BUFV at once, before the wait for the context's earlier TSET markers. -/
def execTwait (q : Seq) (b : FeBuf) (full : Bool) (a : GReg) (s : State) : Out :=
  withCtx s fun c =>
    let off := (c.greg a).toNat
    let w : TwaitFor := ⟨feBuf b, off, full, false⟩
    if s.gPoisoned c.id a || c.handler || !granuleOk s c (feBuf b) off then
      genStep s q [a] fun c => if c.handler then .trap .hstate 0 else .trap .bufv (c.greg a)
    else if c.tsetPending then sleepGranule s s c w
    else
      match touchMembers c (feBuf b) off (List.range c.members.length) s with
      | .wait => sleepGranule s s c w
      | .revoked s1 => sleepGranule s s1 c w
      | .ready s1 => if granulesMet s1 c (feBuf b) full off then genStep s1 q [a] fun c => .ok s1 c else sleepGranule s s1 c w

/-- R284, R405. -/
def execTset (q : Seq) (b : FeBuf) (full : Bool) (a : GReg) (s : State) : Out :=
  genStep s q [a] fun c =>
    let off := (c.greg a).toNat
    if c.handler then .trap .hstate 0
    else if !granuleOk s c (feBuf b) off then .trap .bufv (c.greg a)
    else
      match c.placeMarker (.tset q b full a) (.tset b full off) with
      | none => .wait
      | some c => .ok s c

/-! ## Streams -/

/-- R252, R401: two generator loads, then the reserved bits; the base may stand at any address, aligned to its elements or not (log 68). -/
def execSopen (q : Seq) (n : BitVec 3) (a : GReg) (s : State) : Out :=
  genStep s q [a] fun c =>
    genLoad s c (c.greg a) 8 fun w0 c =>
      genLoad s c (c.greg a + 8) 8 fun w1 c =>
        let x0 := leNat w0
        let x1 := leNat w1
        if x0 / 2 ^ 57 != 0 || x1 / 2 ^ 33 != 0 then .trap .strbad (n.zeroExtend 64)
        else
          .ok s (c.setStream n.toNat { base := x0, len := x1 % 2 ^ 32, val := x1 / 2 ^ 32 % 2 == 1, isOpen := true, cur := 0 })

/-- R253: a write to f7 is ignored. -/
def execSeof (q : Seq) (f n : BitVec 3) (s : State) : Out :=
  genStep s q [] fun c =>
    let r := c.streamReg n.toNat
    .ok s (c.setFlag f (!r.isOpen || decide (r.len ≤ r.cur)))

/-- R253. -/
def execScls (q : Seq) (n : BitVec 3) (s : State) : Out :=
  genStep s q [] fun c => .ok s (c.setStream n.toNat { c.streamReg n.toNat with isOpen := false, len := 0 })

end Sys2Proof.Machine
end

