-- ==== Sys2Proof/Machine/Storage.lean ====
section
/-!
DEFINITION. The storage engine (R322, R392-R394): NSUB and the completion of a submitted command.
-/
namespace Sys2Proof.Machine

/-- Block size and largest transfer behind a pair (log 16). -/
def pairLimits (s : State) (p : NvmePair) : Nat × Nat :=
  match s.namespaces.find? fun n => n.port == p.port && n.requester == p.requester && n.ns == p.ns with
  | some n => (n.block, n.maxXfer)
  | none => (Config.nsBlock p.port p.requester p.ns, Config.nsMaxXfer p.port p.requester p.ns)

/-- The pages of a range: mapped and well formed, then region 0, then the permission (R392). -/
def nsubLocs (s : State) (domain : Nat) (k : Access) (a n : Nat) : Except (Cause × Nat) (List GLoc) :=
  let vas := (List.range n).map fun j => (a + j) % 2 ^ 64
  match vas.findSome? fun va => match lookup s domain va with
    | .error e => some (e.cause, va)
    | .ok x => if (x.loc va).mappable s.fenced then none else some (Cause.ptebad, va) with
  | some e => .error e
  | none =>
    match vas.find? fun va => match lookup s domain va with
      | .ok x => decide (2 ^ 52 ≤ (x.loc va).pa)
      | .error _ => false with
    | some va => .error (.crange, va)
    | none =>
      match translateN s domain true k a n with
      | .error (e, va) => .error (e.cause, va)
      | .ok ls => .ok ls

/-- A checked command is written to its pair's submission queue; it waits while the ring is full, and for good where the pair's port is
fenced (log 84). -/
def submit (s : State) (p : NvmePair) (c : Ctx) (cmd : Cmd) (x : EForm) (locs : List GLoc) : EngRes :=
  if decide (p.entries ≤ p.submitted.length) || s.portFenced p.port then .wait
  else
    let sub : NvmeCmd := { ctx := c.id, tag := x.tag, kind := x.fn.extractLsb' 0 2, seq := cmd.e.seq, lba := BitVec.ofNat 64 (pval x.p1),
                           fua := x.head.getLsbD 0, locs := locs, got := cmd.got }
    .ok { s with pairs := mapIf (fun y => y.num == p.num) (fun y => { y with submitted := y.submitted ++ [sub] }) s.pairs } []

/-- R392: the checks in their order.  DESIGN CHOICE (log 84): a command to a pair on a fenced port is checked and then waits. -/
def runNsub (x : EForm) (flush : Bool) (k : Access) (s : State) (c : Ctx) (cmd : Cmd) : EngRes :=
  let q := pval x.p0 % 1024
  match s.pairs.find? fun p => p.num == q && p.domain == c.domain with
  | none => .fault s .nsubf q 0
  | some p =>
    if flush then submit s p c cmd x []
    else
      let (block, most) := pairLimits s p
      let n := (pval x.p3 % 65536 + 1) * block
      let a := pval x.p2
      if decide (2 ^ 21 < n) || decide (most < n) then .fault s .crange n 0
      else if a % 4 != 0 then .fault s .crange a 0
      else
        match nsubLocs s c.domain k a n with
        | .error (cause, va) => .fault s cause va 0
        | .ok ls => submit s p c cmd x ls

def execNsubRead (x : EForm) (s : State) : Out :=
  engineStep s .storage (.nsubRead x) fun s c _ _ cmd => runNsub x false .store s c cmd
def execNsubWrite (x : EForm) (s : State) : Out :=
  engineStep s .storage (.nsubWrite x) fun s c _ _ cmd => runNsub x false .load s c cmd
def execNsubFlush (x : EForm) (s : State) : Out :=
  engineStep s .storage (.nsubFlush x) fun s c _ _ cmd => runNsub x true .load s c cmd

/-- The controller reads a line of a submitted command's payload. -/
def readPayload (s : State) (pair k line : Nat) : State :=
  { s with pairs := mapIf (fun p => p.num == pair) (fun p => { p with submitted := p.submitted.zipIdx.map fun (x, j) =>
      if j == k then { x with got := readAhead s.mem x.got line } else x }) s.pairs }

/-- The payload of a write, read at home from the copy of die 0 (R200, R235, R394), and the index of its first poisoned byte (R310). -/
def NvmeCmd.payload (s : State) (x : NvmeCmd) : List Byte × Option Nat :=
  (ReadPort.read ⟨0, x.got⟩ s.mem x.locs,
    if s.poison == [] then none else x.locs.findIdx? fun l => s.memPoisoned (l.on 0))

/-- The command of a member leaves the storage queue, or stays in it with the machine check of its payload (R310). -/
def Member.nsubOver (mb : Member) (x : NvmeCmd) (bad : Option Nat) : Member :=
  { mb with storageQ := match bad with
    | none => mb.storageQ.filter fun y => y.e.seq != x.seq
    | some k => mapIf (fun y => y.e.seq == x.seq) (fun y =>
        let a := match y.e.item with
          | .slot (.nsubWrite f) => pval f.p2 + k
          | _ => k
        { y with st := .faulted (engineTrap y.e .mchk (poisonAddr 5 a).toNat 0) }) mb.storageQ }

/-- R393: the completion entry of the `k`-th submitted command of a pair arrives, once its ring has room for it (R321, log 84) and unless the
pair's port is fenced: a read's data is performed at home, a write's payload has been read, the command retires, its completion waits for
NPOLL. -/
def execNsubRetire (pair k : Nat) (st : NvmeStatus) (data : List Byte) (s : State) : Out :=
  match s.pairs.find? fun p => p.num == pair with
  | none => wait s
  | some p =>
    match if decide (p.entries ≤ p.done.length) || s.portFenced p.port then none else p.submitted[k]? with
    | none => wait s
    | some x =>
      let (bytes, bad) := if x.kind == 1 then x.payload s else ([], none)
      let p := { p with submitted := p.submitted.eraseIdx k, done := p.done ++ [(x.tag, x.kind, st)],
                        written := if x.kind == 1 && bad.isNone then p.written ++ [(x.lba, bytes)] else p.written }
      let s := { s with pairs := mapIf (fun y => y.num == pair) (fun _ => p) s.pairs }
      let s := if x.kind == 0 then s.perform (x.locs.zip data) else s
      match s.ctxOf x.ctx with
      | none => done s
      | some c =>
        match c.member 0 with
        | none => done s
        | some mb =>
          let c := c.putMember 0 (mb.nsubOver x bad)
          done (s.putCtx (if bad.isNone then c.engineLatch else c))

end Sys2Proof.Machine
end

