-- ==== Sys2Proof/Machine/Dispatch.lean ====
section
/-!
DEFINITION. One arm per instruction, each a direct call of its meaning.
-/
namespace Sys2Proof.Machine

def exec (i : Instr) (s : State) : Host.Outcome State Fault Refusal :=
  match i with
  | .gadd q d a b => Sys2Proof.Machine.execGadd q d a b s
  | .gsub q d a b => Sys2Proof.Machine.execGsub q d a b s
  | .gmul q d a b => Sys2Proof.Machine.execGmul q d a b s
  | .gmulh q d a b => Sys2Proof.Machine.execGmulh q d a b s
  | .gdiv q d a b => Sys2Proof.Machine.execGdiv q d a b s
  | .grem q d a b => Sys2Proof.Machine.execGrem q d a b s
  | .gand q d a b => Sys2Proof.Machine.execGand q d a b s
  | .gor q d a b => Sys2Proof.Machine.execGor q d a b s
  | .gxor q d a b => Sys2Proof.Machine.execGxor q d a b s
  | .gshl q d a b => Sys2Proof.Machine.execGshl q d a b s
  | .gshr q d a b => Sys2Proof.Machine.execGshr q d a b s
  | .gsra q d a b => Sys2Proof.Machine.execGsra q d a b s
  | .gmin q d a b => Sys2Proof.Machine.execGmin q d a b s
  | .gmax q d a b => Sys2Proof.Machine.execGmax q d a b s
  | .gsel q d a b f => Sys2Proof.Machine.execGsel q d a b f s
  | .gcmp q cc f a b => Sys2Proof.Machine.execGcmp q cc f a b s
  | .gclz q d a => Sys2Proof.Machine.execGclz q d a s
  | .gpopc q d a => Sys2Proof.Machine.execGpopc q d a s
  | .gli q d v => Sys2Proof.Machine.execGli q d v s
  | .glih q d v => Sys2Proof.Machine.execGlih q d v s
  | .gld q sz sx d a v => Sys2Proof.Machine.execGld q sz sx d a v s
  | .gst q sz d a v => Sys2Proof.Machine.execGst q sz d a v s
  | .gamo q op d a b => Sys2Proof.Machine.execGamo q op d a b s
  | .gloop q n b => Sys2Proof.Machine.execGloop q n b s
  | .gjmpr link a => Sys2Proof.Machine.execGjmpr link a s
  | .gwfe q b => Sys2Proof.Machine.execGwfe q b s
  | .gtrap q v => Sys2Proof.Machine.execGtrap q v s
  | .grteRetry => Sys2Proof.Machine.execGrteRetry s
  | .grteSkip => Sys2Proof.Machine.execGrteSkip s
  | .grteDiscard => Sys2Proof.Machine.execGrteDiscard s
  | .csrr q d n => Sys2Proof.Machine.execCsrr q d n s
  | .csrw q a n => Sys2Proof.Machine.execCsrw q a n s
  | .fence q sc => Sys2Proof.Machine.execFence q sc s
  | .fenceX q => Sys2Proof.Machine.execFenceX q s
  | .phaseAcq q => Sys2Proof.Machine.execPhaseAcq q s
  | .phaseRel q => Sys2Proof.Machine.execPhaseRel q s
  | .phaseAcqrel q => Sys2Proof.Machine.execPhaseAcqrel q s
  | .bar q sc => Sys2Proof.Machine.execBar q sc s
  | .capb q n => Sys2Proof.Machine.execCapb q n s
  | .capbDry q n => Sys2Proof.Machine.execCapbDry q n s
  | .cape q d => Sys2Proof.Machine.execCape q d s
  | .capx q n => Sys2Proof.Machine.execCapx q n s
  | .rply q n => Sys2Proof.Machine.execRply q n s
  | .hset q h b => Sys2Proof.Machine.execHset q h b s
  | .gvq q d => Sys2Proof.Machine.execGvq q d s
  | .cdef q mem x a => Sys2Proof.Machine.execCdef q mem x a s
  | .qrsv q d n => Sys2Proof.Machine.execQrsv q d n s
  | .qcmt q a n => Sys2Proof.Machine.execQcmt q a n s
  | .qpop q d n => Sys2Proof.Machine.execQpop q d n s
  | .twait q b full a => Sys2Proof.Machine.execTwait q b full a s
  | .tset q b full a => Sys2Proof.Machine.execTset q b full a s
  | .sopen q n a => Sys2Proof.Machine.execSopen q n a s
  | .seof q f n => Sys2Proof.Machine.execSeof q f n s
  | .scls q n => Sys2Proof.Machine.execScls q n s
  | .npoll q d a => Sys2Proof.Machine.execNpoll q d a s
  | .vadd f => Sys2Proof.Machine.execVadd f s
  | .vaddImm f => Sys2Proof.Machine.execVaddImm f s
  | .vsub f => Sys2Proof.Machine.execVsub f s
  | .vsubImm f => Sys2Proof.Machine.execVsubImm f s
  | .vmul f => Sys2Proof.Machine.execVmul f s
  | .vmulImm f => Sys2Proof.Machine.execVmulImm f s
  | .vfma f => Sys2Proof.Machine.execVfma f s
  | .vfmaImm f => Sys2Proof.Machine.execVfmaImm f s
  | .vmin f => Sys2Proof.Machine.execVmin f s
  | .vminImm f => Sys2Proof.Machine.execVminImm f s
  | .vmax f => Sys2Proof.Machine.execVmax f s
  | .vmaxImm f => Sys2Proof.Machine.execVmaxImm f s
  | .vabs f => Sys2Proof.Machine.execVabs f s
  | .vneg f => Sys2Proof.Machine.execVneg f s
  | .vand f => Sys2Proof.Machine.execVand f s
  | .vandImm f => Sys2Proof.Machine.execVandImm f s
  | .vor f => Sys2Proof.Machine.execVor f s
  | .vorImm f => Sys2Proof.Machine.execVorImm f s
  | .vxor f => Sys2Proof.Machine.execVxor f s
  | .vxorImm f => Sys2Proof.Machine.execVxorImm f s
  | .vshl f => Sys2Proof.Machine.execVshl f s
  | .vshlImm f => Sys2Proof.Machine.execVshlImm f s
  | .vshr f => Sys2Proof.Machine.execVshr f s
  | .vshrImm f => Sys2Proof.Machine.execVshrImm f s
  | .vsra f => Sys2Proof.Machine.execVsra f s
  | .vsraImm f => Sys2Proof.Machine.execVsraImm f s
  | .vsel f => Sys2Proof.Machine.execVsel f s
  | .vmov f => Sys2Proof.Machine.execVmov f s
  | .vcvt f => Sys2Proof.Machine.execVcvt f s
  | .vcvtAcc f => Sys2Proof.Machine.execVcvtAcc f s
  | .vcmp f => Sys2Proof.Machine.execVcmp f s
  | .vclz f => Sys2Proof.Machine.execVclz f s
  | .vpopc f => Sys2Proof.Machine.execVpopc f s
  | .vdot4 f => Sys2Proof.Machine.execVdot4 f s
  | .vrcp f => Sys2Proof.Machine.execVrcp f s
  | .vrsq f => Sys2Proof.Machine.execVrsq f s
  | .vsqrt f => Sys2Proof.Machine.execVsqrt f s
  | .vexp2 f => Sys2Proof.Machine.execVexp2 f s
  | .vlog2 f => Sys2Proof.Machine.execVlog2 f s
  | .vsin f => Sys2Proof.Machine.execVsin f s
  | .vcos f => Sys2Proof.Machine.execVcos f s
  | .vtanh f => Sys2Proof.Machine.execVtanh f s
  | .vli f => Sys2Proof.Machine.execVli f s
  | .viota f => Sys2Proof.Machine.execViota f s
  | .vld f => Sys2Proof.Machine.execVld f s
  | .vst f => Sys2Proof.Machine.execVst f s
  | .vldg f => Sys2Proof.Machine.execVldg f s
  | .vstg f => Sys2Proof.Machine.execVstg f s
  | .vamo f => Sys2Proof.Machine.execVamo f s
  | .sadv f => Sys2Proof.Machine.execSadv f s
  | .vshf f => Sys2Proof.Machine.execVshf f s
  | .vperm f => Sys2Proof.Machine.execVperm f s
  | .vred f => Sys2Proof.Machine.execVred f s
  | .vscan f => Sys2Proof.Machine.execVscan f s
  | .vtrn f => Sys2Proof.Machine.execVtrn f s
  | .vtopk f => Sys2Proof.Machine.execVtopk f s
  | .vcmps f => Sys2Proof.Machine.execVcmps f s
  | .vprune f => Sys2Proof.Machine.execVprune f s
  | .plog f => Sys2Proof.Machine.execPlog f s
  | .vote f => Sys2Proof.Machine.execVote f s
  | .vexit f => Sys2Proof.Machine.execVexit f s
  | .cpy e => Sys2Proof.Machine.execCpy e s
  | .cpyRetire c m => Sys2Proof.Machine.execCpyRetire c m s
  | .fgat e => Sys2Proof.Machine.execFgat e s
  | .fhdl e => Sys2Proof.Machine.execFhdl e s
  | .fetchUnitRetire c m => Sys2Proof.Machine.execFetchUnitRetire c m s
  | .mldw e => Sys2Proof.Machine.execMldw e s
  | .mswp e => Sys2Proof.Machine.execMswp e s
  | .mma e => Sys2Proof.Machine.execMma e s
  | .mmas e => Sys2Proof.Machine.execMmas e s
  | .mclr e => Sys2Proof.Machine.execMclr e s
  | .mscl e => Sys2Proof.Machine.execMscl e s
  | .mrdy e => Sys2Proof.Machine.execMrdy e s
  | .mwait e => Sys2Proof.Machine.execMwait e s
  | .matrixCommandComplete c m => Sys2Proof.Machine.execMatrixCommandComplete c m s
  | .cwait e => Sys2Proof.Machine.execCwait e s
  | .nsubRead e => Sys2Proof.Machine.execNsubRead e s
  | .nsubWrite e => Sys2Proof.Machine.execNsubWrite e s
  | .nsubFlush e => Sys2Proof.Machine.execNsubFlush e s
  | .nsubRetire pair k st data => Sys2Proof.Machine.execNsubRetire pair k st data s
  | .sisec e => Sys2Proof.Machine.execSisec e s
  | .sunion e => Sys2Proof.Machine.execSunion e s
  | .sdiff e => Sys2Proof.Machine.execSdiff e s
  | .smadd e => Sys2Proof.Machine.execSmadd e s
  | .sprd e => Sys2Proof.Machine.execSprd e s
  | .schk e => Sys2Proof.Machine.execSchk e s
  | .generatorFetch c => Sys2Proof.Machine.execGeneratorFetch c s
  | .emission c => Sys2Proof.Machine.execEmission c s
  | .replaySegmentFeed c => Sys2Proof.Machine.execReplaySegmentFeed c s
  | .engineHandover c m => Sys2Proof.Machine.execEngineHandover c m s
  | .fenceMarker c => Sys2Proof.Machine.execFenceMarker c s
  | .phaseMarker c => Sys2Proof.Machine.execPhaseMarker c s
  | .barMarker c => Sys2Proof.Machine.execBarMarker c s
  | .tsetMarker c => Sys2Proof.Machine.execTsetMarker c s
  | .cdefMarker c => Sys2Proof.Machine.execCdefMarker c s
  | .carrySend c m => Sys2Proof.Machine.execCarrySend c m s
  | .trapEntry c => Sys2Proof.Machine.execTrapEntry c s
  | .engineFaultAfterExit c => Sys2Proof.Machine.execEngineFaultAfterExit c s
  | .dispatchCompletion c => Sys2Proof.Machine.execDispatchCompletion c s
  | .launch q => Sys2Proof.Machine.execLaunch q s
  | .launchPlacement k base => Sys2Proof.Machine.execLaunchPlacement k base s
  | .revocation c => Sys2Proof.Machine.execRevocation c s
  | .ashResume c => Sys2Proof.Machine.execAshResume c s
  | .lentRangeSpill c m k => Sys2Proof.Machine.execLentRangeSpill c m k s
  | .switchOut c crimson => Sys2Proof.Machine.execSwitchOut c crimson s
  | .preemptDeferExpiry c => Sys2Proof.Machine.execPreemptDeferExpiry c s
  | .restore c base => Sys2Proof.Machine.execRestore c base s
  | .timer c slice => Sys2Proof.Machine.execTimer c slice s
  | .deadline c => Sys2Proof.Machine.execDeadline c s
  | .domcreate q => Sys2Proof.Machine.execDomcreate q s
  | .domdestroy q => Sys2Proof.Machine.execDomdestroy q s
  | .qenable q => Sys2Proof.Machine.execQenable q s
  | .qdisable q => Sys2Proof.Machine.execQdisable q s
  | .shootdown q => Sys2Proof.Machine.execShootdown q s
  | .shootdownAck k => Sys2Proof.Machine.execShootdownAck k s
  | .patch q => Sys2Proof.Machine.execPatch q s
  | .nvmepair q => Sys2Proof.Machine.execNvmepair q s
  | .nvmefree q => Sys2Proof.Machine.execNvmefree q s
  | .ticket q => Sys2Proof.Machine.execTicket q s
  | .commit q slot => Sys2Proof.Machine.execCommit q slot s
  | .errcnt q v => Sys2Proof.Machine.execErrcnt q v s
  | .enEnable => Sys2Proof.Machine.execEnEnable s
  | .enDisable => Sys2Proof.Machine.execEnDisable s
  | .registerWrite addr v => Sys2Proof.Machine.execRegisterWrite addr v s
  | .hostCxlMemRead x n => Sys2Proof.Machine.execHostCxlMemRead x n s
  | .hostCxlMemWrite x data => Sys2Proof.Machine.execHostCxlMemWrite x data s
  | .remoteAccess pa op => Sys2Proof.Machine.execRemoteAccess pa op s
  | .reset => Sys2Proof.Machine.execReset s
  | .selfTestReport => Sys2Proof.Machine.execSelfTestReport s
  | .attestationReport nonce => Sys2Proof.Machine.execAttestationReport nonce s
  | .runtimeFence u => Sys2Proof.Machine.execRuntimeFence u s
  | .criticalTemperature die => Sys2Proof.Machine.execCriticalTemperature die s
  | .uncorrectableError l => Sys2Proof.Machine.execUncorrectableError l s
  | .deviceNumberSet n => Sys2Proof.Machine.execDeviceNumberSet n s
  | .unassignedControlKind q => Sys2Proof.Machine.execUnassignedControlKind q s

end Sys2Proof.Machine
end

