-- ==== Sys2Proof/Machine/Turns.lean ====
section
/-!
DEFINITION. Who moves: what each turn puts in hand and executes (R54, R59, R282, R287), the inputs, and the fixed order in which
turns are tried when no input says who moves (log 2).
-/
namespace Sys2Proof.Machine

/-! ## Turns -/

/-- A device step: it has no encoding. -/
def isDeviceStep (i : Instr) : Bool := (encode i).isEmpty

/-- What is executed for a fetched slot: the slot itself, or the emission of a lane slot (R54). -/
def genAction (c : Nat) (i : Instr) : Instr :=
  if i.lform.isSome || i.liform.isSome || i.eform.isSome then .emission c else i

/-- The context in hand. -/
def State.inHand (s : State) (c m item : Nat) (e : Option Entry) : State :=
  { s with hand := { ctx := c, member := m, row := item, entry := e } }

/-- What a turn may leave out: the lanes or lines performed, the fault detected late. -/
def State.inPart (s : State) (part : Option Nat) (late : Bool) : State := { s with hand := { s.hand with part := part, late := late } }

/-- A turn that was none: the context is told when it was its own. -/
def stamped (o : Out) (f : Nat → State → State) : Out :=
  match o with
  | .next s => if s.waited then .next s else .next (f (s.moves + 1) { s with moves := s.moves + 1 })
  | o => o

/-- Execution of the instruction that the generator of a context has fetched; `s0` is the state to go back to on a wait. -/
def runFetched (s0 s : State) (c : Nat) : Out :=
  match (s.ctxOf c).bind fun x => x.ir with
  | none => .next s
  | some i =>
    match exec (genAction c i) (s.inHand c 0 0 none) with
    | .next s2 => if s2.waited then wait s0 else .next s2
    | o => o

/-- R109, R282: the slot at the PC of a context fetched and executed; one that stalls is fetched again at the next turn. -/
def genTurn (s : State) (c : Nat) : Out :=
  match s.ctxOf c with
  | none => .fault .noExecutor
  | some x =>
    if !x.genMoves then wait s
    else
      match x.ir with
      | some _ => runFetched s s c
      | none =>
        match exec (.generatorFetch c) (s.inHand c 0 0 none) with
        | .next s1 => if s1.waited then wait s else runFetched s s1 c
        | o => o

/-- A turn that would do nothing. -/
def idle (o : Out) : Bool :=
  match o with
  | .next s => s.waited
  | _ => true

/-- R282: the contexts whose generators stand before a context's on its leader's cluster: the owner before ash contexts, an ash
context that executed less recently before the other. -/
def gensBefore (s : State) (x : Ctx) : List Ctx :=
  let base := fun (c : Ctx) => (c.member 0).map fun m => m.cluster
  s.ctxs.filter fun d => x.ash && d.id != x.id && !d.completed && base d == base x && d.genMoves &&
    (!d.ash || decide (d.ranAt < x.ranAt) || (d.ranAt == x.ranAt && decide (d.id < x.id)))

/-- R282: a generator's turn: none while a generator that stands before it is ready. -/
def runGen (s : State) (c : Nat) : Out :=
  match s.ctxOf c with
  | none => .fault .noExecutor
  | some x =>
    if (gensBefore s x).all fun d => idle (genTurn s d.id) then
      stamped (genTurn s c) fun n s => match s.ctxOf c with
        | some x => s.putCtx { x with ranAt := n }
        | none => s
    else wait s

/-- The slot that a row takes next: that of the stream, else an inspection slot. -/
def rowEntry (c : Ctx) (r : Row) : Option Entry :=
  match (c.nextEntry r).filter fun e => c.rowReady r e with
  | some e => some e
  | none => (c.channel.head?).map fun x => x.1

/-- A row takes its next slot. -/
def rowTurn (s : State) (c item : Nat) (part : Option Nat) (late : Bool) : Out :=
  match s.ctxOf c with
  | none => .fault .noExecutor
  | some x =>
    match x.rowOf item with
    | none => .fault .noExecutor
    | some r =>
      match rowEntry x r with
      | none => wait s
      | some e =>
        match e.item with
        | .slot i =>
          if i.lform.isSome || i.liform.isSome then exec i ((s.inHand c r.member item (some e)).inPart part late) else wait s
        | .marker _ => wait s

/-- When the lane block `b` of member `m` last issued a slot of a context (R287). -/
def Ctx.issuedLast (c : Ctx) (m b : Nat) : Nat := ((c.issuedAt.find? fun x => x.1 == (m, b)).map fun x => x.2).getD 0

/-- The cluster on which a row stands. -/
def Ctx.clusterAt (c : Ctx) (r : Row) : Option Nat := (c.member r.member).map fun m => m.cluster

/-- R287, R34, R36: a row stands before another of its lane block: an owner's before an ash context's; of one context the older issue
position, then the lower item; of two ash contexts the one that issued less recently there. -/
def rowBefore (d : Ctx) (q : Row) (c : Ctx) (r : Row) : Bool :=
  if d.id == c.id then decide (q.issue < r.issue) || (q.issue == r.issue && decide (q.item < r.item))
  else if d.ash != c.ash then c.ash
  else
    let n := d.issuedLast q.member (d.blockOf q)
    let k := c.issuedLast r.member (c.blockOf r)
    decide (n < k) || (n == k && decide (d.id < c.id))

/-- The rows of the same lane block that stand before a row, with their contexts. -/
def rowsBefore (s : State) (c : Ctx) (r : Row) : List (Nat × Nat) :=
  s.ctxs.flatMap fun d =>
    (d.rows.filter fun q => q.live && !(d.id == c.id && q.item == r.item) && d.clusterAt q == c.clusterAt r && d.blockOf q == c.blockOf r &&
      rowBefore d q c r).map fun q => (d.id, q.item)

/-- The lane block of a row has issued a slot to it. -/
def Ctx.issued (c : Ctx) (m b n : Nat) : Ctx :=
  { c with issuedAt := (c.issuedAt.filter fun x => x.1 != (m, b)) ++ [((m, b), n)] }

/-- R287: a row's turn: none while a row that stands before it in its lane block can take a slot. -/
def runRow (s : State) (c item : Nat) (part : Option Nat) (late : Bool) : Out :=
  match (s.ctxOf c).bind fun x => (x.rowOf item).map fun r => (x, r) with
  | none => .fault .noExecutor
  | some (x, r) =>
    match r.late, late with
    | some (seq, t, _), false => done (stopRow s x item seq t)
    | _, _ =>
      if (rowsBefore s x r).all fun p => idle (rowTurn s p.1 p.2 none true) then
        stamped (rowTurn s c item part late) fun n s => match s.ctxOf c with
          | some y => s.putCtx (y.issued r.member (x.blockOf r) n)
          | none => s
      else wait s

/-- An engine's turn with one of its commands, or with line `part` of that command's source. -/
def cmdTurn (s : State) (c m : Nat) (part : Option Nat) (x : Cmd) : Out :=
  match x.e.item with
  | .slot i => exec i ((s.inHand c m 0 (some x.e)).inPart part false)
  | .marker _ => wait s

/-- The first of some commands that does not wait. -/
def firstCmd (s : State) (c m : Nat) : List Cmd → Out
  | [] => wait s
  | x :: rest => if idle (cmdTurn s c m none x) then firstCmd s c m rest else cmdTurn s c m none x

/-- An engine's turn: the first of the commands that may act and does not wait. -/
def runEngine (s : State) (c m : Nat) (g : Engine) : Out :=
  match (s.ctxOf c).bind fun x => x.member m with
  | none => .fault .noExecutor
  | some mb => firstCmd s c m (turnCmds mb g false)

/-- A turn of the command with an order number (R336, R348). -/
def runCommand (s : State) (c m : Nat) (g : Engine) (seq : Nat) (part : Option Nat) : Out :=
  match (s.ctxOf c).bind fun x => x.member m with
  | none => .fault .noExecutor
  | some mb =>
    match (turnCmds mb g part.isSome).find? fun x => x.e.seq == seq with
    | none => wait s
    | some x => cmdTurn s c m part x

/-- A turn of one wait that a member holds. -/
def holdTurn (s : State) (c m : Nat) (h : Entry) : Out :=
  match h.item with
  | .slot i => exec i (s.inHand c m 0 (some h))
  | .marker _ => wait s

/-- The first of a member's waits that is over. -/
def firstHold (s : State) (c m : Nat) : List Entry → Out
  | [] => wait s
  | h :: rest => if idle (holdTurn s c m h) then firstHold s c m rest else holdTurn s c m h

/-- The MWAITs and CWAITs of a member: the one that holds its rows, or those that wait where no rows are left (R60). -/
def runHold (s : State) (c m : Nat) : Out :=
  match (s.ctxOf c).bind fun x => x.member m with
  | none => .fault .noExecutor
  | some mb => firstHold s c m mb.holds

/-! ### Command links (R263, R264) -/

/-- A permit of a leaf controller's link is free for a message. -/
def permitFree (s : State) (leaf : Nat) (crimson : Bool) : Bool :=
  permitLeft ((s.links.filter fun x => x.leaf == leaf && x.sent).map fun x => x.crimson) crimson

/-- A leaf controller sends the first of its messages for which there is a permit; without one it waits. -/
def sendMessage (s : State) (leaf : Nat) : Out :=
  match s.links.findIdx? fun x => x.leaf == leaf && !x.sent && permitFree s leaf x.crimson with
  | none => wait s
  | some n => done { s with links := s.links.zipIdx.map fun (x, k) => if k == n then { x with sent := true } else x }

/-- The scheduler accepts the first message of a link, and the permit returns. -/
def acceptMessage (s : State) (leaf : Nat) : Out :=
  match s.links.findIdx? fun x => x.leaf == leaf && x.sent with
  | none => wait s
  | some n => done { s with links := s.links.eraseIdx n, log := s.log ++ ((s.links[n]?).map fun x => x.body).toList }

/-- A leaf controller accepts the scheduler's first message, and the permit returns. -/
def acceptOrder (s : State) (leaf : Nat) : Out :=
  match s.orders.findIdx? fun x => x.leaf == leaf with
  | none => wait s
  | some n => done { s with orders := s.orders.eraseIdx n }

/-- A device step; the hand-over of an MRDY is the MRDY's own execution. -/
def runStep (s : State) (i : Instr) : Out :=
  if !isDeviceStep i then wait s
  else
    match i with
    | .engineHandover c m =>
      match (s.ctxOf c).bind fun x => handoverEntry s x m with
      | some (_, e, .mrdy x) => exec (.mrdy x) (s.inHand c m 0 (some e))
      | _ => exec i s
    | _ => exec i s

def runTurn (s : State) (t : Turn) : Out :=
  match t with
  | .gen c => runGen s c
  | .row c item => runRow s c item none false
  | .rowPart c item n => runRow s c item (some n) false
  | .rowLate c item => runRow s c item none true
  | .engine c m g => runEngine s c m g
  | .command c m g seq line => runCommand s c m g seq line
  | .hold c m => runHold s c m
  | .linkSend leaf => sendMessage s leaf
  | .linkAccept leaf => acceptMessage s leaf
  | .orderAccept leaf => acceptOrder s leaf
  | .port region => if (nextAccepted s region).isSome then done (performNext s region) else wait s
  | .step i => runStep s i

/-! ## Inputs -/

/-- R7, R92, R311, R312: time passes; CYCLE stands while a context is switched out. -/
def passTime (s : State) (n : Nat) : State :=
  { s with realtime := s.realtime + BitVec.ofNat 64 n,
           ctxs := mapIf (fun c => c.resident && c.ended.isNone) (fun c => { c with cycle := c.cycle + BitVec.ofNat 64 n }) s.ctxs }

/-- R223: the snapshot of a line is taken before the load that adds it to the view, behind what the port of its region has accepted (R225,
R339; log 62); the view itself changes with the load alone.  The snapshots of a Monochrome context are taken by its loads, in the order of
their keys (R290, R369). -/
def takeSnapshot (s : State) (c m line : Nat) : State :=
  match s.ctxOf c with
  | none => s
  | some x =>
    match x.member m with
    | none => s
    | some mb =>
      let busy := s.accepted.any fun a => a.place.isNone && a.bytes.any fun b => b.1.line.copies.contains (line - line % 128)
      if x.resident && !x.mono && !busy then s.putCtx (x.putMember m (mb.snapAhead s.mem (line - line % 128))) else s

/-- A cached translation of an address. -/
def covers (d : Nat) (va : DWord) (x : Nat × Xlat) : Bool := x.1 == d && decide (x.2.base ≤ va.toNat ∧ va.toNat < x.2.base + x.2.size)

/-- R218: a translation is cached. -/
def cacheXlat (s : State) (d : Nat) (va : DWord) : State :=
  match lookup s d va.toNat with
  | .ok x => if s.tlb.contains (d, x) then s else { s with tlb := s.tlb ++ [(d, x)] }
  | .error _ => s

/-- R218: accesses use another cached translation of an address, or what the tables hold now. -/
def preferXlat (s : State) (d : Nat) (va : DWord) (n : Nat) : State :=
  match (s.tlb.filter (covers d va))[n]? with
  | some x => { s with tlb := x :: s.tlb.erase x }
  | none =>
    match lookup { s with tlb := [] } d va.toNat with
    | .ok x => { s with tlb := (d, x) :: s.tlb.erase (d, x) }
    | .error _ => s

/-- R218, R219: fetches of generators use another cached translation of an address, or what the tables hold now; not one that makes the
page writable. -/
def preferCodeXlat (s : State) (d : Nat) (va : DWord) (n : Nat) : State :=
  match ((s.codeTlb ++ s.tlb).filter (covers d va))[n]?, lookup { s with tlb := [] } d va.toNat with
  | some x, _ => if x.2.w && !x.2.x then s else { s with codeTlb := x :: s.codeTlb.erase x }
  | none, .ok x => if x.w && !x.x then s else { s with codeTlb := (d, x) :: s.codeTlb.erase (d, x) }
  | none, .error _ => { s with codeTlb := s.codeTlb.filter fun x => !covers d va x }

/-- R218: cached translations of an address are discarded; generators keep theirs (R219). -/
def discardXlat (s : State) (d : Nat) (va : DWord) : State := { s with tlb := s.tlb.filter fun x => !covers d va x }

/-- R291: the translator accepts a level of a function. -/
def AbeusLevel.accepted (x : AbeusLevel) : Bool :=
  match x.level with
  | 2 => decide (1 ≤ x.version ∧ x.version ≤ 3)
  | 1 => decide (1 ≤ x.version ∧ x.version ≤ 2)
  | 0 => decide (1 ≤ x.version ∧ x.version ≤ 2)
  | _ => false

/-- R291: the highest level of a function that the translator accepts. -/
def pickLevel (f : List AbeusLevel) : Option AbeusLevel := leastBy (fun x => 2 - x.level) (f.filter AbeusLevel.accepted)

/-- The elements that a function gives, none when it gives none for one of them. -/
def allSome {α β : Type} (f : α → Option β) : List α → Option (List β)
  | [] => some []
  | x :: rest =>
    match f x, allSome f rest with
    | some y, some l => some (y :: l)
    | _, _ => none

/-- R132: a byte of a kernel's read-only data goes into a page with R set and W and X clear. -/
def dataLoc (s : State) (d va : Nat) : Option GLoc :=
  match lookup s d va with
  | .ok p => if p.r && !p.w && !p.x && (p.loc va).mappable s.fenced then some (p.loc va) else none
  | .error _ => none

/-- The bytes of a level's read-only data with their places from RODATA on, an address that is a multiple of 256 (R132). -/
def AbeusLevel.dataBytes (s : State) (d : Nat) (l : AbeusLevel) : Option (List (GLoc × Byte)) :=
  if l.data.isEmpty then some []
  else if l.kernel.rodata.toNat % 256 != 0 then none
  else (allSome (fun k => dataLoc s d ((l.kernel.rodata.toNat + k) % 2 ^ 64)) (List.range l.data.length)).map fun ls => ls.zip l.data

/-- The bytes of a level's code with their places. -/
def AbeusLevel.codeBytes (s : State) (d va : Nat) (l : AbeusLevel) : Option (List (GLoc × Byte)) :=
  (translateN s d false .patch ((va + l.place) % 2 ^ 64) l.code.length).toOption.map fun ls => ls.zip l.code

/-- R291: a container translated: its code and data written to device memory, its kernels named by launches from now on, in place of
those of an object that stood at the address; a container with a function without an accepted level gives nothing, so that its launches
fail with CODEBAD. -/
def translateContainer (s : State) (x : Container) : State :=
  match allSome pickLevel x.funcs with
  | none => s
  | some levels =>
    match allSome (AbeusLevel.codeBytes s x.domain x.va) levels, allSome (AbeusLevel.dataBytes s x.domain) levels with
    | some ws, some ds =>
      { s.perform (ws.flatten ++ ds.flatten) with
          code := (s.code.filter fun o => !(o.domain == x.domain && o.va == x.va)) ++
            [{ domain := x.domain, va := x.va, kernels := levels.map fun l => l.kernel }] }
    | _, _ => s

/-- R311: the firmware gives the classes their slices, which count from now on. -/
def setSlices (s : State) (x : Slices) : State := { s with slices := x, ctxs := s.ctxs.map fun c => { c with lastTimer := c.cycle } }

/-- An input takes effect. -/
def takeInput (s : State) (x : Input) : Out :=
  match x with
  | .turn t => runTurn s t
  | .ac n => done (passTime s n)
  | .snapshot c m line => done (takeSnapshot s c m line)
  | .payload pair k line => done (readPayload s pair k line)
  | .cache d va => done (cacheXlat s d va)
  | .prefer d va n => done (preferXlat s d va n)
  | .preferCode d va n => done (preferCodeXlat s d va n)
  | .discard d va => done (discardXlat s d va)
  | .container x => done (translateContainer s x)
  | .registerRead addr => hostRegisterRead s addr
  | .hdmBase a => done { s with hdmBase := a }
  | .slices x => done (setSlices s x)
  | .corrected l => if wordExists s l then done { s with log := s.log ++ [.corrected l] } else wait s
  | .found n => done { s with namespaces := s.namespaces ++ [n] }

/-! ## The order in which turns are tried (log 2) -/

/-- The turns of one context, generators apart; `slice` is that of its class. -/
def ctxTurns (slice : Nat) (c : Ctx) : List Turn :=
  let ms := List.range c.members.length
  [.step (.trapEntry c.id), .step (.preemptDeferExpiry c.id), .step (.deadline c.id), .step (.timer c.id slice)] ++
    (ms.flatMap fun m => [.step (.cpyRetire c.id m), .step (.fetchUnitRetire c.id m), .step (.matrixCommandComplete c.id m)]) ++
    (ms.flatMap fun m => [.engine c.id m .copy, .engine c.id m .fetch, .engine c.id m .storage, .engine c.id m .matrix]) ++
    (ms.map fun m => .hold c.id m) ++
    [.step (.fenceMarker c.id), .step (.phaseMarker c.id), .step (.barMarker c.id), .step (.tsetMarker c.id), .step (.cdefMarker c.id)] ++
    (ms.map fun m => .step (.engineHandover c.id m)) ++ (ms.map fun m => .step (.carrySend c.id m)) ++
    (c.liveRows.map fun r => .row c.id r.item) ++
    [.step (.replaySegmentFeed c.id), .step (.engineFaultAfterExit c.id), .step (.dispatchCompletion c.id)] ++
    (c.members.zipIdx.flatMap fun (mb, m) => (List.range mb.lends.length).map fun k => .step (.lentRangeSpill c.id m k))

/-- The records of a queue that the scheduler or the firmware takes. -/
def queueTurns (q : DevQueue) : List Turn :=
  match q.consumer with
  | .context => []
  | .launch => [.step (.launch q.num)]
  | .control =>
    [.step (.domcreate q.num), .step (.domdestroy q.num), .step (.qenable q.num), .step (.qdisable q.num), .step (.shootdown q.num),
     .step (.patch q.num), .step (.nvmepair q.num), .step (.nvmefree q.num), .step (.unassignedControlKind q.num)]

/-- Generators in the order in which they executed last, so that none starves. -/
def insertGen (c : Ctx) : List Ctx → List Ctx
  | [] => [c]
  | d :: l => if c.ranAt ≤ d.ranAt then c :: d :: l else d :: insertGen c l
def genOrder (l : List Ctx) : List Turn := (l.foldr insertGen []).map fun c => .gen c.id

/-- Every turn in the order in which it is tried; right after reset there is bring-up alone. -/
def candidates (s : State) : List Turn :=
  match s.phase with
  | .atReset => [.step .reset]
  | .amber _ _ => []
  | .running =>
    let live := s.ctxs.filter fun c => !c.completed
    s.accepted.map (fun a => .port a.region) ++ s.orders.map (fun o => .orderAccept o.leaf) ++ live.flatMap (fun c => ctxTurns (s.slices.of c.cls) c) ++ (schedulerTurns s).map .step ++ s.queues.flatMap queueTurns ++
      s.shoots.map (fun x => .step (.shootdownAck x.k)) ++
      s.links.map (fun x => if x.sent then .linkAccept x.leaf else .linkSend x.leaf) ++
      genOrder (live.filter fun c => !c.ash) ++ genOrder (live.filter Ctx.ash)

/-- The first turn that is not a wait; the device stands still when there is none. -/
def firstTurn (s : State) : List Turn → Out
  | [] => wait s
  | t :: rest =>
    match runTurn s t with
    | .next s1 => if s1.waited then firstTurn s rest else .next s1
    | o => o

/-! ## A first instruction (log 31) -/

/-- The code page at which an instruction is placed, and its first slot. -/
def probeVa : Nat := 0x10000
def probePc : DWord := 0x2000

/-- A kernel of one row on one cluster with every register. -/
def probeKernel : Kernel :=
  { entry := probePc, rodata := 0, rows := 1, regs := 256, gang := 1, cls := .normal, wb := 0x1000, ab := 0x1000, cb := 0x1000, lends := [],
    carry := [], mmrev := 2, levels := [], mono := false, params := [], handler := none }

/-- Its launch. -/
def probeLaunch : Waiting :=
  { k := 0, queue := 0, slot := 0, domain := 0, rank := 0, reported := false,
    params := { kernel := probeKernel, gang := 1, rows := 1, regs := 256, cls := .normal, mono := false, monoGroup := 0, wb := 0x1000,
                ab := 0x1000, cb := 0x1000, seed := 0, compl := 0, queues := Vector.replicate 16 none, tvec := 0, params := [] } }

/-- The context of that launch on cluster 0. -/
def probeCtx : Ctx := freshCtx probeLaunch 0 [[0]]

/-- Where an instruction goes so that the turn runs it: memory for the generator, the stream for rows, a queue for an engine. -/
def placeInstr (c : Ctx) (i : Instr) : Ctx × Turn :=
  if i.lform.isSome || i.liform.isSome then ((emitSlot c i).getD c, .row 0 0)
  else if i.eform.isSome then
    match emitSlot c i with
    | none => (c, .gen 0)
    | some c1 =>
      match c1.stream, c1.member 0 with
      | e :: _, some mb =>
        let mb := { mb with handed := e.seq + 1 }
        match i, engineOf i with
        | .mrdy _, _ => (c1, .step (.engineHandover 0 0))
        | _, some g =>
          let cmd : Cmd := { e := e, copied := (copiedRegs State.reset c 0 i).1, held := false, st := .queued }
          (c1.putMember 0 (mb.setQueue g [cmd]), .engine 0 0 g)
        | _, none => (c1.putMember 0 { mb with holds := [e] }, .hold 0 0)
      | _, _ => (c1, .gen 0)
  else (c, .gen 0)

/-- The translation of the code page. -/
def probeXlat : Xlat :=
  { base := probeVa, size := 0x10000, pa := probeVa, rep := false, fmt := 0, r := true, w := false, x := true, u := true }

end Sys2Proof.Machine
end

