-- ==== Sys2Proof/Machine/Step.lean ====
section
/-!
DEFINITION. One step of the device: the next input, else the first turn of the fixed order that can be taken.
-/
namespace Sys2Proof.Machine

/-- One step. -/
def step (s : State) : Host.Outcome State Fault Refusal :=
  match s.agenda with
  | x :: rest => takeInput { s with agenda := rest } x
  | [] => firstTurn s (candidates s)

/-- The state in which the very next step fetches and runs the instruction whose slots are `w` (log 31). -/
def State.withFetchWord (s : State) (_nbits w : Nat) : State :=
  let bytes := ((List.range 5).map fun k => slotBytes (BitVec.ofNat 64 (w / 2 ^ (64 * k)))).flatten
  let (c, t) := match decodeBytes bytes with
    | .ok i => placeInstr probeCtx i
    | .error _ => (probeCtx, .gen 0)
  { s with phase := .running, mem := Memory.writeN s.mem probeVa bytes, tlb := (0, probeXlat) :: s.tlb,
           ctxs := c :: s.ctxs.filter fun x => x.id != 0, nextId := max 1 s.nextId, agenda := .turn t :: s.agenda }

end Sys2Proof.Machine
end

