-- ==== Sys2Proof/Safety.lean ====
section
/-!
DEFINITION. The terms in which claims are made: the invariant of a step, who is ready to execute, the state that a completed
instruction leaves, what a trap entry leaves, and what stays as it was.
-/
namespace Sys2Proof.Safety
open Sys2Proof.Machine

/-- The invariant: device memory is in its canonical form. -/
def State.Inv (s : State) : Prop := Memory.wf s.mem = true

/-! ## Turns -/

/-- The state in which a fetched instruction of context `k` is executed: latched, the translations of its `n` slots kept (R219). -/
def fetched (s : State) (k : Nat) (c : Ctx) (n : Nat) (i : Instr) : State :=
  let s := s.inHand k 0 0 none
  ({ (keepCode (if s.oldSlots.isEmpty then s else { s with free := s.free + 1 }) c c.pc n).putCtx { c with ir := some i } with
    waited := false }).inHand k 0 0 none

/-- A generator has moved: it stands last among the ash contexts of its cluster (R282). -/
def ranGen (k : Nat) (t : State) : State :=
  let t := { t with moves := t.moves + 1 }
  match t.ctxOf k with
  | some x => t.putCtx { x with ranAt := t.moves }
  | none => t

/-- The lane block `b` of member `m` has issued a slot of a context: it stands last among the ash contexts there (R287). -/
def issuedRow (k m b : Nat) (t : State) : State :=
  let t := { t with moves := t.moves + 1 }
  match t.ctxOf k with
  | some x => t.putCtx (x.issued m b t.moves)
  | none => t

/-- A turn that has moved is counted by `f`; one that waits is none. -/
def counted (o : Out) (f : State → State) : Out :=
  match o with
  | .next t => .next (if t.waited then t else f t)
  | o => o

/-- A turn of a row: the slot whole, by its lane or line `part`, or without its fault (R414, R85). -/
def rowTurnOf (k item : Nat) (t : Turn) (part : Option Nat) (late : Bool) : Prop :=
  (t = .row k item ∧ part = none ∧ late = false) ∨ (∃ n, t = .rowPart k item n ∧ part = some n ∧ late = false) ∨
    (t = .rowLate k item ∧ part = none ∧ late = true)

/-! ## Generator instructions -/

/-- The fields of a slot of format G (R107): OP, gd, ga, gb, I, imm16. -/
abbrev FormG (w : DWord) (op : BitVec 8) (d a b : BitVec 6) (imm : Bool) (v : BitVec 16) : Prop :=
  w.getLsbD 63 = false ∧ w.extractLsb' 35 8 = op ∧ w.extractLsb' 29 6 = d ∧ w.extractLsb' 23 6 = a ∧ w.extractLsb' 17 6 = b ∧
    w.getLsbD 16 = imm ∧ w.extractLsb' 0 16 = v

/-- `c` is the context in hand and none of the registers in `srcs` is poisoned (R310). -/
abbrev GenReady (s : State) (c : Ctx) (srcs : List GReg) : Prop :=
  s.ctxOf s.hand.ctx = some c ∧ ∀ r ∈ srcs, s.gPoisoned c.id r = false

/-- The sequencing cannot fault (R111), and the generator can go on. -/
abbrev SeqOk (c : Ctx) (q : Seq) : Prop := c.seqFault q = none

/-- The instruction has completed with context `c` as its own effect left it in `s`; its sequencing has been applied. -/
def genNext (s : State) (c : Ctx) (q : Seq) : State := { retireGen s c q with waited := false }

/-- The instruction has written g`d` (its poison goes, R309) and has completed. -/
def genDone (s : State) (c : Ctx) (q : Seq) (d : GReg) (v : DWord) : State :=
  genNext (s.cure fun p => p == .greg c.id d.toNat) (c.setG d v) q

/-- `c'` is `c` after NextPC of R109; `c` is the context as the instruction's own effect left it. -/
abbrev NextPc (c : Ctx) (q : Seq) (c' : Ctx) : Prop :=
  let dest := fun off : BitVec 14 => c.pc + off.signExtend 64
  match q with
  | .next => c'.pc = c.pc + 1 ∧ c'.rstack = c.rstack ∧ c'.lc = c.lc
  | .jump off => c'.pc = dest off ∧ c'.rstack = c.rstack ∧ c'.lc = c.lc
  | .jt g off => c'.pc = (if c.flag g = true then dest off else c.pc + 1) ∧ c'.rstack = c.rstack ∧ c'.lc = c.lc
  | .jf g off => c'.pc = (if c.flag g = true then c.pc + 1 else dest off) ∧ c'.rstack = c.rstack ∧ c'.lc = c.lc
  | .call off => c'.pc = dest off ∧ c'.rstack = c.rstack ++ [c.pc + 1] ∧ c'.lc = c.lc
  | .ret => c.rstack = c'.rstack ++ [c'.pc] ∧ c'.lc = c.lc
  | .lend n off =>
    (if 1 < (c.loop n).toNat then c'.pc = dest off ∧ c'.loop n = c.loop n - 1 else c'.pc = c.pc + 1 ∧ c'.loop n = 0) ∧
      (∀ k, k ≠ n → c'.loop k = c.loop k) ∧ c'.rstack = c.rstack
  | .exit => c'.gen = .stopped ∧ c'.pc = c.pc ∧ c'.rstack = c.rstack ∧ c'.lc = c.lc

/-- The instructions that only write g`d`: sequencing, destination, sources. -/
def genWriter (i : Instr) : Option (Seq × GReg × List GReg) :=
  match i with
  | .gadd q d a b | .gsub q d a b | .gmul q d a b | .gmulh q d a b | .gdiv q d a b | .grem q d a b | .gand q d a b
  | .gor q d a b | .gxor q d a b | .gshl q d a b | .gshr q d a b | .gsra q d a b | .gmin q d a b | .gmax q d a b =>
    some (q, d, [a] ++ srcRegs b)
  | .gsel q d a b _ => some (q, d, [a, b])
  | .gclz q d a | .gpopc q d a => some (q, d, [a])
  | .gli q d _ => some (q, d, [])
  | .glih q d _ => some (q, d, [d])
  | _ => none

/-- The instructions that write a flag, a loop counter, a hole or a stream register and nothing else: sequencing, sources. -/
def genSetter (i : Instr) : Option (Seq × List GReg) :=
  match i with
  | .gcmp q _ _ a b => some (q, [a] ++ srcRegs b)
  | .gloop q _ b | .hset q _ b => some (q, srcRegs b)
  | .seof q _ _ | .scls q _ => some (q, [])
  | _ => none

/-- The general registers that a generator instruction reads before anything else (R310); CDEF reads its own after its first checks
(R344). -/
def genSources (i : Instr) : List GReg :=
  match i with
  | .gcmp _ _ _ a b => [a] ++ srcRegs b
  | .gloop _ _ b | .hset _ _ b | .gwfe _ b => srcRegs b
  | .gld _ _ _ _ a _ => [a]
  | .gst _ _ d a _ => [a, d]
  | .gamo _ op d a b => [a, b] ++ if op = .cas then [d] else []
  | .gjmpr _ a | .csrw _ a _ | .qcmt _ a _ | .sopen _ _ a | .npoll _ _ a | .twait _ _ _ a | .tset _ _ _ a => [a]
  | .capx _ n | .rply _ n => nameRegs n
  | i => ((genWriter i).map fun x => x.2.2).getD []

/-- Every context but `k` is as before, and of the device only the poison may differ. -/
abbrev OnlyCtx (k : Nat) (s t : State) : Prop :=
  t = { s with ctxs := t.ctxs, poison := t.poison, waited := false } ∧ ∀ j, j ≠ k → t.ctxOf j = s.ctxOf j

/-- Every byte of memory reads as before. -/
abbrev SameMemory (s t : State) : Prop := ∀ a, Memory.read t.mem a = Memory.read s.mem a

/-! ## Traps (R295, R301) -/

/-- `t` is `s` with the trap taken by the context `c`: the record, SUPER mode, the handler's address, and `h` for the return (R303); a
fault is reported to the scheduler (R264); what the handler finds in every other register is what was there, the context sleeps on no
queue, and of the device nothing else has changed. -/
abbrev TrapEntered (s : State) (c : Ctx) (tr : Trap) (h : Handling) (t : State) : Prop :=
  t = { s with ctxs := t.ctxs, waited := false,
               queues := s.queues.map (fun q => { q with sleepers := q.sleepers.filter fun w => w != c.id }),
               links := if tr.cause.isEvent then s.links
                 else s.links ++ [{ leaf := c.faultLeaf h, crimson := c.cls == .crimson, sent := false, body := .fault c.id tr.word }] } ∧
    (∀ j, j ≠ c.id → t.ctxOf j = s.ctxOf j) ∧
    ∃ c', t.ctxOf c.id = some c' ∧ c' = { c with
      priv := true, handler := true, pc := c.tvec, tcause := tr.word, tesn := tr.esn.zeroExtend 64, taddr := tr.addr, tmask := tr.mask,
      tpc := tr.pc, ir := none, gen := .running, halting := false, twait := c'.twait, handling := some h }

/-- What the return from a generator or emission trap or from an event goes on with: no row and no engine is reported, GRTE goes to the
slot that trapped, `.skip` past its `n` slots (R296, R303). -/
def plainHandling (tr : Trap) (n : Nat) : Handling :=
  { trap := tr, row := none, eng := none, marker := false, afterExit := false, resume := tr.pc, skipLen := n }

/-- A generator fault or an event has been taken. -/
abbrev Trapped (s : State) (c : Ctx) (tr : Trap) (t : State) : Prop := TrapEntered s c tr (plainHandling tr 1) t

/-- The trap kills the context (R301, R305): the dispatch has ended with STATUS 2, the reason and the record of the trap; the generator
has stopped and every row has retired; a fault is reported (R264). -/
abbrev Killed (s : State) (c : Ctx) (tr : Trap) (reason : BitVec 8) (t : State) : Prop :=
  t.waited = false ∧ t.agenda = s.agenda ∧ t.hand = s.hand ∧ (∀ j, j ≠ c.id → t.ctxOf j = s.ctxOf j) ∧
    (tr.cause.isEvent = false → ∃ leaf, t.links =
      s.links ++ [{ leaf := leaf, crimson := c.cls == .crimson, sent := false, body := .fault c.id tr.word }]) ∧
    ∃ c', t.ctxOf c.id = some c' ∧ c'.ended = some ⟨2, reason, tr.word, tr.esn.zeroExtend 64⟩ ∧ c'.tcause = tr.word ∧
      c'.tesn = tr.esn.zeroExtend 64 ∧ c'.taddr = tr.addr ∧ c'.tmask = tr.mask ∧ c'.tpc = tr.pc ∧ c'.gen = .stopped ∧
      c'.handler = false ∧ c'.priv = false ∧ c'.stream = [] ∧ c'.intake = [] ∧ (∀ r ∈ c'.rows, r.live = false) ∧
      c'.g = c.g ∧ c'.f = c.f ∧ c'.rstack = c.rstack

/-- A trap can be taken: no handler is active and TVEC is set. -/
abbrev CanTrap (c : Ctx) : Prop := c.handler = false ∧ c.tvec ≠ 0

/-- A trap cannot be taken: it kills (R301, R305). -/
abbrev MustDie (c : Ctx) : Prop := c.handler = true ∨ c.tvec = 0

/-- The reason of the death: a double fault, or no trap vector (R268). -/
def deathReason (c : Ctx) : BitVec 8 := if c.handler then 0x20 else 0x23

/-- GRTE returns now in a handler that `h` describes: SUPER mode, every inspection slot and handler marker done (R303, R337), nothing that
waited for the return (R380). -/
abbrev Returning (s : State) (c : Ctx) (h : Handling) : Prop :=
  s.ctxOf s.hand.ctx = some c ∧ c.priv = true ∧ c.handler = true ∧ c.channel = [] ∧ c.handling = some h ∧ c.ended = none ∧
    c.deferred = none ∧ c.timerWaits = none ∧ c.deadlineWaits = none

/-- The return has been made with everything that the handler wrote as it left it, in the context `c'` of `t`: USER mode, no handler, the
PC; memory is as before. -/
abbrev Returned (s : State) (c : Ctx) (pc : DWord) (stopped : Bool) (t : State) (c' : Ctx) : Prop :=
  t.waited = false ∧ SameMemory s t ∧ t.ctxOf c.id = some c' ∧ c'.priv = false ∧ c'.handler = false ∧ c'.handling = none ∧ c'.pc = pc ∧
    c'.gen = (if stopped then .stopped else .running) ∧ c'.g = c.g ∧ c'.f = c.f ∧ c'.h = c.h ∧ c'.lc = c.lc ∧ c'.rstack = c.rstack ∧
    c'.tvec = c.tvec ∧ c'.tcause = c.tcause ∧ c'.genCount = c.genCount + 1

/-- The record of a precise generator fault (R295, R296). -/
def genTrap (c : Ctx) (cause : Cause) (addr : DWord) : Trap := { cause := cause, dom := .g, addr := addr, pc := c.pc }

/-- The record of a precise emission fault (R143, R295). -/
def emitTrap (c : Ctx) (cause : Cause) (addr : DWord) : Trap := { cause := cause, dom := .e, addr := addr, pc := c.pc }

/-! ## Lane slots -/

/-- The row in hand takes the entry in hand, which holds `i`: as the next slot of the stream (R31) or as an inspection slot
(R302). -/
abbrev RowTurn (s : State) (i : Instr) (t : RowSlot) : Prop :=
  s.ctxOf s.hand.ctx = some t.c ∧ t.c.rowOf s.hand.row = some t.r ∧ s.hand.entry = some t.e ∧ t.e.item = .slot i ∧
    (t.c.rowReady t.r t.e || t.c.inspReady t.r t.e) = true ∧ t.insp = (!t.c.rowReady t.r t.e && t.c.inspReady t.r t.e)

/-- The operands are there (R45) and the words that the result depends on are not poisoned (R310). -/
abbrev Readable (s : State) (t : RowSlot) (i : Instr) (ops : List Operand) (dep : LaneMask → List Source → Deps)
    (srcs : List Source) : Prop :=
  sources s t 0 ops = some srcs ∧ poisonedSource (t.part i) srcs (dep (t.part i) srcs) = none

/-- The row after a slot's results (R407): the destinations in the participating lanes, the predicate, flags, RNG states. -/
def rowWith (t : RowSlot) (part : LaneMask) (la : BitVec 4) (x : Result) : Row :=
  let r := x.writes.foldl (writeReg t part la (if t.e.kA == 0 && t.e.kB == 0 then x.tag else .g)) t.r
  let r := match x.pred with
    | some (p, m) => r.setPred p ((r.pred p &&& ~~~part) ||| (m &&& part))
    | none => r
  { r with flags := r.flags ||| x.flags, rng := x.rng.getD r.rng }

/-- The slot has completed in its row with these results. -/
def laneDone (s : State) (t : RowSlot) (i : Instr) (la : BitVec 4) (x : Result) : State :=
  { completeSlot (cureLanes s t (t.part i) (x.writes.map fun w => w.1)) t (rowWith t (t.part i) la x) i with waited := false }

/-- The slot has completed in state `s1` with the row `r`. -/
def slotDone (s1 : State) (t : RowSlot) (r : Row) (i : Instr) : State := { completeSlot s1 t r i with waited := false }

/-- What a slot of another row leaves of a row: registers, predicates, active mask, random numbers, flags. -/
def rowKept (r : Row) : List VRegister × Vector LaneMask 16 × LaneMask × Vector DWord 64 × BitVec 8 :=
  (r.regs, r.preds, r.mask, r.rng, r.flags)

/-- What a slot leaves of a member: all but the carries that have come in. -/
def memberKept (m : Member) : Member := { m with inbox := [] }

/-- The state after a slot: only the context and, in it, only what belongs to rows and to the way of the stream may differ; the members
(buffers, banks, store buffers, views, engines) are as before but for the carries that have come in, every other row keeps its
registers, predicates, mask, random numbers and flags; `r` is the row as the slot leaves it. -/
abbrev RowAfter (s : State) (t : RowSlot) (s' : State) (r : Row) : Prop :=
  s' = { s with ctxs := s'.ctxs, poison := s'.poison, free := s'.free, waited := false } ∧
    (∀ k, k ≠ t.c.id → s'.ctxOf k = s.ctxOf k) ∧
    ∃ c', s'.ctxOf t.c.id = some c' ∧ c'.rowOf t.r.item = some r ∧
      c' = { t.c with rows := c'.rows, kept := c'.kept, members := c'.members, stream := c'.stream, vq := c'.vq, channel := c'.channel,
                        stores := c'.stores } ∧
      c'.members.map memberKept = t.c.members.map memberKept ∧
      ∀ k, k ≠ t.r.item → (c'.rowOf k).map rowKept = (t.c.rowOf k).map rowKept

/-- The slot has completed, has written exactly the registers `k` with a value in `ws k`, in the participating lanes (but those that
slots completed ahead of it have written, R85), and has raised the flags `fl`; every other register with its tag, the predicates, the
active mask and the generators of random numbers are as before. -/
abbrev RowWrote (s : State) (t : RowSlot) (i : Instr) (s' : State) (ws : Nat → Option (Nat → Word)) (fl : FpFlags) : Prop :=
  ∃ r', RowAfter s t s' r' ∧ r'.preds = t.r.preds ∧ r'.mask = t.r.mask ∧ r'.rng = t.r.rng ∧ r'.flags = t.r.flags ||| fl ∧
    ∀ k, match ws k with
      | none => r'.regs[k]? = t.r.regs[k]?
      | some v => ∀ l, l < 64 →
        (r'.reg k).get l = if (t.r.writable t.insp (t.part i) k).getLsbD l = true then v l else (t.r.reg k).get l

/-- One register is written. -/
def only (d : Nat) (v : Nat → Word) (k : Nat) : Option (Nat → Word) := if k = d then some v else none

/-- An elementwise instruction: element type, destination, operands, immediates, lookahead, operation on one element of each
(R412, R413, R415, R416, R423, R433). -/
structure Elementwise where
  t : ElemTy
  d : Nat
  la : BitVec 4
  ops : RowSlot → List Operand
  extra : List Word
  op : List Nat → Nat × FpFlags

def two (f : LForm) (op : Nat → Nat → Nat × FpFlags) : Option Elementwise :=
  some ⟨f.t, f.vd.toNat, f.la, fun t => [vaOp t f.va, vbOp t f.vb], [], op2 op⟩
def one (f : LForm) (op : Nat → Nat × FpFlags) : Option Elementwise :=
  some ⟨f.t, f.vd.toNat, f.la, fun t => [vaOp t f.va], [], op1 op⟩
def immed (f : LIForm) (op : Nat → Nat → Nat × FpFlags) : Option Elementwise :=
  some ⟨f.t, f.vd.toNat, 0, fun _ => [plainOp f.va.toNat], [subWord f.src], op2 op⟩

/-- The elementwise instructions. -/
def elementwise (i : Instr) : Option Elementwise :=
  match i with
  | .vadd f => two f (addElem f.t f.rnd (f.fn == 1))
  | .vaddImm f => immed f (addElem f.t .rne false)
  | .vsub f => two f (subElem f.t f.rnd (f.fn == 1))
  | .vsubImm f => immed f (subElem f.t .rne false)
  | .vmul f => two f (mulElem f.t f.rnd (f.fn == 1))
  | .vmulImm f => immed f (mulElem f.t .rne false)
  | .vmin f => two f (minElem f.t)
  | .vminImm f => immed f (minElem f.t)
  | .vmax f => two f (maxElem f.t)
  | .vmaxImm f => immed f (maxElem f.t)
  | .vabs f => one f (absElem f.t)
  | .vneg f => one f (negElem f.t)
  | .vfma f =>
    some ⟨f.t, f.vd.toNat, 0, fun t => [vaOp t f.va, vbOp t f.vb, plainOp f.vc.toNat], [], op3 (fFma f.t.fmt f.rnd)⟩
  | .vfmaImm f =>
    some ⟨f.t, f.vd.toNat, 0, fun _ => [plainOp f.va.toNat, plainOp f.vd.toNat], [subWord f.src], op3 (fFma f.t.fmt .rne)⟩
  | .vand f => two f fun a b => (a &&& b, 0)
  | .vandImm f => immed f fun a b => (a &&& b, 0)
  | .vor f => two f fun a b => (a ||| b, 0)
  | .vorImm f => immed f fun a b => (a ||| b, 0)
  | .vxor f => two f fun a b => (a ^^^ b, 0)
  | .vxorImm f => immed f fun a b => (a ^^^ b, 0)
  | .vshl f => two f (shlElem f.t)
  | .vshlImm f => immed f (shlElem f.t)
  | .vshr f => two f (shrElem f.t)
  | .vshrImm f => immed f (shrElem f.t)
  | .vsra f => two f (sraElem f.t)
  | .vsraImm f => immed f (sraElem f.t)
  | .vclz f => one f (clzElem f.t)
  | .vpopc f => one f (popElem f.t)
  | .vrcp f => one f (fRcp f.t.fmt f.rnd)
  | .vrsq f => one f (fRsq f.t.fmt f.rnd)
  | .vsqrt f => one f (fSqrt f.t.fmt f.rnd)
  | .vexp2 f => one f (fExp2 f.t.fmt)
  | .vlog2 f => one f (fLog2 f.t.fmt)
  | .vsin f => one f (fSin f.t.fmt)
  | .vcos f => one f (fCos f.t.fmt)
  | .vtanh f => one f (fTanh f.t.fmt)
  | _ => none

/-- The word that an elementwise instruction gives lane `l`, with its flags. -/
def Elementwise.word (e : Elementwise) (srcs : List Source) (l : Nat) : Word × FpFlags :=
  mapElems e.t e.op ((srcs.map fun x => x.lanes.get l) ++ e.extra)

/-! ## Engine commands -/

/-- What an engine's turn finds: context, member and command in hand, the state with the command's scoreboard entry, that with
its bank taken, the context and the member there. -/
structure EngineView where
  c0 : Ctx
  mb0 : Member
  x : Cmd
  s0 : State
  s1 : State
  c : Ctx
  mb : Member

/-- The command that holds `i` has its turn on the member in hand: it may act (`turnCmds`), the context is switched in, the bank is free for
it (R176), its scoreboard entry stands and nothing earlier meets its ranges (R210); memory is as the engine finds it behind the ports (log
62). -/
abbrev EngineFront (s : State) (g : Engine) (i : Instr) (v : EngineView) : Prop :=
  s.ctxOf s.hand.ctx = some v.c0 ∧ v.c0.member s.hand.member = some v.mb0 ∧ cmdInHand s v.mb0 g i = some v.x ∧ v.x.e.item = .slot i ∧
    v.c0.switch = .inside ∧ (g = .matrix → v.c0.revoked = false ∧ bankFor s v.c0 v.mb0 = true) ∧
    ensureBoard (engineMemory s g) v.c0 s.hand.member v.mb0 v.x.e i = some (v.s0, true) ∧ bindBank v.s0 v.c0.id s.hand.member g = v.s1 ∧
    v.s1.ctxOf v.c0.id = some v.c ∧ v.c.member s.hand.member = some v.mb

/-- The command runs in this turn, which is none that reads one line ahead for it (R336). -/
abbrev EngineTurn (s : State) (g : Engine) (i : Instr) (v : EngineView) : Prop := EngineFront s g i v ∧ s.hand.part = none

/-- A byte that an engine's command reads in a state: of the line that it has read ahead, else at home (R235, R336). -/
def engineByte (s : State) (v : EngineView) (l : GLoc) : Byte :=
  let pa := l.on (dieOf v.mb.cluster)
  match v.x.got.find? fun y => y.pa == pa - pa % 128 with
  | some y => y.data.getD (pa % 128) 0
  | none => Memory.read s.mem pa

/-- The command has run and left `s2`: it stands as started in its queue, ready to retire; `lines` leave the view then. -/
def engineDone (s2 : State) (k m : Nat) (g : Engine) (x : Cmd) (lines : List Nat) : State :=
  { updCmd s2 k m g x.e.seq (fun y => { y with st := .started, lines := lines }) with waited := false }

/-- The command has faulted: its queue has stopped at it and its scoreboard entry is free (R251, R349). -/
def engineFaulted (s2 : State) (k m : Nat) (g : Engine) (x : Cmd) (cause : Cause) (addr : Nat) (mask : LaneMask) : State :=
  { updCmd (freeBoard s2 k m x.e.seq) k m g x.e.seq (fun y => { y with st := .faulted (engineTrap x.e cause addr mask) })
    with waited := false }

/-- Every range is aligned and lies in its buffer (R259). -/
abbrev RangesFit (s : State) (c : Ctx) (m : Nat) (l : List (Buf × Nat × Nat)) : Prop :=
  ∀ x ∈ l, x.2.1 % 4 = 0 ∧ (placeOf s c m x.1 x.2.1 x.2.2).isSome = true

/-- A matrix command can run (R188, R208, R285, R310): the bank is not being given up, no scoreboard entry meets what it reads, the
lendable ranges it meets are its own, no word it reads is poisoned; `s2` is the state after those accesses, the bank used (R191). -/
abbrev MatrixClear (s : State) (c : Ctx) (m : Nat) (mb : Member) (i : Instr) (s2 : State) : Prop :=
  c.revoked = false ∧ ((matrixRanges i).1.any fun r => r.sp != .buf .cb && !offBoard mb r) = false ∧
    ∃ s0, touchRanges c m (matrixBufs i) s = .ready s0 ∧ enginePoison s0 c m (matrixReads i) = none ∧ s2 = useBank s0 c.id m

/-- The first command of a queue that has run comes to its end (R243, R347): it leaves the queue and the scoreboard, its destination
lines leave the view, latch 1 is set. -/
abbrev Retires (s : State) (k m : Nat) (g : Engine) (y : Cmd) (c : Ctx) (s1 : State) : Prop :=
  s.ctxOf k = some c ∧ c.switch = .inside ∧ ∃ mb, c.member m = some mb ∧ (mb.queue g).find? (fun x => x.st == .started) = some y ∧
    s1 = s.putCtx ({ c.putMember m ((mb.setQueue g ((mb.queue g).erase y)).retired y) with latches := c.latches ||| 2 } : Ctx)

/-! ## Markers and global accesses -/

/-- The entry of a marker that the generator's instruction `i` places now, with its slot (R63, R100, R290). -/
def markerEntry (c : Ctx) (i : Instr) (m : Marker) : Entry :=
  { seq := 0, esn := 0, item := .marker m, pc := c.pc, key := c.key, gslot := (encode i).headD 0 }

/-- `c1` is `c` with the marker placed: in a handler at the end of the handler channel (R337), else in the stream, or in the
staging behind queued replays while it has room (R58, R71; the place in the staging is log 71). -/
abbrev Placed (c : Ctx) (i : Instr) (m : Marker) (c1 : Ctx) : Prop :=
  (c.handler = true ∧ c1 = { c with channel := c.channel ++ [(markerEntry c i m, [])] }) ∨
    (c.handler = false ∧ c.intake = [] ∧ c.roomFor 0 1 = true ∧ c1 = c.push (markerEntry c i m)) ∨
    (c.handler = false ∧ c.intake ≠ [] ∧
      (c.intake.filter fun i => match i with
        | .entry _ => true
        | .replay _ => false).length < Config.stagingDepth ∧ c1 = { c with intake := c.intake ++ [.entry (markerEntry c i m)] })

/-- `c1` is `c` with the entry accepted by the stream unit (R58, R71): in the stream buffers when nothing waits before it and they
have room, else in the staging while that has room. -/
abbrev Accepted (c : Ctx) (e : Entry) (c1 : Ctx) : Prop :=
  (c.intake = [] ∧ c.canPush e = true ∧ c1 = c.push e) ∨
    (c.intake ≠ [] ∧ (c.intake.filter fun i => match i with
      | .entry _ => true
      | .replay _ => false).length < Config.stagingDepth ∧ c1 = { c with intake := c.intake ++ [.entry e] })

/-- `a` is the marker whose turn it is in the context `c` in slot `k` of the device, and the Monochrome order lets it go (R63, R290,
R337). -/
abbrev MarkerTurn (s : State) (k : Nat) (c : Ctx) (a : MarkerAt) : Prop :=
  s.ctxOf k = some c ∧ c.turnMarker = some a ∧ monoBlocked s c a.key = false

/-- A generator access can be made (R64, R290, R368): the ordering markers have taken effect, the address is canonical and
aligned, its page permits the access, the words read are clean, and no line that it reads is on its way from a port to its home; it is
not one of a switch handler to the engine dump (R316). -/
abbrev GenAccess (s : State) (c : Ctx) (addr n : Nat) (k : Access) (mb : Member) (ls : List GLoc) : Prop :=
  c.orderPending = false ∧ monoBlocked s c c.key = false ∧ canonical addr = true ∧ addr % n = 0 ∧
    (∃ x ∈ (translate s c.domain addr (!c.priv) k).toOption, ls = (List.range n).map x.1.next) ∧ c.member 0 = some mb ∧
    poisonedFor k s c mb ls = none ∧
    (k = .load → portBusy s ls = false) ∧ c.dumpOffset addr n = none

/-- A generator access of a switch handler to the engine dump, `off` bytes into it (R316; where the dump stands is log 14). -/
abbrev DumpAccess (s : State) (c : Ctx) (addr n off : Nat) : Prop :=
  c.orderPending = false ∧ monoBlocked s c c.key = false ∧ canonical addr = true ∧ addr % n = 0 ∧
    c.dumpOffset addr n = some off

/-- The leaf permits the access of a context (R199). -/
abbrev Permits (x : Xlat) (user : Bool) (k : Access) : Prop :=
  (user = true → x.u = true) ∧ match k with
    | .load => x.r = true
    | .store => x.w = true ∧ x.x = false
    | .atomic => x.r = true ∧ x.w = true ∧ x.x = false
    | .fetch | .patch => x.x = true

/-- The lanes' units can be accessed (R202-R204, R211, R216, R290): no lane has a cause, or the slot stalled before and its checks stand;
no scoreboard entry stands in the way, no line that is read is on its way from a port to its home, the Monochrome order lets the row
go. -/
abbrev UnitsClear (s : State) (t : RowSlot) (k : Access) (store : Bool) (rule : Nat → UnitRule) (addrs : List (Nat × Nat))
    (extra : List LaneUnit → Nat → List Cause) (mb : Member) (us : List LaneUnit) : Prop :=
  t.c.member t.r.member = some mb ∧
    (t.kept = some us ∨ (t.kept = none ∧ us = addrs.map (fun x => (laneUnit s t.c.domain (!t.insp) k rule x.1 x.2).2) ∧
      (∀ x ∈ addrs, (laneUnit s t.c.domain (!t.insp) k rule x.1 x.2).1 = []) ∧ ∀ u ∈ us, extra us u.lane = [])) ∧
    t.underWay = none ∧ (boardStall mb store (us.map fun u => ⟨.global, u.va, u.locs.length⟩)).isNone = true ∧
    (store = false → portBusy s (us.flatMap fun u => u.locs) = false) ∧
    (if t.insp then monoBlocked s t.c t.e.key else monoRowBlocked s t.c t.r t.e) = false

/-- The lanes' offsets can be accessed (R206, R211): each is aligned and lies in the allocation, and no scoreboard entry stands
in the way. -/
abbrev OffsetsClear (s : State) (t : RowSlot) (b : Buf) (store : Bool) (offs : List (Nat × Nat)) (mb : Member) : Prop :=
  t.c.member t.r.member = some mb ∧ (∀ x ∈ offs, offsetBad s t.c t.r.member b x.2 = false) ∧
    (boardStall mb store (offs.map fun x => ⟨.buf b, x.2, 4⟩)).isNone = true

/-! ## Lane faults (R216, R297, R298, R310) -/

/-- What a lane fault with record `tr` of the slot in hand leaves, which executed nothing: the row stops and the gang halts (R298), or in a
handler the dispatch ends (R305). A fault of a slot behind one that has faulted already gives way to that one; the fault of a slot with a
window may be noted before it stops the row (R85). -/
abbrev LaneFaulted (s : State) (t : RowSlot) (i : Instr) (tr : Trap) (s' : State) : Prop :=
  let stops := fun (seq : Nat) (tr : Trap) =>
    (t.c.handler = false → s' = { s.putCtx { t.c with
      rows := t.c.rows.map fun r =>
        if r.live && r.item == t.r.item then { r with stop := some (seq, tr), late := none, held := none, halted := t.c.halting && r.halted }
        else { r with halted := t.c.halting && r.halted },
      halting := true } with waited := false }) ∧
    (t.c.handler = true → Killed s t.c tr 0x20 s')
  match t.r.late with
  | some (seq, t0, _) => if t.insp = true then stops t.e.seq tr else stops seq t0
  | none =>
    if s.hand.late = true ∧ laOf i ≠ 0 ∧ t.insp = false ∧ t.c.handler = false ∧ t.c.halting = false then
      s' = { s.putCtx (t.c.putRow { t.r with late := some (t.e.seq, tr, esnAdd t.e.esn (laOf i).toNat), lateMask := some t.r.maskNow,
                                             held := none }) with waited := false }
    else stops t.e.seq tr

/-- The record of a lane fault of the slot in hand (R295). -/
def laneRecord (t : RowSlot) (cause : Cause) (addr : DWord) (mask : LaneMask) : Trap :=
  { cause := cause, dom := .l, rpl := t.e.rpl, esn := t.e.esn, addr := addr, mask := mask, pc := if t.e.rpl.isSome then 0 else t.e.pc }

/-- Executing the slot in hand is this lane fault. -/
abbrev LaneFaults (s : State) (t : RowSlot) (i : Instr) (cause : Cause) (addr : DWord) (mask : LaneMask) : Prop :=
  ∃ s', exec i s = .next s' ∧ LaneFaulted s t i (laneRecord t cause addr mask) s'

/-- Of the checks of the lanes (lane, address, causes) `cause` is the one to report: the first in the order of R216 that some lane has;
`a` is the address of the lowest such lane, `mask` are all of them. -/
abbrev Reports (l : List (Nat × Nat × List Cause)) (cause : Cause) (a : Nat) (mask : LaneMask) : Prop :=
  let order : List Cause := [.noncanon, .bufv, .nomap, .ptebad, .align, .perm, .fmtf]
  (∃ x ∈ l, cause ∈ x.2.2 ∧ a = x.2.1 ∧ ∀ y ∈ l, cause ∈ y.2.2 → x.1 ≤ y.1) ∧
    (∀ k, k < 64 → (mask.getLsbD k = true ↔ ∃ y ∈ l, y.1 = k ∧ cause ∈ y.2.2)) ∧
    cause ∈ order ∧ ∀ c ∈ order, order.idxOf c < order.idxOf cause → ∀ y ∈ l, c ∉ y.2.2

/-- The lanes `mask` read a poisoned word of one of the sources; `reg` is the register of the first such source of the lowest lane. -/
abbrev ReadsPoison (part : LaneMask) (srcs : List Source) (mask : LaneMask) (reg : Nat) : Prop :=
  (∀ k, k < 64 → (mask.getLsbD k = true ↔ part.getLsbD k = true ∧ ∃ x ∈ srcs, x.bad.getLsbD k = true)) ∧
    ∃ l, l < 64 ∧ mask.getLsbD l = true ∧ (∀ k, k < l → mask.getLsbD k = false) ∧
      (srcs.find? fun x => x.bad.getLsbD l).map (fun x => x.reg) = some reg

/-! ## Device steps -/

/-- The record at the head of control queue `q` is `bs`, it is readable, its completion record can be written, it is aligned,
its unnamed bytes are zero, and it may stand on this queue (R276, R277). -/
abbrev ControlRecord (s : State) (q : Nat) (dq : DevQueue) (bs : List Byte) (host : Bool) (used : List (Nat × Nat)) : Prop :=
  headSlot s q = some dq ∧ s.phase = .running ∧ dq.consumer = .control ∧ (q = 0 → s.ctlClosing = false) ∧
    (s.shoots.any fun x => x.queue == q) = false ∧
    readRecord s dq.domain (dq.slotAddr dq.head) 128 = some bs ∧ (ctlLocs (takeHead s dq) dq.domain (fld bs 8 8)).isSome = true ∧
    (host = true → dq.domain = none) ∧ fld bs 8 8 % 64 = 0 ∧ restZero bs ([(0, 2), (8, 8)] ++ used) = true

/-- The record has been carried out in `s2` with a result: its completion record is written, its slot released (R277). -/
def controlDone (s2 : State) (dq : DevQueue) (bs : List Byte) (q v : Nat) : State :=
  { ctlComplete s2 dq.domain (fld bs 8 8) q dq.head 0 v with waited := false }

end Sys2Proof.Safety
end

