-- ==== Sys2Proof/Certificates/Slice0/Obligations.lean ====
section
/-!
DEFINITION. The statements for the provers.  Each says in its comment which rule of the manual it formalises; what it takes from
the assumption log, it names.
-/
open Sys2Proof Sys2Proof.Machine Sys2Proof.Safety

/-! ## Encoding and steps -/

/-- R105, R107, R116, R120, R122, R133-R142: the decoder reads back every well-formed instruction from its slots. -/
def Obligations.EncodeDecodeAgree : Prop :=
  ∀ i : Instr, i.wellFormed = true → encode i ≠ [] → decodeBytes ((encode i).flatMap slotBytes) = .ok i

/-- Every step keeps device memory in its canonical form. The canonical form is the model's own representation of memory (log 1). -/
def Obligations.StepKeepsCanonicalMemory : Prop :=
  ∀ s t : State, Safety.State.Inv s → step s = .next t → Safety.State.Inv t

/-- Reset has it. Reset memory lists nothing (log 1). -/
def Obligations.ResetHasCanonicalMemory : Prop := Safety.State.Inv State.reset

/-- Encodings printed in the manual's instruction reference decode to the instructions printed beside them. -/
def Obligations.PrintedEncodingsDecode : Prop :=
  (decodeBytes (slotBytes 0x00000008828C0000) = .ok (.gsub .next 4 5 (.reg 6)) ∧
    decodeBytes (slotBytes 0x0000002124810009) = .ok (.gdiv .next 9 9 (.imm 9)) ∧
    decodeBytes (slotBytes 0x00000070620A0002) = .ok (.gsel .next 3 4 5 2) ∧
    decodeBytes (slotBytes 0x00000200850D0008) = .ok (.gld .next .w true 4 10 8)) ∧
  (decodeBytes (slotBytes 0x80F5050607000001) =
      .ok (.vadd ⟨15, false, .i16, 5, 6, 7, 0, .none, .none, 0, .rne, 1⟩) ∧
    decodeBytes (slotBytes 0xA1F008303F800000) = .ok (.vsubImm ⟨15, false, .f32, 2, 3, .imm 0x3F800000⟩) ∧
    decodeBytes (slotBytes 0xE010040400000004) =
      .ok (.plog ⟨1, false, .f32, 4, 4, 0, 0, .none, .none, 0, .rne, 4⟩) ∧
    decodeBytes (slotBytes 0xAF23440200000000) = .ok (.vli ⟨2, false, .i32, 17, 0, .hole 0⟩))

/-- R54, R59, R282, R287: what a turn executes. A generator's turn, once the generators before it wait, fetches the slot at its PC and
executes what it decodes to: a generator instruction itself, a lane slot by its emission; a stall leaves the state as it was. A row's turn,
once the rows before it wait, executes the slot that the row takes next (a fault that it was still to find stops it first), an engine's
turn the first of the commands that may act and does not wait, or the one that it names, or one line of that one's source, a hold turn
the first of the member's MWAITs and CWAITs that is over, a device step itself. The model's choice: which turn comes is the input of the
agenda (log 2); which commands of an engine may act is log 21; one turn fetches and executes, and a stall discards the fetch (log 53); a
turn that waits is no move (log 54). -/
def Obligations.StepRunsDecodedInstruction : Prop :=
  (∀ (s : State) (k : Nat) (rest : List Input) (c : Ctx) (mb : Member) (bs : List Byte) (i : Instr),
    s.agenda = .turn (.gen k) :: rest →
    let s0 : State := { s with agenda := rest }
    s0.ctxOf k = some c → c.genMoves = true → c.gen = .running → c.ir = none → c.member 0 = some mb →
    (∀ d ∈ gensBefore s0 c, idle (genTurn s0 d.id) = true) →
    fetchInstr (s0.inHand k 0 0 none) c (dieOf mb.cluster) c.pc = .ok bs → decodeBytes bs = .ok i →
    step s = match exec (genAction k i) (fetched s0 k c (bs.length / 8) i) with
      | .next t => .next (if t.waited then { s0 with waited := true } else ranGen k t)
      | o => o) ∧
  ((∀ (s : State) (k item : Nat) (t : Turn) (part : Option Nat) (late : Bool) (rest : List Input) (c : Ctx) (r : Row) (e : Entry)
      (i : Instr), rowTurnOf k item t part late → s.agenda = .turn t :: rest →
    let s0 : State := { s with agenda := rest }
    s0.ctxOf k = some c → c.rowOf item = some r →
    ((late = true ∨ r.late = none) → rowEntry c r = some e → e.item = .slot i → (i.lform.isSome || i.liform.isSome) = true →
      (∀ p ∈ rowsBefore s0 c r, idle (rowTurn s0 p.1 p.2 none true) = true) →
      step s = counted (exec i ((s0.inHand k r.member item (some e)).inPart part late)) (issuedRow k r.member (c.blockOf r))) ∧
    (∀ seq tr x, late = false → r.late = some (seq, tr, x) → step s = .next { stopRow s0 c item seq tr with waited := false })) ∧
  ((∀ (s : State) (k m : Nat) (g : Engine) (rest : List Input) (c : Ctx) (mb : Member) (pre post : List Cmd) (x : Cmd) (i : Instr),
      s.agenda = .turn (.engine k m g) :: rest →
      let s0 : State := { s with agenda := rest }
      s0.ctxOf k = some c → c.member m = some mb → turnCmds mb g false = pre ++ x :: post →
      (∀ p ∈ pre, idle (cmdTurn s0 k m none p) = true) → x.e.item = .slot i →
      let t := (s0.inHand k m 0 (some x.e)).inPart none false
      idle (exec i t) = false → step s = exec i t) ∧
    ∀ (s : State) (k m : Nat) (g : Engine) (seq : Nat) (line : Option Nat) (rest : List Input) (c : Ctx) (mb : Member) (x : Cmd)
      (i : Instr), s.agenda = .turn (.command k m g seq line) :: rest →
      let s0 : State := { s with agenda := rest }
      s0.ctxOf k = some c → c.member m = some mb → (turnCmds mb g line.isSome).find? (fun y => y.e.seq == seq) = some x →
      x.e.item = .slot i → step s = exec i ((s0.inHand k m 0 (some x.e)).inPart line false)) ∧
  (∀ (s : State) (k m : Nat) (rest : List Input) (c : Ctx) (mb : Member) (pre post : List Entry) (h : Entry) (i : Instr),
    s.agenda = .turn (.hold k m) :: rest →
    let s0 : State := { s with agenda := rest }
    s0.ctxOf k = some c → c.member m = some mb → mb.holds = pre ++ h :: post → (∀ p ∈ pre, idle (holdTurn s0 k m p) = true) →
    h.item = .slot i → idle (exec i (s0.inHand k m 0 (some h))) = false → step s = exec i (s0.inHand k m 0 (some h))) ∧
  (∀ (s : State) (i : Instr) (rest : List Input), s.agenda = .turn (.step i) :: rest → encode i = [] →
    (∀ k m, i ≠ .engineHandover k m) → step s = exec i { s with agenda := rest }))

/-- R134: a slot whose OP is unassigned does not decode; its fetch raises ILLEGAL, precise to the slot, and has no other effect; a
fetch that itself faults reports that fault instead. -/
def Obligations.UnassignedSlotRaisesIllegal : Prop :=
  (∀ w : DWord, w.getLsbD 63 = false →
    (let op := (w.extractLsb' 35 8).toNat
     ¬(op ≤ 0x13 ∨ (0x40 ≤ op ∧ op ≤ 0x42) ∨ (0x60 ≤ op ∧ op ≤ 0x69) ∨ (0x80 ≤ op ∧ op ≤ 0x8F))) →
    decodeBytes (slotBytes w) = .error .illegal) ∧
  (∀ (s : State) (k : Nat) (c : Ctx) (mb : Member), s.ctxOf k = some c → c.genMoves = true → c.ir = none → c.gen = .running →
    c.member 0 = some mb → CanTrap c →
    (∀ bs e, fetchInstr s c (dieOf mb.cluster) c.pc = .ok bs → decodeBytes bs = .error e → (e = .illegal ∨ e = .truncated) →
      ∃ t, exec (.generatorFetch k) s = .next t ∧ Trapped s c (genTrap c .illegal 0) t) ∧
    (∀ cause a, fetchInstr s c (dieOf mb.cluster) c.pc = .error (cause, a) →
      ∃ t, exec (.generatorFetch k) s = .next t ∧ Trapped s c (genTrap c cause a) t))

/-! ## Generator instructions: results -/

/-- R362: the layout of the fourteen two-source instructions; they write g`d` with the value of the table; `y` is the register's value or the
sign-extended immediate. -/
def Obligations.TwoSourceResults : Prop :=
  (∀ (q : Seq) (d a : GReg) (b : GSrc), ∀ x ∈ ([(0x00, .gadd q d a b), (0x01, .gsub q d a b), (0x02, .gmul q d a b),
      (0x03, .gmulh q d a b), (0x04, .gdiv q d a b), (0x05, .grem q d a b), (0x06, .gand q d a b), (0x07, .gor q d a b),
      (0x08, .gxor q d a b), (0x09, .gshl q d a b), (0x0A, .gshr q d a b), (0x0B, .gsra q d a b), (0x0C, .gmin q d a b),
      (0x0D, .gmax q d a b)] : List (BitVec 8 × Instr)),
    ∃ w, encode x.2 = [w] ∧ match b with
      | .reg r => FormG w x.1 d a r false 0
      | .imm v => FormG w x.1 d a 0 true v) ∧
  ∀ (s : State) (c : Ctx) (q : Seq) (d a : GReg) (b : GSrc), GenReady s c ([a] ++ srcRegs b) → SeqOk c q →
    let x := c.greg a
    let y := match b with
      | .reg r => c.greg r
      | .imm v => v.signExtend 64
    let n := (y.extractLsb' 0 6).toNat
    let min64 : DWord := 0x8000000000000000
    exec (.gadd q d a b) s = .next (genDone s c q d (x + y)) ∧
    exec (.gsub q d a b) s = .next (genDone s c q d (x - y)) ∧
    exec (.gmul q d a b) s = .next (genDone s c q d (x * y)) ∧
    exec (.gmulh q d a b) s = .next (genDone s c q d (BitVec.ofInt 64 (x.toInt * y.toInt / 2 ^ 64))) ∧
    exec (.gdiv q d a b) s = .next (genDone s c q d (if y = 0 then BitVec.allOnes 64
      else if x = min64 ∧ y = BitVec.allOnes 64 then min64 else BitVec.ofInt 64 (x.toInt.tdiv y.toInt))) ∧
    exec (.grem q d a b) s = .next (genDone s c q d (if y = 0 then x
      else if x = min64 ∧ y = BitVec.allOnes 64 then 0 else BitVec.ofInt 64 (x.toInt - y.toInt * x.toInt.tdiv y.toInt))) ∧
    exec (.gand q d a b) s = .next (genDone s c q d (x &&& y)) ∧
    exec (.gor q d a b) s = .next (genDone s c q d (x ||| y)) ∧
    exec (.gxor q d a b) s = .next (genDone s c q d (x ^^^ y)) ∧
    exec (.gshl q d a b) s = .next (genDone s c q d (x <<< n)) ∧
    exec (.gshr q d a b) s = .next (genDone s c q d (x >>> n)) ∧
    exec (.gsra q d a b) s = .next (genDone s c q d (BitVec.ofInt 64 (x.toInt / 2 ^ n))) ∧
    exec (.gmin q d a b) s = .next (genDone s c q d (if x.toInt ≤ y.toInt then x else y)) ∧
    exec (.gmax q d a b) s = .next (genDone s c q d (if y.toInt ≤ x.toInt then x else y))

/-- R363, R365: the layouts and results of GSEL, which selects `ga` always by f7, and of the counts GCLZ and GPOPC; R366: the constants
that GLI and GLIH write. -/
def Obligations.OneSourceResults : Prop :=
  (∀ (q : Seq) (d a b : GReg) (f : BitVec 3), (∃ w, encode (.gsel q d a b f) = [w] ∧ FormG w 0x0E d a b false (f.zeroExtend 16)) ∧
    (∃ w, encode (.gclz q d a) = [w] ∧ FormG w 0x10 d a 0 false 0) ∧ ∃ w, encode (.gpopc q d a) = [w] ∧ FormG w 0x11 d a 0 false 0) ∧
  (encode (.gsel .next 3 4 5 2) = [0x00000070620A0002] ∧ encode (.gclz .next 6 7) = [0x00000080C3800000]) ∧
  (∀ (s : State) (c : Ctx) (q : Seq) (d a b : GReg) (f : BitVec 3), GenReady s c [a, b] → SeqOk c q →
    exec (.gsel q d a b f) s = .next (genDone s c q d (if c.flag f = true then c.greg a else c.greg b)) ∧
      exec (.gsel q d a b 7) s = .next (genDone s c q d (c.greg a))) ∧
  (∀ (s : State) (c : Ctx) (q : Seq) (d a : GReg), GenReady s c [a] → SeqOk c q →
    (∃ n : Nat, exec (.gclz q d a) s = .next (genDone s c q d (BitVec.ofNat 64 n)) ∧ n ≤ 64 ∧
      (∀ k, 64 - n ≤ k → (c.greg a).getLsbD k = false) ∧ (n < 64 → (c.greg a).getLsbD (63 - n) = true)) ∧
    exec (.gpopc q d a) s =
      .next (genDone s c q d (BitVec.ofNat 64 ((List.range 64).countP fun k => (c.greg a).getLsbD k)))) ∧
  (∀ (s : State) (c : Ctx) (q : Seq) (d : GReg) (v : BitVec 29), GenReady s c [d] → SeqOk c q →
    exec (.gli q d v) s = .next (genDone s c q d (v.signExtend 64)) ∧
    exec (.glih q d v) s = .next (genDone s c q d (BitVec.ofNat 64 ((c.greg d).toNat * 2 ^ 29 + v.toNat))))

/-- R364, R373, R384, R253: a flag, a loop counter, a hole, a stream register is written; the flag f7 discards the write. -/
def Obligations.SetterResults : Prop :=
  (∀ (c : Ctx) (v : Bool), c.setFlag 7 v = c ∧ c.flag 7 = true) ∧
  (∀ (s : State) (c : Ctx) (q : Seq) (cc : GCond) (f : BitVec 3) (a : GReg) (b : GSrc), GenReady s c ([a] ++ srcRegs b) →
    SeqOk c q →
    let x := c.greg a
    let y := c.src b
    exec (.gcmp q cc f a b) s = .next (genNext s (c.setFlag f (match cc with
      | .eq => decide (x = y)
      | .ne => decide (x ≠ y)
      | .lt => decide (x.toInt < y.toInt)
      | .le => decide (x.toInt ≤ y.toInt)
      | .ltu => decide (x.toNat < y.toNat)
      | .leu => decide (x.toNat ≤ y.toNat))) q)) ∧
  (∀ (s : State) (c : Ctx) (q : Seq) (n : LoopReg) (b : GSrc), GenReady s c (srcRegs b) → SeqOk c q →
    exec (.gloop q n b) s = .next (genNext s (c.setLoop n ((c.src b).extractLsb' 0 32)) q)) ∧
  (∀ (s : State) (c : Ctx) (q : Seq) (h : BitVec 4) (b : GSrc), GenReady s c (srcRegs b) → SeqOk c q →
    exec (.hset q h b) s = .next (genNext s { c with h := c.h.setIfInBounds h.toNat ((c.src b).extractLsb' 0 32) } q)) ∧
  (∀ (s : State) (c : Ctx) (q : Seq) (f n : BitVec 3), GenReady s c [] → SeqOk c q →
    let r := c.streamReg n.toNat
    exec (.seof q f n) s = .next (genNext s (c.setFlag f (decide (r.isOpen = false ∨ r.len ≤ r.cur))) q) ∧
    exec (.scls q n) s = .next (genNext s (c.setStream n.toNat { r with isOpen := false, len := 0 }) q))

/-- R86, R309: an instruction that computes a value for g`d` writes g`d` and nothing else but what its sequencing writes (the PC,
the return stack, a loop counter); g0 discards the write; every byte of memory, every other context, every other register stays. -/
def Obligations.RegisterWriterFrame : Prop :=
  ∀ (i : Instr) (q : Seq) (d : GReg) (srcs : List GReg) (s : State) (c : Ctx), genWriter i = some (q, d, srcs) →
    GenReady s c srcs → SeqOk c q → q ≠ .exit →
    ∃ t c', exec i s = .next t ∧ OnlyCtx c.id s t ∧ SameMemory s t ∧ t.ctxOf c.id = some c' ∧
      (∀ r, r ≠ d → c'.greg r = c.greg r) ∧ c'.greg 0 = 0 ∧ (∀ p, p ∈ t.poison → p ∈ s.poison) ∧
      (∀ p, p ∈ s.poison → p ≠ .greg c.id d.toNat → p ∈ t.poison) ∧
      c' = { c with g := c'.g, pc := c'.pc, rstack := c'.rstack, lc := c'.lc, ir := none, gen := .running,
                    genCount := c.genCount + 1, twait := none }

/-- R86, R364, R373, R384, R253: an instruction that writes a flag, a loop counter, a hole or a stream register leaves every `g`
register, every other kind of register, every byte of memory and every other context as they were. -/
def Obligations.SetterFrame : Prop :=
  ∀ (i : Instr) (q : Seq) (srcs : List GReg) (s : State) (c : Ctx), genSetter i = some (q, srcs) →
    GenReady s c srcs → SeqOk c q → q ≠ .exit →
    ∃ t c', exec i s = .next t ∧ OnlyCtx c.id s t ∧ t.poison = s.poison ∧ SameMemory s t ∧ t.ctxOf c.id = some c' ∧
      c'.flag 7 = true ∧
      (∀ f, (∀ q cc a b, i ≠ .gcmp q cc f a b) → (∀ q n, i ≠ .seof q f n) → c'.flag f = c.flag f) ∧
      ((∀ q h b, i ≠ .hset q h b) → c'.h = c.h) ∧ ((∀ q n, i ≠ .scls q n) → c'.streams = c.streams) ∧
      c' = { c with f := c'.f, lc := c'.lc, h := c'.h, streams := c'.streams, pc := c'.pc, rstack := c'.rstack, ir := none,
                    gen := .running, genCount := c.genCount + 1, twait := none }

/-- R109: after any instruction's own effect, which left the context as `c`, NextPC sets the PC, the return stack and the loop
counters; a GCMP that branches on the flag it writes, and a GLOOP that ends its loop, are read after their writes. -/
def Obligations.NextPcAfterEffect : Prop :=
  (∀ (s : State) (c0 c : Ctx) (q : Seq), s.ctxOf c.id = some c0 → SeqOk c q →
    ∃ c', (genNext s c q).ctxOf c.id = some c' ∧ NextPc c q c') ∧
  (∀ (s : State) (c : Ctx) (q : Seq) (cc : GCond) (f : BitVec 3) (a : GReg) (b : GSrc), GenReady s c ([a] ++ srcRegs b) →
    SeqOk c q →
    ∃ t c', exec (.gcmp q cc f a b) s = .next t ∧ t.ctxOf c.id = some c' ∧
      NextPc (c.setFlag f (gcond cc (c.greg a) (c.src b))) q c') ∧
  (∀ (s : State) (c : Ctx) (q : Seq) (n : LoopReg) (b : GSrc), GenReady s c (srcRegs b) → SeqOk c q →
    ∃ t c', exec (.gloop q n b) s = .next t ∧ t.ctxOf c.id = some c' ∧
      NextPc (c.setLoop n ((c.src b).extractLsb' 0 32)) q c')

/-- R111: a CALL with 16 return addresses raises RSOVF, a RET with none RSUND; the effect, the stack and the PC stay. R113, R272: EXIT
stops the generator after the instruction's own effect; the slots taken from queues are released, memory stays. R70: a name still
capturing is empty after any EXIT. -/
def Obligations.ReturnStackFaultsAndExit : Prop :=
  (∀ (i : Instr) (q : Seq) (d : GReg) (srcs : List GReg) (s : State) (c : Ctx), genWriter i = some (q, d, srcs) →
    GenReady s c srcs → CanTrap c →
    ((∃ off, q = .call off) → c.rstack.length = 16 → ∃ t, exec i s = .next t ∧ Trapped s c (genTrap c .rsovf 0) t) ∧
    (q = .ret → c.rstack = [] → ∃ t, exec i s = .next t ∧ Trapped s c (genTrap c .rsund 0) t)) ∧
  (∀ (i : Instr) (d : GReg) (srcs : List GReg) (s : State) (c : Ctx), genWriter i = some (.exit, d, srcs) → GenReady s c srcs →
    ∃ t c', exec i s = .next t ∧ t.waited = false ∧ SameMemory s t ∧ t.ctxOf c.id = some c' ∧ c'.gen = .stopped ∧ c'.pc = c.pc ∧
      (∀ r, r ≠ d → c'.greg r = c.greg r) ∧ c'.stretches = c.stretches.filter (fun x => x.defined) ∧ c'.taken = [] ∧
      (∀ x ∈ c.taken, ∀ z, t.queueOf x.1 = some z → x.2 ∉ z.unreleased)) ∧
  (∀ (s : State) (c0 c : Ctx), s.ctxOf c.id = some c0 →
    ∃ c', (genNext s c .exit).ctxOf c.id = some c' ∧ c'.capturing = none ∧ (c.capturing = none → c'.stretches = c.stretches) ∧
      ∀ x, c.capturing = some x → (∀ y ∈ c.stretches, y.name = x.name → y = x) → c'.stretch x.name = none)

/-- R374: what GJMPR's slot may hold; it goes to the slot in g`a`; `.link` pushes the return address, or raises RSOVF. -/
def Obligations.RegisterJump : Prop :=
  (∀ w : DWord, w.getLsbD 63 = false → w.extractLsb' 35 8 = 0x61 →
    decodeBytes (slotBytes w) = if w.extractLsb' 43 20 = 0 ∧ w.extractLsb' 29 6 = 0 ∧ w.extractLsb' 18 5 = 0 ∧ w.extractLsb' 0 17 = 0
      then .ok (.gjmpr (w.getLsbD 17) (w.extractLsb' 23 6)) else .error .illegal) ∧
  encode (.gjmpr true 12) = [0x0000030806020000] ∧
  ∀ (s : State) (c : Ctx) (link : Bool) (a : GReg), GenReady s c [a] →
    ((link = true → c.rstack.length < 16) →
      ∃ t c', exec (.gjmpr link a) s = .next t ∧ OnlyCtx c.id s t ∧ SameMemory s t ∧ t.ctxOf c.id = some c' ∧
        c' = { c with pc := c.greg a, rstack := if link then c.rstack ++ [c.pc + 1] else c.rstack, ir := none, gen := .running,
                      genCount := c.genCount + 1 }) ∧
    (link = true → c.rstack.length = 16 → CanTrap c →
      ∃ t, exec (.gjmpr link a) s = .next t ∧ Trapped s c (genTrap c .rsovf 0) t)

/-- R310: a generator instruction that would read a poisoned register raises MCHK with the register's space and number in TADDR, and has no
other effect: every one that reads registers, the emission of a slot that a marked field takes from one, and CDEF after its first
checks. -/
def Obligations.PoisonedRegisterRaisesMachineCheck : Prop :=
  (∀ (i : Instr) (r : GReg) (s : State) (c : Ctx), s.ctxOf s.hand.ctx = some c → CanTrap c →
    (genSources i).find? (fun x => s.gPoisoned c.id x) = some r →
    ∃ t, exec i s = .next t ∧ Trapped s c (genTrap c .mchk (BitVec.ofNat 64 (4 * 2 ^ 60 + r.toNat))) t) ∧
  (∀ (s : State) (k : Nat) (c : Ctx) (i : Instr) (r : GReg), s.ctxOf k = some c → CanTrap c → c.genMoves = true → c.gen = .running →
    c.ir = some i → (i.lform.isSome || i.liform.isSome || i.eform.isSome) = true → emissionCause c i = none →
    (markedRegs i).find? (fun x => s.gPoisoned c.id x) = some r →
    ∃ t, exec (.emission k) s = .next t ∧ Trapped s c (genTrap c .mchk (BitVec.ofNat 64 (4 * 2 ^ 60 + r.toNat))) t) ∧
  (∀ (s : State) (c : Ctx) (q : Seq) (mem : Bool) (x : BitVec 8) (a : GReg), s.ctxOf s.hand.ctx = some c → CanTrap c →
    x.toNat ∈ c.carried → s.gPoisoned c.id a = true →
    ∃ t, exec (.cdef q mem x a) s = .next t ∧ Trapped s c (genTrap c .mchk (BitVec.ofNat 64 (4 * 2 ^ 60 + a.toNat))) t)

/-! ## System registers -/

/-- R92, R351: CSRR writes g`d` with the register's value (under Monochrome mode a read of a counter first waits until every emitted
slot has been completed); CSRW writes RMAX, BETA and TVEC, clears DENSE when bit 0 is set and never sets it, writes CK1 and CK2
unless the new value is zero, and leaves every other register as it was; a number that is not assigned raises CSRBAD with the
number, a SUPER register that USER mode names raises PRIVF. The count behind RETIRED follows log 46. -/
def Obligations.SystemRegisters : Prop :=
  (∀ (s : State) (c : Ctx) (q : Seq) (d : GReg) (n : BitVec 12), GenReady s c [] → SeqOk c q → csrAssigned n.toNat = true →
    (csrSuper n.toNat = true → c.priv = true) → (c.mono = true → 0x10 ≤ n.toNat → n.toNat ≤ 0x12 → c.drained = true) →
    exec (.csrr q d n) s = .next (genDone s c q d (csrValue s c n.toNat))) ∧
  (∀ (s : State) (c : Ctx),
    let retired := BitVec.ofNat 64 (c.genCount + c.passedEsns 0)
    csrValue s c 0x000 = 0 ∧ csrValue s c 0x001 = BitVec.ofNat 64 c.rowCount ∧ csrValue s c 0x002 = 64 ∧ csrValue s c 0x003 = 64 ∧
      csrValue s c 0x004 = 128 ∧ csrValue s c 0x005 = c.ck1.zeroExtend 64 ∧ csrValue s c 0x006 = c.ck2.zeroExtend 64 ∧
      csrValue s c 0x007 = c.kbase ∧ csrValue s c 0x008 = c.rodata ∧ csrValue s c 0x010 = (if c.mono then retired else c.cycle) ∧
      csrValue s c 0x011 = (if c.mono then retired else s.realtime) ∧ csrValue s c 0x012 = retired ∧
      (∀ k, (csrValue s c 0x020).getLsbD k = ((k == 0 && c.dense) || (k == 8 && s.fenced.any) || (k == 9 && c.mm1) || (k == 10 && c.ash) ||
        (k == 11 && c.handler))) ∧
      csrValue s c 0x021 = (if c.priv then 1 else 0) ∧ csrValue s c 0x022 = (if c.mono then 1 else 0) ∧
      csrValue s c 0x030 = c.rmax.zeroExtend 64 ∧ csrValue s c 0x031 = c.beta.zeroExtend 64 ∧ csrValue s c 0x040 = c.tvec ∧
      csrValue s c 0x041 = c.tcause ∧ csrValue s c 0x042 = c.tesn ∧ csrValue s c 0x043 = c.taddr ∧ csrValue s c 0x044 = c.tmask ∧
      csrValue s c 0x045 = c.tpc ∧
      ∀ n : Fin 16, csrValue s c (0x100 + n) = match (c.queues[n]).bind s.queueOf with
        | some q => BitVec.ofNat 64 q.head
        | none => 0) ∧
  (∀ (s : State) (c : Ctx) (q : Seq) (a : GReg) (n : BitVec 12), GenReady s c [a] → SeqOk c q → csrAssigned n.toNat = true →
    (csrSuper n.toNat = true → c.priv = true) →
    ∃ c1, exec (.csrw q a n) s = .next (genNext s c1 q) ∧
      c1 = { c with rmax := if n = 0x030 then (c.greg a).extractLsb' 0 16 else c.rmax,
                    beta := if n = 0x031 then (c.greg a).extractLsb' 0 16 else c.beta,
                    tvec := if n = 0x040 then c.greg a else c.tvec,
                    dense := if n = 0x020 ∧ (c.greg a).getLsbD 0 = true then false else c.dense,
                    ck1 := if n = 0x005 ∧ (c.greg a).extractLsb' 0 16 ≠ 0 then (c.greg a).extractLsb' 0 16 else c.ck1,
                    ck2 := if n = 0x006 ∧ (c.greg a).extractLsb' 0 16 ≠ 0 then (c.greg a).extractLsb' 0 16 else c.ck2 }) ∧
  (∀ (s : State) (c : Ctx) (q : Seq) (a : GReg) (n : BitVec 12), GenReady s c [a] → CanTrap c →
    (csrAssigned n.toNat = false →
      (∃ t, exec (.csrr q a n) s = .next t ∧ Trapped s c (genTrap c .csrbad (n.zeroExtend 64)) t) ∧
      (∃ t, exec (.csrw q a n) s = .next t ∧ Trapped s c (genTrap c .csrbad (n.zeroExtend 64)) t)) ∧
    (0x040 ≤ n.toNat → n.toNat ≤ 0x045 → c.priv = false →
      (∃ t, exec (.csrr q a n) s = .next t ∧ Trapped s c (genTrap c .privf 0) t) ∧
      (∃ t, exec (.csrw q a n) s = .next t ∧ Trapped s c (genTrap c .privf 0) t)))

/-! ## Memory instructions of the generator -/

/-- R367, R368: GLD writes g`d` with the bytes at the address, read through the view, zero- or sign-extended. R223: a byte is that
of the store buffer, else that of the view, else that at home, whose line then enters the view; a snapshot of the line that was taken ahead
stands for the home value (log 62); that the oldest line of a full view leaves it is the model's choice (log 56). R316: the handler of a switch reads the engine dump so; where the dump stands is the model's choice (log 14). -/
def Obligations.GeneratorLoad : Prop :=
  ∀ (s : State) (c : Ctx) (q : Seq) (sz : Size) (sx : Bool) (d a : GReg) (v : BitVec 16), GenReady s c [a] → SeqOk c q →
    let addr := (c.greg a + v.signExtend 64).toNat
    let value := fun (bs : List Byte) => match sz, sx with
      | .b, false => (BitVec.ofNat 8 (leNat bs)).zeroExtend 64
      | .h, false => (BitVec.ofNat 16 (leNat bs)).zeroExtend 64
      | .w, false => (BitVec.ofNat 32 (leNat bs)).zeroExtend 64
      | .d, _ => BitVec.ofNat 64 (leNat bs)
      | .b, true => (BitVec.ofNat 8 (leNat bs)).signExtend 64
      | .h, true => (BitVec.ofNat 16 (leNat bs)).signExtend 64
      | .w, true => (BitVec.ofNat 32 (leNat bs)).signExtend 64
    (∀ mb ls, GenAccess s c addr (sizeBytes sz) .load mb ls →
      let r := loadBytes s.mem mb ls
      exec (.gld q sz sx d a v) s = .next (genDone s (c.putMember 0 r.2) q d (value r.1))) ∧
    (∀ off, DumpAccess s c addr (sizeBytes sz) off →
      exec (.gld q sz sx d a v) s = .next (genDone s c q d (value (((dumpBytes c.dump).drop off).take (sizeBytes sz))))) ∧
    (∀ (m : List Host.Cell) (mb : Member) (l : GLoc) (n : Nat), l.pa % 128 + n ≤ 128 →
      let home := l.on (dieOf mb.cluster)
      let line := home - home % 128
      let buffered := fun k => (mb.psb.find? fun p => p.loc == l.line).bind fun p => p.data.getD (l.pa % 128 + k) none
      let seen := mb.view.find? fun w => w.pa == line
      let ahead := mb.early.find? fun w => w.pa == line
      let r := loadBytes m mb ((List.range n).map l.next)
      r.1 = (List.range n).map (fun k => match buffered k, seen, ahead with
        | some b, _, _ => b
        | none, some w, _ => w.data.getD (l.pa % 128 + k) 0
        | none, none, some w => w.data.getD (l.pa % 128 + k) 0
        | none, none, none => Memory.read m (home + k)) ∧
      r.2 = if n = 0 ∨ seen.isSome = true then mb else { mb with
        view := (if 1024 ≤ mb.view.length then mb.view.drop 1 else mb.view) ++ [⟨line, match ahead with
          | some w => w.data
          | none => (List.range 128).map fun k => Memory.read m (line + k)⟩]
        early := mb.early.filter fun w => w.pa != line })

/-- R367, R368, R242: GST merges the low bytes of g`d` into the leader's buffer, lowest byte first; a load of the member reads the stored
bytes from then on (R223). Under MM1 the bytes are performed at once at every copy, every other byte stays but for those that a port had
accepted, and the buffer and the view are empty after it; a port of which no link is left performs nothing (log 84). With a line stand the virtual lines of the store (log 27). R316: the handler of a
switch writes the engine dump so; where the dump stands is the model's choice (log 14). -/
def Obligations.GeneratorStore : Prop :=
  ∀ (s : State) (c : Ctx) (q : Seq) (sz : Size) (d a : GReg) (v : BitVec 16), GenReady s c [a, d] → SeqOk c q →
    let addr := (c.greg a + v.signExtend 64).toNat
    let bytes := (List.range (sizeBytes sz)).map fun k => (c.greg d).extractLsb' (8 * k) 8
    (∀ mb ls, GenAccess s c addr (sizeBytes sz) .store mb ls →
      let r := storeBytes s c mb (ls.zip bytes) { vas := vaLines c.domain addr ls }
      exec (.gst q sz d a v) s = .next (genNext r.1 (c.putMember 0 r.2) q)) ∧
    (∀ off, DumpAccess s c addr (sizeBytes sz) off →
      exec (.gst q sz d a v) s = .next (genNext s { c with dump := writeDump c.dump off bytes } q)) ∧
    (∀ (mb : Member) (l : GLoc) (bs : List Byte) (tag : StoreTag), c.mm1 = false → l.pa % 128 + bs.length ≤ 128 →
      (∀ p ∈ mb.psb, p.data.length = 128) →
      let ls := (List.range bs.length).map l.next
      let r := storeBytes s c mb (ls.zip bs) tag
      (loadBytes r.1.mem r.2 ls).1 = bs) ∧
    (∀ (mb : Member) (l : GLoc) (bs : List Byte) (tag : StoreTag), c.mm1 = true → bs ≠ [] → tag.lost = [] → mb.psb = [] →
      l.pa % 128 + bs.length ≤ 128 → s.fenced.linked l.region = true → Safety.State.Inv s →
      (∀ a ∈ s.accepted, ∀ y ∈ a.bytes, ∀ k < bs.length, ∀ x ∈ (l.next k).copies, x ∉ y.1.copies) →
      let r := storeBytes s c mb (((List.range bs.length).map l.next).zip bs) tag
      r.2 = { mb with psb := [], view := [], early := [] } ∧
      (∀ k < bs.length, ∀ x ∈ (l.next k).copies, Memory.read r.1.mem x = bs.getD k 0) ∧
      ∀ x, (∀ k < bs.length, x ∉ (l.next k).copies) → (∀ a ∈ s.accepted, ∀ y ∈ a.bytes, x ∉ y.1.copies) →
        Memory.read r.1.mem x = Memory.read s.mem x) ∧
    (∀ (mb : Member) (tag : StoreTag), storeBytes s c mb [] tag = (s, mb)) ∧
    (∀ (dom va : Nat) (ls : List GLoc) (x : GLoc × Nat × Nat), x ∈ vaLines dom va ls ↔
      ∃ k l, ls[k]? = some l ∧ x = (l.line, dom, (va + k) % 2 ^ 64 / 128 * 128))

/-- R221, R222, R227, R242, R367: GST leaves every register but the PC, every other context, of the members all but the leader's buffer and
view, and every byte of memory but those it stores, those that the leader's buffer already held and those that a port had accepted, as
they were; what a port accepts are lines of the leader's buffer. -/
def Obligations.GeneratorStoreFrame : Prop :=
  ∀ (s : State) (c : Ctx) (q : Seq) (sz : Size) (d a : GReg) (v : BitVec 16) (mb : Member) (ls : List GLoc),
    GenReady s c [a, d] → SeqOk c q → q ≠ .exit → GenAccess s c (c.greg a + v.signExtend 64).toNat (sizeBytes sz) .store mb ls →
    ∃ t c' mb', exec (.gst q sz d a v) s = .next t ∧ t.ctxOf c.id = some c' ∧ c'.member 0 = some mb' ∧
      c' = { c with members := c'.members, pc := c'.pc, rstack := c'.rstack, lc := c'.lc, ir := none, gen := .running,
                    genCount := c.genCount + 1, twait := none } ∧
      (∀ m, m ≠ 0 → c'.member m = c.member m) ∧ mb' = { mb with psb := mb'.psb, view := mb'.view, early := mb'.early } ∧
      t = { s with ctxs := t.ctxs, mem := t.mem, poison := t.poison, accepted := t.accepted, waited := false } ∧
      (∀ j, j ≠ c.id → t.ctxOf j = s.ctxOf j) ∧
      (∀ x ∈ t.accepted, x ∈ s.accepted ∨ ∃ p ∈ mb.psb, x = ⟨c.id, p.loc.region, p.bytes, none, p.vas⟩) ∧
      ∀ x, (∀ l ∈ ls, x ∉ l.copies) → (∀ p ∈ mb.psb, ∀ y ∈ p.bytes, x ∉ y.1.copies) →
        (∀ p ∈ s.accepted, ∀ y ∈ p.bytes, x ∉ y.1.copies) → Memory.read t.mem x = Memory.read s.mem x

/-- R370, R371: GAMO returns the old value and performs the new one at home; a failing `.cas` performs nothing. R316: the handler of a
switch performs it on the engine dump so; where the dump stands is the model's choice (log 14). -/
def Obligations.GeneratorAtomic : Prop :=
  ∀ (s : State) (c : Ctx) (q : Seq) (op : AtomicOp) (d a b : GReg), GenReady s c ([a, b] ++ if op = .cas then [d] else []) → SeqOk c q →
    let y := c.greg b
    let new := fun (old : DWord) => match op with
      | .add => old + y
      | .min => if old.toInt ≤ y.toInt then old else y
      | .max => if y.toInt ≤ old.toInt then old else y
      | .and => old &&& y
      | .or => old ||| y
      | .xor => old ^^^ y
      | .exch | .cas => y
    let bytes := fun (old : DWord) => (List.range 8).map fun k => (new old).extractLsb' (8 * k) 8
    let fails := fun (old : DWord) => op = .cas ∧ old ≠ c.greg d
    (∀ mb l ls, GenAccess s c (c.greg a).toNat 8 .atomic mb (l :: ls) →
      let r := atomicLine c.id s mb l
      let old := BitVec.ofNat 64 (leNat (homeRead r.1.mem 0 (l :: ls)))
      let s1 := if fails old then r.1 else r.1.perform ((l :: ls).zip (bytes old))
      exec (.gamo q op d a b) s = .next (genDone s1 (c.putMember 0 r.2) q d old)) ∧
    (∀ off, DumpAccess s c (c.greg a).toNat 8 off →
      let old := BitVec.ofNat 64 (leNat (((dumpBytes c.dump).drop off).take 8))
      exec (.gamo q op d a b) s =
        .next (genDone s (if fails old then c else { c with dump := writeDump c.dump off (bytes old) }) q d old))

/-- R193, R198, R199, R310, R368, R371: the checks of an address come in their order and are precise: a non-canonical address raises
NONCANON, a misaligned one ALIGN, one that nothing maps NOMAP, a bad entry PTEBAD, a page that does not permit the access PERM, a
poisoned word MCHK, with the address in TADDR. A load finds it at home, also when the view holds the line (log 40), but for the bytes that
the context's own buffer overlays; an atomic on die 0 once what it drains has been performed, which a rewritten word survives. An unpopulated
address within a page follows log 15, a copy or a root table in a fenced stack log 61. -/
def Obligations.AddressChecks : Prop :=
  (∀ (s : State) (c : Ctx) (q : Seq) (d a b : GReg) (sz : Size) (sx : Bool) (v : BitVec 16) (op : AtomicOp) (n : BitVec 3), CanTrap c →
    c.orderPending = false → monoBlocked s c c.key = false → GenReady s c [a, b, d] →
    ∀ x ∈ [(Instr.gld q sz sx d a v, c.greg a + v.signExtend 64, sizeBytes sz, Access.load),
           (.gst q sz d a v, c.greg a + v.signExtend 64, sizeBytes sz, .store), (.gamo q op d a b, c.greg a, 8, .atomic),
           (.sopen q n a, c.greg a, 8, .load)],
      let traps := fun cause addr => ∃ t, exec x.1 s = .next t ∧ Trapped s c (genTrap c cause addr) t
      let addr := x.2.1
      (canonical addr.toNat = false → traps .noncanon addr) ∧
      (canonical addr.toNat = true → addr.toNat % x.2.2.1 ≠ 0 → traps .align addr) ∧
      (canonical addr.toNat = true → addr.toNat % x.2.2.1 = 0 → c.dumpOffset addr.toNat x.2.2.1 = none →
        (∀ e, lookup s c.domain addr.toNat = .error e → traps e.cause addr) ∧
        (∀ y, lookup s c.domain addr.toNat = .ok y →
          ((y.loc addr.toNat).mappable s.fenced = false → traps .ptebad addr) ∧
          ((y.loc addr.toNat).mappable s.fenced = true → ¬Permits y (!c.priv) x.2.2.2 → traps .perm addr) ∧
          ((y.loc addr.toNat).mappable s.fenced = true → Permits y (!c.priv) x.2.2.2 → x.2.2.2 ≠ .store →
            ∀ mb i, c.member 0 = some mb →
              let ls := (List.range x.2.2.1).map (y.loc addr.toNat).next
              (x.2.2.2 = .load → portBusy s ls = false) →
              poisonedFor x.2.2.2 s c mb ls = some i →
              traps .mchk (poisonAddr 5 (addr.toNat + i)))))) ∧
  (∀ (s : State) (c : Ctx) (mb : Member) (l : GLoc) (n : Nat), l.pa % 128 + n ≤ 128 →
    let ls := (List.range n).map l.next
    let buffered := fun k => (mb.psb.find? fun p => p.loc == l.line).bind fun p => p.data.getD (l.pa % 128 + k) none
    poisonedFor .load s c mb ls = ((List.range n).find? fun k =>
      (buffered k).isNone && s.memPoisoned ((l.next k).on (dieOf mb.cluster))) ∧
    poisonedFor .store s c mb ls = none ∧
    ((∀ p ∈ mb.psb, p.loc ≠ l.line) →
      poisonedFor .atomic s c mb ls = (List.range n).find? fun k =>
        (if l.region = 0 then s else flushPorts s).memPoisoned ((l.next k).on 0)) ∧
    ∀ p ∈ mb.psb, p.loc = l.line → p.lost = [] → l.pa % 4 = 0 → n % 4 = 0 →
      (∀ k < n, (p.data.getD (l.pa % 128 + k) none).isSome = true) → s.fenced.linked l.region = true →
      poisonedFor .atomic s c mb ls = none) ∧
  (∀ (s : State) (d va root : Nat), canonical va = true → (s.tlb.find? fun x => covers d (BitVec.ofNat 64 va) x) = none → va < 2 ^ 64 →
    (s.domains.find? fun x => x.1 == d) = some (d, root) →
    let e := BitVec.ofNat 64 (Memory.word s.mem (root + 8 * (va / 2 ^ 48 % 512)) 8)
    (paExists s.fenced root = false → lookup s d va = .error .ptebad) ∧
    (paExists s.fenced root = true → e.getLsbD 0 = false → lookup s d va = .error .nomap) ∧
    (paExists s.fenced root = true → e.getLsbD 0 = true → (e.getLsbD 1 = true ∨ e.extractLsb' 2 10 ≠ 0 ∨ e.extractLsb' 56 8 ≠ 0) →
      lookup s d va = .error .ptebad))

/-- R252, R401: SOPEN reads two words through the view and opens the stream at its first element; a reserved bit raises STRBAD. That a
base need not be aligned to its elements is the model's choice (log 68), and so is that its 57 bits are written as they stand (log 42). -/
def Obligations.StreamOpen : Prop :=
  ∀ (s : State) (c : Ctx) (q : Seq) (n : BitVec 3) (a : GReg) (mb mb2 : Member) (ls0 ls1 : List GLoc), GenReady s c [a] →
    SeqOk c q → GenAccess s c (c.greg a).toNat 8 .load mb ls0 →
    let r0 := loadBytes s.mem mb ls0
    let c0 := c.putMember 0 r0.2
    GenAccess s c0 (c.greg a + 8).toNat 8 .load mb2 ls1 →
    let r1 := loadBytes s.mem mb2 ls1
    let base := leNat r0.1
    let w := leNat r1.1
    (base < 2 ^ 57 → w < 2 ^ 33 →
      exec (.sopen q n a) s = .next (genNext s ((c0.putMember 0 r1.2).setStream n.toNat
        { base := base, len := w % 2 ^ 32, val := decide (2 ^ 32 ≤ w), isOpen := true, cur := 0 }) q)) ∧
    (¬(base < 2 ^ 57 ∧ w < 2 ^ 33) → CanTrap c →
      ∃ t, exec (.sopen q n a) s = .next t ∧ Trapped s c (genTrap c .strbad (n.zeroExtend 64)) t)

/-! ## Waits and traps of the generator -/

/-- R283, R376, R405: GWFE completes when its mask is zero or a latch of the mask is set, and clears the latches named; TWAIT completes
once no TSET is pending and the granule is in the state on every member, or has been since it sleeps here; until then the generator
sleeps. -/
def Obligations.SleepingInstructions : Prop :=
  (∀ (s : State) (c : Ctx) (q : Seq) (b : GSrc), GenReady s c (srcRegs b) → SeqOk c q →
    let m : BitVec 3 := (c.src b).extractLsb' 0 3
    ((m = 0 ∨ c.latches &&& m ≠ 0) → exec (.gwfe q b) s = .next (genNext s { c with latches := c.latches &&& ~~~m } q)) ∧
    (m ≠ 0 → c.latches &&& m = 0 → c.gen ≠ .sleepEvent m →
      exec (.gwfe q b) s = .next { s.putCtx { c with gen := .sleepEvent m } with waited := false }) ∧
    (m ≠ 0 → c.latches &&& m = 0 → c.gen = .sleepEvent m → exec (.gwfe q b) s = .next { s with waited := true })) ∧
  (∀ (s s1 : State) (c c1 : Ctx) (q : Seq) (b : FeBuf) (full : Bool) (a : GReg), GenReady s c [a] → c.handler = false →
    granuleOk s c (feBuf b) (c.greg a).toNat = true → c.tsetPending = false →
    touchMembers c (feBuf b) (c.greg a).toNat (List.range c.members.length) s = .ready s1 → GenReady s1 c1 [a] →
    SeqOk c1 q →
    let held := (List.range c.members.length).all fun m => granuleBit s1 c m (feBuf b) (c.greg a).toNat == full
    let seen := c.twait.any fun w => w.met
    ((held = true ∨ seen = true) → exec (.twait q b full a) s = .next (genNext s1 c1 q)) ∧
    (held = false → seen = false → (c.gen ≠ .sleepGranule ∨ s1 ≠ s) → c1.id = c.id →
      exec (.twait q b full a) s = .next { s1.putCtx { c1 with
        gen := .sleepGranule, twait := some (c1.twait.getD ⟨feBuf b, (c.greg a).toNat, full, false⟩) } with waited := false }) ∧
    (held = false → seen = false → c.gen = .sleepGranule → s1 = s → exec (.twait q b full a) s = .next { s with waited := true }))

/-- R378, R295, R301: GTRAP completes its sequencing and takes trap 0x16 with its immediate in TADDR and the successor in TPC. -/
def Obligations.SoftwareTrap : Prop :=
  ∀ (s : State) (c : Ctx) (q : Seq) (v : BitVec 16), s.ctxOf s.hand.ctx = some c → SeqOk c q → q ≠ .exit → CanTrap c →
    let c1 := { c with ir := none, gen := .running, genCount := c.genCount + 1, twait := none }.nextPc q
    ∃ t, exec (.gtrap q v) s = .next t ∧
      Trapped (s.putCtx c1) c1 { cause := .gtrap, dom := .g, addr := v.zeroExtend 64, pc := c1.pc } t ∧ Cause.gtrap.code = 0x16

/-- R187, R303, R314, R317, R337, R345, R379, R380: in a handler whose trap is a generator or emission fault, GRTE.retry returns to the
slot that raised it, GRTE.skip to the slot after it (an event resumes at its PC, also for a skip; a machine check of a CDEF.mem marker
resumes at TPC, with the marker gone for a skip); after a lane or engine trap the generator goes on where it stood, no row is stopped and
each keeps its registers and its position, but a skip passes the reported row's slot; a retry queues the faulted command again, a skip
drops it. After the handler of PREEMPT the context is switched out, after that of RESTORE it goes on. The handler's `g`, `f`, `h` and
`lc` stay. GRTE in USER mode raises PRIVF, in SUPER mode outside a handler HSTATE; it waits for the handler channel. That GRTE waits for
the handler channel follows log 35. -/
def Obligations.HandlerReturn : Prop :=
  (∀ (s : State) (c : Ctx) (h : Handling) (skip : Bool) (i : Instr), (i, skip) ∈ [(Instr.grteRetry, false), (.grteSkip, true)] →
    Returning s c h →
    ((h.trap.dom = .g ∨ h.trap.dom = .e) → (c.rows.all fun r => !r.live || r.stop.isNone) = true →
      (c.switch = .inside → h.marker = false → ∃ t c', exec i s = .next t ∧
        Returned s c (if skip && !h.trap.cause.isEvent then h.trap.pc + BitVec.ofNat 64 h.skipLen else h.trap.pc) h.afterExit t c') ∧
      (∀ e, c.switch = .inside → h.marker = true → c.stream.find? Entry.isMarker = some e →
        ∃ t c', exec i s = .next t ∧ Returned s c h.trap.pc h.afterExit t c' ∧ (e ∈ c'.stream ↔ skip = false)) ∧
      (c.switch = .preempting → h.trap.cause = .preempt → h.marker = false → h.afterExit = false → ∃ t c', exec i s = .next t ∧
        t.waited = false ∧ t.ctxOf c.id = some c' ∧ c'.switch = .out ∧ c'.image.isSome = true ∧ c'.handler = false ∧ c'.priv = false ∧
        c'.pc = h.trap.pc ∧ c'.g = c.g ∧ c'.tvec = c.tvec) ∧
      (c.switch = .restoring → h.trap.cause = .restore → h.marker = false → h.afterExit = false → c.dump = [] → c.deadline = none →
        ∃ t c', exec i s = .next t ∧ Returned s c h.trap.pc false t c' ∧ c'.switch = .inside ∧ c'.latches = c.latches ||| 3)) ∧
    ((h.trap.dom = .l ∨ h.trap.dom = .x) → h.marker = false → c.switch = .inside →
      ∃ t c', exec i s = .next t ∧ Returned s c h.resume h.afterExit t c' ∧ (∀ r ∈ c'.rows, r.stop = none) ∧
        (∀ k, (c'.rowOf k).map rowKept = (c.rowOf k).map rowKept) ∧
        (skip = false → ∀ k, (c'.rowOf k).map (fun r => r.issue) = (c.rowOf k).map fun r => r.issue) ∧
        (∀ item r e j, skip = true → h.trap.dom = .l → h.row = some item → c.rowOf item = some r → r.live = true → r.late = none →
          c.nextEntry r = some e → e.item = .slot j → ∃ r', c'.rowOf item = some r' ∧ r'.issue = e.seq + 1) ∧
        (∀ m g mb, h.trap.dom = .x → h.eng = some (m, g) → c.member m = some mb → ∃ mb', c'.member m = some mb' ∧ ∀ g,
          (skip = false → ∀ x ∈ mb.queue g, x.e.esn = h.trap.esn → x.failed = true → x.fresh ∈ mb'.queue g) ∧
          (skip = true → ∀ x ∈ mb'.queue g, ¬(x.failed = true ∧ x.e.esn = h.trap.esn))))) ∧
  (∀ (s : State) (c : Ctx) (i : Instr), (i = .grteRetry ∨ i = .grteSkip ∨ i = .grteDiscard) → s.ctxOf s.hand.ctx = some c →
    (c.priv = false → CanTrap c → ∃ t, exec i s = .next t ∧ Trapped s c (genTrap c .privf 0) t) ∧
    (c.priv = true → CanTrap c → ∃ t, exec i s = .next t ∧ Trapped s c (genTrap c .hstate 0) t) ∧
    (c.priv = true → c.handler = true → c.channel ≠ [] → exec i s = .next { s with waited := true }))

/-- R304: GRTE.discard ends the dispatch with STATUS 3 and the code of the trap as its reason; the generator stops and every row
retires; of every engine queue the commands that have started stay, with their scoreboard entries, and run to their end, the others are
dropped; a capture under way leaves its name empty, and the slots that the context held are released. What a discard leaves of the votes
follows log 38. -/
def Obligations.HandlerDiscard : Prop :=
  ∀ (s : State) (c : Ctx), s.ctxOf s.hand.ctx = some c → c.priv = true → c.handler = true → c.channel = [] →
    ∃ t c', exec .grteDiscard s = .next t ∧ t.waited = false ∧ t.ctxOf c.id = some c' ∧
      c'.ended = some ⟨3, c.tcause.extractLsb' 0 8, c.tcause, c.tesn⟩ ∧ c'.gen = .stopped ∧ c'.handler = false ∧ c'.priv = false ∧
      c'.stream = [] ∧ c'.intake = [] ∧ (∀ r ∈ c'.rows, r.live = false) ∧ (∀ v ∈ c'.vq, v.result.isSome = true) ∧
      c'.taken = [] ∧ c'.stretches = c.stretches.filter (fun x => x.defined) ∧
      ∀ m mb, c.member m = some mb → ∃ mb', c'.member m = some mb' ∧ mb'.holds = [] ∧
        (∀ g, mb'.queue g = (mb.queue g).filter fun x => x.st == .started) ∧
        ∀ b, b ∈ mb'.board ↔ b ∈ mb.board ∧ ∃ g, ∃ x ∈ mb.queue g, x.st = .started ∧ x.e.seq = b.seq

/-- R301, R305: a fault in a handler is a double fault: the dispatch ends with STATUS 2 and reason 0x20, the record is that of the new
fault; without a trap vector any fault ends it with reason 0x23. So ends every generator instruction that reads a poisoned register, a
GJMPR.link with a full return stack, a GTRAP, a slot that does not decode, every emission fault, and the fault for which a gang halts;
a lane fault in a handler is in LaneFaultsStopTheRow. -/
def Obligations.FaultsThatKill : Prop :=
  (∀ (s : State) (c : Ctx), s.ctxOf c.id = some c → MustDie c →
    (∀ cause a, ∃ t, genFault s c cause a = .next t ∧ Killed s c (genTrap c cause a) (deathReason c) t) ∧
    (∀ len cause a, ∃ t, emitFault s c len cause a = .next t ∧ Killed s c (emitTrap c cause a) (deathReason c) t) ∧
    (s.hand.ctx = c.id →
      (∀ i r, (genSources i).find? (fun x => s.gPoisoned c.id x) = some r →
        ∃ t, exec i s = .next t ∧ Killed s c (genTrap c .mchk (poisonAddr 4 r.toNat)) (deathReason c) t) ∧
      (∀ a, s.gPoisoned c.id a = false → c.rstack.length = 16 →
        ∃ t, exec (.gjmpr true a) s = .next t ∧ Killed s c (genTrap c .rsovf 0) (deathReason c) t) ∧
      (∀ q v, SeqOk c q → q ≠ .exit →
        let c1 := { c with ir := none, gen := .running, genCount := c.genCount + 1, twait := none }.nextPc q
        ∃ t, exec (.gtrap q v) s = .next t ∧
          Killed (s.putCtx c1) c1 { cause := .gtrap, dom := .g, addr := v.zeroExtend 64, pc := c1.pc } (deathReason c) t)) ∧
    (∀ mb bs, c.genMoves = true → c.gen = .running → c.ir = none → c.member 0 = some mb →
      fetchInstr s c (dieOf mb.cluster) c.pc = .ok bs → decodeBytes bs = .error .illegal →
      ∃ t, exec (.generatorFetch c.id) s = .next t ∧ Killed s c (genTrap c .illegal 0) (deathReason c) t) ∧
    (∀ i cause a, c.genMoves = true → c.gen = .running → c.ir = some i → (i.lform.isSome || i.liform.isSome || i.eform.isSome) = true →
      emissionCause c i = some (cause, a) →
      ∃ t, exec (.emission c.id) s = .next t ∧ Killed s c (emitTrap c cause (BitVec.ofNat 64 a)) (deathReason c) t) ∧
    (∀ r n tr, c.halting = true → c.ended = none → c.revoked = false → c.switch = .inside → c.midSlot = false →
      c.stopLate.reported = some (r, n, tr) → ∃ t, exec (.trapEntry c.id) s = .next t ∧ Killed s c tr (deathReason c) t)) ∧
  deathReason { probeCtx with handler := true } = 0x20 ∧ deathReason { probeCtx with handler := false, tvec := 0 } = 0x23

/-! ## Ordering, capture, votes, queues -/

/-- R63, R64, R100, R283, R284, R337, R344, R355, R405: FENCE, PHASE and BAR place their marker and go on; TSET and CDEF do so outside a
handler (in one they raise HSTATE, which is VotesAndStorageCompletions); CDEF of a register takes its value at once, CDEF of memory the locations of its 64 words. A granule
outside the allocation is BUFV, a register that is not carried CARRYR. The place of a marker in the staging is the model's choice
(log 71). -/
def Obligations.MarkersArePlaced : Prop :=
  (∀ (s : State) (c c1 : Ctx) (q : Seq), GenReady s c [] → SeqOk c q →
    ∀ x : Instr × Marker, (∃ sc, x = (.fence q sc, .fence sc)) ∨ x = (.fenceX q, .fenceX) ∨ x = (.phaseAcq q, .phase false true) ∨
      x = (.phaseRel q, .phase true false) ∨ x = (.phaseAcqrel q, .phase true true) ∨ (∃ sc, x = (.bar q sc, .bar sc)) →
    Placed c x.1 x.2 c1 → exec x.1 s = .next (genNext s c1 q)) ∧
  ((∀ (s : State) (c c1 : Ctx) (q : Seq) (b : FeBuf) (full : Bool) (a : GReg), GenReady s c [a] → SeqOk c q → c.handler = false →
    granuleOk s c (feBuf b) (c.greg a).toNat = true → Placed c (.tset q b full a) (.tset b full (c.greg a).toNat) c1 →
    exec (.tset q b full a) s = .next (genNext s c1 q)) ∧
  (∀ (s : State) (c c1 : Ctx) (q : Seq) (x : BitVec 8) (a : GReg), GenReady s c [a] → SeqOk c q → c.handler = false →
    x.toNat ∈ c.carried →
    (Placed c (.cdef q false x a) (.cdef x.toNat false (c.greg a) []) c1 → exec (.cdef q false x a) s = .next (genNext s c1 q)) ∧
    (∀ locs, c.orderPending = false → (c.greg a).toNat % 4 = 0 →
      translateN s c.domain (!c.priv) .load (c.greg a).toNat 256 = .ok locs →
      Placed c (.cdef q true x a) (.cdef x.toNat true (c.greg a) locs) c1 → exec (.cdef q true x a) s = .next (genNext s c1 q)) ∧
    (c.orderPending = false → CanTrap c →
      ((c.greg a).toNat % 4 ≠ 0 → ∃ t, exec (.cdef q true x a) s = .next t ∧ Trapped s c (genTrap c .align (c.greg a)) t) ∧
      (∀ e va, (c.greg a).toNat % 4 = 0 → translateN s c.domain (!c.priv) .load (c.greg a).toNat 256 = .error (e, va) →
        ∃ t, exec (.cdef q true x a) s = .next t ∧ Trapped s c (genTrap c e.cause (BitVec.ofNat 64 va)) t))) ∧
  (∀ (s : State) (c : Ctx) (q : Seq) (b : FeBuf) (full mem : Bool) (x : BitVec 8) (a : GReg), GenReady s c [a] → CanTrap c →
    (granuleOk s c (feBuf b) (c.greg a).toNat = false → ∀ i ∈ [Instr.tset q b full a, .twait q b full a],
      ∃ t, exec i s = .next t ∧ Trapped s c (genTrap c .bufv (c.greg a)) t) ∧
    (x.toNat ∉ c.carried → ∃ t, exec (.cdef q mem x a) s = .next t ∧ Trapped s c (genTrap c .carryr (x.zeroExtend 64)) t)))

/-- R65, R66, R67, R71, R72, R341, R399: CAPB begins a stretch that no slot has entered, CAPE defines it and counts its slots, CAPX
undefines a name; RPLY reserves an ESN for every slot of the stretch and queues the replay with the hole bindings of now. What is out of
order raises CAPSEQ (with 0x100 for CAPE, else the name), a name that is defined CAPDUP, one that is not CAPNONE; a stretch that needs a
register the kernel lacks raises ILLREG, one whose votes find no room VQOVF, both as emission faults. The model's choice: that ILLREG names
the lowest of several registers, and that a stretch of length 0 does not wait for room among the replays (log 42). -/
def Obligations.CaptureAndReplay : Prop :=
  (∀ (s : State) (c : Ctx) (q : Seq), SeqOk c q → c.handler = false →
    (∀ n : BitVec 8, GenReady s c [] → c.capturing = none → c.stretch n = none →
      exec (.capb q n) s = .next (genNext s
        { c with stretches := c.stretches ++ [⟨n, false, false, c.nextContent, []⟩], nextContent := c.nextContent + 1 } q) ∧
      exec (.capbDry q n) s = .next (genNext s
        { c with stretches := c.stretches ++ [⟨n, false, true, c.nextContent, []⟩], nextContent := c.nextContent + 1 } q)) ∧
    (∀ (d : GReg) (x : Stretch), GenReady s c [] → c.capturing = some x →
      exec (.cape q d) s = .next (genDone s
        { c with stretches := mapIf (fun y => y.name == x.name) (fun y => { y with defined := true }) c.stretches } q d
        (BitVec.ofNat 64 x.recs.length))) ∧
    (∀ n : NameSrc, GenReady s c (nameRegs n) → c.capturing = none → (c.stretch (nameOf c n)).isSome = true →
      exec (.capx q n) s = .next (genNext s { c with stretches := c.stretches.filter fun x => x.name != nameOf c n } q))) ∧
  (∀ (s : State) (c : Ctx) (q : Seq) (n : NameSrc) (x : Stretch), GenReady s c (nameRegs n) → SeqOk c q → c.handler = false →
    c.capturing = none → c.stretch (nameOf c n) = some x → (∀ y ∈ x.recs, ∀ r, sadvPair c y.i = some r → r < c.regCount) →
    c.vq.length + (replayVotes c c.nextEsn x.recs).length ≤ 16 →
    (x.recs = [] → exec (.rply q n) s = .next (genNext s c q)) ∧
    (x.recs ≠ [] → c.replays < Config.replayDepth →
      let f := fixSlots c x.recs
      let r : Replay := { name := nameOf c n, content := x.content, recs := x.recs, segment := 0, esn := c.nextEsn, binds := c.h,
                          fixed := f.1, key := c.key }
      exec (.rply q n) s = .next (genNext s
        { f.2 with intake := c.intake ++ [.replay r], vq := c.vq ++ replayVotes c c.nextEsn x.recs,
                   nextEsn := esnAdd c.nextEsn x.recs.length, emitCount := c.emitCount + x.recs.length } q))) ∧
  (∀ (s : State) (c : Ctx) (q : Seq) (m : NameSrc) (d : GReg), GenReady s c (nameRegs m) → CanTrap c →
    let n := nameOf c m
    (∀ i ∈ [Instr.capb q n, .capbDry q n, .capx q m, .rply q m], c.capturing.isSome = true →
      ∃ t, exec i s = .next t ∧ Trapped s c (genTrap c .capseq (n.zeroExtend 64)) t) ∧
    (c.capturing = none → ∃ t, exec (.cape q d) s = .next t ∧ Trapped s c (genTrap c .capseq 0x100) t) ∧
    (∀ i ∈ [Instr.capb q n, .capbDry q n], c.capturing = none → (c.stretch n).isSome = true →
      ∃ t, exec i s = .next t ∧ Trapped s c (genTrap c .capdup (n.zeroExtend 64)) t) ∧
    (∀ i ∈ [Instr.capx q m, .rply q m], c.capturing = none → c.stretch n = none →
      ∃ t, exec i s = .next t ∧ Trapped s c (genTrap c .capnone (n.zeroExtend 64)) t) ∧
    (∀ x, c.capturing = none → c.stretch n = some x →
      (∀ y r, y ∈ x.recs → sadvPair c y.i = some r → c.regCount ≤ r → (∀ z ∈ x.recs, ∀ k, sadvPair c z.i = some k → c.regCount ≤ k → r ≤ k) →
        ∃ t, exec (.rply q m) s = .next t ∧ Trapped s c (emitTrap c .illreg (BitVec.ofNat 64 r)) t) ∧
      ((∀ y ∈ x.recs, ∀ r, sadvPair c y.i = some r → r < c.regCount) → 16 < c.vq.length + (replayVotes c c.nextEsn x.recs).length →
        ∃ t, exec (.rply q m) s = .next t ∧ Trapped s c (emitTrap c .vqovf 0) t)))

/-- R381, R390: GVQ pops the oldest vote once it has resolved (VQEMPTY when there is none); NPOLL reports the oldest storage completion of
a pair of the context's domain once, in the fields of its map, else all ones. R305, R337, R383, R399: in a handler GVQ, QPOP, the instructions of capture and replay,
and TSET, TWAIT and CDEF raise HSTATE, a double fault. -/
def Obligations.VotesAndStorageCompletions : Prop :=
  (∀ (s : State) (c : Ctx) (q : Seq) (d : GReg) (v : VqEntry) (rest : List VqEntry) (r : DWord), GenReady s c [] → SeqOk c q →
    c.handler = false → c.vq = v :: rest → v.result = some r →
    exec (.gvq q d) s = .next (genDone s { c with vq := rest } q d r)) ∧
  (∀ (s : State) (c : Ctx) (q : Seq) (d : GReg), GenReady s c [] → CanTrap c → c.vq = [] →
    ∃ t, exec (.gvq q d) s = .next t ∧ Trapped s c (genTrap c .vqempty 0) t) ∧
  (∀ (s : State) (c : Ctx) (q : Seq) (d a : GReg) (n : NameSrc) (k x : BitVec 8) (z : BitVec 4) (b : FeBuf) (full mem : Bool),
    GenReady s c (a :: nameRegs n) →
    c.handler = true →
    ∀ i ∈ [Instr.gvq q d, .capb q k, .capbDry q k, .cape q d, .capx q n, .rply q n, .tset q b full a, .twait q b full a, .cdef q mem x a,
           .qpop q d z],
      ∃ t, exec i s = .next t ∧ Killed s c (genTrap c .hstate 0) 0x20 t) ∧
  (∀ (s : State) (c : Ctx) (q : Seq) (d a : GReg), GenReady s c [a] → SeqOk c q →
    let p := (c.greg a).toNat % 1024
    ((∀ x ∈ s.pairs, x.num = p → x.domain = c.domain → x.done = []) →
      exec (.npoll q d a) s = .next (genDone s c q d (BitVec.allOnes 64))) ∧
    (∀ x y rest, (s.pairs.find? fun x => x.num == p && x.domain == c.domain) = some x → x.done = y :: rest →
      exec (.npoll q d a) s = .next (genDone
        { s with pairs := mapIf (fun z => z.num == p) (fun z => { z with done := rest }) s.pairs } c q d (pollWord p y)))) ∧
  (∀ (p : Nat) (tag : BitVec 16) (kind : BitVec 2) (x : NvmeStatus), p < 1024 →
    let w := pollWord p (tag, kind, x)
    w.extractLsb' 0 16 = tag ∧ w.extractLsb' 16 8 = x.sc ∧ w.extractLsb' 24 3 = x.sct ∧ w.extractLsb' 27 2 = x.crd ∧
      w.getLsbD 29 = x.more ∧ w.getLsbD 30 = x.dnr ∧ w.getLsbD 31 = false ∧ w.extractLsb' 32 10 = BitVec.ofNat 10 p ∧
      w.extractLsb' 42 2 = kind ∧ w.extractLsb' 44 20 = 0)

/-- R270, R271, R272, R273, R383: QRSV reserves the next slot or answers all ones; QCMT sets a commit bit and serves the sleepers; QPOP
takes the committed slot at HEAD when nobody sleeps before it, else it sleeps at the end of the list. The slot that the context last
took is released either way. A commit sets latch 0 of every context that is bound to the queue (R376); the oldest sleeper takes slot HEAD
once that is committed, with the slot in the register of its QPOP, and HEAD advances; that repeats until HEAD is not committed or nobody sleeps.
R437: a commit and the taking of a slot write the byte of BITMAP that mirrors the commit bits around it; that a page that does not
translate leaves the mirror as it is is the model's choice (log 88). A context queue that is not bound raises QBAD, a commit of a slot that is not reserved, is taken or is
committed QSTATE, a queue of control records in USER mode PRIVF. -/
def Obligations.QueueInstructions : Prop :=
  (∀ (s : State) (c : Ctx) (q : Seq) (n : BitVec 4) (dq : DevQueue), SeqOk c q → queueWaits s c = false →
    boundQueue s c n = some dq → (dq.consumer = .control → c.priv = true) →
    (∀ d : GReg, GenReady s c [] →
      (if dq.ticket < dq.size ∨ dq.ticket - dq.size ∉ dq.unreleased then
        exec (.qrsv q d n) s = .next (genDone
          (s.putQueue { dq with ticket := dq.ticket + 1, unreleased := dq.unreleased ++ [dq.ticket] }) c q d (BitVec.ofNat 64 dq.ticket))
      else exec (.qrsv q d n) s = .next (genDone s c q d (BitVec.allOnes 64)))) ∧
    (∀ (a : GReg) (c1 : Ctx), GenReady s c [a] → (c.greg a).toNat < dq.ticket → dq.head ≤ (c.greg a).toNat →
      (c.greg a).toNat ∉ dq.committed → (commitSlot s dq (c.greg a).toNat).ctxOf c.id = some c1 →
      exec (.qcmt q a n) s = .next (genNext (commitSlot s dq (c.greg a).toNat) c1 q)) ∧
    (∀ a : GReg, GenReady s c [a] → CanTrap c →
      ((c.greg a).toNat ≥ dq.ticket ∨ (c.greg a).toNat < dq.head ∨ (c.greg a).toNat ∈ dq.committed) →
      ∃ t, exec (.qcmt q a n) s = .next t ∧ Trapped s c (genTrap c .qstate (c.greg a)) t)) ∧
  (∀ (s : State) (c : Ctx) (q : Seq) (d a : GReg) (n : BitVec 4), GenReady s c [a] → CanTrap c → queueWaits s c = false →
    (boundQueue s c n = none → ∀ i ∈ [Instr.qrsv q d n, .qcmt q a n, .qpop q d n],
      ∃ t, exec i s = .next t ∧ Trapped s c (genTrap c .qbad (n.zeroExtend 64)) t) ∧
    (∀ dq, boundQueue s c n = some dq →
      (dq.consumer ≠ .context → (∀ x e sq, c.gen ≠ .sleepQueue x e sq) → ∃ t, exec (.qpop q d n) s = .next t ∧ Trapped s c (genTrap c .qbad (n.zeroExtend 64)) t) ∧
      (dq.consumer = .control → c.priv = false → ∀ i ∈ [Instr.qrsv q d n, .qcmt q a n],
        ∃ t, exec i s = .next t ∧ Trapped s c (genTrap c .privf 0) t))) ∧
  (∀ (s : State) (c : Ctx) (q : Seq) (d : GReg) (n : BitVec 4) (dq dq1 : DevQueue), s.ctxOf s.hand.ctx = some c → SeqOk c q →
    c.handler = false → boundQueue s c n = some dq → dq.consumer = .context → queueWaits s c = false →
    (∀ x e sq, c.gen ≠ .sleepQueue x e sq) →
    let r := releaseLast s c dq.num
    r.1.queueOf dq.num = some dq1 →
    (dq1.head ∈ dq1.committed → dq1.sleepers = [] →
      exec (.qpop q d n) s = .next (genNext ((takeHead r.1 dq1).cure fun p => p == .greg c.id d.toNat)
        ((r.2.setG d (BitVec.ofNat 64 dq1.head)).tookSlot dq1 false) q)) ∧
    (¬(dq1.head ∈ dq1.committed ∧ dq1.sleepers = []) →
      exec (.qpop q d n) s = .next { (r.1.putQueue { dq1 with sleepers := dq1.sleepers ++ [c.id] }).putCtx
        { r.2 with gen := .sleepQueue dq1.num d q } with waited := false })) ∧
  (∀ (s : State) (q : DevQueue) (j : Nat) (l : GLoc), Safety.State.Inv s → l.rep = false →
    (match q.domain with
      | none => paMappable s.fenced (q.bitmap + j) = true ∧ l = ⟨q.bitmap + j, false⟩
      | some d => ∃ f, translate s d (q.bitmap + j) false .store = .ok (l, f)) →
    (∀ k, k < 8 → ((Memory.read (mirror s q j).mem l.pa).getLsbD k = true ↔ ∃ x ∈ q.committed, x % q.size = 8 * j + k)) ∧
    ∀ a, a ≠ l.pa → Memory.read (mirror s q j).mem a = Memory.read s.mem a) ∧
  (∀ (s : State) (q : DevQueue) (j : Nat),
    (match q.domain with
      | none => paMappable s.fenced (q.bitmap + j) = false
      | some d => ∃ e, translate s d (q.bitmap + j) false .store = .error e) → mirror s q j = s) ∧
  (∀ (s : State) (dq : DevQueue) (slot : Nat), s.queueOf dq.num = some dq →
    let dq1 := { dq with head := dq.head + 1, committed := dq.committed.filter fun x => x != dq.head }
    takeHead s dq = mirror (s.putQueue dq1) dq1 (dq.head % dq.size / 8) ∧ (takeHead s dq).queueOf dq.num = some dq1 ∧
    (let set := { dq with committed := dq.committed ++ [slot], lastCommit := s.realtime, lastSlot := BitVec.ofNat 64 slot }
     let latched := fun (c : Ctx) => if some dq.num ∈ c.queues.toList then { c with latches := c.latches ||| 1 } else c
     let t := commitSlot s dq slot
     ((dq.sleepers = [] ∨ dq.head ∉ set.committed) → t.queueOf dq.num = some set ∧ (∀ k, t.ctxOf k = (s.ctxOf k).map latched) ∧
       t.mem = (mirror (s.putQueue set) set (slot % dq.size / 8)).mem) ∧
     (∃ q1 served, t.queueOf dq.num = some q1 ∧ dq.sleepers = served ++ q1.sleepers ∧ (q1.sleepers = [] ∨ q1.head ∉ q1.committed)) ∧
     ∀ w rest c x d sq, dq.sleepers = w :: rest → dq.head ∈ set.committed → (rest = [] ∨ dq.head + 1 ∉ set.committed) →
       s.ctxOf w = some c → c.gen = .sleepQueue x d sq → sq ≠ .exit →
       t.queueOf dq.num = some { set with
         head := dq.head + 1, committed := set.committed.filter fun x => x != dq.head, sleepers := rest } ∧
       t.ctxOf w = some ({ ((latched c).setG d (BitVec.ofNat 64 dq.head)).tookSlot set true with
         ir := none, gen := .running, genCount := c.genCount + 1, twait := none }.nextPc sq) ∧
       ∀ k, k ≠ w → t.ctxOf k = (s.ctxOf k).map latched))

/-! ## Lane slots -/

/-- R87, R117, R153, R407, R408, R412, R413, R415, R416, R423, R433: an elementwise instruction writes its operation on the
elements of its sources to v`d` in the participating lanes, raises the flags of those lanes, and changes nothing else: no other register,
no predicate, no other row's registers, nothing of the members but the carries that come in. R148, R150, R154: on integers of every width
the sums, differences, products, minima, maxima, negations and counts are those of the integers, wrapped or clamped; on floating-point
elements the exact sum or product is rounded once, and a NaN gives the default NaN. The values of VEXP2, VLOG2, VSIN, VCOS and VTANH are
the model's choice within the bounds of R160 and R161 (log 20). -/
def Obligations.ElementwiseResults : Prop :=
  (∀ (s : State) (i : Instr) (t : RowSlot) (e : Elementwise) (srcs : List Source), elementwise i = some e → RowTurn s i t →
    Readable s t i (e.ops t) (ownLane (e.ops t).length) srcs → e.d < t.r.regs.length →
    ∃ s', exec i s = .next s' ∧ RowWrote s t i s' (only e.d fun l => (e.word srcs l).1)
      (FpFlags.join ((List.range 64).map fun l => if (t.part i).getLsbD l = true then (e.word srcs l).2 else 0))) ∧
  (∀ (t : ElemTy) (r : Rnd) (a b : Nat), isF t = false → a < 2 ^ elemBits t → b < 2 ^ elemBits t →
    let w := elemBits t
    let z := fun (x : Nat) => if isSigned t = true ∧ 2 ^ (w - 1) ≤ x then (x : Int) - 2 ^ w else x
    let lo : Int := if isSigned t then -2 ^ (w - 1) else 0
    let hi : Int := if isSigned t then 2 ^ (w - 1) - 1 else 2 ^ w - 1
    (∀ x ∈ [(addElem t r, z a + z b), (subElem t r, z a - z b), (mulElem t r, z a * z b)],
      (x.1 false a b).2 = 0 ∧ (x.1 false a b).1 < 2 ^ w ∧ ((x.1 false a b).1 : Int) % 2 ^ w = x.2 % 2 ^ w ∧
        z (x.1 true a b).1 = max lo (min hi x.2) ∧ ((x.1 true a b).2 = 0 ↔ lo ≤ x.2 ∧ x.2 ≤ hi)) ∧
    z (minElem t a b).1 = min (z a) (z b) ∧ z (maxElem t a b).1 = max (z a) (z b) ∧ negElem t a = ((2 ^ w - a) % 2 ^ w, 0) ∧
    absElem t a = (if z a < 0 then (2 ^ w - a) % 2 ^ w else a, 0) ∧ z (sraElem t a b).1 = z a / 2 ^ (b % w) ∧
    (popElem t a).1 = (List.range w).countP (fun k => a.testBit k) ∧ (clzElem t a).1 ≤ w ∧
    (∀ k, w - (clzElem t a).1 ≤ k → a.testBit k = false) ∧ ((clzElem t a).1 < w → a.testBit (w - 1 - (clzElem t a).1) = true)) ∧
  (∀ (f : Fmt) (r : Rnd) (a b : Nat), f ∈ [fmtF32, fmtF16, fmtBF16] →
    ((FVal.decode f a).isNan = true ∨ (FVal.decode f b).isNan = true →
      (fAdd f r a b).1 = f.dnan ∧ (fSub f r a b).1 = f.dnan ∧ (fMul f r a b).1 = f.dnan) ∧
    (∀ n1 m1 e1 n2 m2 e2, FVal.decode f a = .fin n1 m1 e1 → FVal.decode f b = .fin n2 m2 e2 →
      let u := min e1 e2
      let z1 : Int := (if n1 then -1 else 1) * m1 * 2 ^ (e1 - u).toNat
      let z2 : Int := (if n2 then -1 else 1) * m2 * 2 ^ (e2 - u).toNat
      (z1 + z2 ≠ 0 → fAdd f r a b = f.round r (decide (z1 + z2 < 0)) (z1 + z2).natAbs u false) ∧
      (z1 - z2 ≠ 0 → fSub f r a b = f.round r (decide (z1 - z2 < 0)) (z1 - z2).natAbs u false) ∧
      (z1 + z2 = 0 → fAdd f r a b = (if (if m1 = 0 ∧ n1 = n2 then n1 else r == .rd) then f.sign else 0, 0)) ∧
      (m1 ≠ 0 → m2 ≠ 0 → fMul f r a b = f.round r (n1 != n2) (m1 * m2) (e1 + e2) false)))

/-- R117, R413, R415, R416: on signed 32-bit integers the two-source elementwise instructions are the operations of the
two's-complement word, and raise no flag. -/
def Obligations.ThirtyTwoBitIntegerResults : Prop :=
  ∀ (s : State) (t : RowSlot) (f : LForm) (srcs : List Source) (i : Instr) (op : Word → Word → Word),
    f.t = .i32 → f.fn = 0 →
    (i, op) ∈ ([(Instr.vadd f, fun a b => a + b), (Instr.vsub f, fun a b => a - b), (Instr.vmul f, fun a b => a * b),
      (Instr.vand f, fun a b => a &&& b), (Instr.vor f, fun a b => a ||| b), (Instr.vxor f, fun a b => a ^^^ b),
      (Instr.vshl f, fun a b => a <<< (b.toNat % 32)), (Instr.vshr f, fun a b => a >>> (b.toNat % 32)),
      (Instr.vsra f, fun a b => a.sshiftRight (b.toNat % 32)),
      (Instr.vmin f, fun a b => if a.toInt ≤ b.toInt then a else b), (Instr.vmax f, fun a b => if a.toInt ≤ b.toInt then b else a)] :
      List (Instr × (Word → Word → Word))) →
    RowTurn s i t → Readable s t i [vaOp t f.va, vbOp t f.vb] (ownLane 2) srcs → f.vd.toNat < t.r.regs.length →
    ∃ s', exec i s = .next s' ∧ RowWrote s t i s' (only f.vd.toNat fun l => op (srcWord srcs 0 l) (srcWord srcs 1 l)) 0

/-- R146, R417, R424, R428, R431, R436: what moves whole words or elements: VMOV, VSEL, VLI, VIOTA, VSHF, VPERM, VTRN. -/
def Obligations.MoveResults : Prop :=
  encode (.vsel ⟨15, false, .f32, 1, 2, 3, 4, .none, .none, 0, .rne, 0⟩) = [0x8EF0010203040000] ∧
  ∀ (s : State) (t : RowSlot) (srcs : List Source) (f : LForm), f.vd.toNat < t.r.regs.length →
    (RowTurn s (.vmov f) t → Readable s t (.vmov f) [vaOp t f.va] (ownLane 1) srcs →
      ∃ s', exec (.vmov f) s = .next s' ∧ RowWrote s t (.vmov f) s' (only f.vd.toNat (srcWord srcs 0)) 0) ∧
    (RowTurn s (.vsel f) t → Readable s t (.vsel f) [vaOp t f.va, vbOp t f.vb] (ownLane 2) srcs →
      ∃ s', exec (.vsel f) s = .next s' ∧ RowWrote s t (.vsel f) s' (only f.vd.toNat fun l =>
        if (t.r.pred (f.vc.toNat % 16)).getLsbD l = true then srcWord srcs 0 l else srcWord srcs 1 l) 0) ∧
    (∀ (g : LIForm) (v : Word), g.src = .imm v → g.vd.toNat < t.r.regs.length → RowTurn s (.vli g) t →
      ∃ s', exec (.vli g) s = .next s' ∧ RowWrote s t (.vli g) s' (only g.vd.toNat fun _ => v) 0) ∧
    (RowTurn s (.viota f) t →
      ∃ s', exec (.viota f) s = .next s' ∧ RowWrote s t (.viota f) s' (only f.vd.toNat fun l => BitVec.ofNat 32 l) 0) ∧
    (let o := if f.vc.toNat < 128 then f.vc.toNat else 4 * (f.vc.toNat % 16)
     RowTurn s (.vshf f) t →
     Readable s t (.vshf f) [vaOp t f.va]
       (fun _ _ l => if f.fn = 0 ∨ l + o < 64 then [(0, (l + o) % 64)] else []) srcs →
     ∃ s', exec (.vshf f) s = .next s' ∧ RowWrote s t (.vshf f) s' (only f.vd.toNat fun l =>
       if f.fn = 0 ∨ l + o < 64 then srcWord srcs 0 ((l + o) % 64) else 0) 0) ∧
    (RowTurn s (.vperm f) t →
      Readable s t (.vperm f) [vaOp t f.va, vbOp t f.vb] (fun _ q l => [(1, l), (0, (srcWord q 1 l).toNat % 64)]) srcs →
      ∃ s', exec (.vperm f) s = .next s' ∧ RowWrote s t (.vperm f) s' (only f.vd.toNat fun l =>
        srcWord srcs 0 ((srcWord srcs 1 l).toNat % 64)) 0) ∧
    (let p := perWord f.t
     let from' := fun (r e : Nat) => (e % 8, e / 8 * 8 + r)
     RowTurn s (.vtrn f) t → f.vd.toNat + 7 < t.r.regs.length →
     Readable s t (.vtrn f) ((List.range 8).map fun q => ⟨f.va.toNat + q, t.e.kA, false⟩)
       (fun _ _ l => (List.range 8).flatMap fun r => (List.range p).map fun k =>
         ((from' r (l * p + k)).1, (from' r (l * p + k)).2 / p)) srcs →
     ∃ s', exec (.vtrn f) s = .next s' ∧ RowWrote s t (.vtrn f) s' (fun k =>
       if f.vd.toNat ≤ k ∧ k < f.vd.toNat + 8 then some fun l => packElems (elemBits f.t) ((List.range p).map fun j =>
         let x := from' (k - f.vd.toNat) (l * p + j)
         elemAt (elemBits f.t) (srcWord srcs x.1 (x.2 / p)) (x.2 % p))
       else none) 0)

/-- R147, R158, R419, R420, R421: conversions between element types, from the accumulator containers, and the dot product of
bytes, which is exact before it is fitted. R150: the one rounding behind them and all arithmetic: the pattern toward zero holds the value
cut off at its last place, the other modes give that pattern or the next, and NX says that something was cut off. That an integer that
overflows F16 sets OF and NX is the model's reading (log 70). -/
def Obligations.ConversionResults : Prop :=
  (∀ (s : State) (t : RowSlot) (srcs : List Source) (f : LForm), f.vd.toNat < t.r.regs.length →
    (let src := ElemTy.ofCode (f.fn.extractLsb' 0 3)
     let narrow := perWord src < perWord f.t
     let w := fun l => convWord src f.t f.rnd (f.vc.toNat % 128) (srcWord srcs 1 l) (srcWord srcs 0 l)
     RowTurn s (.vcvt f) t →
     Readable s t (.vcvt f) (vaOp t f.va :: if narrow then [plainOp f.vd.toNat] else []) (ownLane (if narrow then 2 else 1)) srcs →
     ∃ s', exec (.vcvt f) s = .next s' ∧ RowWrote s t (.vcvt f) s' (only f.vd.toNat fun l => (w l).1)
       (FpFlags.join ((List.range 64).map fun l => if (t.part (.vcvt f)).getLsbD l = true then (w l).2 else 0))) ∧
    (let w := fun l =>
       let c := (srcWord srcs 0 l).toNat + (srcWord srcs 1 l).toNat % 16 * 2 ^ 32
       if f.fn = 1 then cvtA36F32 f.rnd c else if f.t = .f32 then cvtAccF32 f.rnd c else cvtAccI32 c
     RowTurn s (.vcvtAcc f) t → Readable s t (.vcvtAcc f) [vaOp t f.va, vbOp t f.vb] (ownLane 2) srcs →
     ∃ s', exec (.vcvtAcc f) s = .next s' ∧ RowWrote s t (.vcvtAcc f) s' (only f.vd.toNat fun l => BitVec.ofNat 32 (w l).1)
       (FpFlags.join ((List.range 64).map fun l => if (t.part (.vcvtAcc f)).getLsbD l = true then (w l).2 else 0))) ∧
    (let byte := fun (x : Word) (k : Nat) => x.extractLsb' (8 * k) 8
     let val := fun (x : Word) (k : Nat) => if f.t = .i8 then (byte x k).toInt else ((byte x k).toNat : Int)
     let dot := fun l => ((List.range 4).map fun k => val (srcWord srcs 0 l) k * val (srcWord srcs 1 l) k).sum +
       (srcWord srcs 2 l).toInt
     (f.t = .i8 ∨ f.t = .n8) → RowTurn s (.vdot4 f) t →
     Readable s t (.vdot4 f) [vaOp t f.va, vbOp t f.vb, plainOp f.vc.toNat] (ownLane 3) srcs →
     (f.fn = 0 → ∃ s', exec (.vdot4 f) s = .next s' ∧
       RowWrote s t (.vdot4 f) s' (only f.vd.toNat fun l => BitVec.ofInt 32 (dot l)) 0) ∧
     (f.fn = 1 → ∃ s' fl, exec (.vdot4 f) s = .next s' ∧
       RowWrote s t (.vdot4 f) s' (only f.vd.toNat fun l => BitVec.ofInt 32 (max (-2 ^ 31) (min (2 ^ 31 - 1) (dot l)))) fl ∧
       (fl = 0 ↔ ∀ l, l < 64 → (t.part (.vdot4 f)).getLsbD l = true → -2 ^ 31 ≤ dot l ∧ dot l < 2 ^ 31)))) ∧
  (∀ (f : Fmt) (r : Rnd) (neg : Bool) (m : Nat) (e : Int), f ∈ [fmtF32, fmtF16, fmtBF16] → m ≠ 0 →
    let top : Int := Nat.log2 m + e
    let u := max top (1 - f.bias) - f.fb
    let k := (u - e).toNat
    let q := if u ≤ e then m * 2 ^ (e - u).toNat else m / 2 ^ k
    let rem := if u ≤ e then 0 else m % 2 ^ k
    let up := rem != 0 && match r with
      | .rne => decide (2 ^ k < 2 * rem ∨ (2 * rem = 2 ^ k ∧ q % 2 = 1))
      | .rz => false
      | .ru => !neg
      | .rd => neg
    (top ≤ f.bias → FVal.decode f (f.round .rz neg m e false).1 = .fin neg q u ∧
      (f.round r neg m e false).1 = (f.round .rz neg m e false).1 + (if up then 1 else 0) ∧
      ((f.round r neg m e false).2 &&& FpFlags.nx = 0 ↔ rem = 0)) ∧
    (f.bias < top → f.round r neg m e false =
      ((if neg then f.sign else 0) + (if r = .rne ∨ (r = .ru ∧ neg = false) ∨ (r = .rd ∧ neg = true) then f.inf else f.inf - 1),
        FpFlags.ovf ||| FpFlags.nx)))

/-- R256, R257, R418, R434, R435: the collectives write the reduction in its log-step order, the running combination, the ranked
candidates with their indices and count, the four kept elements of each eight with their positions. What these rest on is said of its
inputs: a reduction combines neighbours at distance 1, 2, 4 up to 32, an absent element leaving the other, a scan goes from lane to lane;
the ranking is a permutation in which no later candidate has a larger key, nor an equal one with a lower index; the key of F32 is the order of
the numbers with both zeros equal and every NaN last; of eight magnitudes the kept four are larger than the others, or equal and earlier. -/
def Obligations.CollectiveResults : Prop :=
  (∀ (op : Nat → Nat → Nat × FpFlags) (l : List (Option Nat × FpFlags)),
    let comb := fun (x y : Option Nat × FpFlags) => match x, y with
      | (none, g), (v, h) => (v, g ||| h)
      | (u, g), (none, h) => (u, g ||| h)
      | (some u, g), (some v, h) => (some (op u v).1, g ||| h ||| (op u v).2)
    (∀ step : Nat → Nat → Option Nat × FpFlags, l.length = 64 → (∀ k, step 0 k = l.getD k (none, 0)) →
      (∀ n k, step (n + 1) k = comb (step n k) (step n (k + 2 ^ n))) → reduceElem op l = step 6 0) ∧
    (∀ acc : Nat → Option Nat × FpFlags, acc 0 = (none, 0) →
      (∀ k x, l[k]? = some x → acc (k + 1) = if x.1.isSome then comb (acc k) x else acc k) →
      scanElems op (none, 0) l = (List.range l.length).map fun k => acc (k + 1))) ∧
  (∀ (t : ElemTy) (r : Rnd) (a b : Nat), redElem t r 0 a b = addElem t r false a b ∧ redElem t r 1 a b = minElem t a b ∧
    redElem t r 2 a b = maxElem t a b ∧ redElem t r 3 a b = (a &&& b, 0) ∧ redElem t r 4 a b = (a ||| b, 0) ∧
    redElem t r 5 a b = (a ^^^ b, 0)) ∧
  (∀ l : List Candidate, (rankAll l).Perm l ∧
    (rankAll l).Pairwise fun x y => y.1 < x.1 ∨ (y.1 = x.1 ∧ x.2.1 ≤ y.2.1)) ∧
  (∀ a b : Word,
    let nan := fun w : Word => (FVal.decode fmtF32 w.toNat).isNan = true
    rankKey .i32 a.toNat = a.toInt ∧ rankKey .n32 a.toNat = a.toNat ∧ rankKey .f32 (0x80000000 : Word).toNat = rankKey .f32 0 ∧
      (nan a → nan b → rankKey .f32 a.toNat = rankKey .f32 b.toNat) ∧ (nan a → ¬nan b → rankKey .f32 a.toNat < rankKey .f32 b.toNat) ∧
      (¬nan a → rankKey .f32 a.toNat = if a.getLsbD 31 then -((a.extractLsb' 0 31).toNat : Int) else (a.extractLsb' 0 31).toNat)) ∧
  (∀ (f : Fmt) (t : ElemTy) (a b : Nat), (f, t) ∈ [(fmtF32, ElemTy.f32), (fmtF16, .f16), (fmtBF16, .bf16)] →
    let nan := fun w => (FVal.decode f w).isNan = true
    (nan a → ¬nan b → magnitude t b < magnitude t a) ∧ (¬nan a → magnitude t a = a % f.sign) ∧
      (∀ n m e n' m' e', FVal.decode f a = .fin n m e → FVal.decode f b = .fin n' m' e' →
        let low := min e e'
        (a % f.sign < b % f.sign ↔ m * 2 ^ (e - low).toNat < m' * 2 ^ (e' - low).toNat)) ∧
      (∀ n m e n', FVal.decode f a = .fin n m e → FVal.decode f b = .inf n' → a % f.sign < b % f.sign)) ∧
  (∀ (a : BitVec 8) (b : BitVec 16) (d : Word), magnitude .i8 a.toNat = a.toInt.natAbs ∧ magnitude .i16 b.toNat = b.toInt.natAbs ∧
    magnitude .i32 d.toNat = d.toInt.natAbs) ∧
  (∀ mags : List Nat,
    let kept := keptPositions mags
    kept.length = 4 ∧ kept.Pairwise (fun i j => i < j) ∧ (∀ i ∈ kept, i < 8) ∧
      ∀ i ∈ kept, ∀ j, j < 8 → j ∉ kept → mags.getD j 0 < mags.getD i 0 ∨ (mags.getD j 0 = mags.getD i 0 ∧ i < j)) ∧
  ∀ (s : State) (t : RowSlot) (srcs : List Source) (f : LForm), f.vd.toNat < t.r.regs.length →
    (let out := (List.range (perWord f.t)).map fun k => reduceElem (redElem f.t f.rnd f.fn.toNat)
       ((List.range 64).map (present (t.part (.vred f)) f.t srcs k))
     RowTurn s (.vred f) t → Readable s t (.vred f) [vaOp t f.va] (fun part _ _ => partDeps part 64) srcs →
     ∃ s', exec (.vred f) s = .next s' ∧ RowWrote s t (.vred f) s'
       (only f.vd.toNat fun _ => packElems (elemBits f.t) (out.map fun x => x.1.getD 0)) (FpFlags.join (out.map fun x => x.2))) ∧
    (let out := (List.range (perWord f.t)).map fun k => scanElems (redElem f.t f.rnd f.fn.toNat) (none, 0)
       ((List.range 64).map (present (t.part (.vscan f)) f.t srcs k))
     RowTurn s (.vscan f) t → Readable s t (.vscan f) [vaOp t f.va] (fun part _ l => partDeps part (l + 1)) srcs →
     ∃ s', exec (.vscan f) s = .next s' ∧ RowWrote s t (.vscan f) s'
       (only f.vd.toNat fun l => packElems (elemBits f.t) (out.map fun x => ((x[l]?).bind fun y => y.1).getD 0))
       (FpFlags.join (out.map fun x => (x.getLastD (none, 0)).2))) ∧
    (let n := f.fn.toNat + 1
     let k := f.vc.toNat
     let m := (k + 63) / 64
     let best := (rankAll ((List.range n).flatMap fun q => (List.range 64).map fun l =>
       (rankKey f.t (srcWord srcs q l).toNat, q * 64 + l, srcWord srcs q l))).take (min k (n * 64))
     RowTurn s (.vtopk f) t → (f.vd.toNat + m ≤ f.vb.toNat ∨ f.vb.toNat + m < f.vd.toNat) →
     f.vd.toNat + m ≤ t.r.regs.length → f.vb.toNat + m < t.r.regs.length →
     Readable s t (.vtopk f) ((List.range n).map fun q => ⟨f.va.toNat + q, t.e.kA, false⟩)
       (fun _ _ l => if l < k then (List.range n).flatMap fun q => (List.range 64).map fun j => (q, j) else []) srcs →
     ∃ s', exec (.vtopk f) s = .next s' ∧ RowWrote s t (.vtopk f) s' (fun r =>
       if f.vd.toNat ≤ r ∧ r < f.vd.toNat + m then
         some fun l => ((best[64 * (r - f.vd.toNat) + l]?).map fun x => x.2.2).getD (topkFill f.t)
       else if f.vb.toNat ≤ r ∧ r < f.vb.toNat + m then
         some fun l => ((best[64 * (r - f.vb.toNat) + l]?).map fun x => BitVec.ofNat 32 x.2.1).getD 0xFFFFFFFF
       else if r = f.vb.toNat + m then some fun _ => BitVec.ofNat 32 (min k (n * 64))
       else none) 0) ∧
    (let p := perWord f.t
     let w := elemBits f.t
     let elem := fun e : Nat => elemAt w (srcWord srcs 0 (e / p)) (e % p)
     let kept := fun g : Nat => keptPositions ((List.range 8).map fun j => magnitude f.t (elem (8 * g + j)))
     let group := fun g : Nat => (List.range 8).map fun j => (0, (8 * g + j) / p)
     RowTurn s (.vcmps f) t → f.vd.toNat + 1 < t.r.regs.length →
     Readable s t (.vcmps f) [vaOp t f.va] (fun _ _ l =>
       (if l < 32 then (List.range p).flatMap fun k => group ((l * p + k) / 4) else []) ++ if l < 8 * p then group l else []) srcs →
     ∃ s', exec (.vcmps f) s = .next s' ∧ RowWrote s t (.vcmps f) s' (fun r =>
       if r = f.vd.toNat then some fun l => if l < 32 then packElems w ((List.range p).map fun k =>
           let e := l * p + k
           elem (8 * (e / 4) + (kept (e / 4)).getD (e % 4) 0))
         else 0
       else if r = f.vd.toNat + 1 then some fun l =>
         if l < 8 * p then BitVec.ofNat 32 (((kept l).zipIdx.map fun x => x.1 * 8 ^ x.2).sum) else 0
       else none) 0)

/-- R258, R396, R417, R422, R429: VPRUNE advances the lane's generator once for each element, of F32, F16 and BF16 alike, and keeps an
element whose magnitude exceeds the drawn fraction of the threshold's, else clears it; VCMP and PLOG write a predicate (p15 discards it);
VOTE contributes to its entry of the vote queue; VEXIT clears active lanes. R157: VCMP compares floating-point values with -0 equal to +0; a
NaN is unordered and sets NV for the ordered comparisons, a signalling one for all. R78, R430: an entry of the vote queue resolves once
every row has completed the slot or has retired, to whether some participating lane had the predicate, whether none lacked it, or how many had it. -/
def Obligations.PruneAndPredicateResults : Prop :=
  (∀ (s : State) (t : RowSlot) (srcs : List Source) (f : LForm), f.vd.toNat < t.r.regs.length → RowTurn s (.vprune f) t →
    Readable s t (.vprune f) [vaOp t f.va, vbOp t f.vb] (ownLane 2) srcs →
    let out := fun l => pruneLane f.t (srcWord srcs 0 l) (srcWord srcs 1 l) (t.r.rng.toList.getD l 0)
    ∃ s' r', exec (.vprune f) s = .next s' ∧ RowAfter s t s' r' ∧ r'.preds = t.r.preds ∧ r'.mask = t.r.mask ∧
      r'.flags = t.r.flags ∧ (∀ k, k ≠ f.vd.toNat → r'.regs[k]? = t.r.regs[k]?) ∧
      ∀ l, l < 64 →
        (r'.reg f.vd.toNat).get l = (if (t.r.writable t.insp (t.part (.vprune f)) f.vd.toNat).getLsbD l = true then (out l).1
          else (t.r.reg f.vd.toNat).get l) ∧
        r'.rng.toList.getD l 0 = if (t.part (.vprune f)).getLsbD l = true then (out l).2 else t.r.rng.toList.getD l 0) ∧
  (∀ (ty : ElemTy) (a b : Word) (st : DWord), ty ∈ [ElemTy.f32, .f16, .bf16] →
    let draw := fun (st : DWord) =>
      let st1 := st ^^^ (st <<< 13)
      let st2 := st1 ^^^ (st1 >>> 7)
      let st3 := st2 ^^^ (st2 <<< 17)
      st3
    let drawn := fun (n : Nat) => (List.range n).foldl (fun z _ => draw z) st
    (pruneLane ty a b st).2 = drawn (perWord ty) ∧
    ∀ k, k < perWord ty →
      let u := (drawn (k + 1) >>> 40).toNat
      let was := elemAt (elemBits ty) a k
      let is := elemAt (elemBits ty) (pruneLane ty a b st).1 k
      let x := FVal.decode ty.fmt was
      let y := FVal.decode ty.fmt (elemAt (elemBits ty) b k)
      (is = was ∨ is = 0) ∧
        (x.isNan = true ∨ y.isNan = true ∨ (∃ m e, y = .fin true m e) ∨ (∃ n e, y = .fin n 0 e) ∨ y = .inf true ∨
          (x.isInf = true ∧ y.isInf = true) → is = was) ∧
        (∀ n m e, x = .fin n m e → y = .inf false → is = 0) ∧
        (∀ k g, x.isInf = true → y = .fin false k g → is = was) ∧
        (∀ n m e k g, x = .fin n m e → y = .fin false k g → k ≠ 0 →
          let low := min e g
          let ax := m * 2 ^ (e - low).toNat
          let ay := k * 2 ^ (g - low).toNat
          is = if u * ay < ax * 2 ^ 24 then was else 0)) ∧
  (∀ (s : State) (t : RowSlot) (srcs : List Source) (f : LForm), RowTurn s (.vcmp f) t →
    Readable s t (.vcmp f) [vaOp t f.va, vbOp t f.vb] (ownLane 2) srcs →
    let at' := fun l => cmpElem f.t f.fn.toNat (srcWord srcs 0 l).toNat (srcWord srcs 1 l).toNat
    ∃ s' r', exec (.vcmp f) s = .next s' ∧ RowAfter s t s' r' ∧ r'.regs = t.r.regs ∧ r'.mask = t.r.mask ∧ r'.rng = t.r.rng ∧
      r'.flags = t.r.flags ||| FpFlags.join ((List.range 64).map fun l => if (t.part (.vcmp f)).getLsbD l = true then (at' l).2 else 0) ∧
      ∀ p l, p < 16 → l < 64 → (r'.pred p).getLsbD l =
        if p = f.vd.toNat % 16 ∧ p ≠ 15 ∧ (t.part (.vcmp f)).getLsbD l = true then (at' l).1 else (t.r.pred p).getLsbD l) ∧
  (∀ (a b : Word) (fn : Fin 6),
    cmpElem .i32 fn a.toNat b.toNat = ([a == b, a != b, a.slt b, a.sle b, b.slt a, b.sle a].getD fn false, 0) ∧
      cmpElem .n32 fn a.toNat b.toNat = ([a == b, a != b, a.ult b, a.ule b, b.ult a, b.ule a].getD fn false, 0)) ∧
  (∀ (ty : ElemTy) (a b : Nat) (fn : Fin 7), ty ∈ [ElemTy.f32, .f16, .bf16] →
    let x := FVal.decode ty.fmt a
    let y := FVal.decode ty.fmt b
    let unordered := x.isNan || y.isNan
    let less := fun (x y : FVal) => match x, y with
      | .inf m, .inf n => m && !n
      | .inf m, .fin _ _ _ => m
      | .fin _ _ _, .inf n => !n
      | .fin m i e, .fin n j g =>
        let scaled := fun (neg : Bool) (v : Nat) (z : Int) => (if neg then -1 else 1) * ((v * 2 ^ (z - min e g).toNat : Nat) : Int)
        decide (scaled m i e < scaled n j g)
      | _, _ => false
    (cmpElem ty fn a b).1 = (if unordered then fn == 1 || fn == 6
      else [!less x y && !less y x, less x y || less y x, less x y, !less y x, less y x, !less x y, false].getD fn false) ∧
    (cmpElem ty fn a b).2 = if (if 2 ≤ fn.val ∧ fn.val ≤ 5 then unordered else x.isSnan || y.isSnan) = true then FpFlags.nv else 0) ∧
  (∀ (s : State) (t : RowSlot) (f : LForm), RowTurn s (.plog f) t →
    let a := t.r.pred (f.va.toNat % 16)
    let b := t.r.pred (f.vb.toNat % 16)
    ∃ s' r', exec (.plog f) s = .next s' ∧ RowAfter s t s' r' ∧ r'.regs = t.r.regs ∧ r'.mask = t.r.mask ∧ r'.rng = t.r.rng ∧
      r'.flags = t.r.flags ∧
      ∀ p l, p < 16 → l < 64 → (r'.pred p).getLsbD l =
        if p = f.vd.toNat % 16 ∧ p ≠ 15 ∧ (t.part (.plog f)).getLsbD l = true then
          (if f.fn = 0 then a.getLsbD l && b.getLsbD l else if f.fn = 1 then a.getLsbD l || b.getLsbD l
            else if f.fn = 2 then a.getLsbD l != b.getLsbD l else if f.fn = 3 then a.getLsbD l && !b.getLsbD l else !a.getLsbD l)
        else (t.r.pred p).getLsbD l) ∧
  (∀ (s : State) (t : RowSlot) (f : LForm), RowTurn s (.vote f) t →
    let lanes := fun (set : Bool) => (List.range 64).countP fun l =>
      (t.part (.vote f)).getLsbD l && ((t.r.pred (f.va.toNat % 16)).getLsbD l == set)
    let vq := mapIf (fun v => v.esn == t.e.esn) (fun v => match v.kind with
      | .any => { v with anySet := v.anySet || decide (lanes true ≠ 0) }
      | .all => { v with allSet := v.allSet && decide (lanes false = 0) }
      | .cnt => { v with count := v.count + lanes true }
      | .schk => v) t.c.vq
    exec (.vote f) s = .next (slotDone (s.putCtx { t.c with vq := vq }) t t.r (.vote f))) ∧
  (∀ (c : Ctx) (v : VqEntry) (n seq : Nat) (e : BitVec 48) (k : VoteKind),
    ((newVote c e k).anySet = false ∧ (newVote c e k).allSet = true ∧ (newVote c e k).count = 0 ∧ (newVote c e k).result = none) ∧
    (c.vq[n]? = some v → v.seq = some seq → v.result = none → v.kind ≠ .schk →
      ((∀ r ∈ c.rows, r.live = false ∨ seq < r.issue ∨ seq ∈ r.ahead) → c.resolveVotes.vq[n]? = some { v with result := some (match v.kind with
        | .any => if v.anySet then 1 else 0
        | .all => if v.allSet then 1 else 0
        | .cnt | .schk => BitVec.ofNat 64 v.count) }) ∧
      (¬(∀ r ∈ c.rows, r.live = false ∨ seq < r.issue ∨ seq ∈ r.ahead) → c.resolveVotes.vq[n]? = some v))) ∧
  (∀ (s : State) (t : RowSlot) (f : LForm), RowTurn s (.vexit f) t →
    ∃ s' r', exec (.vexit f) s = .next s' ∧ RowAfter s t s' r' ∧ r'.mask = t.r.mask &&& ~~~(t.part (.vexit f)) ∧
      r'.regs = t.r.regs ∧ r'.preds = t.r.preds ∧ r'.rng = t.r.rng ∧ r'.flags = t.r.flags)

/-- R32, R206, R208, R216, R425: VLD writes the word of the buffer at each lane's offset to v`d`; VST stores vb in lane order, so that
the highest lane's word remains, but where a row of higher item has stored at the same slot or at a later one already; what a row stores is
noted while rows of lower item have not taken the slot (log 73). -/
def Obligations.BufferLoadStore : Prop :=
  ∀ (s s1 : State) (t : RowSlot) (srcs : List Source) (f : LForm) (mb : Member),
    let b := if f.fn = 1 then Buf.wb else if f.fn = 2 then Buf.ab else Buf.cb
    let offset := fun l => ((srcWord srcs 0 l).toNat + 4 * f.vc.toNat) % 2 ^ 32
    (let offs := ((List.range 64).filter fun l => (t.part (.vld f)).getLsbD l).map fun l => (l, offset l)
     RowTurn s (.vld f) t → Readable s t (.vld f) [vaOp t f.va] (ownLane 1) srcs → OffsetsClear s t b false offs mb →
     touchAll s t.c t.r.member b 4 (offs.map fun x => x.2) = .ready s1 → poisonedOffset s1 t b offs = none →
     exec (.vld f) s = .next (laneDone s1 t (.vld f) f.la { writes := [(f.vd.toNat, Lanes.build fun l =>
       BitVec.ofNat 32 (leNat (bufLoad s1 t.c t.r.member b (offset l) 4)))] })) ∧
    (let offs := ((List.range 64).filter fun l => (t.part (.vst f)).getLsbD l).map fun l => (l, offset l)
     RowTurn s (.vst f) t → Readable s t (.vst f) [vaOp t f.va, vbOp t f.vb] (ownLane 2) srcs → OffsetsClear s t b true offs mb →
     touchAll s t.c t.r.member b 4 (offs.map fun x => x.2) = .ready s1 →
     let mine := offs.filter fun x => t.insp || !(t.c.stores.any fun y => decide (t.e.seq ≤ y.seq) && decide (t.r.item < y.item) &&
       y.member == t.r.member && y.cells.contains (.buf b, x.2))
     let s2 := mine.foldl (fun s x => bufStore s t.c t.r.member b x.2 (leBytes 4 (srcWord srcs 1 x.1).toNat)) s1
     (t.leads = false → exec (.vst f) s = .next (slotDone s2 t t.r (.vst f))) ∧
     (t.leads = true → exec (.vst f) s = .next (slotDone (s2.updCtx t.c.id fun c => { c with
       stores := c.stores ++ [⟨t.e.seq, t.r.item, t.r.member, offs.map fun x => (.buf b, x.2)⟩] }) t t.r (.vst f))))

/-- R194, R202, R203, R216, R223, R235, R254, R402, R414, R427: VLDG reads each lane's unit through the member's view and decodes it
by the page's format; VSTG merges the encoded units into the member's buffer, but for bytes that a row of higher item has stored at the same
slot or at a later one (R32, log 73); VAMO performs the lanes' atomics in lane order, each by the table of R414 on the home value once the
line has drained, and returns the old values; SADV reads, by the position recorded at emission and at the home value, the key of each lane's element and
with VAL its value, all ones past the end or of a closed stream. What is checked of a unit's bytes follows log 39; VLDG checks the home copy of what it reads for poison
(log 40), but for bytes that the store buffer overlays. R158, R163, R164, R165: the units of the SX formats, of INT8, F16 and BF16. -/
def Obligations.GlobalLaneAccesses : Prop :=
  (∀ (s : State) (t : RowSlot) (srcs : List Source) (f : LForm) (mb : Member) (us : List LaneUnit),
    let addrs := fun (i : Instr) (disp : Nat) => ((List.range 64).filter fun l => (t.part i).getLsbD l).map fun l =>
      (l, ((srcWord srcs 1 l).toNat * 2 ^ 32 + (srcWord srcs 0 l).toNat + disp) % 2 ^ 64)
    (let rule := if f.fn = 1 then fun _ => ⟨4, 4, true⟩ else pageUnit f.t
     RowTurn s (.vldg f) t → Readable s t (.vldg f) (pairOps t f.va) (ownLane 2) srcs →
     UnitsClear s t .load false rule (addrs (.vldg f) (4 * f.vc.toNat)) (fun _ _ => []) mb us →
     poisonedView s mb us = none →
     let r := loadUnits s.mem mb us
     exec (.vldg f) s = .next (laneDone (s.putCtx (t.c.putMember t.r.member r.2)) t (.vldg f) f.la
       { writes := [(f.vd.toNat, Lanes.build fun l => match r.1.find? fun x => x.1 == l with
           | some x => decodeUnit f.t (f.fn == 1) (((us.find? fun u => u.lane == l).map fun u => u.fmt).getD 0) l x.2
           | none => 0)] })) ∧
    (RowTurn s (.vstg f) t → Readable s t (.vstg f) (pairOps t f.va ++ [vbOp t f.vb]) (ownLane 3) srcs →
     UnitsClear s t .store true (pageUnit f.t) (addrs (.vstg f) (4 * f.vc.toNat)) (groupBad (t.part (.vstg f))) mb us →
     let out := us.map fun u => (u, encodeUnit f.t (srcWord srcs 2) u)
     let bytes := out.flatMap fun x => x.1.locs.zip x.2.1
     let mine := t.storePart (us.flatMap fun u => vaLines t.c.domain u.va u.locs).eraseDups bytes
     let r := storeBytes s t.c mb mine.1 mine.2 !bytes.isEmpty
     exec (.vstg f) s = .next (slotDone (r.1.putCtx (t.stored (t.c.putMember t.r.member r.2) (bytes.map fun x => x.1))) t
       { t.r with flags := t.r.flags ||| FpFlags.join (out.map fun x => x.2.2) } (.vstg f))) ∧
    (RowTurn s (.vamo f) t →
     Readable s t (.vamo f) (pairOps t f.va ++ [vbOp t f.vb] ++ if f.fn = 7 then [plainOp f.vc.toNat] else [])
       (ownLane (if f.fn = 7 then 4 else 3)) srcs →
     UnitsClear s t .atomic true (fun fmt => ⟨4, 4, fmt == 0⟩) (addrs (.vamo f) 0) (fun _ _ => []) mb us →
     s.hand.part = none → poisonedDrained s t.c.id mb us = none →
     let r := amoLanes t.c.id f (srcWord srcs 2) (srcWord srcs 3) us s mb
     exec (.vamo f) s = .next (laneDone (r.2.1.putCtx (t.c.putMember t.r.member r.2.2)) t (.vamo f) f.la
       { writes := [(f.vd.toNat, Lanes.build fun l => (((r.1.find? fun x => x.1 == l).map fun x => BitVec.ofNat 32 x.2.1).getD 0))],
         flags := FpFlags.join (r.1.map fun x => x.2.2) }))) ∧
  (∀ (k : Nat) (f : LForm) (b cmp : Nat → Word) (u : LaneUnit) (rest : List LaneUnit) (l : GLoc) (ls : List GLoc) (s : State) (mb : Member),
    amoLanes k f b cmp [] s mb = ([], s, mb) ∧
    (u.locs = l :: ls →
      let r := atomicLine k s mb l
      let old := leNat (homeRead r.1.mem 0 u.locs)
      let new := laneAtomic f.fn f.t f.rnd old (b u.lane).toNat (cmp u.lane).toNat
      let z := amoLanes k f b cmp rest (if new.1 = old then r.1 else r.1.perform (u.locs.zip (leBytes u.locs.length new.1))) r.2
      amoLanes k f b cmp (u :: rest) s mb = ((u.lane, old, new.2) :: z.1, z.2))) ∧
  (∀ (rnd : Rnd) (a b c : Word),
    (∀ t ∈ [ElemTy.i32, .n32],
      let less := fun (x y : Word) => if t = .i32 then x.slt y else x.ult y
      ∀ x ∈ [((0 : BitVec 4), a + b), (1, if less b a then b else a), (2, if less a b then b else a), (3, a &&& b), (4, a ||| b),
             (5, a ^^^ b), (6, b), (7, if a = c then b else a)],
        laneAtomic x.1 t rnd a.toNat b.toNat c.toNat = (x.2.toNat, 0)) ∧
    laneAtomic 0 .f32 rnd a.toNat b.toNat c.toNat = addElem .f32 rnd false a.toNat b.toNat ∧
    laneAtomic 1 .f32 rnd a.toNat b.toNat c.toNat = minElem .f32 a.toNat b.toNat ∧
    laneAtomic 2 .f32 rnd a.toNat b.toNat c.toNat = maxElem .f32 a.toNat b.toNat) ∧
  (∀ (s : State) (t : RowSlot) (f : LForm) (mb : Member) (p : StreamPos) (us : List LaneUnit), RowTurn s (.sadv f) t →
    t.e.streams = [p] → t.c.member t.r.member = some mb →
    let x := fun l => p.cur + t.r.item * 64 + l
    let w := if p.val then 8 else 4
    let lanes := (List.range 64).filter fun l => (t.part (.sadv f)).getLsbD l && p.isOpen && decide (x l < p.len)
    let checked := lanes.map fun l => laneUnit s t.c.domain true .load (fun _ => ⟨w, 1, true⟩) l ((p.base + x l * w) % 2 ^ 64)
    (t.kept = some us ∨ (t.kept = none ∧ us = checked.map (fun y => y.2) ∧ ∀ y ∈ checked, ∀ k ∈ y.1, k = .fmtf)) →
    t.underWay = none → (boardStall mb false (us.map fun u => ⟨.global, u.va, u.locs.length⟩)).isNone = true →
    portBusy s (us.flatMap fun u => u.locs) = false → poisonedUnit s (dieOf mb.cluster) us = none →
    let word := fun k l => match us.find? fun u => u.lane == l with
      | some u => BitVec.ofNat 32 (leNat (((homeRead s.mem (dieOf mb.cluster) u.locs).drop k).take 4))
      | none => 0xFFFFFFFF
    exec (.sadv f) s = .next (laneDone s t (.sadv f) 0
      { writes := (f.vd.toNat, Lanes.build (word 0)) :: if p.val then [(f.vd.toNat + 1, Lanes.build (word 4))] else [] })) ∧
  (∀ (t : ElemTy) (raw : Bool) (l : Nat) (b0 b1 b2 b3 : Byte),
    decodeUnit t raw 0 l [b0, b1, b2, b3] = b3 ++ b2 ++ b1 ++ b0 ∧ decodeUnit t raw 7 l [b0, b1, b2, b3] = b3 ++ b2 ++ b1 ++ b0 ∧
      decodeUnit .i32 false 4 l [b0] = b0.signExtend 32) ∧
  (∀ (t : ElemTy) (v : Nat → Word) (u : LaneUnit),
    let w := v u.lane
    (u.fmt = 0 ∨ u.fmt = 7 → encodeUnit t v u =
      ([w.extractLsb' 0 8, w.extractLsb' 8 8, w.extractLsb' 16 8, w.extractLsb' 24 8], 0)) ∧
    (u.fmt = 4 → t = .i32 → (encodeUnit t v u).1 = [BitVec.ofInt 8 (max (-128) (min 127 w.toInt))] ∧
      ((encodeUnit t v u).2 = 0 ↔ -128 ≤ w.toInt ∧ w.toInt ≤ 127)) ∧
    (u.fmt = 4 → t = .f32 → encodeUnit t v u = match FVal.decode fmtF32 w.toNat with
      | .nan _ => ([0], FpFlags.nv)
      | .inf n => ([if n then 0x80 else 0x7F], FpFlags.nv)
      | .fin n m e =>
        let step := 2 ^ (-e).toNat
        let q := m * 2 ^ e.toNat / step
        let left := m * 2 ^ e.toNat % step
        let z : Int := (if n then -1 else 1) * ((if step < 2 * left ∨ (2 * left = step ∧ q % 2 = 1) then q + 1 else q : Nat) : Int)
        ([BitVec.ofInt 8 (max (-128) (min 127 z))],
          if z < -128 ∨ 127 < z then FpFlags.nv else if left = 0 then 0 else FpFlags.nx))) ∧
  (∀ (l : Nat) (b : Byte), match FVal.decode fmtF32 (decodeUnit .f32 false 4 l [b]).toNat with
    | .fin n m e => e ≤ 0 ∧ (if n then -1 else 1) * (m : Int) = b.toInt * 2 ^ (-e).toNat
    | _ => False) ∧
  (∀ (fmt : Nat) (f : Fmt), (fmt, f) ∈ [(5, fmtF16), (6, fmtBF16)] →
    (∀ (t : ElemTy) (l : Nat) (b0 b1 : Byte),
      let p := b0.toNat + 256 * b1.toNat
      let w := (decodeUnit t false fmt l [b0, b1]).toNat
      match FVal.decode f p, FVal.decode fmtF32 w with
      | .fin n m e, .fin i k g => n = i ∧ m * 2 ^ (e - min e g).toNat = k * 2 ^ (g - min e g).toNat
      | .inf n, .inf i => n = i
      | .nan true, _ => w = p / 2 ^ 15 * 2 ^ 31 + 0x7F800000 + p % 2 ^ f.fb * 2 ^ (23 - f.fb)
      | .nan false, _ => w = 0x7FC00000
      | _, _ => False) ∧
    ∀ (t : ElemTy) (v : Nat → Word) (u : LaneUnit), u.fmt = fmt →
      let p := match FVal.decode fmtF32 (v u.lane).toNat with
        | .nan quiet => (f.dnan, if quiet then 0 else FpFlags.nv)
        | .inf n => ((if n then 2 ^ 15 else 0) + f.inf, 0)
        | .fin n m e => if m = 0 then (if n then 2 ^ 15 else 0, 0) else f.round .rne n m e false
      encodeUnit t v u = ([BitVec.ofNat 8 p.1, BitVec.ofNat 8 (p.1 / 256)], p.2)) ∧
  ∀ fmt width : Nat, (fmt, width) ∈ [(1, 2), (2, 4), (3, 7)] →
    (∀ (t : ElemTy) (l : Nat) (bs : List Byte),
      let shared := (bs.getD 0 0).toNat
      let field := leNat (bs.drop 2) / 2 ^ ((width + 1) * (l % 16)) % 2 ^ (width + 1)
      let w := decodeUnit t false fmt l bs
      (shared = 255 → w = 0x7FC00000) ∧
      (shared ≠ 255 → match FVal.decode fmtF32 w.toNat with
        | .fin n m e =>
          let u : Int := (shared : Int) - 127 - ((bs.getD 1 0).toNat / 4 ^ (l % 16 / 4) % 4 : Nat) - ((width : Int) - 1)
          n = decide (field / 2 ^ width = 1) ∧ m * 2 ^ (e - min e u).toNat = field % 2 ^ width * 2 ^ (u - min e u).toNat
        | _ => False)) ∧
    ∀ (t : ElemTy) (v : Nat → Word) (u : LaneUnit), u.fmt = fmt →
      (u.lane % 16 ≠ 0 → encodeUnit t v u = ([], 0)) ∧
      (u.lane % 16 = 0 →
        let x := fun (j : Nat) => FVal.decode fmtF32 (v (u.lane + j)).toNat
        let a := fun (j : Nat) => match x j with
          | .fin _ m e => m * 2 ^ (e + 149).toNat
          | _ => 2 ^ 277
        let amax := (List.range 16).foldl (fun y j => max y (a j)) 0
        let emax : Int := if amax = 0 then -127 else (Nat.log2 amax : Int) - 149
        let shared := min 254 (emax + 127).toNat
        let below := fun (q d : Nat) => (List.range 4).all fun j => decide (a (4 * q + j) * 2 ^ d < amax)
        let delta := fun (q : Nat) => if below q 3 then 3 else if below q 2 then 2 else if below q 1 then 1 else 0
        let step := fun (j : Nat) => 2 ^ ((shared : Int) - 127 - (delta (j / 4) : Nat) - ((width : Int) - 1) + 149).toNat
        let near := fun (j : Nat) =>
          let q := a j / step j
          if step j < 2 * (a j % step j) ∨ (2 * (a j % step j) = step j ∧ q % 2 = 1) then q + 1 else q
        let m := fun (j : Nat) => min (near j) (2 ^ width - 1)
        let r := encodeUnit t v u
        r.1.length = 2 + 2 * (width + 1) ∧
        ((∃ j < 16, (x j).isNan = true) → leNat r.1 = 255 ∧ (r.2 = FpFlags.nv ∨ r.2 = 0) ∧ (r.2 = FpFlags.nv ↔ ∃ j < 16, (x j).isSnan = true)) ∧
        ((∀ j < 16, (x j).isNan = false) →
          leNat r.1 = shared + 2 ^ 8 * ((List.range 4).map fun q => delta q * 4 ^ q).sum +
            2 ^ 16 * ((List.range 16).map fun j => (m j + if (x j).neg then 2 ^ width else 0) * 2 ^ ((width + 1) * j)).sum ∧
          r.2 = FpFlags.when (decide (254 < emax + 127)) FpFlags.ovf |||
            FpFlags.when ((List.range 16).any fun j => decide (a j ≠ 0 ∧ m j = 0)) FpFlags.unf |||
            FpFlags.when ((List.range 16).any fun j => (x j).isInf || decide (m j * step j ≠ a j)) FpFlags.nx))

/-- R85, R193, R198, R199, R202, R206, R216, R297, R298, R305, R310: a lane fault executes nothing: the row stops with the record and the
gang halts; in a handler it is a double fault. So end VLD and VST with BUFV at an offset that is misaligned or outside the allocation,
VLDG, VSTG, VAMO and SADV with the first cause in the order of R216 that a lane has, the address of the lowest such lane and the mask of
all of them; a poisoned source, and a poisoned word that a lane reads, are MCHK. What is checked of a unit's bytes follows log 39; that a
VLDG checks the home copy though the view has the line is log 40, and so is that it passes by the bytes that the store buffer overlays and
that a VAMO checks behind the drain of its own lines; that a row may stop late, after further slots of its window (R85), is
log 45: behind the fault it takes no slot outside the window, none that accesses memory or a buffer or writes a predicate or a mask, and none
that writes a register which the faulting slot reads or which is carried (R84). -/
def Obligations.LaneFaultsStopTheRow : Prop :=
  (∀ (c : Ctx) (r : Row) (e : Entry) (seq : Nat) (tr : Trap) (last : BitVec 48), r.late = some (seq, tr, last) →
    c.rowReady r e = true →
    esnBefore last e.esn = false ∧ ∃ x i j, x ∈ c.stream ∧ x.seq = seq ∧ x.item = .slot i ∧ e.item = .slot j ∧ j.eform = none ∧
      (∀ f, j ∉ [Instr.vld f, .vst f, .vldg f, .vstg f, .vamo f, .sadv f, .vcmp f, .vprune f, .plog f, .vexit f]) ∧
      ∀ n ∈ j.destRegs, n ∉ i.sourceRegs ∧ n ∉ c.carried) ∧
  (∀ (s : State) (t : RowSlot) (f : LForm) (srcs : List Source) (mb : Member) (cause : Cause) (a : Nat) (mask : LaneMask),
    t.c.member t.r.member = some mb →
    let lanes := fun (i : Instr) => (List.range 64).filter fun l => (t.part i).getLsbD l
    (∀ x ∈ [(Instr.vld f, [vaOp t f.va], 1), (.vst f, [vaOp t f.va, vbOp t f.vb], 2)],
      let checks := (lanes x.1).map fun l =>
        let o := ((srcWord srcs 0 l).toNat + 4 * f.vc.toNat) % 2 ^ 32
        (l, o, if o % 4 ≠ 0 ∨ 2 ^ 24 ≤ o ∨ placeOf s t.c t.r.member (laneBuf f.fn) o 4 = none then [Cause.bufv] else [])
      RowTurn s x.1 t → Readable s t x.1 x.2.1 (ownLane x.2.2) srcs → Reports checks cause a mask →
      LaneFaults s t x.1 cause (BitVec.ofNat 64 a) mask) ∧
    (t.kept = none →
      let unit := fun (k : Access) (rule : Nat → UnitRule) (disp l : Nat) =>
        laneUnit s t.c.domain (!t.insp) k rule l (((srcWord srcs 1 l).toNat * 2 ^ 32 + (srcWord srcs 0 l).toNat + disp) % 2 ^ 64)
      let checks := fun (i : Instr) (k : Access) (rule : Nat → UnitRule) (disp : Nat) (extra : List LaneUnit → Nat → List Cause) =>
        (lanes i).map fun l => (l, (unit k rule disp l).2.va,
          (unit k rule disp l).1 ++ extra ((lanes i).map fun l => (unit k rule disp l).2) l)
      (∀ x ∈ [(Instr.vldg f, pairOps t f.va, 2, Access.load, (if f.fn = 1 then fun _ => ⟨4, 4, true⟩ else pageUnit f.t), 4 * f.vc.toNat,
            fun _ _ => []),
          (.vstg f, pairOps t f.va ++ [vbOp t f.vb], 3, .store, pageUnit f.t, 4 * f.vc.toNat, groupBad (t.part (.vstg f))),
          (.vamo f, pairOps t f.va ++ [vbOp t f.vb] ++ (if f.fn = 7 then [plainOp f.vc.toNat] else []), (if f.fn = 7 then 4 else 3), .atomic,
            (fun fmt => ⟨4, 4, fmt == 0⟩), 0, fun _ _ => [])],
        RowTurn s x.1 t → Readable s t x.1 x.2.1 (ownLane x.2.2.1) srcs →
        Reports (checks x.1 x.2.2.2.1 x.2.2.2.2.1 x.2.2.2.2.2.1 x.2.2.2.2.2.2) cause a mask →
        LaneFaults s t x.1 cause (BitVec.ofNat 64 a) mask) ∧
      (∀ p, RowTurn s (.sadv f) t → t.e.streams = [p] →
        let x := fun l => p.cur + t.r.item * 64 + l
        let w := if p.val then 8 else 4
        let checks := ((lanes (.sadv f)).filter fun l => p.isOpen && decide (x l < p.len)).map fun l =>
          let y := laneUnit s t.c.domain true .load (fun _ => ⟨w, 1, true⟩) l ((p.base + x l * w) % 2 ^ 64)
          (l, y.2.va, y.1.filter fun c => c != .fmtf)
        Reports checks cause a mask → LaneFaults s t (.sadv f) cause (BitVec.ofNat 64 a) mask))) ∧
  (∀ (s : State) (d : Nat) (u : Bool) (k : Access) (rule : Nat → UnitRule) (l va : Nat),
    let causes := (laneUnit s d u k rule l va).1
    (∀ e, lookup s d va = .error e → causes = [e.cause]) ∧
    (∀ x, lookup s d va = .ok x → va < 2 ^ 64 → 0 < (rule x.fmt).size →
      ((x.loc va).mappable s.fenced = false → .ptebad ∈ causes) ∧
      ((x.loc va).mappable s.fenced = true → (rule x.fmt).size = 1 ∨ va % (rule x.fmt).align ≠ 0 →
        (.align ∈ causes ↔ va % (rule x.fmt).align ≠ 0) ∧ (.perm ∈ causes ↔ x.permits u k = false) ∧
          (.fmtf ∈ causes ↔ (rule x.fmt).listed = false)))) ∧
  (∀ (s s1 : State) (t : RowSlot) (f : LForm) (srcs : List Source) (mb : Member) (mask : LaneMask), t.c.member t.r.member = some mb →
    (∀ i ops reg, ((∃ e, elementwise i = some e ∧ ops = e.ops t) ∨ (i = .vld f ∧ ops = [vaOp t f.va]) ∨
        (i = .vst f ∧ ops = [vaOp t f.va, vbOp t f.vb]) ∨ (i = .vldg f ∧ ops = pairOps t f.va) ∨
        (i = .vstg f ∧ ops = pairOps t f.va ++ [vbOp t f.vb]) ∨
        (i = .vamo f ∧ ops = pairOps t f.va ++ [vbOp t f.vb] ++ if f.fn = 7 then [plainOp f.vc.toNat] else [])) →
      RowTurn s i t → sources s t 0 ops = some srcs → ReadsPoison (t.part i) srcs mask reg →
      LaneFaults s t i .mchk (BitVec.ofNat 64 (reg % 2 ^ 60)) mask) ∧
    (∀ o, let offs := ((List.range 64).filter fun l => (t.part (.vld f)).getLsbD l).map fun l =>
        (l, ((srcWord srcs 0 l).toNat + 4 * f.vc.toNat) % 2 ^ 32)
      RowTurn s (.vld f) t → Readable s t (.vld f) [vaOp t f.va] (ownLane 1) srcs → OffsetsClear s t (laneBuf f.fn) false offs mb →
      touchAll s t.c t.r.member (laneBuf f.fn) 4 (offs.map fun x => x.2) = .ready s1 → poisonedOffset s1 t (laneBuf f.fn) offs = some (o, mask) →
      LaneFaults s t (.vld f) .mchk (poisonAddr (if f.fn = 1 then 1 else if f.fn = 2 then 2 else 3) o) mask) ∧
    (∀ us a, let addrs := ((List.range 64).filter fun l => (t.part (.vldg f)).getLsbD l).map fun l =>
        (l, ((srcWord srcs 1 l).toNat * 2 ^ 32 + (srcWord srcs 0 l).toNat + 4 * f.vc.toNat) % 2 ^ 64)
      RowTurn s (.vldg f) t → Readable s t (.vldg f) (pairOps t f.va) (ownLane 2) srcs →
      UnitsClear s t .load false (if f.fn = 1 then fun _ => ⟨4, 4, true⟩ else pageUnit f.t) addrs (fun _ _ => []) mb us →
      poisonedView s mb us = some (a, mask) → LaneFaults s t (.vldg f) .mchk (poisonAddr 5 a) mask) ∧
    (∀ us a, let addrs := ((List.range 64).filter fun l => (t.part (.vamo f)).getLsbD l).map fun l =>
        (l, ((srcWord srcs 1 l).toNat * 2 ^ 32 + (srcWord srcs 0 l).toNat) % 2 ^ 64)
      RowTurn s (.vamo f) t →
      Readable s t (.vamo f) (pairOps t f.va ++ [vbOp t f.vb] ++ if f.fn = 7 then [plainOp f.vc.toNat] else [])
        (ownLane (if f.fn = 7 then 4 else 3)) srcs →
      UnitsClear s t .atomic true (fun fmt => ⟨4, 4, fmt == 0⟩) addrs (fun _ _ => []) mb us →
      poisonedDrained s t.c.id mb us = some (a, mask) → LaneFaults s t (.vamo f) .mchk (poisonAddr 5 a) mask) ∧
    (∀ p us a, RowTurn s (.sadv f) t → t.e.streams = [p] →
      let x := fun l => p.cur + t.r.item * 64 + l
      let w := if p.val then 8 else 4
      let checked := ((List.range 64).filter fun l => (t.part (.sadv f)).getLsbD l && p.isOpen && decide (x l < p.len)).map fun l =>
        laneUnit s t.c.domain true .load (fun _ => ⟨w, 1, true⟩) l ((p.base + x l * w) % 2 ^ 64)
      (t.kept = some us ∨ (t.kept = none ∧ us = checked.map (fun y => y.2) ∧ ∀ y ∈ checked, ∀ k ∈ y.1, k = .fmtf)) →
      t.underWay = none → (boardStall mb false (us.map fun u => ⟨.global, u.va, u.locs.length⟩)).isNone = true →
      portBusy s (us.flatMap fun u => u.locs) = false → poisonedUnit s (dieOf mb.cluster) us = some (a, mask) →
      LaneFaults s t (.sadv f) .mchk (poisonAddr 5 a) mask)) ∧
  (∀ (s : State) (mb : Member) (us : List LaneUnit) (k : Nat),
    let overlaid := fun (l : GLoc) => ((mb.psb.find? fun p => p.loc == l.line).bind fun p => p.data.getD (l.pa % 128) none).isSome
    (poisonedView s mb us = none ↔ ∀ u ∈ us, ∀ l ∈ u.locs, overlaid l = true ∨ s.memPoisoned (l.on (dieOf mb.cluster)) = false) ∧
    ((∀ u ∈ us, ∀ l ∈ u.locs, l.region = 0 ∧ ∀ p ∈ mb.psb, p.loc ≠ l.line) →
      (poisonedDrained s k mb us = none ↔ ∀ u ∈ us, ∀ l ∈ u.locs, s.memPoisoned (l.on 0) = false)))

/-! ## Engine commands -/

/-- R251, R336, R346, R347, R348, R350: CPY copies the bytes of its source, read before any is written, to its destination; a turn may
read one line of the source ahead, and a line that has been read stays as it was read. A bad range is CRANGE with the value in TADDR, a
page that may not be accessed its own cause, both also while the command still waits for an earlier overlapping entry; a fault stops the
queue. Every command of the queue may run from its hand-over on (log 21); it finds memory behind the lines that the ports have accepted
(log 62). A copy behind an overlapping entry, or behind a retried command without one, waits and keeps the entry that it has taken (R210).
R206, R208: TADDR holds a length that is no multiple of 4 or lies outside 4 to 2^24, else the first offset that is misaligned or outside its
buffer; a buffer range lies in the allocation or, for an ash context, in one range that the owner of its cluster has declared. Where two global ranges meet only through different virtual addresses a byte may be the old one (log 11). The lines of the
destination leave the view of the issuing member alone when the command retires (log 43). -/
def Obligations.CopyCommand : Prop :=
  ∀ (s s0 s2 : State) (v : EngineView) (x : EForm) (dst src : List GLoc),
    let m := s.hand.member
    let n := pval x.p2
    let die := dieOf v.mb.cluster
    (EngineTurn s .copy (.cpy x) v →
      cpyRangeBad v.s1 v.c m x = none → cpyLocs v.s1 v.c (cpyDst x.fn) (pval x.p0) n .store = .ok dst →
      cpyLocs v.s1 v.c (cpySrc x.fn) (pval x.p1) n .load = .ok src → touchRanges v.c m (cpyBufs x) v.s1 = .ready s2 →
      (match cpySrc x.fn with
        | .buf b => enginePoison s2 v.c m [(b, pval x.p1, n)] = none
        | .global => ∀ l ∈ src, s2.memPoisoned (l.on die) = false) →
      let bytes := match cpySrc x.fn with
        | .buf b => bufLoad s2 v.c m b (pval x.p1) n
        | .global => src.map (engineByte s2 v)
      exec (.cpy x) s = match cpyDst x.fn with
        | .buf b => .next (engineDone (bufStore (bump s2) v.c m b (pval x.p0) bytes) v.c0.id m .copy v.x [])
        | .global =>
          let apart := cpySrc x.fn == .global && !(decide (pval x.p0 < pval x.p1 + n ∧ pval x.p1 < pval x.p0 + n))
          .next (engineDone ((bump s2).perform (dst.zip (aliasBytes (bump s2) die apart src dst bytes))) v.c0.id m .copy v.x
            (dst.flatMap fun l => l.line.copies).eraseDups)) ∧
    (∀ a, EngineTurn s .copy (.cpy x) v → cpyRangeBad v.s1 v.c m x = some a →
      exec (.cpy x) s = .next (engineFaulted v.s1 v.c0.id m .copy v.x .crange a 0)) ∧
    (∀ e va, EngineTurn s .copy (.cpy x) v → cpyRangeBad v.s1 v.c m x = none →
      (cpyLocs v.s1 v.c (cpyDst x.fn) (pval x.p0) n .store = .error (e, va) ∨
        (cpyLocs v.s1 v.c (cpyDst x.fn) (pval x.p0) n .store = .ok dst ∧
          cpyLocs v.s1 v.c (cpySrc x.fn) (pval x.p1) n .load = .error (e, va))) →
      exec (.cpy x) s = .next (engineFaulted v.s1 v.c0.id m .copy v.x e.cause va 0)) ∧
    (s.ctxOf s.hand.ctx = some v.c0 → v.c0.member m = some v.mb0 → cmdInHand s v.mb0 .copy (.cpy x) = some v.x → v.c0.switch = .inside →
      ensureBoard (engineMemory s .copy) v.c0 m v.mb0 v.x.e (.cpy x) = some (s0, false) → cpyRangeBad s0 v.c0 m x = none →
      (∀ e va, cpyLocs s0 v.c0 (cpyDst x.fn) (pval x.p0) n .store = .error (e, va) →
        exec (.cpy x) s = .next (engineFaulted s0 v.c0.id m .copy v.x e.cause va 0)) ∧
      (cpyLocs s0 v.c0 (cpyDst x.fn) (pval x.p0) n .store = .ok dst → cpyLocs s0 v.c0 (cpySrc x.fn) (pval x.p1) n .load = .ok src →
        let listed := ((ensureBoard s v.c0 m v.mb0 v.x.e (.cpy x)).map fun z => z.1).getD s
        exec (.cpy x) s = .next (if listed = s then { s with waited := true } else { listed with waited := false }))) ∧
    (∀ (z : State) (c : Ctx) (m : Nat) (mb : Member) (e : Entry),
      let dst : Range := ⟨cpyDst x.fn, pval x.p0, n⟩
      let src : Range := ⟨cpySrc x.fn, pval x.p1, n⟩
      let clear := mb.board.all (fun b => decide (e.seq ≤ b.seq) ||
        !(b.dst.any (fun d => d.meets dst || d.meets src) || b.src.any (fun d => dst.meets d))) && earlierListed z c m mb e.seq
      cpyRangeBad z c m x = none → ensureBoard z c m mb e (.cpy x) =
        if mb.board.any (fun b => b.seq == e.seq) = true then some (z, clear)
        else if 2048 ≤ boardUsed z mb.cluster then none
        else some (z.updMember c.id m fun y => { y with board := y.board ++ [⟨e.seq, .copy, some dst, [src]⟩] }, clear)) ∧
    (∀ line, EngineFront s .copy (.cpy x) v → s.hand.part = some line →
      let got := { pa := line - line % 128, data := Memory.readN v.s1.mem (line - line % 128) 128 : ViewLine }
      let t := updCmd v.s1 v.c.id m .copy v.x.e.seq fun y =>
        { y with got := if y.got.any (fun z => z.pa == line - line % 128) then y.got else y.got ++ [got] }
      exec (.cpy x) s = .next (if t = s then { s with waited := true } else { t with waited := false })) ∧
    (∀ (z : State) (c : Ctx) (m : Nat),
      let outside := fun (sp : Space) (o : Nat) => match sp with
        | .buf b => placeOf z c m b o n = none
        | .global => False
      let bad := fun (sp : Space) (o : Nat) => o % 4 ≠ 0 ∨ outside sp o
      ((n % 4 ≠ 0 ∨ n < 4 ∨ 2 ^ 24 < n) → cpyRangeBad z c m x = some n) ∧
      (n % 4 = 0 → 4 ≤ n → n ≤ 2 ^ 24 →
        (bad (cpyDst x.fn) (pval x.p0) → cpyRangeBad z c m x = some (pval x.p0)) ∧
        (¬bad (cpyDst x.fn) (pval x.p0) → bad (cpySrc x.fn) (pval x.p1) → cpyRangeBad z c m x = some (pval x.p1)) ∧
        (¬bad (cpyDst x.fn) (pval x.p0) → ¬bad (cpySrc x.fn) (pval x.p1) → cpyRangeBad z c m x = none))) ∧
    (∀ (z : State) (c : Ctx) (m : Nat) (mb : Member) (b : Buf) (o n : Nat), c.member m = some mb →
      ((placeOf z c m b o n).isSome = true ↔ o + n ≤ (mb.buf b).size ∨
        (c.ash = true ∧ lendBase ≤ o ∧ ∃ d om mo, ownerOn z mb.cluster = some (d, om) ∧ d.member om = some mo ∧
          ∃ l ∈ mo.lends, l.buf = b ∧ l.off ≤ o - lendBase ∧ o - lendBase + n ≤ l.off + l.len))) ∧
    (∀ y ∈ [((0 : BitVec 4), Space.global, Space.global), (1, .buf .wb, .global), (2, .buf .ab, .global), (8, .global, .buf .ab),
        (9, .buf .wb, .buf .ab), (10, .buf .ab, .buf .ab), (12, .global, .buf .cb), (13, .buf .wb, .buf .cb), (14, .buf .ab, .buf .cb)],
      cpyDst y.1 = y.2.1 ∧ cpySrc y.1 = y.2.2)

/-- R244, R245, R246, R247, R359: FHDL reads a handle's descriptor; FGAT writes the pieces that the copied registers name, each
from a block fetched, decoded and checked; a block that cannot be fetched stops it behind the earlier pieces with the cause of the fetch:
what the read raises, DECF or CRCF with the block number and the lane, HDLBAD with the handle number where V asks for a check and the
handle has no directory. A P0 that is not a multiple of 32 is HDLBAD; one that is not canonical raises what the read
raises (log 68). -/
def Obligations.HandleAndGatherCommands : Prop :=
  ∀ (s : State) (v : EngineView) (x : EForm),
    let m := s.hand.member
    let port := v.x.port v.mb
    let n := x.head.toNat % 64
    (∀ bytes, EngineTurn s .fetch (.fhdl x) v → pval x.p0 % 32 = 0 → fetchRead v.s1 v.c port (pval x.p0) 32 = .ok bytes →
      (handleBad (BitVec.ofNat 256 (leNat bytes)) = false →
        exec (.fhdl x) s = .next (engineDone (v.s1.updMember v.c.id m fun mb =>
          { mb with handles := mb.handles.setIfInBounds n (BitVec.ofNat 256 (leNat bytes)) }) v.c0.id m .fetch v.x [])) ∧
      (handleBad (BitVec.ofNat 256 (leNat bytes)) = true →
        exec (.fhdl x) s = .next (engineFaulted v.s1 v.c0.id m .fetch v.x .hdlbad n 0))) ∧
    (EngineTurn s .fetch (.fhdl x) v → pval x.p0 % 32 ≠ 0 →
      exec (.fhdl x) s = .next (engineFaulted v.s1 v.c0.id m .fetch v.x .hdlbad n 0)) ∧
    (∀ k va, EngineTurn s .fetch (.fhdl x) v → pval x.p0 % 32 = 0 → fetchRead v.s1 v.c port (pval x.p0) 32 = .error (k, va) →
      exec (.fhdl x) s = .next (engineFaulted v.s1 v.c0.id m .fetch v.x k va 0)) ∧
    (∀ a, EngineTurn s .fetch (.fgat x) v → fgatBad v.s1 v.c m x = some a →
      exec (.fgat x) s = .next (engineFaulted v.s1 v.c0.id m .fetch v.x .frange a 0)) ∧
    (∀ (z : State) (c : Ctx) (m : Nat),
      let dst := pval x.p0
      let l := pval x.p1
      let count := pval x.p2
      let groups := (x.head.extractLsb' 24 3).toNat + 1
      let place := placeOf z c m (if x.fn = 0 then .ab else .wb) dst (count * l)
      fgatBad z c m x = if dst % 4 ≠ 0 then some dst else if l % 4 ≠ 0 ∨ l < 4 ∨ 65536 < l then some l
        else if count < 1 ∨ 64 * groups < count then some count else if place = none then some dst else none) ∧
    (∀ (s2 : State) (blk : Nat → List Byte), EngineTurn s .fetch (.fgat x) v → fgatBad v.s1 v.c m x = none → v.x.spoiled = none →
      let b := if x.fn = 0 then Buf.ab else Buf.wb
      let l := pval x.p1
      touchRanges v.c m [(b, pval x.p0, l * pval x.p2)] v.s1 = .ready s2 →
      let n := x.head.toNat / 256 % 64
      let h := handleOf (handleAt v.mb n)
      let blockNo := fun j => ((v.x.copied.getD (2 * (j / 64)) (Lanes.fill 0)).get (j % 64)).toNat
      let off := fun j => ((v.x.copied.getD (2 * (j / 64) + 1) (Lanes.fill 0)).get (j % 64)).toNat
      let good := fun j => blockNo j < h.count ∧ off j + l ≤ 2 ^ h.logb
      let written := fun k => (List.range k).foldl (fun s j =>
        bufStore s v.c m b (pval x.p0 + j * l) (((blk j).drop (off j)).take l)) s2
      ((∀ j, j < pval x.p2 → good j ∧ fetchBlock (written j) v.c port h n (blockNo j) (x.head.getLsbD 0) = .ok (blk j)) →
        exec (.fgat x) s = .next (engineDone (written (pval x.p2)) v.c0.id m .fetch v.x [])) ∧
      (∀ k, k < pval x.p2 → (∀ j, j < k → good j ∧ fetchBlock (written j) v.c port h n (blockNo j) (x.head.getLsbD 0) = .ok (blk j)) →
        (h.count ≤ blockNo k →
          exec (.fgat x) s = .next (engineFaulted (written k) v.c0.id m .fetch v.x .frange (blockNo k) (1#64 <<< (k % 64)))) ∧
        (blockNo k < h.count → 2 ^ h.logb < off k + l →
          exec (.fgat x) s = .next (engineFaulted (written k) v.c0.id m .fetch v.x .frange (off k) (1#64 <<< (k % 64)))) ∧
        (∀ cause a, good k → fetchBlock (written k) v.c port h n (blockNo k) (x.head.getLsbD 0) = .error (cause, a) →
          exec (.fgat x) s = .next (engineFaulted (written k) v.c0.id m .fetch v.x cause a
            (if cause = .decf ∨ cause = .crcf then 1#64 <<< (k % 64) else 0))))) ∧
    (∀ (s : State) (c : Ctx) (port : ReadPort) (h : HandleDesc) (b : Nat) (verify : Bool),
      let fetched := fetchBlock s c port h n b verify
      let whole := fun (raw : List Byte) => match h.kind with
        | 0 => some raw
        | 1 => xbcDecode raw h.logb
        | _ => lz4Decode raw h.logb
      (h.dir = 0 → verify = true → fetched = .error (.hdlbad, n)) ∧
      (h.dir = 0 → verify = false → h.kind = 0 → fetched = fetchRead s c port (h.data + b * 2 ^ h.logb) (2 ^ h.logb)) ∧
      (h.dir ≠ 0 → ∀ ent, fetchRead s c port (h.dir + 16 * b) 16 = .ok ent → ent.length = 16 →
        let w0 := leNat (ent.take 8)
        let w1 := leNat (ent.drop 8)
        let clen := w0 / 2 ^ 40 % 2 ^ 17
        ((2 ^ 57 ≤ w0 ∨ 2 ^ 32 ≤ w1 ∨ clen = 0) → fetched = .error (.decf, b)) ∧
        (w0 < 2 ^ 57 → w1 < 2 ^ 32 → clen ≠ 0 →
          (∀ e, fetchRead s c port (h.data + w0 % 2 ^ 40) clen = .error e → fetched = .error e) ∧
          ∀ raw, fetchRead s c port (h.data + w0 % 2 ^ 40) clen = .ok raw →
            ((∀ out, whole raw = some out → out.length ≠ 2 ^ h.logb) → fetched = .error (.decf, b)) ∧
            ∀ out, whole raw = some out → out.length = 2 ^ h.logb →
              fetched = if verify = true ∧ crc32c out ≠ w1 then .error (.crcf, b) else .ok out)) ∧
      (h.dir ≠ 0 → ∀ e, fetchRead s c port (h.dir + 16 * b) 16 = .error e → fetched = .error e) ∧
      ∀ va len e a, translateN s c.domain true .load va len = .error (e, a) → fetchRead s c port va len = .error (e.cause, a))

/-- R252, R254, R255, R259, R260, R261, R262, R403, R404: the four merges write the entries of the walk and their count; SPRD
writes the mask and the list of the neurons predicted active; SCHK writes the list of those it missed and answers its vote. A merge
destination outside its buffer is FRANGE, and so is one that is not 8-byte aligned (log 68), before the STRBAD of SMADD of a stream
without values (log 42); an operand of SPRD or SCHK that is misaligned or outside its buffer is FRANGE with the first such offset, for SCHK
before HDLBAD; the walk of SISEC over two sorted streams without values gives the keys of both. -/
def Obligations.SparseCommands : Prop :=
  (∀ (s s2 : State) (v : EngineView) (x : EForm),
    let m := s.hand.member
    let port := v.x.port v.mb
    (∀ (i : Instr) (op : MergeOp) (p q : StreamPos),
      (i, op) ∈ [(Instr.sisec x, MergeOp.isec), (.sunion x, .union), (.sdiff x, .diff), (.smadd x, .madd)] →
      EngineTurn s .fetch i v → v.x.e.streams = [p, q] →
      let cap := pval x.p1
      let w := if p.val && q.val then 8 else 4
      (pval x.p0 % 8 ≠ 0 ∨ 2 ^ 20 < cap ∨ placeOf v.s1 v.c m .ab (pval x.p0) (8 + cap * w) = none →
        exec i s = .next (engineFaulted v.s1 v.c0.id m .fetch v.x .frange (pval x.p0) 0)) ∧
      (op = .madd → pval x.p0 % 8 = 0 → cap ≤ 2 ^ 20 → (placeOf v.s1 v.c m .ab (pval x.p0) (8 + cap * w)).isSome = true →
        (p.val = false → exec i s = .next (engineFaulted v.s1 v.c0.id m .fetch v.x .strbad (x.head.toNat % 8) 0)) ∧
        (p.val = true → q.val = false →
          exec i s = .next (engineFaulted v.s1 v.c0.id m .fetch v.x .strbad (x.head.toNat / 8 % 8) 0))) ∧
      (pval x.p0 % 8 = 0 → cap ≤ 2 ^ 20 → (placeOf v.s1 v.c m .ab (pval x.p0) (8 + cap * w)).isSome = true →
        (op = .madd → p.val = true ∧ q.val = true) → touchRanges v.c m [(.ab, pval x.p0, 8 + cap * w)] v.s1 = .ready s2 →
        let r := mergeWalk s2 v.c port op cap p q (p.len + q.len + 1) ⟨p.cur, q.cur, none, none, [], 0⟩
        let bytes := r.1.out.reverse.flatMap fun y => leBytes 4 y.1 ++ if w = 8 then leBytes 4 y.2 else []
        let s3 := bufStore s2 v.c m .ab (pval x.p0 + 8) bytes
        (r.2 = none → exec i s = .next (engineDone (bufStore s3 v.c m .ab (pval x.p0) (leBytes 8 r.1.count)) v.c0.id m .fetch v.x [])) ∧
        (∀ k a, r.2 = some (k, a) → exec i s = .next (engineFaulted s3 v.c0.id m .fetch v.x k a 0)))) ∧
    (let d := headD x.head
     let f := headF x.head
     let r := headR x.head
     let ranges : List (Buf × Nat × Nat) := [(.ab, pval x.p0, 2 * d), (.wb, pval x.p1, r * (d / 16) * 12),
      (.wb, pval x.p2, f * (r / 16) * 12), (.ab, pval x.p3, maskBytes f + 4 + 4 * f)]
     (∀ pre post b off n, EngineTurn s .fetch (.sprd x) v → ranges = pre ++ (b, off, n) :: post → RangesFit v.s1 v.c m pre →
       (off % 4 ≠ 0 ∨ placeOf v.s1 v.c m b off n = none) →
       exec (.sprd x) s = .next (engineFaulted v.s1 v.c0.id m .fetch v.x .frange off 0)) ∧
     (EngineTurn s .fetch (.sprd x) v → RangesFit v.s1 v.c m ranges → touchRanges v.c m ranges v.s1 = .ready s2 →
     enginePoison s2 v.c m (ranges.take 3) = none →
     let xs := f16Row (bufRead s2 v.c m .ab (pval x.p0) (2 * d))
     let z := (List.range r).map fun j =>
       a36Decode (a36Dot xs (sxRow 2 (bufRead s2 v.c m .wb (pval x.p1 + 12 * j * (d / 16)) (12 * (d / 16)))))
     let active := (List.range f).map fun k =>
       positive (a36Decode (a36Dot z (sxRow 2 (bufRead s2 v.c m .wb (pval x.p2 + 12 * k * (r / 16)) (12 * (r / 16))))))
     let mask := (active.zipIdx.map fun y => if y.1 then 2 ^ y.2 else 0).sum
     let list := (active.zipIdx.filter fun y => y.1).map fun y => y.2
     exec (.sprd x) s = .next (engineDone (bufStore (bufStore s2 v.c m .ab (pval x.p3) (leBytes (maskBytes f) mask)) v.c m .ab
       (pval x.p3 + maskBytes f) (leBytes 4 list.length ++ list.flatMap (leBytes 4))) v.c0.id m .fetch v.x []))) ∧
    (let d := headD x.head
     let f := headF x.head
     let h := handleOf (handleAt v.mb (x.head.toNat / 2 ^ 22 % 64))
     let ranges : List (Buf × Nat × Nat) := [(.ab, pval x.p0, 2 * d), (.ab, pval x.p1, maskBytes f), (.ab, pval x.p2, 4 + 4 * f)]
     ∀ l, EngineTurn s .fetch (.schk x) v → RangesFit v.s1 v.c m ranges → h.kind = 0 → h.dir = 0 → h.count ≠ 0 →
     touchRanges v.c m ranges v.s1 = .ready s2 → enginePoison s2 v.c m (ranges.take 2) = none →
     schkRows s2 v.c port h d (f16Row (bufRead s2 v.c m .ab (pval x.p0) (2 * d))) (leNat (bufRead s2 v.c m .ab (pval x.p1) (maskBytes f)))
       (FVal.decode fmtF16 v.x.e.beta.toNat) f 0 [] = .ok l →
     exec (.schk x) s = .next (engineDone (answerVote (bufStore s2 v.c m .ab (pval x.p2)
       (leBytes 4 l.length ++ l.reverse.flatMap (leBytes 4))) v.c.id v.x.e.esn.toNat l.length) v.c0.id m .fetch v.x [])) ∧
    (let f := headF x.head
     let d := headD x.head
     let n := x.head.toNat / 2 ^ 22 % 64
     let h := handleOf (handleAt v.mb n)
     let ranges : List (Buf × Nat × Nat) := [(.ab, pval x.p0, 2 * d), (.ab, pval x.p1, maskBytes f), (.ab, pval x.p2, 4 + 4 * f)]
     (∀ pre post b off len, EngineTurn s .fetch (.schk x) v → ranges = pre ++ (b, off, len) :: post → RangesFit v.s1 v.c m pre →
       (off % 4 ≠ 0 ∨ placeOf v.s1 v.c m b off len = none) →
       exec (.schk x) s = .next (engineFaulted (failVote v.s1 v.c.id v.x.e.esn) v.c0.id m .fetch v.x .frange off 0)) ∧
     (EngineTurn s .fetch (.schk x) v → RangesFit v.s1 v.c m ranges → (h.kind ≠ 0 ∨ h.dir ≠ 0 ∨ h.count = 0) →
       exec (.schk x) s = .next (engineFaulted (failVote v.s1 v.c.id v.x.e.esn) v.c0.id m .fetch v.x .hdlbad n 0)))) ∧
  (∀ (s : State) (c : Ctx) (port : ReadPort) (p q : StreamPos) (a b : List Nat), p.val = false → q.val = false →
    p.cur = 0 → q.cur = 0 → p.len = a.length → q.len = b.length → a.Pairwise (· < ·) → b.Pairwise (· < ·) →
    (∀ k, k < a.length → fetchRead s c port (p.base + k * 4) 4 = .ok (leBytes 4 (a.getD k 0))) →
    (∀ k, k < b.length → fetchRead s c port (q.base + k * 4) 4 = .ok (leBytes 4 (b.getD k 0))) →
    (∀ k ∈ a ++ b, k < 2 ^ 32) →
    let r := mergeWalk s c port .isec (a.length + b.length) p q (a.length + b.length + 1) ⟨0, 0, none, none, [], 0⟩
    r.2 = none ∧ r.1.out.reverse.map (fun y => y.1) = a.filter (fun k => b.contains k))

/-- R149, R151, R162, R168, R169, R170, R171, R172, R180-R186, R188, R190, R385-R388: the commands of the matrix array act on the planes, the scales, the flags,
the latches and on CB; a bad operand is MRANGE with its value in TADDR, metadata out of order MDFMT with the lowest such register and the
lanes. What MMA and MMAS leave in the latches are free values (log 77). A command whose inputs were written while it waited leaves
unspecified bytes, which are free values (log 10), and matrix commands wait at a lent range (log 63). Each column of each row is one cell,
with the scales of its row and column: an SX cell adds one exact block product after another, an INT8 cell its products one by one and stops at
the ends of 36 bits, an F16 or BF16 cell one exact product after another; MMAS puts the four kept elements of a group of eight where the
metadata says and zeros elsewhere. -/
def Obligations.MatrixCommands : Prop :=
  (∀ (s s2 : State) (v : EngineView) (x : EForm),
    let m := s.hand.member
    let done' := fun s2 => engineDone s2 v.c0.id m .matrix v.x []
    (∀ n, tileBytes x.fn.toNat = n → EngineTurn s .matrix (.mldw x) v →
      (pval x.p0 % 4 ≠ 0 ∨ placeOf v.s1 v.c m .wb (pval x.p0) n = none →
        exec (.mldw x) s = .next (engineFaulted v.s1 v.c0.id m .matrix v.x .mrange (pval x.p0) 0)) ∧
      (pval x.p0 % 4 = 0 → (placeOf v.s1 v.c m .wb (pval x.p0) n).isSome = true → v.x.held = false →
        MatrixClear v.s1 v.c m v.mb (.mldw x) s2 →
        exec (.mldw x) s = .next (done' (updBank s2 v.c.id m fun b =>
          { b with shadow := ⟨x.fn.toNat + 1, bufRead s2 v.c m .wb (pval x.p0) n⟩ })))) ∧
    (EngineTurn s .matrix (.mswp x) v → MatrixClear v.s1 v.c m v.mb (.mswp x) s2 →
      exec (.mswp x) s = .next (done' (updBank s2 v.c.id m fun b => { b with active := b.shadow, shadow := b.active }))) ∧
    (EngineTurn s .matrix (.mclr x) v → MatrixClear v.s1 v.c m v.mb (.mclr x) s2 →
      exec (.mclr x) s = .next (done' (updBank s2 v.c.id m fun b => { b with flags := 0, sums := none }))) ∧
    (EngineTurn s .matrix (.mscl x) v → (pval x.p0 % 4 ≠ 0 ∨ placeOf v.s1 v.c m .wb (pval x.p0) 512 = none) →
      exec (.mscl x) s = .next (engineFaulted v.s1 v.c0.id m .matrix v.x .mrange (pval x.p0) 0)) ∧
    (EngineTurn s .matrix (.mscl x) v → pval x.p0 % 4 = 0 → (placeOf v.s1 v.c m .wb (pval x.p0) 512).isSome = true →
      MatrixClear v.s1 v.c m v.mb (.mscl x) s2 →
      let scales := (List.range 256).map fun k =>
        BitVec.ofNat 16 (leNat (((bufRead s2 v.c m .wb (pval x.p0) 512).drop (2 * k)).take 2))
      exec (.mscl x) s = .next (done' (updBank s2 v.c.id m fun b =>
        if x.fn = 0 then { b with rowScale := scales } else { b with colScale := scales }))) ∧
    (∀ (z : State) (c : Ctx) (m : Nat) (mb : Member) (i : Instr), i = .mma x ∨ i = .mmas x →
      let a0 := pval x.p0
      let c0 := pval x.p1
      let rows := pval x.p2
      let rowBytes := if i = .mma x then [128, 192, 288, 256, 512, 512].getD x.fn.toNat 0 else [0, 384, 576, 512].getD x.fn.toNat 0
      let d := if pval x.p3 = 0 then rowBytes else pval x.p3
      mmaCheck z c m mb i x = if a0 % 4 ≠ 0 then some a0 else if c0 % 8 ≠ 0 then some c0
        else if rows < 1 ∨ 768 < rows then some rows else if d < rowBytes then some (pval x.p3)
        else if placeOf z c m .ab a0 ((rows - 1) * d + rowBytes) = none then some a0
        else if placeOf z c m .cb c0 (rows * 2048) = none then some c0
        else if mb.bank.active.code ≠ x.fn.toNat + 1 then some (2 ^ 63 + mb.bank.active.code) else none) ∧
    (∀ (i : Instr) (md : Option (List Lanes)), (i = .mma x ∧ md = none) ∨ (i = .mmas x ∧ md = some v.x.copied) →
      EngineTurn s .matrix i v →
      (∀ a, mmaCheck v.s1 v.c m v.mb i x = some a →
        exec i s = .next (engineFaulted v.s1 v.c0.id m .matrix v.x .mrange a 0)) ∧
      (∀ (regs : List Lanes) (k : Nat) (mask : LaneMask), mmaCheck v.s1 v.c m v.mb i x = none → v.x.spoiled = none → md = some regs →
        let unordered := fun (w : Nat) => ∃ h, h < 2 ∧ ∃ q, q < 3 ∧ w / 2 ^ (16 * h) / 8 ^ (q + 1) % 8 ≤ w / 2 ^ (16 * h) / 8 ^ q % 8
        let bad := fun (r : Lanes) (l : Nat) => l < 64 ∧ unordered (r.get l).toNat
        (∃ r, regs[k]? = some r ∧ ∃ l, bad r l) → (∀ j r, j < k → regs[j]? = some r → ∀ l, ¬bad r l) →
        (∀ l, l < 64 → (mask.getLsbD l = true ↔ ∃ r ∈ regs, bad r l)) →
        exec i s = .next (engineFaulted v.s1 v.c0.id m .matrix v.x .mdfmt ((x.head.extractLsb' 8 8).toNat + k) mask)) ∧
      (mmaCheck v.s1 v.c m v.mb i x = none → v.x.spoiled = none → md.bind metaBad = none →
        v.x.held = false → MatrixClear v.s1 v.c m v.mb i s2 →
        let cb := pval x.p1
        let rows := pval x.p2
        let d := if pval x.p3 = 0 then matrixRow i else pval x.p3
        let acts := (List.range rows).map fun r => bufRead s2 v.c m .ab (pval x.p0 + r * d) (matrixRow i)
        let old := bufRead s2 v.c m .cb cb (rows * 2048)
        let accs := if x.head.getLsbD 1 then [] else (List.range (rows * 256)).map fun k => leNat ((old.drop (8 * k)).take 8) % 2 ^ 36
        let r := matrixRows x.fn.toNat md v.mb.bank acts accs
        let s3 := bump (updBank (bufWrite s2 v.c m .cb cb r.1) v.c.id m fun b =>
          { b with flags := b.flags ||| r.2, sums := some s2.free,
                   hazards := mapIf (fun h => h.seq == v.x.e.seq) (fun h => { h with old := some old }) b.hazards })
        exec i s = .next (done' (if (v.mb.bank.hazards.any fun h => h.seq == v.x.e.seq && h.tainted) = true
          then scramble s3 v.c m ⟨.buf .cb, cb, rows * 2048⟩ else s3))))) ∧
  (∀ (fn : Nat) (md : Option (List Lanes)) (b : Bank) (acts : List (List Byte)) (accs : List Nat),
    let cell := fun (r n : Nat) => matrixCell fn md b.active.tile (acts.getD r []) (accs.getD (r * 256 + n) 0)
      (b.rowScale.getD (r % 256) 0) (b.colScale.getD n 0) n
    let out := matrixRows fn md b acts accs
    out.1.length = acts.length * 2048 ∧ ∀ n, n < 256 →
      (∀ r, r < acts.length → leNat ((out.1.drop (r * 2048 + 8 * n)).take 8) = (cell r n).1 % 2 ^ 64) ∧
      (out.2.getLsbD n = true ↔ ∃ r, r < acts.length ∧ (cell r n).2 = true)) ∧
  (∀ (tile act : List Byte) (md : Option (List Lanes)) (acc : Nat) (rs cs : BitVec 16) (n : Nat), acc < 2 ^ 36 → n < 256 →
    tile.length = 65536 →
    let start : Int := if acc < 2 ^ 35 then acc else (acc : Int) - 2 ^ 36
    let weight := fun k => match md with
      | none => tile.getD (k * 256 + n) 0
      | some regs => BitVec.ofNat 8 (sparseElem tile regs k n)
    let last := if md.isSome then 512 else 256
    let partialSum := fun j => start + ((List.range j).map fun k => (act.getD k 0).toInt * (weight k).toInt).sum
    let r := matrixCell 3 md tile act acc rs cs n
    (∀ j, j ≤ last → -2 ^ 35 ≤ partialSum j ∧ partialSum j < 2 ^ 35) →
      r.2 = false ∧ (if r.1 < 2 ^ 35 then (r.1 : Int) else (r.1 : Int) - 2 ^ 36) = partialSum last) ∧
  (∀ (tile act : List Byte) (md : Option (List Lanes)) (acc fn width n : Nat) (rs cs : BitVec 16), (fn, width) ∈ [(0, 2), (1, 4), (2, 7)] →
    let size := 2 + 2 * (width + 1)
    let block := fun (l : List Byte) (j : Nat) => matBlock width ((l.drop (j * size)).take size)
    let weight := fun j => match md with
      | none => block tile (j * 256 + n)
      | some regs => sparseBlock fn tile regs j n
    matrixCell fn md tile act acc rs cs n = ((List.range (if md.isSome then 32 else 16)).foldl (fun acc j =>
      a36Add acc (a36Decode (blockProduct width (block act j) (weight j) rs cs))) acc, false)) ∧
  (∀ (tile act : List Byte) (acc n : Nat) (rs cs : BitVec 16), ∀ x ∈ [(4, fmtF16), (5, fmtBF16)],
    let half := fun (l : List Byte) (j : Nat) => FVal.decode x.2 (leNat ((l.drop (2 * j)).take 2))
    matrixCell x.1 none tile act acc rs cs n =
      ((List.range 256).foldl (fun acc k => a36Add acc (FVal.mul (half act k) (half tile (k * 256 + n))).1) acc, false)) ∧
  (∀ (width : Nat) (bs : List Byte) (k : Nat), k < 16 →
    let field := leNat (bs.drop 2) / 2 ^ ((width + 1) * k) % 2 ^ (width + 1)
    (matBlock width bs).e = (bs.getD 0 0).toNat ∧ (matBlock width bs).elems.length = 16 ∧
      (matBlock width bs).elems[k]? = some ⟨decide (field / 2 ^ width = 1), field % 2 ^ width, (bs.getD 1 0).toNat / 4 ^ (k / 4) % 4⟩) ∧
  (∀ (width : Nat) (a w : MatBlock) (rs cs : BitVec 16), a.elems.length = 16 → w.elems.length = 16 →
    let elem := fun (b : MatBlock) (k : Nat) => b.elems.getD k ⟨false, 0, 0⟩
    let total : Int := ((List.range 16).map fun k => (if (elem a k).neg != (elem w k).neg then -1 else 1) *
      (((elem a k).m * (elem w k).m * 2 ^ ((3 - (elem a k).delta) + (3 - (elem w k).delta)) : Nat) : Int)).sum
    let nan := blockProduct width a w rs cs = 0x7FC000000
    let signed := fun (neg : Bool) (x : Nat) => (if neg then 2 ^ 35 else 0) + x
    (a.e = 255 ∨ w.e = 255 → nan) ∧
    (a.e ≠ 255 → w.e ≠ 255 → match FVal.decode fmtF16 rs.toNat, FVal.decode fmtF16 cs.toNat with
      | .nan _, _ => nan
      | _, .nan _ => nan
      | .inf i, .inf j => if total = 0 then nan else blockProduct width a w rs cs = signed (decide (total < 0) != (i != j)) (255 * 2 ^ 27)
      | .inf i, .fin j m _ => if m = 0 ∨ total = 0 then nan
        else blockProduct width a w rs cs = signed (decide (total < 0) != (i != j)) (255 * 2 ^ 27)
      | .fin i m _, .inf j => if m = 0 ∨ total = 0 then nan
        else blockProduct width a w rs cs = signed (decide (total < 0) != (i != j)) (255 * 2 ^ 27)
      | .fin i m g, .fin j k h => blockProduct width a w rs cs = if total = 0 ∨ m * k = 0 then 0
        else roundA36 (.fin (decide (total < 0) != (i != j)) (total.natAbs * (m * k))
          ((a.e : Int) + w.e - 254 - 2 * ((width : Int) - 1) - 6 + (g + h))))) ∧
  (∀ (acc : Nat) (v : FVal), match a36Decode acc, v with
    | .nan _, _ => a36Add acc v = 0x7FC000000
    | _, .nan _ => a36Add acc v = 0x7FC000000
    | .inf i, .inf j => a36Add acc v = if i = j then (if i then 2 ^ 35 else 0) + 255 * 2 ^ 27 else 0x7FC000000
    | .inf i, .fin _ _ _ => a36Add acc v = (if i then 2 ^ 35 else 0) + 255 * 2 ^ 27
    | .fin _ _ _, .inf j => a36Add acc v = (if j then 2 ^ 35 else 0) + 255 * 2 ^ 27
    | .fin i m g, .fin j k h =>
      let scaled := fun (neg : Bool) (x : Nat) (y : Int) => (if neg then -1 else 1) * ((x * 2 ^ (y - min g h).toNat : Nat) : Int)
      let z := scaled i m g + scaled j k h
      a36Add acc v = if z = 0 then (if i && j then 2 ^ 35 else 0) else roundA36 (.fin (decide (z < 0)) z.natAbs (min g h))) ∧
  (∀ (neg : Bool) (m : Nat) (e : Int), m ≠ 0 →
    let top : Int := Nat.log2 m + e
    let step := 2 ^ (top - 27 - e).toNat
    let x := m * 2 ^ (e - (top - 27)).toNat
    let q := if step < 2 * (x % step) ∨ (2 * (x % step) = step ∧ x / step % 2 = 1) then x / step + 1 else x / step
    let full := decide (q = 2 ^ 28)
    let place := if full then top + 1 else top
    roundA36 (.fin neg m e) = (if neg then 2 ^ 35 else 0) + if 127 < place then 255 * 2 ^ 27 else if place < -126 then 0
      else (place + 127).toNat * 2 ^ 27 + ((if full then 2 ^ 27 else q) - 2 ^ 27)) ∧
  (∀ (tile : List Byte) (regs : List Lanes) (fn n j k : Nat), fn < 3 → j < 32 → k < 16 → n < 256 →
    let word := fun (g : Nat) => ((regs.getD ((32 * n + g / 2) / 64) (Lanes.fill 0)).get ((32 * n + g / 2) % 64)).toNat
    let field := fun (g : Nat) => if g % 2 = 0 then word g % 4096 else word g / 65536 % 4096
    let kept := fun (g p q : Nat) => q < 4 ∧ field g / 8 ^ q % 8 = p ∧ ∀ r, r < q → field g / 8 ^ r % 8 ≠ p
    let stored := tileBlock fn tile (j / 2) n
    let out := sparseBlock fn tile regs j n
    let g := 2 * j + k / 8
    out.e = stored.e ∧ out.elems.length = 16 ∧
      (∀ q, kept g (k % 8) q → out.elems[k]? = some (stored.elems.getD (4 * (g % 4) + q) ⟨false, 0, 0⟩)) ∧
      ((∀ q, ¬kept g (k % 8) q) → (out.elems.getD k ⟨false, 1, 0⟩).m = 0) ∧
      (∀ y q, y < 512 → kept (y / 8) (y % 8) q → tile.length = 65536 →
        sparseElem tile regs y n = (tile.getD ((4 * (y / 8) + q) * 256 + n) 0).toNat) ∧
      (∀ y, y < 512 → (∀ q, ¬kept (y / 8) (y % 8) q) → sparseElem tile regs y n = 0)) ∧
  (∀ (acc : Nat) (hit : Bool) (a w : Byte), acc < 2 ^ 35 → 2 ^ 35 ≤ (acc : Int) + a.toInt * w.toInt →
    addInt8 (acc, hit) a w = (2 ^ 35 - 1, true))

/-- R185, R186, R190, R243, R347, R353, R354: MRDY releases the held commands of its tag; MWAIT and CWAIT end once no command that
they cover is in the queue, MWAIT with the flags written and cleared when its head says so; a command that has run retires, CPY with the
granules of its destination full when its head says so and it may still write them. A wait behind a fault of its queue ends with it once no
command that it covers stands before the fault; where no row is left several waits stand on a member at once (R60). Every matrix command
sets latch 1 as it ends (R376). An MWAIT whose range is lent waits and revokes nobody (log 63); commands run to their end in one transition
(log 21). -/
def Obligations.WaitsAndRetirement : Prop :=
  ∀ (s : State) (c : Ctx) (mb : Member) (x : EForm), s.ctxOf s.hand.ctx = some c → c.member s.hand.member = some mb →
    let m := s.hand.member
    let covered := fun (h : Entry) (y : Cmd) => y.e.seq < h.seq ∧ (x.tag = 0xFFFF ∨ y.tag = x.tag)
    (∀ e, handoverEntry s c m = some (mb, e, .mrdy x) → bankFor s c mb = true →
      exec (.mrdy x) s = .next { s.putCtx { (c.putMember m { mb with
          bank := { releaseHeld mb.bank x.tag with bound := true }, handed := e.seq + 1 }) with latches := c.latches ||| 2 }.settle
        with waited := false }) ∧
    (∀ h, mb.waitOf (.mwait x) = some h → c.switch = .inside → (∀ y ∈ mb.bank.queue, ¬covered h y) →
      let ended := fun s => updBank s c.id m fun b =>
        { b with hazards := b.hazards.filter fun z => !(decide (z.seq < h.seq) && (x.tag == 0xFFFF || z.tag == x.tag)) }
      let finished := fun s => { (clearHold s c.id m h).updCtx c.id (fun d => { d with latches := d.latches ||| 2 }) with waited := false }
      (x.head.getLsbD 0 = false → exec (.mwait x) s = .next (finished (ended s))) ∧
      (x.head.getLsbD 0 = true → pval x.p0 % 8 = 0 → (placeOf s c m .cb (pval x.p0) 32).isSome = true →
        (∀ s1, touchRanges c m [(.cb, pval x.p0, 32)] s ≠ .ready s1) → exec (.mwait x) s = .next { s with waited := true }) ∧
      (∀ s1, x.head.getLsbD 0 = true → c.rowsIssue = true → bankFor s c mb = true → pval x.p0 % 8 = 0 →
        (placeOf s c m .cb (pval x.p0) 32).isSome = true → touchRanges c m [(.cb, pval x.p0, 32)] s = .ready s1 →
        exec (.mwait x) s = .next (finished (bufWrite (updBank (ended s1) c.id m fun b =>
            { b with flags := 0, used := true, bound := true }) c m .cb (pval x.p0) (leBytes 32 mb.bank.flags.toNat))))) ∧
    (∀ h, mb.waitOf (.cwait x) = some h → c.switch = .inside →
      (∀ y ∈ mb.queue (if x.fn = 0 then .copy else if x.fn = 1 then .fetch else .storage), ¬covered h y) →
      exec (.cwait x) s = .next { clearHold s c.id m h with waited := false }) ∧
    (∀ i h, (i = .mwait x ∨ i = .cwait x) → mb.waitOf i = some h →
      let q := mb.queue (if i = .mwait x then .matrix else if x.fn = 0 then .copy else if x.fn = 1 then .fetch else .storage)
      (∃ z ∈ q, covered h z ∧ ∀ y tr, queueFault q = some (y, tr) → z.e.seq < y.e.seq) → exec i s = .next { s with waited := true }) ∧
    (∀ i h y tr, (i = .mwait x ∨ i = .cwait x) → mb.waitOf i = some h → c.switch = .inside → c.rowsIssue = true →
      (let q := mb.queue (if i = .mwait x then .matrix else if x.fn = 0 then .copy else if x.fn = 1 then .fetch else .storage)
       queueFault q = some (y, tr) ∧ (∃ z ∈ q, covered h z) ∧ ∀ z ∈ q, covered h z → y.e.seq ≤ z.e.seq) →
      (c.memberRows m = [] → exec i s = .next { clearHold s c.id m h with waited := false }) ∧
      (c.memberRows m ≠ [] → c.handler = false →
        exec i s = .next { s.putCtx { c with
          rows := c.rows.map fun r =>
            if r.live && r.member == m then
              { r with stop := some (y.e.seq, tr), late := none, held := none, halted := c.halting && r.halted }
            else { r with halted := c.halting && r.halted },
          halting := true } with waited := false })) ∧
    (∀ (k n : Nat) (y : Cmd) (d : Ctx) (s1 : State),
      (Retires s k n .copy y d s1 →
        exec (.cpyRetire k n) s = .next { (match y.e.item with
          | .slot (.cpy e) =>
            if e.head.getLsbD 0 && (placeOf s1 d n .ab (pval e.p0) (pval e.p2)).any (heldBy s1 d)
              then setGranules s1 d n .ab (pval e.p0) (pval e.p2) true else s1
          | _ => s1) with waited := false }) ∧
      (Retires s k n .fetch y d s1 → exec (.fetchUnitRetire k n) s = .next { s1 with waited := false }) ∧
      (∀ mn, d.member n = some mn → bankFor s d mn = true → Retires s k n .matrix y d s1 →
        exec (.matrixCommandComplete k n) s = .next { s1.updMember k n fun b => { b with bank := { b.bank with bound := true } }
          with waited := false }))

/-- R200, R310, R322, R392, R393: NSUB submits a checked command to its pair, or faults with NSUBF; a completion entry performs a read's
data, takes a write's payload as it stands at home in the copy of die 0, retires the command, waits for NPOLL and sets latch 1; a poisoned
byte of the payload stops the queue with MCHK instead. A full submission queue makes the command wait (log 44), a full completion ring the
completion, and a fenced port both (log 84); of P0 the low ten bits name the pair and of P3 the low sixteen count blocks (log 42). -/
def Obligations.StorageCommands : Prop :=
  (∀ (s : State) (v : EngineView) (x : EForm) (i : Instr), i = .nsubRead x ∨ i = .nsubWrite x ∨ i = .nsubFlush x →
    EngineTurn s .storage i v →
    let q := pval x.p0 % 1024
    let found := v.s1.pairs.find? fun p => p.num == q && p.domain == v.c.domain
    (∀ p ls, found = some p →
      let waits := p.entries ≤ p.submitted.length ∨ v.s1.portFenced p.port = true
      (if i = .nsubFlush x then ls = [] else
        let n := (pval x.p3 % 65536 + 1) * (pairLimits v.s1 p).1
        n ≤ 2 ^ 21 ∧ n ≤ (pairLimits v.s1 p).2 ∧ pval x.p2 % 4 = 0 ∧
          nsubLocs v.s1 v.c.domain (if i = .nsubRead x then .store else .load) (pval x.p2) n = .ok ls) →
      (waits → exec i s = .next { s with waited := true }) ∧
      (¬waits → exec i s = .next (engineDone { v.s1 with pairs := mapIf (fun y => y.num == p.num) (fun y =>
        { y with submitted := y.submitted ++ [{ ctx := v.c.id, tag := x.tag, kind := x.fn.extractLsb' 0 2, seq := v.x.e.seq,
                                                lba := BitVec.ofNat 64 (pval x.p1), fua := x.head.getLsbD 0, locs := ls,
                                                got := v.x.got }] }) v.s1.pairs }
        v.c0.id s.hand.member .storage v.x []))) ∧
    (∀ p, found = some p → i ≠ .nsubFlush x →
      let n := (pval x.p3 % 65536 + 1) * (pairLimits v.s1 p).1
      (2 ^ 21 < n ∨ (pairLimits v.s1 p).2 < n →
        exec i s = .next (engineFaulted v.s1 v.c0.id s.hand.member .storage v.x .crange n 0)) ∧
      (n ≤ 2 ^ 21 → n ≤ (pairLimits v.s1 p).2 → pval x.p2 % 4 ≠ 0 →
        exec i s = .next (engineFaulted v.s1 v.c0.id s.hand.member .storage v.x .crange (pval x.p2) 0))) ∧
    (found = none → exec i s = .next (engineFaulted v.s1 v.c0.id s.hand.member .storage v.x .nsubf q 0))) ∧
  (∀ (s : State) (pair k : Nat) (st : NvmeStatus) (data : List Byte) (p : NvmePair) (x : NvmeCmd) (c : Ctx) (mb : Member),
    (s.pairs.find? fun p => p.num == pair) = some p → p.submitted[k]? = some x →
    ((p.entries ≤ p.done.length ∨ s.portFenced p.port = true) → exec (.nsubRetire pair k st data) s = .next { s with waited := true }) ∧
    (p.done.length < p.entries → s.portFenced p.port = false →
    let gone := { p with submitted := p.submitted.eraseIdx k, done := p.done ++ [(x.tag, x.kind, st)] }
    let payload := x.locs.map fun l =>
      let pa := l.on 0
      match x.got.find? fun y => y.pa == pa - pa % 128 with
      | some y => y.data.getD (pa % 128) 0
      | none => Memory.read s.mem pa
    let bad := if x.kind = 1 then x.locs.findIdx? fun l => s.memPoisoned (l.on 0) else none
    let p2 := if x.kind = 1 ∧ bad = none then { gone with written := p.written ++ [(x.lba, payload)] } else gone
    let s1 := { s with pairs := mapIf (fun y => y.num == pair) (fun _ => p2) s.pairs }
    let s2 := if x.kind = 0 then s1.perform (x.locs.zip data) else s1
    s2.ctxOf x.ctx = some c → c.member 0 = some mb →
    (bad = none → exec (.nsubRetire pair k st data) s = .next { s2.putCtx
      { (c.putMember 0 { mb with storageQ := mb.storageQ.filter fun y => y.e.seq != x.seq }) with latches := c.latches ||| 2 }
      with waited := false }) ∧
    (∀ j, bad = some j → (∀ y ∈ mb.storageQ, y.e.seq = x.seq → ∃ f, y.e.item = .slot (.nsubWrite f)) →
      exec (.nsubRetire pair k st data) s = .next { s2.putCtx (c.putMember 0 { mb with
        storageQ := mapIf (fun y => y.e.seq == x.seq) (fun y => { y with st := .faulted (engineTrap y.e .mchk
          (poisonAddr 5 ((match y.e.engineCmd with | some z => pval z.2.p2 | none => 0) + j)).toNat 0) }) mb.storageQ })
        with waited := false })))

/-! ## The stream -/

/-- R54, R55, R56, R66, R71, R74, R134, R143, R302: fetch latches the decoded slot, keeps its translations (R219, log 76), and faults on
what cannot be fetched or decoded; emission gives a lane slot its ESN, substitutes it and hands it to the stream unit (a dry capture only
records it, a handler makes it an inspection slot), or takes the slot's emission fault; a replay feeds whole segments. The emission fault
of a slot that decodes is the first of these, with its value (R43, R61, R66, R79, R83, R88, R143, R302): ILLREG with the lowest register at
or above the count, INSPF, LAFLD, CARRYR with a register that is not declared, CARRYK with a distance above ROWS, VQOVF, and within a
capture CAPLEN, CAPHOLE, CAPFULL; that of several such registers or distances the first counts, va before vb, is the model's choice (log
42), and so is that a slot enters the staging whatever the vote horizon (log 78). -/
def Obligations.FetchEmissionAndReplay : Prop :=
  (∀ (c : Ctx) (i : Instr),
    let groups := i.groups ++ match i with
      | .sadv f => if (c.streamReg (f.va.toNat % 8)).val then [(f.vd.toNat + 1, 1)] else []
      | _ => []
    let tooHigh := fun (r : Nat) => c.regCount ≤ r ∧ ∃ g ∈ groups, g.1 ≤ r ∧ r < g.1 + g.2
    let carry := match i.lform with
      | some (_, f) => (f.ka, f.kb)
      | none => (CarryCode.none, CarryCode.none)
    let distance := fun (k : CarryCode) => match k with
      | .none => 0
      | .k1 => 1
      | .k2 => 2
      | .k3 => 3
      | .k4 => 4
      | .rows => c.rowCount
      | .ck1 => c.ck1.toNat
      | .ck2 => c.ck2.toNat
    let undeclared := ((if carry.1 = .none then [] else i.vaRegs) ++ if carry.2 = .none then [] else i.vbRegs).filter fun r =>
      !c.carried.contains r
    let long := [distance carry.1, distance carry.2].filter fun k => decide (c.rowCount < k)
    let kept := if c.handler then none else c.capturing
    let answers := match i with
      | .vote _ | .schk _ => true
      | _ => false
    let special := match i with
      | .vote _ | .vexit _ | .sadv _ => true
      | _ => false
    let window := match i.lform with
      | some (op, f) => f.la != 0 && !([0x18, 0x19, 0x1A, 0x1B, 0x1C, 0x1D, 0x1E, 0x1F, 0x40, 0x42, 0x44, 0x51, 0x54, 0x55].contains op)
      | none => false
    let size := if i.eform.isSome then 5 else 1
    let rest : List (Option (Cause × Nat)) :=
      [if c.handler = true ∧ (i.eform.isSome = true ∨ carry ≠ (.none, .none) ∨ special = true) then some (.inspf, 0) else none,
       if window then some (.lafld, 0) else none,
       undeclared.head?.map fun r => (.carryr, r),
       long.head?.map fun k => (.carryk, k),
       if answers = true ∧ (∀ x, kept = some x → x.dry = false) ∧ 16 ≤ c.vq.length then some (.vqovf, 0) else none,
       kept.bind fun x => if 4096 ≤ x.recs.length then some (.caplen, 0) else none,
       kept.bind fun x => if 16 < (x.recs.map fun r => (holeSites r.i).length).sum + (holeSites i).length then some (.caphole, 0) else none,
       kept.bind fun _ => if Config.backingSlots < c.backingUsed + size then some (.capfull, 0) else none]
    i.wellFormed = true →
    (∀ r, tooHigh r → (∀ r', tooHigh r' → r ≤ r') → emissionCause c i = some (.illreg, r)) ∧
    ((∀ r, ¬tooHigh r) → emissionCause c i = rest.findSome? id)) ∧
  ∀ (s : State) (k : Nat) (c : Ctx), s.ctxOf k = some c →
    (∀ mb, c.genMoves = true → c.ir = none → c.gen = .running → c.member 0 = some mb →
      (∀ bs i, fetchInstr s c (dieOf mb.cluster) c.pc = .ok bs → decodeBytes bs = .ok i →
        exec (.generatorFetch k) s = .next { (keepCode (if s.oldSlots.isEmpty then s else { s with free := s.free + 1 }) c c.pc
          (bs.length / 8)).putCtx { c with ir := some i } with waited := false }) ∧
      (∀ cause a, fetchInstr s c (dieOf mb.cluster) c.pc = .error (cause, a) → CanTrap c →
        ∃ t, exec (.generatorFetch k) s = .next t ∧ Trapped s c (genTrap c cause a) t) ∧
      (∀ bs e, fetchInstr s c (dieOf mb.cluster) c.pc = .ok bs → decodeBytes bs = .error e → CanTrap c →
        ∃ t, exec (.generatorFetch k) s = .next t ∧
          (if e = .illegal ∨ e = .truncated then Trapped s c (genTrap c .illegal 0) t
            else ∃ cause, (e, cause) ∈ [(DecodeErr.illop, Cause.illop), (.illmark, .illmark), (.illtype, .illtype), (.subbad, .subbad)] ∧
              TrapEntered s c (emitTrap c cause 0) (plainHandling (emitTrap c cause 0) (if bs.length = 40 then 5 else 1)) t))) ∧
    (∀ i, c.ir = some i → c.genMoves = true → c.gen = .running → (i.lform.isSome || i.liform.isSome || i.eform.isSome) = true →
      let len : Nat := if i.eform.isSome then 5 else 1
      (∀ cause a, emissionCause c i = some (cause, a) → CanTrap c ∨ (c.handler = true ∧ c.ended = none) →
        let tr := emitTrap c cause (BitVec.ofNat 64 a)
        ∃ t, exec (.emission k) s = .next t ∧
          (CanTrap c → TrapEntered s c tr (plainHandling tr len) t) ∧ (c.handler = true → Killed s c tr 0x20 t)) ∧
      (∀ r, emissionCause c i = none → (markedRegs i).find? (s.gPoisoned c.id) = some r → CanTrap c →
        ∃ t, exec (.emission k) s = .next t ∧ Trapped s c (genTrap c .mchk (BitVec.ofNat 64 (4 * 2 ^ 60 + r.toNat))) t) ∧
      (emissionCause c i = none → (∀ r ∈ markedRegs i, s.gPoisoned c.id r = false) →
        let past := fun c : Ctx => { c with pc := c.pc + BitVec.ofNat 64 len, ir := none }
        (c.handler = true → exec (.emission k) s = .next { s.putCtx (inspect c i) with waited := false }) ∧
        (∀ x, c.handler = false → c.capturing = some x → x.dry = true →
          exec (.emission k) s = .next { s.putCtx (past (c.recordSlot i)) with waited := false }) ∧
        (c.handler = false → (∀ x, c.capturing = some x → x.dry = false) →
          let r := c.takeStreams i
          let e : Entry := { seq := 0, esn := c.nextEsn, item := .slot (substituted c i), kA := carryDistance c (carryCodes i).1,
                             kB := carryDistance c (carryCodes i).2, streams := r.1, beta := c.beta, budget := c.rmax, pc := c.pc,
                             key := c.key }
          let c1 := { r.2 with vq := r.2.vq ++ ((voteKind i).map fun v => newVote c c.nextEsn v).toList,
                               nextEsn := esnNext c.nextEsn, emitCount := c.emitCount + 1 }
          let c2 := if c.capturing.isSome then c1.recordSlot i else c1
          ∀ c3, Accepted (past c2) e c3 → exec (.emission k) s = .next { s.putCtx c3 with waited := false }))) ∧
    (∀ e rest, c.rowsMove = true → c.intake = .entry e :: rest → c.canPush e = true →
      exec (.replaySegmentFeed k) s = .next { s.putCtx ({ c with intake := rest }.push e) with waited := false }) ∧
    (∀ r rest, c.rowsMove = true → c.intake = .replay r :: rest →
      let es := segmentEntries r
      let engines := (es.filter Entry.isEngine).length
      c.roomFor (es.length - engines) engines = true → (∀ e ∈ es, c.horizonOk e.esn = true) →
      exec (.replaySegmentFeed k) s = .next { s.putCtx { (es.foldl Ctx.push c) with
        intake := if r.recs.length ≤ Config.segment * (r.segment + 1) then rest
          else .replay { r with segment := r.segment + 1 } :: rest }.settle with waited := false })

/-- R59, R60, R181, R185, R186, R210, R246, R353, R392, R393: the hand-over of an engine command: it enters its engine's queue with
its scoreboard entry and the registers copied from the member's first row; MWAIT and CWAIT hold the rows; an NSUB retires at
hand-over everywhere but on the leader. The order of hand-overs behind markers is the model's choice (log 58); that several
waits stand on a member without rows is R60. The bound on the copies and fetches that may stand queued is log 21. -/
def Obligations.EngineHandover : Prop :=
  ∀ (s : State) (k m : Nat) (c : Ctx) (mb : Member) (e : Entry) (i : Instr), s.ctxOf k = some c →
    handoverEntry s c m = some (mb, e, i) →
    (∀ g, engineOf i = some g → ¬(g = .storage ∧ m ≠ 0) → queueRoom mb g i = true → (g = .matrix → bankFor s c mb = true) →
      let b := boardEntry s c m e i
      (b = none ∨ boardUsed s mb.cluster < Config.scoreboard) →
      let r := copiedRegs s c m i
      let cmd : Cmd := { e := e, copied := r.1, held := isHeld i, st := .queued, spoiled := r.2.map fun n => (poisonAddr 0 n).toNat }
      let mb1 := { mb.setQueue g (mb.queue g ++ [cmd]) with board := mb.board ++ b.toList, handed := e.seq + 1 }
      let mb2 := if g = .matrix then { mb1 with bank := { mb1.bank with
        bound := true, used := true, hazards := if isHeld i then mb1.bank.hazards else mb1.bank.hazards ++ [newHazard e i] } } else mb1
      exec (.engineHandover k m) s = .next { s.putCtx (c.putMember m mb2).settle with waited := false }) ∧
    (engineOf i = some .storage → m ≠ 0 →
      exec (.engineHandover k m) s = .next { s.putCtx { (c.putMember m { mb with handed := e.seq + 1 }) with
        latches := c.latches ||| 2 }.settle with waited := false }) ∧
    (∀ x, i = .mwait x → bankFor s c mb = true →
      exec (.engineHandover k m) s = .next { s.putCtx (c.putMember m { mb with
        holds := mb.holds ++ [e], handed := e.seq + 1, bank := { mb.bank with bound := true } }).settle with waited := false }) ∧
    (∀ x, i = .cwait x →
      exec (.engineHandover k m) s =
        .next { s.putCtx (c.putMember m { mb with holds := mb.holds ++ [e], handed := e.seq + 1 }).settle with waited := false })

/-- R49, R63, R222, R224, R227, R284, R338, R344, R345, R355, R395: what a marker does when its turn comes: FENCE and BAR drain and drop
the view once every drained line is acknowledged as their scope asks, and until then only the drain is made; PHASE does what it names, TSET
sets the granule on every member, CDEF installs the default or raises a poisoned word; a carry is sent to the next member. Which lines a
scope waits for, of the context's own, is the model's choice where it meets regions 0x1 and 0x2 (logs 50, 62), and so is that the read of a CDEF waits behind
lines at a port (log 62) and that lines which wait for their place in a Monochrome group are waited for by nobody else (log 65); the order
of markers is log 58, the order of the registers of one carry log 72. -/
def Obligations.MarkersTakeEffect : Prop :=
  (∀ (s : State) (k : Nat) (c : Ctx) (a : MarkerAt), MarkerTurn s k c a →
    let c1 := c.dropMarker a
    let d := drainCtx s c1
    let acks := fun (s : State) (sc : Scope) => (sc = .system → ∀ x ∈ s.accepted, x.owner = k → x.place.isSome = true) ∧
      (sc = .domain → s.deviceNumber ≠ none → ∀ x ∈ s.accepted, x.owner = k → x.place.isSome = true ∨ x.region ≠ 2)
    let ordered := fun (i : Instr) (sc : Scope) =>
      (acks d.1 sc → exec i s = .next { d.1.putCtx d.2.dropView with waited := false }) ∧
      (¬acks d.1 sc → (∃ mb ∈ c.members, mb.psb ≠ []) →
        exec i s = .next { (drainCtx s c).1.putCtx (drainCtx s c).2 with waited := false }) ∧
      (¬acks d.1 sc → (∀ mb ∈ c.members, mb.psb = []) → exec i s = .next { s with waited := true })
    (∀ sc, a.marker = .fence sc → ordered (.fenceMarker k) sc) ∧
    (a.marker = .fenceX → ordered (.fenceMarker k) .device) ∧
    (∀ sc, (∃ e, a = .channel e (.bar sc)) ∨ (∃ e, a = .stream e (.bar sc) ∧ c.enginesBusy e.seq = false) → ordered (.barMarker k) sc) ∧
    (∀ e sc, a = .stream e (.bar sc) → c.enginesBusy e.seq = true → exec (.barMarker k) s = .next { s with waited := true }) ∧
    (∀ rel acq, a.marker = .phase rel acq →
      let s1 := if rel then d.1 else s
      let c2 := if rel then d.2 else c1
      exec (.phaseMarker k) s = .next { s1.putCtx (if acq then c2.dropView else c2) with waited := false }) ∧
    (∀ b full off s1, a.marker = .tset b full off →
      setOnMembers (s.putCtx c1) c1 (feBuf b) full off (List.range c1.members.length) = some s1 →
      exec (.tsetMarker k) s = .next { s1 with waited := false }) ∧
    (∀ e x v l, a = .stream e (.cdef x false v l) →
      exec (.cdefMarker k) s = .next { s.putCtx { c1 with defaults := c1.defaults.map fun y =>
        if y.1 == x then (y.1, Lanes.fill (v.truncate 32)) else y } with waited := false }) ∧
    (∀ e x v l mb, a = .stream e (.cdef x true v l) → c.member 0 = some mb →
      let overlaid := fun (y : GLoc) => ((mb.psb.find? fun p => p.loc == y.line).bind fun p => p.data.getD (y.pa % 128) none).isSome
      let bad := fun (y : GLoc) => overlaid y = false ∧ s.memPoisoned (y.on (dieOf mb.cluster)) = true
      ((∀ y ∈ l, ¬bad y) → portBusy s l = true → exec (.cdefMarker k) s = .next { s with waited := true }) ∧
      ((∀ y ∈ l, ¬bad y) → portBusy s l = false →
        let r := loadBytes s.mem mb l
        let c2 := c1.putMember 0 r.2
        exec (.cdefMarker k) s = .next { s.putCtx { c2 with defaults := c2.defaults.map fun y =>
          if y.1 == x then (y.1, Lanes.build fun n => BitVec.ofNat 32 (leNat ((r.1.drop (4 * n)).take 4))) else y }
          with waited := false }) ∧
      (∀ y j, l[j]? = some y → bad y → (∀ j' z, j' < j → l[j']? = some z → ¬bad z) → c.halting = false → CanTrap c →
        let tr := genTrap c .mchk (poisonAddr 5 (v.toNat + j))
        ∃ t, exec (.cdefMarker k) s = .next t ∧ TrapEntered s c tr
          { trap := tr, row := none, eng := none, marker := true, afterExit := c.exited, resume := c.pc, skipLen := 0 } t))) ∧
  (∀ (s : State) (k m : Nat) (c : Ctx) (mb : Member) (n : Need) (v : Lanes × LaneMask), s.ctxOf k = some c →
    c.member (m + 1) = some mb → ((c.stream.flatMap (needsOf c m)).find? fun n => !n.sent mb.inbox) = some n →
    n.value s c = some v → c.rowsMove = true → mb.inbox.length < Config.inboxDepth →
    exec (.carrySend k m) s = .next { s.putCtx { (c.putMember (m + 1) { mb with inbox := mb.inbox ++
        [{ seq := n.e.seq, consumer := n.consumer, operandB := n.operandB, reg := n.reg, lanes := v.1, bad := v.2 }] }) with
      kept := c.kept.filter fun y => !(y.seq == n.e.seq && y.item == n.consumer && y.operandB == n.operandB && y.reg == n.reg) }
      with waited := false })

/-! ## Traps and the end of a dispatch -/

/-- R298, R299, R301, R305, R308: once every row has stopped and none is within an atomic, the fault of lowest ESN and then of lowest item
is taken, a fault noted late among them (R85, log 45); in a handler or without trap vector it kills. After EXIT a fault of an engine that
nothing raised is taken with no lane in its mask, once no command runs and what stands before a fault waits for the scoreboard (log 80).
Faults of flag writes after EXIT follow log 37. -/
def Obligations.LaneAndEngineTraps : Prop :=
  ∀ (s : State) (k : Nat) (c : Ctx), s.ctxOf k = some c →
    (c.halting = true → c.ended = none → c.revoked = false → (c.switch = .inside ∨ c.switch = .restoring) →
      (∀ r ∈ c.rows, r.live = true → r.amo = none) →
      let stopped := c.rows.map fun r => { r with
        stop := match r.late with
          | some (seq, tr, _) => some (seq, tr)
          | none => r.stop
        late := none }
      let c1 := { c with rows := stopped }
      ((∀ r ∈ stopped, r.live = true → r.stop = none) →
        exec (.trapEntry k) s = .next { s.putCtx { c1 with halting := false } with waited := false }) ∧
      (∀ r n tr, r ∈ stopped → r.live = true → r.stop = some (n, tr) →
        (∀ q ∈ stopped, q.live = true → ∀ n' tr', q.stop = some (n', tr') → n < n' ∨ (n = n' ∧ r.item < q.item) ∨ q = r) →
        ∃ t, exec (.trapEntry k) s = .next t ∧
          (CanTrap c → TrapEntered s c1 tr
            { trap := tr, row := some r.item, eng := if tr.dom = .x then some (r.member, engineOfFault c1 r.member tr.esn) else none,
              marker := false, afterExit := c.gen == .stopped, resume := c.pc, skipLen := 0 } t) ∧
          (MustDie c → Killed s c1 tr (deathReason c) t))) ∧
    (∀ n m g tr, c.gen = .stopped → c.liveRows = [] → c.intake = [] → c.active = true → c.halting = false → c.completed = false →
      (∀ mb ∈ c.members, ∀ g : Engine, (∀ x ∈ mb.queue g, x.st ≠ .started) ∧ ∀ x ∈ turnCmds mb g false, mb.blocked x = true) →
      leastBy2 (fun x => (x.1, x.2.1)) (c.queueFaults s) = some (n, m, g, tr) → c.handler = false →
      let tr0 : Trap := { tr with mask := 0 }
      ∃ t, exec (.engineFaultAfterExit k) s = .next t ∧
        (CanTrap c → TrapEntered s c tr0
          { trap := tr0, row := none, eng := some (m, g), marker := false, afterExit := true, resume := c.pc, skipLen := 0 } t) ∧
        (c.tvec = 0 → Killed s c tr0 0x23 t))

/-- R208, R240, R268, R290, R307: a context with nothing left to run drains its buffers (in the order of R290, log 65), waits until every line
of it has been performed and writes its completion record, with its lendable ranges its own again: STATUS with the reason, the flags of its rows, RETIRED, CYCLE, REALTIME, TCAUSE and TESN of
what ended it. What RETIRED counts on a member whose rows have not all retired is the model's reading (log 46); a record that does not
translate is dropped (log 25), and a line whose port has lost every link stays there and the record waits for it (log 84). What +24 and
+32 hold under Monochrome mode and behind a kill is log 25. -/
def Obligations.DispatchCompletion : Prop :=
  ∀ (s : State) (k : Nat) (c : Ctx), s.ctxOf k = some c → c.over = true →
    let d := drainCtx s c
    let linked := fun (r : Nat) => (r ≠ 1 ∨ s.fenced.ucie ≠ BitVec.allOnes 8) ∧ (r ≠ 2 ∨ s.fenced.ranoc ≠ BitVec.allOnes 16)
    let moves := fun (a : Accepted) => a.place = none ∧ linked a.region
    let s0 : State := { ((d.1.accepted.filter fun a => decide (moves a)).foldl (fun s a => s.perform a.bytes) d.1) with
      accepted := d.1.accepted.filter fun a => !decide (moves a) }
    let s1 := s0.putCtx { d.2 with completed := true, members := d.2.members.map fun mb => { mb with
      lends := mb.lends.map fun l => { l with st := .untouched } } }
    let owed := ∃ a ∈ s0.accepted, a.owner = c.id
    let words : List DWord := [(match d.2.ended with
        | none => 0
        | some e => e.status.zeroExtend 64 ||| (e.reason.zeroExtend 64 <<< 8)),
      (d.2.rows.foldl (fun f r => f ||| r.flags) (0 : BitVec 8)).zeroExtend 64, BitVec.ofNat 64 d.2.retiredSum, d.2.cycle, s1.realtime,
      (d.2.ended.map fun e => e.tcause).getD 0, (d.2.ended.map fun e => e.tesn).getD 0, 0]
    (linesHeld s c = true ∨ (owed ∧ ∀ mb ∈ c.members, mb.psb = []) → exec (.dispatchCompletion k) s = .next { s with waited := true }) ∧
    (linesHeld s c = false → owed → (∃ mb ∈ c.members, mb.psb ≠ []) →
      exec (.dispatchCompletion k) s = .next { d.1.putCtx d.2 with waited := false }) ∧
    (linesHeld s c = false → ¬owed →
      (∀ locs, translateN s1 d.2.domain true .store d.2.compl.toNat 64 = .ok locs →
        exec (.dispatchCompletion k) s =
          .next { s1.perform (locs.zip (words.flatMap fun w => leBytes 8 w.toNat)) with waited := false }) ∧
      (∀ e, translateN s1 d.2.domain true .store d.2.compl.toNat 64 = .error e →
        exec (.dispatchCompletion k) s = .next { s1 with waited := false }))

/-! ## Launches, switches, events -/

/-- R39, R215, R263, R265, R267, R268, R273, R280, R281: the scheduler takes a launch record: one that cannot be read is dropped and
counted (log 26), one that fails a check is refused with the reason of the first check that fails, any other waits and is placed where it
fits, once there is a permit for a message to each of its leaf controllers (log 75); FRAGWAIT is reported once. The space that a launch takes of
the ash pool is free (log 19). That COMPL may have any alignment is the model's choice (log 25), and so is that 256 bytes are read whatever
the size of the queue's records (log 83). -/
def Obligations.LaunchAndPlacement : Prop :=
  (∀ (s : State) (q : Nat) (dq : DevQueue) (d : Nat), headSlot s q = some dq → dq.consumer = .launch → dq.domain = some d →
    s.phase = .running →
    let s1 := takeHead s dq
    let refused := fun (bs : List Byte) (reason : Nat) => releaseSlot (writeRecord s1 d (BitVec.ofNat 64 (fld bs 40 8))
      [BitVec.ofNat 64 (1 + reason * 256), 0, 0, 0, s1.realtime, 0, 0, 0]) q dq.head
    (readRecord s1 (some d) (dq.slotAddr dq.head) 256 = none →
      exec (.launch q) s = .next { releaseSlot (countError s1 q) q dq.head with waited := false }) ∧
    (∀ bs, readRecord s1 (some d) (dq.slotAddr dq.head) 256 = some bs →
      (launchKernel s1 d bs = none → exec (.launch q) s = .next { refused bs 0x07 with waited := false }) ∧
      (∀ k, launchKernel s1 d bs = some k →
        (∀ reason, launchRefusal s1 d (launchRec k bs) bs = some reason →
          exec (.launch q) s = .next { refused bs reason with waited := false }) ∧
        (launchRefusal s1 d (launchRec k bs) bs = none →
          exec (.launch q) s = .next { s1 with
            waiting := s1.waiting ++ [{ k := s1.nextId, queue := q, slot := dq.head, domain := d, rank := s1.nextRank, reported := false,
                                        params := launchRec k bs,
                                        pool := ((wholeBases s1 (launchRec k bs).gang).find? (poolOk s1 (launchRec k bs))).getD 0 }],
            nextId := s1.nextId + 1, nextRank := s1.nextRank + 1, waited := false })))) ∧
  (∀ (s : State) (d : Nat) (k : Kernel) (bs : List Byte),
    let p := launchRec k bs
    let perBlock := (p.rows + 3) / 4 * p.regs
    let rowsBad := p.rows < 1 ∨ 32 < p.rows
    let regsBad := p.regs % 8 ≠ 0 ∨ p.regs < 8 ∨ 256 < p.regs ∨ (∃ r ∈ k.carry, p.regs ≤ r) ∨ 1024 < perBlock
    let hierBad := 8 < fld bs 19 1 ∨ ∃ l, launchLevels k bs = some l ∧ ¬(1 ≤ l.length ∧ l.length ≤ 8 ∧
      (∀ x ∈ l, 1 ≤ x.1 ∧ x.1 ≤ 65535 ∧ x.2.1 ≤ 5 ∧ x.2.2 ≤ 6 ∧ x.2.1 ≤ x.2.2) ∧
      (∀ j x y, l[j]? = some x → l[j + 1]? = some y → x.2.1 ≤ y.2.1) ∧
      ((l.filter fun x => decide (x.2.1 ≤ 1)).map fun x => x.1).foldl (· * ·) 1 = p.rows)
    let revBad := k.mmrev ≠ 1 ∧ k.mmrev ≠ 2
    let ashBad := p.cls = .ash ∧ (256 < perBlock ∨ p.mono = true ∨
      (wholeBases s p.gang ≠ [] ∧ ∀ b ∈ wholeBases s p.gang, poolOk s p b = false))
    let gangBad := p.gang < 1 ∨ wholeBases s p.gang = []
    let sizeBad := fun n cap => n % 4096 ≠ 0 ∨ cap < n
    let bufBad := sizeBad p.wb 4194304 ∨ sizeBad p.ab 4194304 ∨ sizeBad p.cb 1572864 ∨
      ∃ l ∈ k.lends, (match l.1 with | Buf.wb => p.wb | .ab => p.ab | .cb => p.cb) < l.2.1 + l.2.2
    let queueBad := ∃ n, some n ∈ p.queues.toList ∧ (n = 0 ∨ ∀ x, s.queueOf n = some x → x.domain ≠ some d)
    let fieldBad := fld bs 120 8 ≠ 0 ∨ 4 < fld bs 16 1 ∨ 2 < fld bs 17 1 ∨ ∃ j, j < 8 ∧ 2 ^ 22 ≤ fld bs (80 + 4 * j) 4
    let r := launchRefusal s d p bs
    (rowsBad → r = some 0x01) ∧ (¬rowsBad → regsBad → r = some 0x02) ∧ (¬rowsBad → ¬regsBad → hierBad → r = some 0x03) ∧
    (¬rowsBad → ¬regsBad → ¬hierBad → revBad → r = some 0x04) ∧
    (¬rowsBad → ¬regsBad → ¬hierBad → ¬revBad →
      (ashBad → r = some 0x05) ∧ (¬ashBad → gangBad → r = some 0x06) ∧ (¬ashBad → ¬gangBad → bufBad → r = some 0x08) ∧
      (¬ashBad → ¬gangBad → ¬bufBad → queueBad → r = some 0x09) ∧
      (¬ashBad → ¬gangBad → ¬bufBad → ¬queueBad → fieldBad → r = some 0x0A) ∧
      (¬ashBad → ¬gangBad → ¬bufBad → ¬queueBad → ¬fieldBad → r = none))) ∧
  (∀ (s : State) (k base : Nat) (w : Waiting), (s.waiting.find? fun w => w.k == k) = some w →
    (∀ gs, w.fits s base = some gs →
      let leaves := (List.range w.params.gang).map fun m => (base + m) % 192
      let crimson := w.params.cls == .crimson
      let s1 := evictAsh { s with orders := s.orders ++ leaves.map fun l => ⟨l, crimson, .place k⟩ } w.request base w.params.gang
      (orderRoom s leaves crimson = false → exec (.launchPlacement k base) s = .next { s with waited := true }) ∧
      (orderRoom s leaves crimson = true → exec (.launchPlacement k base) s = .next { releaseSlot
        { s1 with ctxs := s1.ctxs ++ [freshCtx w base gs], waiting := s1.waiting.filter fun x => x.k != k } w.queue w.slot
        with waited := false })) ∧
    (w.fits s base = none → w.reported = false → w.base? s = none →
      exec (.launchPlacement k base) s = .next { s with
        waiting := s.waiting.map fun x => if x.k == k then { x with reported := true } else x
        links := s.links ++ [{ leaf := (base + 0) % 192, crimson := w.params.cls == .crimson, sent := false, body := .fragwait k }]
        waited := false }) ∧
    (w.fits s base = none → (w.reported = true ∨ w.base? s ≠ none) →
      exec (.launchPlacement k base) s = .next { s with waited := true }))

/-- R22, R23, R27, R46, R94, R95, R175, R205, R208, R212, R265, R266, R280: the state in which a dispatch starts. That an ash launch drops
the lendable ranges of its kernel is the model's choice (log 33). -/
def Obligations.DispatchStart : Prop :=
  ∀ (w : Waiting) (base : Nat) (gs : List (List Nat)),
    let p := w.params
    let c := freshCtx w base gs
    (c.pc = p.kernel.entry ∧ c.gen = .running ∧ c.priv = false ∧ c.handler = false ∧ c.f = 0 ∧ c.rstack = [] ∧ c.nextEsn = 1 ∧
      c.ck1 = 1 ∧ c.ck2 = 1 ∧ c.rmax = 0xFFFF ∧ c.beta = 0x7C00 ∧ c.dense = false ∧ c.cycle = 0 ∧ c.vq = [] ∧
      c.stretches = [] ∧ c.deadline = none ∧ c.latches = 0 ∧ c.stream = [] ∧ c.intake = [] ∧ c.channel = []) ∧
    (c.tvec = p.tvec ∧ c.tcause = 0 ∧ c.tesn = 0 ∧ c.taddr = 0 ∧ c.tmask = 0 ∧ c.tpc = 0 ∧ c.kbase = p.kernel.entry ∧
      c.rodata = p.kernel.rodata ∧ c.queues = p.queues ∧ c.taken = [] ∧ c.domain = w.domain ∧ c.cls = p.cls ∧ c.mono = p.mono ∧
      c.rowCount = p.rows ∧ c.regCount = p.regs ∧ c.compl = p.compl ∧ c.switch = .inside ∧ c.revoked = false ∧ c.ended = none) ∧
    (∀ n, c.loop n = 0) ∧ (∀ n, c.hole n = 0) ∧ (∀ n, n < 8 → (c.streamReg n).isOpen = false) ∧
    (∀ r, r.toNat ∉ p.kernel.params.map (fun x => x.toNat) → c.greg r = 0) ∧
    (p.kernel.params.Nodup → ∀ (j : Nat) (r : GReg) (v : DWord), p.kernel.params[j]? = some r → p.params[j]? = some v → c.greg r = if r = 0 then 0 else v) ∧
    (c.carried = p.kernel.carry ∧ c.defaults = p.kernel.carry.map (fun r => (r, Lanes.fill 0)) ∧ c.kept = []) ∧
    c.members.length = p.gang ∧
    (∀ m mb, c.members[m]? = some mb → mb.cluster = (base + m) % 192 ∧
      mb.wb.size = p.wb ∧ mb.ab.size = p.ab ∧ mb.cb.size = p.cb ∧
      (∀ b o n, Memory.readN (mb.buf b).cells o n = List.replicate n 0) ∧ (∀ b, (mb.buf b).full = 0) ∧
      mb.lends = (if p.cls = .ash then [] else p.kernel.lends.map fun l => ⟨l.1, l.2.1, l.2.2, .untouched⟩) ∧
      (∀ h ∈ mb.handles.toList, h = 0) ∧
      mb.bank.active.code = 0 ∧ mb.bank.shadow.code = 0 ∧ (∀ x ∈ mb.bank.rowScale ++ mb.bank.colScale, x = 0x3C00) ∧ mb.bank.flags = 0 ∧
      (∀ rank stage col, mb.bank.latch rank stage col = 0) ∧ mb.bank.queue = [] ∧ mb.copyQ = [] ∧ mb.fetchQ = [] ∧ mb.storageQ = [] ∧ mb.board = [] ∧ mb.holds = [] ∧
      mb.psb = [] ∧ mb.view = [] ∧ mb.early = [] ∧ mb.inbox = []) ∧
    (gs.length = p.gang → (∀ l ∈ gs, l.length = p.rows) →
      c.rows.map (fun r => r.item) = List.range (p.gang * p.rows) ∧
      ∀ r ∈ c.rows, r.member = r.item / p.rows ∧ (gs[r.member]?.bind fun l => l[r.item % p.rows]?) = some r.granule) ∧
    (∀ r ∈ c.rows, r.mask = BitVec.allOnes 64 ∧ r.flags = 0 ∧ r.retired = none ∧ r.windows = [] ∧ r.stop = none ∧
      (∀ k, r.reg k = Lanes.fill 0) ∧ (∀ k, k < 15 → r.pred k = 0) ∧ (∀ k, k < p.regs → r.tag k = .u) ∧
      ∀ l, l < 64 → r.rng.toList.getD l 0 = seedOf p.seed (r.item * 64 + l))

/-- R26, R99, R104, R192, R208, R263, R278, R281, R285, R306, R314, R317: revocation of the ash context that stands in the way of a launch
and its return, the spill of a lent range, pre-emption of the lower-ranked victims of a launch that finds no placement and its expiry,
restore of the contexts that left together, each told to the leaf controllers over their links. Where the rules leave a point open the
clauses follow the model's choice: which gangs leave together (log 49), that a set returns in one transition, each context moved by the same
distance, a multiple of 4 clusters (log 33), which commands the dump holds (log 55), which ash context stands in the way (log 66), the spill
at a switch and the wait of a return for a spill that is pending (log 24), lines of a Monochrome context at a switch (log 65), messages to several leaf controllers at once (log 75). The address
of the dump is free (log 14). -/
def Obligations.SwitchesAndRevocation : Prop :=
  ∀ (s : State) (k : Nat) (c : Ctx), s.ctxOf k = some c →
    let owes := fun (h : Nat) => ∃ d ∈ s.ctxs, ∃ mb ∈ d.members, ∃ l ∈ mb.lends, l.st = .lent h ∨ l.st = .owed h
    (c.ash = true → c.onBlocks = true → c.ended = none →
      ((∃ w ∈ s.waiting, ∃ d, nextRevoked s w = some d ∧ d.id = k) →
        exec (.revocation k) s = .next { s.putCtx { c with revoked := true } with waited := false }) ∧
      ((∀ w ∈ s.waiting, ∀ d, nextRevoked s w = some d → d.id ≠ k) → exec (.revocation k) s = .next { s with waited := true })) ∧
    (∀ w d, nextRevoked s w = some d → w.reported = true ∧ (w.params.cls = .crimson ∨ w.params.cls = .normal) ∧ d ∈ s.ctxs ∧
      d.ash = true ∧ d.onBlocks = true ∧ w.base? s = none) ∧
    (owes k → (c.revoked = true → exec (.ashResume k) s = .next { s with waited := true }) ∧
      ∀ base, c.switch = .out → exec (.restore k base) s = .next { s with waited := true }) ∧
    (∀ gs, ¬owes k → c.revoked = true → c.resident = true → c.ended = none →
      placeGang s c.request (((c.member 0).map fun m => m.cluster).getD 0) c.localsOf = some gs →
      exec (.ashResume k) s = .next { resumeEvents (s.putCtx
        { c.withGranules (((c.member 0).map fun m => m.cluster).getD 0) gs with revoked := false }) k with waited := false }) ∧
    (∀ m j mb l h, c.member m = some mb → mb.lends[j]? = some l →
      (l.st = .owed h ∨ (l.st = .lent h ∧ holderGone s h = true) →
        exec (.lentRangeSpill k m j) s = .next { spillRange s k m j l h with waited := false }) ∧
      (l.st = .lent h → holderGone s h = false → exec (.lentRangeSpill k m j) s = .next { s with waited := true })) ∧
    (∀ crimson, let l := switchSet s c
      let leaves := l.flatMap fun d => d.members.map fun mb => mb.cluster
      let s1 := l.foldl (fun s d => preemptOne s crimson d.id) (s.swapTogether l)
      ((l.any fun d => d.id == k) = true → (∀ d ∈ l, d.switchable = true) → preempts s c crimson = true →
        orderRoom s leaves crimson = true → s1 ≠ s →
        exec (.switchOut k crimson) s = .next { sendOrders s1 leaves crimson (.switchOut k) with waited := false }) ∧
      ((∃ d ∈ l, d.switchable = false) ∨ orderRoom s leaves crimson = false →
        exec (.switchOut k crimson) s = .next { s with waited := true })) ∧
    (∀ crimson, preempts s c crimson = true → ∃ w ∈ s.waiting, (crimson = true ↔ w.params.cls = .crimson) ∧ w.params.cls ≠ .ash ∧
      w.base? s = none ∧ (c.ash = false → ∃ v ∈ s.ctxs, v.id = c.id ∧ ∀ d ∈ switchSet s v,
        w.params.cls = .crimson ∧ d.cls ≠ .crimson ∨ w.params.cls = .normal ∧ d.cls ≠ .crimson ∧ d.cls ≠ .normal ∨
          w.params.cls = .bulk ∧ d.cls = .ash)) ∧
    (∀ t, c.deferred = some t → c.handler = true → c.switchable = true → 18800 ≤ (s.realtime - t).toNat →
      exec (.preemptDeferExpiry k) s = .next { startSwitch s k true with waited := false }) ∧
    (∀ t, c.deferred = some t → c.handler = false → c.switchable = true →
      exec (.preemptDeferExpiry k) s = .next { startSwitch (s.putCtx { c with deferred := none }) k false with waited := false }) ∧
    (∀ base, c.switch = .out → c.completed = false → c.ended = none → swapOpen s c = false → c.swap = none → ¬owes k →
      (∀ i, c.image = some i → imageOk i = false) →
      ∃ t c', exec (.restore k base) s = .next t ∧ t.ctxOf k = some c' ∧
        c'.ended = some ⟨2, 0x21, 0, 0⟩ ∧ (∀ r ∈ c'.rows, r.live = false) ∧ ∃ m ∈ t.links, m.body = .imgbad k) ∧
    (∀ base, c.switch = .out → c.completed = false → c.ended = none → swapOpen s c = false →
      let l := if c.swap = none then [c] else s.ctxs.filter fun d => d.swap == c.swap && d.switch == .out && !d.completed && d.ended.isNone
      let leaves := l.flatMap fun d => leavesAt (movedBase c base d) d.members.length
      let crimson := c.cls == .crimson
      let placed := placeSet (movedBase c base) l (sendOrders s leaves crimson (.restore k))
      let aligned := l.length ≤ 1 ∨ base % 4 = c.base % 4
      (∀ d ∈ l, ¬owes d.id) → (∀ d ∈ l, ∃ i, d.image = some i ∧ imageOk i = true) →
      (∀ s1, orderRoom s leaves crimson = true → aligned → placed = some s1 →
        exec (.restore k base) s = .next { l.foldl (fun s d => enterRestore s d.id) s1 with waited := false }) ∧
      (orderRoom s leaves crimson = false ∨ ¬aligned ∨ placed = none → exec (.restore k base) s = .next { s with waited := true })) ∧
    (c.switch = .rehanding → c.ended = none → exec (.restore k 0) s =
      .next (if finishRestore s k = s then { s with waited := true } else { finishRestore s k with waited := false })) ∧
    (∀ base gs i, c.switch = .out → c.completed = false → c.ended = none → c.swap = none → ¬owes k → c.image = some i → imageOk i = true →
      base < 192 → orderRoom s (leavesAt base c.members.length) (c.cls == .crimson) = true →
      let s0 := sendOrders s (leavesAt base c.members.length) (c.cls == .crimson) (.restore k)
      placeGang s0 c.request base c.localsOf = some gs →
      let s1 := evictAsh s0 c.request base c.members.length
      let c1 := { ((c.withGranules base gs).sameHandles.rebound s1).dropView with switch := .restoring, image := none }
      (c.tvec = 0 ∨ c.handler = true →
        exec (.restore k base) s = .next { continueRestore (s1.putCtx c1) k with waited := false }) ∧
      (CanTrap c → ∃ t, exec (.restore k base) s = .next t ∧ t.waited = false ∧
        ∃ c', t.ctxOf k = some c' ∧ c'.priv = true ∧ c'.handler = true ∧ c'.pc = c.tvec ∧ c'.switch = .restoring ∧
          c'.tpc = c.pc ∧ c'.taddr = Config.dumpAddress k c1.base ∧ c'.members = c1.members ∧
          c'.tcause = ({ cause := .restore, dom := .g, addr := Config.dumpAddress k c1.base, pc := c.pc } : Trap).word))

/-- R305, R311, R312: TIMER is raised once CYCLE has reached a multiple of the slice of the context's class, which Crimson has not,
DEADLINE once REALTIME has reached it, with what they put into TADDR; a handler makes them wait, a context without trap vector or stopped
does not hear them; latch 2 is set by a deadline. When an event waits or is dropped follows log 47, time log 7. -/
def Obligations.TimerAndDeadline : Prop :=
  ∀ (s : State) (k : Nat) (c : Ctx), s.ctxOf k = some c →
    (∀ slice, c.cls = .crimson → exec (.timer k slice) s = .next { s with waited := true }) ∧
    (c.resident = true → c.ended = none → c.halting = false →
    (∀ slice, ((c.cls = .normal ∧ slice = s.slices.normal) ∨ (c.cls = .bulk ∧ slice = s.slices.bulk) ∨
        (c.cls = .ash ∧ slice = s.slices.ash)) → slice ≠ 0 → c.lastTimer.toNat / slice < c.cycle.toNat / slice →
      let c1 := { c with lastTimer := c.cycle }
      let v : DWord := BitVec.ofNat 64 (c.cycle.toNat / slice * slice)
      (c.handler = true → exec (.timer k slice) s =
        .next { s.putCtx { c1 with timerWaits := some (c.timerWaits.getD v) } with waited := false }) ∧
      (c.handler = false → (c.tvec = 0 ∨ c.gen = .stopped) → exec (.timer k slice) s = .next { s.putCtx c1 with waited := false }) ∧
      (CanTrap c → c.gen ≠ .stopped → (c.revoked = true ∨ c.switch ≠ .inside) →
        exec (.timer k slice) s = .next { s.putCtx { c1 with timerWaits := some v } with waited := false }) ∧
      (CanTrap c → c.gen ≠ .stopped → c.revoked = false → c.switch = .inside →
        let tr : Trap := { cause := .timer, dom := .g, addr := v, pc := c.pc }
        ∃ t, exec (.timer k slice) s = .next t ∧ TrapEntered s c1 tr (plainHandling tr 0) t)) ∧
    (∀ d, c.deadline = some d → d.toNat ≤ s.realtime.toNat →
      let c1 := { c with deadline := none, latches := c.latches ||| 4 }
      let asleep := ∃ m : BitVec 3, c.gen = .sleepEvent m ∧ m.getLsbD 2 = true
      (asleep → exec (.deadline k) s = .next { s.putCtx c1 with waited := false }) ∧
      (¬asleep → c.handler = true →
        exec (.deadline k) s = .next { s.putCtx { c1 with deadlineWaits := some d } with waited := false }) ∧
      (¬asleep → c.handler = false → (c.tvec = 0 ∨ c.gen = .stopped) →
        exec (.deadline k) s = .next { s.putCtx c1 with waited := false }) ∧
      (¬asleep → CanTrap c → c.gen ≠ .stopped → (c.revoked = true ∨ c.switch ≠ .inside) →
        exec (.deadline k) s = .next { s.putCtx { c1 with deadlineWaits := some d } with waited := false }) ∧
      (¬asleep → CanTrap c → c.gen ≠ .stopped → c.revoked = false → c.switch = .inside →
        let tr : Trap := { cause := .deadline, dom := .g, addr := d, pc := c.pc }
        ∃ t, exec (.deadline k) s = .next t ∧ TrapEntered s c1 tr (plainHandling tr 0) t)))

/-! ## Control records and outside accesses -/

/-- R196, R218, R269, R275, R276, R277, R292, R293, R321: what each control record does once its checks hold, and the result it
reports. PATCH refuses with CTLPATCHREF when an address of a context would be stranded, else it remaps the parked contexts, performs
the new slots, discards what was fetched from the range and issues a shootdown of its pages; its result, the number of contexts, is
reported once that is acknowledged (log 87). NVMEFREE of a pair with a command that
has not retired is CTLBUSY, NVMEPAIR of a fenced port CTLBAD (log 84). The completion record of a shootdown is written when it is acknowledged, also when its queue has been disabled
meanwhile, and a disable of queue 0 that waited for it takes effect then (R320). The model's choices: the order of the checks
(log 34), which records of R269 and R276 are malformed and which of them report through COMPL (log 52), the wait of a shootdown (log 27),
the PCs of a patch (log 29). -/
def Obligations.ControlRecords : Prop :=
  ((∀ (s : State) (q : Nat) (dq : DevQueue) (bs : List Byte), headSlot s q = some dq → s.phase = .running → dq.consumer = .control →
    (q = 0 → s.ctlClosing = false) → (∀ x ∈ s.shoots, x.queue ≠ q) → readRecord s dq.domain (dq.slotAddr dq.head) 128 = some bs →
    (ctlLocs (takeHead s dq) dq.domain (fld bs 8 8)).isSome = true → fld bs 0 2 = 1 →
    let refused := fun code => ctlComplete (takeHead s dq) dq.domain (fld bs 8 8) q dq.head (1 + code * 256) 0
    (dq.domain ≠ none → exec (.domcreate q) s = .next { refused 0x40 with waited := false }) ∧
    (dq.domain = none → (fld bs 8 8 % 64 ≠ 0 ∨ restZero bs [(0, 2), (8, 8), (16, 16)] = false) →
      exec (.domcreate q) s = .next { refused 0x41 with waited := false })) ∧
  (∀ (s : State) (q : Nat) (dq : DevQueue) (bs : List Byte), (fld bs 0 2 = 0 ∨ 8 < fld bs 0 2) →
    ControlRecord s q dq bs false [(16, 112)] →
    exec (.unassignedControlKind q) s =
      .next { ctlComplete (takeHead s dq) dq.domain (fld bs 8 8) q dq.head (1 + 0x41 * 256) 0 with waited := false }) ∧
  (∀ (s : State) (q : Nat) (dq : DevQueue) (bs : List Byte),
    let s1 := takeHead s dq
    let d := fld bs 16 8
    (fld bs 0 2 = 1 → ControlRecord s q dq bs true [(16, 16)] → d < 1024 → fld bs 24 8 % 4096 = 0 → fld bs 24 8 < 2 ^ 52 →
      paExists s.fenced (fld bs 24 8) = true → (∀ x ∈ s.domains, x.1 ≠ d) →
      exec (.domcreate q) s = .next (controlDone { s1 with domains := s1.domains ++ [(d, fld bs 24 8)] } dq bs q 0)) ∧
    (fld bs 0 2 = 2 → ControlRecord s q dq bs true [(16, 8)] → d < 1024 → (∃ x ∈ s.domains, x.1 = d) →
      (∀ c ∈ s.ctxs, c.domain = d → c.completed = true) → (∀ x ∈ s1.queues, x.domain ≠ some d) → (∀ p ∈ s.pairs, p.domain ≠ d) →
      exec (.domdestroy q) s = .next (controlDone { s1 with domains := s1.domains.filter fun x => x.1 != d } dq bs q 0)) ∧
    (∀ desc x, fld bs 0 2 = 3 → ControlRecord s q dq bs false [(16, 32)] → 1 ≤ d → d < 4096 → fld bs 32 8 < 1024 →
      (dq.domain = none ∨ dq.domain = some (fld bs 32 8)) → readRecord s1 dq.domain (fld bs 24 8) 32 = some desc →
      queueOf s1 d (some (fld bs 32 8)) (fld bs 40 8) desc = some x → domainExists s1 (fld bs 32 8) = true → s1.queueOf d = none →
      exec (.qenable q) s = .next (controlDone (mirrorAll { s1 with queues := s1.queues ++ [x] } x) dq bs q 0)) ∧
    (∀ x, fld bs 0 2 = 4 → ControlRecord s q dq bs false [(16, 8)] → 1 ≤ d → d < 4096 → s1.queueOf d = some x →
      (dq.domain = none ∨ x.domain = dq.domain) → x.sleepers = [] →
      (∀ c ∈ s.ctxs, c.completed = false → some d ∉ c.queues.toList) → (∀ w ∈ s.waiting, some d ∉ w.params.queues.toList) →
      exec (.qdisable q) s = .next (controlDone { s1 with queues := s1.queues.filter fun x => x.num != d } dq bs q 0)) ∧
    (fld bs 0 2 = 5 → ControlRecord s q dq bs false [(16, 24)] → d < 1024 → fld bs 24 8 % 65536 = 0 → fld bs 32 8 % 65536 = 0 →
      fld bs 24 8 + fld bs 32 8 ≤ 2 ^ 64 → (dq.domain = none ∨ dq.domain = some d) → domainExists s1 d = true →
      exec (.shootdown q) s = .next { s1 with
        shoots := s1.shoots ++ [{ k := s1.nextId, queue := q, slot := dq.head, domain := d, lo := fld bs 24 8, len := fld bs 32 8,
                                  compl := fld bs 8 8, via := dq.domain }]
        nextId := s1.nextId + 1, waited := false }) ∧
    (fld bs 0 2 = 7 → ControlRecord s q dq bs true [(16, 40)] → d < 1024 → fld bs 24 8 / 4 % 2 ^ 14 = 0 → fld bs 24 8 < 2 ^ 32 →
      2 ≤ fld bs 40 8 → fld bs 40 8 ≤ 4096 → fld bs 48 8 < 1024 → domainExists s1 (fld bs 48 8) = true →
      (∀ p ∈ s.pairs, p.num ≠ d) →
      (s.portFenced (fld bs 24 8 % 4) = true → exec (.nvmepair q) s =
        .next { ctlComplete s1 dq.domain (fld bs 8 8) q dq.head (1 + 0x41 * 256) 0 with waited := false }) ∧
      (s.portFenced (fld bs 24 8 % 4) = false → exec (.nvmepair q) s = .next (controlDone { s1 with pairs := s1.pairs ++
        [{ num := d, port := fld bs 24 8 % 4, requester := fld bs 24 8 / 2 ^ 16 % 65536, ns := fld bs 32 8, entries := fld bs 40 8,
           domain := fld bs 48 8, submitted := [], done := [] }] } dq bs q 0))) ∧
    (∀ p, fld bs 0 2 = 8 → ControlRecord s q dq bs true [(16, 8)] → d < 1024 → (s1.pairs.find? fun p => p.num == d) = some p →
      let idle := p.submitted = [] ∧ p.done = [] ∧ ∀ c ∈ s.ctxs, c.domain = p.domain → c.ended = none →
        (∀ mb ∈ c.members, ∀ x ∈ mb.storageQ, x.e.pair ≠ some p.num) ∧
        ∀ y ∈ c.dump, y.dropped = false → y.handed = false → y.cmd.e.pair ≠ some p.num
      (idle → exec (.nvmefree q) s = .next (controlDone { s1 with pairs := s1.pairs.filter fun p => p.num != d } dq bs q 0)) ∧
      (¬idle → exec (.nvmefree q) s =
        .next { ctlComplete s1 dq.domain (fld bs 8 8) q dq.head (1 + 0x42 * 256) 0 with waited := false }))) ∧
  (∀ (s : State) (k : Nat) (x : Shoot), (s.shoots.find? fun x => x.k == k) = some x →
    (accessesOver s x.domain x.lo x.len = false → exec (.shootdownAck k) s = .next { s with waited := true }) ∧
    (accessesOver s x.domain x.lo x.len = true →
      let s1 := discardRange s x.domain x.lo x.len
      let s2 := ctlComplete { s1 with shoots := s1.shoots.filter fun y => y.k != k } x.via x.compl x.queue x.slot 0 x.result
      exec (.shootdownAck k) s = .next { (if s2.ctlClosing = true ∧ ∀ y ∈ s2.shoots, y.queue ≠ 0
        then { s2 with ctlEn := false, ctlClosing := false, queues := s2.queues.filter fun x => x.num != 0 } else s2)
        with waited := false }))) ∧
  (∀ (s : State) (q : Nat) (dq : DevQueue) (bs new pairs : List Byte) (locs : List GLoc),
    let s1 := takeHead s dq
    let d := fld bs 16 4
    let count := fld bs 20 4
    let target := fld bs 24 8
    let n := fld bs 40 4
    fld bs 0 2 = 6 → ControlRecord s q dq bs false [(16, 28), (48, 8)] → d < 1024 → 1 ≤ count → count ≤ 65536 →
    fld bs 32 8 % 8 = 0 → n ≤ 4096 → fld bs 48 8 % 16 = 0 → (n = 0 → fld bs 48 8 = 0) → (dq.domain = none ∨ dq.domain = some d) →
    domainExists s1 d = true → readRecord s1 (some d) (fld bs 32 8) (8 * count) = some new →
    readRecord s1 (some d) (fld bs 48 8) (16 * n) = some pairs →
    translateN s1 d false .patch (8 * target % 2 ^ 64) (8 * count) = .ok locs →
    let map := (List.range n).map fun j => (fld pairs (16 * j) 8, fld pairs (16 * j + 8) 8)
    ((map.zip (map.drop 1)).all fun x => decide (x.1.1 ≤ x.2.1)) = true →
    let parked := s1.ctxs.filter fun c => c.domain == d && !c.completed && c.codeAddrs.any (inTarget target count)
    ((parked.any fun c => c.codeAddrs.any fun p => inTarget target count p && !(map.any fun x => x.1 == p.toNat)) = true →
      exec (.patch q) s = .next { ctlComplete s1 dq.domain (fld bs 8 8) q dq.head (1 + 0x44 * 256) 0 with waited := false }) ∧
    ((parked.any fun c => c.codeAddrs.any fun p => inTarget target count p && !(map.any fun x => x.1 == p.toNat)) = false →
      let s2 := parked.foldl (fun s c =>
        let r := unsleep s ((s.ctxOf c.id).getD c)
        r.1.putCtx (r.2.remapped (remap target count map))) s1
      let s3 := s2.perform (locs.zip new)
      let lo := 8 * target % 2 ^ 64 / 65536 * 65536
      let len := (8 * target % 2 ^ 64 % 65536 + 8 * count + 65535) / 65536 * 65536
      exec (.patch q) s = .next { s3 with
        oldSlots := s3.oldSlots.filter fun y => !inRange s3 d lo len y.1
        shoots := s3.shoots ++ [{ k := s1.nextId, queue := q, slot := dq.head, domain := d, lo := lo, len := len, compl := fld bs 8 8,
                                  via := dq.domain, result := parked.length }]
        nextId := s1.nextId + 1, waited := false }))

/-- R273: the host, over a port with a module left (log 84), reserves by a read of TICKET, which performs QRSV and returns its value, and
commits by a write of COMMIT, which performs QCMT; an invalid write is dropped and counted in ERRCNT. -/
def Obligations.HostReservesAndCommits : Prop :=
  ∀ (s : State), s.phase = .running → s.fenced.ucie ≠ BitVec.allOnes 8 →
    (∀ q, (s.queueOf q = none → exec (.ticket q) s = .next { s with hostRead := leBytes 8 (2 ^ 64 - 1), waited := false }) ∧
      ∀ dq, s.queueOf q = some dq →
        (dq.ticket < dq.size ∨ dq.ticket - dq.size ∉ dq.unreleased →
          exec (.ticket q) s = .next { s.putQueue { dq with ticket := dq.ticket + 1, unreleased := dq.unreleased ++ [dq.ticket] } with
            hostRead := leBytes 8 (BitVec.ofNat 64 dq.ticket).toNat, waited := false }) ∧
        (¬(dq.ticket < dq.size ∨ dq.ticket - dq.size ∉ dq.unreleased) →
          exec (.ticket q) s = .next { s with hostRead := leBytes 8 (2 ^ 64 - 1), waited := false })) ∧
    (∀ (q : Nat) (slot : DWord) (i : Instr), i = .commit q slot ∨ (q < 4096 ∧ i = .registerWrite (64 * q + 8) slot) →
      (∀ dq, s.queueOf q = some dq → slot.toNat < dq.ticket → dq.head ≤ slot.toNat → slot.toNat ∉ dq.committed →
        exec i s = .next { commitSlot s dq slot.toNat with waited := false }) ∧
      ((∀ dq, s.queueOf q = some dq → ¬(slot.toNat < dq.ticket ∧ dq.head ≤ slot.toNat ∧ slot.toNat ∉ dq.committed)) →
        exec i s = .next { countError s q with waited := false }))

/-- R5, R273, R320: the host's accesses to BAR0. ERRCNT clears on ones, read-only and unassigned offsets ignore writes, CTLDESC is
written while queue 0 is disabled, EN enables queue 0 from CTLDESC (a write of 1 while it is enabled is ignored, log 30), reports a bad
descriptor, and disables queue 0 once every record taken has completed. Each register reads as its content, RSV fields as zero; what the
window of a queue that is not enabled reads is log 57. -/
def Obligations.ControlWindow : Prop :=
  ∀ (s : State), s.phase = .running → s.fenced.ucie ≠ BitVec.allOnes 8 →
    (∀ (q : Nat) (v : DWord) (i : Instr), i = .errcnt q (v.truncate 32) ∨ (q < 4096 ∧ i = .registerWrite (64 * q + 16) v) →
      let cleared := s.errcnt.map fun x => if x.1 == q then (x.1, x.2 &&& ~~~(v.truncate 32)) else x
      exec i s = .next { s with errcnt := cleared.filter fun x => x.2 != 0, waited := false }) ∧
    (∀ (addr : Nat) (v : DWord), (addr < 0x40000 ∧ addr % 64 ≠ 8 ∧ addr % 64 ≠ 16) ∨
      (0x40000 ≤ addr ∧ addr ∉ [0x40000, 0x40008, 0x40010, 0x40018, 0x40020]) →
      exec (.registerWrite addr v) s = .next { s with waited := false }) ∧
    (∀ (v : DWord) (n : Nat), n < 4 → exec (.registerWrite (0x40000 + 8 * n) v) s =
      .next { s with ctlDesc := if s.ctlEn then s.ctlDesc else s.ctlDesc.setIfInBounds n v, waited := false }) ∧
    (∀ (v : DWord) (i : Instr), (i = .enEnable ∧ v = 1) ∨ (i = .enDisable ∧ v = 0) ∨ i = .registerWrite 0x40020 v →
      let desc := s.ctlDesc.toList.flatMap fun w => leBytes 8 w.toNat
      (v.getLsbD 0 = true → s.ctlEn = true → exec i s = .next { s with waited := false }) ∧
      (v.getLsbD 0 = true → s.ctlEn = false → queueOf s 0 none 0 desc = none →
        exec i s = .next { s with ctlBad := true, waited := false }) ∧
      (∀ x, v.getLsbD 0 = true → s.ctlEn = false → queueOf s 0 none 0 desc = some x →
        exec i s = .next { mirrorAll { s with ctlBad := false, ctlEn := true, queues := (s.queues.filter fun x => x.num != 0) ++ [x] } x with
          waited := false }) ∧
      (v.getLsbD 0 = false → (∀ x ∈ s.shoots, x.queue ≠ 0) → exec i s =
        .next { s with ctlEn := false, ctlClosing := false, queues := s.queues.filter fun x => x.num != 0, waited := false }) ∧
      (v.getLsbD 0 = false → (∃ x ∈ s.shoots, x.queue = 0) → exec i s = .next { s with ctlClosing := true, waited := false })) ∧
    (∀ (addr : Nat) (rest : List Input) (v : DWord), s.agenda = .registerRead addr :: rest →
      ((∃ q dq, q < 4096 ∧ s.queueOf q = some dq ∧
          ((addr = 64 * q + 8 ∧ v = dq.lastSlot) ∨ (addr = 64 * q + 24 ∧ v = BitVec.ofNat 64 dq.head))) ∨
        (∃ q, q < 4096 ∧ addr = 64 * q + 16 ∧
          v = (((s.errcnt.find? fun x => x.1 == q).map fun x => x.2).getD (0 : Word)).zeroExtend 64) ∨
        (∃ n, n < 4 ∧ addr = 0x40000 + 8 * n ∧ s.ctlDesc.toList[n]? = some v) ∨
        (addr = 0x40020 ∧ v = BitVec.ofNat 64 ((if s.ctlEn then 1 else 0) + if s.ctlBad then 2 else 0)) ∨
        (((addr < 0x40000 ∧ addr % 64 ∉ [0, 8, 16, 24]) ∨
          (0x40000 ≤ addr ∧ addr ∉ [0x40000, 0x40008, 0x40010, 0x40018, 0x40020])) ∧ v = 0)) →
      step s = .next { s with agenda := rest, hostRead := leBytes 8 v.toNat, waited := false })

/-- R18, R240, R319, R323, R324, R414: the host over CXL.mem, at the offset from the base of its window, and the peers read and write one
copy of region 0x0; a peer's atomic returns the old value and stores the new one. Bytes that cannot be reached are dropped and logged, and
read as poisoned data (log 13), among them those of a fenced stack (log 61); every other byte of memory stays. The base of the window is
an input (log 74). That host and peers wait once no module or port of theirs is left is the model's choice (log 84). -/
def Obligations.OutsideAccesses : Prop :=
  ∀ (s : State), s.phase = .running →
    let host := s.fenced.ucie ≠ BitVec.allOnes 8
    let peers := s.fenced.ranoc ≠ BitVec.allOnes 16 ∧ s.deviceNumber ≠ none
    (¬host → ∀ (a n q : Nat) (data : List Byte) (v : DWord) (e : Word),
      ∀ i ∈ [Instr.hostCxlMemRead a n, .hostCxlMemWrite a data, .ticket q, .commit q v, .errcnt q e, .enEnable, .enDisable,
        .registerWrite a v], exec i s = .next { s with waited := true }) ∧
    (∀ pa op, ¬peers → exec (.remoteAccess pa op) s = .next { s with waited := true }) ∧
    (∀ (x n : Nat) (i : Instr), (host ∧ x < 2 ^ 39 ∧ i = .hostCxlMemRead (s.hdmBase + x) n) ∨
        (peers ∧ i = .remoteAccess x (.load n)) →
      exec i s = .next { s with
        hostRead := (List.range n).map fun k => outsideByte s (x + k)
        log := if ∀ k, k < n → reachable s (x + k) = true then s.log else s.log ++ [.badRead x], waited := false } ∧
      ∀ k, k < n → reachable s (x + k) = true → s.memPoisoned (x + k) = false → outsideByte s (x + k) = Memory.read s.mem (x + k)) ∧
    (∀ (a n : Nat) (data : List Byte), a < s.hdmBase ∨ s.hdmBase + 2 ^ 39 ≤ a →
      exec (.hostCxlMemRead a n) s = .next { s with waited := true } ∧
      exec (.hostCxlMemWrite a data) s = .next { s with waited := true }) ∧
    (∀ (x : Nat) (data : List Byte) (i : Instr), (host ∧ x < 2 ^ 39 ∧ i = .hostCxlMemWrite (s.hdmBase + x) data) ∨
        (peers ∧ i = .remoteAccess x (.store data)) →
      ∃ t, exec i s = .next t ∧ t.waited = false ∧ t.ctxs = s.ctxs ∧ t.queues = s.queues ∧ t.tlb = s.tlb ∧
        t.log = (if ∀ k, k < data.length → reachable s (x + k) = true then s.log else s.log ++ [.badWrite x]) ∧
        (∀ a, ¬(x ≤ a ∧ a < x + data.length ∧ reachable s a = true) → Memory.read t.mem a = Memory.read s.mem a) ∧
        (Safety.State.Inv s → ∀ k, k < data.length → reachable s (x + k) = true → Memory.read t.mem (x + k) = data.getD k 0)) ∧
    (∀ (pa : Nat) (op : AtomicOp) (wide : Bool) (operand compare : DWord), peers →
      let n := if wide then 8 else 4
      (∀ k, k < n → reachable s (pa + k) = true) →
      let old := (List.range n).map fun k => outsideByte s (pa + k)
      let new := atomicNew op (8 * n) (leNat old) (operand.toNat % 2 ^ (8 * n)) (compare.toNat % 2 ^ (8 * n))
      exec (.remoteAccess pa (.atomic op wide operand compare)) s =
        if op = .cas ∧ leNat old ≠ compare.toNat % 2 ^ (8 * n) then .next { s with hostRead := old, waited := false }
        else .next { writeCopy s (((List.range n).map fun k => pa + k).zip (leBytes n new)) with hostRead := old, waited := false }) ∧
    (∀ (pa : Nat) (fn : BitVec 4) (ty : ElemTy) (rnd : Rnd) (operand compare : Word), peers →
      (∀ k, k < 4 → reachable s (pa + k) = true) →
      let old := (List.range 4).map fun k => outsideByte s (pa + k)
      let new := (laneAtomic fn ty rnd (leNat old) operand.toNat compare.toNat).1
      exec (.remoteAccess pa (.lane fn ty rnd operand compare)) s =
        if new = leNat old then .next { s with hostRead := old, waited := false }
        else .next { writeCopy s (((List.range 4).map fun k => pa + k).zip (leBytes 4 new)) with hostRead := old, waited := false })

/-! ## The device -/

/-- R95, R309, R323, R325-R329: reset and bring-up, the first thing that happens after reset; the reports; fencing; errors. What
bring-up finds is an input (log 4); the report of attestation follows log 12; what a reset keeps follows log 51. A running device is
first put into the state before bring-up, in which its number may be set; fencing at run time reports REPLACE. -/
def Obligations.DeviceManagement : Prop :=
  (step State.reset = exec .reset State.reset) ∧
  (∀ (s : State),
    let r := bringUp s.boot
    let signed := match s.boot.image with
      | some i => edVerify i.vendorKey i.bytes i.signature
      | none => s.boot.signatureOk
    (s.phase = .atReset → exec .reset s = .next { State.reset with
      phase := if r.2.1 = 0 then .running else .amber r.1 r.2.1, fenced := r.2.2, boot := s.boot, agenda := s.agenda, free := s.free,
      deviceNumber := s.deviceNumber }) ∧
    (s.phase ≠ .atReset → exec .reset s =
      .next { State.reset with boot := s.boot, agenda := s.agenda, free := s.free }) ∧
    (s.boot.securityOk = false → r.1 = 1 ∧ r.2.1 = 0x01) ∧
    (s.boot.securityOk = true → s.boot.fusesOk = false → r.1 = 1 ∧ r.2.1 = 0x02) ∧
    (s.boot.securityOk = true → s.boot.fusesOk = true → signed = false → r.1 = 2 ∧ r.2.1 = 0x03) ∧
    (s.boot.securityOk = true → s.boot.fusesOk = true → signed = true → s.boot.version < s.boot.rollback →
      r.1 = 2 ∧ r.2.1 = 0x04) ∧
    (s.boot.securityOk = true → s.boot.fusesOk = true → signed = true → s.boot.rollback ≤ s.boot.version →
      let f := s.boot.failing
      let tested := { f with ucie := 0, storage := 0, ranoc := 0 }
      let nothing := (∀ n, n < 192 → f.clusters.getLsbD n = true) ∨ ∀ n, n < 8 → f.hbm.getLsbD n = true
      (s.boot.skoconOk = false → r = (3, 0x05, tested)) ∧ (s.boot.skoconOk = true → nothing → r = (3, 0x06, tested)) ∧
        (s.boot.skoconOk = true → ¬nothing → r = (5, 0x00, f)))) ∧
  (∀ (s : State) (reached code : BitVec 8),
    let r := selfTestBytes s reached code
    let bit := fun (place n : Nat) => (r.getD (place + n / 8) 0).getLsbD (n % 8)
    r.length = 80 ∧ leNat (r.take 4) = 0x58564152 ∧ leNat ((r.drop 4).take 2) = 1 ∧ r[6]? = some reached ∧ r[7]? = some code ∧
      (∀ n, (8 ≤ n ∧ n < 16) ∨ n = 75 ∨ n = 78 ∨ n = 79 → r[n]? = some 0) ∧
      (∀ n, n < 192 → bit 16 n = s.fenced.clusters.getLsbD n) ∧ (∀ n, n < 256 → bit 40 n = s.fenced.slices.getLsbD n) ∧
      (∀ n, n < 8 → bit 72 n = s.fenced.hbm.getLsbD n ∧ bit 73 n = s.fenced.ucie.getLsbD n ∧ bit 74 n = s.fenced.storage.getLsbD n) ∧
      ∀ n, n < 16 → bit 76 n = s.fenced.ranoc.getLsbD n) ∧
  (∀ (s : State) (n : BitVec 10), s.phase = .atReset → exec (.deviceNumberSet n) s = .next { s with deviceNumber := some n, waited := false }) ∧
  (∀ (s : State), s.phase ≠ .atReset →
    let sc : BitVec 8 × BitVec 8 := match s.phase with
      | .amber a b => (a, b)
      | _ => (5, 0)
    exec .selfTestReport s = .next { s with log := s.log ++ [.selfTest (selfTestBytes s sc.1 sc.2)], waited := false }) ∧
  (∀ (s : State) (nonce : List Byte), s.phase = .running →
    let firmware := (s.boot.image.map fun i => i.bytes).getD (Config.firmware s.boot.version)
    exec (.attestationReport nonce) s = .next { s with
      log := s.log ++ [.attestation (edSign (s.boot.identity.getD Config.identitySeed)
        (shake256 (firmware ++ selfTestBytes s 5 0 ++ nonce) 64))], waited := false }) ∧
  (∀ (s : State) (u : FenceUnit), s.phase = .running →
    exec (.runtimeFence u) s =
      .next { killFenced { s with fenced := s.fenced.add u, log := s.log ++ [.replace] } with waited := false }) ∧
  (∀ (s : State) (die : Nat), s.phase = .running → ∃ f, exec (.criticalTemperature die) s =
      .next { killFenced { s with fenced := f, log := s.log ++ [.replace] } with waited := false } ∧ f = { s.fenced with clusters := f.clusters } ∧
    ∀ n, n < 192 → (f.clusters.getLsbD n = true ↔ s.fenced.clusters.getLsbD n = true ∨ (48 * die ≤ n ∧ n < 48 * die + 48))) ∧
  (∀ (s : State) (l : PoisonLoc), wordExists s l = true → l ∉ s.poison →
    exec (.uncorrectableError l) s = .next { s with poison := s.poison ++ [l], waited := false })
end

