-- ==== Sys2Proof/Laws/State.lean ====
section
/-!
SUPPORT. What each update of a context, of a row or of the state leaves: one lemma for a field and an update.
-/
namespace Sys2Proof.Machine

/-! ## Outcomes -/

@[simp] theorem done_eq (s : State) : done s = .next { s with waited := false } := rfl
@[simp] theorem wait_eq (s : State) : wait s = .next { s with waited := true } := rfl
theorem done_next {s t : State} (h : done s = .next t) : t = { s with waited := false } :=
  (Host.Outcome.next.inj h).symm
theorem wait_next {s t : State} (h : wait s = .next t) : t = { s with waited := true } :=
  (Host.Outcome.next.inj h).symm

/-! ## putCtx -/

@[simp] theorem putCtx_mem (s : State) (c : Ctx) : (s.putCtx c).mem = s.mem := rfl
@[simp] theorem putCtx_poison (s : State) (c : Ctx) : (s.putCtx c).poison = s.poison := rfl
@[simp] theorem putCtx_queues (s : State) (c : Ctx) : (s.putCtx c).queues = s.queues := rfl
@[simp] theorem putCtx_hand (s : State) (c : Ctx) : (s.putCtx c).hand = s.hand := rfl
@[simp] theorem putCtx_free (s : State) (c : Ctx) : (s.putCtx c).free = s.free := rfl
@[simp] theorem putCtx_realtime (s : State) (c : Ctx) : (s.putCtx c).realtime = s.realtime := rfl
@[simp] theorem putCtx_domains (s : State) (c : Ctx) : (s.putCtx c).domains = s.domains := rfl
@[simp] theorem putCtx_tlb (s : State) (c : Ctx) : (s.putCtx c).tlb = s.tlb := rfl
@[simp] theorem putCtx_pairs (s : State) (c : Ctx) : (s.putCtx c).pairs = s.pairs := rfl

@[simp] theorem putCtx_phase (s : State) (c : Ctx) : (s.putCtx c).phase = s.phase := rfl
@[simp] theorem putCtx_boot (s : State) (c : Ctx) : (s.putCtx c).boot = s.boot := rfl
@[simp] theorem putCtx_fenced (s : State) (c : Ctx) : (s.putCtx c).fenced = s.fenced := rfl
@[simp] theorem putCtx_deviceNumber (s : State) (c : Ctx) : (s.putCtx c).deviceNumber = s.deviceNumber := rfl
@[simp] theorem putCtx_codeTlb (s : State) (c : Ctx) : (s.putCtx c).codeTlb = s.codeTlb := rfl
@[simp] theorem putCtx_code (s : State) (c : Ctx) : (s.putCtx c).code = s.code := rfl
@[simp] theorem putCtx_errcnt (s : State) (c : Ctx) : (s.putCtx c).errcnt = s.errcnt := rfl
@[simp] theorem putCtx_ctlDesc (s : State) (c : Ctx) : (s.putCtx c).ctlDesc = s.ctlDesc := rfl
@[simp] theorem putCtx_ctlEn (s : State) (c : Ctx) : (s.putCtx c).ctlEn = s.ctlEn := rfl
@[simp] theorem putCtx_ctlBad (s : State) (c : Ctx) : (s.putCtx c).ctlBad = s.ctlBad := rfl
@[simp] theorem putCtx_ctlClosing (s : State) (c : Ctx) : (s.putCtx c).ctlClosing = s.ctlClosing := rfl
@[simp] theorem putCtx_hdmBase (s : State) (c : Ctx) : (s.putCtx c).hdmBase = s.hdmBase := rfl
@[simp] theorem putCtx_hostRead (s : State) (c : Ctx) : (s.putCtx c).hostRead = s.hostRead := rfl
@[simp] theorem putCtx_namespaces (s : State) (c : Ctx) : (s.putCtx c).namespaces = s.namespaces := rfl
@[simp] theorem putCtx_shoots (s : State) (c : Ctx) : (s.putCtx c).shoots = s.shoots := rfl
@[simp] theorem putCtx_waiting (s : State) (c : Ctx) : (s.putCtx c).waiting = s.waiting := rfl
@[simp] theorem putCtx_oldSlots (s : State) (c : Ctx) : (s.putCtx c).oldSlots = s.oldSlots := rfl
@[simp] theorem putCtx_log (s : State) (c : Ctx) : (s.putCtx c).log = s.log := rfl
@[simp] theorem putCtx_links (s : State) (c : Ctx) : (s.putCtx c).links = s.links := rfl
@[simp] theorem putCtx_orders (s : State) (c : Ctx) : (s.putCtx c).orders = s.orders := rfl
@[simp] theorem putCtx_accepted (s : State) (c : Ctx) : (s.putCtx c).accepted = s.accepted := rfl
@[simp] theorem putCtx_slices (s : State) (c : Ctx) : (s.putCtx c).slices = s.slices := rfl
@[simp] theorem putCtx_nextId (s : State) (c : Ctx) : (s.putCtx c).nextId = s.nextId := rfl
@[simp] theorem putCtx_nextRank (s : State) (c : Ctx) : (s.putCtx c).nextRank = s.nextRank := rfl
@[simp] theorem putCtx_agenda (s : State) (c : Ctx) : (s.putCtx c).agenda = s.agenda := rfl
@[simp] theorem putCtx_waited (s : State) (c : Ctx) : (s.putCtx c).waited = s.waited := rfl
@[simp] theorem putCtx_moves (s : State) (c : Ctx) : (s.putCtx c).moves = s.moves := rfl

theorem find_mapIf {α : Type} (key : α → Nat) (l : List α) (c : α) (j : Nat) :
    (mapIf (fun x => key x == key c) (fun _ => c) l).find? (fun x => key x == j) =
      if j = key c then (l.find? fun x => key x == j).map fun _ => c else l.find? fun x => key x == j := by
  induction l with
  | nil => simp [mapIf]
  | cons y l ih =>
    have hc : mapIf (fun x => key x == key c) (fun _ => c) (y :: l) =
        (if key y == key c then c else y) :: mapIf (fun x => key x == key c) (fun _ => c) l := rfl
    rw [hc, List.find?_cons, List.find?_cons, ih]
    by_cases hj : j = key c
    · subst hj
      by_cases hy : key y = key c
      · simp only [hy, beq_self_eq_true, if_true, Option.map_some]
      · have hb : (key y == key c) = false := by simpa using hy
        simp only [hb, Bool.false_eq_true, if_false, if_true]
    · by_cases hy : key y = key c
      · have hb : (key c == j) = false := beq_eq_false_iff_ne.mpr (Ne.symm hj)
        rw [if_neg hj, if_neg hj, hy, if_pos (beq_self_eq_true _)]
        simp only [hb]
      · have hb : (key y == key c) = false := by simpa using hy
        simp only [hb, Bool.false_eq_true, if_false, hj]

/-- The context put back is found under its number, every other as before. -/
theorem ctxOf_putCtx (s : State) (c : Ctx) (j : Nat) :
    (s.putCtx c).ctxOf j = if j = c.id then (s.ctxOf j).map fun _ => c else s.ctxOf j :=
  find_mapIf (fun x : Ctx => x.id) s.ctxs c j

@[simp] theorem ctxOf_putCtx_other (s : State) (c : Ctx) {j : Nat} (h : j ≠ c.id) : (s.putCtx c).ctxOf j = s.ctxOf j := by
  simp [ctxOf_putCtx, h]

theorem ctxOf_putCtx_self {s : State} {c d : Ctx} (h : s.ctxOf c.id = some d) : (s.putCtx c).ctxOf c.id = some c := by
  simp [ctxOf_putCtx, h]

/-- A context is found under its own number. -/
theorem ctxOf_id {s : State} {k : Nat} {c : Ctx} (h : s.ctxOf k = some c) : c.id = k := by
  have := List.find?_some h
  simpa using this

/-! ## putMember, putRow -/

@[simp] theorem putMember_id (c : Ctx) (m : Nat) (mb : Member) : (c.putMember m mb).id = c.id := rfl
@[simp] theorem putMember_rows (c : Ctx) (m : Nat) (mb : Member) : (c.putMember m mb).rows = c.rows := rfl
@[simp] theorem putMember_stream (c : Ctx) (m : Nat) (mb : Member) : (c.putMember m mb).stream = c.stream := rfl
@[simp] theorem putMember_gen (c : Ctx) (m : Nat) (mb : Member) : (c.putMember m mb).gen = c.gen := rfl
@[simp] theorem putMember_pc (c : Ctx) (m : Nat) (mb : Member) : (c.putMember m mb).pc = c.pc := rfl
@[simp] theorem putMember_g (c : Ctx) (m : Nat) (mb : Member) : (c.putMember m mb).g = c.g := rfl
@[simp] theorem putMember_switch (c : Ctx) (m : Nat) (mb : Member) : (c.putMember m mb).switch = c.switch := rfl
@[simp] theorem putRow_id (c : Ctx) (r : Row) : (c.putRow r).id = c.id := rfl
@[simp] theorem putRow_members (c : Ctx) (r : Row) : (c.putRow r).members = c.members := rfl
@[simp] theorem putRow_stream (c : Ctx) (r : Row) : (c.putRow r).stream = c.stream := rfl
@[simp] theorem putRow_gen (c : Ctx) (r : Row) : (c.putRow r).gen = c.gen := rfl
@[simp] theorem putRow_switch (c : Ctx) (r : Row) : (c.putRow r).switch = c.switch := rfl

@[simp] theorem putMember_stores (c : Ctx) (m : Nat) (mb : Member) : (c.putMember m mb).stores = c.stores := rfl
@[simp] theorem putMember_dump (c : Ctx) (m : Nat) (mb : Member) : (c.putMember m mb).dump = c.dump := rfl
@[simp] theorem putRow_stores (c : Ctx) (r : Row) : (c.putRow r).stores = c.stores := rfl
@[simp] theorem handedAgain_id (c : Ctx) (d : DumpEntry) : (c.handedAgain d).id = c.id := rfl
@[simp] theorem handedAgain_members (c : Ctx) (d : DumpEntry) : (c.handedAgain d).members = c.members := rfl
@[simp] theorem engineLatch_id (c : Ctx) : c.engineLatch.id = c.id := rfl
@[simp] theorem engineLatch_members (c : Ctx) : c.engineLatch.members = c.members := rfl
@[simp] theorem engineLatch_latches (c : Ctx) : c.engineLatch.latches = c.latches ||| 2 := rfl

/-! ## Commands, banks, buffered lines -/

@[simp] theorem fresh_e (x : Cmd) : x.fresh.e = x.e := rfl
@[simp] theorem fresh_st (x : Cmd) : x.fresh.st = .queued := rfl
@[simp] theorem fresh_got (x : Cmd) : x.fresh.got = [] := rfl
@[simp] theorem fresh_copied (x : Cmd) : x.fresh.copied = x.copied := rfl

/-- A latch of a bank that holds no sum reads 0 (R94, R184). -/
@[simp] theorem latch_clear (b : Bank) (rank stage col : Nat) : ({ b with sums := none } : Bank).latch rank stage col = 0 := rfl
@[simp] theorem latch_sums (b : Bank) (n rank stage col : Nat) :
    ({ b with sums := some n } : Bank).latch rank stage col = Config.latchSum n rank stage col := rfl

@[simp] theorem put_loc (p : PsbLine) (t : StoreTag) (l : List (Nat × Byte)) : (p.put t l).loc = p.loc := rfl

/-! ## Links -/

@[simp] theorem sendOrders_orders (s : State) (l : List Nat) (b : Bool) (x : OrderBody) :
    (sendOrders s l b x).orders = s.orders ++ l.map fun k => ⟨k, b, x⟩ := rfl
@[simp] theorem sendOrders_ctxs (s : State) (l : List Nat) (b : Bool) (x : OrderBody) : (sendOrders s l b x).ctxs = s.ctxs := rfl
@[simp] theorem sendOrders_ctxOf (s : State) (l : List Nat) (b : Bool) (x : OrderBody) (k : Nat) :
    (sendOrders s l b x).ctxOf k = s.ctxOf k := rfl
@[simp] theorem sendOrders_mem (s : State) (l : List Nat) (b : Bool) (x : OrderBody) : (sendOrders s l b x).mem = s.mem := rfl
@[simp] theorem sendOrders_waiting (s : State) (l : List Nat) (b : Bool) (x : OrderBody) : (sendOrders s l b x).waiting = s.waiting := rfl

/-! ## perform, post -/

@[simp] theorem perform_queues (s : State) (l : List (GLoc × Byte)) : (s.perform l).queues = s.queues := by
  unfold State.perform cureMem; split <;> rfl
@[simp] theorem perform_tlb (s : State) (l : List (GLoc × Byte)) : (s.perform l).tlb = s.tlb := by
  unfold State.perform cureMem; split <;> rfl
@[simp] theorem perform_accepted (s : State) (l : List (GLoc × Byte)) : (s.perform l).accepted = s.accepted := by
  unfold State.perform cureMem; split <;> rfl
@[simp] theorem perform_links (s : State) (l : List (GLoc × Byte)) : (s.perform l).links = s.links := by
  unfold State.perform cureMem; split <;> rfl
@[simp] theorem perform_orders (s : State) (l : List (GLoc × Byte)) : (s.perform l).orders = s.orders := by
  unfold State.perform cureMem; split <;> rfl
@[simp] theorem perform_hand (s : State) (l : List (GLoc × Byte)) : (s.perform l).hand = s.hand := by
  unfold State.perform cureMem; split <;> rfl
@[simp] theorem post_ctxs (s : State) (k : Nat) (b : Bool) (x : Report) : (post s k b x).ctxs = s.ctxs := rfl
@[simp] theorem post_mem (s : State) (k : Nat) (b : Bool) (x : Report) : (post s k b x).mem = s.mem := rfl
@[simp] theorem post_links (s : State) (k : Nat) (b : Bool) (x : Report) :
    (post s k b x).links = s.links ++ [{ leaf := k, crimson := b, sent := false, body := x }] := rfl

/-! ## cure -/

@[simp] theorem cure_mem (s : State) (p : PoisonLoc → Bool) : (s.cure p).mem = s.mem := rfl
@[simp] theorem cure_ctxs (s : State) (p : PoisonLoc → Bool) : (s.cure p).ctxs = s.ctxs := rfl
@[simp] theorem cure_queues (s : State) (p : PoisonLoc → Bool) : (s.cure p).queues = s.queues := rfl
@[simp] theorem cure_hand (s : State) (p : PoisonLoc → Bool) : (s.cure p).hand = s.hand := rfl
@[simp] theorem cure_ctxOf (s : State) (p : PoisonLoc → Bool) (k : Nat) : (s.cure p).ctxOf k = s.ctxOf k := rfl

/-! ## putQueue -/

@[simp] theorem putQueue_mem (s : State) (q : DevQueue) : (s.putQueue q).mem = s.mem := rfl
@[simp] theorem putQueue_ctxs (s : State) (q : DevQueue) : (s.putQueue q).ctxs = s.ctxs := rfl
@[simp] theorem putQueue_poison (s : State) (q : DevQueue) : (s.putQueue q).poison = s.poison := rfl
@[simp] theorem putQueue_ctxOf (s : State) (q : DevQueue) (k : Nat) : (s.putQueue q).ctxOf k = s.ctxOf k := rfl
@[simp] theorem reserveSlot_mem (s : State) (q : DevQueue) : (reserveSlot s q).2.mem = s.mem := by
  unfold reserveSlot; split <;> rfl
@[simp] theorem reserveSlot_ctxs (s : State) (q : DevQueue) : (reserveSlot s q).2.ctxs = s.ctxs := by
  unfold reserveSlot; split <;> rfl
@[simp] theorem releaseSlot_mem (s : State) (q n : Nat) : (releaseSlot s q n).mem = s.mem := by
  unfold releaseSlot; split <;> rfl
@[simp] theorem releaseSlot_ctxs (s : State) (q n : Nat) : (releaseSlot s q n).ctxs = s.ctxs := by
  unfold releaseSlot; split <;> rfl
@[simp] theorem releaseSlot_poison (s : State) (q n : Nat) : (releaseSlot s q n).poison = s.poison := by
  unfold releaseSlot; split <;> rfl

/-! ## Generator registers -/

@[simp] theorem setG_id (c : Ctx) (r : GReg) (v : DWord) : (c.setG r v).id = c.id := by unfold Ctx.setG; split <;> rfl
@[simp] theorem setG_f (c : Ctx) (r : GReg) (v : DWord) : (c.setG r v).f = c.f := by unfold Ctx.setG; split <;> rfl
@[simp] theorem setG_lc (c : Ctx) (r : GReg) (v : DWord) : (c.setG r v).lc = c.lc := by unfold Ctx.setG; split <;> rfl
@[simp] theorem setG_pc (c : Ctx) (r : GReg) (v : DWord) : (c.setG r v).pc = c.pc := by unfold Ctx.setG; split <;> rfl
@[simp] theorem setG_rstack (c : Ctx) (r : GReg) (v : DWord) : (c.setG r v).rstack = c.rstack := by
  unfold Ctx.setG; split <;> rfl
@[simp] theorem setG_seqFault (c : Ctx) (r : GReg) (v : DWord) (q : Seq) : (c.setG r v).seqFault q = c.seqFault q := by
  unfold Ctx.seqFault
  rw [setG_rstack]

/-- g0 reads zero. -/
@[simp] theorem greg_zero (c : Ctx) : c.greg 0 = 0 := rfl

/-- A register reads what was written to it; g0 discards the write; the others keep theirs. -/
theorem greg_setG (c : Ctx) (d r : GReg) (v : DWord) :
    (c.setG d v).greg r = if r = d ∧ r ≠ 0 then v else c.greg r := by
  unfold Ctx.setG Ctx.greg
  by_cases hr : r = 0
  · subst hr; simp
  · by_cases hd : d = 0
    · subst hd; simp
    · have hl : r.toNat < 64 := r.isLt
      have hr' : (r == 0) = false := by simpa using hr
      have hd' : (d == 0) = false := by simpa using hd
      simp only [hr', hd', Bool.false_eq_true, if_false]
      by_cases hrd : r = d
      · subst hrd
        have hr0 : ¬ r = 0#6 := hr
        simp [Vector.toList, List.getD, hl, hr0]
      · have : d.toNat ≠ r.toNat := fun h => hrd (BitVec.eq_of_toNat_eq h.symm)
        simp [Vector.toList, List.getD, hrd, this]

/-! ## Sequencing -/

@[simp] theorem nextPc_id (c : Ctx) (q : Seq) : (c.nextPc q).id = c.id := by
  cases q <;> simp only [Ctx.nextPc] <;> (try split) <;> rfl
@[simp] theorem nextPc_g (c : Ctx) (q : Seq) : (c.nextPc q).g = c.g := by
  cases q <;> simp only [Ctx.nextPc] <;> (try split) <;> rfl
@[simp] theorem nextPc_f (c : Ctx) (q : Seq) : (c.nextPc q).f = c.f := by
  cases q <;> simp only [Ctx.nextPc] <;> (try split) <;> rfl

/-- Sequencing changes the PC, the return stack and the loop counters only. -/
theorem nextPc_frame (c : Ctx) (q : Seq) :
    c.nextPc q = { c with pc := (c.nextPc q).pc, rstack := (c.nextPc q).rstack, lc := (c.nextPc q).lc } := by
  cases q <;> simp only [Ctx.nextPc, Ctx.setLoop] <;> (try split) <;> rfl

end Sys2Proof.Machine
end

