-- ==== Sys2Proof/Laws/Memory.lean ====
section
/-!
SUPPORT. The byte map: reading after writing, the canonical form, and what the operations that perform bytes at home leave.
-/
namespace Sys2Proof.Machine

/-! ## One byte -/

/-- The canonical form says: no byte listed as zero, and addresses that rise above a bound. -/
def Memory.above (n : Nat) : List Host.Cell → Prop
  | [] => True
  | (a, v) :: l => n ≤ a ∧ v ≠ 0 ∧ Memory.above (a + 1) l

theorem Memory.above_mono {m n : Nat} (h : m ≤ n) : ∀ {l : List Host.Cell}, Memory.above n l → Memory.above m l
  | [], _ => trivial
  | _ :: _, h1 => ⟨Nat.le_trans h h1.1, h1.2⟩

theorem Memory.wf_cons (a : Nat) (v : Byte) (l : List Host.Cell) :
    Memory.wf ((a, v) :: l) = true ↔ v ≠ 0 ∧ Memory.above (a + 1) l := by
  induction l generalizing a v with
  | nil => simp [Memory.wf, Memory.above]
  | cons x l ih =>
    obtain ⟨b, w⟩ := x
    simp only [Memory.wf, Bool.and_eq_true, decide_eq_true_eq, bne_iff_ne, ih, Memory.above, and_assoc]
    rfl

theorem Memory.wf_iff (l : List Host.Cell) : Memory.wf l = true ↔ Memory.above 0 l := by
  cases l with
  | nil => simp [Memory.wf, Memory.above]
  | cons x l => obtain ⟨a, v⟩ := x; simp [Memory.wf_cons, Memory.above]

theorem Memory.write_above (a : Nat) (v : Byte) :
    ∀ (n : Nat) (l : List Host.Cell), n ≤ a → Memory.above n l → Memory.above n (Memory.write l a v)
  | n, [], hn, _ => by
    unfold Memory.write
    split
    · exact trivial
    · exact ⟨hn, by simpa using ‹¬(v == 0) = true›, trivial⟩
  | n, (b, w) :: l, hn, h => by
    unfold Memory.write
    split
    · split
      · exact h
      · exact ⟨hn, by simpa using ‹¬(v == 0) = true›, by omega, h.2⟩
    · split
      · have hab : a = b := by simpa using ‹(a == b) = true›
        subst hab
        split
        · exact Memory.above_mono (by omega) h.2.2
        · exact ⟨hn, by simpa using ‹¬(v == 0) = true›, h.2.2⟩
      · have : ¬ a = b := by simpa using ‹¬(a == b) = true›
        exact ⟨h.1, h.2.1, Memory.write_above a v (b + 1) l (by omega) h.2.2⟩

/-- A write keeps the canonical form. -/
theorem Memory.write_wf {l : List Host.Cell} (a : Nat) (v : Byte) (h : Memory.wf l = true) :
    Memory.wf (Memory.write l a v) = true := by
  rw [Memory.wf_iff] at h ⊢
  exact Memory.write_above a v 0 l (Nat.zero_le a) h

/-- Below its first address a canonical list reads as zero. -/
theorem Memory.read_above {n : Nat} : ∀ {l : List Host.Cell} {x : Nat}, Memory.above n l → x < n → Memory.read l x = 0
  | [], _, _, _ => rfl
  | (b, w) :: l, x, h, hx => by
    have hb : (b == x) = false := by have := h.1; exact beq_eq_false_iff_ne.mpr (by omega)
    simp only [Memory.read, hb, Bool.false_eq_true, if_false]
    exact Memory.read_above h.2.2 (by have := h.1; omega)

/-- The byte written reads back. -/
theorem Memory.read_write_same (a : Nat) (v : Byte) :
    ∀ (n : Nat) (l : List Host.Cell), Memory.above n l → Memory.read (Memory.write l a v) a = v
  | _, [], _ => by
    unfold Memory.write
    split
    · have : v = 0 := by simpa using ‹(v == 0) = true›
      simp [Memory.read, this]
    · simp [Memory.read]
  | n, (b, w) :: l, h => by
    unfold Memory.write
    split
    · split
      · have hv : v = 0 := by simpa using ‹(v == 0) = true›
        rw [hv]
        exact Memory.read_above (n := b) ⟨Nat.le_refl b, h.2⟩ ‹a < b›
      · simp [Memory.read]
    · split
      · have hab : a = b := by simpa using ‹(a == b) = true›
        subst hab
        split
        · have hv : v = 0 := by simpa using ‹(v == 0) = true›
          rw [hv]
          exact Memory.read_above h.2.2 (Nat.lt_succ_self a)
        · simp [Memory.read]
      · have hb : (b == a) = false := by
          have : ¬ a = b := by simpa using ‹¬(a == b) = true›
          exact beq_eq_false_iff_ne.mpr (Ne.symm this)
        simp only [Memory.read, hb, Bool.false_eq_true, if_false]
        exact Memory.read_write_same a v (b + 1) l h.2.2

/-- Every other byte reads as before. -/
theorem Memory.read_write_other (a : Nat) (v : Byte) {x : Nat} (hx : x ≠ a) :
    ∀ (l : List Host.Cell), Memory.read (Memory.write l a v) x = Memory.read l x
  | [] => by
    unfold Memory.write
    have ha : (a == x) = false := beq_eq_false_iff_ne.mpr (Ne.symm hx)
    split <;> simp [Memory.read, ha]
  | (b, w) :: l => by
    have ha : (a == x) = false := beq_eq_false_iff_ne.mpr (Ne.symm hx)
    unfold Memory.write
    split
    · split
      · rfl
      · simp [Memory.read, ha]
    · split
      · have hab : a = b := by simpa using ‹(a == b) = true›
        subst hab
        split <;> simp [Memory.read, ha]
      · simp only [Memory.read, Memory.read_write_other a v hx l]

theorem Memory.read_write {l : List Host.Cell} (h : Memory.wf l = true) (a : Nat) (v : Byte) (x : Nat) :
    Memory.read (Memory.write l a v) x = if x = a then v else Memory.read l x := by
  by_cases hx : x = a
  · subst hx; simp [Memory.read_write_same x v 0 l ((Memory.wf_iff l).mp h)]
  · simp [hx, Memory.read_write_other a v hx l]

/-! ## Several bytes -/

theorem Memory.writeN_wf (bs : List Byte) : ∀ {l : List Host.Cell} (a : Nat), Memory.wf l = true →
    Memory.wf (Memory.writeN l a bs) = true := by
  induction bs with
  | nil => intro l a h; exact h
  | cons v bs ih => intro l a h; exact ih (a + 1) (Memory.write_wf a v h)

theorem Memory.read_writeN_other (bs : List Byte) : ∀ (l : List Host.Cell) (a x : Nat), (x < a ∨ a + bs.length ≤ x) →
    Memory.read (Memory.writeN l a bs) x = Memory.read l x := by
  induction bs with
  | nil => intro l a x _; rfl
  | cons v bs ih =>
    intro l a x hx
    simp only [List.length_cons] at hx
    rw [Memory.writeN, ih _ _ _ (by omega), Memory.read_write_other a v (by omega)]

/-! ## Bytes at home -/

theorem foldl_write_wf (f : Nat → Nat) (v : Byte) (ds : List Nat) : ∀ {m : List Host.Cell}, Memory.wf m = true →
    Memory.wf (ds.foldl (fun m d => Memory.write m (f d) v) m) = true := by
  induction ds with
  | nil => intro m h; exact h
  | cons d ds ih => intro m h; exact ih (Memory.write_wf (f d) v h)

theorem foldl_write_other (f : Nat → Nat) (v : Byte) {x : Nat} (ds : List Nat) : ∀ {m : List Host.Cell}, (∀ d ∈ ds, x ≠ f d) →
    Memory.read (ds.foldl (fun m d => Memory.write m (f d) v) m) x = Memory.read m x := by
  induction ds with
  | nil => intro m _; rfl
  | cons d ds ih =>
    intro m h
    rw [List.foldl_cons, ih fun e he => h e (List.mem_cons_of_mem d he),
      Memory.read_write_other (f d) v (h d (by simp))]

theorem homeWrite_wf {m : List Host.Cell} (l : GLoc) (v : Byte) (h : Memory.wf m = true) : Memory.wf (homeWrite m l v) = true := by
  unfold homeWrite
  split
  · exact foldl_write_wf (fun d => l.on d) v _ h
  · exact Memory.write_wf l.pa v h

/-- A byte performed at home changes only its copies. -/
theorem homeWrite_other {m : List Host.Cell} (l : GLoc) (v : Byte) {x : Nat} (h : x ∉ l.copies) :
    Memory.read (homeWrite m l v) x = Memory.read m x := by
  unfold homeWrite GLoc.copies at *
  split
  · rw [if_pos ‹_›] at h
    refine foldl_write_other (fun d => l.on d) v _ ?_
    intro d hd he
    exact h (by rw [he]; exact List.mem_map_of_mem hd)
  · rw [if_neg ‹_›] at h
    exact Memory.read_write_other l.pa v (by simpa using h) m

theorem homeWriteN_wf (ls : List (GLoc × Byte)) : ∀ {m : List Host.Cell}, Memory.wf m = true →
    Memory.wf (homeWriteN m ls) = true := by
  induction ls with
  | nil => intro m h; exact h
  | cons x ls ih => intro m h; exact ih (homeWrite_wf x.1 x.2 h)

theorem homeWriteN_other (ls : List (GLoc × Byte)) {x : Nat} : ∀ {m : List Host.Cell}, (∀ y ∈ ls, x ∉ y.1.copies) →
    Memory.read (homeWriteN m ls) x = Memory.read m x := by
  induction ls with
  | nil => intro m _; rfl
  | cons y ls ih =>
    intro m h
    have h1 : Memory.read (homeWriteN (homeWrite m y.1 y.2) ls) x = Memory.read (homeWrite m y.1 y.2) x :=
      ih fun z hz => h z (List.mem_cons_of_mem y hz)
    exact h1.trans (homeWrite_other y.1 y.2 (h y (by simp)))

/-! ## States -/

@[simp] theorem cureMem_mem (s : State) (l : List Nat) : (cureMem s l).mem = s.mem := by
  unfold cureMem; split <;> rfl
@[simp] theorem cureMem_ctxs (s : State) (l : List Nat) : (cureMem s l).ctxs = s.ctxs := by
  unfold cureMem; split <;> rfl
@[simp] theorem perform_mem (s : State) (ls : List (GLoc × Byte)) : (s.perform ls).mem = homeWriteN s.mem ls := by
  unfold State.perform; simp
@[simp] theorem perform_ctxs (s : State) (ls : List (GLoc × Byte)) : (s.perform ls).ctxs = s.ctxs := by
  unfold State.perform; simp
@[simp] theorem perform_ctxOf (s : State) (ls : List (GLoc × Byte)) (k : Nat) : (s.perform ls).ctxOf k = s.ctxOf k := by
  unfold State.ctxOf; rw [perform_ctxs]

theorem perform_inv {s : State} (ls : List (GLoc × Byte)) (h : Safety.State.Inv s) : Safety.State.Inv (s.perform ls) := by
  unfold Safety.State.Inv at *; rw [perform_mem]; exact homeWriteN_wf ls h

/-- A byte outside the copies performed reads as before. -/
theorem perform_other (s : State) (ls : List (GLoc × Byte)) {x : Nat} (h : ∀ y ∈ ls, x ∉ y.1.copies) :
    Memory.read (s.perform ls).mem x = Memory.read s.mem x := by
  rw [perform_mem]; exact homeWriteN_other ls h

/-- The invariant is about memory alone. -/
theorem inv_of_mem {s t : State} (h : Safety.State.Inv s) (e : t.mem = s.mem) : Safety.State.Inv t := by
  unfold Safety.State.Inv at *; rw [e]; exact h

theorem drainLine_inv {s : State} (k : Nat) (p : PsbLine) (h : Safety.State.Inv s) : Safety.State.Inv (drainLine k s p) := by
  unfold drainLine
  split
  · exact perform_inv _ h
  · exact inv_of_mem h rfl

@[simp] theorem drainLine_ctxs (k : Nat) (s : State) (p : PsbLine) : (drainLine k s p).ctxs = s.ctxs := by
  unfold drainLine
  split
  · exact perform_ctxs s p.bytes
  · rfl

/-- A line of region 0x0 is performed as it drains (R227). -/
theorem drainLine_home {k : Nat} {s : State} {p : PsbLine} (h : p.loc.region = 0) : drainLine k s p = s.perform p.bytes := by
  unfold drainLine; simp [h]

/-- A line of another region leaves memory as it is until its port performs it (R227). -/
theorem drainLine_port {k : Nat} {s : State} {p : PsbLine} (h : p.loc.region ≠ 0) :
    drainLine k s p = { s with accepted := s.accepted ++ [⟨k, p.loc.region, p.bytes, none, p.vas⟩] } := by
  unfold drainLine; simp [h]

theorem drainLines_inv (k : Nat) (l : List PsbLine) : ∀ {s : State}, Safety.State.Inv s → Safety.State.Inv (drainLines k s l) := by
  induction l with
  | nil => intro s h; exact h
  | cons p l ih => intro s h; exact ih (drainLine_inv k p h)

@[simp] theorem drainLines_ctxs (k : Nat) (l : List PsbLine) : ∀ (s : State), (drainLines k s l).ctxs = s.ctxs := by
  induction l with
  | nil => intro s; rfl
  | cons p l ih => intro s; exact (ih (drainLine k s p)).trans (drainLine_ctxs k s p)

theorem performNext_inv {s : State} (n : Nat) (h : Safety.State.Inv s) : Safety.State.Inv (performNext s n) := by
  unfold performNext
  split
  · exact h
  · exact inv_of_mem (perform_inv _ h) rfl

theorem performAll_inv (l : List Accepted) : ∀ {s : State}, Safety.State.Inv s →
    Safety.State.Inv (l.foldl (fun s a => s.perform a.bytes) s) := by
  induction l with
  | nil => intro s h; exact h
  | cons a l ih => intro s h; exact ih (perform_inv a.bytes h)

theorem flushPorts_inv {s : State} (h : Safety.State.Inv s) : Safety.State.Inv (flushPorts s) := by
  unfold flushPorts
  split
  · exact h
  · exact inv_of_mem (performAll_inv _ h) rfl

theorem performAll_ctxs (l : List Accepted) : ∀ s : State, (l.foldl (fun s a => s.perform a.bytes) s).ctxs = s.ctxs := by
  induction l with
  | nil => intro s; rfl
  | cons a l ih => intro s; exact (ih (s.perform a.bytes)).trans (perform_ctxs s a.bytes)

theorem performAll_hand (l : List Accepted) : ∀ s : State, (l.foldl (fun s a => s.perform a.bytes) s).hand = s.hand := by
  induction l with
  | nil => intro s; rfl
  | cons a l ih => intro s; exact (ih (s.perform a.bytes)).trans (perform_hand s a.bytes)

/-- The ports' lines change memory and their own list alone; contexts and the hand stay. -/
@[simp] theorem flushPorts_ctxs (s : State) : (flushPorts s).ctxs = s.ctxs := by
  unfold flushPorts; split
  · rfl
  · exact performAll_ctxs _ s
@[simp] theorem flushPorts_hand (s : State) : (flushPorts s).hand = s.hand := by
  unfold flushPorts; split
  · rfl
  · exact performAll_hand _ s

/-- With nothing accepted the ports have nothing to do. -/
theorem flushPorts_none {s : State} (h : s.accepted = []) : flushPorts s = s := by unfold flushPorts; simp [h]

end Sys2Proof.Machine
end

