-- ==== Sys2Proof/Laws/Invariant.lean ====
section
/-!
SUPPORT. The shared operations and the invariant: those that leave device memory as it is, and those that perform bytes at home
and keep its canonical form.
-/
namespace Sys2Proof.Machine
open Sys2Proof.Safety (State.Inv)

/-- Every next state of an outcome meets the invariant. -/
def OutInv (o : Out) : Prop := ∀ t, o = .next t → State.Inv t

theorem outInv_done {s : State} (h : State.Inv s) : OutInv (done s) := fun _ e => inv_of_mem h (by rw [done_next e])
theorem outInv_wait {s : State} (h : State.Inv s) : OutInv (wait s) := fun _ e => inv_of_mem h (by rw [wait_next e])
theorem outInv_fault (r : Fault) : OutInv (.fault r) := fun _ e => nomatch e

/-! ## Ends and traps of a context -/

theorem foldl_mem {α : Type} (f : State → α → State) (hf : ∀ s x, (f s x).mem = s.mem) (l : List α) :
    ∀ s : State, (l.foldl f s).mem = s.mem := by
  induction l with
  | nil => intro s; rfl
  | cons x l ih => intro s; rw [List.foldl_cons, ih, hf]

theorem foldl_inv {α : Type} (f : State → α → State) (hf : ∀ s x, State.Inv s → State.Inv (f s x)) (l : List α) :
    ∀ {s : State}, State.Inv s → State.Inv (l.foldl f s) := by
  induction l with
  | nil => intro s h; exact h
  | cons x l ih => intro s h; exact ih (hf s x h)

@[simp] theorem stopContext_mem (s : State) (c : Ctx) : (stopContext s c).mem = s.mem := by
  unfold stopContext
  exact foldl_mem _ (fun s (t : Nat × Nat) => releaseSlot_mem s t.1 t.2) _ _

@[simp] theorem retireGen_mem (s : State) (c : Ctx) (q : Seq) : (retireGen s c q).mem = s.mem := by
  unfold retireGen
  cases q
  case exit => exact stopContext_mem _ _
  all_goals rfl

@[simp] theorem unsleep_mem (s : State) (c : Ctx) : (unsleep s c).1.mem = s.mem := by
  unfold unsleep; split <;> rfl

theorem drainMember_inv {s : State} (k : Nat) (mb : Member) (h : State.Inv s) : State.Inv (drainMember k s mb).1 :=
  flushPorts_inv (drainLines_inv k mb.psb h)

theorem drainCtx_inv {s : State} (c : Ctx) (h : State.Inv s) : State.Inv (drainCtx s c).1 := by
  unfold drainCtx
  exact foldl_inv _ (fun s mb h => drainLines_inv c.id mb.psb h) c.members h

theorem drainLater_mem (s : State) (c : Ctx) : (drainLater s c).1.mem = s.mem := rfl

theorem drainOut_inv {s : State} (c : Ctx) (h : State.Inv s) : State.Inv (drainOut s c).1 := by
  unfold drainOut
  split
  · exact inv_of_mem h (drainLater_mem s c)
  · exact drainCtx_inv c h

theorem endContext_inv {s : State} (c : Ctx) (st r : BitVec 8) (tc te : DWord) (h : State.Inv s) :
    State.Inv (endContext s c st r tc te) := by
  unfold endContext
  have h1 : State.Inv (unsleep s c).1 := inv_of_mem h (unsleep_mem s c)
  have h2 := drainOut_inv (unsleep s c).2 h1
  exact inv_of_mem h2 (stopContext_mem _ _)

@[simp] theorem reportFault_mem (s : State) (c : Ctx) (t : Trap) (hd : Handling) : (reportFault s c t hd).mem = s.mem := by
  unfold reportFault; split <;> rfl

theorem takeTrap_inv {s : State} (c : Ctx) (t : Trap) (hd : Handling) (h : State.Inv s) : State.Inv (takeTrap s c t hd) := by
  unfold takeTrap
  split
  · exact endContext_inv _ _ _ _ _ h
  · split
    · exact endContext_inv _ _ _ _ _ h
    · exact inv_of_mem h (unsleep_mem s c)

theorem enterTrap_inv {s : State} (c : Ctx) (t : Trap) (hd : Handling) (h : State.Inv s) : State.Inv (enterTrap s c t hd) :=
  takeTrap_inv c t hd (inv_of_mem h (reportFault_mem s c t hd))

theorem plainTrap_inv {s : State} (c : Ctx) (t : Trap) (n : Nat) (h : State.Inv s) : State.Inv (plainTrap s c t n) :=
  enterTrap_inv c t _ h

theorem outInv_genFault {s : State} (c : Ctx) (k : Cause) (a : DWord) (h : State.Inv s) : OutInv (genFault s c k a) :=
  outInv_done (plainTrap_inv c _ _ h)

theorem outInv_emitFault {s : State} (c : Ctx) (n : Nat) (k : Cause) (a : DWord) (h : State.Inv s) : OutInv (emitFault s c n k a) :=
  outInv_done (plainTrap_inv c _ _ h)

/-! ## The frame of a generator instruction -/

/-- A generator instruction keeps the invariant when its own effect does. -/
theorem outInv_genStep {s : State} (q : Seq) (srcs : List GReg) (f : Ctx → GenRes) (h : State.Inv s)
    (hf : ∀ c s1 c1, f c = .ok s1 c1 → State.Inv s1) : OutInv (genStep s q srcs f) := by
  unfold genStep withCtx
  split
  · exact outInv_fault _
  · rename_i c _
    dsimp only
    split
    · exact outInv_genFault _ _ _ h
    · cases hr : f c with
      | wait => exact outInv_wait h
      | trap k a => exact outInv_genFault _ _ _ h
      | emit k a => exact outInv_emitFault _ _ _ _ h
      | ok s1 c1 =>
        show OutInv (match c.seqFault q with
          | some cause => genFault s c cause 0
          | none => done (retireGen s1 c1 q))
        split
        · exact outInv_genFault _ _ _ h
        · exact outInv_done (inv_of_mem (hf c s1 c1 hr) (retireGen_mem s1 c1 q))

theorem genWrite_mem {s s1 : State} {c c1 : Ctx} {d : GReg} {v : DWord} (h : genWrite s c d v = .ok s1 c1) : s1.mem = s.mem := by
  unfold genWrite at h
  cases h; rfl

theorem outInv_genCompute {s : State} (q : Seq) (d : GReg) (srcs : List GReg) (f : Ctx → DWord) (h : State.Inv s) :
    OutInv (genCompute s q d srcs f) :=
  outInv_genStep q srcs _ h fun _ _ _ e => inv_of_mem h (genWrite_mem e)

/-! ## Global memory through a context -/

theorem bufferLine_inv {s : State} (c : Ctx) (tag : StoreTag) (mb : Member) (l : GLoc) (bs : List (Nat × Byte)) (h : State.Inv s) :
    State.Inv (bufferLine c tag s mb l bs).1 := by
  unfold bufferLine
  dsimp only
  split
  · exact h
  · split
    · exact h
    · split
      · exact drainLine_inv _ _ h
      · exact h

theorem storeFold_inv (c : Ctx) (tag : StoreTag) (f : GLoc → List (Nat × Byte)) (ls : List GLoc) : ∀ {x : State × Member}, State.Inv x.1 →
    State.Inv (ls.foldl (fun (x : State × Member) l => bufferLine c tag x.1 x.2 l (f l)) x).1 := by
  induction ls with
  | nil => intro x h; exact h
  | cons l ls ih => intro x h; exact ih (bufferLine_inv c tag x.2 l (f l) h)

theorem storeBytes_inv {s : State} (c : Ctx) (mb : Member) (ls : List (GLoc × Byte)) (tag : StoreTag) (made : Bool) (h : State.Inv s) :
    State.Inv (storeBytes s c mb ls tag made).1 := by
  unfold storeBytes
  have h1 := storeFold_inv c tag (fun line => (ls.filter fun y => y.1.line == line).map fun y => (y.1.pa % 128, y.2))
    (ls.map fun x => x.1.line).eraseDups (x := (s, mb)) h
  dsimp only
  split
  · exact drainMember_inv _ _ h1
  · exact h1

theorem atomicLine_inv {s : State} (k : Nat) (mb : Member) (l : GLoc) (h : State.Inv s) : State.Inv (atomicLine k s mb l).1 := by
  unfold atomicLine
  dsimp only
  split
  · exact drainLines_inv _ _ h
  · exact flushPorts_inv (drainLines_inv _ _ h)

theorem performAtomic_inv {s : State} (ls : List GLoc) (f : Nat → Option Nat) (h : State.Inv s) :
    State.Inv (performAtomic s ls f).2 := by
  unfold performAtomic
  dsimp only
  split
  · exact perform_inv _ h
  · exact h

/-! ## Queues -/

theorem mirror_inv {s : State} (q : DevQueue) (n : Nat) (h : State.Inv s) : State.Inv (mirror s q n) := by
  unfold mirror
  dsimp only
  split
  · exact h
  · exact perform_inv _ h

theorem mirrorAll_inv {s : State} (q : DevQueue) (h : State.Inv s) : State.Inv (mirrorAll s q) :=
  List.foldlRecOn _ _ h fun _ hs j _ => mirror_inv q j hs

theorem takeHead_inv {s : State} (q : DevQueue) (h : State.Inv s) : State.Inv (takeHead s q) := mirror_inv _ _ h

theorem wakeSleepers_inv (qn : Nat) : ∀ (n : Nat) {s : State}, State.Inv s → State.Inv (wakeSleepers s qn n)
  | 0, _, h => h
  | n + 1, s, h => by
    unfold wakeSleepers
    split
    · exact h
    · split
      · exact h
      · split
        · split
          · exact wakeSleepers_inv qn n h
          · split
            · refine wakeSleepers_inv qn n (inv_of_mem ?_ (retireGen_mem _ _ _))
              exact takeHead_inv _ h
            · exact wakeSleepers_inv qn n h
        · exact h

theorem commitSlot_inv {s : State} (q : DevQueue) (n : Nat) (h : State.Inv s) : State.Inv (commitSlot s q n) := by
  unfold commitSlot
  refine wakeSleepers_inv _ _ ?_
  exact mirror_inv _ _ h

/-! ## Typed buffers -/

@[simp] theorem updMember_mem (s : State) (c m : Nat) (f : Member → Member) : (s.updMember c m f).mem = s.mem := by
  unfold State.updMember
  split
  · rfl
  · split <;> rfl

@[simp] theorem writePlace_mem (s : State) (b : Buf) (p : BufPlace) (l : List Byte) : (writePlace s b p l).mem = s.mem := by
  unfold writePlace
  dsimp only
  split
  · exact updMember_mem _ _ _ _
  · exact updMember_mem _ _ _ _

@[simp] theorem bufWrite_mem (s : State) (c : Ctx) (m : Nat) (b : Buf) (o : Nat) (l : List Byte) : (bufWrite s c m b o l).mem = s.mem := by
  unfold bufWrite
  split
  · rfl
  · exact writePlace_mem _ _ _ _

@[simp] theorem revoke_mem (s : State) (c : Nat) : (revoke s c).mem = s.mem := by
  unfold revoke; split <;> rfl
@[simp] theorem updLend_mem (s : State) (c m k : Nat) (f : Lend → Lend) : (s.updLend c m k f).mem = s.mem := updMember_mem _ _ _ _
@[simp] theorem zeroRange_mem (s : State) (c m : Nat) (b : Buf) (o n : Nat) : (zeroRange s c m b o n).mem = s.mem := updMember_mem _ _ _ _
@[simp] theorem movePoison_mem (s : State) (f : PoisonLoc → PoisonLoc) : (s.movePoison f).mem = s.mem := by
  unfold State.movePoison; split <;> rfl
@[simp] theorem setGranules_mem (s : State) (c : Ctx) (m : Nat) (b : Buf) (o n : Nat) (v : Bool) :
    (setGranules s c m b o n v).mem = s.mem := by
  unfold setGranules
  split
  · rfl
  · exact updMember_mem _ _ _ _

/-- The states that an access to a lendable range leaves have the same memory. -/
def Touch.MemAs (s : State) : Touch → Prop
  | .ready t | .revoked t => t.mem = s.mem
  | .wait => True

theorem touchLent_mem (s : State) (c : Ctx) (m : Nat) (p : BufPlace) (k : Nat) : (touchLent s c m p k).MemAs s := by
  unfold touchLent
  split
  · trivial
  · rename_i l _
    split
    · trivial
    · trivial
    · split
      · rfl
      · trivial
    · show State.mem _ = s.mem
      rw [updMember_mem, movePoison_mem]
      split <;> simp

theorem touchOwn_mem (c m : Nat) (b : Buf) (o n : Nat) (l : List (Lend × Nat)) : ∀ (s : State), (touchOwn c m b o n l s).MemAs s := by
  induction l with
  | nil => intro s; rfl
  | cons x l ih =>
    intro s
    obtain ⟨x, k⟩ := x
    unfold touchOwn
    split
    · split
      · exact (revoke_mem _ _).trans (updLend_mem _ _ _ _ _)
      · trivial
      · exact ih s
      · have h := ih (s.updLend c m k fun l => { l with st := .touched })
        revert h
        cases touchOwn c m b o n l (s.updLend c m k fun l => { l with st := .touched }) with
        | wait => intro _; trivial
        | ready t => intro h; exact h.trans (updLend_mem _ _ _ _ _)
        | revoked t => intro h; exact h.trans (updLend_mem _ _ _ _ _)
    · exact ih s

theorem touch_mem (s : State) (c : Ctx) (m : Nat) (b : Buf) (p : BufPlace) (n : Nat) : (touch s c m b p n).MemAs s := by
  unfold touch
  split
  · exact touchLent_mem _ _ _ _ _
  · split
    · rfl
    · exact touchOwn_mem _ _ _ _ _ _ s

theorem Touch.MemAs.trans {s t : State} {x : Touch} (h : x.MemAs t) (e : t.mem = s.mem) : x.MemAs s := by
  cases x with
  | wait => trivial
  | ready u => exact (show u.mem = t.mem from h).trans e
  | revoked u => exact (show u.mem = t.mem from h).trans e

theorem touchAll_mem (c : Ctx) (m : Nat) (b : Buf) (n : Nat) (l : List Nat) : ∀ (s : State), (touchAll s c m b n l).MemAs s := by
  induction l with
  | nil => intro s; rfl
  | cons o l ih =>
    intro s
    unfold touchAll
    split
    · exact ih s
    · rename_i p _
      have h := touch_mem s c m b p n
      cases hx : touch s c m b p n with
      | wait => trivial
      | ready t => exact (ih t).trans (by rw [hx] at h; exact h)
      | revoked t => rw [hx] at h; exact h

theorem touchRanges_mem (c : Ctx) (m : Nat) (l : List (Buf × Nat × Nat)) : ∀ (s : State), (touchRanges c m l s).MemAs s := by
  induction l with
  | nil => intro s; rfl
  | cons x l ih =>
    intro s
    obtain ⟨b, o, n⟩ := x
    unfold touchRanges
    split
    · exact ih s
    · rename_i p _
      have h := touch_mem s c m b p n
      cases hx : touch s c m b p n with
      | wait => trivial
      | ready t => exact (ih t).trans (by rw [hx] at h; exact h)
      | revoked t => rw [hx] at h; exact h

/-! ## Engines -/

@[simp] theorem scramble_mem (s : State) (c : Ctx) (m : Nat) (r : Range) : (scramble s c m r).mem = s.mem := by
  unfold scramble; split
  · exact bufWrite_mem _ _ _ _ _ _
  · rfl
@[simp] theorem taintHazards_mem (s : State) (c m : Nat) (w : Range) : (taintHazards s c m w).mem = s.mem := by
  unfold taintHazards
  split
  · rfl
  · split
    · rfl
    · dsimp only
      split
      · rfl
      · rw [foldl_mem _ (fun s h => scramble_mem s _ _ _), updMember_mem]
@[simp] theorem bufStore_mem (s : State) (c : Ctx) (m : Nat) (b : Buf) (o : Nat) (l : List Byte) : (bufStore s c m b o l).mem = s.mem := by
  unfold bufStore; rw [taintHazards_mem, bufWrite_mem]
@[simp] theorem updCmd_mem (s : State) (c m : Nat) (g : Engine) (n : Nat) (f : Cmd → Cmd) : (updCmd s c m g n f).mem = s.mem :=
  updMember_mem _ _ _ _
@[simp] theorem freeBoard_mem (s : State) (c m n : Nat) : (freeBoard s c m n).mem = s.mem := updMember_mem _ _ _ _
@[simp] theorem bindBank_mem (s : State) (c m : Nat) (g : Engine) : (bindBank s c m g).mem = s.mem := by
  unfold bindBank; split
  · exact updMember_mem _ _ _ _
  · rfl
/-- Taking an entry changes no state but the board of the member, at whose end the entry then stands, if there was room. -/
theorem ensureBoard_eq {s : State} {c : Ctx} {m : Nat} {mb : Member} {e : Entry} {i : Instr} {t : State} {clear : Bool}
    (h : ensureBoard s c m mb e i = some (t, clear)) :
    t = s ∨ ∃ b, boardEntry s c m e i = some b ∧ boardUsed s mb.cluster < Config.scoreboard ∧
      t = s.updMember c.id m fun y => { y with board := y.board ++ [b] } := by
  unfold ensureBoard at h
  split at h
  · exact .inl (by simpa using (congrArg Prod.fst (Option.some.inj h)).symm)
  · next b hb =>
    dsimp only at h
    split at h
    · exact .inl (congrArg Prod.fst (Option.some.inj h)).symm
    · split at h
      · cases h
      · exact .inr ⟨b, hb, by omega, (congrArg Prod.fst (Option.some.inj h)).symm⟩
/-- A command that runs again takes at most its own entry. -/
theorem listCmd_eq (k m : Nat) (s : State) (y : Cmd) :
    listCmd k m s y = s ∨ ∃ b, listCmd k m s y = s.updMember k m fun x => { x with board := x.board ++ [b] } := by
  unfold listCmd
  split
  · next c mb i h _ =>
    obtain ⟨d, hd, hm⟩ := Option.bind_eq_some_iff.1 h
    obtain ⟨_, _, hx⟩ := Option.map_eq_some_iff.1 hm
    cases hx
    cases he : ensureBoard s c m mb y.e i with
    | none => exact .inl rfl
    | some z =>
      rcases ensureBoard_eq he with h | ⟨b, -, -, h⟩
      · exact .inl h
      · exact .inr ⟨b, by simpa [ctxOf_id hd] using h⟩
  · exact .inl rfl
theorem ensureBoard_mem {s s1 : State} {c : Ctx} {m : Nat} {mb : Member} {e : Entry} {i : Instr} {b : Bool}
    (h : ensureBoard s c m mb e i = some (s1, b)) : s1.mem = s.mem := by
  rcases ensureBoard_eq h with rfl | ⟨_, -, -, rfl⟩
  · rfl
  · exact updMember_mem _ _ _ _
theorem ensureBoard_keeps (s : State) (c : Ctx) (m : Nat) (mb : Member) (e : Entry) (i : Instr) :
    (((ensureBoard s c m mb e i).map fun x => x.1).getD s).mem = s.mem := by
  cases h : ensureBoard s c m mb e i with
  | none => rfl
  | some x => exact ensureBoard_mem h
@[simp] theorem clearHold_mem (s : State) (c m : Nat) (e : Entry) : (clearHold s c m e).mem = s.mem := by
  unfold clearHold
  split
  · rfl
  · split <;> rfl

theorem raiseAtWait_inv {s : State} (c : Ctx) (m : Nat) (e : Entry) (n : Nat) (t : Trap) (h : State.Inv s) :
    State.Inv (raiseAtWait s c m e n t) := by
  unfold raiseAtWait
  split
  · exact inv_of_mem h (clearHold_mem _ _ _ _)
  · split
    · exact enterTrap_inv _ _ _ h
    · exact h

theorem engineMemory_inv {s : State} (g : Engine) (h : State.Inv s) : State.Inv (engineMemory s g) := by
  unfold engineMemory
  split
  · exact flushPorts_inv h
  · exact h

/-- What an engine's run left keeps the invariant. -/
def EngRes.Keeps : EngRes → Prop
  | .wait => True
  | .fault s _ _ _ | .ok s _ | .moved s => State.Inv s

theorem runOrRead_keeps {s : State} (c : Ctx) (m : Nat) (g : Engine) (x : Cmd) {r : EngRes} (h : State.Inv s) (hr : r.Keeps) :
    (runOrRead s c m g x r).Keeps := by
  unfold runOrRead
  split
  · exact hr
  · exact inv_of_mem h (updCmd_mem _ _ _ _ _ _)

/-- An engine command keeps the invariant when its run does, from every state with the same memory. -/
theorem outInv_engineStep {s : State} (g : Engine) (i : Instr) (f : State → Ctx → Nat → Member → Cmd → EngRes)
    (early : State → Ctx → Nat → Member → Option (Cause × Nat)) (h : State.Inv s)
    (hf : ∀ s1 c m mb x, State.Inv s1 → (f s1 c m mb x).Keeps) : OutInv (engineStep s g i f early) := by
  unfold engineStep withCtx
  split
  · exact outInv_fault _
  · rename_i c _
    dsimp only
    split
    · exact outInv_fault _
    · rename_i mb _
      split
      · exact outInv_wait h
      · split
        · exact outInv_wait h
        · split
          · exact outInv_wait h
          · rename_i x _ _ _ s1 clear hb
            have h0 : State.Inv s1 := inv_of_mem (engineMemory_inv g h) (ensureBoard_mem hb)
            have h1 : State.Inv (bindBank s1 c.id s.hand.member g) := inv_of_mem h0 (bindBank_mem _ _ _ _)
            split
            · split
              · exact outInv_done (inv_of_mem h0 ((updCmd_mem _ _ _ _ _ _).trans (freeBoard_mem _ _ _ _)))
              · split
                · exact outInv_wait h
                · exact outInv_done (inv_of_mem h (ensureBoard_keeps _ _ _ _ _ _))
            · split
              · exact outInv_fault _
              · rename_i c1 _
                have hk := runOrRead_keeps c1 s.hand.member g x h1 (hf _ c1 s.hand.member ((c1.member s.hand.member).getD mb) x h1)
                split
                · exact outInv_wait h
                · rename_i s2 e
                  rw [e] at hk
                  split
                  · exact outInv_wait h
                  · exact outInv_done hk
                · rename_i s2 l e
                  rw [e] at hk
                  exact outInv_done (inv_of_mem hk (updCmd_mem _ _ _ _ _ _))
                · rename_i s2 k a ma e
                  rw [e] at hk
                  exact outInv_done (inv_of_mem hk ((updCmd_mem _ _ _ _ _ _).trans (freeBoard_mem _ _ _ _)))

theorem popHead_mem {s s1 : State} {c : Ctx} {m : Nat} {g : Engine} {y : Cmd} (h : popHead s c m g = some (y, s1)) : s1.mem = s.mem := by
  unfold popHead at h
  split at h
  · cases h
  · split at h
    · split at h
      · cases h; rfl
      · cases h
    · cases h

theorem outInv_retireHead {s : State} (c m : Nat) (g : Engine) (f : State → Ctx → Cmd → State) (h : State.Inv s)
    (hf : ∀ s c y, State.Inv s → State.Inv (f s c y)) : OutInv (retireHead s c m g f) := by
  unfold retireHead
  split
  · exact outInv_fault _
  · split
    · exact outInv_wait h
    · rename_i e
      exact outInv_done (hf _ _ _ (inv_of_mem h (popHead_mem e)))

/-! ## Rows -/

@[simp] theorem passSlot_mem (s : State) (c : Ctx) (r : Row) (e : Entry) (i : Instr) : (passSlot s c r e i).mem = s.mem := rfl
@[simp] theorem passInspection_mem (s : State) (c : Ctx) (r : Row) : (passInspection s c r).mem = s.mem := rfl
@[simp] theorem completeSlot_mem (s : State) (t : RowSlot) (r : Row) (i : Instr) : (completeSlot s t r i).mem = s.mem := by
  unfold completeSlot
  dsimp only
  split
  · split <;> rfl
  · split
    · split <;> rfl
    · split <;> rfl
@[simp] theorem cureLanes_mem (s : State) (t : RowSlot) (p : LaneMask) (l : List Nat) : (cureLanes s t p l).mem = s.mem := by
  unfold cureLanes; split <;> rfl

theorem stopRow_inv {s : State} (c : Ctx) (i n : Nat) (t : Trap) (h : State.Inv s) : State.Inv (stopRow s c i n t) := by
  unfold stopRow
  split
  · exact enterTrap_inv _ _ _ h
  · exact h

theorem faultSlot_inv {s : State} (c : Ctx) (r : Row) (e : Entry) (i : Instr) (insp : Bool) (t : Trap) (h : State.Inv s) :
    State.Inv (faultSlot s c r e i insp t) := by
  unfold faultSlot
  split
  · split
    · exact stopRow_inv _ _ _ _ h
    · exact stopRow_inv _ _ _ _ h
  · split
    · exact h
    · exact stopRow_inv _ _ _ _ h

/-- What a row's execution left keeps the invariant. -/
def RowRes.Keeps : RowRes → Prop
  | .moved s | .ok s _ => State.Inv s
  | _ => True

/-- A lane slot keeps the invariant when its effect does. -/
theorem outInv_rowStep {s : State} (i : Instr) (f : RowSlot → RowRes) (h : State.Inv s) (hf : ∀ t, (f t).Keeps) :
    OutInv (rowStep s i f) := by
  unfold rowStep withCtx
  split
  · exact outInv_fault _
  · rename_i c _
    dsimp only
    split
    · rename_i r e _ _
      split
      · exact outInv_wait h
      · 
        have hk := hf ⟨c, r, e, !c.rowReady r e && c.inspReady r e⟩
        split
        · exact outInv_wait h
        · rename_i e1
          rw [e1] at hk
          split
          · exact outInv_wait h
          · exact outInv_done hk
        · exact outInv_done (faultSlot_inv _ _ _ _ _ _ h)
        · exact outInv_done (stopRow_inv _ _ _ _ h)
        · rename_i e1
          rw [e1] at hk
          exact outInv_done (inv_of_mem hk (completeSlot_mem _ _ _ _))
    · exact outInv_fault _

theorem applyResult_keeps {s : State} (t : RowSlot) (p : LaneMask) (la : BitVec 4) (x : Result) (h : State.Inv s) :
    (applyResult s t p la x).Keeps := inv_of_mem h (cureLanes_mem _ _ _ _)

theorem withSources_keeps {s : State} (t : RowSlot) (p : LaneMask) (ops : List Operand) (dep : LaneMask → List Source → Deps)
    (f : List Source → RowRes) (hf : ∀ l, (f l).Keeps) : (withSources s t p ops dep f).Keeps := by
  unfold withSources
  split
  · trivial
  · split
    · trivial
    · exact hf _

theorem outInv_computeSlot {s : State} (i : Instr) (la : BitVec 4) (ops : RowSlot → List Operand)
    (dep : LaneMask → List Source → Deps) (g : RowSlot → LaneMask → List Source → Result) (h : State.Inv s) :
    OutInv (computeSlot s i la ops dep g) :=
  outInv_rowStep i _ h fun t => withSources_keeps t _ _ _ _ fun _ => applyResult_keeps t _ _ _ h

/-! ## Markers -/

theorem releaseAcquire_inv {s s1 : State} (c : Ctx) (m : MarkerAt) (sc : Scope) (rel acq : Bool) (h : State.Inv s)
    (e : releaseAcquire s c m sc rel acq = some s1) : State.Inv s1 := by
  have hd : State.Inv (if rel then drainCtx s (c.dropMarker m) else (s, c.dropMarker m)).1 := by
    cases rel
    · exact h
    · exact drainCtx_inv _ h
  unfold releaseAcquire at e
  dsimp only at e
  generalize (if rel = true then drainCtx s (c.dropMarker m) else (s, c.dropMarker m)) = d at hd e
  by_cases h1 : (!rel || acknowledged d.1 c.id sc) = true
  · rw [if_pos h1] at e
    exact Option.some.inj e ▸ inv_of_mem hd rfl
  · rw [if_neg h1] at e
    by_cases h2 : (c.members.all fun mb => mb.psb.isEmpty) = true
    · rw [if_pos h2] at e; exact nomatch e
    · rw [if_neg h2] at e
      exact Option.some.inj e ▸ inv_of_mem (drainCtx_inv c h) rfl

theorem outInv_markerStep {s : State} (k : Nat) (f : Ctx → MarkerAt → Option State) (h : State.Inv s)
    (hf : ∀ c m s1, f c m = some s1 → State.Inv s1) : OutInv (markerStep s k f) := by
  unfold markerStep
  split
  · exact outInv_fault _
  · split
    · exact outInv_wait h
    · split
      · exact outInv_wait h
      · split
        · exact outInv_wait h
        · rename_i e
          exact outInv_done (hf _ _ _ e)

/-! ## Records -/

theorem writeRecord_inv {s : State} (d : Nat) (a : DWord) (ws : List DWord) (h : State.Inv s) : State.Inv (writeRecord s d a ws) := by
  unfold writeRecord
  split
  · exact h
  · exact perform_inv _ h

theorem ctlComplete_inv {s : State} (d : Option Nat) (a q n st r : Nat) (h : State.Inv s) :
    State.Inv (ctlComplete s d a q n st r) := by
  unfold ctlComplete
  refine inv_of_mem ?_ (releaseSlot_mem _ _ _)
  split
  · exact h
  · exact perform_inv _ h

theorem hostCommit_inv {s : State} (q : Nat) (n : DWord) (h : State.Inv s) : State.Inv (hostCommit s q n) := by
  unfold hostCommit
  split
  · exact h
  · split
    · exact h
    · exact commitSlot_inv _ _ h

theorem writeCopy_inv {s : State} (l : List (Nat × Byte)) (h : State.Inv s) : State.Inv (writeCopy s l) := perform_inv (s := s) _ h

end Sys2Proof.Machine
end

