-- ==== Sys2Proof/Laws/Ops.lean ====
section
/-!
SUPPORT. One lemma for each shared operation: what it answers once its conditions hold, and what that leaves.
-/
namespace Sys2Proof.Machine
open Sys2Proof.Safety

/-! ## Contexts that settle -/

/-- What the retirement of rows and the pruning of the stream leave alone: everything but rows, what waits for them and the
stream. -/
def Ctx.SameBut (c d : Ctx) : Prop :=
  ∃ rows kept members stream vq channel stores,
    d = { c with rows := rows, kept := kept, members := members, stream := stream, vq := vq, channel := channel, stores := stores }

theorem Ctx.SameBut.refl (c : Ctx) : c.SameBut c := ⟨c.rows, c.kept, c.members, c.stream, c.vq, c.channel, c.stores, rfl⟩
theorem Ctx.SameBut.trans {a b c : Ctx} (h : a.SameBut b) (k : b.SameBut c) : a.SameBut c := by
  obtain ⟨r, x, m, st, v, ch, so, rfl⟩ := h
  obtain ⟨r, x, m, st, v, ch, so, rfl⟩ := k
  exact ⟨r, x, m, st, v, ch, so, rfl⟩

/-- The form in which claims say it. -/
theorem Ctx.SameBut.eq {c d : Ctx} (h : c.SameBut d) :
    d = { c with rows := d.rows, kept := d.kept, members := d.members, stream := d.stream, vq := d.vq, channel := d.channel,
                 stores := d.stores } := by
  obtain ⟨r, x, m, st, v, ch, so, rfl⟩ := h
  rfl

theorem Ctx.SameBut.id {c d : Ctx} (h : c.SameBut d) : d.id = c.id := by
  obtain ⟨r, x, m, st, v, ch, so, rfl⟩ := h; rfl
theorem Ctx.SameBut.gen {c d : Ctx} (h : c.SameBut d) : d.gen = c.gen := by
  obtain ⟨r, x, m, st, v, ch, so, rfl⟩ := h; rfl
theorem Ctx.SameBut.g {c d : Ctx} (h : c.SameBut d) : d.g = c.g := by
  obtain ⟨r, x, m, st, v, ch, so, rfl⟩ := h; rfl
theorem Ctx.SameBut.pc {c d : Ctx} (h : c.SameBut d) : d.pc = c.pc := by
  obtain ⟨r, x, m, st, v, ch, so, rfl⟩ := h; rfl

theorem retireRow_same (c : Ctx) (r : Row) (n : Nat) (e : BitVec 48) : c.SameBut (c.retireRow r n e) :=
  ⟨_, _, _, c.stream, c.vq, c.channel, c.stores, rfl⟩

theorem foldl_same {α : Type} (f : Ctx → α → Ctx) (hf : ∀ (c : Ctx) (x : α), c.SameBut (f c x)) (l : List α) :
    ∀ c : Ctx, c.SameBut (l.foldl f c) := by
  induction l with
  | nil => intro c; exact Ctx.SameBut.refl c
  | cons x l ih => intro c; exact (hf c x).trans (ih (f c x))

theorem retireDone_same (c : Ctx) : c.SameBut c.retireDone := by
  unfold Ctx.retireDone
  split
  · refine foldl_same _ (fun (d : Ctx) (r : Row) => ?_) c.rows c
    split
    · split
      · exact retireRow_same d _ _ _
      · exact Ctx.SameBut.refl d
    · exact Ctx.SameBut.refl d
  · exact Ctx.SameBut.refl c

theorem prune_same (c : Ctx) : c.SameBut c.prune := ⟨c.rows, c.kept, c.members, _, c.vq, c.channel, _, rfl⟩
theorem resolveVotes_same (c : Ctx) : c.SameBut c.resolveVotes := ⟨c.rows, c.kept, c.members, c.stream, _, c.channel, c.stores, rfl⟩
theorem pruneChannel_same (c : Ctx) : c.SameBut c.pruneChannel := ⟨c.rows, c.kept, c.members, c.stream, c.vq, _, c.stores, rfl⟩

theorem prune_rows (c : Ctx) : c.prune.rows = c.rows := rfl
theorem resolveVotes_rows (c : Ctx) : c.resolveVotes.rows = c.rows := rfl
theorem pruneChannel_rows (c : Ctx) : c.pruneChannel.rows = c.rows := rfl

theorem settle_same (c : Ctx) : c.SameBut c.settle :=
  ((((retireDone_same c).trans (prune_same _)).trans (resolveVotes_same _)).trans (prune_same _)).trans (pruneChannel_same _)

@[simp] theorem settle_id (c : Ctx) : c.settle.id = c.id := (settle_same c).id
@[simp] theorem settle_gen (c : Ctx) : c.settle.gen = c.gen := (settle_same c).gen
@[simp] theorem settle_g (c : Ctx) : c.settle.g = c.g := (settle_same c).g
@[simp] theorem settle_pc (c : Ctx) : c.settle.pc = c.pc := (settle_same c).pc

/-- What stays of a row that takes a slot or retires: everything but its position and what goes with it. -/
def Row.SameBut (r q : Row) : Prop :=
  ∃ issue windows retired stop late ahead overwritten halted amo held due lateMask,
    q = { r with issue := issue, windows := windows, retired := retired, stop := stop, late := late, ahead := ahead,
                 overwritten := overwritten, halted := halted, amo := amo, held := held, due := due, lateMask := lateMask }

theorem Row.SameBut.refl (r : Row) : r.SameBut r :=
  ⟨r.issue, r.windows, r.retired, r.stop, r.late, r.ahead, r.overwritten, r.halted, r.amo, r.held, r.due, r.lateMask, rfl⟩
theorem Row.SameBut.trans {a b c : Row} (h : a.SameBut b) (k : b.SameBut c) : a.SameBut c := by
  obtain ⟨x1, x2, x3, x4, x5, x6, x7, x8, x9, x10, x11, x12, rfl⟩ := h
  obtain ⟨x1, x2, x3, x4, x5, x6, x7, x8, x9, x10, x11, x12, rfl⟩ := k
  exact ⟨x1, x2, x3, x4, x5, x6, x7, x8, x9, x10, x11, x12, rfl⟩
theorem Row.SameBut.kept {a b : Row} (h : a.SameBut b) : rowKept b = rowKept a := by
  obtain ⟨x1, x2, x3, x4, x5, x6, x7, x8, x9, x10, x11, x12, rfl⟩ := h
  rfl

/-- Every row of `c` stands in `d` as it was but for its position. -/
def Ctx.KeepsRows (c d : Ctx) : Prop :=
  ∀ k, match c.rowOf k with
    | none => d.rowOf k = none
    | some r => ∃ q, d.rowOf k = some q ∧ r.SameBut q

theorem Ctx.KeepsRows.of_eq {c d : Ctx} (h : d.rows = c.rows) : c.KeepsRows d := by
  intro k
  have : d.rowOf k = c.rowOf k := by unfold Ctx.rowOf; rw [h]
  rw [this]
  cases c.rowOf k with
  | none => rfl
  | some r => exact ⟨r, rfl, Row.SameBut.refl r⟩

theorem Ctx.KeepsRows.trans {a b c : Ctx} (h : a.KeepsRows b) (g : b.KeepsRows c) : a.KeepsRows c := by
  intro k
  have h1 := h k
  have g1 := g k
  cases ha : a.rowOf k with
  | none => rw [ha] at h1; rw [show b.rowOf k = none from h1] at g1; exact g1
  | some r =>
    rw [ha] at h1
    obtain ⟨q, hq, hr⟩ := h1
    rw [hq] at g1
    obtain ⟨z, hz, hw⟩ := g1
    exact ⟨z, hz, hr.trans hw⟩

theorem Ctx.KeepsRows.kept {c d : Ctx} (h : c.KeepsRows d) (k : Nat) : (d.rowOf k).map rowKept = (c.rowOf k).map rowKept := by
  have h1 := h k
  cases hc : c.rowOf k with
  | none => rw [hc] at h1; rw [show d.rowOf k = none from h1]
  | some r =>
    rw [hc] at h1
    obtain ⟨q, hq, hr⟩ := h1
    rw [hq, Option.map_some, Option.map_some, hr.kept]

/-- The members stand as they were but for the carries that have come in. -/
def Ctx.KeepsMembers (c d : Ctx) : Prop := d.members.map memberKept = c.members.map memberKept

theorem Ctx.KeepsMembers.inbox (c : Ctx) (f : Member → List InboxEntry) :
    (c.members.map fun m => { m with inbox := f m }).map memberKept = c.members.map memberKept := by
  rw [List.map_map]; rfl

theorem rowOf_putRow (c : Ctx) (r : Row) (k : Nat) :
    (c.putRow r).rowOf k = if k = r.item then (c.rowOf k).map fun _ => r else c.rowOf k :=
  find_mapIf (fun x : Row => x.item) c.rows r k

theorem rowOf_item {c : Ctx} {k : Nat} {r : Row} (h : c.rowOf k = some r) : r.item = k := by
  simpa using List.find?_some h

theorem retireRow_keeps {c : Ctx} {x : Row} (n : Nat) (e : BitVec 48) (h : c.rowOf x.item = some x) : c.KeepsRows (c.retireRow x n e) := by
  intro k
  have hr : (c.retireRow x n e).rowOf k = (c.putRow { x with
      retired := some ⟨n, e, c.carried.map fun y => (y, x.reg y)⟩, windows := [], stop := none, late := none, amo := none, held := none,
      due := [], lateMask := none }).rowOf k :=
    rfl
  rw [hr, rowOf_putRow]
  dsimp only
  by_cases hk : k = x.item
  · subst hk
    rw [h, if_pos rfl]
    exact ⟨_, rfl, x.issue, _, _, _, _, x.ahead, x.overwritten, x.halted, _, _, _, _, rfl⟩
  · rw [if_neg hk]
    cases c.rowOf k with
    | none => rfl
    | some r => exact ⟨r, rfl, Row.SameBut.refl r⟩

theorem retireRow_members (c : Ctx) (x : Row) (n : Nat) (e : BitVec 48) : c.KeepsMembers (c.retireRow x n e) :=
  Ctx.KeepsMembers.inbox c _

theorem retireDone_keeps (c : Ctx) : c.KeepsRows c.retireDone ∧ c.KeepsMembers c.retireDone := by
  have key : ∀ (l : List Row) (d : Ctx), c.KeepsRows d → c.KeepsMembers d →
      let z := l.foldl (fun c x =>
        match c.rowOf x.item with
        | some r => if r.live && c.unheld r.member && c.stream.all (fun e => !e.item.keepsRow || c.passedBy r e) then c.retireRow r c.nextSeq c.nextEsn
          else c
        | none => c) d
      c.KeepsRows z ∧ c.KeepsMembers z := by
    intro l
    induction l with
    | nil => intro d h g; exact ⟨h, g⟩
    | cons x l ih =>
      intro d h g
      rw [List.foldl_cons]
      cases hx : d.rowOf x.item with
      | none => exact ih d h g
      | some r =>
        dsimp only
        split
        · exact ih _ (h.trans (retireRow_keeps _ _ (by rw [rowOf_item hx]; exact hx))) ((retireRow_members d r _ _).trans g)
        · exact ih d h g
  unfold Ctx.retireDone
  split
  · exact key c.rows c (Ctx.KeepsRows.of_eq rfl) rfl
  · exact ⟨Ctx.KeepsRows.of_eq rfl, rfl⟩

theorem prune_members (c : Ctx) : c.prune.members = c.members := rfl
theorem resolveVotes_members (c : Ctx) : c.resolveVotes.members = c.members := rfl
theorem pruneChannel_members (c : Ctx) : c.pruneChannel.members = c.members := rfl

/-- Settling keeps the rows as they are but for their retirement, and the members but for what waited for a retired row. -/
theorem settle_keeps (c : Ctx) : c.KeepsRows c.settle ∧ c.KeepsMembers c.settle := by
  have hs : c.settle.rows = c.retireDone.rows := by
    unfold Ctx.settle; rw [pruneChannel_rows, prune_rows, resolveVotes_rows, prune_rows]
  have hm : c.settle.members = c.retireDone.members := by
    unfold Ctx.settle; rw [pruneChannel_members, prune_members, resolveVotes_members, prune_members]
  refine ⟨(retireDone_keeps c).1.trans (Ctx.KeepsRows.of_eq hs), ?_⟩
  unfold Ctx.KeepsMembers
  rw [hm]
  exact (retireDone_keeps c).2

/-- What a slot's completion leaves of a context: `r` is the row that the slot made. -/
def Ctx.RowDone (c : Ctx) (r : Row) (d : Ctx) : Prop :=
  c.SameBut d ∧ c.KeepsMembers d ∧ (∃ q, d.rowOf r.item = some q ∧ r.SameBut q) ∧
    ∀ k, k ≠ r.item → (d.rowOf k).map rowKept = (c.rowOf k).map rowKept

/-- A row put back in place of the one of its number. -/
theorem putRow_done {c : Ctx} {r x : Row} (h : c.rowOf r.item = some x) : c.RowDone r (c.putRow r) := by
  refine ⟨⟨_, c.kept, c.members, c.stream, c.vq, c.channel, c.stores, rfl⟩, rfl, ⟨r, ?_, Row.SameBut.refl r⟩, fun k hk => ?_⟩
  · rw [rowOf_putRow, if_pos rfl, h]; rfl
  · rw [rowOf_putRow, if_neg hk]

theorem Ctx.RowDone.then {c d z : Ctx} {r : Row} (h : c.RowDone r d) (g : d.SameBut z) (hr : d.KeepsRows z) (hm : d.KeepsMembers z) :
    c.RowDone r z := by
  obtain ⟨h1, h2, ⟨q, h3, h4⟩, h5⟩ := h
  refine ⟨h1.trans g, hm.trans h2, ?_, fun k hk => (hr.kept k).trans (h5 k hk)⟩
  have := hr r.item
  rw [h3] at this
  obtain ⟨w, hw, hq⟩ := this
  exact ⟨w, hw, h4.trans hq⟩

/-! ## Generator instructions -/

theorem withCtx_some {s : State} {c : Ctx} {f : Ctx → Out} (h : s.ctxOf s.hand.ctx = some c) : withCtx s f = f c := by
  unfold withCtx; rw [h]

theorem noPoison {s : State} {c : Ctx} {srcs : List GReg} (h : GenReady s c srcs) :
    (srcs.find? fun r => s.gPoisoned c.id r) = none := by
  rw [List.find?_eq_none]
  intro r hr
  simp [h.2 r hr]

/-- A generator instruction whose sources are clean does what its own effect says, then its sequencing. -/
theorem genStep_ok {s s1 : State} {c c1 : Ctx} {q : Seq} {srcs : List GReg} {f : Ctx → GenRes} (h : GenReady s c srcs)
    (hf : f c = .ok s1 c1) (hq : SeqOk c q) : genStep s q srcs f = .next (genNext s1 c1 q) := by
  unfold genStep
  rw [withCtx_some h.1, noPoison h]
  dsimp only
  rw [hf]
  dsimp only
  rw [hq]
  rfl

/-- It traps where its own effect says so. -/
theorem genStep_trap {s : State} {c : Ctx} {q : Seq} {srcs : List GReg} {f : Ctx → GenRes} {k : Cause} {a : DWord}
    (h : GenReady s c srcs) (hf : f c = .trap k a) : genStep s q srcs f = genFault s c k a := by
  unfold genStep
  rw [withCtx_some h.1, noPoison h]
  dsimp only
  rw [hf]

/-- It waits where its own effect says so. -/
theorem genStep_wait {s : State} {c : Ctx} {q : Seq} {srcs : List GReg} {f : Ctx → GenRes}
    (h : GenReady s c srcs) (hf : f c = .wait) : genStep s q srcs f = wait s := by
  unfold genStep
  rw [withCtx_some h.1, noPoison h]
  dsimp only
  rw [hf]

/-- A fault of the sequencing undoes the effect. -/
theorem genStep_seqFault {s s1 : State} {c c1 : Ctx} {q : Seq} {srcs : List GReg} {f : Ctx → GenRes} {k : Cause}
    (h : GenReady s c srcs) (hf : f c = .ok s1 c1) (hq : c.seqFault q = some k) : genStep s q srcs f = genFault s c k 0 := by
  unfold genStep
  rw [withCtx_some h.1, noPoison h]
  dsimp only
  rw [hf]
  dsimp only
  rw [hq]

theorem genCompute_ok {s : State} {c : Ctx} {q : Seq} {d : GReg} {srcs : List GReg} {f : Ctx → DWord} (h : GenReady s c srcs)
    (hq : SeqOk c q) : genCompute s q d srcs f = .next (genDone s c q d (f c)) :=
  genStep_ok h rfl hq

/-! ## Traps -/

theorem unsleep_ctx (s : State) (c : Ctx) : (unsleep s c).2 = { c with gen := (unsleep s c).2.gen, twait := (unsleep s c).2.twait } := by
  unfold unsleep; dsimp only; split <;> rfl

theorem unsleep_state (s : State) (c : Ctx) : (unsleep s c).1 =
    { s with queues := s.queues.map fun q => { q with sleepers := q.sleepers.filter fun w => w != c.id } } := by
  unfold unsleep; dsimp only; split <;> rfl

theorem reportFault_eq (s : State) (c : Ctx) (t : Trap) (h : Handling) :
    reportFault s c t h = { s with links := if t.cause.isEvent then s.links
      else s.links ++ [{ leaf := c.faultLeaf h, crimson := c.cls == .crimson, sent := false, body := .fault c.id t.word }] } := by
  unfold reportFault post
  split <;> rfl

/-- A trap that can be taken leaves the record, SUPER mode, the handler's address and what its return needs. -/
theorem enterTrap_entered {s : State} {c : Ctx} {t : Trap} {h : Handling} (hc : CanTrap c) (hs : s.ctxOf c.id = some c) :
    TrapEntered s c t h { enterTrap s c t h with waited := false } := by
  have he : enterTrap s c t h = (unsleep (reportFault s c t h) c).1.putCtx { (c.record t) with
      priv := true, handler := true, pc := c.tvec, ir := none, gen := .running, halting := false, handling := some h,
      twait := (unsleep (reportFault s c t h) c).2.twait } := by
    unfold enterTrap takeTrap
    rw [if_neg (by simp [hc.1]), if_neg (by simpa using hc.2)]
    dsimp only
    rw [unsleep_ctx (reportFault s c t h) c]
    rfl
  rw [he, unsleep_state, reportFault_eq]
  generalize (unsleep _ c).2.twait = w
  generalize hd : ({ (c.record t) with
      priv := true, handler := true, pc := c.tvec, ir := none, gen := .running, halting := false, handling := some h, twait := w } : Ctx) = d
  have hid : d.id = c.id := by subst hd; rfl
  refine ⟨?_, ?_, d, ?_, ?_⟩
  · rfl
  · intro j hj
    exact ctxOf_putCtx_other _ d (j := j) (by rw [hid]; exact hj)
  · have := ctxOf_putCtx_self (s := s) (c := d) (d := c) (by rw [hid]; exact hs)
    rw [hid] at this
    exact this
  · subst hd; rfl

/-- A generator trap or an event. -/
theorem plainTrap_taken {s : State} {c : Ctx} {t : Trap} (n : Nat) (hc : CanTrap c) (hs : s.ctxOf c.id = some c) :
    TrapEntered s c t (plainHandling t n) { plainTrap s c t n with waited := false } := enterTrap_entered hc hs

/-- A precise generator fault. -/
theorem genFault_taken {s : State} {c : Ctx} {k : Cause} {a : DWord} (hc : CanTrap c) (hs : s.ctxOf c.id = some c) :
    ∃ t, genFault s c k a = .next t ∧ Trapped s c (genTrap c k a) t :=
  ⟨_, rfl, plainTrap_taken 1 hc hs⟩

/-- A precise emission fault. -/
theorem emitFault_taken {s : State} {c : Ctx} {k : Cause} {a : DWord} (n : Nat) (hc : CanTrap c) (hs : s.ctxOf c.id = some c) :
    ∃ t, emitFault s c n k a = .next t ∧ TrapEntered s c (emitTrap c k a) (plainHandling (emitTrap c k a) n) t :=
  ⟨_, rfl, plainTrap_taken n hc hs⟩

/-! ## Lane slots -/

/-- The row in hand takes the slot in hand: its effect, then its completion. -/
theorem rowStep_ok {s s1 : State} {i : Instr} {t : RowSlot} {r : Row} {f : RowSlot → RowRes} (h : RowTurn s i t)
    (hf : f t = .ok s1 r) : rowStep s i f = .next (slotDone s1 t r i) := by
  obtain ⟨c, q, e, b⟩ := t
  obtain ⟨h1, h2, h3, h4, h5, h6⟩ := h
  dsimp only at h1 h2 h3 h4 h5 h6
  subst h6
  unfold rowStep
  rw [withCtx_some h1, h2, h3]
  dsimp only
  have hg : (e.item != StreamItem.slot i || !(c.rowReady q e || !c.rowReady q e && c.inspReady q e)) = false := by
    rw [h4]
    revert h5
    cases c.rowReady q e <;> cases c.inspReady q e <;> simp
  rw [hg, if_neg Bool.false_ne_true, hf]
  rfl

/-- A lane fault stops the row. -/
theorem rowStep_fault {s : State} {i : Instr} {t : RowSlot} {f : RowSlot → RowRes} {k : Cause} {a : DWord} {m : LaneMask}
    (h : RowTurn s i t) (hf : f t = .fault k a m) :
    rowStep s i f = .next { faultSlot s t.c t.r t.e i t.insp (laneTrap t.e k a m) with waited := false } := by
  obtain ⟨c, q, e, b⟩ := t
  obtain ⟨h1, h2, h3, h4, h5, h6⟩ := h
  dsimp only at h1 h2 h3 h4 h5 h6
  subst h6
  unfold rowStep
  rw [withCtx_some h1, h2, h3]
  dsimp only
  have hg : (e.item != StreamItem.slot i || !(c.rowReady q e || !c.rowReady q e && c.inspReady q e)) = false := by
    rw [h4]
    revert h5
    cases c.rowReady q e <;> cases c.inspReady q e <;> simp
  rw [hg, if_neg Bool.false_ne_true, hf]
  rfl

theorem withSources_ok {s : State} {t : RowSlot} {i : Instr} {ops : List Operand} {dep : LaneMask → List Source → Deps}
    {srcs : List Source} (h : Readable s t i ops dep srcs) (f : List Source → RowRes) :
    withSources s t (t.part i) ops dep f = f srcs := by
  unfold withSources
  rw [h.1]
  dsimp only
  rw [h.2, ite_self]

/-- A slot that only computes leaves its results. -/
theorem computeSlot_ok {s : State} {i : Instr} {t : RowSlot} {la : BitVec 4} {ops : RowSlot → List Operand}
    {dep : LaneMask → List Source → Deps} {g : RowSlot → LaneMask → List Source → Result} {srcs : List Source}
    (h : RowTurn s i t) (hr : Readable s t i (ops t) dep srcs) :
    computeSlot s i la ops dep g = .next (laneDone s t i la (g t (t.part i) srcs)) := by
  unfold computeSlot
  refine rowStep_ok h ?_
  dsimp only
  rw [withSources_ok hr]
  rfl

/-- What the completion of an inspection slot leaves. -/
theorem passInspection_eq (s : State) {c : Ctx} {r x : Row} (h : c.rowOf r.item = some x) :
    ∃ d, passInspection s c r = s.putCtx d ∧ c.RowDone r d := by
  unfold passInspection
  dsimp only
  exact ⟨_, rfl, (putRow_done h).then ⟨_, _, _, _, _, _, _, rfl⟩ (Ctx.KeepsRows.of_eq rfl) rfl⟩

theorem took_item (r : Row) (e : Entry) (b : Bool) (l : List Instance) : (r.took e b l).item = r.item := by
  unfold Row.took; split <;> rfl
theorem took_same (r : Row) (e : Entry) (b : Bool) (l : List Instance) : r.SameBut (r.took e b l) := by
  unfold Row.took; split <;> exact ⟨_, _, r.retired, r.stop, r.late, _, _, _, _, _, _, _, rfl⟩

/-- What the completion of a slot of the stream leaves. -/
theorem passSlot_eq (s : State) {c : Ctx} {r x : Row} (e : Entry) (i : Instr) (h : c.rowOf r.item = some x) :
    ∃ d, passSlot s c r e i = s.putCtx d ∧ c.RowDone r d := by
  have key : ∀ (r' : Row) (d : Ctx) (gone : Bool) (n : Nat) (esn : BitVec 48), r'.item = r.item → r.SameBut r' → c.RowDone r' d →
      d.rowOf r'.item = some r' →
      ∃ z, s.putCtx (if gone = true then d.retireRow r' n esn else d).settle = s.putCtx z ∧ c.RowDone r z := by
    intro r' d gone n esn hi hsb hd hq
    have fin : ∀ z : Ctx, c.RowDone r' z → c.RowDone r z := by
      rintro z ⟨a, b, ⟨q, hq, hs⟩, g⟩
      rw [hi] at hq g
      exact ⟨a, b, ⟨q, hq, hsb.trans hs⟩, g⟩
    cases gone
    · exact ⟨_, rfl, fin _ (hd.then (settle_same _) (settle_keeps _).1 (settle_keeps _).2)⟩
    · exact ⟨_, rfl, fin _ ((hd.then (retireRow_same d r' _ _) (retireRow_keeps _ _ hq) (retireRow_members d r' _ _)).then
        (settle_same _) (settle_keeps _).1 (settle_keeps _).2)⟩
  have main : ∀ r' : Row, r'.item = r.item → r.SameBut r' → ∀ (f : Member → List InboxEntry) (kp : List Instance) (gone : Bool)
      (n : Nat) (esn : BitVec 48),
      ∃ z, s.putCtx (if gone = true then
          ({ c.putRow r' with kept := kp, members := c.members.map fun m => { m with inbox := f m } } : Ctx).retireRow r' n esn
        else { c.putRow r' with kept := kp, members := c.members.map fun m => { m with inbox := f m } }).settle = s.putCtx z ∧ c.RowDone r z := by
    intro r' hi hsb f kp gone n esn
    have hr : c.rowOf r'.item = some x := by rw [hi]; exact h
    refine key r' _ gone n esn hi hsb
      ((putRow_done hr).then ⟨_, _, _, _, _, _, _, rfl⟩ (Ctx.KeepsRows.of_eq rfl) (Ctx.KeepsMembers.inbox c f)) ?_
    show (c.putRow r').rowOf r'.item = some r'
    rw [rowOf_putRow, if_pos rfl, hr]; rfl
  unfold passSlot
  exact main _ (took_item r e c.halting _) (took_same r e c.halting _) _ _ _ _ _

/-- The state in which a slot's completion is recorded. -/
theorem completeSlot_eq {s s1 : State} {t : RowSlot} {r : Row} (i : Instr) (h1 : s.ctxOf t.c.id = some t.c)
    (hrow : t.c.rowOf r.item = some t.r) (hs : s1 = { s with poison := s1.poison, free := s1.free }) :
    ∃ (s2 : State) (d : Ctx), completeSlot s1 t r i = s2.putCtx d ∧ s2 = { s with poison := s2.poison, free := s2.free } ∧ t.c.RowDone r d := by
  have hctx : ∀ n, State.ctxOf { s1 with free := n } t.c.id = some t.c := by
    intro n; rw [hs]; exact h1
  have key : ∀ n, ∃ (s2 : State) (d : Ctx), (match State.ctxOf { s1 with free := n } t.c.id with
      | none => { s1 with free := n }
      | some c => if t.insp then passInspection { s1 with free := n } c r else passSlot { s1 with free := n } c r t.e i) = s2.putCtx d ∧
        s2 = { s with poison := s2.poison, free := s2.free } ∧ t.c.RowDone r d := by
    intro n
    rw [hctx n]
    dsimp only
    split
    · obtain ⟨d, e, h⟩ := passInspection_eq { s1 with free := n } hrow
      exact ⟨_, d, e, by rw [hs], h⟩
    · obtain ⟨d, e, h⟩ := passSlot_eq { s1 with free := n } t.e i hrow
      exact ⟨_, d, e, by rw [hs], h⟩
  unfold completeSlot
  by_cases hb : (!t.r.windows.isEmpty || (t.c.member r.member).any fun m => !m.bank.hazards.isEmpty) = true
  · simp only [hb, if_true]
    exact key (s1.free + 1)
  · rw [Bool.not_eq_true] at hb
    simp only [hb, Bool.false_eq_true, if_false]
    exact key s1.free

/-- What a slot's completion leaves: the row as its effect made it but for its position, windows and retirement. -/
theorem slotDone_after {s s1 : State} {i : Instr} {t : RowSlot} {r : Row} (h : RowTurn s i t)
    (hs : s1 = { s with poison := s1.poison, free := s1.free }) (hr : r.item = t.r.item) :
    ∃ q, RowAfter s t (slotDone s1 t r i) q ∧ r.SameBut q := by
  obtain ⟨h1, h2, -, -, -, -⟩ := h
  have hid : t.c.id = s.hand.ctx := ctxOf_id h1
  have hrow : t.c.rowOf r.item = some t.r := by
    rw [hr, rowOf_item h2]; exact h2
  have hself : s.ctxOf t.c.id = some t.c := by rw [hid]; exact h1
  obtain ⟨s2, d, he, hs2, hsame, hmem, ⟨q, hq, hrq⟩, hoth⟩ := completeSlot_eq i hself hrow hs
  have hd : d.id = t.c.id := hsame.id
  have hctx : ∀ k, s2.ctxOf k = s.ctxOf k := by intro k; rw [hs2]; rfl
  refine ⟨q, ⟨?_, ?_, d, ?_, by rw [← hr]; exact hq, hsame.eq, hmem, fun k hk => hoth k (by rw [hr]; exact hk)⟩, hrq⟩
  · unfold slotDone; rw [he]; unfold State.putCtx; rw [hs2]
  · intro k hk
    have := ctxOf_putCtx_other s2 d (j := k) (by rw [hd]; exact hk)
    unfold slotDone; rw [he]; exact this.trans (hctx k)
  · have := ctxOf_putCtx_self (s := s2) (c := d) (d := t.c) (by rw [hd, hctx]; exact hself)
    rw [hd] at this
    unfold slotDone; rw [he]; exact this

/-! ## What a slot's results leave in its row -/

theorem cureLanes_same (s : State) (t : RowSlot) (p : LaneMask) (l : List Nat) :
    cureLanes s t p l = { s with poison := (cureLanes s t p l).poison, free := (cureLanes s t p l).free } := by
  unfold cureLanes
  split <;> rfl

/-- What instances receive leaves everything else of a row. -/
theorem fillDue_eq (r : Row) (b : Bool) (p : LaneMask) (w : Nat × Lanes) : ∃ d, r.fillDue b p w = { r with due := d } := by
  unfold Row.fillDue; split
  · exact ⟨r.due, rfl⟩
  · exact ⟨_, rfl⟩

theorem writeReg_item (t : RowSlot) (p : LaneMask) (la : BitVec 4) (tg : Tag) (r : Row) (w : Nat × Lanes) :
    (writeReg t p la tg r w).item = r.item := by
  obtain ⟨d, hd⟩ := fillDue_eq r t.insp p w
  unfold writeReg; rw [hd]; dsimp only; split <;> rfl

/-- A slot's own writes leave the lanes that it may write as they are. -/
theorem writeReg_writable (t : RowSlot) (p : LaneMask) (la : BitVec 4) (tg : Tag) (r : Row) (w : Nat × Lanes) (k : Nat) :
    (writeReg t p la tg r w).writable t.insp p k = r.writable t.insp p k := by
  obtain ⟨d, hd⟩ := fillDue_eq r t.insp p w
  unfold writeReg; rw [hd]; dsimp only
  split
  · rfl
  · show Row.writable { r with overwritten := _ } _ _ _ = _
    unfold Row.writable Row.lanesAhead
    cases r.late.isSome <;> cases t.insp <;> rfl

theorem foldl_writeReg_item (t : RowSlot) (p : LaneMask) (la : BitVec 4) (tg : Tag) (l : List (Nat × Lanes)) :
    ∀ r : Row, (l.foldl (writeReg t p la tg) r).item = r.item := by
  induction l with
  | nil => intro r; rfl
  | cons w l ih => intro r; rw [List.foldl_cons, ih, writeReg_item]

theorem rowWith_item (t : RowSlot) (p : LaneMask) (la : BitVec 4) (x : Result) : (rowWith t p la x).item = t.r.item := by
  unfold rowWith
  dsimp only
  rw [← foldl_writeReg_item t p la (if t.e.kA == 0 && t.e.kB == 0 then x.tag else .g) x.writes t.r]
  split
  · unfold Row.setPred; split <;> rfl
  · rfl

/-- A computing slot leaves the row that its results make. -/
theorem laneDone_after {s : State} {i : Instr} {t : RowSlot} (la : BitVec 4) (x : Result) (h : RowTurn s i t) :
    ∃ q, RowAfter s t (laneDone s t i la x) q ∧ (rowWith t (t.part i) la x).SameBut q :=
  slotDone_after h (cureLanes_same s t _ _) (rowWith_item t _ la x)

/-- A lane of a built register. -/
theorem build_get (f : Nat → Word) {l : Nat} (h : l < 64) : (Lanes.build f).get l = f l := by
  unfold Lanes.build Lanes.get
  simp [List.getD, h]

theorem setAt_length {α : Type} (l : List α) : ∀ (n : Nat) (y : α), (setAt l n y).length = l.length := by
  induction l with
  | nil => intro n y; rfl
  | cons x l ih =>
    intro n y
    cases n with
    | zero => rfl
    | succ n => exact congrArg (· + 1) (ih n y)

theorem setAt_get {α : Type} (l : List α) : ∀ (n k : Nat) (y : α), n < l.length →
    (setAt l n y)[k]? = if k = n then some y else l[k]? := by
  induction l with
  | nil => intro n k y h; exact absurd h (Nat.not_lt_zero n)
  | cons x l ih =>
    intro n k y h
    cases n with
    | zero => cases k <;> rfl
    | succ n =>
      cases k with
      | zero => rfl
      | succ k =>
        have := ih n k y (Nat.lt_of_succ_lt_succ h)
        simp only [setAt, List.getElem?_cons_succ, this, Nat.succ.injEq]

/-- A written register, and the others. -/
theorem setReg_reg (r : Row) (n k : Nat) (v : VRegister) (h : n < r.regs.length) :
    (r.setReg n v).reg k = if k = n then v.lanes else r.reg k := by
  unfold Row.setReg Row.reg
  dsimp only
  rw [setAt_get r.regs n k v h]
  split <;> rfl

theorem writeReg_reg (t : RowSlot) (p : LaneMask) (la : BitVec 4) (tg : Tag) (r : Row) (d k l : Nat) (v : Lanes)
    (h : d < r.regs.length) (hl : l < 64) :
    ((writeReg t p la tg r (d, v)).reg k).get l =
      if k = d ∧ (r.writable t.insp p d).getLsbD l = true then v.get l else (r.reg k).get l := by
  obtain ⟨du, hd⟩ := fillDue_eq r t.insp p (d, v)
  unfold writeReg
  rw [hd]
  dsimp only
  generalize r.writable t.insp p d = m
  by_cases hp : m = 0
  · subst hp; simp; rfl
  · rw [if_neg (by simpa using hp)]
    show (Row.reg (r.setReg d _) k).get l = _
    rw [setReg_reg r d k _ h]
    by_cases hk : k = d
    · subst hk
      rw [if_pos rfl]
      dsimp only
      rw [build_get _ hl]
      simp
      rfl
    · rw [if_neg hk, if_neg (fun e => hk e.1)]

theorem writeReg_other (t : RowSlot) (p : LaneMask) (la : BitVec 4) (tg : Tag) (r : Row) (d : Nat) (v : Lanes) {k : Nat}
    (h : d < r.regs.length) (hk : k ≠ d) : (writeReg t p la tg r (d, v)).regs[k]? = r.regs[k]? := by
  obtain ⟨du, hd⟩ := fillDue_eq r t.insp p (d, v)
  unfold writeReg
  rw [hd]
  dsimp only
  split
  · rfl
  · show (setAt r.regs d _)[k]? = _
    rw [setAt_get r.regs d k _ h, if_neg hk]

theorem writeReg_frame (t : RowSlot) (p : LaneMask) (la : BitVec 4) (tg : Tag) (r : Row) (w : Nat × Lanes) :
    let q := writeReg t p la tg r w
    q.regs.length = r.regs.length ∧ q.preds = r.preds ∧ q.mask = r.mask ∧ q.rng = r.rng ∧ q.flags = r.flags := by
  obtain ⟨du, hd⟩ := fillDue_eq r t.insp p w
  dsimp only
  unfold writeReg
  rw [hd]
  dsimp only
  split
  · exact ⟨rfl, rfl, rfl, rfl, rfl⟩
  · exact ⟨setAt_length _ _ _, rfl, rfl, rfl, rfl⟩

/-- What a list of writes leaves: the last write to a register stands in the lanes that the slot writes. -/
theorem foldl_writeReg_reverse (t : RowSlot) (p : LaneMask) (la : BitVec 4) (tg : Tag) (r : Row) (l : List (Nat × Lanes))
    (h : ∀ w ∈ l, w.1 < r.regs.length) :
    let q := l.reverse.foldl (writeReg t p la tg) r
    q.regs.length = r.regs.length ∧ q.preds = r.preds ∧ q.mask = r.mask ∧ q.rng = r.rng ∧ q.flags = r.flags ∧
      (∀ k, q.writable t.insp p k = r.writable t.insp p k) ∧
      ∀ k, match l.find? fun w => w.1 == k with
        | none => q.regs[k]? = r.regs[k]?
        | some w => ∀ i, i < 64 → (q.reg k).get i = if (r.writable t.insp p k).getLsbD i = true then w.2.get i else (r.reg k).get i := by
  induction l with
  | nil => exact ⟨rfl, rfl, rfl, rfl, rfl, fun _ => rfl, fun k => rfl⟩
  | cons w l ih =>
    obtain ⟨h1, h2, h3, h4, h5, hw0, h6⟩ := ih fun x hx => h x (by simp [hx])
    rw [List.reverse_cons, List.foldl_append, List.foldl_cons, List.foldl_nil]
    generalize hq : l.reverse.foldl (writeReg t p la tg) r = q at *
    obtain ⟨f1, f2, f3, f4, f5⟩ := writeReg_frame t p la tg q w
    have hw : w.1 < q.regs.length := by rw [h1]; exact h w (by simp)
    refine ⟨f1.trans h1, f2.trans h2, f3.trans h3, f4.trans h4, f5.trans h5,
      fun k => (writeReg_writable t p la tg q w k).trans (hw0 k), fun k => ?_⟩
    rw [List.find?_cons]
    have h6 := h6 k
    by_cases hk : w.1 = k
    · simp only [hk, beq_self_eq_true]
      intro i hi
      have e := writeReg_reg t p la tg q w.1 k i w.2 hw hi
      rw [e, hk, hw0 k]
      by_cases hp : (r.writable t.insp p k).getLsbD i = true
      · rw [if_pos ⟨rfl, hp⟩, if_pos hp]
      · rw [if_neg (fun a => hp a.2), if_neg hp]
        revert h6
        split
        · intro h6; unfold Row.reg; rw [h6]
        · intro h6; rw [h6 i hi, if_neg hp]
    · have hb : (w.1 == k) = false := by simpa using hk
      rw [hb]
      have ho : (writeReg t p la tg q w).regs[k]? = q.regs[k]? := writeReg_other t p la tg q w.1 w.2 hw (fun e => hk e.symm)
      have hr : (writeReg t p la tg q w).reg k = q.reg k := by unfold Row.reg; rw [ho]
      revert h6
      dsimp only
      cases l.find? fun w => w.1 == k with
      | none => intro h6; exact ho.trans h6
      | some x => intro h6 i hi; rw [hr]; exact h6 i hi

theorem writable_part {r : Row} {b : Bool} {p : LaneMask} {k l : Nat} (h : (r.writable b p k).getLsbD l = true) : p.getLsbD l = true := by
  unfold Row.writable at h
  split at h
  · exact h
  · rw [BitVec.getLsbD_and] at h
    exact (Bool.and_eq_true_iff.mp h).1

/-- A computing slot writes what its result says. -/
theorem laneDone_wrote {s : State} {i : Instr} {t : RowSlot} (la : BitVec 4) (x : Result) (h : RowTurn s i t)
    (hx : ∀ w ∈ x.writes, w.1 < t.r.regs.length) (hp : x.pred = none) (hr : x.rng = none) {ws : Nat → Option (Nat → Word)}
    (hw : ∀ k, match ws k with
      | none => (x.writes.reverse.find? fun w => w.1 == k) = none
      | some v => ∃ w, (x.writes.reverse.find? fun w => w.1 == k) = some w ∧
        ∀ l, l < 64 → (t.part i).getLsbD l = true → w.2.get l = v l) :
    RowWrote s t i (laneDone s t i la x) ws x.flags := by
  obtain ⟨q, ha, hs⟩ := laneDone_after la x h
  obtain ⟨x1, x2, x3, x4, x5, x6, x7, x8, x9, x10, x11, x12, rfl⟩ := hs
  refine ⟨_, ha, ?_⟩
  have e : rowWith t (t.part i) la x =
      { (x.writes.foldl (writeReg t (t.part i) la (if t.e.kA == 0 && t.e.kB == 0 then x.tag else .g)) t.r) with
        flags := (x.writes.foldl (writeReg t (t.part i) la (if t.e.kA == 0 && t.e.kB == 0 then x.tag else .g)) t.r).flags ||| x.flags } := by
    unfold rowWith; rw [hp, hr]; rfl
  obtain ⟨-, h2, h3, h4, h5, -, h6⟩ := foldl_writeReg_reverse t (t.part i) la (if t.e.kA == 0 && t.e.kB == 0 then x.tag else .g) t.r
    x.writes.reverse fun w hw => hx w (List.mem_reverse.mp hw)
  rw [List.reverse_reverse] at h2 h3 h4 h5 h6
  rw [e]
  refine ⟨h2, h3, h4, ?_, fun k => ?_⟩
  · show _ ||| x.flags = _
    rw [h5]
  · have h6 := h6 k
    have hw := hw k
    revert h6 hw
    cases ws k with
    | none => dsimp only; intro h6 hw; rw [hw] at h6; exact h6
    | some v =>
      dsimp only
      rintro h6 ⟨w, hf, hv⟩ l hl
      rw [hf] at h6
      refine (h6 l hl).trans ?_
      by_cases hp : (t.r.writable t.insp (t.part i) k).getLsbD l = true
      · rw [if_pos hp, if_pos hp]; exact hv l hl (writable_part hp)
      · rw [if_neg hp, if_neg hp]

/-! ## Engine commands -/

@[simp] theorem updMember_hand (s : State) (c m : Nat) (f : Member → Member) : (s.updMember c m f).hand = s.hand := by
  unfold State.updMember
  split
  · rfl
  · split <;> rfl

theorem ensureBoard_hand {s s1 : State} {c : Ctx} {m : Nat} {mb : Member} {e : Entry} {i : Instr} {b : Bool}
    (h : ensureBoard s c m mb e i = some (s1, b)) : s1.hand = s.hand := by
  rcases ensureBoard_eq h with rfl | ⟨_, -, -, rfl⟩
  · rfl
  · exact updMember_hand _ _ _ _

theorem bindBank_hand (s : State) (c m : Nat) (g : Engine) : (bindBank s c m g).hand = s.hand := by
  unfold bindBank
  split
  · exact updMember_hand _ _ _ _
  · rfl

theorem engineMemory_hand (s : State) (g : Engine) : (engineMemory s g).hand = s.hand := by
  unfold engineMemory
  split
  · exact flushPorts_hand s
  · rfl

theorem engineMemory_ctxOf (s : State) (g : Engine) (k : Nat) : (engineMemory s g).ctxOf k = s.ctxOf k := by
  unfold engineMemory
  split
  · unfold State.ctxOf; rw [flushPorts_ctxs]
  · rfl

/-- The command in hand is one of those that may act; it holds the instruction and stands queued. -/
theorem cmdInHand_spec {s : State} {mb : Member} {g : Engine} {i : Instr} {x : Cmd} (h : cmdInHand s mb g i = some x) :
    x ∈ turnCmds mb g s.hand.part.isSome ∧ x.e.item = .slot i := by
  unfold cmdInHand at h
  refine ⟨List.mem_of_find?_eq_some h, ?_⟩
  have := List.find?_some h
  simp only [Bool.and_eq_true, beq_iff_eq] at this
  exact this.1

/-- A command that may act stands in the queue and has not started. -/
theorem turnCmds_spec {mb : Member} {g : Engine} {b : Bool} {x : Cmd} (h : x ∈ turnCmds mb g b) : x ∈ mb.queue g ∧ x.st = .queued := by
  unfold turnCmds at h
  split at h
  · obtain ⟨h1, h2⟩ := List.mem_filter.mp h
    exact ⟨(List.takeWhile_sublist _).subset h1, by simpa using h2⟩
  · obtain ⟨h1, h2⟩ := List.mem_filter.mp h
    exact ⟨(List.takeWhile_sublist _).subset ((List.dropWhile_sublist _).subset (List.mem_of_mem_take h1)), by simpa using h2⟩

/-- What an engine's turn runs. -/
theorem engineStep_turn {s : State} {g : Engine} {i : Instr} {v : EngineView} {f : State → Ctx → Nat → Member → Cmd → EngRes}
    {early : State → Ctx → Nat → Member → Option (Cause × Nat)} (h : EngineTurn s g i v) :
    engineStep s g i f early = match f v.s1 v.c s.hand.member v.mb v.x with
      | .wait => wait s
      | .moved s2 => if s2 == s then wait s else done s2
      | .ok s2 lines => .next (engineDone s2 v.c0.id s.hand.member g v.x lines)
      | .fault s2 cause addr mask => .next (engineFaulted s2 v.c0.id s.hand.member g v.x cause addr mask) := by
  obtain ⟨⟨h1, h2, h3, h4, h5, h6, h7, h8, h9, h10⟩, h11⟩ := h
  unfold engineStep
  rw [withCtx_some h1]
  dsimp only
  rw [h2]
  dsimp only
  rw [h3]
  dsimp only
  have hg : (v.c0.switch != SwitchPhase.inside || g == Engine.matrix && (v.c0.revoked || !bankFor s v.c0 v.mb0)) = false := by
    rw [h5]
    by_cases hm : g = .matrix
    · obtain ⟨a, b⟩ := h6 hm
      rw [a, b]; simp
    · simp [hm]
  rw [hg, if_neg Bool.false_ne_true, h7]
  dsimp only
  rw [h8, h9]
  dsimp only
  unfold runOrRead
  rw [← h8, bindBank_hand, ensureBoard_hand h7, engineMemory_hand, h8, h10, h11]
  rfl

/-- A command that has run. -/
theorem engineStep_ok {s s2 : State} {g : Engine} {i : Instr} {v : EngineView} {f : State → Ctx → Nat → Member → Cmd → EngRes}
    {early : State → Ctx → Nat → Member → Option (Cause × Nat)} {lines : List Nat} (h : EngineTurn s g i v)
    (hf : f v.s1 v.c s.hand.member v.mb v.x = .ok s2 lines) :
    engineStep s g i f early = .next (engineDone s2 v.c0.id s.hand.member g v.x lines) := by
  rw [engineStep_turn h, hf]

/-- A command that has faulted. -/
theorem engineStep_fault {s s2 : State} {g : Engine} {i : Instr} {v : EngineView} {f : State → Ctx → Nat → Member → Cmd → EngRes}
    {early : State → Ctx → Nat → Member → Option (Cause × Nat)} {k : Cause} {a : Nat} {mask : LaneMask} (h : EngineTurn s g i v)
    (hf : f v.s1 v.c s.hand.member v.mb v.x = .fault s2 k a mask) :
    engineStep s g i f early = .next (engineFaulted s2 v.c0.id s.hand.member g v.x k a mask) := by
  rw [engineStep_turn h, hf]

/-- A matrix command whose waits are over. -/
theorem matrixRun_ok {s s2 : State} {c : Ctx} {m : Nat} {mb : Member} {i : Instr} {f : State → EngRes}
    (h : MatrixClear s c m mb i s2) : matrixRun s c m mb i f = f s2 := by
  obtain ⟨h1, h2, s0, h3, h4, rfl⟩ := h
  unfold matrixRun
  rw [h1, h2, h3]
  rw [Bool.or_self, if_neg Bool.false_ne_true]
  dsimp only
  rw [h4]

/-- Where an engine dump begins, as a number. -/
theorem dumpAddress_toNat (k j : Nat) : (Config.dumpAddress k j).toNat = 64 * (Config.dumpBlock k j).toNat := by
  have := (Config.dumpBlock k j).isLt
  simp only [Config.dumpAddress, BitVec.toNat_shiftLeft, BitVec.zeroExtend, BitVec.toNat_setWidth, Nat.shiftLeft_eq]
  omega

/-- It is a canonical address. -/
theorem dumpAddress_canonical (k j : Nat) : canonical (Config.dumpAddress k j).toNat = true := by
  have := (Config.dumpBlock k j).isLt
  rw [dumpAddress_toNat, canonical, show 64 * (Config.dumpBlock k j).toNat / 2 ^ 56 % 256 = 0 by omega]
  rfl

/-- The first command of a queue that has run retires. -/
theorem retireHead_ok {s s1 : State} {k m : Nat} {g : Engine} {y : Cmd} {c : Ctx} (f : State → Ctx → Cmd → State)
    (h : Retires s k m g y c s1) : retireHead s k m g f = .next { f s1 c y with waited := false } := by
  obtain ⟨h1, h2, mb, h4, h5, h6⟩ := h
  unfold retireHead
  rw [h1]
  dsimp only
  unfold popHead
  rw [h4]
  dsimp only
  rw [h5]
  dsimp only
  rw [h2]
  subst h6
  rfl

end Sys2Proof.Machine
end

