-- ==== Sys2Proof/Laws/PerInstr.lean ====
section
/-!
SUPPORT. One lemma per constructor: the head slot of an instruction's encoding says how many slots the instruction has (R144).
-/
namespace Sys2Proof.Laws

/-- A list of slots whose head announces the list's length, or no slots at all. -/
def Headed (l : List DWord) : Prop := ∀ w r, l = w :: r → slotLength w = r.length + 1

/-- R144 for one instruction: an engine command is its head and four parameter words, every other encoding is one slot. -/
def EncodingShape.Statement (i : Instr) : Prop := Headed (encode i)

theorem headed_one (w : DWord) (h : slotLength w = 1) : Headed [w] := by
  intro v r e
  cases e
  exact h

theorem slotLength_of_clear (w : DWord) (h : w.getLsbD 63 = false) : slotLength w = 1 := by
  unfold slotLength
  rw [h]
  rfl

/-- A bit above the low part of a concatenation is a bit of its high part. -/
theorem append_high {n m : Nat} (x : BitVec n) (y : BitVec m) (i k : Nat) (h : k = i + m) :
    (x ++ y).getLsbD k = x.getLsbD i := by
  rw [BitVec.getLsbD_append, if_neg (by omega)]
  congr 1
  omega

theorem packG_clear (q : Seq) (op : BitVec 8) (gd ga gb : BitVec 6) (i : Bool) (imm : BitVec 16) :
    (packG q op gd ga gb i imm).getLsbD 63 = false := by
  refine (append_high _ imm 47 63 rfl).trans ?_
  refine (append_high _ _ 46 47 rfl).trans ?_
  refine (append_high _ gb 40 46 rfl).trans ?_
  refine (append_high _ ga 34 40 rfl).trans ?_
  refine (append_high _ gd 28 34 rfl).trans ?_
  refine (append_high _ op 20 28 rfl).trans ?_
  refine (append_high _ _ 6 20 rfl).trans ?_
  refine (append_high _ _ 3 6 rfl).trans ?_
  refine (append_high _ _ 0 3 rfl).trans ?_
  decide

theorem shape_g (q : Seq) (op : BitVec 8) (gd ga gb : BitVec 6) (i : Bool) (imm : BitVec 16) :
    Headed [packG q op gd ga gb i imm] := headed_one _ (slotLength_of_clear _ (packG_clear ..))

theorem packGli_clear (q : Seq) (op : BitVec 8) (gd : BitVec 6) (v : BitVec 29) : (packGli q op gd v).getLsbD 63 = false := by
  refine (append_high _ v 34 63 rfl).trans ?_
  refine (append_high _ gd 28 34 rfl).trans ?_
  refine (append_high _ op 20 28 rfl).trans ?_
  refine (append_high _ _ 6 20 rfl).trans ?_
  refine (append_high _ _ 3 6 rfl).trans ?_
  refine (append_high _ _ 0 3 rfl).trans ?_
  decide

theorem shape_gli (q : Seq) (op : BitVec 8) (gd : BitVec 6) (v : BitVec 29) : Headed [packGli q op gd v] :=
  headed_one _ (slotLength_of_clear _ (packGli_clear ..))

theorem shape_src (q : Seq) (op : BitVec 8) (gd ga : BitVec 6) (b : GSrc) : Headed [packSrc q op gd ga b] := by
  cases b <;> exact shape_g _ _ _ _ _ _ _

theorem shape_name (q : Seq) (op : BitVec 8) (n : NameSrc) : Headed [packName q op n] := by
  cases n <;> exact shape_g _ _ _ _ _ _ _

/-- The length that a head with the lane bit and the opcode `op` announces. -/
theorem slotLength_of_bits (w : DWord) (op : Nat) (h : op < 0x80) (h1 : w.getLsbD 63 = true)
    (h2 : ∀ k, k < 7 → w.getLsbD (56 + k) = (BitVec.ofNat 7 op).getLsbD k) :
    slotLength w = if 0x70 ≤ op then 5 else 1 := by
  have : fieldOf w 56 7 = BitVec.ofNat 7 op := by
    apply BitVec.eq_of_getLsbD_eq
    intro k hk
    rw [fieldOf, BitVec.getLsbD_extractLsb', h2 k hk]
    simp [hk]
  unfold slotLength
  rw [h1, this, BitVec.toNat_ofNat, Nat.mod_eq_of_lt (by omega : op < 2 ^ 7)]
  simp

theorem slotLength_packL (op : Nat) (f : LForm) (h : op < 0x80) :
    slotLength (packL op f) = if 0x70 ≤ op then 5 else 1 := by
  refine slotLength_of_bits _ op h ?_ fun k hk => ?_
  · refine (append_high _ f.fn 59 63 rfl).trans ?_
    refine (append_high _ (rndCode f.rnd) 57 59 rfl).trans ?_
    refine (append_high _ f.la 53 57 rfl).trans ?_
    refine (append_high _ (carryCode f.kb) 50 53 rfl).trans ?_
    refine (append_high _ (carryCode f.ka) 47 50 rfl).trans ?_
    refine (append_high _ f.vc 39 47 rfl).trans ?_
    refine (append_high _ f.vb 31 39 rfl).trans ?_
    refine (append_high _ f.va 23 31 rfl).trans ?_
    refine (append_high _ f.vd 15 23 rfl).trans ?_
    refine (append_high _ f.t.code 12 15 rfl).trans ?_
    refine (append_high _ (BitVec.ofBool f.pn) 11 12 rfl).trans ?_
    refine (append_high _ f.pg 7 11 rfl).trans ?_
    refine (append_high _ _ 0 7 rfl).trans ?_
    decide
  · refine (append_high _ f.fn (52 + k) (56 + k) (by omega)).trans ?_
    refine (append_high _ (rndCode f.rnd) (50 + k) (52 + k) (by omega)).trans ?_
    refine (append_high _ f.la (46 + k) (50 + k) (by omega)).trans ?_
    refine (append_high _ (carryCode f.kb) (43 + k) (46 + k) (by omega)).trans ?_
    refine (append_high _ (carryCode f.ka) (40 + k) (43 + k) (by omega)).trans ?_
    refine (append_high _ f.vc (32 + k) (40 + k) (by omega)).trans ?_
    refine (append_high _ f.vb (24 + k) (32 + k) (by omega)).trans ?_
    refine (append_high _ f.va (16 + k) (24 + k) (by omega)).trans ?_
    refine (append_high _ f.vd (8 + k) (16 + k) (by omega)).trans ?_
    refine (append_high _ f.t.code (5 + k) (8 + k) (by omega)).trans ?_
    refine (append_high _ (BitVec.ofBool f.pn) (4 + k) (5 + k) (by omega)).trans ?_
    refine (append_high _ f.pg (0 + k) (4 + k) (by omega)).trans ?_
    rw [BitVec.getLsbD_append, if_pos (by omega), Nat.zero_add]

theorem slotLength_packLI (op : Nat) (f : LIForm) (h : op < 0x80) :
    slotLength (packLI op f) = if 0x70 ≤ op then 5 else 1 := by
  refine slotLength_of_bits _ op h ?_ fun k hk => ?_
  · refine (append_high _ (packSub f.src) 27 63 rfl).trans ?_
    refine (append_high _ f.va 21 27 rfl).trans ?_
    refine (append_high _ f.vd 15 21 rfl).trans ?_
    refine (append_high _ f.t.code 12 15 rfl).trans ?_
    refine (append_high _ (BitVec.ofBool f.pn) 11 12 rfl).trans ?_
    refine (append_high _ f.pg 7 11 rfl).trans ?_
    refine (append_high _ _ 0 7 rfl).trans ?_
    decide
  · refine (append_high _ (packSub f.src) (20 + k) (56 + k) (by omega)).trans ?_
    refine (append_high _ f.va (14 + k) (20 + k) (by omega)).trans ?_
    refine (append_high _ f.vd (8 + k) (14 + k) (by omega)).trans ?_
    refine (append_high _ f.t.code (5 + k) (8 + k) (by omega)).trans ?_
    refine (append_high _ (BitVec.ofBool f.pn) (4 + k) (5 + k) (by omega)).trans ?_
    refine (append_high _ f.pg (0 + k) (4 + k) (by omega)).trans ?_
    rw [BitVec.getLsbD_append, if_pos (by omega), Nat.zero_add]

theorem slotLength_headE (op : Nat) (e : EForm) (h : op < 0x80) :
    slotLength (1#1 ++ BitVec.ofNat 7 op ++ 0xF#4 ++ e.fn ++ e.tag ++ e.head) = if 0x70 ≤ op then 5 else 1 := by
  refine slotLength_of_bits _ op h ?_ fun k hk => ?_
  · refine (append_high _ e.head 31 63 rfl).trans ?_
    refine (append_high _ e.tag 15 31 rfl).trans ?_
    refine (append_high _ e.fn 11 15 rfl).trans ?_
    refine (append_high _ 0xF#4 7 11 rfl).trans ?_
    refine (append_high _ _ 0 7 rfl).trans ?_
    decide
  · refine (append_high _ e.head (24 + k) (56 + k) (by omega)).trans ?_
    refine (append_high _ e.tag (8 + k) (24 + k) (by omega)).trans ?_
    refine (append_high _ e.fn (4 + k) (8 + k) (by omega)).trans ?_
    refine (append_high _ 0xF#4 (0 + k) (4 + k) (by omega)).trans ?_
    rw [BitVec.getLsbD_append, if_pos (by omega), Nat.zero_add]

theorem shape_l (op : Nat) (f : LForm) (h : op < 0x70) : Headed [packL op f] :=
  headed_one _ ((slotLength_packL op f (by omega)).trans (if_neg (by omega)))

theorem shape_li (op : Nat) (f : LIForm) (h : op < 0x70) : Headed [packLI op f] :=
  headed_one _ ((slotLength_packLI op f (by omega)).trans (if_neg (by omega)))

theorem shape_e (op : Nat) (e : EForm) (h : 0x70 ≤ op ∧ op < 0x80) : Headed (packE op e) := by
  intro w r q
  cases q
  exact (slotLength_headE op e (by omega)).trans (if_pos h.1)

theorem shape_none (i : Instr) (h : encode i = []) : EncodingShape.Statement i := by
  intro w r e
  rw [h] at e
  cases e

theorem EncodingShape.gadd (q : Seq) (d a : GReg) (b : GSrc) : EncodingShape.Statement (.gadd q d a b) := shape_src _ _ _ _ _
theorem EncodingShape.gsub (q : Seq) (d a : GReg) (b : GSrc) : EncodingShape.Statement (.gsub q d a b) := shape_src _ _ _ _ _
theorem EncodingShape.gmul (q : Seq) (d a : GReg) (b : GSrc) : EncodingShape.Statement (.gmul q d a b) := shape_src _ _ _ _ _
theorem EncodingShape.gmulh (q : Seq) (d a : GReg) (b : GSrc) : EncodingShape.Statement (.gmulh q d a b) := shape_src _ _ _ _ _
theorem EncodingShape.gdiv (q : Seq) (d a : GReg) (b : GSrc) : EncodingShape.Statement (.gdiv q d a b) := shape_src _ _ _ _ _
theorem EncodingShape.grem (q : Seq) (d a : GReg) (b : GSrc) : EncodingShape.Statement (.grem q d a b) := shape_src _ _ _ _ _
theorem EncodingShape.gand (q : Seq) (d a : GReg) (b : GSrc) : EncodingShape.Statement (.gand q d a b) := shape_src _ _ _ _ _
theorem EncodingShape.gor (q : Seq) (d a : GReg) (b : GSrc) : EncodingShape.Statement (.gor q d a b) := shape_src _ _ _ _ _
theorem EncodingShape.gxor (q : Seq) (d a : GReg) (b : GSrc) : EncodingShape.Statement (.gxor q d a b) := shape_src _ _ _ _ _
theorem EncodingShape.gshl (q : Seq) (d a : GReg) (b : GSrc) : EncodingShape.Statement (.gshl q d a b) := shape_src _ _ _ _ _
theorem EncodingShape.gshr (q : Seq) (d a : GReg) (b : GSrc) : EncodingShape.Statement (.gshr q d a b) := shape_src _ _ _ _ _
theorem EncodingShape.gsra (q : Seq) (d a : GReg) (b : GSrc) : EncodingShape.Statement (.gsra q d a b) := shape_src _ _ _ _ _
theorem EncodingShape.gmin (q : Seq) (d a : GReg) (b : GSrc) : EncodingShape.Statement (.gmin q d a b) := shape_src _ _ _ _ _
theorem EncodingShape.gmax (q : Seq) (d a : GReg) (b : GSrc) : EncodingShape.Statement (.gmax q d a b) := shape_src _ _ _ _ _
theorem EncodingShape.gsel (q : Seq) (d a b : GReg) (f : BitVec 3) : EncodingShape.Statement (.gsel q d a b f) := shape_g _ _ _ _ _ _ _
theorem EncodingShape.gcmp (q : Seq) (cc : GCond) (f : BitVec 3) (a : GReg) (b : GSrc) : EncodingShape.Statement (.gcmp q cc f a b) := shape_src _ _ _ _ _
theorem EncodingShape.gclz (q : Seq) (d a : GReg) : EncodingShape.Statement (.gclz q d a) := shape_g _ _ _ _ _ _ _
theorem EncodingShape.gpopc (q : Seq) (d a : GReg) : EncodingShape.Statement (.gpopc q d a) := shape_g _ _ _ _ _ _ _
theorem EncodingShape.gli (q : Seq) (d : GReg) (v : BitVec 29) : EncodingShape.Statement (.gli q d v) := shape_gli _ _ _ _
theorem EncodingShape.glih (q : Seq) (d : GReg) (v : BitVec 29) : EncodingShape.Statement (.glih q d v) := shape_gli _ _ _ _
theorem EncodingShape.gld (q : Seq) (sz : Size) (sx : Bool) (d a : GReg) (v : BitVec 16) : EncodingShape.Statement (.gld q sz sx d a v) := shape_g _ _ _ _ _ _ _
theorem EncodingShape.gst (q : Seq) (sz : Size) (d a : GReg) (v : BitVec 16) : EncodingShape.Statement (.gst q sz d a v) := shape_g _ _ _ _ _ _ _
theorem EncodingShape.gamo (q : Seq) (op : AtomicOp) (d a b : GReg) : EncodingShape.Statement (.gamo q op d a b) := shape_g _ _ _ _ _ _ _
theorem EncodingShape.gloop (q : Seq) (n : LoopReg) (b : GSrc) : EncodingShape.Statement (.gloop q n b) := shape_src _ _ _ _ _
theorem EncodingShape.gjmpr (link : Bool) (a : GReg) : EncodingShape.Statement (.gjmpr link a) := shape_g _ _ _ _ _ _ _
theorem EncodingShape.gwfe (q : Seq) (b : GSrc) : EncodingShape.Statement (.gwfe q b) := shape_src _ _ _ _ _
theorem EncodingShape.gtrap (q : Seq) (v : BitVec 16) : EncodingShape.Statement (.gtrap q v) := shape_g _ _ _ _ _ _ _
theorem EncodingShape.grteRetry : EncodingShape.Statement (.grteRetry) := shape_g _ _ _ _ _ _ _
theorem EncodingShape.grteSkip : EncodingShape.Statement (.grteSkip) := shape_g _ _ _ _ _ _ _
theorem EncodingShape.grteDiscard : EncodingShape.Statement (.grteDiscard) := shape_g _ _ _ _ _ _ _
theorem EncodingShape.csrr (q : Seq) (d : GReg) (n : BitVec 12) : EncodingShape.Statement (.csrr q d n) := shape_g _ _ _ _ _ _ _
theorem EncodingShape.csrw (q : Seq) (a : GReg) (n : BitVec 12) : EncodingShape.Statement (.csrw q a n) := shape_g _ _ _ _ _ _ _
theorem EncodingShape.fence (q : Seq) (sc : Scope) : EncodingShape.Statement (.fence q sc) := shape_g _ _ _ _ _ _ _
theorem EncodingShape.fenceX (q : Seq) : EncodingShape.Statement (.fenceX q) := shape_g _ _ _ _ _ _ _
theorem EncodingShape.phaseAcq (q : Seq) : EncodingShape.Statement (.phaseAcq q) := shape_g _ _ _ _ _ _ _
theorem EncodingShape.phaseRel (q : Seq) : EncodingShape.Statement (.phaseRel q) := shape_g _ _ _ _ _ _ _
theorem EncodingShape.phaseAcqrel (q : Seq) : EncodingShape.Statement (.phaseAcqrel q) := shape_g _ _ _ _ _ _ _
theorem EncodingShape.bar (q : Seq) (sc : Scope) : EncodingShape.Statement (.bar q sc) := shape_g _ _ _ _ _ _ _
theorem EncodingShape.capb (q : Seq) (n : BitVec 8) : EncodingShape.Statement (.capb q n) := shape_g _ _ _ _ _ _ _
theorem EncodingShape.capbDry (q : Seq) (n : BitVec 8) : EncodingShape.Statement (.capbDry q n) := shape_g _ _ _ _ _ _ _
theorem EncodingShape.cape (q : Seq) (d : GReg) : EncodingShape.Statement (.cape q d) := shape_g _ _ _ _ _ _ _
theorem EncodingShape.capx (q : Seq) (n : NameSrc) : EncodingShape.Statement (.capx q n) := shape_name _ _ _
theorem EncodingShape.rply (q : Seq) (n : NameSrc) : EncodingShape.Statement (.rply q n) := shape_name _ _ _
theorem EncodingShape.hset (q : Seq) (h : BitVec 4) (b : GSrc) : EncodingShape.Statement (.hset q h b) := by cases b <;> exact shape_g _ _ _ _ _ _ _
theorem EncodingShape.gvq (q : Seq) (d : GReg) : EncodingShape.Statement (.gvq q d) := shape_g _ _ _ _ _ _ _
theorem EncodingShape.cdef (q : Seq) (mem : Bool) (x : BitVec 8) (a : GReg) : EncodingShape.Statement (.cdef q mem x a) := shape_g _ _ _ _ _ _ _
theorem EncodingShape.qrsv (q : Seq) (d : GReg) (n : BitVec 4) : EncodingShape.Statement (.qrsv q d n) := shape_g _ _ _ _ _ _ _
theorem EncodingShape.qcmt (q : Seq) (a : GReg) (n : BitVec 4) : EncodingShape.Statement (.qcmt q a n) := shape_g _ _ _ _ _ _ _
theorem EncodingShape.qpop (q : Seq) (d : GReg) (n : BitVec 4) : EncodingShape.Statement (.qpop q d n) := shape_g _ _ _ _ _ _ _
theorem EncodingShape.twait (q : Seq) (b : FeBuf) (full : Bool) (a : GReg) : EncodingShape.Statement (.twait q b full a) := shape_g _ _ _ _ _ _ _
theorem EncodingShape.tset (q : Seq) (b : FeBuf) (full : Bool) (a : GReg) : EncodingShape.Statement (.tset q b full a) := shape_g _ _ _ _ _ _ _
theorem EncodingShape.sopen (q : Seq) (n : BitVec 3) (a : GReg) : EncodingShape.Statement (.sopen q n a) := shape_g _ _ _ _ _ _ _
theorem EncodingShape.seof (q : Seq) (f n : BitVec 3) : EncodingShape.Statement (.seof q f n) := shape_g _ _ _ _ _ _ _
theorem EncodingShape.scls (q : Seq) (n : BitVec 3) : EncodingShape.Statement (.scls q n) := shape_g _ _ _ _ _ _ _
theorem EncodingShape.npoll (q : Seq) (d a : GReg) : EncodingShape.Statement (.npoll q d a) := shape_g _ _ _ _ _ _ _
theorem EncodingShape.vadd (f : LForm) : EncodingShape.Statement (.vadd f) := shape_l _ _ (by decide)
theorem EncodingShape.vaddImm (f : LIForm) : EncodingShape.Statement (.vaddImm f) := shape_li _ _ (by decide)
theorem EncodingShape.vsub (f : LForm) : EncodingShape.Statement (.vsub f) := shape_l _ _ (by decide)
theorem EncodingShape.vsubImm (f : LIForm) : EncodingShape.Statement (.vsubImm f) := shape_li _ _ (by decide)
theorem EncodingShape.vmul (f : LForm) : EncodingShape.Statement (.vmul f) := shape_l _ _ (by decide)
theorem EncodingShape.vmulImm (f : LIForm) : EncodingShape.Statement (.vmulImm f) := shape_li _ _ (by decide)
theorem EncodingShape.vfma (f : LForm) : EncodingShape.Statement (.vfma f) := shape_l _ _ (by decide)
theorem EncodingShape.vfmaImm (f : LIForm) : EncodingShape.Statement (.vfmaImm f) := shape_li _ _ (by decide)
theorem EncodingShape.vmin (f : LForm) : EncodingShape.Statement (.vmin f) := shape_l _ _ (by decide)
theorem EncodingShape.vminImm (f : LIForm) : EncodingShape.Statement (.vminImm f) := shape_li _ _ (by decide)
theorem EncodingShape.vmax (f : LForm) : EncodingShape.Statement (.vmax f) := shape_l _ _ (by decide)
theorem EncodingShape.vmaxImm (f : LIForm) : EncodingShape.Statement (.vmaxImm f) := shape_li _ _ (by decide)
theorem EncodingShape.vabs (f : LForm) : EncodingShape.Statement (.vabs f) := shape_l _ _ (by decide)
theorem EncodingShape.vneg (f : LForm) : EncodingShape.Statement (.vneg f) := shape_l _ _ (by decide)
theorem EncodingShape.vand (f : LForm) : EncodingShape.Statement (.vand f) := shape_l _ _ (by decide)
theorem EncodingShape.vandImm (f : LIForm) : EncodingShape.Statement (.vandImm f) := shape_li _ _ (by decide)
theorem EncodingShape.vor (f : LForm) : EncodingShape.Statement (.vor f) := shape_l _ _ (by decide)
theorem EncodingShape.vorImm (f : LIForm) : EncodingShape.Statement (.vorImm f) := shape_li _ _ (by decide)
theorem EncodingShape.vxor (f : LForm) : EncodingShape.Statement (.vxor f) := shape_l _ _ (by decide)
theorem EncodingShape.vxorImm (f : LIForm) : EncodingShape.Statement (.vxorImm f) := shape_li _ _ (by decide)
theorem EncodingShape.vshl (f : LForm) : EncodingShape.Statement (.vshl f) := shape_l _ _ (by decide)
theorem EncodingShape.vshlImm (f : LIForm) : EncodingShape.Statement (.vshlImm f) := shape_li _ _ (by decide)
theorem EncodingShape.vshr (f : LForm) : EncodingShape.Statement (.vshr f) := shape_l _ _ (by decide)
theorem EncodingShape.vshrImm (f : LIForm) : EncodingShape.Statement (.vshrImm f) := shape_li _ _ (by decide)
theorem EncodingShape.vsra (f : LForm) : EncodingShape.Statement (.vsra f) := shape_l _ _ (by decide)
theorem EncodingShape.vsraImm (f : LIForm) : EncodingShape.Statement (.vsraImm f) := shape_li _ _ (by decide)
theorem EncodingShape.vsel (f : LForm) : EncodingShape.Statement (.vsel f) := shape_l _ _ (by decide)
theorem EncodingShape.vmov (f : LForm) : EncodingShape.Statement (.vmov f) := shape_l _ _ (by decide)
theorem EncodingShape.vcvt (f : LForm) : EncodingShape.Statement (.vcvt f) := shape_l _ _ (by decide)
theorem EncodingShape.vcvtAcc (f : LForm) : EncodingShape.Statement (.vcvtAcc f) := shape_l _ _ (by decide)
theorem EncodingShape.vcmp (f : LForm) : EncodingShape.Statement (.vcmp f) := shape_l _ _ (by decide)
theorem EncodingShape.vclz (f : LForm) : EncodingShape.Statement (.vclz f) := shape_l _ _ (by decide)
theorem EncodingShape.vpopc (f : LForm) : EncodingShape.Statement (.vpopc f) := shape_l _ _ (by decide)
theorem EncodingShape.vdot4 (f : LForm) : EncodingShape.Statement (.vdot4 f) := shape_l _ _ (by decide)
theorem EncodingShape.vrcp (f : LForm) : EncodingShape.Statement (.vrcp f) := shape_l _ _ (by decide)
theorem EncodingShape.vrsq (f : LForm) : EncodingShape.Statement (.vrsq f) := shape_l _ _ (by decide)
theorem EncodingShape.vsqrt (f : LForm) : EncodingShape.Statement (.vsqrt f) := shape_l _ _ (by decide)
theorem EncodingShape.vexp2 (f : LForm) : EncodingShape.Statement (.vexp2 f) := shape_l _ _ (by decide)
theorem EncodingShape.vlog2 (f : LForm) : EncodingShape.Statement (.vlog2 f) := shape_l _ _ (by decide)
theorem EncodingShape.vsin (f : LForm) : EncodingShape.Statement (.vsin f) := shape_l _ _ (by decide)
theorem EncodingShape.vcos (f : LForm) : EncodingShape.Statement (.vcos f) := shape_l _ _ (by decide)
theorem EncodingShape.vtanh (f : LForm) : EncodingShape.Statement (.vtanh f) := shape_l _ _ (by decide)
theorem EncodingShape.vli (f : LIForm) : EncodingShape.Statement (.vli f) := shape_li _ _ (by decide)
theorem EncodingShape.viota (f : LForm) : EncodingShape.Statement (.viota f) := shape_l _ _ (by decide)
theorem EncodingShape.vld (f : LForm) : EncodingShape.Statement (.vld f) := shape_l _ _ (by decide)
theorem EncodingShape.vst (f : LForm) : EncodingShape.Statement (.vst f) := shape_l _ _ (by decide)
theorem EncodingShape.vldg (f : LForm) : EncodingShape.Statement (.vldg f) := shape_l _ _ (by decide)
theorem EncodingShape.vstg (f : LForm) : EncodingShape.Statement (.vstg f) := shape_l _ _ (by decide)
theorem EncodingShape.vamo (f : LForm) : EncodingShape.Statement (.vamo f) := shape_l _ _ (by decide)
theorem EncodingShape.sadv (f : LForm) : EncodingShape.Statement (.sadv f) := shape_l _ _ (by decide)
theorem EncodingShape.vshf (f : LForm) : EncodingShape.Statement (.vshf f) := shape_l _ _ (by decide)
theorem EncodingShape.vperm (f : LForm) : EncodingShape.Statement (.vperm f) := shape_l _ _ (by decide)
theorem EncodingShape.vred (f : LForm) : EncodingShape.Statement (.vred f) := shape_l _ _ (by decide)
theorem EncodingShape.vscan (f : LForm) : EncodingShape.Statement (.vscan f) := shape_l _ _ (by decide)
theorem EncodingShape.vtrn (f : LForm) : EncodingShape.Statement (.vtrn f) := shape_l _ _ (by decide)
theorem EncodingShape.vtopk (f : LForm) : EncodingShape.Statement (.vtopk f) := shape_l _ _ (by decide)
theorem EncodingShape.vcmps (f : LForm) : EncodingShape.Statement (.vcmps f) := shape_l _ _ (by decide)
theorem EncodingShape.vprune (f : LForm) : EncodingShape.Statement (.vprune f) := shape_l _ _ (by decide)
theorem EncodingShape.plog (f : LForm) : EncodingShape.Statement (.plog f) := shape_l _ _ (by decide)
theorem EncodingShape.vote (f : LForm) : EncodingShape.Statement (.vote f) := shape_l _ _ (by decide)
theorem EncodingShape.vexit (f : LForm) : EncodingShape.Statement (.vexit f) := shape_l _ _ (by decide)
theorem EncodingShape.cpy (e : EForm) : EncodingShape.Statement (.cpy e) := shape_e _ _ (by decide)
theorem EncodingShape.cpyRetire (c m : Nat) : EncodingShape.Statement (.cpyRetire c m) := shape_none _ rfl
theorem EncodingShape.fgat (e : EForm) : EncodingShape.Statement (.fgat e) := shape_e _ _ (by decide)
theorem EncodingShape.fhdl (e : EForm) : EncodingShape.Statement (.fhdl e) := shape_e _ _ (by decide)
theorem EncodingShape.fetchUnitRetire (c m : Nat) : EncodingShape.Statement (.fetchUnitRetire c m) := shape_none _ rfl
theorem EncodingShape.mldw (e : EForm) : EncodingShape.Statement (.mldw e) := shape_e _ _ (by decide)
theorem EncodingShape.mswp (e : EForm) : EncodingShape.Statement (.mswp e) := shape_e _ _ (by decide)
theorem EncodingShape.mma (e : EForm) : EncodingShape.Statement (.mma e) := shape_e _ _ (by decide)
theorem EncodingShape.mmas (e : EForm) : EncodingShape.Statement (.mmas e) := shape_e _ _ (by decide)
theorem EncodingShape.mclr (e : EForm) : EncodingShape.Statement (.mclr e) := shape_e _ _ (by decide)
theorem EncodingShape.mscl (e : EForm) : EncodingShape.Statement (.mscl e) := shape_e _ _ (by decide)
theorem EncodingShape.mrdy (e : EForm) : EncodingShape.Statement (.mrdy e) := shape_e _ _ (by decide)
theorem EncodingShape.mwait (e : EForm) : EncodingShape.Statement (.mwait e) := shape_e _ _ (by decide)
theorem EncodingShape.matrixCommandComplete (c m : Nat) : EncodingShape.Statement (.matrixCommandComplete c m) := shape_none _ rfl
theorem EncodingShape.cwait (e : EForm) : EncodingShape.Statement (.cwait e) := shape_e _ _ (by decide)
theorem EncodingShape.nsubRead (e : EForm) : EncodingShape.Statement (.nsubRead e) := shape_e _ _ (by decide)
theorem EncodingShape.nsubWrite (e : EForm) : EncodingShape.Statement (.nsubWrite e) := shape_e _ _ (by decide)
theorem EncodingShape.nsubFlush (e : EForm) : EncodingShape.Statement (.nsubFlush e) := shape_e _ _ (by decide)
theorem EncodingShape.nsubRetire (pair k : Nat) (st : NvmeStatus) (data : List Byte) : EncodingShape.Statement (.nsubRetire pair k st data) := shape_none _ rfl
theorem EncodingShape.sisec (e : EForm) : EncodingShape.Statement (.sisec e) := shape_e _ _ (by decide)
theorem EncodingShape.sunion (e : EForm) : EncodingShape.Statement (.sunion e) := shape_e _ _ (by decide)
theorem EncodingShape.sdiff (e : EForm) : EncodingShape.Statement (.sdiff e) := shape_e _ _ (by decide)
theorem EncodingShape.smadd (e : EForm) : EncodingShape.Statement (.smadd e) := shape_e _ _ (by decide)
theorem EncodingShape.sprd (e : EForm) : EncodingShape.Statement (.sprd e) := shape_e _ _ (by decide)
theorem EncodingShape.schk (e : EForm) : EncodingShape.Statement (.schk e) := shape_e _ _ (by decide)
theorem EncodingShape.generatorFetch (c : Nat) : EncodingShape.Statement (.generatorFetch c) := shape_none _ rfl
theorem EncodingShape.emission (c : Nat) : EncodingShape.Statement (.emission c) := shape_none _ rfl
theorem EncodingShape.replaySegmentFeed (c : Nat) : EncodingShape.Statement (.replaySegmentFeed c) := shape_none _ rfl
theorem EncodingShape.engineHandover (c m : Nat) : EncodingShape.Statement (.engineHandover c m) := shape_none _ rfl
theorem EncodingShape.fenceMarker (c : Nat) : EncodingShape.Statement (.fenceMarker c) := shape_none _ rfl
theorem EncodingShape.phaseMarker (c : Nat) : EncodingShape.Statement (.phaseMarker c) := shape_none _ rfl
theorem EncodingShape.barMarker (c : Nat) : EncodingShape.Statement (.barMarker c) := shape_none _ rfl
theorem EncodingShape.tsetMarker (c : Nat) : EncodingShape.Statement (.tsetMarker c) := shape_none _ rfl
theorem EncodingShape.cdefMarker (c : Nat) : EncodingShape.Statement (.cdefMarker c) := shape_none _ rfl
theorem EncodingShape.carrySend (c m : Nat) : EncodingShape.Statement (.carrySend c m) := shape_none _ rfl
theorem EncodingShape.trapEntry (c : Nat) : EncodingShape.Statement (.trapEntry c) := shape_none _ rfl
theorem EncodingShape.engineFaultAfterExit (c : Nat) : EncodingShape.Statement (.engineFaultAfterExit c) := shape_none _ rfl
theorem EncodingShape.dispatchCompletion (c : Nat) : EncodingShape.Statement (.dispatchCompletion c) := shape_none _ rfl
theorem EncodingShape.launch (q : Nat) : EncodingShape.Statement (.launch q) := shape_none _ rfl
theorem EncodingShape.launchPlacement (k base : Nat) : EncodingShape.Statement (.launchPlacement k base) := shape_none _ rfl
theorem EncodingShape.revocation (c : Nat) : EncodingShape.Statement (.revocation c) := shape_none _ rfl
theorem EncodingShape.ashResume (c : Nat) : EncodingShape.Statement (.ashResume c) := shape_none _ rfl
theorem EncodingShape.lentRangeSpill (c m k : Nat) : EncodingShape.Statement (.lentRangeSpill c m k) := shape_none _ rfl
theorem EncodingShape.switchOut (c : Nat) (crimson : Bool) : EncodingShape.Statement (.switchOut c crimson) := shape_none _ rfl
theorem EncodingShape.preemptDeferExpiry (c : Nat) : EncodingShape.Statement (.preemptDeferExpiry c) := shape_none _ rfl
theorem EncodingShape.restore (c base : Nat) : EncodingShape.Statement (.restore c base) := shape_none _ rfl
theorem EncodingShape.timer (c slice : Nat) : EncodingShape.Statement (.timer c slice) := shape_none _ rfl
theorem EncodingShape.deadline (c : Nat) : EncodingShape.Statement (.deadline c) := shape_none _ rfl
theorem EncodingShape.domcreate (q : Nat) : EncodingShape.Statement (.domcreate q) := shape_none _ rfl
theorem EncodingShape.domdestroy (q : Nat) : EncodingShape.Statement (.domdestroy q) := shape_none _ rfl
theorem EncodingShape.qenable (q : Nat) : EncodingShape.Statement (.qenable q) := shape_none _ rfl
theorem EncodingShape.qdisable (q : Nat) : EncodingShape.Statement (.qdisable q) := shape_none _ rfl
theorem EncodingShape.shootdown (q : Nat) : EncodingShape.Statement (.shootdown q) := shape_none _ rfl
theorem EncodingShape.shootdownAck (k : Nat) : EncodingShape.Statement (.shootdownAck k) := shape_none _ rfl
theorem EncodingShape.patch (q : Nat) : EncodingShape.Statement (.patch q) := shape_none _ rfl
theorem EncodingShape.nvmepair (q : Nat) : EncodingShape.Statement (.nvmepair q) := shape_none _ rfl
theorem EncodingShape.nvmefree (q : Nat) : EncodingShape.Statement (.nvmefree q) := shape_none _ rfl
theorem EncodingShape.ticket (q : Nat) : EncodingShape.Statement (.ticket q) := shape_none _ rfl
theorem EncodingShape.commit (q : Nat) (slot : DWord) : EncodingShape.Statement (.commit q slot) := shape_none _ rfl
theorem EncodingShape.errcnt (q : Nat) (v : Word) : EncodingShape.Statement (.errcnt q v) := shape_none _ rfl
theorem EncodingShape.enEnable : EncodingShape.Statement (.enEnable) := shape_none _ rfl
theorem EncodingShape.enDisable : EncodingShape.Statement (.enDisable) := shape_none _ rfl
theorem EncodingShape.registerWrite (addr : Nat) (v : DWord) : EncodingShape.Statement (.registerWrite addr v) := shape_none _ rfl
theorem EncodingShape.hostCxlMemRead (x n : Nat) : EncodingShape.Statement (.hostCxlMemRead x n) := shape_none _ rfl
theorem EncodingShape.hostCxlMemWrite (x : Nat) (data : List Byte) : EncodingShape.Statement (.hostCxlMemWrite x data) := shape_none _ rfl
theorem EncodingShape.remoteAccess (pa : Nat) (op : RemoteOp) : EncodingShape.Statement (.remoteAccess pa op) := shape_none _ rfl
theorem EncodingShape.reset : EncodingShape.Statement (.reset) := shape_none _ rfl
theorem EncodingShape.selfTestReport : EncodingShape.Statement (.selfTestReport) := shape_none _ rfl
theorem EncodingShape.attestationReport (nonce : List Byte) : EncodingShape.Statement (.attestationReport nonce) := shape_none _ rfl
theorem EncodingShape.runtimeFence (u : FenceUnit) : EncodingShape.Statement (.runtimeFence u) := shape_none _ rfl
theorem EncodingShape.criticalTemperature (die : Nat) : EncodingShape.Statement (.criticalTemperature die) := shape_none _ rfl
theorem EncodingShape.uncorrectableError (l : PoisonLoc) : EncodingShape.Statement (.uncorrectableError l) := shape_none _ rfl
theorem EncodingShape.deviceNumberSet (n : BitVec 10) : EncodingShape.Statement (.deviceNumberSet n) := shape_none _ rfl
theorem EncodingShape.unassignedControlKind (q : Nat) : EncodingShape.Statement (.unassignedControlKind q) := shape_none _ rfl

end Sys2Proof.Laws
end

