-- ==== Sys2Proof/Machine/Kas.lean ====
section
/-!
DEFINITION. The kas assembly language (R41, R125-R132, R366): from the lines of a file, split into their parts, to the slots, the
read-only data and the launch values of each kernel.  Reading characters into these parts is left out (log 60).
-/
namespace Sys2Proof.Machine

/-! ## Symbols and expressions (R125) -/

/-- The mnemonics of Opcode Map and Instruction Summary, which no symbol may bear. -/
def kasMnemonics : List String :=
  ["GADD", "GSUB", "GMUL", "GMULH", "GDIV", "GREM", "GAND", "GOR", "GXOR", "GSHL", "GSHR", "GSRA", "GMIN", "GMAX", "GSEL", "GCMP",
   "GCLZ", "GPOPC", "GLI", "GLIH", "GLD", "GST", "GAMO", "GLOOP", "GJMPR", "GWFE", "GTRAP", "GRTE", "CSRR", "CSRW", "FENCE",
   "PHASE", "BAR", "CAPB", "CAPE", "CAPX", "RPLY", "HSET", "GVQ", "CDEF", "QRSV", "QCMT", "QPOP", "TWAIT", "TSET", "SOPEN"] ++
  ["SEOF", "SCLS", "NPOLL", "VADD", "VSUB", "VMUL", "VFMA", "VMIN", "VMAX", "VABS", "VNEG", "VAND", "VOR", "VXOR", "VSHL", "VSHR",
   "VSRA", "VSEL", "VMOV", "VCVT", "VCMP", "VCLZ", "VPOPC", "VDOT4", "VRCP", "VRSQ", "VSQRT", "VEXP2", "VLOG2", "VSIN", "VCOS",
   "VTANH", "VLI", "VIOTA", "VLD", "VST", "VLDG", "VSTG", "VAMO", "SADV", "VSHF", "VPERM", "VRED", "VSCAN", "VTRN", "VTOPK"] ++
  ["VCMPS", "VPRUNE", "PLOG", "VOTE", "VEXIT", "CPY", "FGAT", "FHDL", "MLDW", "MSWP", "MMA", "MMAS", "MCLR", "MSCL", "MRDY",
   "MWAIT", "CWAIT", "NSUB", "SISEC", "SUNION", "SDIFF", "SMADD", "SPRD", "SCHK"]

/-- Register names, type suffixes and the words that R125 reserves; the names of system registers are none of them (log 60). -/
def kasReserved : List String :=
  let bank := fun (c : String) (n : Nat) => (List.range n).map fun k => c ++ toString k
  bank "g" 64 ++ bank "v" 256 ++ bank "p" 16 ++ bank "f" 8 ++ bank "lc" 3 ++ bank "h" 16 ++ bank "s" 8 ++ bank "d" 64 ++
    ["f32", "f16", "bf16", "i32", "n32", "i16", "i8", "n8", "ROWS", "CK1", "CK2"]

/-- A name that may be a symbol. -/
def kasSymbol (s : String) : Bool :=
  (match s.toList with
    | c :: l => c.isAlpha && l.all fun c => c.isAlphanum || c == '_' || c == '.'
    | [] => false) && !kasMnemonics.contains s && !kasReserved.contains s

/-- An expression. -/
inductive KasExpr where
  | num (n : Int)
  | sym (s : String)
  | add (a b : KasExpr)
  | sub (a b : KasExpr)
  | mul (a b : KasExpr)
  deriving DecidableEq, Repr

/-- The symbols that the expressions of a kernel may use. -/
structure KasScope where
  /-- label and kernel-relative slot index -/
  labels : List (String × Nat)
  /-- `.data` symbol and byte offset from RODATA -/
  data : List (String × Nat)
  equs : List (String × KasExpr)
  /-- the numbers that `.stretch`, `.handle` and `.queue` bind -/
  names : List (String × Nat) := []
  handles : List (String × Nat) := []
  queues : List (String × Nat) := []
  deriving DecidableEq, Repr

def kasFind {α : Type} (l : List (String × α)) (s : String) : Option α := (l.find? fun x => x.1 == s).map fun x => x.2

/-- The value; none for a symbol that is not in scope, and for constants defined through each other. -/
def KasExpr.eval (sc : KasScope) : Nat → KasExpr → Option Int
  | 0, _ => none
  | fuel + 1, e =>
    match e with
    | .num n => some n
    | .sym s =>
      match kasFind sc.labels s, kasFind sc.data s, kasFind sc.equs s with
      | some n, _, _ => some n
      | none, some n, _ => some n
      | none, none, some e => e.eval sc fuel
      | none, none, none => none
    | .add a b => (a.eval sc fuel).bind fun x => (b.eval sc fuel).map fun y => x + y
    | .sub a b => (a.eval sc fuel).bind fun x => (b.eval sc fuel).map fun y => x - y
    | .mul a b => (a.eval sc fuel).bind fun x => (b.eval sc fuel).map fun y => x * y

/-- Depth of expressions and of constants within constants that is followed.  DESIGN CHOICE (log 60): R125 gives no limit; the model rejects
what is deeper. -/
def kasFuel : Nat := 4096

def KasScope.value (sc : KasScope) (e : KasExpr) : Option Int := e.eval sc kasFuel

/-- The value within limits. -/
def KasScope.within (sc : KasScope) (lo hi : Int) (e : KasExpr) : Option Int :=
  (sc.value e).bind fun v => if lo ≤ v ∧ v ≤ hi then some v else none

/-- The expression uses one of these names, also through a constant. -/
def KasExpr.uses (names : List String) (equs : List (String × KasExpr)) : Nat → KasExpr → Bool
  | 0, _ => false
  | fuel + 1, e =>
    match e with
    | .num _ => false
    | .sym s => names.contains s || (kasFind equs s).any fun e => e.uses names equs fuel
    | .add a b | .sub a b | .mul a b => a.uses names equs fuel || b.uses names equs fuel

/-! ## Lines -/

/-- Sequencing suffixes (R126). -/
inductive KasSuffix where
  | none
  | jump (l : String)
  | jumpIf (l : String) (f : BitVec 3)
  | jumpUnless (l : String) (f : BitVec 3)
  | call (l : String)
  | ret
  | lend (n : LoopReg)
  | lendTo (n : LoopReg) (l : String)
  | exit
  deriving DecidableEq, Repr

/-- A literal as the last source operand of a lane instruction (R125, R129): an expression, `± digits * 10^exp`, `inf`, `nan`. -/
inductive KasLiteral where
  | int (e : KasExpr)
  | dec (neg : Bool) (digits : Nat) (exp : Int)
  | inf (neg : Bool)
  | nan
  deriving DecidableEq, Repr

/-- The last source operand in format L-I (R128, R129). -/
inductive KasLast where
  | lit (l : KasLiteral)
  | glo (n : GReg)
  | ghi (n : GReg)
  | hole (n : BitVec 4)
  deriving DecidableEq, Repr

/-- A lane instruction in register form (R128). `guard` holds the negation and the predicate; a third source, an immediate or
a displacement stands in `vc`; the opcode is that of format L. -/
structure KasLane where
  op : Nat
  guard : Option (Bool × BitVec 4)
  t : ElemTy
  fn : BitVec 4
  rnd : Option Rnd
  vd : VReg
  va : VReg
  ka : CarryCode
  vb : VReg
  kb : CarryCode
  vc : BitVec 8
  /-- byte displacement of a buffer or global operand -/
  disp : Option KasExpr
  la : Option Nat
  deriving DecidableEq, Repr

/-- A parameter operand of an engine command (R130). -/
inductive KasParam where
  | lit (e : KasExpr)
  | g (n : GReg)
  | hole (n : BitVec 4)
  deriving DecidableEq, Repr

/-- A fetch handle as an operand: `d`n, or a symbol of `.handle`. -/
inductive KasHandle where
  | d (n : BitVec 6)
  | sym (s : String)
  deriving DecidableEq, Repr

/-- An engine command with its suffixes and the operands that stand in its head (R130, R140): `fn` where a suffix gives FN, `.full`, `.crc`,
`.hold`, `.z`, `.flags` and `.fua` where they are given, handles, registers, streams, and the sizes G, D, F and r. -/
inductive KasCmd where
  | cpy (fn : BitVec 4) (full : Bool)
  | fgat (wb crc : Bool) (h : KasHandle) (vC : VReg) (g : KasExpr)
  | fhdl (h : KasHandle)
  | mldw (fn : BitVec 4) (hold : Bool)
  | mswp
  | mma (fn : BitVec 4) (hold z : Bool)
  | mmas (fn : BitVec 4) (hold z : Bool) (vM : VReg)
  | mclr
  | mscl (col : Bool)
  | mrdy
  | mwait (flags : Bool)
  | cwait (fn : BitVec 4)
  | nsub (fn : BitVec 4) (fua : Bool)
  /-- SISEC, SUNION, SDIFF and SMADD -/
  | merge (fn : BitVec 4) (a b : BitVec 3)
  | sprd (d f r : KasExpr)
  | schk (h : KasHandle) (d f : KasExpr)
  deriving DecidableEq, Repr

/-- A line of a file. In `gen` the instruction carries sequencing NEXT, and a zero immediate where the line gives one. -/
inductive KasLine where
  | kernel (name : String)
  | label (s : String)
  | gen (i : Instr) (imm : Option KasExpr) (q : KasSuffix)
  /-- a generator instruction whose stretch name or queue is a symbol of `.stretch` or `.queue`; `i` has 0 there -/
  | genSym (i : Instr) (s : String) (q : KasSuffix)
  | lane (l : KasLane)
  | laneImm (l : KasLane) (v : KasLast)
  /-- an engine command; `params` are the operands that fill parameter words, in order -/
  | engine (c : KasCmd) (tag : Option KasExpr) (params : List KasParam)
  | rows (n : Nat)
  | regs (n : Nat)
  | gang (n : Nat)
  | cls (c : TrafficClass)
  | buffers (wb ab cb : Nat)
  | lend (b : Buf) (off len : Nat)
  | carry (regs : List VReg)
  | mmrev (m : Nat)
  | levels (l : List (Nat × Nat × Nat))
  | mono (on : Bool)
  | stretch (s : String) (n : Nat)
  | param (n : Nat) (s : String)
  | data (s : String) (bits : Nat) (vs : List KasExpr)
  | align (n : Nat)
  | equ (s : String) (e : KasExpr)
  | handle (s : String) (n : Nat)
  | queue (s : String) (n : Nat)
  | handler (l : String)
  deriving DecidableEq, Repr

/-- Slots that a line places, padding aside (R54, R132). -/
def KasLine.slots : KasLine → Nat
  | .gen _ _ _ | .genSym _ _ _ | .lane _ | .laneImm _ _ => 1
  | .engine _ _ _ => 5
  | _ => 0

/-- A directive whose value the launch takes as its default and which must stand before the first slot (R132). -/
def KasLine.launchDirective : KasLine → Bool
  | .rows _ | .regs _ | .gang _ | .cls _ | .buffers _ _ _ | .lend _ _ _ | .carry _ | .mmrev _ | .levels _ | .mono _ => true
  | _ => false

/-! ## Where the lines of a kernel stand (R125, R132) -/

/-- The place that pass 1 has reached: the next slot and data byte, an `.align` that waits for content, labels that wait for a slot. -/
structure KasPlace where
  slot : Nat := 0
  byte : Nat := 0
  align : Option Nat := none
  waiting : List String := []
  labels : List (String × Nat) := []
  data : List (String × Nat) := []
  deriving DecidableEq, Repr

/-- An `.align` beside those that wait for the same content; alignments are powers of two. -/
def alignBoth (a : Option Nat) (n : Nat) : Option Nat := some (max n (a.getD 1))

/-- The next multiple of an alignment. -/
def alignUp (a : Option Nat) (n : Nat) : Nat :=
  match a with
  | none => n
  | some k => (n + k - 1) / k * k

/-- A line takes its place.  DESIGN CHOICE (log 60): a label, before an `.align`, between two or behind, names the slot behind the padding. -/
def KasPlace.line (p : KasPlace) (l : KasLine) : KasPlace :=
  match l with
  | .label s => { p with waiting := p.waiting ++ [s] }
  | .align n => { p with align := alignBoth p.align n }
  | .data s bits vs =>
    let at' := alignUp p.align p.byte
    { p with byte := at' + bits / 8 * vs.length, align := none, data := p.data ++ [(s, at')] }
  | l =>
    if l.slots == 0 then p
    else
      let at' := alignUp p.align p.slot
      { p with slot := at' + l.slots, align := none, waiting := [], labels := p.labels ++ p.waiting.map fun s => (s, at') }

/-- The end of the kernel, where an `.align` without a line pads slots.  DESIGN CHOICE (log 60): a label behind which the kernel has no slot
takes the index just past the last one. -/
def KasPlace.close (p : KasPlace) : KasPlace :=
  let at' := alignUp p.align p.slot
  { p with slot := at', align := none, waiting := [], labels := p.labels ++ p.waiting.map fun s => (s, at') }

def placeLines (ls : List KasLine) : KasPlace := (ls.foldl KasPlace.line {}).close

/-! ## Generator instructions (R126, R127) -/

/-- OFF for a target. -/
def kasOff (pc target : Int) : Option (BitVec 14) :=
  if -8192 ≤ target - pc ∧ target - pc ≤ 8191 then some (BitVec.ofInt 14 (target - pc)) else none

/-- The sequencing of a suffix at slot `pc`; `loops` are the GLOOPs before the line with their slots, the nearest first. -/
def kasSeq (sc : KasScope) (loops : List (LoopReg × Nat)) (pc : Nat) (q : KasSuffix) : Option Seq :=
  let off := fun (l : String) => (kasFind sc.labels l).bind fun n => kasOff pc n
  match q with
  | .none => some .next
  | .jump l => (off l).map .jump
  | .jumpIf l f => (off l).map (.jt f)
  | .jumpUnless l f => (off l).map (.jf f)
  | .call l => (off l).map .call
  | .ret => some .ret
  | .lend n => ((loops.find? fun x => x.1 == n).bind fun x => kasOff pc (x.2 + 1)).map (.lend n)
  | .lendTo n l => (off l).map (.lend n)
  | .exit => some .exit

/-- Bits [62:43] of a sequencing. -/
def seqBits (q : Seq) : DWord :=
  let s := encodeSeq q
  (0#1 ++ s.1 ++ s.2.1 ++ s.2.2 ++ 0#43 : DWord)

/-- The immediate of a generator line in its field: imm29 of GLI and GLIH (R366), the stretch name of CAPB, CAPX and RPLY in imm16[7:0] (R75),
else imm16 with I = 1. -/
def kasImm (sc : KasScope) (i : Instr) (w : DWord) (e : KasExpr) : Option DWord :=
  let wide := fun (lo hi : Int) =>
    if w.extractLsb' 0 29 != 0 then none else (sc.within lo hi e).map fun v => w ||| (BitVec.ofInt 29 v).zeroExtend 64
  match i with
  | .gli _ _ _ => wide (-(2 ^ 28)) (2 ^ 28 - 1)
  | .glih _ _ _ => wide 0 (2 ^ 29 - 1)
  | .capb _ _ | .capbDry _ _ | .capx _ (.imm _) | .rply _ (.imm _) =>
    if w.extractLsb' 0 8 != 0 then none else (sc.within 0 255 e).map fun v => w ||| (BitVec.ofInt 8 v).zeroExtend 64
  | _ =>
    if w.extractLsb' 0 16 != 0 then none
    else (sc.within (-32768) 32767 e).map fun v => w ||| 0x10000 ||| (BitVec.ofInt 16 v).zeroExtend 64

/-- The instruction with a symbol in its place: a stretch name of CAPB, CAPX and RPLY, a queue of QRSV, QCMT, QPOP and QSLOT (R132). -/
def KasScope.fill (sc : KasScope) (i : Instr) (s : String) : Option Instr :=
  let name := (kasFind sc.names s).map (BitVec.ofNat 8)
  let queue := kasFind sc.queues s
  match i with
  | .capb q _ => name.map (.capb q)
  | .capbDry q _ => name.map (.capbDry q)
  | .capx q (.imm _) => name.map fun n => .capx q (.imm n)
  | .rply q (.imm _) => name.map fun n => .rply q (.imm n)
  | .qrsv q d _ => queue.map fun n => .qrsv q d (BitVec.ofNat 4 n)
  | .qcmt q a _ => queue.map fun n => .qcmt q a (BitVec.ofNat 4 n)
  | .qpop q d _ => queue.map fun n => .qpop q d (BitVec.ofNat 4 n)
  | .csrr q d n => if n == 0x100 then queue.map fun k => .csrr q d (n + BitVec.ofNat 12 k) else none
  | _ => none

/-- A register of a generator instruction that must be a row register of the kernel (R131). -/
def kasGenRegs (regs : Nat) : Instr → Bool
  | .cdef _ _ x _ => decide (x.toNat < regs)
  | _ => true

/-- The slot of a generator line; none when kas rejects it. -/
def kasGen (sc : KasScope) (regs : Nat) (loops : List (LoopReg × Nat)) (pc : Nat) (i : Instr) (imm : Option KasExpr) (q : KasSuffix) : Option DWord :=
  match encode i, kasSeq sc loops pc q with
  | [w], some q =>
    if w.getLsbD 63 || w.extractLsb' 43 20 != 0 || !kasGenRegs regs i then none
    else
      ((match imm with
        | none => some w
        | some e => kasImm sc i w e).map fun w => w ||| seqBits q).bind fun w => if (decodeG w).isSome then some w else none
  | _, _ => none

/-! ## Lane instructions (R128, R129) -/

/-- `digits * 10^exp` rounded to the nearest integer, ties to even. -/
def decNearest (digits : Nat) (exp : Int) : Nat :=
  if 0 ≤ exp then digits * 10 ^ exp.toNat
  else
    let d := 10 ^ (-exp).toNat
    let q := digits / d
    let twice := 2 * (digits % d)
    if decide (d < twice) || (twice == d && q % 2 == 1) then q + 1 else q

/-- `± digits * 10^exp` in a format by RNE. -/
def decPattern (f : Fmt) (neg : Bool) (digits : Nat) (exp : Int) : Nat :=
  if digits == 0 then if neg then f.sign else 0
  else if 0 ≤ exp then (f.round .rne neg (digits * 10 ^ exp.toNat) 0 false).1
  else
    let n := (-exp).toNat
    let k := 4 * n + 200
    (f.round .rne neg (digits * 2 ^ k / 10 ^ n) (-(k : Int)) (digits * 2 ^ k % 10 ^ n != 0)).1

/-- The element of a literal (R129); none when it does not fit.  DESIGN CHOICE (log 60): `nan` gives the default NaN of the format. -/
def kasElement (sc : KasScope) (t : ElemTy) (l : KasLiteral) : Option Nat :=
  if isF t then
    match l with
    | .int e => (sc.value e).map fun z => (t.fmt.encode .rne (FVal.ofInt z 0)).1
    | .dec neg d x => some (decPattern t.fmt neg d x)
    | .inf neg => some ((if neg then t.fmt.sign else 0) + t.fmt.inf)
    | .nan => some t.fmt.dnan
  else
    let fit := fun (z : Int) => if (clampInt (isSigned t) (elemBits t) z).2 then none else some (wrapInt (elemBits t) z)
    match l with
    | .int e => (sc.value e).bind fit
    | .dec neg d x => fit (if neg then -(decNearest d x : Int) else decNearest d x)
    | .inf _ | .nan => none

/-- The element in every position of the word. -/
def kasWord (t : ElemTy) (v : Nat) : Word := BitVec.ofNat 32 ((List.range (perWord t)).foldl (fun w k => w + v * 2 ^ (elemBits t * k)) 0)

/-- The lane instructions whose address takes a displacement: VLD, VST, VLDG and VSTG (R139). -/
def kasHasDisp (op : Nat) : Bool := decide (0x40 ≤ op ∧ op ≤ 0x43)

/-- The displacement in units of 4 bytes, from 0 to 1,020 (R194, R425); an instruction without one takes none. -/
def kasDisp (sc : KasScope) (l : KasLane) : Option (BitVec 8) :=
  match l.disp with
  | none => some l.vc
  | some e =>
    (sc.within 0 1020 e).bind fun v => if v % 4 == 0 && l.vc == 0 && kasHasDisp l.op then some (BitVec.ofInt 8 (v / 4)) else none

/-- The fields of a lane line in format L; a lookahead takes 0 to 15. -/
def KasLane.form (sc : KasScope) (l : KasLane) : Option LForm :=
  let g := l.guard.getD (false, 15)
  let la := l.la.getD 0
  if 15 < la then none
  else (kasDisp sc l).map fun vc => { pg := g.2, pn := g.1, t := l.t, vd := l.vd, va := l.va, vb := l.vb, vc := vc, ka := l.ka, kb := l.kb,
                                      la := BitVec.ofNat 4 la, rnd := l.rnd.getD .rne, fn := l.fn }

/-- What kas checks against the directives of the kernel (R131): registers and carried registers. -/
def kasRegsOk (regs : Nat) (carried : List Nat) (i : Instr) : Bool :=
  (i.groups.all fun x => decide (x.1 + x.2 ≤ regs)) &&
    ((carryCodes i).1 == .none || i.vaRegs.all fun r => carried.contains r) &&
    ((carryCodes i).2 == .none || i.vbRegs.all fun r => carried.contains r)

/-- A slot that would not fault at emission for its encoding, registers or carries; `la=` on an instruction outside R83 is rejected. -/
def kasAccept (regs : Nat) (carried : List Nat) (ws : List DWord) : Option (List DWord) :=
  match decodeSlots (ws.getD 0 0) (ws.getD 1 0) (ws.getD 2 0) (ws.getD 3 0) (ws.getD 4 0) with
  | .ok i =>
    let la := match i.lform with
      | some (op, f) => lLaOk op f
      | none => true
    if la && kasRegsOk regs carried i then some ws else none
  | .error _ => none

/-- The slot of a lane line in format L; `la=` stands only on an instruction of R83. -/
def kasLane (sc : KasScope) (regs : Nat) (carried : List Nat) (l : KasLane) : Option (List DWord) :=
  if l.la.isSome && !((lRow l.op).map fun r => r.la).getD false then none
  else (l.form sc).bind fun f => kasAccept regs carried [packL l.op f]

/-- The slot of a lane line whose last source operand is a literal or a substitution: format L-I, opcode 0x20 plus the format L opcode
of a mnemonic that has both, or VLI; VMOV has no format L-I (R129). -/
def kasLaneImm (sc : KasScope) (regs : Nat) (carried : List Nat) (l : KasLane) (v : KasLast) : Option (List DWord) :=
  let op := if l.op == 0x2F then 0x2F else 0x20 + l.op
  if !(decide (l.op < 0x0F) || l.op == 0x2F) || decide (64 ≤ l.vd.toNat) || decide (64 ≤ l.va.toNat) || l.ka != .none || l.kb != .none ||
      l.la.isSome || (l.rnd.getD .rne) != .rne || l.fn != 0 || l.vb != 0 || l.vc != 0 || l.disp.isSome then none
  else
    let g := l.guard.getD (false, 15)
    let src : Option Sub := match v with
      | .lit x => (kasElement sc l.t x).map fun e => .imm (kasWord l.t e)
      | .glo n => some (.glo n)
      | .ghi n => some (.ghi n)
      | .hole n => some (.hole n)
    src.bind fun src => kasAccept regs carried
      [packLI op { pg := g.2, pn := g.1, t := l.t, vd := l.vd.truncate 6, va := l.va.truncate 6, src := src }]

/-! ## Engine commands (R130) -/

def kasParam (sc : KasScope) : KasParam → Option Param
  | .lit e => (sc.within (-(2 ^ 61)) (2 ^ 61 - 1) e).map fun v => .lit (BitVec.ofInt 64 v)
  | .g n => some (.g n)
  | .hole n => some (.hole n)

/-- The number of a handle. -/
def KasScope.handle (sc : KasScope) : KasHandle → Option Nat
  | .d n => some n.toNat
  | .sym s => kasFind sc.handles s

/-- A size from `lo` to `hi` that is a multiple of `unit`, as its field holds it: the number of units less one. -/
def KasScope.units (sc : KasScope) (lo hi unit : Nat) (e : KasExpr) : Option Nat :=
  (sc.within lo hi e).bind fun v => if v.toNat % unit == 0 then some (v.toNat / unit - 1) else none

/-- FN and the head of a command: the fields that its reference entry gives, each within its limits (R179, R244, R246, R255, R259, R346,
R353). -/
def KasCmd.head (sc : KasScope) : KasCmd → Option (BitVec 4 × Nat)
  | .cpy fn full => some (fn, full.toNat)
  | .fgat wb crc h vC g =>
    (sc.handle h).bind fun n => (sc.units 1 8 1 g).map fun k =>
      (if wb then 1 else 0, crc.toNat + n * 2 ^ 8 + vC.toNat * 2 ^ 16 + k * 2 ^ 24)
  | .fhdl h => (sc.handle h).map fun n => (0, n)
  | .mldw fn hold => some (fn, hold.toNat)
  | .mma fn hold z => some (fn, hold.toNat + z.toNat * 2)
  | .mmas fn hold z vM => some (fn, hold.toNat + z.toNat * 2 + vM.toNat * 2 ^ 8)
  | .mscl col => some (if col then 1 else 0, 0)
  | .mwait flags => some (0, flags.toNat)
  | .cwait fn => some (fn, 0)
  | .nsub fn fua => some (fn, fua.toNat)
  | .merge fn a b => some (fn, a.toNat + b.toNat * 8)
  | .sprd d f r =>
    (sc.units 16 16384 16 d).bind fun d => (sc.units 16 65536 16 f).bind fun f => (sc.units 16 256 16 r).map fun r =>
      (0, d + f * 2 ^ 10 + r * 2 ^ 22)
  | .schk h d f =>
    (sc.handle h).bind fun n => (sc.units 16 16384 16 d).bind fun d => (sc.units 16 65536 16 f).map fun f => (0, d + f * 2 ^ 10 + n * 2 ^ 22)
  | .mswp | .mclr | .mrdy => some (0, 0)

/-- The opcode of a command (R140) and how many of its operands fill parameter words, in order from P0 on. -/
def KasCmd.shape : KasCmd → Nat × Nat
  | .cpy _ _ => (0x70, 3)
  | .fgat _ _ _ _ _ => (0x71, 3)
  | .fhdl _ => (0x72, 1)
  | .mldw _ _ => (0x73, 1)
  | .mswp => (0x74, 0)
  | .mma _ _ _ => (0x75, 4)
  | .mmas _ _ _ _ => (0x76, 4)
  | .mclr => (0x77, 0)
  | .mscl _ => (0x78, 1)
  | .mrdy => (0x79, 0)
  | .mwait flags => (0x7A, if flags then 1 else 0)
  | .cwait _ => (0x7B, 0)
  | .nsub fn _ => (0x7C, if fn == 2 then 1 else 4)
  | .merge _ _ _ => (0x7D, 2)
  | .sprd _ _ _ => (0x7E, 4)
  | .schk _ _ _ => (0x7F, 3)

/-- The head slot and the parameter words, unused ones 0. -/
def kasEngine (sc : KasScope) (regs : Nat) (c : KasCmd) (tag : Option KasExpr) (ps : List KasParam) : Option (List DWord) :=
  let ps' := ps.filterMap (kasParam sc)
  if ps.length != c.shape.2 || ps'.length != ps.length then none
  else
    let p := fun k => ps'.getD k (Param.lit 0)
    (c.head sc).bind fun h => (sc.within 0 65535 (tag.getD (.num 0))).bind fun t => kasAccept regs []
      (packE c.shape.1 { fn := h.1, tag := BitVec.ofInt 16 t, head := BitVec.ofNat 32 h.2, p0 := p 0, p1 := p 1, p2 := p 2, p3 := p 3 })

/-! ## Kernels -/

/-- Little-endian constants of n bits, each within the signed or the unsigned range (R132). -/
def kasData (sc : KasScope) (bits : Nat) (vs : List KasExpr) : Option (List Byte) :=
  let l := vs.filterMap (sc.within (-((2 ^ (bits - 1) : Nat) : Int)) (((2 ^ bits : Nat) : Int) - 1))
  if (bits == 8 || bits == 16 || bits == 32 || bits == 64) && l.length == vs.length then
    some (l.flatMap fun v => leBytes (bits / 8) (wrapInt bits v))
  else none

/-- What pass 2 has written. -/
structure KasOut where
  slots : List DWord := []
  data : List Byte := []
  align : Option Nat := none
  loops : List (LoopReg × Nat) := []
  /-- names of `.stretch` that wait for the end of their stretch, and the extents: first and last slot -/
  opened : List (Nat × Nat) := []
  extents : List (Nat × Nat × Nat) := []
  deriving DecidableEq, Repr

/-- The padding of an `.align` before the next content. -/
def KasOut.padSlots (o : KasOut) : KasOut :=
  { o with slots := o.slots ++ List.replicate (alignUp o.align o.slots.length - o.slots.length) 0, align := none }
def KasOut.padData (o : KasOut) : KasOut :=
  { o with data := o.data ++ List.replicate (alignUp o.align o.data.length - o.data.length) 0, align := none }

/-- A power of two from 1 to 256. -/
def kasAlignOk (n : Nat) : Bool := (List.range 9).any fun k => n == 2 ^ k

/-- A generator slot placed; a CAPE ends the stretches that are open, and one that no CAPE ends has no extent (log 60). -/
def KasOut.gen (sc : KasScope) (regs : Nat) (o : KasOut) (i : Instr) (imm : Option KasExpr) (q : KasSuffix) : Option KasOut :=
  let o := o.padSlots
  let pc := o.slots.length
  (kasGen sc regs o.loops pc i imm q).map fun w =>
    let o := { o with slots := o.slots ++ [w] }
    match i with
    | .gloop _ n _ => { o with loops := (n, pc) :: o.loops }
    | .cape _ _ => { o with opened := [], extents := o.extents ++ o.opened.map fun x => (x.1, x.2, pc) }
    | _ => o

/-- A line that begins a capture. -/
def KasLine.isCapb : KasLine → Bool
  | .gen (.capb _ _) _ _ | .gen (.capbDry _ _) _ _ | .genSym (.capb _ _) _ _ | .genSym (.capbDry _ _) _ _ => true
  | _ => false

/-- A label stands before the line that it names. -/
def KasLine.isLabel : KasLine → Bool
  | .label _ => true
  | _ => false

/-- One line of pass 2; none when kas rejects it. `next` is the line behind it, labels apart. -/
def KasOut.line (sc : KasScope) (regs : Nat) (carried : List Nat) (o : KasOut) (l : KasLine) (next : Option KasLine) : Option KasOut :=
  match l with
  | .gen i imm q => KasOut.gen sc regs o i imm q
  | .genSym i s q => (sc.fill i s).bind fun i => KasOut.gen sc regs o i none q
  | .lane l => let o := o.padSlots; (kasLane sc regs carried l).map fun ws => { o with slots := o.slots ++ ws }
  | .laneImm l v => let o := o.padSlots; (kasLaneImm sc regs carried l v).map fun ws => { o with slots := o.slots ++ ws }
  | .engine c tag ps => let o := o.padSlots; (kasEngine sc regs c tag ps).map fun ws => { o with slots := o.slots ++ ws }
  | .data _ bits vs => let o := o.padData; (kasData sc bits vs).map fun b => { o with data := o.data ++ b }
  | .align n => if kasAlignOk n then some { o with align := alignBoth o.align n } else none
  | .stretch _ n =>
    let first := alignUp o.align o.slots.length
    if next.any KasLine.isCapb && decide (n < 256) then some { o with opened := o.opened ++ [(n, first)] } else none
  | _ => some o

/-- Pass 2. -/
def writeLines (sc : KasScope) (regs : Nat) (carried : List Nat) : KasOut → List KasLine → Option KasOut
  | o, [] => some o.padSlots
  | o, l :: ls => (o.line sc regs carried l (ls.dropWhile KasLine.isLabel).head?).bind fun o => writeLines sc regs carried o ls

/-- The launch values of a kernel without directives (R132). -/
def kasDefaults : Kernel :=
  { entry := 0, rodata := 0, rows := 1, regs := 256, gang := 1, cls := .normal, wb := 0, ab := 0, cb := 0, lends := [], carry := [],
    mmrev := 2, levels := [], mono := false, params := [], handler := none }

/-- The launch values that the directives give. -/
def kasValues (sc : KasScope) (k : Kernel) : KasLine → Kernel
  | .rows n => { k with rows := n }
  | .regs n => { k with regs := n }
  | .gang n => { k with gang := n }
  | .cls c => { k with cls := c }
  | .buffers a b c => { k with wb := a, ab := b, cb := c }
  | .lend b off len => { k with lends := k.lends ++ [(b, off, len)] }
  | .carry l => { k with carry := l.map fun r => r.toNat }
  | .mmrev m => { k with mmrev := m }
  | .levels l => { k with levels := l }
  | .mono m => { k with mono := m }
  | .param n _ => { k with params := k.params ++ [BitVec.ofNat 6 n] }
  | .handler l => { k with handler := (kasFind sc.labels l).map fun n => BitVec.ofNat 64 n }
  | _ => k

/-- The limits of R132. -/
def kasLimits (k : Kernel) : Bool :=
  let sizeOk := fun (n cap : Nat) => n % 4096 == 0 && decide (n ≤ cap)
  let bufOf := fun (b : Buf) => match b with
    | .wb => k.wb
    | .ab => k.ab
    | .cb => k.cb
  decide (1 ≤ k.rows ∧ k.rows ≤ 32) && k.regs % 8 == 0 && decide (8 ≤ k.regs ∧ k.regs ≤ 256) && decide (1 ≤ k.gang ∧ k.gang ≤ 192) &&
    sizeOk k.wb (4 * 2 ^ 20) && sizeOk k.ab (4 * 2 ^ 20) && sizeOk k.cb (3 * 2 ^ 19) &&
    (k.lends.all fun l => l.2.1 % 4096 == 0 && l.2.2 % 4096 == 0 && decide (l.2.1 + l.2.2 ≤ bufOf l.1) &&
      decide ((k.lends.filter fun x => x.1 == l.1).length ≤ 4)) && (k.lends.isEmpty || k.cls != .ash) &&
    decide (k.carry.length ≤ 8) && k.carry.eraseDups.length == k.carry.length && (k.carry.all fun r => decide (r < k.regs)) &&
    (k.mmrev == 1 || k.mmrev == 2) && (k.levels.isEmpty || levelsOk k.rows k.levels) && decide (k.params.length ≤ 16)

/-- Limits of single lines. -/
def KasLine.ok : KasLine → Bool
  | .param n _ => decide (1 ≤ n ∧ n ≤ 63)
  | .handle _ n => decide (n ≤ 63)
  | .queue _ n => decide (n ≤ 15)
  | .carry l => !l.isEmpty
  | .levels l => !l.isEmpty
  | _ => true

/-- Launch directives stand before the first slot. -/
def directivesFirst : List KasLine → Bool
  | [] => true
  | l :: ls => if l.slots == 0 then directivesFirst ls else !(ls.any KasLine.launchDirective)

/-- Names that the lines of a kernel bind, constants aside. -/
def KasLine.binds : KasLine → List String
  | .label s | .stretch s _ | .param _ s | .data s _ _ | .handle s _ | .queue s _ => [s]
  | _ => []

/-- Names that may stand in expressions of their kernel only. -/
def KasLine.scoped : KasLine → List String
  | .label s | .data s _ _ => [s]
  | _ => []

def KasLine.equOf : KasLine → Option (String × KasExpr)
  | .equ s e => some (s, e)
  | _ => none

/-- What `.stretch`, `.handle` and `.queue` bind. -/
def KasLine.nameOf : KasLine → Option (String × Nat)
  | .stretch s n => some (s, n)
  | _ => none
def KasLine.handleOf : KasLine → Option (String × Nat)
  | .handle s n => some (s, n)
  | _ => none
def KasLine.queueOf : KasLine → Option (String × Nat)
  | .queue s n => some (s, n)
  | _ => none

/-- The constants of a kernel's lines that are local to it, and the others. -/
def splitEqus (ls : List KasLine) : List (String × KasExpr) × List (String × KasExpr) :=
  let equs := ls.filterMap KasLine.equOf
  equs.partition fun x => x.2.uses (ls.flatMap KasLine.scoped) equs kasFuel

/-- An assembled kernel. -/
structure KasKernel where
  name : String
  slots : List DWord
  data : List Byte
  extents : List (Nat × Nat × Nat)
  /-- launch values; `entry`, `rodata` and the handler relative to the kernel -/
  values : Kernel
  deriving DecidableEq, Repr

/-- A kernel of a file with the global constants; none when kas rejects it. -/
def assembleKernel (globals : List (String × KasExpr)) (name : String) (ls : List KasLine) : Option KasKernel :=
  let p := placeLines ls
  let sc : KasScope := { labels := p.labels, data := p.data, equs := (splitEqus ls).1 ++ globals, names := ls.filterMap KasLine.nameOf,
                         handles := ls.filterMap KasLine.handleOf, queues := ls.filterMap KasLine.queueOf }
  let names := ls.flatMap KasLine.binds ++ (splitEqus ls).1.map fun x => x.1
  let k := ls.foldl (kasValues sc) kasDefaults
  if names.eraseDups.length != names.length || (names.any fun s => globals.any fun x => x.1 == s) || !(names.all kasSymbol) ||
      !(ls.all KasLine.ok) || !directivesFirst ls || !kasLimits k ||
      decide (1 < (ls.filter fun l => match l with | .handler _ => true | _ => false).length) ||
      (ls.any fun l => match l with
        | .handler s => (kasFind p.labels s).isNone
        | .equ _ e => (sc.value e).isNone
        | _ => false) then none
  else (writeLines sc k.regs k.carry {} ls).map fun o => { name := name, slots := o.slots, data := o.data, extents := o.extents, values := k }

/-- The lines before the first `.kernel`, and the kernels with theirs. -/
def splitKernels : List KasLine → List KasLine × List (String × List KasLine)
  | [] => ([], [])
  | .kernel n :: ls => let (a, b) := splitKernels ls; ([], (n, a) :: b)
  | l :: ls => let (a, b) := splitKernels ls; (l :: a, b)

/-- The kernels of a file; none when kas rejects a line of it, or two kernels have one name (log 60). -/
def assemble (file : List KasLine) : Option (List KasKernel) :=
  let (pre, ks) := splitKernels file
  let globals := (splitEqus pre).2 ++ ks.flatMap fun k => (splitEqus k.2).2
  let names := globals.map fun x => x.1
  let kernels := ks.map fun k => k.1
  let out := ks.filterMap fun k => assembleKernel globals k.1 k.2
  let known : KasScope := { labels := [], data := [], equs := globals }
  if (pre.any fun l => l.equOf.isNone) || (globals.any fun x => (known.value x.2).isNone) || names.eraseDups.length != names.length || kernels.eraseDups.length != kernels.length ||
      !(names.all kasSymbol) || !(kernels.all kasSymbol) || out.length != ks.length then none
  else some out

/-- What a code object says of a kernel whose slots the translator has put at slot `entry` and whose data at `rodata`. -/
def KasKernel.placed (k : KasKernel) (entry rodata : DWord) : Kernel :=
  { k.values with entry := entry, rodata := rodata, extents := k.extents }

/-- The Kator level of a function that an assembled kernel gives (R291), its slots at a byte offset of the object. -/
def KasKernel.level (k : KasKernel) (entry rodata : DWord) (place : Nat) : AbeusLevel :=
  { level := 0, version := k.values.mmrev, kernel := k.placed entry rodata, place := place,
    code := k.slots.flatMap fun w => leBytes 8 w.toNat, data := k.data }

end Sys2Proof.Machine
end

