-- ==== Sys2Proof/Tests/Slice0.lean ====
section
/-!
SUPPORT. Tests: ill-formed terms that are refused, words written out field by field from the manual's layouts (R107, R116, R120,
R122) with what they decode to, results worked out by hand from the rules, and for every statement with hypotheses states and
operands that meet them.
-/
namespace Sys2Proof.Tests
open Sys2Proof Sys2Proof.Machine Sys2Proof.Safety
set_option Elab.async false

/-! ## Helpers -/

/-- A one-slot word decodes to the instruction. -/
def reads (w : DWord) (i : Instr) : Bool :=
  match decodeBytes (slotBytes w) with
  | .ok j => decide (j = i)
  | .error _ => false

/-- A head and its four parameter words decode to the instruction. -/
def reads5 (w p0 p1 p2 p3 : DWord) (i : Instr) : Bool :=
  match decodeBytes ([w, p0, p1, p2, p3].flatMap slotBytes) with
  | .ok j => decide (j = i)
  | .error _ => false

/-- The outcome is a next state with the property. -/
def next (o : Out) (p : State → Bool) : Bool :=
  match o with
  | .next t => p t
  | _ => false

/-- A launch on cluster 0: one row, eight registers, a trap vector, buffers of one page, queue 1 bound to context queue 0,
registers 1 and 2 carried. -/
def launch1 : Waiting :=
  { probeLaunch with params := { probeLaunch.params with
      kernel := { probeKernel with regs := 16, carry := [1, 2] }
      regs := 16, tvec := 0x100
      queues := (Vector.replicate 16 none).setIfInBounds 0 (some 1) } }

/-- Its context. -/
def base : Ctx := freshCtx launch1 0 [[0]]

/-- The same on two clusters with two rows on each. -/
def launch2 : Waiting := { launch1 with params := { launch1.params with gang := 2, rows := 2 } }
def pair : Ctx := freshCtx launch2 0 [[0, 0], [0, 0]]

/-- A page of data at 0x20000. -/
def page : Xlat := { base := 0x20000, size := 0x10000, pa := 0x20000, rep := false, fmt := 0, r := true, w := true, x := false, u := true }

/-- A device that runs with one context, the code page and a data page. -/
def dev (c : Ctx) : State := { State.reset with phase := .running, ctxs := [c], tlb := [(0, page), (0, probeXlat)] }

/-- A queue of 16 slots of 64 bytes in the data page. -/
def queue1 : DevQueue :=
  { num := 1, domain := some 0, ring := 0x21000, logd := 4, logr := 6, consumer := .context, crimson := false, bitmap := 0x22000,
    budget := 0, ticket := 2, head := 0, committed := [], unreleased := [0, 1], sleepers := [], lastCommit := 0, lastSlot := 0 }

/-! ## Well-formedness -/

/-- A parameter literal outside 62 bits, a signed 64-bit load, a trap that exits. -/
theorem test_refuses_generator_forms :
    (Instr.gld .next .d true 1 2 0).wellFormed = false ∧ (Instr.gtrap .exit 0).wellFormed = false ∧
    (Instr.gld .next .w true 1 2 0).wellFormed = true ∧ (Instr.gtrap .next 0).wellFormed = true := by decide +kernel

/-- A carry on an operand that is not there, a function that is not listed, an odd address pair, a row of the wrong function. -/
theorem test_refuses_lane_forms :
    (Instr.vabs ⟨15, false, .f32, 5, 6, 0, 0, .none, .k1, 0, .rne, 0⟩).wellFormed = false ∧
    (Instr.vadd ⟨15, false, .f32, 5, 6, 7, 0, .none, .none, 0, .rne, 1⟩).wellFormed = false ∧
    (Instr.vldg ⟨15, false, .f32, 5, 7, 0, 0, .none, .none, 0, .rne, 0⟩).wellFormed = false ∧
    (Instr.vcvt ⟨15, false, .f32, 5, 6, 7, 0x80, .none, .none, 0, .rne, 1⟩).wellFormed = false ∧
    (Instr.vandImm ⟨15, false, .f32, 5, 6, .imm 0⟩).wellFormed = false ∧
    (Instr.vli ⟨15, false, .f32, 5, 1, .imm 0⟩).wellFormed = false := by decide +kernel

/-- A literal that no parameter word holds, an undefined head bit, a parameter that the command does not use, a row of the
wrong function. -/
theorem test_refuses_engine_forms :
    (Instr.fhdl ⟨0, 0, 0, .lit 0x2000000000000000, .lit 0, .lit 0, .lit 0⟩).wellFormed = false ∧
    (Instr.fhdl ⟨0, 0, 0x40, .lit 0, .lit 0, .lit 0, .lit 0⟩).wellFormed = false ∧
    (Instr.mswp ⟨0, 0, 0, .g 1, .lit 0, .lit 0, .lit 0⟩).wellFormed = false ∧
    (Instr.nsubRead ⟨1, 0, 0, .lit 0, .lit 0, .lit 0, .lit 0⟩).wellFormed = false ∧
    (Instr.fhdl ⟨0, 0, 0x3F, .lit 0x1FFFFFFFFFFFFFFF, .lit 0, .lit 0, .lit 0⟩).wellFormed = true := by decide +kernel

/-- Numbers of device steps out of range. -/
theorem test_refuses_device_steps :
    (Instr.launch 4096).wellFormed = false ∧ (Instr.nsubRetire 1024 0 ⟨0, 0, 0, false, false⟩ []).wellFormed = false ∧
    (Instr.restore 0 192).wellFormed = false ∧ (Instr.criticalTemperature 4).wellFormed = false ∧
    (Instr.runtimeFence (.cluster 192)).wellFormed = false ∧ (Instr.runtimeFence (.slice 256)).wellFormed = false ∧
    (Instr.runtimeFence (.stack 8)).wellFormed = false ∧ (Instr.runtimeFence (.ucie 8)).wellFormed = false ∧
    (Instr.runtimeFence (.storage 4)).wellFormed = false ∧ (Instr.runtimeFence (.ranoc 16)).wellFormed = false ∧
    (Instr.attestationReport []).wellFormed = false ∧ (Instr.launch 4095).wellFormed = true := by decide +kernel

/-- Slots that the decoder refuses, each by its name: an unassigned opcode in each domain, a reserved marker, an undefined
function, a substitution with set bits, a slot cut short. -/
def refusal (bs : List Byte) : Option DecodeErr :=
  match decodeBytes bs with
  | .ok _ => none
  | .error e => some e
theorem test_decode_refuses :
    refusal (slotBytes (0#1 ++ 0#3 ++ 0#3 ++ 0#14 ++ 0x14#8 ++ 0#6 ++ 0#6 ++ 0#6 ++ 0#1 ++ 0#16)) = some .illegal ∧
    refusal (slotBytes (1#1 ++ 0x15#7 ++ 15#4 ++ 0#1 ++ 0#3 ++ 0#8 ++ 0#8 ++ 0#8 ++ 0#8 ++ 0#16)) = some .illop ∧
    refusal (slotBytes (1#1 ++ 0x20#7 ++ 15#4 ++ 0#1 ++ 0#3 ++ 1#6 ++ 1#6 ++ 4#4 ++ 0#32)) = some .illmark ∧
    refusal (slotBytes (1#1 ++ 0x04#7 ++ 15#4 ++ 0#1 ++ 0#3 ++ 0#8 ++ 0#8 ++ 0#8 ++ 0#8 ++ 1#16)) = some .illtype ∧
    refusal (slotBytes (1#1 ++ 0x20#7 ++ 15#4 ++ 0#1 ++ 0#3 ++ 1#6 ++ 1#6 ++ 1#4 ++ 64#32)) = some .subbad ∧
    refusal [0, 0, 0] = some .truncated := by decide +kernel

/-! ## Decoding: every constructor, fields written out -/

theorem test_decode_arith :
    reads (0#1 ++ 0#3 ++ 0#3 ++ 0#14 ++ 0x00#8 ++ 4#6 ++ 5#6 ++ 6#6 ++ 0#1 ++ 0#16) (.gadd .next 4 5 (.reg 6)) = true ∧
    reads (0#1 ++ 0#3 ++ 0#3 ++ 0#14 ++ 0x01#8 ++ 5#6 ++ 63#6 ++ 0#6 ++ 1#1 ++ 65534#16) (.gsub .next 5 63 (.imm 0xFFFE)) = true ∧
    reads (0#1 ++ 0#3 ++ 0#3 ++ 0#14 ++ 0x02#8 ++ 6#6 ++ 5#6 ++ 6#6 ++ 0#1 ++ 0#16) (.gmul .next 6 5 (.reg 6)) = true ∧
    reads (0#1 ++ 0#3 ++ 0#3 ++ 0#14 ++ 0x03#8 ++ 7#6 ++ 63#6 ++ 0#6 ++ 1#1 ++ 65534#16) (.gmulh .next 7 63 (.imm 0xFFFE)) = true ∧
    reads (0#1 ++ 0#3 ++ 0#3 ++ 0#14 ++ 0x04#8 ++ 8#6 ++ 5#6 ++ 6#6 ++ 0#1 ++ 0#16) (.gdiv .next 8 5 (.reg 6)) = true ∧
    reads (0#1 ++ 0#3 ++ 0#3 ++ 0#14 ++ 0x05#8 ++ 9#6 ++ 63#6 ++ 0#6 ++ 1#1 ++ 65534#16) (.grem .next 9 63 (.imm 0xFFFE)) = true ∧
    reads (0#1 ++ 0#3 ++ 0#3 ++ 0#14 ++ 0x06#8 ++ 10#6 ++ 5#6 ++ 6#6 ++ 0#1 ++ 0#16) (.gand .next 10 5 (.reg 6)) = true ∧
    reads (0#1 ++ 0#3 ++ 0#3 ++ 0#14 ++ 0x07#8 ++ 11#6 ++ 63#6 ++ 0#6 ++ 1#1 ++ 65534#16) (.gor .next 11 63 (.imm 0xFFFE)) = true ∧
    reads (0#1 ++ 0#3 ++ 0#3 ++ 0#14 ++ 0x08#8 ++ 12#6 ++ 5#6 ++ 6#6 ++ 0#1 ++ 0#16) (.gxor .next 12 5 (.reg 6)) = true ∧
    reads (0#1 ++ 0#3 ++ 0#3 ++ 0#14 ++ 0x09#8 ++ 13#6 ++ 63#6 ++ 0#6 ++ 1#1 ++ 65534#16) (.gshl .next 13 63 (.imm 0xFFFE)) = true ∧
    reads (0#1 ++ 0#3 ++ 0#3 ++ 0#14 ++ 0x0A#8 ++ 14#6 ++ 5#6 ++ 6#6 ++ 0#1 ++ 0#16) (.gshr .next 14 5 (.reg 6)) = true ∧
    reads (0#1 ++ 0#3 ++ 0#3 ++ 0#14 ++ 0x0B#8 ++ 15#6 ++ 63#6 ++ 0#6 ++ 1#1 ++ 65534#16) (.gsra .next 15 63 (.imm 0xFFFE)) = true ∧
    reads (0#1 ++ 0#3 ++ 0#3 ++ 0#14 ++ 0x0C#8 ++ 16#6 ++ 5#6 ++ 6#6 ++ 0#1 ++ 0#16) (.gmin .next 16 5 (.reg 6)) = true ∧
    reads (0#1 ++ 0#3 ++ 0#3 ++ 0#14 ++ 0x0D#8 ++ 17#6 ++ 63#6 ++ 0#6 ++ 1#1 ++ 65534#16) (.gmax .next 17 63 (.imm 0xFFFE)) = true := by
  decide +kernel

theorem test_decode_gmem :
    reads (0#1 ++ 0#3 ++ 0#3 ++ 0#14 ++ 0x0E#8 ++ 3#6 ++ 4#6 ++ 5#6 ++ 0#1 ++ 2#16) (.gsel .next 3 4 5 2) = true ∧
    reads (0#1 ++ 2#3 ++ 6#3 ++ 16383#14 ++ 0x0F#8 ++ 18#6 ++ 5#6 ++ 0#6 ++ 1#1 ++ 10#16) (.gcmp (.jt 6 0x3FFF) .lt 2 5 (.imm 10)) = true ∧
    reads (0#1 ++ 3#3 ++ 1#3 ++ 5#14 ++ 0x0F#8 ++ 47#6 ++ 5#6 ++ 6#6 ++ 0#1 ++ 0#16) (.gcmp (.jf 1 5) .leu 7 5 (.reg 6)) = true ∧
    reads (0#1 ++ 1#3 ++ 0#3 ++ 9#14 ++ 0x10#8 ++ 7#6 ++ 8#6 ++ 0#6 ++ 0#1 ++ 0#16) (.gclz (.jump 9) 7 8) = true ∧
    reads (0#1 ++ 4#3 ++ 0#3 ++ 9#14 ++ 0x11#8 ++ 7#6 ++ 8#6 ++ 0#6 ++ 0#1 ++ 0#16) (.gpopc (.call 9) 7 8) = true ∧
    reads (0#1 ++ 0#3 ++ 0#3 ++ 0#14 ++ 0x12#8 ++ 9#6 ++ 536870911#29) (.gli .next 9 0x1FFFFFFF) = true ∧
    reads (0#1 ++ 0#3 ++ 0#3 ++ 0#14 ++ 0x13#8 ++ 9#6 ++ 1#29) (.glih .next 9 1) = true ∧
    reads (0#1 ++ 0#3 ++ 0#3 ++ 0#14 ++ 0x40#8 ++ 4#6 ++ 10#6 ++ 6#6 ++ 1#1 ++ 8#16) (.gld .next .w true 4 10 8) = true ∧
    reads (0#1 ++ 0#3 ++ 0#3 ++ 0#14 ++ 0x40#8 ++ 4#6 ++ 10#6 ++ 3#6 ++ 1#1 ++ 8#16) (.gld .next .d false 4 10 8) = true ∧
    reads (0#1 ++ 0#3 ++ 0#3 ++ 0#14 ++ 0x41#8 ++ 4#6 ++ 10#6 ++ 1#6 ++ 1#1 ++ 65528#16) (.gst .next .h 4 10 0xFFF8) = true ∧
    reads (0#1 ++ 0#3 ++ 0#3 ++ 0#14 ++ 0x42#8 ++ 1#6 ++ 2#6 ++ 3#6 ++ 0#1 ++ 7#16) (.gamo .next .cas 1 2 3) = true ∧
    reads (0#1 ++ 0#3 ++ 0#3 ++ 0#14 ++ 0x42#8 ++ 1#6 ++ 2#6 ++ 3#6 ++ 0#1 ++ 4#16) (.gamo .next .or 1 2 3) = true := by
  decide +kernel

theorem test_decode_gsys :
    reads (0#1 ++ 0#3 ++ 0#3 ++ 0#14 ++ 0x60#8 ++ 2#6 ++ 0#6 ++ 0#6 ++ 1#1 ++ 100#16) (.gloop .next .lc2 (.imm 100)) = true ∧
    reads (0#1 ++ 6#3 ++ 1#3 ++ 16368#14 ++ 0x60#8 ++ 0#6 ++ 0#6 ++ 9#6 ++ 0#1 ++ 0#16) (.gloop (.lend .lc1 0x3FF0) .lc0 (.reg 9)) = true ∧
    reads (0#1 ++ 0#3 ++ 0#3 ++ 0#14 ++ 0x61#8 ++ 0#6 ++ 9#6 ++ 1#6 ++ 0#1 ++ 0#16) (.gjmpr true 9) = true ∧
    reads (0#1 ++ 0#3 ++ 0#3 ++ 0#14 ++ 0x61#8 ++ 0#6 ++ 9#6 ++ 0#6 ++ 0#1 ++ 0#16) (.gjmpr false 9) = true ∧
    reads (0#1 ++ 0#3 ++ 0#3 ++ 0#14 ++ 0x62#8 ++ 0#6 ++ 0#6 ++ 0#6 ++ 1#1 ++ 3#16) (.gwfe .next (.imm 3)) = true ∧
    reads (0#1 ++ 0#3 ++ 0#3 ++ 0#14 ++ 0x63#8 ++ 0#6 ++ 0#6 ++ 0#6 ++ 1#1 ++ 43981#16) (.gtrap .next 0xABCD) = true ∧
    reads (0#1 ++ 0#3 ++ 0#3 ++ 0#14 ++ 0x64#8 ++ 0#6 ++ 0#6 ++ 0#6 ++ 1#1 ++ 0#16) (.grteRetry) = true ∧
    reads (0#1 ++ 0#3 ++ 0#3 ++ 0#14 ++ 0x64#8 ++ 0#6 ++ 0#6 ++ 0#6 ++ 1#1 ++ 1#16) (.grteSkip) = true ∧
    reads (0#1 ++ 0#3 ++ 0#3 ++ 0#14 ++ 0x64#8 ++ 0#6 ++ 0#6 ++ 0#6 ++ 1#1 ++ 2#16) (.grteDiscard) = true ∧
    reads (0#1 ++ 0#3 ++ 0#3 ++ 0#14 ++ 0x65#8 ++ 5#6 ++ 0#6 ++ 0#6 ++ 1#1 ++ 69#16) (.csrr .next 5 0x045) = true ∧
    reads (0#1 ++ 0#3 ++ 0#3 ++ 0#14 ++ 0x66#8 ++ 0#6 ++ 5#6 ++ 0#6 ++ 1#1 ++ 64#16) (.csrw .next 5 0x040) = true ∧
    reads (0#1 ++ 0#3 ++ 0#3 ++ 0#14 ++ 0x67#8 ++ 0#6 ++ 0#6 ++ 0#6 ++ 1#1 ++ 6#16) (.fence .next .system) = true ∧
    reads (0#1 ++ 0#3 ++ 0#3 ++ 0#14 ++ 0x67#8 ++ 0#6 ++ 0#6 ++ 0#6 ++ 1#1 ++ 8#16) (.fenceX .next) = true ∧
    reads (0#1 ++ 0#3 ++ 0#3 ++ 0#14 ++ 0x68#8 ++ 0#6 ++ 0#6 ++ 0#6 ++ 1#1 ++ 1#16) (.phaseAcq .next) = true ∧
    reads (0#1 ++ 0#3 ++ 0#3 ++ 0#14 ++ 0x68#8 ++ 0#6 ++ 0#6 ++ 0#6 ++ 1#1 ++ 2#16) (.phaseRel .next) = true ∧
    reads (0#1 ++ 0#3 ++ 0#3 ++ 0#14 ++ 0x68#8 ++ 0#6 ++ 0#6 ++ 0#6 ++ 1#1 ++ 3#16) (.phaseAcqrel .next) = true ∧
    reads (0#1 ++ 7#3 ++ 0#3 ++ 0#14 ++ 0x69#8 ++ 0#6 ++ 0#6 ++ 0#6 ++ 1#1 ++ 2#16) (.bar .exit .gang) = true := by
  decide +kernel

theorem test_decode_gcap :
    reads (0#1 ++ 0#3 ++ 0#3 ++ 0#14 ++ 0x80#8 ++ 0#6 ++ 0#6 ++ 0#6 ++ 1#1 ++ 7#16) (.capb .next 7) = true ∧
    reads (0#1 ++ 0#3 ++ 0#3 ++ 0#14 ++ 0x80#8 ++ 0#6 ++ 0#6 ++ 0#6 ++ 1#1 ++ 263#16) (.capbDry .next 7) = true ∧
    reads (0#1 ++ 0#3 ++ 0#3 ++ 0#14 ++ 0x81#8 ++ 3#6 ++ 0#6 ++ 0#6 ++ 0#1 ++ 0#16) (.cape .next 3) = true ∧
    reads (0#1 ++ 0#3 ++ 0#3 ++ 0#14 ++ 0x82#8 ++ 0#6 ++ 0#6 ++ 0#6 ++ 1#1 ++ 7#16) (.capx .next (.imm 7)) = true ∧
    reads (0#1 ++ 0#3 ++ 0#3 ++ 0#14 ++ 0x82#8 ++ 0#6 ++ 9#6 ++ 0#6 ++ 0#1 ++ 0#16) (.capx .next (.reg 9)) = true ∧
    reads (0#1 ++ 5#3 ++ 0#3 ++ 0#14 ++ 0x83#8 ++ 0#6 ++ 0#6 ++ 0#6 ++ 1#1 ++ 7#16) (.rply .ret (.imm 7)) = true ∧
    reads (0#1 ++ 0#3 ++ 0#3 ++ 0#14 ++ 0x84#8 ++ 15#6 ++ 9#6 ++ 0#6 ++ 0#1 ++ 0#16) (.hset .next 15 (.reg 9)) = true ∧
    reads (0#1 ++ 0#3 ++ 0#3 ++ 0#14 ++ 0x84#8 ++ 2#6 ++ 0#6 ++ 0#6 ++ 1#1 ++ 77#16) (.hset .next 2 (.imm 77)) = true ∧
    reads (0#1 ++ 0#3 ++ 0#3 ++ 0#14 ++ 0x85#8 ++ 3#6 ++ 0#6 ++ 0#6 ++ 0#1 ++ 0#16) (.gvq .next 3) = true ∧
    reads (0#1 ++ 0#3 ++ 0#3 ++ 0#14 ++ 0x86#8 ++ 0#6 ++ 9#6 ++ 0#6 ++ 1#1 ++ 200#16) (.cdef .next false 200 9) = true ∧
    reads (0#1 ++ 0#3 ++ 0#3 ++ 0#14 ++ 0x86#8 ++ 0#6 ++ 9#6 ++ 1#6 ++ 1#1 ++ 200#16) (.cdef .next true 200 9) = true ∧
    reads (0#1 ++ 0#3 ++ 0#3 ++ 0#14 ++ 0x87#8 ++ 3#6 ++ 0#6 ++ 0#6 ++ 1#1 ++ 15#16) (.qrsv .next 3 15) = true ∧
    reads (0#1 ++ 0#3 ++ 0#3 ++ 0#14 ++ 0x88#8 ++ 0#6 ++ 3#6 ++ 0#6 ++ 1#1 ++ 15#16) (.qcmt .next 3 15) = true ∧
    reads (0#1 ++ 0#3 ++ 0#3 ++ 0#14 ++ 0x89#8 ++ 3#6 ++ 0#6 ++ 0#6 ++ 1#1 ++ 15#16) (.qpop .next 3 15) = true := by
  decide +kernel

theorem test_decode_gtail :
    reads (0#1 ++ 0#3 ++ 0#3 ++ 0#14 ++ 0x8A#8 ++ 0#6 ++ 9#6 ++ 6#6 ++ 0#1 ++ 0#16) (.twait .next .ab true 9) = true ∧
    reads (0#1 ++ 0#3 ++ 0#3 ++ 0#14 ++ 0x8A#8 ++ 0#6 ++ 9#6 ++ 3#6 ++ 0#1 ++ 0#16) (.twait .next .cb false 9) = true ∧
    reads (0#1 ++ 0#3 ++ 0#3 ++ 0#14 ++ 0x8B#8 ++ 0#6 ++ 9#6 ++ 7#6 ++ 0#1 ++ 0#16) (.tset .next .cb true 9) = true ∧
    reads (0#1 ++ 0#3 ++ 0#3 ++ 0#14 ++ 0x8C#8 ++ 5#6 ++ 9#6 ++ 0#6 ++ 0#1 ++ 0#16) (.sopen .next 5 9) = true ∧
    reads (0#1 ++ 0#3 ++ 0#3 ++ 0#14 ++ 0x8D#8 ++ 5#6 ++ 6#6 ++ 0#6 ++ 0#1 ++ 0#16) (.seof .next 5 6) = true ∧
    reads (0#1 ++ 0#3 ++ 0#3 ++ 0#14 ++ 0x8E#8 ++ 5#6 ++ 0#6 ++ 0#6 ++ 0#1 ++ 0#16) (.scls .next 5) = true ∧
    reads (0#1 ++ 0#3 ++ 0#3 ++ 0#14 ++ 0x8F#8 ++ 5#6 ++ 6#6 ++ 0#6 ++ 0#1 ++ 0#16) (.npoll .next 5 6) = true := by
  decide +kernel

theorem test_decode_lane_arith :
    reads (1#1 ++ 0x00#7 ++ 15#4 ++ 0#1 ++ 5#3 ++ 5#8 ++ 6#8 ++ 7#8 ++ 0#8 ++ 0#3 ++ 0#3 ++ 0#4 ++ 0#2 ++ 1#4) (.vadd ⟨15, false, .i16, 5, 6, 7, 0, .none, .none, 0, .rne, 1⟩) = true ∧
    reads (1#1 ++ 0x01#7 ++ 1#4 ++ 1#1 ++ 0#3 ++ 5#8 ++ 6#8 ++ 7#8 ++ 0#8 ++ 0#3 ++ 0#3 ++ 0#4 ++ 3#2 ++ 0#4) (.vsub ⟨1, true, .f32, 5, 6, 7, 0, .none, .none, 0, .rd, 0⟩) = true ∧
    reads (1#1 ++ 0x02#7 ++ 15#4 ++ 0#1 ++ 3#3 ++ 5#8 ++ 6#8 ++ 7#8 ++ 0#8 ++ 5#3 ++ 6#3 ++ 0#4 ++ 0#2 ++ 0#4) (.vmul ⟨15, false, .i32, 5, 6, 7, 0, .rows, .ck1, 0, .rne, 0⟩) = true ∧
    reads (1#1 ++ 0x03#7 ++ 15#4 ++ 0#1 ++ 1#3 ++ 5#8 ++ 6#8 ++ 7#8 ++ 8#8 ++ 7#3 ++ 0#3 ++ 0#4 ++ 2#2 ++ 0#4) (.vfma ⟨15, false, .f16, 5, 6, 7, 8, .ck2, .none, 0, .ru, 0⟩) = true ∧
    reads (1#1 ++ 0x04#7 ++ 15#4 ++ 0#1 ++ 7#3 ++ 5#8 ++ 6#8 ++ 7#8 ++ 0#8 ++ 0#3 ++ 0#3 ++ 0#4 ++ 0#2 ++ 0#4) (.vmin ⟨15, false, .n8, 5, 6, 7, 0, .none, .none, 0, .rne, 0⟩) = true ∧
    reads (1#1 ++ 0x05#7 ++ 15#4 ++ 0#1 ++ 2#3 ++ 5#8 ++ 6#8 ++ 7#8 ++ 0#8 ++ 0#3 ++ 1#3 ++ 0#4 ++ 0#2 ++ 0#4) (.vmax ⟨15, false, .bf16, 5, 6, 7, 0, .none, .k1, 0, .rne, 0⟩) = true ∧
    reads (1#1 ++ 0x06#7 ++ 15#4 ++ 0#1 ++ 6#3 ++ 5#8 ++ 6#8 ++ 0#8 ++ 0#8 ++ 0#3 ++ 0#3 ++ 0#4 ++ 0#2 ++ 0#4) (.vabs ⟨15, false, .i8, 5, 6, 0, 0, .none, .none, 0, .rne, 0⟩) = true ∧
    reads (1#1 ++ 0x07#7 ++ 15#4 ++ 0#1 ++ 0#3 ++ 5#8 ++ 6#8 ++ 0#8 ++ 0#8 ++ 2#3 ++ 0#3 ++ 0#4 ++ 0#2 ++ 0#4) (.vneg ⟨15, false, .f32, 5, 6, 0, 0, .k2, .none, 0, .rne, 0⟩) = true ∧
    reads (1#1 ++ 0x08#7 ++ 15#4 ++ 0#1 ++ 4#3 ++ 5#8 ++ 6#8 ++ 7#8 ++ 0#8 ++ 0#3 ++ 0#3 ++ 0#4 ++ 0#2 ++ 0#4) (.vand ⟨15, false, .n32, 5, 6, 7, 0, .none, .none, 0, .rne, 0⟩) = true ∧
    reads (1#1 ++ 0x09#7 ++ 15#4 ++ 0#1 ++ 3#3 ++ 5#8 ++ 6#8 ++ 7#8 ++ 0#8 ++ 0#3 ++ 0#3 ++ 0#4 ++ 0#2 ++ 0#4) (.vor ⟨15, false, .i32, 5, 6, 7, 0, .none, .none, 0, .rne, 0⟩) = true ∧
    reads (1#1 ++ 0x0A#7 ++ 15#4 ++ 0#1 ++ 3#3 ++ 5#8 ++ 6#8 ++ 255#8 ++ 0#8 ++ 0#3 ++ 0#3 ++ 0#4 ++ 0#2 ++ 0#4) (.vxor ⟨15, false, .i32, 5, 6, 255, 0, .none, .none, 0, .rne, 0⟩) = true ∧
    reads (1#1 ++ 0x0B#7 ++ 15#4 ++ 0#1 ++ 5#3 ++ 5#8 ++ 6#8 ++ 7#8 ++ 0#8 ++ 0#3 ++ 0#3 ++ 0#4 ++ 0#2 ++ 0#4) (.vshl ⟨15, false, .i16, 5, 6, 7, 0, .none, .none, 0, .rne, 0⟩) = true ∧
    reads (1#1 ++ 0x0C#7 ++ 15#4 ++ 0#1 ++ 6#3 ++ 5#8 ++ 6#8 ++ 7#8 ++ 0#8 ++ 0#3 ++ 0#3 ++ 0#4 ++ 0#2 ++ 0#4) (.vshr ⟨15, false, .i8, 5, 6, 7, 0, .none, .none, 0, .rne, 0⟩) = true ∧
    reads (1#1 ++ 0x0D#7 ++ 15#4 ++ 0#1 ++ 3#3 ++ 5#8 ++ 6#8 ++ 7#8 ++ 0#8 ++ 0#3 ++ 0#3 ++ 0#4 ++ 0#2 ++ 0#4) (.vsra ⟨15, false, .i32, 5, 6, 7, 0, .none, .none, 0, .rne, 0⟩) = true := by
  decide +kernel

theorem test_decode_lane_unary :
    reads (1#1 ++ 0x0E#7 ++ 15#4 ++ 0#1 ++ 0#3 ++ 5#8 ++ 6#8 ++ 7#8 ++ 3#8 ++ 0#3 ++ 0#3 ++ 0#4 ++ 0#2 ++ 0#4) (.vsel ⟨15, false, .f32, 5, 6, 7, 3, .none, .none, 0, .rne, 0⟩) = true ∧
    reads (1#1 ++ 0x0F#7 ++ 15#4 ++ 0#1 ++ 0#3 ++ 5#8 ++ 6#8 ++ 0#8 ++ 0#8 ++ 4#3 ++ 0#3 ++ 0#4 ++ 0#2 ++ 0#4) (.vmov ⟨15, false, .f32, 5, 6, 0, 0, .k4, .none, 0, .rne, 0⟩) = true ∧
    reads (1#1 ++ 0x10#7 ++ 15#4 ++ 0#1 ++ 1#3 ++ 5#8 ++ 6#8 ++ 0#8 ++ 0#8 ++ 0#3 ++ 0#3 ++ 0#4 ++ 1#2 ++ 0#4) (.vcvt ⟨15, false, .f16, 5, 6, 0, 0, .none, .none, 0, .rz, 0⟩) = true ∧
    reads (1#1 ++ 0x10#7 ++ 15#4 ++ 0#1 ++ 3#3 ++ 5#8 ++ 6#8 ++ 0#8 ++ 1#8 ++ 0#3 ++ 0#3 ++ 0#4 ++ 0#2 ++ 6#4) (.vcvt ⟨15, false, .i32, 5, 6, 0, 1, .none, .none, 0, .rne, 6⟩) = true ∧
    reads (1#1 ++ 0x10#7 ++ 15#4 ++ 0#1 ++ 0#3 ++ 5#8 ++ 6#8 ++ 7#8 ++ 128#8 ++ 0#3 ++ 0#3 ++ 0#4 ++ 0#2 ++ 1#4) (.vcvtAcc ⟨15, false, .f32, 5, 6, 7, 128, .none, .none, 0, .rne, 1⟩) = true ∧
    reads (1#1 ++ 0x11#7 ++ 15#4 ++ 0#1 ++ 0#3 ++ 3#8 ++ 6#8 ++ 7#8 ++ 0#8 ++ 0#3 ++ 0#3 ++ 0#4 ++ 0#2 ++ 6#4) (.vcmp ⟨15, false, .f32, 3, 6, 7, 0, .none, .none, 0, .rne, 6⟩) = true ∧
    reads (1#1 ++ 0x12#7 ++ 15#4 ++ 0#1 ++ 7#3 ++ 5#8 ++ 6#8 ++ 0#8 ++ 0#8 ++ 0#3 ++ 0#3 ++ 0#4 ++ 0#2 ++ 0#4) (.vclz ⟨15, false, .n8, 5, 6, 0, 0, .none, .none, 0, .rne, 0⟩) = true ∧
    reads (1#1 ++ 0x13#7 ++ 15#4 ++ 0#1 ++ 5#3 ++ 5#8 ++ 6#8 ++ 0#8 ++ 0#8 ++ 0#3 ++ 0#3 ++ 0#4 ++ 0#2 ++ 0#4) (.vpopc ⟨15, false, .i16, 5, 6, 0, 0, .none, .none, 0, .rne, 0⟩) = true ∧
    reads (1#1 ++ 0x14#7 ++ 15#4 ++ 0#1 ++ 6#3 ++ 5#8 ++ 6#8 ++ 7#8 ++ 8#8 ++ 0#3 ++ 0#3 ++ 0#4 ++ 0#2 ++ 1#4) (.vdot4 ⟨15, false, .i8, 5, 6, 7, 8, .none, .none, 0, .rne, 1⟩) = true ∧
    reads (1#1 ++ 0x18#7 ++ 15#4 ++ 0#1 ++ 0#3 ++ 5#8 ++ 6#8 ++ 0#8 ++ 0#8 ++ 0#3 ++ 0#3 ++ 15#4 ++ 1#2 ++ 0#4) (.vrcp ⟨15, false, .f32, 5, 6, 0, 0, .none, .none, 15, .rz, 0⟩) = true ∧
    reads (1#1 ++ 0x19#7 ++ 15#4 ++ 0#1 ++ 1#3 ++ 5#8 ++ 6#8 ++ 0#8 ++ 0#8 ++ 0#3 ++ 0#3 ++ 1#4 ++ 0#2 ++ 0#4) (.vrsq ⟨15, false, .f16, 5, 6, 0, 0, .none, .none, 1, .rne, 0⟩) = true ∧
    reads (1#1 ++ 0x1A#7 ++ 15#4 ++ 0#1 ++ 2#3 ++ 5#8 ++ 6#8 ++ 0#8 ++ 0#8 ++ 0#3 ++ 0#3 ++ 0#4 ++ 0#2 ++ 0#4) (.vsqrt ⟨15, false, .bf16, 5, 6, 0, 0, .none, .none, 0, .rne, 0⟩) = true ∧
    reads (1#1 ++ 0x1B#7 ++ 15#4 ++ 0#1 ++ 0#3 ++ 5#8 ++ 6#8 ++ 0#8 ++ 0#8 ++ 0#3 ++ 0#3 ++ 0#4 ++ 0#2 ++ 0#4) (.vexp2 ⟨15, false, .f32, 5, 6, 0, 0, .none, .none, 0, .rne, 0⟩) = true ∧
    reads (1#1 ++ 0x1C#7 ++ 15#4 ++ 0#1 ++ 0#3 ++ 5#8 ++ 6#8 ++ 0#8 ++ 0#8 ++ 0#3 ++ 0#3 ++ 0#4 ++ 0#2 ++ 0#4) (.vlog2 ⟨15, false, .f32, 5, 6, 0, 0, .none, .none, 0, .rne, 0⟩) = true ∧
    reads (1#1 ++ 0x1D#7 ++ 15#4 ++ 0#1 ++ 0#3 ++ 5#8 ++ 6#8 ++ 0#8 ++ 0#8 ++ 0#3 ++ 0#3 ++ 0#4 ++ 0#2 ++ 0#4) (.vsin ⟨15, false, .f32, 5, 6, 0, 0, .none, .none, 0, .rne, 0⟩) = true ∧
    reads (1#1 ++ 0x1E#7 ++ 15#4 ++ 0#1 ++ 0#3 ++ 5#8 ++ 6#8 ++ 0#8 ++ 0#8 ++ 0#3 ++ 0#3 ++ 0#4 ++ 0#2 ++ 0#4) (.vcos ⟨15, false, .f32, 5, 6, 0, 0, .none, .none, 0, .rne, 0⟩) = true ∧
    reads (1#1 ++ 0x1F#7 ++ 15#4 ++ 0#1 ++ 0#3 ++ 5#8 ++ 6#8 ++ 0#8 ++ 0#8 ++ 0#3 ++ 0#3 ++ 0#4 ++ 0#2 ++ 0#4) (.vtanh ⟨15, false, .f32, 5, 6, 0, 0, .none, .none, 0, .rne, 0⟩) = true ∧
    reads (1#1 ++ 0x30#7 ++ 15#4 ++ 0#1 ++ 3#3 ++ 5#8 ++ 0#8 ++ 0#8 ++ 0#8 ++ 0#3 ++ 0#3 ++ 0#4 ++ 0#2 ++ 0#4) (.viota ⟨15, false, .i32, 5, 0, 0, 0, .none, .none, 0, .rne, 0⟩) = true := by
  decide +kernel

theorem test_decode_lane_mem :
    reads (1#1 ++ 0x40#7 ++ 15#4 ++ 0#1 ++ 0#3 ++ 5#8 ++ 6#8 ++ 0#8 ++ 255#8 ++ 0#3 ++ 0#3 ++ 3#4 ++ 0#2 ++ 1#4) (.vld ⟨15, false, .f32, 5, 6, 0, 255, .none, .none, 3, .rne, 1⟩) = true ∧
    reads (1#1 ++ 0x41#7 ++ 15#4 ++ 0#1 ++ 0#3 ++ 0#8 ++ 6#8 ++ 7#8 ++ 4#8 ++ 0#3 ++ 0#3 ++ 0#4 ++ 0#2 ++ 3#4) (.vst ⟨15, false, .f32, 0, 6, 7, 4, .none, .none, 0, .rne, 3⟩) = true ∧
    reads (1#1 ++ 0x42#7 ++ 15#4 ++ 0#1 ++ 7#3 ++ 5#8 ++ 6#8 ++ 0#8 ++ 4#8 ++ 0#3 ++ 0#3 ++ 0#4 ++ 0#2 ++ 1#4) (.vldg ⟨15, false, .n8, 5, 6, 0, 4, .none, .none, 0, .rne, 1⟩) = true ∧
    reads (1#1 ++ 0x43#7 ++ 15#4 ++ 0#1 ++ 0#3 ++ 0#8 ++ 6#8 ++ 7#8 ++ 4#8 ++ 0#3 ++ 0#3 ++ 0#4 ++ 0#2 ++ 0#4) (.vstg ⟨15, false, .f32, 0, 6, 7, 4, .none, .none, 0, .rne, 0⟩) = true ∧
    reads (1#1 ++ 0x44#7 ++ 15#4 ++ 0#1 ++ 3#3 ++ 5#8 ++ 6#8 ++ 7#8 ++ 8#8 ++ 0#3 ++ 0#3 ++ 0#4 ++ 0#2 ++ 7#4) (.vamo ⟨15, false, .i32, 5, 6, 7, 8, .none, .none, 0, .rne, 7⟩) = true ∧
    reads (1#1 ++ 0x44#7 ++ 15#4 ++ 0#1 ++ 0#3 ++ 5#8 ++ 6#8 ++ 7#8 ++ 0#8 ++ 0#3 ++ 0#3 ++ 0#4 ++ 1#2 ++ 0#4) (.vamo ⟨15, false, .f32, 5, 6, 7, 0, .none, .none, 0, .rz, 0⟩) = true ∧
    reads (1#1 ++ 0x45#7 ++ 15#4 ++ 0#1 ++ 4#3 ++ 5#8 ++ 7#8 ++ 0#8 ++ 0#8 ++ 0#3 ++ 0#3 ++ 0#4 ++ 0#2 ++ 0#4) (.sadv ⟨15, false, .n32, 5, 7, 0, 0, .none, .none, 0, .rne, 0⟩) = true ∧
    reads (1#1 ++ 0x50#7 ++ 15#4 ++ 0#1 ++ 0#3 ++ 5#8 ++ 6#8 ++ 0#8 ++ 127#8 ++ 0#3 ++ 0#3 ++ 0#4 ++ 0#2 ++ 1#4) (.vshf ⟨15, false, .f32, 5, 6, 0, 127, .none, .none, 0, .rne, 1⟩) = true ∧
    reads (1#1 ++ 0x51#7 ++ 15#4 ++ 0#1 ++ 0#3 ++ 5#8 ++ 6#8 ++ 7#8 ++ 0#8 ++ 0#3 ++ 0#3 ++ 0#4 ++ 0#2 ++ 0#4) (.vperm ⟨15, false, .f32, 5, 6, 7, 0, .none, .none, 0, .rne, 0⟩) = true ∧
    reads (1#1 ++ 0x52#7 ++ 15#4 ++ 0#1 ++ 4#3 ++ 5#8 ++ 6#8 ++ 0#8 ++ 0#8 ++ 0#3 ++ 0#3 ++ 0#4 ++ 0#2 ++ 5#4) (.vred ⟨15, false, .n32, 5, 6, 0, 0, .none, .none, 0, .rne, 5⟩) = true ∧
    reads (1#1 ++ 0x53#7 ++ 15#4 ++ 0#1 ++ 0#3 ++ 5#8 ++ 6#8 ++ 0#8 ++ 0#8 ++ 0#3 ++ 0#3 ++ 0#4 ++ 1#2 ++ 0#4) (.vscan ⟨15, false, .f32, 5, 6, 0, 0, .none, .none, 0, .rz, 0⟩) = true ∧
    reads (1#1 ++ 0x54#7 ++ 15#4 ++ 0#1 ++ 6#3 ++ 8#8 ++ 16#8 ++ 0#8 ++ 0#8 ++ 0#3 ++ 0#3 ++ 0#4 ++ 0#2 ++ 0#4) (.vtrn ⟨15, false, .i8, 8, 16, 0, 0, .none, .none, 0, .rne, 0⟩) = true ∧
    reads (1#1 ++ 0x55#7 ++ 15#4 ++ 0#1 ++ 3#3 ++ 5#8 ++ 20#8 ++ 10#8 ++ 128#8 ++ 0#3 ++ 0#3 ++ 0#4 ++ 0#2 ++ 15#4) (.vtopk ⟨15, false, .i32, 5, 20, 10, 128, .none, .none, 0, .rne, 15⟩) = true ∧
    reads (1#1 ++ 0x56#7 ++ 15#4 ++ 0#1 ++ 6#3 ++ 6#8 ++ 9#8 ++ 0#8 ++ 0#8 ++ 0#3 ++ 0#3 ++ 0#4 ++ 0#2 ++ 0#4) (.vcmps ⟨15, false, .i8, 6, 9, 0, 0, .none, .none, 0, .rne, 0⟩) = true ∧
    reads (1#1 ++ 0x57#7 ++ 15#4 ++ 0#1 ++ 2#3 ++ 5#8 ++ 6#8 ++ 7#8 ++ 0#8 ++ 0#3 ++ 0#3 ++ 0#4 ++ 0#2 ++ 0#4) (.vprune ⟨15, false, .bf16, 5, 6, 7, 0, .none, .none, 0, .rne, 0⟩) = true ∧
    reads (1#1 ++ 0x60#7 ++ 1#4 ++ 0#1 ++ 0#3 ++ 4#8 ++ 4#8 ++ 0#8 ++ 0#8 ++ 0#3 ++ 0#3 ++ 0#4 ++ 0#2 ++ 4#4) (.plog ⟨1, false, .f32, 4, 4, 0, 0, .none, .none, 0, .rne, 4⟩) = true ∧
    reads (1#1 ++ 0x61#7 ++ 15#4 ++ 0#1 ++ 0#3 ++ 0#8 ++ 14#8 ++ 0#8 ++ 0#8 ++ 0#3 ++ 0#3 ++ 0#4 ++ 0#2 ++ 2#4) (.vote ⟨15, false, .f32, 0, 14, 0, 0, .none, .none, 0, .rne, 2⟩) = true ∧
    reads (1#1 ++ 0x62#7 ++ 3#4 ++ 0#1 ++ 0#3 ++ 0#8 ++ 0#8 ++ 0#8 ++ 0#8 ++ 0#3 ++ 0#3 ++ 0#4 ++ 0#2 ++ 0#4) (.vexit ⟨3, false, .f32, 0, 0, 0, 0, .none, .none, 0, .rne, 0⟩) = true := by
  decide +kernel

theorem test_decode_lane_imm :
    reads (1#1 ++ 0x20#7 ++ 15#4 ++ 0#1 ++ 0#3 ++ 63#6 ++ 62#6 ++ 0#4 ++ 0x3F800000#32) (.vaddImm ⟨15, false, .f32, 63, 62, .imm 0x3F800000⟩) = true ∧
    reads (1#1 ++ 0x21#7 ++ 15#4 ++ 0#1 ++ 0#3 ++ 63#6 ++ 62#6 ++ 1#4 ++ 63#32) (.vsubImm ⟨15, false, .f32, 63, 62, .glo 63⟩) = true ∧
    reads (1#1 ++ 0x22#7 ++ 15#4 ++ 0#1 ++ 0#3 ++ 63#6 ++ 62#6 ++ 3#4 ++ 5#32) (.vmulImm ⟨15, false, .f32, 63, 62, .ghi 5⟩) = true ∧
    reads (1#1 ++ 0x23#7 ++ 15#4 ++ 0#1 ++ 0#3 ++ 63#6 ++ 62#6 ++ 2#4 ++ 15#32) (.vfmaImm ⟨15, false, .f32, 63, 62, .hole 15⟩) = true ∧
    reads (1#1 ++ 0x24#7 ++ 15#4 ++ 0#1 ++ 0#3 ++ 63#6 ++ 62#6 ++ 0#4 ++ 0x3F800000#32) (.vminImm ⟨15, false, .f32, 63, 62, .imm 0x3F800000⟩) = true ∧
    reads (1#1 ++ 0x25#7 ++ 15#4 ++ 0#1 ++ 3#3 ++ 63#6 ++ 62#6 ++ 1#4 ++ 63#32) (.vmaxImm ⟨15, false, .i32, 63, 62, .glo 63⟩) = true ∧
    reads (1#1 ++ 0x28#7 ++ 15#4 ++ 0#1 ++ 3#3 ++ 63#6 ++ 62#6 ++ 3#4 ++ 5#32) (.vandImm ⟨15, false, .i32, 63, 62, .ghi 5⟩) = true ∧
    reads (1#1 ++ 0x29#7 ++ 15#4 ++ 0#1 ++ 3#3 ++ 63#6 ++ 62#6 ++ 2#4 ++ 15#32) (.vorImm ⟨15, false, .i32, 63, 62, .hole 15⟩) = true ∧
    reads (1#1 ++ 0x2A#7 ++ 15#4 ++ 0#1 ++ 3#3 ++ 63#6 ++ 62#6 ++ 0#4 ++ 0x3F800000#32) (.vxorImm ⟨15, false, .i32, 63, 62, .imm 0x3F800000⟩) = true ∧
    reads (1#1 ++ 0x2B#7 ++ 15#4 ++ 0#1 ++ 3#3 ++ 63#6 ++ 62#6 ++ 1#4 ++ 63#32) (.vshlImm ⟨15, false, .i32, 63, 62, .glo 63⟩) = true ∧
    reads (1#1 ++ 0x2C#7 ++ 15#4 ++ 0#1 ++ 3#3 ++ 63#6 ++ 62#6 ++ 3#4 ++ 5#32) (.vshrImm ⟨15, false, .i32, 63, 62, .ghi 5⟩) = true ∧
    reads (1#1 ++ 0x2D#7 ++ 15#4 ++ 0#1 ++ 3#3 ++ 63#6 ++ 62#6 ++ 2#4 ++ 15#32) (.vsraImm ⟨15, false, .i32, 63, 62, .hole 15⟩) = true ∧
    reads (1#1 ++ 0x2F#7 ++ 15#4 ++ 0#1 ++ 3#3 ++ 63#6 ++ 0#6 ++ 0#4 ++ 0x3F800000#32) (.vli ⟨15, false, .i32, 63, 0, .imm 0x3F800000⟩) = true := by
  decide +kernel

theorem test_decode_engine0 :
    reads5 (1#1 ++ 0x70#7 ++ 15#4 ++ 14#4 ++ 48879#16 ++ 0x00000001#32) (0#2 ++ 0x100#62) (1#2 ++ 7#62) (2#2 ++ 15#62)
      (0#2 ++ 0#62) (.cpy ⟨14, 0xBEEF, 0x00000001, .lit 0x100, .g 7, .hole 15, .lit 0⟩) = true ∧
    reads5 (1#1 ++ 0x71#7 ++ 15#4 ++ 1#4 ++ 48879#16 ++ 0x07FF3F01#32) (0#2 ++ 0x100#62) (1#2 ++ 7#62) (2#2 ++ 15#62)
      (0#2 ++ 0#62) (.fgat ⟨1, 0xBEEF, 0x07FF3F01, .lit 0x100, .g 7, .hole 15, .lit 0⟩) = true ∧
    reads5 (1#1 ++ 0x72#7 ++ 15#4 ++ 0#4 ++ 48879#16 ++ 0x0000003F#32) (0#2 ++ 0x100#62) (0#2 ++ 0#62) (0#2 ++ 0#62)
      (0#2 ++ 0#62) (.fhdl ⟨0, 0xBEEF, 0x0000003F, .lit 0x100, .lit 0, .lit 0, .lit 0⟩) = true ∧
    reads5 (1#1 ++ 0x73#7 ++ 15#4 ++ 5#4 ++ 48879#16 ++ 0x00000001#32) (0#2 ++ 0x100#62) (0#2 ++ 0#62) (0#2 ++ 0#62)
      (0#2 ++ 0#62) (.mldw ⟨5, 0xBEEF, 0x00000001, .lit 0x100, .lit 0, .lit 0, .lit 0⟩) = true ∧
    reads5 (1#1 ++ 0x74#7 ++ 15#4 ++ 0#4 ++ 48879#16 ++ 0x00000000#32) (0#2 ++ 0#62) (0#2 ++ 0#62) (0#2 ++ 0#62)
      (0#2 ++ 0#62) (.mswp ⟨0, 0xBEEF, 0x00000000, .lit 0, .lit 0, .lit 0, .lit 0⟩) = true ∧
    reads5 (1#1 ++ 0x75#7 ++ 15#4 ++ 0#4 ++ 48879#16 ++ 0x00000003#32) (0#2 ++ 0x100#62) (1#2 ++ 7#62) (2#2 ++ 15#62)
      (0#2 ++ 0x3FFFFFFFFFFFFFFF#62) (.mma ⟨0, 0xBEEF, 0x00000003, .lit 0x100, .g 7, .hole 15, .lit 0xFFFFFFFFFFFFFFFF⟩) = true ∧
    reads5 (1#1 ++ 0x76#7 ++ 15#4 ++ 3#4 ++ 48879#16 ++ 0x0000FF02#32) (0#2 ++ 0x100#62) (1#2 ++ 7#62) (2#2 ++ 15#62)
      (0#2 ++ 0x3FFFFFFFFFFFFFFF#62) (.mmas ⟨3, 0xBEEF, 0x0000FF02, .lit 0x100, .g 7, .hole 15, .lit 0xFFFFFFFFFFFFFFFF⟩) = true ∧
    reads5 (1#1 ++ 0x77#7 ++ 15#4 ++ 0#4 ++ 48879#16 ++ 0x00000000#32) (0#2 ++ 0#62) (0#2 ++ 0#62) (0#2 ++ 0#62)
      (0#2 ++ 0#62) (.mclr ⟨0, 0xBEEF, 0x00000000, .lit 0, .lit 0, .lit 0, .lit 0⟩) = true ∧
    reads5 (1#1 ++ 0x78#7 ++ 15#4 ++ 1#4 ++ 48879#16 ++ 0x00000000#32) (0#2 ++ 0x100#62) (0#2 ++ 0#62) (0#2 ++ 0#62)
      (0#2 ++ 0#62) (.mscl ⟨1, 0xBEEF, 0x00000000, .lit 0x100, .lit 0, .lit 0, .lit 0⟩) = true ∧
    reads5 (1#1 ++ 0x79#7 ++ 15#4 ++ 0#4 ++ 48879#16 ++ 0x00000000#32) (0#2 ++ 0#62) (0#2 ++ 0#62) (0#2 ++ 0#62)
      (0#2 ++ 0#62) (.mrdy ⟨0, 0xBEEF, 0x00000000, .lit 0, .lit 0, .lit 0, .lit 0⟩) = true ∧
    reads5 (1#1 ++ 0x7A#7 ++ 15#4 ++ 0#4 ++ 48879#16 ++ 0x00000001#32) (0#2 ++ 0x100#62) (0#2 ++ 0#62) (0#2 ++ 0#62)
      (0#2 ++ 0#62) (.mwait ⟨0, 0xBEEF, 0x00000001, .lit 0x100, .lit 0, .lit 0, .lit 0⟩) = true := by
  decide +kernel

theorem test_decode_engine1 :
    reads5 (1#1 ++ 0x7B#7 ++ 15#4 ++ 2#4 ++ 48879#16 ++ 0x00000000#32) (0#2 ++ 0#62) (0#2 ++ 0#62) (0#2 ++ 0#62)
      (0#2 ++ 0#62) (.cwait ⟨2, 0xBEEF, 0x00000000, .lit 0, .lit 0, .lit 0, .lit 0⟩) = true ∧
    reads5 (1#1 ++ 0x7C#7 ++ 15#4 ++ 0#4 ++ 48879#16 ++ 0x00000000#32) (0#2 ++ 0x100#62) (1#2 ++ 7#62) (2#2 ++ 15#62)
      (0#2 ++ 0x3FFFFFFFFFFFFFFF#62) (.nsubRead ⟨0, 0xBEEF, 0x00000000, .lit 0x100, .g 7, .hole 15, .lit 0xFFFFFFFFFFFFFFFF⟩) = true ∧
    reads5 (1#1 ++ 0x7C#7 ++ 15#4 ++ 1#4 ++ 48879#16 ++ 0x00000001#32) (0#2 ++ 0x100#62) (1#2 ++ 7#62) (2#2 ++ 15#62)
      (0#2 ++ 0x3FFFFFFFFFFFFFFF#62) (.nsubWrite ⟨1, 0xBEEF, 0x00000001, .lit 0x100, .g 7, .hole 15, .lit 0xFFFFFFFFFFFFFFFF⟩) = true ∧
    reads5 (1#1 ++ 0x7C#7 ++ 15#4 ++ 2#4 ++ 48879#16 ++ 0x00000000#32) (0#2 ++ 0x100#62) (0#2 ++ 0#62) (0#2 ++ 0#62)
      (0#2 ++ 0#62) (.nsubFlush ⟨2, 0xBEEF, 0x00000000, .lit 0x100, .lit 0, .lit 0, .lit 0⟩) = true ∧
    reads5 (1#1 ++ 0x7D#7 ++ 15#4 ++ 0#4 ++ 48879#16 ++ 0x0000003A#32) (0#2 ++ 0x100#62) (1#2 ++ 7#62) (0#2 ++ 0#62)
      (0#2 ++ 0#62) (.sisec ⟨0, 0xBEEF, 0x0000003A, .lit 0x100, .g 7, .lit 0, .lit 0⟩) = true ∧
    reads5 (1#1 ++ 0x7D#7 ++ 15#4 ++ 1#4 ++ 48879#16 ++ 0x0000000F#32) (0#2 ++ 0x100#62) (1#2 ++ 7#62) (0#2 ++ 0#62)
      (0#2 ++ 0#62) (.sunion ⟨1, 0xBEEF, 0x0000000F, .lit 0x100, .g 7, .lit 0, .lit 0⟩) = true ∧
    reads5 (1#1 ++ 0x7D#7 ++ 15#4 ++ 2#4 ++ 48879#16 ++ 0x00000001#32) (0#2 ++ 0x100#62) (1#2 ++ 7#62) (0#2 ++ 0#62)
      (0#2 ++ 0#62) (.sdiff ⟨2, 0xBEEF, 0x00000001, .lit 0x100, .g 7, .lit 0, .lit 0⟩) = true ∧
    reads5 (1#1 ++ 0x7D#7 ++ 15#4 ++ 3#4 ++ 48879#16 ++ 0x00000002#32) (0#2 ++ 0x100#62) (1#2 ++ 7#62) (0#2 ++ 0#62)
      (0#2 ++ 0#62) (.smadd ⟨3, 0xBEEF, 0x00000002, .lit 0x100, .g 7, .lit 0, .lit 0⟩) = true ∧
    reads5 (1#1 ++ 0x7E#7 ++ 15#4 ++ 0#4 ++ 48879#16 ++ 0x03FFFFFF#32) (0#2 ++ 0x100#62) (1#2 ++ 7#62) (2#2 ++ 15#62)
      (0#2 ++ 0x3FFFFFFFFFFFFFFF#62) (.sprd ⟨0, 0xBEEF, 0x03FFFFFF, .lit 0x100, .g 7, .hole 15, .lit 0xFFFFFFFFFFFFFFFF⟩) = true ∧
    reads5 (1#1 ++ 0x7F#7 ++ 15#4 ++ 0#4 ++ 48879#16 ++ 0x0FFFFFFF#32) (0#2 ++ 0x100#62) (1#2 ++ 7#62) (2#2 ++ 15#62)
      (0#2 ++ 0#62) (.schk ⟨0, 0xBEEF, 0x0FFFFFFF, .lit 0x100, .g 7, .hole 15, .lit 0⟩) = true := by
  decide +kernel
/-! ## Witnesses: steps -/

/-- EncodeDecodeAgree and StepKeepsCanonicalMemory: a well-formed instruction with slots; a step that stores (GST.b [g5 + 0x20], g5 by a
generator that reads its slot from memory). -/
theorem test_wit_roundtrip : (Instr.gadd .next 1 2 (.reg 3)).wellFormed = true ∧ encode (.gadd .next 1 2 (.reg 3)) ≠ [] := by decide +kernel

/-- A generator at a slot in memory, with a data page. -/
def running (w : Nat) (c : Ctx) : State :=
  { dev c with mem := Memory.writeN [] 0x10000 (slotBytes (BitVec.ofNat 64 w)), agenda := [.turn (.gen 0)] }
def withG (c : Ctx) (n : Nat) (v : DWord) : Ctx := { c with g := c.g.setIfInBounds n v }
/-- GSUB g4, g5, g6, of the manual's example. -/
def subWord' : Nat := 0x00000008828C0000
theorem test_step_runs_gsub : Memory.wf (running subWord' (withG base 5 7)).mem = true ∧
    next (step (running subWord' (withG base 5 7))) (fun t => ((t.ctxOf 0).map fun c => (c.greg 4, c.pc)) == some (7, 0x2001)) = true := by
  decide +kernel

/-- StepRunsDecodedInstruction, generator clause. -/
theorem test_wit_step_gen :
    let s := running subWord' base
    let s0 : State := { s with agenda := [] }
    s.agenda = .turn (.gen 0) :: [] ∧ s0.ctxOf 0 = some base ∧ base.genMoves = true ∧ base.gen = .running ∧ base.ir = none ∧
      (base.member 0).isSome = true ∧ gensBefore s0 base = [] ∧
      (fetchInstr (s0.inHand 0 0 0 none) base 0 base.pc).toOption = some (slotBytes 0x00000008828C0000) ∧
      reads 0x00000008828C0000 (.gsub .next 4 5 (.reg 6)) = true := by
  refine ⟨rfl, rfl, rfl, rfl, rfl, by decide +kernel, rfl, by decide +kernel, by decide +kernel⟩

/-- The first entry of the stream, and a hand that holds one. -/
def entryOf (c : Ctx) : Entry := c.stream.headD { seq := 0, esn := 0, item := .marker .fenceX }
def handOf (e : Entry) : Hand := { ctx := 0, member := 0, row := 0, entry := some e }
def vmovF : LForm := ⟨15, false, .f32, 3, 4, 0, 0, .none, .none, 0, .rne, 0⟩
def emitted (c : Ctx) (i : Instr) : Ctx := (emitSlot c i).getD c

/-- StepRunsDecodedInstruction, row clauses: a row at the slot that it takes next, whole, by a lane and late; one with a noted fault. -/
def lateTrap : Trap := { cause := .align, dom := .l, pc := 0x2000 }
def lateRows (c : Ctx) : Ctx := { c with rows := c.rows.map fun r => { r with late := some (0, lateTrap, 5) } }
theorem test_wit_step_row :
    let c := emitted base (.vmov vmovF)
    rowTurnOf 0 0 (.row 0 0) none false ∧ rowTurnOf 0 0 (.rowPart 0 0 63) (some 63) false ∧ rowTurnOf 0 0 (.rowLate 0 0) none true ∧
    (∃ r, c.rowOf 0 = some r ∧ r.late = none ∧ rowEntry c r = some (entryOf c) ∧ (entryOf c).item = .slot (.vmov vmovF) ∧
      (Instr.vmov vmovF).lform.isSome = true ∧ rowsBefore (dev c) c r = []) ∧
    ∃ r x, (lateRows c).rowOf 0 = some r ∧ r.late = some (0, lateTrap, x) := by
  exact ⟨.inl ⟨rfl, rfl, rfl⟩, .inr (.inl ⟨_, rfl, rfl, rfl⟩), .inr (.inr ⟨rfl, rfl, rfl⟩),
    ⟨_, rfl, rfl, by rfl, rfl, rfl, by decide +kernel⟩, ⟨_, _, rfl, rfl⟩⟩

/-- An engine command handed over and not started on member 0, as `dev` sees it. -/
def engCtx (i : Instr) (g : Engine) : Ctx :=
  let c := emitted base i
  match c.member 0 with
  | some mb =>
    let cmd : Cmd := { e := entryOf c, copied := (copiedRegs State.reset c 0 i).1, held := false, st := .queued }
    c.putMember 0 ({ mb with handed := (entryOf c).seq + 1 }.setQueue g [cmd])
  | none => c
def engDev (i : Instr) (g : Engine) : State := { dev (engCtx i g) with hand := handOf (entryOf (emitted base i)) }
def cpyF : EForm := { fn := 2, tag := 7, head := 1, p0 := .lit 0x100, p1 := .lit 0x20080, p2 := .lit 16, p3 := .lit 0 }
theorem test_wit_step_engine :
    ∃ mb x, (engCtx (.cpy cpyF) .copy).member 0 = some mb ∧ turnCmds mb .copy false = [] ++ x :: [] ∧ x.e.item = .slot (.cpy cpyF) ∧
      (turnCmds mb .copy true).find? (fun y => y.e.seq == x.e.seq) = some x ∧
      idle (exec (.cpy cpyF) (((dev (engCtx (.cpy cpyF) .copy)).inHand 0 0 0 (some x.e)).inPart none false)) = false := by
  exact ⟨_, _, rfl, rfl, rfl, rfl, by decide +kernel⟩

def cwaitF : EForm := { fn := 0, tag := 0xFFFF, head := 0, p0 := .lit 0, p1 := .lit 0, p2 := .lit 0, p3 := .lit 0 }
/-- A member that the wait `i` holds. -/
def heldCtx (i : Instr) : Ctx :=
  let c := emitted base i
  match c.member 0 with
  | some mb => c.putMember 0 { mb with handed := (entryOf c).seq + 1, holds := [entryOf c] }
  | none => c
theorem test_wit_step_hold :
    ∃ mb h, (heldCtx (.cwait cwaitF)).member 0 = some mb ∧ mb.holds = [] ++ h :: [] ∧ h.item = .slot (.cwait cwaitF) ∧
      idle (exec (.cwait cwaitF) ((dev (heldCtx (.cwait cwaitF))).inHand 0 0 0 (some h))) = false := by
  exact ⟨_, _, rfl, rfl, rfl, by decide +kernel⟩
theorem test_wit_step_device : encode .reset = [] ∧ ∀ k m, Instr.reset ≠ .engineHandover k m := ⟨rfl, nofun⟩

/-- UnassignedSlotRaisesIllegal: opcode 0x14 of the G-domain. -/
theorem test_wit_unassigned :
    let s := running (0x14 * 2 ^ 35) base
    base.genMoves = true ∧ base.ir = none ∧ base.gen = .running ∧ CanTrap base ∧
      (fetchInstr s base 0 base.pc).toOption = some (slotBytes (0x14 * 2 ^ 35)) ∧
      refusal (slotBytes (0x14 * 2 ^ 35)) = some .illegal := by
  refine ⟨rfl, rfl, rfl, ⟨rfl, by decide +kernel⟩, by decide +kernel, by decide +kernel⟩

/-- A PC that no page maps. -/
def lost : Ctx := { base with pc := 0x100000 }
theorem test_wit_fetch_fault : lost.genMoves = true ∧ lost.ir = none ∧ lost.gen = .running ∧ CanTrap lost ∧
    (match fetchInstr (dev lost) lost 0 lost.pc with
      | .error (c, a) => c == .nomap && a == 0x800000
      | .ok _ => false) = true := by
  refine ⟨rfl, rfl, rfl, ⟨rfl, by decide +kernel⟩, by decide +kernel⟩

/-! ## Witnesses: generator instructions -/

/-- TwoSourceResults, OneSourceResults, SetterResults, RegisterWriterFrame, SetterFrame, NextPcAfterEffect. -/
theorem test_wit_gen_ready : GenReady (dev base) base ([1] ++ srcRegs (.reg 2)) ∧ GenReady (dev base) base [] ∧
    SeqOk base .next ∧ SeqOk base (.call 5) ∧ SeqOk { base with rstack := [7] } .ret ∧ Seq.next ≠ .exit ∧
    genWriter (.gadd .next 1 2 (.imm 3)) = some (.next, 1, [2]) ∧ genSetter (.gcmp .next .eq 7 2 (.imm 3)) = some (.next, [2]) := by
  refine ⟨⟨rfl, by decide⟩, ⟨rfl, by decide⟩, rfl, rfl, rfl, by decide, rfl, rfl⟩

/-- A poisoned register of another number leaves the instruction ready. -/
theorem test_wit_gen_ready_poison : ∀ r ∈ ([1, 2] : List GReg), { dev base with poison := [.greg 0 3] }.gPoisoned 0 r = false := by
  decide +kernel

def withStack (l : List DWord) : Ctx := { base with rstack := l }
/-- What a generator instruction leaves in a register of the context. -/
def gAfter (c : Ctx) (i : Instr) (d : GReg) : Option DWord :=
  match exec i (dev c) with
  | .next t => (t.ctxOf 0).map fun x => x.greg d
  | _ => none
/-- What it leaves as flags, PC and return stack. -/
def pcAfter (c : Ctx) (i : Instr) (f : BitVec 8) (pc : DWord) (stack : List DWord) : Bool :=
  next (exec i (dev c)) fun t => (t.ctxOf 0).any fun x => x.f == f && x.pc == pc && x.rstack == stack
/-- The cause code of the trap that it takes, with TADDR. -/
def trapAfter (s : State) (i : Instr) : Option (Nat × DWord) :=
  match exec i s with
  | .next t => (t.ctxOf 0).bind fun x => if x.handler then some (x.tcause.toNat % 256, x.taddr) else none
  | _ => none

/-- R362: wraps, the high product of −1 and −1, the corners of division, shift counts of six bits, a write to g0. -/
theorem test_gen_arith :
    gAfter (withG base 1 (BitVec.allOnes 64)) (.gadd .next 2 1 (.imm 2)) 2 = some 1 ∧
    gAfter base (.gsub .next 2 0 (.imm 1)) 2 = some (BitVec.allOnes 64) ∧
    gAfter (withG base 1 (BitVec.allOnes 64)) (.gmulh .next 2 1 (.reg 1)) 2 = some 0 ∧
    gAfter (withG base 1 (BitVec.allOnes 64)) (.gmul .next 2 1 (.imm 7)) 2 = some (-7) ∧
    gAfter (withG base 1 (-7)) (.gdiv .next 2 1 (.imm 2)) 2 = some (-3) ∧
    gAfter (withG base 1 (-7)) (.grem .next 2 1 (.imm 2)) 2 = some (-1) ∧
    gAfter (withG base 1 5) (.gdiv .next 2 1 (.reg 0)) 2 = some (BitVec.allOnes 64) ∧
    gAfter (withG base 1 0x8000000000000000) (.gdiv .next 2 1 (.imm 0xFFFF)) 2 = some 0x8000000000000000 ∧
    gAfter (withG base 1 0x8000000000000000) (.grem .next 2 1 (.imm 0xFFFF)) 2 = some 0 ∧
    gAfter (withG base 1 0x8000000000000000) (.gsra .next 2 1 (.imm 127)) 2 = some (BitVec.allOnes 64) ∧
    gAfter (withG base 1 3) (.gshl .next 2 1 (.imm 65)) 2 = some 6 ∧
    gAfter (withG base 1 (-8)) (.gshr .next 2 1 (.imm 60)) 2 = some 15 ∧
    gAfter (withG base 1 3) (.gadd .next 0 1 (.imm 65)) 0 = some 0 := by decide +kernel

theorem test_gen_logic :
    gAfter (withG base 1 12) (.gand .next 2 1 (.imm 10)) 2 = some 8 ∧
    gAfter (withG base 1 12) (.gor .next 2 1 (.imm 10)) 2 = some 14 ∧
    gAfter (withG base 1 12) (.gxor .next 2 1 (.imm 10)) 2 = some 6 ∧
    gAfter (withG base 1 (-1)) (.gmin .next 2 1 (.imm 10)) 2 = some (-1) ∧
    gAfter (withG base 1 (-1)) (.gmax .next 2 1 (.imm 10)) 2 = some 10 ∧
    gAfter (withG base 1 5) (.gsel .next 2 1 0 7) 2 = some 5 ∧
    gAfter (withG base 1 5) (.gsel .next 2 1 0 6) 2 = some 0 ∧
    gAfter base (.gclz .next 2 0) 2 = some 64 ∧ gAfter (withG base 1 1) (.gclz .next 2 1) 2 = some 63 ∧
    gAfter (withG base 1 (-1)) (.gpopc .next 2 1) 2 = some 64 ∧
    gAfter base (.gli .next 2 0x1FFFFFFF) 2 = some (BitVec.allOnes 64) ∧
    gAfter (withG base 2 1) (.glih .next 2 3) 2 = some 0x20000003 := by decide +kernel

/-- R109, R364, R373: the example of R135; a taken and a missed branch on the flag just written; a loop that ends; f7. -/
theorem test_gen_sequencing :
    pcAfter (withG base 5 (-3)) (.gcmp .next .lt 2 5 (.imm 10)) 4 0x2001 ([]) = true ∧
    pcAfter base (.gcmp (.jt 0 0x3FFF) .eq 0 5 (.imm 0)) 1 0x1FFF ([]) = true ∧
    pcAfter base (.gcmp (.jf 0 5) .eq 0 5 (.imm 0)) 1 0x2001 ([]) = true ∧
    pcAfter base (.gcmp (.call 5) .ne 7 5 (.imm 0)) 0 0x2005 ([0x2001]) = true ∧
    pcAfter (withStack [1, 2]) (.gadd .ret 1 1 (.imm 0)) 0 2 ([1]) = true ∧
    pcAfter base (.gloop (.lend .lc1 7) .lc1 (.imm 2)) 0 0x2007 ([]) = true ∧
    pcAfter base (.gloop (.lend .lc1 7) .lc1 (.imm 1)) 0 0x2001 ([]) = true := by decide +kernel

/-- ReturnStackFaultsAndExit, RegisterJump: a full and an empty return stack at their bounds. -/
def full16 : Ctx := { base with rstack := List.replicate 16 0 }
theorem test_wit_return_stack : GenReady (dev full16) full16 [1] ∧ CanTrap full16 ∧ full16.rstack.length = 16 ∧
    base.rstack = [] ∧ genWriter (.gadd .exit 1 1 (.imm 0)) = some (.exit, 1, [1]) ∧
    trapAfter (dev full16) (.gadd (.call 1) 1 1 (.imm 0)) = some (4, 0) ∧ trapAfter (dev base) (.gadd .ret 1 1 (.imm 0)) = some (5, 0) ∧
    trapAfter (dev full16) (.gjmpr true 1) = some (4, 0) ∧
    pcAfter (withG (withStack (List.replicate 15 0)) 1 9) (.gjmpr true 1) 0 9 (List.replicate 15 0 ++ [0x2001]) = true := by
  refine ⟨⟨rfl, by decide⟩, ⟨rfl, by decide +kernel⟩, rfl, rfl, rfl, ?_⟩
  decide +kernel

/-- PoisonedRegisterRaisesMachineCheck: a generator instruction, a slot with a marked field, CDEF. -/
def poisonG (n : Nat) (c : Ctx) : State := { dev c with poison := [.greg 0 n] }
def vliG : Instr := .vli ⟨15, false, .i32, 3, 0, .glo 2⟩
def emitting (i : Instr) : Ctx := { base with ir := some i }
theorem test_wit_poisoned_register :
    (genSources (.gst .next .d 3 1 0)).find? (fun x => (poisonG 3 base).gPoisoned 0 x) = some 3 ∧ CanTrap base ∧
    (emitting vliG).genMoves = true ∧ emissionCause (emitting vliG) vliG = none ∧
    (markedRegs vliG).find? (fun x => (poisonG 2 (emitting vliG)).gPoisoned 0 x) = some 2 ∧
    (2 : BitVec 8).toNat ∈ base.carried ∧ (poisonG 7 base).gPoisoned base.id 7 = true ∧
    trapAfter (poisonG 2 base) (.gadd .next 3 1 (.reg 2)) = some (0x40, 0x4000000000000002) ∧
    trapAfter (poisonG 3 base) (.gst .next .d 3 1 0) = some (0x40, 0x4000000000000003) ∧
    trapAfter (poisonG 7 base) (.cdef .next false 2 7) = some (0x40, 0x4000000000000007) ∧
    trapAfter (poisonG 2 (emitting vliG)) (.emission 0) = some (0x40, 0x4000000000000002) := by
  refine ⟨by decide +kernel, ⟨rfl, by decide +kernel⟩, rfl, by decide +kernel, by decide +kernel, by decide +kernel, by decide +kernel, ?_⟩
  decide +kernel

/-- SystemRegisters: assigned numbers at the edges of the table's ranges, an unassigned one, a SUPER one in each mode. -/
theorem test_wit_system_registers :
    csrAssigned 0 = true ∧ csrAssigned 8 = true ∧ csrAssigned 9 = false ∧ csrAssigned 0x10F = true ∧ csrAssigned 0x110 = false ∧
    (csrSuper 0x040 = true → { base with priv := true }.priv = true) ∧ csrSuper 0x030 = false ∧ base.priv = false ∧
    GenReady (dev base) base [1] ∧ CanTrap base ∧
    trapAfter (dev base) (.csrr .next 1 9) = some (3, 9) ∧ trapAfter (dev base) (.csrw .next 1 0x045) = some (2, 0) ∧
    gAfter base (.csrr .next 1 2) 1 = some 64 := by
  refine ⟨by decide, by decide, by decide, by decide, by decide, fun _ => rfl, by decide, rfl, ⟨rfl, by decide⟩, ⟨rfl, by decide +kernel⟩, ?_⟩
  decide +kernel

/-! ## Witnesses: memory, waits and traps of the generator -/

/-- GeneratorLoad, GeneratorStore, GeneratorStoreFrame, GeneratorAtomic: the last byte of the data page and its first word of 8 bytes; the
leader buffers a line already. -/
theorem test_wit_gen_access :
    ∃ mb l0 l1 l2 ls, GenAccess (dev (withG base 1 0x2FFFF)) (withG base 1 0x2FFFF) 0x2FFFF 1 .load mb l0 ∧
      GenAccess (dev (withG base 1 0x20000)) (withG base 1 0x20000) 0x20000 8 .store mb l1 ∧
      GenAccess (dev (withG base 1 0x20000)) (withG base 1 0x20000) 0x20000 8 .atomic mb (l2 :: ls) ∧
      GenReady (dev (withG base 1 0x20000)) (withG base 1 0x20000) ([1, 2] ++ if AtomicOp.cas = .cas then [3] else []) := by
  refine ⟨_, _, _, _, _, ⟨by decide +kernel, by decide +kernel, by decide +kernel, by decide +kernel, ⟨(⟨0x2FFFF, false⟩, 0), by decide +kernel, rfl⟩, rfl, by decide +kernel, fun _ => by decide +kernel, rfl⟩,
    ⟨by decide +kernel, by decide +kernel, by decide +kernel, by decide +kernel, ⟨(⟨0x20000, false⟩, 0), by decide +kernel, rfl⟩, rfl, rfl, fun _ => by decide +kernel, rfl⟩,
    ⟨by decide +kernel, by decide +kernel, by decide +kernel, by decide +kernel, ⟨(⟨0x20000, false⟩, 0), by decide +kernel, rfl⟩, rfl, by decide +kernel, fun _ => by decide +kernel, rfl⟩, ⟨rfl, by decide⟩⟩

/-- GeneratorLoad, GeneratorStore, GeneratorAtomic in the handler of a switch: the first and the last word of a dump of one command. -/
def dumped1 : DumpEntry :=
  { esn := 1, eng := .copy, member := 0, dropped := false,
    cmd := { e := { seq := 0, esn := 1, item := .slot (.cpy cpyF) }, copied := [], held := false, st := .queued } }
def preemptTrap : Trap := { cause := .preempt, dom := .g, addr := Config.dumpAddress 0 0, pc := 0x2000 }
def handlingP : Handling :=
  { trap := preemptTrap, row := none, eng := none, marker := false, afterExit := false, resume := 0x2000, skipLen := 0 }
def preempting : Ctx :=
  { base with handler := true, priv := true, switch := .preempting, handling := some handlingP, dump := [dumped1], tcause := 0x52,
              taddr := Config.dumpAddress 0 0 }
theorem test_wit_dump_access (off : Nat) (h : off = 0 ∨ off = 88) :
    DumpAccess (dev preempting) preempting ((Config.dumpAddress 0 0).toNat + off) 8 off := by
  have hd := dumpAddress_toNat 0 0
  have hl := (Config.dumpBlock 0 0).isLt
  refine ⟨rfl, rfl, ?_, ?_, ?_⟩
  · rw [canonical, hd, show (64 * (Config.dumpBlock 0 0).toNat + off) / 2 ^ 56 % 256 = 0 by omega]
    rfl
  · omega
  · unfold Ctx.dumpOffset
    have hs : (preempting.handler && preempting.handling.any fun h => h.trap.cause == .preempt || h.trap.cause == .restore) = true := rfl
    have hn : preempting.dump.length = 1 := rfl
    have ha : preempting.taddr = Config.dumpAddress 0 0 := rfl
    rw [hs, hn, ha]
    dsimp only
    rw [if_pos (by simp only [Bool.true_and, decide_eq_true_eq]; omega), Nat.add_sub_cancel_left]

/-- R3, R223, R367: little-endian, sign extension, the buffered byte over the snapshot. -/
def memDev (c : Ctx) (a : Nat) (bs : List Byte) : State := { dev c with mem := Memory.writeN [] a bs }
theorem test_gld_sign : next (exec (.gld .next .h true 2 1 0xFFFE) (memDev (withG base 1 0x20002) 0x20000 [0xFE, 0xFF]))
    (fun t => (t.ctxOf 0).any fun c => c.greg 2 == -2) = true := by decide +kernel
theorem test_gst_then_gld : next (exec (.gst .next .b 2 1 1) (dev (withG (withG base 1 0x20000) 2 0x1FF)))
    (fun t => next (exec (.gld .next .w false 3 1 0) t) fun u => (u.ctxOf 0).any fun c => c.greg 3 == 0xFF00) = true := by decide +kernel
theorem test_gamo_add : next (exec (.gamo .next .add 3 1 2) (memDev (withG (withG base 1 0x20000) 2 2) 0x20000 (List.replicate 8 0xFF)))
    (fun t => t.mem == [(0x20000, 1)] && (t.ctxOf 0).any fun c => c.greg 3 == BitVec.allOnes 64) = true := by decide +kernel

/-- AddressChecks: a non-canonical address at the bound, a misaligned one, one that nothing maps, a bad entry, a page without W, a
poisoned word. -/
def readOnly : Xlat := { page with base := 0x30000, pa := 0x30000, w := false }
def badPage : Xlat := { page with base := 0x50000, pa := 0x8000000000 }
def moreDev (c : Ctx) : State := { dev c with tlb := [(0, page), (0, probeXlat), (0, readOnly), (0, badPage)], domains := [(0, 0x40000)] }
def poisonMem (c : Ctx) : State := { dev c with poison := [.mem 0x20000] }
theorem test_wit_address_checks :
    CanTrap base ∧ base.orderPending = false ∧ monoBlocked (dev base) base 0 = false ∧
    canonical 0x0100000000000000 = false ∧ canonical 0x00FFFFFFFFFFFFFF = true ∧ canonical 0xFE00000000000000 = false ∧
    canonical 0xFF00000000000000 = true ∧ 0x20001 % sizeBytes .h ≠ 0 ∧
    trapAfter (dev (withG base 1 0x0100000000000000)) (.gld .next .d false 2 1 0) = some (7, 0x0100000000000000) ∧
    trapAfter (dev (withG base 1 0x20001)) (.gst .next .h 2 1 0) = some (6, 0x20001) ∧
    trapAfter (dev (withG base 1 0x20004)) (.gamo .next .add 3 1 2) = some (6, 0x20004) ∧
    trapAfter (dev (withG base 1 0x40000)) (.gld .next .b false 2 1 0) = some (8, 0x40000) := by
  refine ⟨⟨rfl, by decide +kernel⟩, ?_⟩
  decide +kernel
theorem test_wit_address_checks_pages :
    ((moreDev base).tlb.find? fun x => covers 0 0x60000 x) = none ∧ ((moreDev base).domains.find? fun x => x.1 == 0) = some (0, 0x40000) ∧
    (lookup (moreDev base) 0 0x30000).toOption = some readOnly ∧ (readOnly.loc 0x30000).mappable Fenced.clear = true ∧
    ¬Permits readOnly true .store ∧ ¬Permits readOnly true .atomic ∧ (badPage.loc 0x50000).mappable Fenced.clear = false ∧
    (∀ k ∈ [Access.load, .atomic], (base.member 0).map (fun mb =>
      poisonedFor k (poisonMem base) base mb ((List.range 8).map (page.loc 0x20000).next)) = some (some 0)) ∧
    (BitVec.ofNat 64 (Memory.word (Memory.writeN [] 0x40000 [3]) 0x40000 8)).getLsbD 1 = true := by
  refine ⟨by decide +kernel, by decide +kernel, by decide +kernel, by decide +kernel, by decide +kernel, by decide +kernel, ?_⟩
  decide +kernel
theorem test_address_checks_pages :
    trapAfter (moreDev (withG base 1 0x60000)) (.gamo .next .add 3 1 2) = some (8, 0x60000) ∧
    trapAfter { moreDev (withG base 1 0x60000) with mem := Memory.writeN [] 0x40000 [3] } (.gld .next .b false 2 1 0) = some (9, 0x60000) ∧
    trapAfter (moreDev (withG base 1 0x50000)) (.gld .next .w false 2 1 0) = some (9, 0x50000) ∧
    trapAfter (moreDev (withG base 1 0x30000)) (.gst .next .b 2 1 0) = some (0xA, 0x30000) ∧
    trapAfter (moreDev (withG base 1 0x30000)) (.gamo .next .add 3 1 2) = some (0xA, 0x30000) ∧
    trapAfter (poisonMem (withG base 1 0x20000)) (.gld .next .w false 2 1 0) = some (0x40, 0x5000000000020000) := by decide +kernel

/-- StreamOpen: a descriptor of base 0x23000 and five elements with values; one with a reserved bit. -/
def descDev (b : List Byte) : State := memDev (withG base 1 0x20000) 0x20000 b
def desc5 : List Byte := [0, 0x30, 2, 0, 0, 0, 0, 0, 5, 0, 0, 0, 1, 0, 0, 0]
theorem test_wit_stream_open :
    ∃ mb ls0 ls1 mb2, GenAccess (descDev desc5) (withG base 1 0x20000) 0x20000 8 .load mb ls0 ∧
      (let r0 := loadBytes (descDev desc5).mem mb ls0
       let c0 := (withG base 1 0x20000).putMember 0 r0.2
       GenAccess (descDev desc5) c0 0x20008 8 .load mb2 ls1 ∧ leNat r0.1 = 0x23000 ∧
         leNat (loadBytes (descDev desc5).mem mb2 ls1).1 = 2 ^ 32 + 5) := by
  refine ⟨_, _, _, _, ⟨by decide +kernel, by decide +kernel, by decide +kernel, by decide +kernel, ⟨(⟨0x20000, false⟩, 0), by decide +kernel, rfl⟩, rfl, by decide +kernel, fun _ => by decide +kernel, rfl⟩, ⟨by decide +kernel, by decide +kernel, by decide +kernel, by decide +kernel, ⟨(⟨0x20008, false⟩, 0), by decide +kernel, rfl⟩, rfl, by decide +kernel, fun _ => by decide +kernel, rfl⟩, by decide +kernel, by decide +kernel⟩
theorem test_sopen : next (exec (.sopen .next 3 1) (descDev desc5))
    (fun t => (t.ctxOf 0).any fun c => c.streamReg 3 == ⟨0x23000, 5, true, true, 0⟩) = true ∧
    trapAfter (descDev [0, 0, 0, 0, 0, 0, 0, 2]) (.sopen .next 3 1) = some (0x15, 3) := by decide +kernel

/-- SleepingInstructions: GWFE with its latch set, with none set, and asleep; TWAIT over an empty granule, and over a full one. -/
def latched : Ctx := { base with latches := 2 }
def dozing : Ctx := { base with gen := .sleepEvent 3 }
theorem test_wit_sleep :
    (let m : BitVec 3 := (base.src (.imm 0xFFF8)).extractLsb' 0 3; m = 0) ∧
    (let m : BitVec 3 := (latched.src (.imm 3)).extractLsb' 0 3; latched.latches &&& m ≠ 0) ∧
    (let m : BitVec 3 := (base.src (.imm 3)).extractLsb' 0 3; m ≠ 0 ∧ base.latches &&& m = 0 ∧ base.gen ≠ .sleepEvent m) ∧
    (let m : BitVec 3 := (dozing.src (.imm 3)).extractLsb' 0 3; m ≠ 0 ∧ dozing.latches &&& m = 0 ∧ dozing.gen = .sleepEvent m) := by
  decide +kernel
def dozingGranule : Ctx := { withG base 1 0xFFF with gen := .sleepGranule, twait := some ⟨.ab, 0xFFF, true, false⟩ }
theorem test_wit_twait_asleep :
    ∃ s1, touchMembers dozingGranule .ab 0xFFF [0] (dev dozingGranule) = .ready s1 ∧ s1 = dev dozingGranule ∧
      dozingGranule.gen = .sleepGranule ∧ (dozingGranule.twait.any fun w => w.met) = false ∧
      ((List.range dozingGranule.members.length).all fun m => granuleBit s1 dozingGranule m .ab 0xFFF == true) = false :=
  ⟨_, rfl, rfl, rfl, rfl, by decide +kernel⟩
theorem test_wit_twait :
    let c := withG base 1 0xFFF
    ∃ s1, c.handler = false ∧ granuleOk (dev c) c .ab 0xFFF = true ∧ c.tsetPending = false ∧
      touchMembers c .ab 0xFFF (List.range c.members.length) (dev c) = .ready s1 ∧ GenReady s1 c [1] ∧ SeqOk c .next ∧
      ((List.range c.members.length).all fun m => granuleBit s1 c m .ab 0xFFF == false) = true ∧
      ((List.range c.members.length).all fun m => granuleBit s1 c m .ab 0xFFF == true) = false ∧ c.gen ≠ .sleepGranule := by
  refine ⟨_, rfl, by decide +kernel, rfl, rfl, ⟨rfl, by decide +kernel⟩, rfl, by decide +kernel, by decide +kernel, by decide⟩

/-- SoftwareTrap, FaultsThatKill: a context with and without trap vector, and in a handler. -/
def noVector : Ctx := { base with tvec := 0 }
def handlingG : Handling :=
  { trap := { cause := .gtrap, dom := .g, addr := 5, pc := 0x2001 }, row := none, eng := none, marker := false, afterExit := false,
    resume := 0x2001, skipLen := 1 }
def inHandler : Ctx := { base with handler := true, priv := true, tcause := 0x16, handling := some handlingG }
theorem test_wit_traps : (dev base).ctxOf (dev base).hand.ctx = some base ∧ SeqOk base .next ∧ CanTrap base ∧ noVector.tvec = 0 ∧
    inHandler.handler = true := by
  refine ⟨rfl, rfl, ⟨rfl, by decide +kernel⟩, rfl, rfl⟩
def endedAfter (s : State) (i : Instr) : Option (BitVec 8 × BitVec 8) :=
  match exec i s with
  | .next t => (t.ctxOf 0).bind fun x => x.ended.map fun e => (e.status, e.reason)
  | _ => none
theorem test_traps : trapAfter (dev base) (.gtrap .next 0xABCD) = some (0x16, 0xABCD) ∧
    endedAfter (dev noVector) (.gtrap .next 1) = some (2, 0x23) ∧ endedAfter (dev inHandler) (.gtrap .next 1) = some (2, 0x20) ∧
    endedAfter (dev inHandler) .grteDiscard = some (3, 0x16) := by decide +kernel

/-- FaultsThatKill: each way a trap is raised in a context that cannot take one. -/
def illWord : Nat := 0x14 * 2 ^ 35
def noVectorEmit : Ctx := { noVector with ir := some (.vmov { vmovF with vd := 200 }) }
def noVectorHalt : Ctx :=
  { noVector with halting := true, rows := noVector.rows.map fun r => { r with stop := some (0, lateTrap) } }
theorem test_wit_kill : (dev noVector).ctxOf noVector.id = some noVector ∧ MustDie noVector ∧ MustDie inHandler ∧
    (genSources (.csrw .next 2 0x30)).find? (fun x => (poisonG 2 noVector).gPoisoned 0 x) = some 2 ∧ SeqOk noVector .next ∧
    noVector.genMoves = true ∧ noVector.ir = none ∧
    (fetchInstr (running illWord noVector) noVector 0 noVector.pc).toOption = some (slotBytes (BitVec.ofNat 64 illWord)) ∧
    refusal (slotBytes (BitVec.ofNat 64 illWord)) = some .illegal ∧
    emissionCause noVectorEmit (.vmov { vmovF with vd := 200 }) = some (.illreg, 200) ∧
    noVectorHalt.midSlot = false ∧ (noVectorHalt.stopLate.reported).isSome = true := by
  refine ⟨rfl, .inr rfl, .inl rfl, by decide +kernel, rfl, rfl, rfl, by decide +kernel, by decide +kernel, by decide +kernel, by decide +kernel,
    by decide +kernel⟩
theorem test_kills :
    endedAfter (poisonG 2 noVector) (.csrw .next 2 0x30) = some (2, 0x23) ∧
    endedAfter (dev { inHandler with rstack := List.replicate 16 0 }) (.gjmpr true 1) = some (2, 0x20) ∧
    endedAfter (running illWord noVector) (.generatorFetch 0) = some (2, 0x23) ∧
    endedAfter (dev noVectorEmit) (.emission 0) = some (2, 0x23) ∧ endedAfter (dev noVectorHalt) (.trapEntry 0) = some (2, 0x23) := by
  decide +kernel

/-- HandlerReturn: a generator trap, the machine check of a marker, the handlers of PREEMPT and RESTORE, lane and engine traps; and
HandlerDiscard. -/
def markerHandler : Ctx :=
  { inHandler.push (markerEntry base (.fenceX .next) .fenceX) with handling := some { handlingG with marker := true } }
def restoring : Ctx :=
  { preempting with switch := .restoring, dump := [], handling := some { handlingP with trap := { preemptTrap with cause := .restore } } }
def laneTrap : Trap := { cause := .bufv, dom := .l, esn := 1, addr := 0x1000, mask := 1, pc := 0x2000 }
def laneHandler : Ctx :=
  let c := emitted base (.vmov vmovF)
  { c with handler := true, priv := true, rows := c.rows.map fun r => { r with stop := some (0, laneTrap) },
           handling := some { handlingG with trap := laneTrap, row := some 0, resume := 0x2001, skipLen := 0 } }
def failedCmd : Cmd := { e := { seq := 0, esn := 1, item := .slot (.cpy cpyF) }, copied := [], held := false,
                         st := .faulted { cause := .crange, dom := .x, esn := 1, pc := 0x2000 } }
def engineHandler : Ctx :=
  { inHandler with members := inHandler.members.map (fun mb => { mb with copyQ := [failedCmd] }),
                   handling := some { handlingG with trap := { cause := .crange, dom := .x, esn := 1, pc := 0x2000 }, row := some 0,
                                                     eng := some (0, .copy) } }
theorem test_wit_grte : ∃ h hm hp hr hl hx, Returning (dev inHandler) inHandler h ∧ h.trap.dom = .g ∧ h.marker = false ∧
    inHandler.switch = .inside ∧ (inHandler.rows.all fun r => !r.live || r.stop.isNone) = true ∧
    Returning (dev markerHandler) markerHandler hm ∧ hm.marker = true ∧ (markerHandler.stream.find? Entry.isMarker).isSome = true ∧
    Returning (dev preempting) preempting hp ∧ hp.trap.cause = .preempt ∧ preempting.switch = .preempting ∧
    Returning (dev restoring) restoring hr ∧ hr.trap.cause = .restore ∧ restoring.dump = [] ∧ restoring.deadline = none ∧
    Returning (dev laneHandler) laneHandler hl ∧ hl.trap.dom = .l ∧ hl.row = some 0 ∧
    Returning (dev engineHandler) engineHandler hx ∧ hx.trap.dom = .x ∧ hx.eng = some (0, .copy) := by
  refine ⟨_, _, _, _, _, _, ⟨rfl, rfl, rfl, rfl, rfl, rfl, rfl, rfl, rfl⟩, rfl, rfl, rfl, by decide +kernel,
    ⟨rfl, rfl, rfl, rfl, rfl, rfl, rfl, rfl, rfl⟩, rfl, by decide +kernel, ⟨rfl, rfl, rfl, rfl, rfl, rfl, rfl, rfl, rfl⟩, rfl, rfl,
    ⟨rfl, rfl, rfl, rfl, rfl, rfl, rfl, rfl, rfl⟩, rfl, rfl, rfl, ⟨rfl, rfl, rfl, rfl, rfl, rfl, rfl, rfl, rfl⟩, rfl, rfl,
    ⟨rfl, rfl, rfl, rfl, rfl, rfl, rfl, rfl, rfl⟩, rfl, rfl⟩
theorem test_wit_grte_lane : ∃ r e, laneHandler.rowOf 0 = some r ∧ r.live = true ∧ r.late = none ∧ laneHandler.nextEntry r = some e ∧
    e.item = .slot (.vmov vmovF) ∧ (∃ mb, engineHandler.member 0 = some mb ∧ failedCmd ∈ mb.queue .copy) ∧ failedCmd.failed = true ∧
    next (exec .grteSkip (dev laneHandler)) (fun t => (t.ctxOf 0).any fun c => c.pc == 0x2001 && (c.rowOf 0).any fun r => r.issue == 1) = true ∧
    next (exec .grteRetry (dev engineHandler)) (fun t => (t.ctxOf 0).any fun c => (c.member 0).any fun mb => mb.copyQ == [failedCmd.fresh]) = true := by
  refine ⟨_, _, rfl, rfl, rfl, rfl, rfl, ⟨_, rfl, by decide +kernel⟩, rfl, by decide +kernel, by decide +kernel⟩
def super : Ctx := { base with priv := true }
def channelled : Ctx := { inHandler with channel := [(markerEntry inHandler (.fenceX .next) .fenceX, [])] }
theorem test_wit_grte_traps : base.priv = false ∧ CanTrap base ∧ super.priv = true ∧ CanTrap super ∧ channelled.priv = true ∧
    channelled.handler = true ∧ channelled.channel ≠ [] ∧ trapAfter (dev base) .grteRetry = some (2, 0) ∧
    trapAfter (dev super) .grteSkip = some (0x17, 0) := by
  refine ⟨rfl, ⟨rfl, by decide +kernel⟩, rfl, ⟨rfl, by decide +kernel⟩, rfl, rfl, by decide, ?_⟩
  decide +kernel

/-! ## Witnesses: markers, capture, votes, queues -/

/-- MarkersArePlaced: each way a marker goes: in a handler, into the stream, behind a replay. -/
def waitingReplay : Replay :=
  { name := 1, content := 0, recs := [⟨.vmov vmovF, 0, 0, [], 0⟩], segment := 0, esn := 1, binds := Vector.replicate 16 0,
    fixed := [([], 0, 0)], key := 0 }
def behindReplay : Ctx := { base with intake := [.replay waitingReplay] }
theorem test_wit_markers : ∀ i m, Placed inHandler i m { inHandler with channel := inHandler.channel ++ [(markerEntry inHandler i m, [])] } ∧
    Placed base i m (base.push (markerEntry base i m)) ∧
    Placed behindReplay i m { behindReplay with intake := behindReplay.intake ++ [.entry (markerEntry behindReplay i m)] } := by
  intro i m
  exact ⟨.inl ⟨rfl, rfl⟩, .inr (.inl ⟨rfl, rfl, by decide +kernel, rfl⟩), .inr (.inr ⟨rfl, nofun, by decide +kernel, rfl⟩)⟩
theorem test_wit_tset_cdef : granuleOk (dev base) base (feBuf .cb) 0xFFF = true ∧ base.handler = false ∧
    (2 : BitVec 8).toNat ∈ base.carried ∧ base.orderPending = false ∧ (0x2FF00 : Nat) % 4 = 0 ∧
    (translateN (dev base) base.domain (!base.priv) .load 0x2FF00 256).toOption.isSome = true ∧
    (translateN (dev base) base.domain (!base.priv) .load 0x2FF04 256).toOption.isSome = false ∧
    granuleOk (dev base) base (feBuf .cb) 0x1000 = false ∧ (3 : BitVec 8).toNat ∉ base.carried ∧
    trapAfter (dev (withG base 1 0x1000)) (.tset .next .cb true 1) = some (0xC, 0x1000) ∧
    trapAfter (dev (withG base 1 0x2FF04)) (.cdef .next true 2 1) = some (8, 0x30000) ∧
    trapAfter (dev base) (.cdef .next false 3 1) = some (0x11, 3) := by
  decide +kernel

/-- CaptureAndReplay. -/
def capt : Ctx := { base with stretches := [⟨3, false, false, 0, []⟩] }
def held1 : Ctx := { base with stretches := [⟨3, true, false, 0, [⟨.vmov vmovF, 0, 0, [], 0⟩]⟩] }
theorem test_wit_capture : base.capturing = none ∧ base.stretch 3 = none ∧ (∃ x, capt.capturing = some x) ∧
    held1.capturing = none ∧ (held1.stretch (nameOf held1 (.imm 3))).isSome = true ∧
    (∃ x, held1.stretch 3 = some x ∧ (∀ y ∈ x.recs, ∀ r, sadvPair held1 y.i = some r → r < held1.regCount) ∧
      held1.vq.length + (replayVotes held1 held1.nextEsn x.recs).length ≤ 16 ∧ x.recs ≠ [] ∧ held1.replays < Config.replayDepth) := by
  refine ⟨rfl, rfl, ⟨_, rfl⟩, rfl, rfl, ⟨_, rfl, ?_, by decide +kernel, nofun, by decide +kernel⟩⟩
  intro y hy r h
  cases List.mem_singleton.1 hy
  cases h

/-- CaptureAndReplay, the clauses of what is out of order: a stretch with an SADV whose stream has values asks for two registers; a stretch
of a vote behind a full vote queue. -/
def sadvF : LForm := ⟨15, false, .f32, 15, 0, 0, 0, .none, .none, 0, .rne, 0⟩
def wideStretch : Ctx :=
  { base with streams := Vector.replicate 8 ⟨0, 4, true, true, 0⟩, stretches := [⟨3, true, false, 0, [⟨.sadv sadvF, 0, 0, [], 0⟩]⟩] }
def voteF : LForm := ⟨15, false, .f32, 0, 1, 0, 0, .none, .none, 0, .rne, 0⟩
def voteStretch : Ctx :=
  { base with stretches := [⟨3, true, false, 0, [⟨.vote voteF, 0, 0, [], 0⟩]⟩],
              vq := List.replicate 16 ⟨1, .any, none, false, true, 0, 0, some 1, 0⟩ }
theorem test_wit_capture_faults : capt.capturing.isSome = true ∧ base.capturing = none ∧ CanTrap base ∧ (held1.stretch 3).isSome = true ∧
    base.stretch 3 = none ∧ sadvPair wideStretch (.sadv sadvF) = some 16 ∧ wideStretch.regCount = 16 ∧
    16 < voteStretch.vq.length + (replayVotes voteStretch voteStretch.nextEsn [⟨.vote voteF, 0, 0, [], 0⟩]).length := by
  refine ⟨rfl, rfl, ⟨rfl, by decide +kernel⟩, rfl, rfl, by decide +kernel, rfl, by decide +kernel⟩
theorem test_capture_faults :
    trapAfter (dev capt) (.capb .next 9) = some (0xD, 9) ∧ trapAfter (dev base) (.cape .next 1) = some (0xD, 0x100) ∧
    trapAfter (dev held1) (.capbDry .next 3) = some (0xE, 3) ∧ trapAfter (dev base) (.rply .next (.imm 3)) = some (0xF, 3) ∧
    trapAfter (dev wideStretch) (.rply .next (.imm 3)) = some (0x24, 16) ∧
    trapAfter (dev voteStretch) (.rply .next (.imm 3)) = some (0x26, 0) := by decide +kernel

/-- ReturnStackFaultsAndExit, a name that is capturing at EXIT. -/
theorem test_exit_discards : (∃ x, capt.capturing = some x ∧ ∀ y ∈ capt.stretches, y.name = x.name → y = x) ∧
    next (exec (.gadd .exit 1 1 (.imm 0)) (dev capt)) (fun t => (t.ctxOf 0).any fun c => c.stretches == [] && c.gen == .stopped) = true := by
  refine ⟨⟨_, rfl, ?_⟩, by decide +kernel⟩
  intro y hy _
  exact List.mem_singleton.1 hy

/-- VotesAndStorageCompletions. -/
def voted : Ctx := { base with vq := [⟨1, .any, none, false, true, 0, 0, some 1, 0⟩] }
def pair5 : NvmePair := { num := 5, port := 0, requester := 0, ns := 1, entries := 2, domain := 0, submitted := [],
                          done := [(9, 0, ⟨0, 0, 0, false, false⟩)] }
def pairDev (c : Ctx) (p : NvmePair) : State := { dev c with pairs := [p] }
theorem test_wit_votes : ∃ v r x y, voted.vq = v :: [] ∧ v.result = some r ∧
    ((pairDev (withG base 1 5) pair5).pairs.find? fun x => x.num == 5 && x.domain == base.domain) = some x ∧ x.done = y :: [] ∧
    (∀ x ∈ (dev base).pairs, x.num = 0 → x.domain = base.domain → x.done = []) ∧ (0x405 : DWord).toNat % 1024 = 5 :=
  ⟨_, _, _, _, rfl, rfl, rfl, rfl, nofun, rfl⟩
theorem test_npoll : gAfter base (.npoll .next 2 1) 2 = some (BitVec.allOnes 64) ∧
    next (exec (.npoll .next 2 1) (pairDev (withG base 1 5) pair5)) (fun t => (t.ctxOf 0).any fun c => c.greg 2 == 0x500000009) = true ∧
    gAfter voted (.gvq .next 2) 2 = some 1 := by decide +kernel

theorem test_wit_votes_faults : base.vq = [] ∧ CanTrap base ∧ inHandler.handler = true ∧ GenReady (dev inHandler) inHandler [1, 2] ∧
    trapAfter (dev base) (.gvq .next 1) = some (0x10, 0) ∧ endedAfter (dev inHandler) (.gvq .next 1) = some (2, 0x20) ∧
    endedAfter (dev inHandler) (.twait .next .ab true 1) = some (2, 0x20) := by
  refine ⟨rfl, ⟨rfl, by decide +kernel⟩, rfl, ⟨rfl, by decide⟩, ?_⟩
  decide +kernel

/-- QueueInstructions: a queue with a committed head, one with none, one that is full. -/
def qdev (c : Ctx) (q : DevQueue) : State := { dev c with queues := [q] }
def fullQ : DevQueue := { queue1 with ticket := 18, unreleased := [2, 3], committed := [2], head := 2 }
def readyQ : DevQueue := { queue1 with committed := [0] }
theorem test_wit_queues : SeqOk base .next ∧ queueWaits (qdev base queue1) base = false ∧
    boundQueue (qdev base queue1) base 0 = some queue1 ∧ queue1.consumer ≠ .control ∧ queue1.ticket < queue1.size ∧
    ¬(fullQ.ticket < fullQ.size ∨ fullQ.ticket - fullQ.size ∉ fullQ.unreleased) ∧ (1 : DWord).toNat < queue1.ticket ∧
    queue1.head ≤ (1 : DWord).toNat ∧ (1 : DWord).toNat ∉ queue1.committed ∧
    ((commitSlot (qdev base queue1) queue1 1).ctxOf base.id).isSome = true := by
  refine ⟨rfl, by decide +kernel, rfl, by decide, by decide, by decide, by decide, by decide, by decide, by decide +kernel⟩
theorem test_wit_qpop : ∃ d1 d2, base.handler = false ∧ queue1.consumer = .context ∧ (∀ x e sq, base.gen ≠ .sleepQueue x e sq) ∧
    (releaseLast (qdev base readyQ) base 1).1.queueOf 1 = some d1 ∧ d1.head ∈ d1.committed ∧ d1.sleepers = [] ∧
    (releaseLast (qdev base queue1) base 1).1.queueOf 1 = some d2 ∧ ¬(d2.head ∈ d2.committed ∧ d2.sleepers = []) :=
  ⟨_, _, rfl, rfl, nofun, rfl, by decide, rfl, rfl, by decide⟩
/-- QueueInstructions, the faults: a number that is not bound, a queue of launch records, one of control records in USER mode. -/
theorem test_wit_queue_faults : boundQueue (qdev base queue1) base 5 = none ∧ queueWaits (qdev base queue1) base = false ∧
    boundQueue (qdev base { queue1 with consumer := .launch }) base 0 = some { queue1 with consumer := .launch } ∧
    ((2 : DWord).toNat ≥ queue1.ticket ∨ (2 : DWord).toNat < queue1.head ∨ (2 : DWord).toNat ∈ queue1.committed) ∧ base.priv = false ∧
    trapAfter (qdev base { queue1 with consumer := .launch }) (.qpop .next 2 0) = some (0x14, 0) ∧
    trapAfter (qdev base { queue1 with consumer := .control }) (.qcmt .next 1 0) = some (2, 0) := by
  refine ⟨rfl, by decide +kernel, by decide +kernel, .inl (by decide), rfl, ?_⟩
  decide +kernel
theorem test_queues :
    next (exec (.qrsv .next 2 0) (qdev base queue1)) (fun t => (t.ctxOf 0).any fun c => c.greg 2 == 2) = true ∧
    next (exec (.qrsv .next 2 0) (qdev base fullQ)) (fun t => (t.ctxOf 0).any fun c => c.greg 2 == BitVec.allOnes 64) = true ∧
    next (exec (.qpop .next 2 0) (qdev (withG base 2 9) readyQ)) (fun t => (t.ctxOf 0).any fun c => c.greg 2 == 0 && c.taken == [(1, 0)]) = true ∧
    trapAfter (qdev base queue1) (.qcmt .next 0 1) = some (0x14, 1) ∧
    trapAfter (qdev (withG base 1 2) queue1) (.qcmt .next 1 0) = some (0x13, 2) := by decide +kernel

/-! ## Witnesses: lane slots -/

/-- A row register of the context's first row. -/
def withV (c : Ctx) (n : Nat) (f : Nat → Word) : Ctx :=
  { c with rows := c.rows.map fun r => r.setReg n ⟨Lanes.build f, .g⟩ }
/-- Registers 4 and 6 hold data, 5 is zero (the high half of addresses). -/
def rowBase : Ctx := withV (withV base 4 fun l => BitVec.ofNat 32 (4 * l)) 6 fun l => BitVec.ofNat 32 (0x20000 + 4 * l)
/-- The row's turn at the slot. -/
def slotIn (c : Ctx) (i : Instr) : RowSlot :=
  let c := emitted c i
  ⟨c, (c.rowOf 0).getD (freshRow launch1.params 0 0 0), entryOf c, false⟩
def laneDev (c : Ctx) (i : Instr) : State := { dev (emitted c i) with hand := handOf (entryOf (emitted c i)) }

/-- A register form with fields of interest. -/
def lf (t : ElemTy) (vd va vb : BitVec 8) (vc : BitVec 8 := 0) (fn : BitVec 4 := 0) : LForm :=
  ⟨15, false, t, vd, va, vb, vc, .none, .none, 0, .rne, fn⟩

/-- ElementwiseResults, with a carried operand whose value is a default, and ThirtyTwoBitIntegerResults. -/
def vaddCarried : Instr := .vadd ⟨15, false, .f32, 3, 1, 4, 0, .k1, .none, 0, .rne, 0⟩
theorem test_wit_elementwise : ∃ e srcs, elementwise vaddCarried = some e ∧ RowTurn (laneDev rowBase vaddCarried) vaddCarried (slotIn rowBase vaddCarried) ∧
    Readable (laneDev rowBase vaddCarried) (slotIn rowBase vaddCarried) vaddCarried (e.ops (slotIn rowBase vaddCarried))
      (ownLane (e.ops (slotIn rowBase vaddCarried)).length) srcs ∧ e.d < (slotIn rowBase vaddCarried).r.regs.length := by
  exact ⟨_, _, rfl, ⟨rfl, rfl, rfl, rfl, by decide +kernel, by decide +kernel⟩, ⟨rfl, by decide +kernel⟩, by decide +kernel⟩
theorem test_wit_i32 : let f := lf .i32 3 4 6
    ∃ srcs, f.t = .i32 ∧ f.fn = 0 ∧ RowTurn (laneDev rowBase (.vsub f)) (.vsub f) (slotIn rowBase (.vsub f)) ∧
      Readable (laneDev rowBase (.vsub f)) (slotIn rowBase (.vsub f)) (.vsub f)
        [vaOp (slotIn rowBase (.vsub f)) f.va, vbOp (slotIn rowBase (.vsub f)) f.vb] (ownLane 2) srcs ∧
      f.vd.toNat < (slotIn rowBase (.vsub f)).r.regs.length := by
  exact ⟨_, rfl, rfl, ⟨rfl, rfl, rfl, rfl, by decide +kernel, by decide +kernel⟩, ⟨rfl, by decide +kernel⟩, by decide +kernel⟩
theorem test_wit_vmov : let f := lf .f32 3 4 0
    let s := laneDev rowBase (.vmov f)
    let t := slotIn rowBase (.vmov f)
    f.vd.toNat + 1 < t.r.regs.length ∧ RowTurn s (.vmov f) t ∧ ∃ srcs, Readable s t (.vmov f) ([vaOp t f.va])
      (ownLane 1) srcs := by
  exact ⟨by decide +kernel, ⟨rfl, rfl, rfl, rfl, by decide +kernel, by decide +kernel⟩, _, rfl, by decide +kernel⟩

theorem test_wit_vsel : let f := lf .f32 3 4 6 14
    let s := laneDev rowBase (.vsel f)
    let t := slotIn rowBase (.vsel f)
    f.vd.toNat + 1 < t.r.regs.length ∧ RowTurn s (.vsel f) t ∧ ∃ srcs, Readable s t (.vsel f) ([vaOp t f.va, vbOp t f.vb])
      (ownLane 2) srcs := by
  exact ⟨by decide +kernel, ⟨rfl, rfl, rfl, rfl, by decide +kernel, by decide +kernel⟩, _, rfl, by decide +kernel⟩

theorem test_wit_viota : let f := lf .i32 3 0 0
    let s := laneDev rowBase (.viota f)
    let t := slotIn rowBase (.viota f)
    f.vd.toNat < t.r.regs.length ∧ RowTurn s (.viota f) t := by
  exact ⟨by decide +kernel, ⟨rfl, rfl, rfl, rfl, by decide +kernel, by decide +kernel⟩⟩

theorem test_wit_vshf : let f := lf .f32 3 4 0 127 1
    let s := laneDev rowBase (.vshf f)
    let t := slotIn rowBase (.vshf f)
    f.vd.toNat + 1 < t.r.regs.length ∧ RowTurn s (.vshf f) t ∧ ∃ srcs, Readable s t (.vshf f) ([vaOp t f.va])
      (fun _ _ l => if f.fn = 0 ∨ l + 127 < 64 then [(0, (l + 127) % 64)] else []) srcs := by
  exact ⟨by decide +kernel, ⟨rfl, rfl, rfl, rfl, by decide +kernel, by decide +kernel⟩, _, rfl, by decide +kernel⟩

theorem test_wit_vperm : let f := lf .f32 3 4 6
    let s := laneDev rowBase (.vperm f)
    let t := slotIn rowBase (.vperm f)
    f.vd.toNat + 1 < t.r.regs.length ∧ RowTurn s (.vperm f) t ∧ ∃ srcs, Readable s t (.vperm f) ([vaOp t f.va, vbOp t f.vb])
      (fun _ q l => [(1, l), (0, (srcWord q 1 l).toNat % 64)]) srcs := by
  exact ⟨by decide +kernel, ⟨rfl, rfl, rfl, rfl, by decide +kernel, by decide +kernel⟩, _, rfl, by decide +kernel⟩

theorem test_wit_vtrn : let f := lf .i8 8 0 0
    let s := laneDev rowBase (.vtrn f)
    let t := slotIn rowBase (.vtrn f)
    f.vd.toNat + 1 < t.r.regs.length ∧ RowTurn s (.vtrn f) t ∧ ∃ srcs, Readable s t (.vtrn f) ((List.range 8).map fun q => ⟨f.va.toNat + q, t.e.kA, false⟩)
      (fun _ _ l => (List.range 8).flatMap fun r => (List.range 4).map fun k =>
          ((l * 4 + k) % 8, ((l * 4 + k) / 8 * 8 + r) / 4)) srcs := by
  exact ⟨by decide +kernel, ⟨rfl, rfl, rfl, rfl, by decide +kernel, by decide +kernel⟩, _, rfl, by decide +kernel⟩

theorem test_wit_vcvt : let f := lf .f16 3 4 0 1 0
    let s := laneDev rowBase (.vcvt f)
    let t := slotIn rowBase (.vcvt f)
    f.vd.toNat + 1 < t.r.regs.length ∧ RowTurn s (.vcvt f) t ∧ ∃ srcs, Readable s t (.vcvt f) ([vaOp t f.va, plainOp f.vd.toNat])
      (ownLane 2) srcs := by
  exact ⟨by decide +kernel, ⟨rfl, rfl, rfl, rfl, by decide +kernel, by decide +kernel⟩, _, rfl, by decide +kernel⟩

theorem test_wit_vcvtAcc : let f := lf .f32 3 4 6 0x80 1
    let s := laneDev rowBase (.vcvtAcc f)
    let t := slotIn rowBase (.vcvtAcc f)
    f.vd.toNat + 1 < t.r.regs.length ∧ RowTurn s (.vcvtAcc f) t ∧ ∃ srcs, Readable s t (.vcvtAcc f) ([vaOp t f.va, vbOp t f.vb])
      (ownLane 2) srcs := by
  exact ⟨by decide +kernel, ⟨rfl, rfl, rfl, rfl, by decide +kernel, by decide +kernel⟩, _, rfl, by decide +kernel⟩

theorem test_wit_vdot4 : let f := lf .i8 3 4 6 4 1
    let s := laneDev rowBase (.vdot4 f)
    let t := slotIn rowBase (.vdot4 f)
    f.vd.toNat + 1 < t.r.regs.length ∧ RowTurn s (.vdot4 f) t ∧ ∃ srcs, Readable s t (.vdot4 f) ([vaOp t f.va, vbOp t f.vb, plainOp f.vc.toNat])
      (ownLane 3) srcs := by
  exact ⟨by decide +kernel, ⟨rfl, rfl, rfl, rfl, by decide +kernel, by decide +kernel⟩, _, rfl, by decide +kernel⟩

theorem test_wit_vred : let f := lf .i32 15 4 0 0 5
    let s := laneDev rowBase (.vred f)
    let t := slotIn rowBase (.vred f)
    f.vd.toNat < t.r.regs.length ∧ RowTurn s (.vred f) t ∧ ∃ srcs, Readable s t (.vred f) ([vaOp t f.va])
      (fun part _ _ => partDeps part 64) srcs := by
  exact ⟨by decide +kernel, ⟨rfl, rfl, rfl, rfl, by decide +kernel, by decide +kernel⟩, _, rfl, by decide +kernel⟩

theorem test_wit_vscan : let f := lf .f32 15 4 0 0 0
    let s := laneDev rowBase (.vscan f)
    let t := slotIn rowBase (.vscan f)
    f.vd.toNat < t.r.regs.length ∧ RowTurn s (.vscan f) t ∧ ∃ srcs, Readable s t (.vscan f) ([vaOp t f.va])
      (fun part _ l => partDeps part (l + 1)) srcs := by
  exact ⟨by decide +kernel, ⟨rfl, rfl, rfl, rfl, by decide +kernel, by decide +kernel⟩, _, rfl, by decide +kernel⟩

theorem test_wit_vtopk : let f := lf .i32 8 4 10 128 1
    let s := laneDev rowBase (.vtopk f)
    let t := slotIn rowBase (.vtopk f)
    f.vd.toNat + 1 < t.r.regs.length ∧ RowTurn s (.vtopk f) t ∧ ∃ srcs, Readable s t (.vtopk f) ((List.range 2).map fun q => ⟨f.va.toNat + q, t.e.kA, false⟩)
      (fun _ _ l => if l < 128 then (List.range 2).flatMap fun q => (List.range 64).map fun j => (q, j) else []) srcs := by
  exact ⟨by decide +kernel, ⟨rfl, rfl, rfl, rfl, by decide +kernel, by decide +kernel⟩, _, rfl, by decide +kernel⟩

theorem test_wit_vcmps : let f := lf .i8 8 4 0
    let s := laneDev rowBase (.vcmps f)
    let t := slotIn rowBase (.vcmps f)
    f.vd.toNat + 1 < t.r.regs.length ∧ RowTurn s (.vcmps f) t ∧ ∃ srcs, Readable s t (.vcmps f) ([vaOp t f.va])
      (fun _ _ l => (if l < 32 then (List.range 4).flatMap fun k => (List.range 8).map fun j => (0, (8 * ((l * 4 + k) / 4) + j) / 4) else []) ++
          if l < 32 then (List.range 8).map fun j => (0, (8 * l + j) / 4) else []) srcs := by
  exact ⟨by decide +kernel, ⟨rfl, rfl, rfl, rfl, by decide +kernel, by decide +kernel⟩, _, rfl, by decide +kernel⟩

theorem test_wit_vprune : let f := lf .bf16 3 4 6
    let s := laneDev rowBase (.vprune f)
    let t := slotIn rowBase (.vprune f)
    f.vd.toNat + 1 < t.r.regs.length ∧ RowTurn s (.vprune f) t ∧ ∃ srcs, Readable s t (.vprune f) ([vaOp t f.va, vbOp t f.vb])
      (ownLane 2) srcs := by
  exact ⟨by decide +kernel, ⟨rfl, rfl, rfl, rfl, by decide +kernel, by decide +kernel⟩, _, rfl, by decide +kernel⟩

theorem test_wit_vcmp : let f := lf .f32 14 4 6 0 6
    let s := laneDev rowBase (.vcmp f)
    let t := slotIn rowBase (.vcmp f)
    f.vd.toNat + 1 < t.r.regs.length ∧ RowTurn s (.vcmp f) t ∧ ∃ srcs, Readable s t (.vcmp f) ([vaOp t f.va, vbOp t f.vb])
      (ownLane 2) srcs := by
  exact ⟨by decide +kernel, ⟨rfl, rfl, rfl, rfl, by decide +kernel, by decide +kernel⟩, _, rfl, by decide +kernel⟩

theorem test_wit_plog : let f := lf .f32 4 4 0 0 4
    let s := laneDev rowBase (.plog f)
    let t := slotIn rowBase (.plog f)
    f.vd.toNat < t.r.regs.length ∧ RowTurn s (.plog f) t := by
  exact ⟨by decide +kernel, ⟨rfl, rfl, rfl, rfl, by decide +kernel, by decide +kernel⟩⟩

theorem test_wit_vote : let f := lf .f32 0 14 0 0 2
    let s := laneDev rowBase (.vote f)
    let t := slotIn rowBase (.vote f)
    f.vd.toNat < t.r.regs.length ∧ RowTurn s (.vote f) t := by
  exact ⟨by decide +kernel, ⟨rfl, rfl, rfl, rfl, by decide +kernel, by decide +kernel⟩⟩

theorem test_wit_vexit : let f := lf .f32 0 0 0
    let s := laneDev rowBase (.vexit f)
    let t := slotIn rowBase (.vexit f)
    f.vd.toNat < t.r.regs.length ∧ RowTurn s (.vexit f) t := by
  exact ⟨by decide +kernel, ⟨rfl, rfl, rfl, rfl, by decide +kernel, by decide +kernel⟩⟩

theorem test_wit_vli : let f : LIForm := ⟨15, false, .i32, 3, 0, .imm 7⟩
    let s := laneDev rowBase (.vli f)
    let t := slotIn rowBase (.vli f)
    f.src = .imm 7 ∧ f.vd.toNat < t.r.regs.length ∧ RowTurn s (.vli f) t := by
  exact ⟨rfl, by decide +kernel, ⟨rfl, rfl, rfl, rfl, by decide +kernel, by decide +kernel⟩⟩

/-! ## Witnesses: memory through lanes -/

/-- BufferLoadStore: offsets at the end of WB by a displacement. -/
theorem test_wit_vld : let f := lf .f32 3 4 0 255 1
    let s := laneDev (withV rowBase 4 fun _ => 0x1000 - 4 - 1020) (.vld f)
    let t := slotIn (withV rowBase 4 fun _ => 0x1000 - 4 - 1020) (.vld f)
    RowTurn s (.vld f) t ∧ ∃ srcs mb s1, Readable s t (.vld f) [vaOp t f.va] (ownLane 1) srcs ∧
      OffsetsClear s t .wb false [(0, 0xFFC)] mb ∧ touchAll s t.c t.r.member .wb 4 [0xFFC] = .ready s1 ∧
      poisonedOffset s1 t .wb [(0, 0xFFC)] = none ∧
      ((srcWord srcs 0 0).toNat + 4 * f.vc.toNat) % 2 ^ 32 = 0xFFC := by
  exact ⟨⟨rfl, rfl, rfl, rfl, by decide +kernel, by decide +kernel⟩, _, _, _, ⟨rfl, by decide +kernel⟩,
    ⟨rfl, by decide +kernel, by decide +kernel⟩, rfl, by decide +kernel, by decide +kernel⟩
theorem test_wit_vst : let f := lf .f32 0 4 6 0 3
    let s := laneDev rowBase (.vst f)
    let t := slotIn rowBase (.vst f)
    RowTurn s (.vst f) t ∧ ∃ srcs mb s1, Readable s t (.vst f) [vaOp t f.va, vbOp t f.vb] (ownLane 2) srcs ∧
      OffsetsClear s t .cb true (laneOffsets f (t.part (.vst f)) srcs) mb ∧
      touchAll s t.c t.r.member .cb 4 ((laneOffsets f (t.part (.vst f)) srcs).map fun x => x.2) = .ready s1 := by
  exact ⟨⟨rfl, rfl, rfl, rfl, by decide +kernel, by decide +kernel⟩, _, _, _, ⟨rfl, by decide +kernel⟩,
    ⟨rfl, by decide +kernel, by decide +kernel⟩, rfl⟩
/-- A row with one active lane. -/
def oneLane (c : Ctx) (l : Nat) : Ctx := { c with rows := c.rows.map fun r => { r with mask := 1#64 <<< l } }

/-- GlobalLaneAccesses: every lane at its word of the data page. -/
theorem test_wit_vldg : let f := lf .f32 3 6 0 4 0
    let s := laneDev rowBase (.vldg f)
    let t := slotIn rowBase (.vldg f)
    RowTurn s (.vldg f) t ∧ ∃ srcs mb us, Readable s t (.vldg f) (pairOps t f.va) (ownLane 2) srcs ∧
      UnitsClear s t .load false (pageUnit f.t) (laneAddrs (t.part (.vldg f)) srcs 16) (fun _ _ => []) mb us ∧
      poisonedView s mb us = none := by
  exact ⟨⟨rfl, rfl, rfl, rfl, by decide +kernel, by decide +kernel⟩, _, _, _, ⟨rfl, by decide +kernel⟩,
    ⟨rfl, .inr ⟨rfl, rfl, by decide +kernel, fun _ _ => rfl⟩, rfl, by decide +kernel, fun _ => by decide +kernel, by decide +kernel⟩, by decide +kernel⟩
theorem test_wit_vstg : let f := lf .f32 0 6 4 4 0
    let s := laneDev rowBase (.vstg f)
    let t := slotIn rowBase (.vstg f)
    RowTurn s (.vstg f) t ∧ ∃ srcs mb us, Readable s t (.vstg f) (pairOps t f.va ++ [vbOp t f.vb]) (ownLane 3) srcs ∧
      UnitsClear s t .store true (pageUnit f.t) (laneAddrs (t.part (.vstg f)) srcs 16) (groupBad (t.part (.vstg f))) mb us := by
  exact ⟨⟨rfl, rfl, rfl, rfl, by decide +kernel, by decide +kernel⟩, _, _, _, ⟨rfl, by decide +kernel⟩,
    ⟨rfl, .inr ⟨rfl, rfl, by decide +kernel, by decide +kernel⟩, rfl, by decide +kernel, fun _ => by decide +kernel, by decide +kernel⟩⟩
theorem test_wit_vamo : let f := lf .i32 3 6 4 5 7
    let s := laneDev rowBase (.vamo f)
    let t := slotIn rowBase (.vamo f)
    RowTurn s (.vamo f) t ∧ ∃ srcs mb us,
      Readable s t (.vamo f) (pairOps t f.va ++ [vbOp t f.vb] ++ if f.fn = 7 then [plainOp f.vc.toNat] else [])
        (ownLane (if f.fn = 7 then 4 else 3)) srcs ∧
      UnitsClear s t .atomic true (fun fmt => ⟨4, 4, fmt == 0⟩) (laneAddrs (t.part (.vamo f)) srcs 0) (fun _ _ => []) mb us ∧
      poisonedDrained s t.c.id mb us = none := by
  exact ⟨⟨rfl, rfl, rfl, rfl, by decide +kernel, by decide +kernel⟩, _, _, _, ⟨rfl, by decide +kernel⟩,
    ⟨rfl, .inr ⟨rfl, rfl, by decide +kernel, fun _ _ => rfl⟩, rfl, by decide +kernel, fun _ => by decide +kernel, by decide +kernel⟩, by decide +kernel⟩

/-- An open stream with values of 63 elements: lane 62 is the last that has one, lane 63 reads all ones. -/
def streamed : Ctx := base.setStream 3 ⟨0x23000, 63, true, true, 0⟩
theorem test_wit_sadv : let f := lf .i32 3 3 0
    let s := laneDev streamed (.sadv f)
    let t := slotIn streamed (.sadv f)
    RowTurn s (.sadv f) t ∧ ∃ p mb us, t.e.streams = [p] ∧ t.c.member t.r.member = some mb ∧ p.isOpen = true ∧ p.len = 63 ∧
      (let checked := ((List.range 63).map fun l => laneUnit s 0 true .load (fun _ => ⟨8, 1, true⟩) l (p.base + l * 8))
       (t.kept = none ∧ us = checked.map (fun y => y.2) ∧ ∀ y ∈ checked, ∀ k ∈ y.1, k = .fmtf) ∧ t.underWay = none ∧
         (boardStall mb false (us.map fun u => ⟨.global, u.va, u.locs.length⟩)).isNone = true ∧
         portBusy s (us.flatMap fun u => u.locs) = false ∧ poisonedUnit s (dieOf mb.cluster) us = none) := by
  exact ⟨⟨rfl, rfl, rfl, rfl, by decide +kernel, by decide +kernel⟩, _, _, _, rfl, rfl, rfl, rfl, ⟨rfl, rfl, by decide +kernel⟩, rfl,
    by decide +kernel, by decide +kernel, by decide +kernel⟩

/-- What a slot leaves in a lane of a register. -/
def laneAfter (c : Ctx) (i : Instr) (reg l : Nat) : Option Word :=
  match exec i (laneDev c i) with
  | .next t => ((t.ctxOf 0).bind fun x => x.rowOf 0).map fun r => (r.reg reg).get l
  | _ => none
/-- R206, R425: the highest lane's word remains; R254: past the end all ones. -/
theorem test_vst_highest_lane :
    next (exec (.vst (lf .f32 0 5 6 0 1)) (laneDev rowBase (.vst (lf .f32 0 5 6 0 1))))
      (fun t => ((t.ctxOf 0).bind fun c => c.member 0).any fun m => m.wb.cells == [(0, 0xFC), (2, 2)]) = true := by decide +kernel
theorem test_sadv_end : laneAfter streamed (.sadv (lf .i32 3 3 0)) 3 62 = some 0 ∧
    laneAfter streamed (.sadv (lf .i32 3 3 0)) 4 63 = some 0xFFFFFFFF := by decide +kernel

/-! ## Results of lane slots, worked out by hand -/

/-- R412: 1.0 + 1.0, by a carried default on the first row; R413: 2^31 wraps; R413 saturated. -/
theorem test_lane_add :
    laneAfter (withV base 4 fun _ => 0x3F800000) (.vadd (lf .f32 3 4 4)) 3 63 = some 0x40000000 ∧
    laneAfter (withV base 1 fun _ => 0x3F800000) (.vadd ⟨15, false, .f32, 3, 1, 1, 0, .k1, .none, 0, .rne, 0⟩) 3 0 = some 0x3F800000 ∧
    laneAfter (withV base 4 fun _ => 0x7FFFFFFF) (.vadd (lf .i32 3 4 4)) 3 0 = some 0xFFFFFFFE ∧
    laneAfter (withV base 4 fun _ => 0x7FFFFFFF) (.vadd (lf .i32 3 4 4 0 1)) 3 0 = some 0x7FFFFFFF ∧
    laneAfter (withV base 4 fun _ => 0x01FF7F80) (.vadd (lf .i8 3 4 4)) 3 0 = some 0x02FEFE00 := by decide +kernel
theorem test_lane_arith :
    laneAfter (withV base 4 fun _ => 0x40400000) (.vfma (lf .f32 3 4 4 4)) 3 0 = some 0x41400000 ∧
    laneAfter (withV base 4 fun _ => 0x00010002) (.vmul (lf .i16 3 4 4)) 3 0 = some 0x00010004 ∧
    laneAfter (withV base 4 fun _ => 0x80000000) (.vabs (lf .i32 3 4 0)) 3 0 = some 0x80000000 ∧
    laneAfter (withV base 4 fun _ => 0x3F800000) (.vneg (lf .f32 3 4 0)) 3 0 = some 0xBF800000 ∧
    laneAfter (withV base 4 fun _ => 0xFFFFFFFF) (.vmin (lf .i32 3 4 5)) 3 0 = some 0xFFFFFFFF ∧
    laneAfter (withV base 4 fun _ => 0xFFFFFFFF) (.vmin (lf .n32 3 4 5)) 3 0 = some 0 ∧
    laneAfter (withV base 4 fun _ => 0x80000000) (.vsra (lf .i32 3 4 4)) 3 0 = some 0x80000000 ∧
    laneAfter (withV base 4 fun _ => 0x80000021) (.vshl (lf .i32 3 4 4)) 3 0 = some 0x00000042 := by decide +kernel
theorem test_lane_unary :
    laneAfter (withV base 4 fun _ => 0x40800000) (.vsqrt (lf .f32 3 4 0)) 3 0 = some 0x40000000 ∧
    laneAfter (withV base 4 fun _ => 0x40000000) (.vrcp (lf .f32 3 4 0)) 3 0 = some 0x3F000000 ∧
    laneAfter (withV base 4 fun _ => 0x40400000) (.vexp2 (lf .f32 3 4 0)) 3 0 = some 0x41000000 ∧
    laneAfter (withV base 4 fun _ => 0x00010002) (.vclz (lf .i16 3 4 0)) 3 0 = some 0x000F000E ∧
    laneAfter (withV base 4 fun _ => 0x00FF0003) (.vpopc (lf .i8 3 4 0)) 3 0 = some 0x00080002 ∧
    laneAfter base (.viota (lf .i32 3 0 0)) 3 63 = some 63 ∧
    laneAfter base (.vli ⟨15, false, .i32, 3, 0, .imm 9⟩) 3 0 = some 9 ∧
    laneAfter (withV base 4 fun _ => 0x01020304) (.vdot4 (lf .n8 3 4 4 5)) 3 0 = some 30 := by decide +kernel
/-- R418, R424, R431: lane indices as data. -/
theorem test_lane_moves : let c := withV base 4 fun l => BitVec.ofNat 32 l
    laneAfter c (.vshf (lf .f32 3 4 0 1)) 3 63 = some 0 ∧ laneAfter c (.vshf (lf .f32 3 4 0 0x84)) 3 0 = some 16 ∧
    laneAfter c (.vshf (lf .f32 3 4 0 1 1)) 3 63 = some 0 ∧ laneAfter c (.vperm (lf .f32 3 4 4)) 3 7 = some 7 ∧
    laneAfter c (.vred (lf .i32 3 4 0)) 3 0 = some 2016 ∧ laneAfter c (.vscan (lf .i32 3 4 0)) 3 3 = some 6 ∧
    laneAfter c (.vtopk (lf .i32 8 4 10 2 0)) 8 0 = some 63 ∧ laneAfter c (.vtopk (lf .i32 8 4 10 2 0)) 10 1 = some 62 ∧
    laneAfter c (.vtopk (lf .i32 8 4 10 2 0)) 11 5 = some 2 := by decide +kernel

/-! ## Witnesses: lane faults -/

/-- LaneFaultsStopTheRow: one lane past the allocation, the highest of those of CB; the fault stops the row, in a handler it is a double
fault, behind a noted fault it gives way, and the turn that notes it notes it. -/
theorem test_wit_lane_fault : let f := lf .f32 3 4 6 0 1
    let c := oneLane (withV rowBase 4 fun _ => 0x1000) 63
    (∀ i ∈ [Instr.vld f, .vst f], RowTurn (laneDev c i) i (slotIn c i)) ∧ ∃ s1 s2 mb,
      Readable (laneDev c (.vld f)) (slotIn c (.vld f)) (.vld f) [vaOp (slotIn c (.vld f)) f.va] (ownLane 1) s1 ∧
      Readable (laneDev c (.vst f)) (slotIn c (.vst f)) (.vst f) [vaOp (slotIn c (.vst f)) f.va, vbOp (slotIn c (.vst f)) f.vb] (ownLane 2) s2 ∧
      (slotIn c (.vld f)).c.member 0 = some mb ∧ ((srcWord s1 0 63).toNat + 4 * f.vc.toNat) % 2 ^ 32 = 0x1000 ∧
      placeOf (laneDev c (.vld f)) (slotIn c (.vld f)).c 0 (laneBuf f.fn) 0x1000 4 = none ∧
      Reports [(63, 0x1000, [Cause.bufv])] .bufv 0x1000 (1#64 <<< 63) := by
  refine ⟨?_, _, _, _, ⟨rfl, by decide +kernel⟩, ⟨rfl, by decide +kernel⟩, rfl, by decide +kernel, by decide +kernel, by decide +kernel⟩
  intro i h
  rcases List.mem_cons.1 h with rfl | h
  · exact ⟨rfl, rfl, rfl, rfl, by decide +kernel, by decide +kernel⟩
  · cases List.mem_singleton.1 h
    exact ⟨rfl, rfl, rfl, rfl, by decide +kernel, by decide +kernel⟩
/-- In a handler, as an inspection slot; behind a noted fault; the turn that notes a fault of a slot with a window. -/
theorem test_wit_lane_fault_handler : let f := lf .f32 3 4 0 0 1
    let c0 := withV (oneLane inHandler 63) 4 fun _ => 0x1000
    let e : Entry := { seq := 0, esn := 0, item := .slot (.vld f) }
    let c := { c0 with channel := [(e, [0])] }
    let s := { dev c with hand := handOf e }
    ∃ r, RowTurn s (.vld f) ⟨c, r, e, true⟩ ∧ c.handler = true ∧ (RowSlot.mk c r e true).kept = none ∧
      next (exec (.vld f) s) (fun t => (t.ctxOf 0).any fun x => x.ended.any fun y => y.reason == 0x20) = true := by
  exact ⟨_, ⟨rfl, rfl, rfl, rfl, by decide +kernel, by decide +kernel⟩, rfl, rfl, by decide +kernel⟩
theorem test_wit_lane_fault_late : let f : LForm := { lf .f32 3 4 0 0 1 with la := 4 }
    let c := oneLane (withV rowBase 4 fun _ => 0x1000) 63
    let s := { laneDev c (.vld f) with hand := { handOf (entryOf (emitted c (.vld f))) with late := true } }
    let t := slotIn c (.vld f)
    RowTurn s (.vld f) t ∧ s.hand.late = true ∧ laOf (.vld f) ≠ 0 ∧ t.r.late = none ∧ t.c.handler = false ∧ t.c.halting = false ∧
      next (exec (.vld f) s) (fun u => (u.ctxOf 0).any fun x => (x.rowOf 0).any fun r => r.stop == none &&
        r.late == some (0, laneRecord t .bufv 0x1000 (1#64 <<< 63), 5)) = true := by
  exact ⟨⟨rfl, rfl, rfl, rfl, by decide +kernel, by decide +kernel⟩, rfl, by decide, rfl, rfl, rfl, by decide +kernel⟩
/-- Behind a noted fault of slot 0 the fault of slot 1, which reads a poisoned word, gives way; a slot that writes what slot 0 reads, or that
accesses memory, is not taken there (R84). -/
theorem test_wit_lane_fault_behind : let f := lf .f32 5 4 6
    let c := lateRows (emitted (emitted rowBase (.vld (lf .f32 3 4 0 0 1))) (.vadd f))
    let e := c.stream.getD 1 (entryOf c)
    let s := { dev c with hand := handOf e, poison := [.vreg 0 0 6 9] }
    ∃ r, RowTurn s (.vadd f) ⟨c, r, e, false⟩ ∧ r.late = some (0, lateTrap, 5) ∧
      (∀ i ∈ [Instr.vadd (lf .f32 4 5 6), .vld (lf .f32 5 6 0 0 1), .vcmp (lf .f32 5 4 6)],
        let c := lateRows (emitted (emitted rowBase (.vld (lf .f32 3 4 0 0 1))) i)
        (c.rowOf 0).all (fun r => !c.rowReady r (c.stream.getD 1 (entryOf c))) = true) ∧
      next (exec (.vadd f) s) (fun u => (u.ctxOf 0).any fun x => (x.rowOf 0).any fun r => r.stop == some (0, lateTrap) && x.halting) = true := by
  exact ⟨_, ⟨rfl, rfl, rfl, rfl, by decide +kernel, by decide +kernel⟩, rfl, by decide +kernel, by decide +kernel⟩

/-- The row's own lanes at four addresses: clean, misaligned, unmapped, unmapped. -/
def spread : Ctx := withV rowBase 6 fun l => if l = 1 then 0x20001 else if l = 2 ∨ l = 63 then 0x60000 else 0x20000
def faultAfter (s : State) (i : Instr) : Option Trap :=
  match exec i s with
  | .next t => (t.ctxOf 0).bind fun x => (x.rowOf 0).bind fun r => r.stop.map fun y => y.2
  | _ => none
theorem test_wit_unit_faults : let f := lf .f32 3 6 4 0 0
    let s := { laneDev spread (.vldg f) with domains := [(0, 0x40000)] }
    let t := slotIn spread (.vldg f)
    RowTurn s (.vldg f) t ∧ t.kept = none ∧ ∃ srcs, Readable s t (.vldg f) (pairOps t f.va) (ownLane 2) srcs ∧
      (let unit := fun l => laneUnit s t.c.domain (!t.insp) .load (pageUnit f.t) l
        (((srcWord srcs 1 l).toNat * 2 ^ 32 + (srcWord srcs 0 l).toNat + 4 * f.vc.toNat) % 2 ^ 64)
       Reports ((List.range 64).map fun l => (l, (unit l).2.va, (unit l).1)) .nomap 0x60000 0x8000000000000004) := by
  exact ⟨⟨rfl, rfl, rfl, rfl, by decide +kernel, by decide +kernel⟩, rfl, _, ⟨rfl, by decide +kernel⟩, by decide +kernel⟩
/-- Stores to a page without W, atomics at an address that is not aligned, SADV at a stream that nothing maps. -/
theorem test_wit_unit_faults_others :
    (let f := lf .f32 0 6 4 0 0
     let c := withV rowBase 6 fun _ => 0x30000
     let s := { moreDev (emitted c (.vstg f)) with hand := handOf (entryOf (emitted c (.vstg f))) }
     (RowTurn s (.vstg f) (slotIn c (.vstg f))) ∧ ∃ srcs,
       Readable s (slotIn c (.vstg f)) (.vstg f) (pairOps (slotIn c (.vstg f)) f.va ++ [vbOp (slotIn c (.vstg f)) f.vb]) (ownLane 3) srcs) ∧
    (let f := lf .i32 3 6 4 0 0
     RowTurn (laneDev spread (.vamo f)) (.vamo f) (slotIn spread (.vamo f)) ∧ ∃ srcs,
       Readable (laneDev spread (.vamo f)) (slotIn spread (.vamo f)) (.vamo f)
         (pairOps (slotIn spread (.vamo f)) f.va ++ [vbOp (slotIn spread (.vamo f)) f.vb] ++ []) (ownLane 3) srcs) := by
  exact ⟨⟨⟨rfl, rfl, rfl, rfl, by decide +kernel, by decide +kernel⟩, _, rfl, by decide +kernel⟩,
    ⟨rfl, rfl, rfl, rfl, by decide +kernel, by decide +kernel⟩, _, rfl, by decide +kernel⟩
def farStream : Ctx := base.setStream 3 ⟨0x60000, 3, false, true, 0⟩
theorem test_unit_faults :
    (let c := withV rowBase 6 fun _ => 0x30000
     let i : Instr := .vstg (lf .f32 0 6 4 0 0)
     faultAfter { moreDev (emitted c i) with hand := handOf (entryOf (emitted c i)) } i =
       some (laneRecord (slotIn c i) .perm 0x30000 (BitVec.allOnes 64))) ∧
    (let i : Instr := .vamo (lf .i32 3 6 4 0 0)
     faultAfter { laneDev (oneLane spread 1) i with domains := [(0, 0x40000)] } i = some (laneRecord (slotIn spread i) .align 0x20001 2)) ∧
    (let i : Instr := .sadv (lf .i32 3 3 0)
     faultAfter { laneDev farStream i with domains := [(0, 0x40000)] } i = some (laneRecord (slotIn farStream i) .nomap 0x60000 7)) := by
  decide +kernel
theorem test_wit_unit_causes :
    (∃ e, lookup (moreDev base) 0 0x60000 = .error e ∧ e.cause = .nomap) ∧
    lookup (moreDev base) 0 0x50000 = .ok badPage ∧ (badPage.loc 0x50000).mappable Fenced.clear = false ∧
    lookup (moreDev base) 0 0x20001 = .ok page ∧ (page.loc 0x20001).mappable Fenced.clear = true ∧ 0x20001 % 4 ≠ 0 ∧
    (laneUnit (moreDev base) 0 true .store (fun _ => ⟨4, 4, false⟩) 5 0x30001).1 = [.align, .perm, .fmtf] := by
  refine ⟨⟨_, rfl, rfl⟩, rfl, by decide +kernel, rfl, ?_⟩
  decide +kernel
/-- A poisoned word of an operand in lanes 5 and 9, of a buffer, of memory. -/
theorem test_wit_poisoned_source : let i := Instr.vadd (lf .f32 3 4 6)
    let s := { laneDev rowBase i with poison := [.vreg 0 0 6 9, .vreg 0 0 6 5] }
    let t := slotIn rowBase i
    RowTurn s i t ∧ (elementwise i).isSome = true ∧ ∃ srcs, sources s t 0 [vaOp t 4, vbOp t 6] = some srcs ∧
      ReadsPoison (t.part i) srcs 0x220 6 := by
  exact ⟨⟨rfl, rfl, rfl, rfl, by decide +kernel, by decide +kernel⟩, rfl, _, rfl, by decide +kernel,
    ⟨5, by decide, by decide, by decide, by decide +kernel⟩⟩
theorem test_wit_poisoned_word :
    (let f := lf .f32 3 4 0 0 1
     let c := oneLane rowBase 1
     ∃ mb s1, (slotIn c (.vld f)).c.member 0 = some mb ∧
       OffsetsClear { laneDev c (.vld f) with poison := [.buf 0 0 .wb 4] } (slotIn c (.vld f)) .wb false [(1, 4)] mb ∧
       touchAll { laneDev c (.vld f) with poison := [.buf 0 0 .wb 4] } (slotIn c (.vld f)).c 0 .wb 4 [4] = .ready s1 ∧
       poisonedOffset s1 (slotIn c (.vld f)) .wb [(1, 4)] = some (4, 2)) ∧
    (let f := lf .f32 3 6 0 0
     let s := { laneDev rowBase (.vldg f) with poison := [.mem 0x20008] }
     ∃ srcs mb us, Readable s (slotIn rowBase (.vldg f)) (.vldg f) (pairOps (slotIn rowBase (.vldg f)) f.va) (ownLane 2) srcs ∧
       UnitsClear s (slotIn rowBase (.vldg f)) .load false (pageUnit f.t)
         (laneAddrs ((slotIn rowBase (.vldg f)).part (.vldg f)) srcs 0) (fun _ _ => []) mb us ∧
       poisonedView s mb us = some (0x20008, 4)) := by
  exact ⟨⟨_, _, rfl, ⟨rfl, by decide +kernel, by decide +kernel⟩, rfl, by decide +kernel⟩,
    _, _, _, ⟨rfl, by decide +kernel⟩,
    ⟨rfl, .inr ⟨rfl, rfl, by decide +kernel, fun _ _ => rfl⟩, rfl, by decide +kernel, fun _ => by decide +kernel, by decide +kernel⟩,
    by decide +kernel⟩
theorem test_poisoned_words :
    (let i : Instr := .vadd (lf .f32 3 4 6)
     faultAfter { laneDev rowBase i with poison := [.vreg 0 0 6 9, .vreg 0 0 6 5] } i = some (laneRecord (slotIn rowBase i) .mchk 6 0x220)) ∧
    (let i : Instr := .vld (lf .f32 3 4 0 0 1)
     faultAfter { laneDev (oneLane rowBase 1) i with poison := [.buf 0 0 .wb 4] } i =
       some (laneRecord (slotIn rowBase i) .mchk 0x1000000000000004 2)) ∧
    (let i : Instr := .vamo (lf .i32 3 6 4 0 0)
     faultAfter { laneDev rowBase i with poison := [.mem 0x20008] } i = some (laneRecord (slotIn rowBase i) .mchk 0x5000000000020008 4)) ∧
    (let i : Instr := .sadv (lf .i32 3 3 0)
     faultAfter { laneDev streamed i with poison := [.mem 0x23008] } i = some (laneRecord (slotIn streamed i) .mchk 0x5000000000023008 2)) := by
  decide +kernel

/-! ## Witnesses: engine commands -/

/-- The context with buffers of full size, handle 5 over 256 raw bytes at 0x20000, streams 0 and 1 open on two elements each, active
weights of SX2. -/
def big : Ctx :=
  let p := launch1.params
  let c := freshCtx { launch1 with params := { p with wb := 0x400000, ab := 0x400000, cb := 0x180000 } } 0 [[0]]
  let c := (c.setStream 0 ⟨0x23000, 2, true, true, 0⟩).setStream 1 ⟨0x24000, 2, true, true, 0⟩
  match c.member 0 with
  | some mb => c.putMember 0 { mb with handles := mb.handles.setIfInBounds 5 (0x20000 + 2 ^ 192 * 16), bank := { mb.bank with active := ⟨1, []⟩ } }
  | none => c
/-- A command handed over and not started on its member 0. -/
def cmdCtx (i : Instr) (g : Engine) : Ctx :=
  let c := emitted big i
  match c.member 0 with
  | some mb =>
    let cmd : Cmd := { e := entryOf c, copied := (copiedRegs State.reset c 0 i).1, held := false, st := .queued }
    c.putMember 0 ({ mb with handed := (entryOf c).seq + 1 }.setQueue g [cmd])
  | none => c
def cmdDev (i : Instr) (g : Engine) : State :=
  { dev (cmdCtx i g) with hand := handOf (entryOf (emitted big i)), mem := Memory.writeN (Memory.writeN [] 0x23000 [3, 0, 0, 0, 9, 0, 0, 0, 5]) 0x24000 [3, 0, 0, 0, 8, 0, 0, 0, 7] }

/-- What the engine's turn finds. -/
def viewOf (s : State) (g : Engine) (i : Instr) : EngineView :=
  let c0 := (s.ctxOf 0).getD base
  let mb0 := (c0.member 0).getD (freshMember launch1.params 0)
  let x := (cmdInHand s mb0 g i).getD ⟨entryOf base, [], false, .queued, [], none, []⟩
  let s0 := ((ensureBoard (engineMemory s g) c0 0 mb0 x.e i).getD (s, false)).1
  let s1 := bindBank s0 0 0 g
  let c := (s1.ctxOf 0).getD base
  ⟨c0, mb0, x, s0, s1, c, (c.member 0).getD mb0⟩

/-- Four literal parameters. -/
def ef (fn : BitVec 4) (head : BitVec 32) (p0 p1 p2 p3 : DWord) : EForm := ⟨fn, 7, head, .lit p0, .lit p1, .lit p2, .lit p3⟩

def cpyG : EForm := ef 2 1 0x100 0x20080 16 0
theorem test_wit_cpy : let v := viewOf (cmdDev (.cpy cpyG) .copy) .copy (.cpy cpyG)
    ∃ dst src s2, EngineTurn (cmdDev (.cpy cpyG) .copy) .copy (.cpy cpyG) v ∧
    cpyRangeBad v.s1 v.c 0 cpyG = none ∧ cpyLocs v.s1 v.c (cpyDst cpyG.fn) 0x100 16 .store = .ok dst ∧
    cpyLocs v.s1 v.c (cpySrc cpyG.fn) 0x20080 16 .load = .ok src ∧ touchRanges v.c 0 (cpyBufs cpyG) v.s1 = .ready s2 ∧
    ∀ l ∈ src, s2.memPoisoned (l.on 0) = false := by
  exact ⟨_, _, _, ⟨⟨rfl, rfl, rfl, rfl, rfl, nofun, rfl, rfl, rfl, rfl⟩, rfl⟩, by decide +kernel, rfl, rfl, rfl, by decide +kernel⟩
def cpyBad : EForm := ef 2 1 0x3FFFF8 0x20080 16 0
theorem test_wit_cpy_range : let v := viewOf (cmdDev (.cpy cpyBad) .copy) .copy (.cpy cpyBad)
    EngineTurn (cmdDev (.cpy cpyBad) .copy) .copy (.cpy cpyBad) v ∧
    cpyRangeBad v.s1 v.c 0 cpyBad = some 0x3FFFF8 := by
  exact ⟨⟨⟨rfl, rfl, rfl, rfl, rfl, nofun, rfl, rfl, rfl, rfl⟩, rfl⟩, by decide +kernel⟩

/-- FHDL of a descriptor of raw blocks; FGAT of one piece of block 0 through handle 5. -/
def fhdlG : EForm := ef 0 63 0x20000 0 0 0
def descMem : List Byte := [0, 0, 2, 0, 0, 0, 0, 0] ++ List.replicate 16 0 ++ [16, 0, 0, 0, 0, 0, 0, 0]
def fhdlDev : State := { cmdDev (.fhdl fhdlG) .fetch with mem := Memory.writeN [] 0x20000 descMem }
theorem test_wit_fhdl : let v := viewOf fhdlDev .fetch (.fhdl fhdlG)
    EngineTurn fhdlDev .fetch (.fhdl fhdlG) v ∧ (fetchRead v.s1 v.c (v.x.port v.mb) 0x20000 32).toOption = some descMem ∧ handleBad (BitVec.ofNat 256 (leNat descMem)) = false := by
  exact ⟨⟨⟨rfl, rfl, rfl, rfl, rfl, nofun, rfl, rfl, rfl, rfl⟩, rfl⟩, by decide +kernel, by decide +kernel⟩
def fgatG : EForm := ef 0 0x00040500 0x100 64 1 0
theorem test_wit_fgat : let v := viewOf (cmdDev (.fgat fgatG) .fetch) .fetch (.fgat fgatG)
    ∃ s2, EngineTurn (cmdDev (.fgat fgatG) .fetch) .fetch (.fgat fgatG) v ∧ fgatBad v.s1 v.c 0 fgatG = none ∧
    v.x.spoiled = none ∧ touchRanges v.c 0 [(.ab, 0x100, 64)] v.s1 = .ready s2 ∧ v.x.copied.length = 2 ∧
    ((v.x.copied.getD 0 (Lanes.fill 0)).get 0).toNat < (handleOf (handleAt v.mb 5)).count ∧
    ((v.x.copied.getD 1 (Lanes.fill 0)).get 0).toNat + 64 ≤ 2 ^ (handleOf (handleAt v.mb 5)).logb ∧
    (fetchBlock s2 v.c (v.x.port v.mb) (handleOf (handleAt v.mb 5)) 5 0 false).toOption = some (List.replicate 128 0) := by
  exact ⟨_, ⟨⟨rfl, rfl, rfl, rfl, rfl, nofun, rfl, rfl, rfl, rfl⟩, rfl⟩, by decide +kernel, rfl, rfl, by decide +kernel,
    by decide +kernel, by decide +kernel, by decide +kernel⟩

/-- SparseCommands: the four merges of two streams with values, room for two entries; SPRD and SCHK of the smallest shapes. -/
theorem test_wit_merge : ∀ z ∈ [(Instr.sisec (ef 0 8 0x100 2 0 0), MergeOp.isec), (.sunion (ef 1 8 0x100 2 0 0), .union),
      (.sdiff (ef 2 8 0x100 2 0 0), .diff), (.smadd (ef 3 8 0x100 2 0 0), .madd)],
    let v := viewOf (cmdDev z.1 .fetch) .fetch z.1
    ∃ p q s2, EngineTurn (cmdDev z.1 .fetch) .fetch z.1 v ∧ v.x.e.streams = [p, q] ∧ p.val = true ∧ q.val = true ∧
      (placeOf v.s1 v.c 0 .ab 0x100 24).isSome = true ∧ touchRanges v.c 0 [(.ab, 0x100, 24)] v.s1 = .ready s2 ∧
      (mergeWalk s2 v.c (v.x.port v.mb) z.2 2 p q (p.len + q.len + 1) ⟨p.cur, q.cur, none, none, [], 0⟩).2.isNone = true := by
  intro z hz
  simp only [List.mem_cons, List.not_mem_nil, or_false] at hz
  rcases hz with rfl | rfl | rfl | rfl <;>
    exact ⟨_, _, _, ⟨⟨rfl, rfl, rfl, rfl, rfl, nofun, rfl, rfl, rfl, rfl⟩, rfl⟩, rfl, rfl, rfl, by decide +kernel, rfl, by decide +kernel⟩
/-- What a command leaves in AB, worked out by hand: keys 3 and 5 with 9 and 0, keys 3 and 7 with 8 and 0. -/
def abAfter (i : Instr) : Option (List Byte) :=
  match exec i (cmdDev i .fetch) with
  | .next t => ((t.ctxOf 0).bind fun c => c.member 0).map fun m => Memory.readN m.ab.cells 0x100 24
  | _ => none
theorem test_merges : abAfter (.sisec (ef 0 8 0x100 2 0 0)) = some ([1, 0, 0, 0, 0, 0, 0, 0, 3, 0, 0, 0, 9, 0, 0, 0] ++ List.replicate 8 0) ∧
    abAfter (.sunion (ef 1 8 0x100 2 0 0)) = some ([3, 0, 0, 0, 0, 0, 0, 0, 3, 0, 0, 0, 9, 0, 0, 0, 5] ++ List.replicate 7 0) ∧
    abAfter (.sdiff (ef 2 8 0x100 2 0 0)) = some ([1, 0, 0, 0, 0, 0, 0, 0, 5] ++ List.replicate 15 0) := by decide +kernel


/-- CopyCommand, the early faults: an entry of an earlier command stands against the destination; the source is mapped, or not. -/
def cmdBehind (b : BoardEntry) (i : Instr) (g : Engine) : Ctx :=
  let c := emitted { big with nextSeq := 1 } i
  match c.member 0 with
  | some mb =>
    let cmd : Cmd := { e := entryOf c, copied := [], held := false, st := .queued }
    c.putMember 0 ({ mb with handed := 2, board := [b] }.setQueue g [cmd])
  | none => c
def devBehind (b : BoardEntry) (i : Instr) (g : Engine) : State :=
  { dev (cmdBehind b i g) with hand := handOf (entryOf (cmdBehind b i g)), domains := [(0, 0x40000)] }
def standing : BoardEntry := ⟨0, .fetch, some ⟨.buf .ab, 0x108, 4⟩, []⟩
def cpyFar : EForm := ef 2 1 0x100 0x2FFF8 16 0
theorem test_wit_cpy_early :
    (let s := devBehind standing (.cpy cpyG) .copy
     let v := viewOf s .copy (.cpy cpyG)
     ∃ s0 dst src, s.ctxOf s.hand.ctx = some v.c0 ∧ v.c0.member 0 = some v.mb0 ∧ cmdInHand s v.mb0 .copy (.cpy cpyG) = some v.x ∧
       v.c0.switch = .inside ∧ ensureBoard (engineMemory s .copy) v.c0 0 v.mb0 v.x.e (.cpy cpyG) = some (s0, false) ∧ cpyRangeBad s0 v.c0 0 cpyG = none ∧
       cpyLocs s0 v.c0 (cpyDst cpyG.fn) 0x100 16 .store = .ok dst ∧ cpyLocs s0 v.c0 (cpySrc cpyG.fn) 0x20080 16 .load = .ok src) ∧
    (let s := devBehind standing (.cpy cpyFar) .copy
     let v := viewOf s .copy (.cpy cpyFar)
     ∃ s0 e va, ensureBoard s v.c0 0 v.mb0 v.x.e (.cpy cpyFar) = some (s0, false) ∧ cpyRangeBad s0 v.c0 0 cpyFar = none ∧
       cpyLocs s0 v.c0 (cpySrc cpyFar.fn) 0x2FFF8 16 .load = .error (e, va) ∧ va = 0x30000) := by
  exact ⟨⟨_, _, _, rfl, rfl, rfl, rfl, rfl, by decide +kernel, rfl, rfl⟩, _, _, _, rfl, by decide +kernel, rfl, rfl⟩
/-- Translation faults of the destination and of the source, and the line of the source that a turn reads ahead. -/
def cpyOut : EForm := ef 8 1 0x60000 0x100 16 0
theorem test_wit_cpy_pages :
    (let s := { cmdDev (.cpy cpyFar) .copy with domains := [(0, 0x40000)] }
     let v := viewOf s .copy (.cpy cpyFar)
     ∃ e va dst, EngineTurn s .copy (.cpy cpyFar) v ∧ cpyRangeBad v.s1 v.c 0 cpyFar = none ∧
       cpyLocs v.s1 v.c (cpyDst cpyFar.fn) 0x100 16 .store = .ok dst ∧ cpyLocs v.s1 v.c (cpySrc cpyFar.fn) 0x2FFF8 16 .load = .error (e, va)) ∧
    (let s := { cmdDev (.cpy cpyOut) .copy with domains := [(0, 0x40000)] }
     let v := viewOf s .copy (.cpy cpyOut)
     ∃ e va, EngineTurn s .copy (.cpy cpyOut) v ∧ cpyRangeBad v.s1 v.c 0 cpyOut = none ∧
       cpyLocs v.s1 v.c (cpyDst cpyOut.fn) 0x60000 16 .store = .error (e, va)) := by
  exact ⟨⟨_, _, _, ⟨⟨rfl, rfl, rfl, rfl, rfl, nofun, rfl, rfl, rfl, rfl⟩, rfl⟩, by decide +kernel, rfl, rfl⟩,
    _, _, ⟨⟨rfl, rfl, rfl, rfl, rfl, nofun, rfl, rfl, rfl, rfl⟩, rfl⟩, by decide +kernel, rfl⟩
def partDev (i : Instr) (g : Engine) (line : Nat) : State :=
  let s := cmdDev i g
  { s with hand := { s.hand with part := some line } }
theorem test_wit_cpy_ahead : let s := partDev (.cpy cpyG) .copy 0x20080
    EngineFront s .copy (.cpy cpyG) (viewOf s .copy (.cpy cpyG)) ∧ s.hand.part = some 0x20080 ∧
      next (exec (.cpy cpyG) s) (fun t => !t.waited && (t.ctxOf 0).any fun c => (c.member 0).any fun mb =>
        mb.copyQ.any fun x => x.got.any fun y => y.pa == 0x20080) = true := by
  exact ⟨⟨rfl, rfl, rfl, rfl, rfl, nofun, rfl, rfl, rfl, rfl⟩, rfl, by decide +kernel⟩

/-- HandleAndGatherCommands, the faults: a descriptor with a reserved bit, a P0 that is no multiple of 32, one that nothing maps; a piece
whose block is the count, one whose offset passes the block by a byte, a destination past the end. -/
def engineFaultAfter (s : State) (i : Instr) : Option Trap :=
  match exec i s with
  | .next t => ((t.ctxOf 0).bind fun c => c.member 0).bind fun mb => (mb.fetchQ ++ mb.copyQ ++ mb.storageQ ++ mb.bank.queue).findSome? fun x =>
      match x.st with
      | .faulted t => some t
      | _ => none
  | _ => none
def badDesc : State := { cmdDev (.fhdl fhdlG) .fetch with mem := Memory.writeN [] 0x20000 (descMem.set 31 0x80) }
theorem test_wit_fhdl_bad :
    (EngineTurn badDesc .fetch (.fhdl fhdlG) (viewOf badDesc .fetch (.fhdl fhdlG)) ∧
      handleBad (BitVec.ofNat 256 (leNat (descMem.set 31 0x80))) = true) ∧
    (let x := ef 0 63 0x20010 0 0 0
     EngineTurn (cmdDev (.fhdl x) .fetch) .fetch (.fhdl x) (viewOf (cmdDev (.fhdl x) .fetch) .fetch (.fhdl x)) ∧ pval x.p0 % 32 ≠ 0) ∧
    (let x := ef 0 63 0x60000 0 0 0
     let s := { cmdDev (.fhdl x) .fetch with domains := [(0, 0x40000)] }
     let v := viewOf s .fetch (.fhdl x)
     EngineTurn s .fetch (.fhdl x) v ∧ ∃ k va, fetchRead v.s1 v.c (v.x.port v.mb) 0x60000 32 = .error (k, va)) := by
  exact ⟨⟨⟨⟨rfl, rfl, rfl, rfl, rfl, nofun, rfl, rfl, rfl, rfl⟩, rfl⟩, by decide +kernel⟩,
    ⟨⟨⟨rfl, rfl, rfl, rfl, rfl, nofun, rfl, rfl, rfl, rfl⟩, rfl⟩, by decide⟩,
    ⟨⟨rfl, rfl, rfl, rfl, rfl, nofun, rfl, rfl, rfl, rfl⟩, rfl⟩, _, _, rfl⟩
/-- FGAT of two pieces whose blocks and offsets are in registers 4 and 5. -/
def gathering (block off : Nat → Word) : Ctx :=
  { big with rows := (withV (withV big 4 block) 5 off).rows }
def gatherDev (block off : Nat → Word) (x : EForm) : State :=
  let c := emitted (gathering block off) (.fgat x)
  match c.member 0 with
  | some mb =>
    let cmd : Cmd := { e := entryOf c, copied := (copiedRegs State.reset c 0 (.fgat x)).1, held := false, st := .queued }
    { dev (c.putMember 0 { mb with handed := 1, fetchQ := [cmd] }) with hand := handOf (entryOf c), mem := Memory.writeN [] 0x20000 [1] }
  | none => State.reset
def fgat2 : EForm := ef 0 0x00040500 0x100 64 2 0
theorem test_wit_fgat_faults : ∀ z ∈ [((fun l => if l = 1 then 16 else 0 : Nat → Word), (fun _ => 0 : Nat → Word), 16),
      ((fun _ => 0), (fun l => if l = 1 then 65 else 64), 65)],
    let s := gatherDev z.1 z.2.1 fgat2
    let v := viewOf s .fetch (.fgat fgat2)
    ∃ s2, EngineTurn s .fetch (.fgat fgat2) v ∧ fgatBad v.s1 v.c 0 fgat2 = none ∧ v.x.spoiled = none ∧
      touchRanges v.c 0 [(.ab, 0x100, 128)] v.s1 = .ready s2 ∧ engineFaultAfter s (.fgat fgat2) = some (engineTrap v.x.e .frange z.2.2 2) := by
  intro z hz
  simp only [List.mem_cons, List.not_mem_nil, or_false] at hz
  rcases hz with rfl | rfl <;>
    exact ⟨_, ⟨⟨rfl, rfl, rfl, rfl, rfl, nofun, rfl, rfl, rfl, rfl⟩, rfl⟩, by decide +kernel, rfl, rfl, by decide +kernel⟩
def fgatPast : EForm := ef 0 0x00040500 0x3FFFC8 64 1 0
theorem test_wit_fgat_range : EngineTurn (cmdDev (.fgat fgatPast) .fetch) .fetch (.fgat fgatPast) (viewOf (cmdDev (.fgat fgatPast) .fetch) .fetch (.fgat fgatPast)) ∧
    (fgatBad (viewOf (cmdDev (.fgat fgatPast) .fetch) .fetch (.fgat fgatPast)).s1 (viewOf (cmdDev (.fgat fgatPast) .fetch) .fetch (.fgat fgatPast)).c 0 fgatPast).isSome = true := by
  exact ⟨⟨⟨rfl, rfl, rfl, rfl, rfl, nofun, rfl, rfl, rfl, rfl⟩, rfl⟩, by decide +kernel⟩

/-- SparseCommands, the faults of a merge: a destination that is not aligned, a capacity past the limit, room too small by a byte, a stream
that nothing maps. -/
theorem test_wit_merge_faults : ∀ x ∈ [ef 0 8 0x104 2 0 0, ef 0 8 0x100 0x100001 0 0, ef 0 8 0x3FFFF0 2 0 0],
    let s := cmdDev (.sisec x) .fetch
    let v := viewOf s .fetch (.sisec x)
    EngineTurn s .fetch (.sisec x) v ∧ (pval x.p0 % 8 ≠ 0 ∨ 2 ^ 20 < pval x.p1 ∨ placeOf v.s1 v.c 0 .ab (pval x.p0) (8 + pval x.p1 * 8) = none) ∧
      engineFaultAfter s (.sisec x) = some (engineTrap v.x.e .frange (pval x.p0) 0) := by
  intro x hx
  simp only [List.mem_cons, List.not_mem_nil, or_false] at hx
  rcases hx with rfl | rfl | rfl <;>
    exact ⟨⟨⟨rfl, rfl, rfl, rfl, rfl, nofun, rfl, rfl, rfl, rfl⟩, rfl⟩, by decide +kernel, by decide +kernel⟩
theorem test_wit_merge_walk : let x := ef 0 8 0x100 2 0 0
    let s := { cmdDev (.sisec x) .fetch with domains := [(0, 0x40000)], tlb := [(0, probeXlat)] }
    let v := viewOf s .fetch (.sisec x)
    ∃ p q s2, EngineTurn s .fetch (.sisec x) v ∧ v.x.e.streams = [p, q] ∧ touchRanges v.c 0 [(.ab, 0x100, 24)] v.s1 = .ready s2 ∧
      (mergeWalk s2 v.c (v.x.port v.mb) .isec 2 p q (p.len + q.len + 1) ⟨p.cur, q.cur, none, none, [], 0⟩).2 = some (.nomap, 0x23000) := by
  exact ⟨_, _, _, ⟨⟨rfl, rfl, rfl, rfl, rfl, nofun, rfl, rfl, rfl, rfl⟩, rfl⟩, rfl, rfl, by decide +kernel⟩
/-- The walk of SISEC over keys 3, 5 and 3, 7. -/
def keys (base : Nat) : StreamPos := ⟨base, 2, false, true, 0⟩
def keyDev : State := { dev base with mem := Memory.writeN (Memory.writeN [] 0x23000 [3, 0, 0, 0, 5]) 0x24000 [3, 0, 0, 0, 7] }
theorem test_wit_merge_keys : (keys 0x23000).val = false ∧ [3, 5].Pairwise (· < ·) ∧ [3, 7].Pairwise (· < ·) ∧
    (∀ k, k < 2 → (fetchRead keyDev base ⟨0, []⟩ (0x23000 + k * 4) 4).toOption = some (leBytes 4 ([3, 5].getD k 0))) ∧
    (∀ k, k < 2 → (fetchRead keyDev base ⟨0, []⟩ (0x24000 + k * 4) 4).toOption = some (leBytes 4 ([3, 7].getD k 0))) ∧
    (mergeWalk keyDev base ⟨0, []⟩ .isec 4 (keys 0x23000) (keys 0x24000) 5 ⟨0, 0, none, none, [], 0⟩).1.out.reverse.map (fun y => y.1) = [3] := by
  refine ⟨rfl, by decide, by decide, ?_, ?_, ?_⟩ <;> decide +kernel
theorem test_wit_sprd : let x := ef 0 0 0x100 0 0x1000 0x2000
    let v := viewOf (cmdDev (.sprd x) .fetch) .fetch (.sprd x)
    let ranges : List (Buf × Nat × Nat) := [(.ab, 0x100, 32), (.wb, 0, 192), (.wb, 0x1000, 192), (.ab, 0x2000, 76)]
    ∃ s2, EngineTurn (cmdDev (.sprd x) .fetch) .fetch (.sprd x) v ∧ headD x.head = 16 ∧ headF x.head = 16 ∧ headR x.head = 16 ∧
      RangesFit v.s1 v.c 0 ranges ∧ touchRanges v.c 0 ranges v.s1 = .ready s2 ∧ enginePoison s2 v.c 0 (ranges.take 3) = none := by
  exact ⟨_, ⟨⟨rfl, rfl, rfl, rfl, rfl, nofun, rfl, rfl, rfl, rfl⟩, rfl⟩, rfl, rfl, rfl, by decide +kernel, rfl, by decide +kernel⟩
theorem test_wit_schk : let x := ef 0 0x01400000 0x100 0x200 0x300 0
    let v := viewOf (cmdDev (.schk x) .fetch) .fetch (.schk x)
    let ranges : List (Buf × Nat × Nat) := [(.ab, 0x100, 32), (.ab, 0x200, 8), (.ab, 0x300, 68)]
    let h := handleOf (handleAt v.mb 5)
    ∃ s2, EngineTurn (cmdDev (.schk x) .fetch) .fetch (.schk x) v ∧ x.head.toNat / 2 ^ 22 % 64 = 5 ∧ RangesFit v.s1 v.c 0 ranges ∧
      h.kind = 0 ∧ h.dir = 0 ∧ h.count ≠ 0 ∧ touchRanges v.c 0 ranges v.s1 = .ready s2 ∧ enginePoison s2 v.c 0 (ranges.take 2) = none ∧
      (schkRows s2 v.c (v.x.port v.mb) h 16 (f16Row (bufRead s2 v.c 0 .ab 0x100 32)) 0 (FVal.decode fmtF16 v.x.e.beta.toNat) 16 0 []).toOption = some [] := by
  exact ⟨_, ⟨⟨rfl, rfl, rfl, rfl, rfl, nofun, rfl, rfl, rfl, rfl⟩, rfl⟩, by decide +kernel, by decide +kernel, by decide +kernel, by decide +kernel,
    by decide +kernel, rfl, by decide +kernel, by decide +kernel⟩

/-- MatrixCommands: each command in a bank of an owner. -/
theorem test_wit_mldw : let x := ef 5 0 0x3E0000 0 0 0
    let v := viewOf (cmdDev (.mldw x) .matrix) .matrix (.mldw x)
    ∃ s2, tileBytes x.fn.toNat = 0x20000 ∧ EngineTurn (cmdDev (.mldw x) .matrix) .matrix (.mldw x) v ∧
      (placeOf v.s1 v.c 0 .wb 0x3E0000 0x20000).isSome = true ∧ v.x.held = false ∧ MatrixClear v.s1 v.c 0 v.mb (.mldw x) s2 := by
  exact ⟨_, rfl, ⟨⟨rfl, rfl, rfl, rfl, rfl, fun _ => ⟨rfl, by decide +kernel⟩, rfl, rfl, rfl, rfl⟩, rfl⟩, by decide +kernel, rfl,
    ⟨rfl, by decide +kernel, _, rfl, by decide +kernel, rfl⟩⟩
theorem test_wit_bank : ∀ i ∈ [Instr.mswp (ef 0 0 0 0 0 0), .mclr (ef 0 0 0 0 0 0), .mscl (ef 1 0 0x3FFE00 0 0 0)],
    let v := viewOf (cmdDev i .matrix) .matrix i
    ∃ s2, EngineTurn (cmdDev i .matrix) .matrix i v ∧ (placeOf v.s1 v.c 0 .wb 0x3FFE00 512).isSome = true ∧
      MatrixClear v.s1 v.c 0 v.mb i s2 := by
  intro i hi
  simp only [List.mem_cons, List.not_mem_nil, or_false] at hi
  rcases hi with rfl | rfl | rfl <;>
    exact ⟨_, ⟨⟨rfl, rfl, rfl, rfl, rfl, fun _ => ⟨rfl, by decide +kernel⟩, rfl, rfl, rfl, rfl⟩, rfl⟩, by decide +kernel,
      ⟨rfl, by decide +kernel, _, rfl, by decide +kernel, rfl⟩⟩
theorem test_wit_mma : let x := ef 0 2 0x3FFF80 0x17F800 1 0
    let v := viewOf (cmdDev (.mma x) .matrix) .matrix (.mma x)
    ∃ s2, EngineTurn (cmdDev (.mma x) .matrix) .matrix (.mma x) v ∧ mmaCheck v.s1 v.c 0 v.mb (.mma x) x = none ∧ v.x.spoiled = none ∧
      v.x.held = false ∧ MatrixClear v.s1 v.c 0 v.mb (.mma x) s2 := by
  exact ⟨_, ⟨⟨rfl, rfl, rfl, rfl, rfl, fun _ => ⟨rfl, by decide +kernel⟩, rfl, rfl, rfl, rfl⟩, rfl⟩, by decide +kernel, rfl, rfl,
    ⟨rfl, by decide +kernel, _, rfl, by decide +kernel, rfl⟩⟩
/-- MMAS needs 128 registers of metadata and weights of its format; every field holds the positions 0, 1, 2, 3. -/
def metaCtx (i : Instr) : Ctx :=
  let p := launch1.params
  let c := freshCtx { launch1 with params := { p with regs := 128, ab := 0x1000, cb := 0x1000 } } 0 [[0]]
  let c := { c with rows := c.rows.map fun r => { r with regs := r.regs.map fun _ => ⟨Lanes.fill 0x06880688, .g⟩ } }
  let c := emitted c i
  match c.member 0 with
  | some mb =>
    let cmd : Cmd := { e := entryOf c, copied := (copiedRegs State.reset c 0 i).1, held := false, st := .queued }
    c.putMember 0 ({ mb with handed := (entryOf c).seq + 1, bank := { mb.bank with active := ⟨2, []⟩ } }.setQueue .matrix [cmd])
  | none => c
def metaDev (i : Instr) : State := { dev (metaCtx i) with hand := { ctx := 0, member := 0, row := 0, entry := none } }
theorem test_wit_mmas : let x := ef 1 2 0 0 1 0
    let v := viewOf (metaDev (.mmas x)) .matrix (.mmas x)
    ∃ s2, EngineTurn (metaDev (.mmas x)) .matrix (.mmas x) v ∧ mmaCheck v.s1 v.c 0 v.mb (.mmas x) x = none ∧ v.x.spoiled = none ∧
      metaBad v.x.copied = none ∧ v.x.held = false ∧ MatrixClear v.s1 v.c 0 v.mb (.mmas x) s2 := by
  exact ⟨_, ⟨⟨rfl, rfl, rfl, rfl, rfl, fun _ => ⟨rfl, by decide +kernel⟩, rfl, rfl, rfl, rfl⟩, rfl⟩, by decide +kernel, rfl, by decide +kernel, rfl,
    ⟨rfl, by decide +kernel, _, rfl, by decide +kernel, rfl⟩⟩

/-- WaitsAndRetirement: MRDY at its hand-over, the holds with nothing to wait for, a command that has run. -/
def mrdyF : EForm := ef 0 0 0 0 0 0
theorem test_wit_mrdy : ∃ mb e, handoverEntry (dev (emitted base (.mrdy mrdyF))) (emitted base (.mrdy mrdyF)) 0 = some (mb, e, .mrdy mrdyF) ∧
    bankFor (dev (emitted base (.mrdy mrdyF))) (emitted base (.mrdy mrdyF)) mb = true := by
  exact ⟨_, _, rfl, by decide +kernel⟩
def mwaitF : EForm := ef 0 1 0xFE0 0 0 0
theorem test_wit_mwait : let c := heldCtx (.mwait mwaitF)
    ∃ mb h s1, c.member 0 = some mb ∧ mb.waitOf (.mwait mwaitF) = some h ∧ c.switch = .inside ∧ mb.bank.queue = [] ∧ c.rowsIssue = true ∧
      bankFor (dev c) c mb = true ∧ (placeOf (dev c) c 0 .cb 0xFE0 32).isSome = true ∧ touchRanges c 0 [(.cb, 0xFE0, 32)] (dev c) = .ready s1 :=
  ⟨_, _, _, rfl, rfl, rfl, rfl, by decide +kernel, by decide +kernel, by decide +kernel, rfl⟩
theorem test_wit_cwait : let c := heldCtx (.cwait cwaitF)
    ∃ mb h, c.member 0 = some mb ∧ mb.waitOf (.cwait cwaitF) = some h ∧ c.switch = .inside ∧ mb.queue .copy = [] :=
  ⟨_, _, rfl, rfl, rfl, rfl⟩
/-- A wait behind a command that has faulted, on a member with rows and on one whose rows have retired. -/
def behindFault (i : Instr) (g : Engine) (live : Bool) : Ctx :=
  let c := { heldCtx i with nextSeq := 2 }
  { c with members := c.members.map (fun mb => { mb.setQueue g [failedCmd] with holds := mb.holds.map fun h => { h with seq := 1 } })
           rows := if live then c.rows else [] }
theorem test_wit_wait_fault : ∀ z ∈ [(Instr.mwait { mwaitF with tag := 0xFFFF }, Engine.matrix), (.cwait { cwaitF with tag := 0xFFFF }, .copy)],
    ∀ b : Bool, let c := behindFault z.1 z.2 b
    ∃ mb h tr, c.member 0 = some mb ∧ mb.waitOf z.1 = some h ∧ c.switch = .inside ∧ c.rowsIssue = true ∧
      queueFault (mb.queue z.2) = some (failedCmd, tr) ∧ failedCmd ∈ mb.queue z.2 ∧ failedCmd.e.seq < h.seq ∧ c.handler = false ∧
      (c.memberRows 0 = [] ↔ b = false) := by
  intro z hz b
  simp only [List.mem_cons, List.not_mem_nil, or_false] at hz
  rcases hz with rfl | rfl <;> cases b <;>
    exact ⟨_, _, _, rfl, rfl, rfl, by decide +kernel, rfl, by decide +kernel, by decide +kernel, rfl, by decide +kernel⟩
def startedCtx (i : Instr) (g : Engine) : Ctx :=
  let c := cmdCtx i g
  { c with members := c.members.map fun mb => mb.setQueue g ((mb.queue g).map fun y => { y with st := .started }) }
theorem test_wit_retire : ∀ z ∈ [(Instr.cpy cpyG, Engine.copy), (.fhdl fhdlG, .fetch), (.mclr mrdyF, .matrix)],
    ∃ y s1, Retires (dev (startedCtx z.1 z.2)) 0 0 z.2 y (startedCtx z.1 z.2) s1 := by
  intro z hz
  simp only [List.mem_cons, List.not_mem_nil, or_false] at hz
  rcases hz with rfl | rfl | rfl <;> exact ⟨_, _, rfl, rfl, _, rfl, rfl, rfl⟩

/-- StorageCommands: a read of one block, a flush, no pair, a completion. -/
def ns1 : Namespace := { port := 0, requester := 0, ns := 1, block := 512, maxXfer := 4096 }
def nsubDev (i : Instr) : State := { cmdDev i .storage with pairs := [pair5], namespaces := [ns1] }
def readF : EForm := ef 0 0 5 0 0x20000 0
theorem test_wit_nsub : let v := viewOf (nsubDev (.nsubRead readF)) .storage (.nsubRead readF)
    EngineTurn (nsubDev (.nsubRead readF)) .storage (.nsubRead readF) v ∧
      (v.s1.pairs.find? fun p => p.num == 5 && p.domain == v.c.domain) = some pair5 ∧ pair5.submitted.length < pair5.entries ∧
      pairLimits v.s1 pair5 = (512, 4096) ∧ (nsubLocs v.s1 v.c.domain .store 0x20000 512).toOption.isSome = true := by
  exact ⟨⟨⟨rfl, rfl, rfl, rfl, rfl, nofun, rfl, rfl, rfl, rfl⟩, rfl⟩, rfl, by decide, by decide +kernel, by decide +kernel⟩
def flushF : EForm := ef 2 0 6 0 0 0
theorem test_wit_nsub_none : let v := viewOf (nsubDev (.nsubFlush flushF)) .storage (.nsubFlush flushF)
    EngineTurn (nsubDev (.nsubFlush flushF)) .storage (.nsubFlush flushF) v ∧
      (v.s1.pairs.find? fun p => p.num == 6 && p.domain == v.c.domain) = none := by
  exact ⟨⟨⟨rfl, rfl, rfl, rfl, rfl, nofun, rfl, rfl, rfl, rfl⟩, rfl⟩, rfl⟩
def submittedCmd : NvmeCmd := { ctx := 0, tag := 7, kind := 0, seq := 0, lba := 0, fua := false, locs := [⟨0x20000, false⟩] }
def retireDev : State := { dev base with pairs := [{ pair5 with submitted := [submittedCmd] }] }
theorem test_wit_nsub_retire : ∃ p mb, (retireDev.pairs.find? fun p => p.num == 5) = some p ∧ p.submitted[0]? = some submittedCmd ∧
    (retireDev.perform (submittedCmd.locs.zip [9])).ctxOf 0 = some base ∧ base.member 0 = some mb := by
  exact ⟨_, _, rfl, rfl, rfl, rfl⟩
theorem test_nsub_retire : next (exec (.nsubRetire 5 0 ⟨0, 0, 0, false, false⟩ [9]) retireDev)
    (fun t => t.mem == [(0x20000, 9)] && (t.ctxOf 0).any fun c => c.latches == 2) = true := by decide +kernel

/-! ## Witnesses: the stream -/

/-- FetchEmissionAndReplay. -/
def ready (i : Instr) (c : Ctx) : Ctx := { c with ir := some i }
def capturingDry : Ctx := { base with stretches := [⟨3, false, true, 0, []⟩] }
theorem test_wit_emission : let i := Instr.vmov vmovF
    let c := ready i base
    c.ir = some i ∧ c.genMoves = true ∧ c.gen = .running ∧ emissionCause c i = none ∧ (∀ r ∈ markedRegs i, (dev c).gPoisoned 0 r = false) ∧
      (i.lform.isSome || i.liform.isSome || i.eform.isSome) = true ∧ c.handler = false ∧ c.capturing = none ∧
      emissionCause (ready i inHandler) i = none ∧ (ready i inHandler).genMoves = true ∧ emissionCause (ready i capturingDry) i = none ∧
      (∃ x, capturingDry.capturing = some x ∧ x.dry = true) := by
  exact ⟨rfl, by decide +kernel, rfl, by decide +kernel, by decide +kernel, rfl, rfl, rfl, by decide +kernel, by decide +kernel,
    by decide +kernel, _, rfl, rfl⟩
theorem test_wit_accepted : ∀ e : Entry, e.item = .slot (.vmov vmovF) → e.esn = 1 →
    (base.intake = [] ∧ base.roomFor 1 0 = true ∧ base.horizonOk 1 = true) ∧
    Accepted behindReplay e { behindReplay with intake := behindReplay.intake ++ [.entry e] } := by
  intro e _ _
  exact ⟨⟨rfl, by decide +kernel, by decide +kernel⟩, .inr ⟨nofun, by decide +kernel, rfl⟩⟩
def feedEntry : Ctx := { base with intake := [.entry (markerEntry base (.fenceX .next) .fenceX)] }
theorem test_wit_feed : feedEntry.rowsMove = true ∧ feedEntry.canPush (markerEntry base (.fenceX .next) .fenceX) = true ∧
    behindReplay.rowsMove = true ∧ behindReplay.intake = .replay waitingReplay :: [] ∧
    behindReplay.roomFor (segmentEntries waitingReplay).length 0 = true ∧
    (∀ e ∈ segmentEntries waitingReplay, behindReplay.horizonOk e.esn = true) ∧
    ((segmentEntries waitingReplay).filter Entry.isEngine).length = 0 := by
  decide +kernel

/-- EngineHandover: a copy command, an NSUB on the second member, MWAIT and CWAIT. -/
theorem test_wit_handover : ∃ mb e, handoverEntry (dev (emitted base (.cpy cpyF))) (emitted base (.cpy cpyF)) 0 = some (mb, e, .cpy cpyF) ∧
    engineOf (.cpy cpyF) = some .copy ∧ queueRoom mb .copy (.cpy cpyF) = true ∧
    boardUsed (dev (emitted base (.cpy cpyF))) mb.cluster < Config.scoreboard := by
  exact ⟨_, _, rfl, rfl, rfl, by decide +kernel⟩
theorem test_wit_handover_others :
    (∃ mb e, handoverEntry (dev (emitted pair (.nsubFlush flushF))) (emitted pair (.nsubFlush flushF)) 1 = some (mb, e, .nsubFlush flushF)) ∧
    (∃ mb e, handoverEntry (dev (emitted base (.mwait mwaitF))) (emitted base (.mwait mwaitF)) 0 = some (mb, e, .mwait mwaitF) ∧
      bankFor (dev (emitted base (.mwait mwaitF))) (emitted base (.mwait mwaitF)) mb = true) ∧
    (∃ mb e, handoverEntry (dev (emitted base (.cwait cwaitF))) (emitted base (.cwait cwaitF)) 0 = some (mb, e, .cwait cwaitF)) := by
  exact ⟨⟨_, _, rfl⟩, ⟨_, _, rfl, by decide +kernel⟩, ⟨_, _, rfl⟩⟩

/-- MarkersTakeEffect: a marker alone in the stream, a BAR in the handler channel, a carry to send. -/
def marked (m : Marker) : Ctx := base.push (markerEntry base (.fenceX .next) m)
theorem test_wit_marker_turn : ∀ m ∈ [Marker.fence .gang, .fenceX, .phase true true, .bar .gang, .tset .ab true 0, .cdef 2 false 7 [],
      .cdef 2 true 0x20000 [⟨0x20000, false⟩]],
    (marked m).enginesBusy 0 = false ∧ ∃ e, MarkerTurn (dev (marked m)) 0 (marked m) (.stream e m) := by
  intro m hm
  simp only [List.mem_cons, List.not_mem_nil, or_false] at hm
  rcases hm with rfl | rfl | rfl | rfl | rfl | rfl | rfl <;>
    exact ⟨by decide +kernel, _, rfl, rfl, by decide +kernel⟩
def barChannel : Ctx := { inHandler with channel := [(markerEntry inHandler (.bar .next .gang) (.bar .gang), [])] }
theorem test_wit_marker_channel : MarkerTurn (dev barChannel) 0 barChannel (.channel (markerEntry inHandler (.bar .next .gang) (.bar .gang)) (.bar .gang)) := ⟨rfl, rfl, by decide +kernel⟩
theorem test_wit_tset : (setOnMembers ((dev (marked (.tset .ab true 0))).putCtx base) base .ab true 0 (List.range 1)).isSome = true ∧
    ∀ y ∈ [(⟨0x20000, false⟩ : GLoc)], (dev base).memPoisoned (y.on 0) = false := by decide +kernel
/-- The first row of the second member reads v1 of the last row of the first. -/
def carrying : Ctx :=
  let c := emitted pair (.vadd ⟨15, false, .f32, 3, 1, 4, 0, .k1, .none, 0, .rne, 0⟩)
  { c with kept := [{ seq := 0, item := 2, operandB := false, reg := 1, lanes := Lanes.fill 9, bad := 0 }] }
theorem test_wit_carry_send : ∃ mb n v, carrying.member 1 = some mb ∧
    ((carrying.stream.flatMap (needsOf carrying 0)).find? fun n => !n.sent mb.inbox) = some n ∧ n.value (dev carrying) carrying = some v ∧
    carrying.rowsMove = true ∧ mb.inbox.length < Config.inboxDepth := by
  exact ⟨_, _, _, rfl, rfl, rfl, by decide +kernel, by decide +kernel⟩

/-- MatrixCommands, the bad operands: a weight address that is not aligned, a tile past the end of WB, weights of another code. -/
theorem test_wit_mldw_bad : ∀ x ∈ [ef 5 0 0x3E0002 0 0 0, ef 5 0 0x3E0004 0 0 0],
    let v := viewOf (cmdDev (.mldw x) .matrix) .matrix (.mldw x)
    EngineTurn (cmdDev (.mldw x) .matrix) .matrix (.mldw x) v ∧ (pval x.p0 % 4 ≠ 0 ∨ placeOf v.s1 v.c 0 .wb (pval x.p0) 0x20000 = none) ∧
      engineFaultAfter (cmdDev (.mldw x) .matrix) (.mldw x) = some (engineTrap v.x.e .mrange (pval x.p0) 0) := by
  intro x hx
  simp only [List.mem_cons, List.not_mem_nil, or_false] at hx
  rcases hx with rfl | rfl <;>
    exact ⟨⟨⟨rfl, rfl, rfl, rfl, rfl, fun _ => ⟨rfl, by decide +kernel⟩, rfl, rfl, rfl, rfl⟩, rfl⟩, by decide +kernel, by decide +kernel⟩
theorem test_wit_mma_bad : let x := ef 1 2 0 0 1 0
    let v := viewOf (cmdDev (.mma x) .matrix) .matrix (.mma x)
    EngineTurn (cmdDev (.mma x) .matrix) .matrix (.mma x) v ∧ mmaCheck v.s1 v.c 0 v.mb (.mma x) x = some (2 ^ 63 + 1) := by
  exact ⟨⟨⟨rfl, rfl, rfl, rfl, rfl, fun _ => ⟨rfl, by decide +kernel⟩, rfl, rfl, rfl, rfl⟩, rfl⟩, by decide +kernel⟩
/-- INT8: a row without elements from the accumulator 5; the product that passes the bound. -/
theorem test_wit_int8 : (List.replicate 65536 (7 : Byte)).length = 65536 ∧ (5 : Nat) < 2 ^ 36 ∧
    (∀ j, j ≤ 256 → (5 : Int) + ((List.range j).map fun k => (([] : List Byte).getD k 0).toInt * (7 : Byte).toInt).sum = 5) ∧
    (2 ^ 35 : Int) ≤ (2 ^ 35 - 1 : Int) + (0x80 : Byte).toInt * (0x80 : Byte).toInt ∧
    addInt8 (2 ^ 35 - 1, false) 0x80 0x80 = (2 ^ 35 - 1, true) := by
  refine ⟨List.length_replicate, by decide, fun j _ => by simp [List.map_const'], by decide, by decide +kernel⟩

/-- StorageCommands, the bad ranges: a block more than a transfer may have, an address that is not aligned; a write whose payload the
controller has read in part, one with a poisoned byte. -/
theorem test_wit_nsub_range : ∀ z ∈ [(ef 0 0 5 0 0x20000 8, 4608), (ef 0 0 5 0 0x20002 0, 0x20002)],
    let v := viewOf (nsubDev (.nsubRead z.1)) .storage (.nsubRead z.1)
    EngineTurn (nsubDev (.nsubRead z.1)) .storage (.nsubRead z.1) v ∧
      (v.s1.pairs.find? fun p => p.num == 5 && p.domain == v.c.domain) = some pair5 ∧ pairLimits v.s1 pair5 = (512, 4096) ∧
      engineFaultAfter (nsubDev (.nsubRead z.1)) (.nsubRead z.1) = some (engineTrap v.x.e .crange z.2 0) := by
  intro z hz
  simp only [List.mem_cons, List.not_mem_nil, or_false] at hz
  rcases hz with rfl | rfl <;>
    exact ⟨⟨⟨rfl, rfl, rfl, rfl, rfl, nofun, rfl, rfl, rfl, rfl⟩, rfl⟩, rfl, by decide +kernel, by decide +kernel⟩
def writeF : EForm := ef 1 0 5 0 0x20000 0
def writeCmd : NvmeCmd :=
  { ctx := 0, tag := 7, kind := 1, seq := 0, lba := 3, fua := false, locs := [⟨0x20000, false⟩, ⟨0x20080, false⟩],
    got := [⟨0x20000, [9]⟩] }
def writing (poison : List PoisonLoc) : State :=
  let c := cmdCtx (.nsubWrite writeF) .storage
  { dev c with pairs := [{ pair5 with submitted := [writeCmd] }], mem := [(0x20000, 1), (0x20080, 2)], poison := poison }
theorem test_wit_payload : ∀ l : List PoisonLoc, l = [] ∨ l = [.mem 0x20080] → ∃ p c mb,
    ((writing l).pairs.find? fun p => p.num == 5) = some p ∧ p.submitted[0]? = some writeCmd ∧ (writing l).ctxOf 0 = some c ∧
      c.member 0 = some mb ∧ (writeCmd.locs.findIdx? fun y => (writing l).memPoisoned (y.on 0)) = (if l = [] then none else some 1) ∧
      (∀ y ∈ mb.storageQ, y.e.seq = writeCmd.seq → ∃ f, y.e.item = .slot (.nsubWrite f)) := by
  intro l h
  rcases h with rfl | rfl <;>
    (refine ⟨_, _, _, rfl, rfl, rfl, rfl, by decide +kernel, ?_⟩
     intro y hy _
     cases List.mem_singleton.1 hy
     exact ⟨_, rfl⟩)
theorem test_payload :
    next (exec (.nsubRetire 5 0 ⟨0, 0, 0, false, false⟩ []) (writing [])) (fun t =>
      t.pairs.any fun p => p.written == [(3, [9, 2])]) = true ∧
    next (exec (.nsubRetire 5 0 ⟨0, 0, 0, false, false⟩ []) (writing [.mem 0x20080])) (fun t =>
      t.pairs.all (fun p => p.written == []) && (t.ctxOf 0).any fun c => (c.member 0).any fun mb => mb.storageQ.any fun y =>
        y.st == .faulted (engineTrap y.e .mchk 0x5000000000020001 0)) = true := by decide +kernel

/-- FetchEmissionAndReplay, the faults: a page that may not be fetched, a slot of no instruction in each domain, a register that is not
there, each in a context that takes the trap and, in emission, in a handler. -/
def fetching (pc : DWord) (bs : List Byte) : State := memDev { base with pc := pc } 0x10000 bs
theorem test_wit_fetch_faults :
    (∃ cause a, fetchInstr (fetching 0x4000 []) { base with pc := 0x4000 } 0 0x4000 = .error (cause, a)) ∧
    (∀ z ∈ [(slotBytes (0#1 ++ 0#3 ++ 0#3 ++ 0#14 ++ 0x14#8 ++ 0#6 ++ 0#6 ++ 0#6 ++ 0#1 ++ 0#16), DecodeErr.illegal, (1 : Nat)),
        (slotBytes (1#1 ++ 0x15#7 ++ 15#4 ++ 0#1 ++ 0#3 ++ 0#8 ++ 0#8 ++ 0#8 ++ 0#8 ++ 0#16), .illop, 0x20),
        (slotBytes (1#1 ++ 0x20#7 ++ 15#4 ++ 0#1 ++ 0#3 ++ 1#6 ++ 1#6 ++ 4#4 ++ 0#32), .illmark, 0x22),
        (slotBytes (1#1 ++ 0x04#7 ++ 15#4 ++ 0#1 ++ 0#3 ++ 0#8 ++ 0#8 ++ 0#8 ++ 0#8 ++ 1#16), .illtype, 0x21),
        (slotBytes (1#1 ++ 0x20#7 ++ 15#4 ++ 0#1 ++ 0#3 ++ 1#6 ++ 1#6 ++ 1#4 ++ 64#32), .subbad, 0x23)],
      (fetchInstr (fetching 0x2000 z.1) base 0 0x2000).toOption = some z.1 ∧ refusal z.1 = some z.2.1 ∧
      trapAfter (fetching 0x2000 z.1) (.generatorFetch 0) = some (z.2.2, 0)) ∧
    trapAfter (fetching 0x4000 []) (.generatorFetch 0) = some (0xA, 0x20000) := by
  refine ⟨⟨_, _, rfl⟩, ?_⟩
  decide +kernel
def wideMov : Instr := .vmov { vmovF with vd := 200 }
theorem test_wit_emission_faults : (emitting wideMov).genMoves = true ∧ emissionCause (emitting wideMov) wideMov = some (.illreg, 200) ∧
    (ready wideMov inHandler).genMoves = true ∧ emissionCause (ready wideMov inHandler) wideMov = some (.illreg, 200) ∧
    inHandler.ended = none ∧ trapAfter (dev (emitting wideMov)) (.emission 0) = some (0x24, 200) ∧
    endedAfter (dev (ready wideMov inHandler)) (.emission 0) = some (2, 0x20) := by decide +kernel

/-- MarkersTakeEffect: a scope whose lines no port has performed yet, with and without lines of its own; a poisoned word of CDEF.mem. -/
def atPort : List Accepted := [⟨0, 2, [(⟨2 ^ 53, false⟩, 1)], none, []⟩]
def buffering : Ctx :=
  let c := marked (.fence .system)
  { c with members := c.members.map fun mb => { mb with psb := [⟨⟨0x20000, false⟩, List.replicate 127 none ++ [some 7], [], [], []⟩] } }
theorem test_wit_ack :
    (∃ e, MarkerTurn { dev (marked (.fence .system)) with accepted := atPort } 0 (marked (.fence .system)) (.stream e (.fence .system))) ∧
    (∀ mb ∈ (marked (.fence .system)).members, mb.psb = []) ∧ atPort ≠ [] ∧
    (∃ e, MarkerTurn { dev buffering with accepted := atPort, deviceNumber := some 3 } 0 buffering (.stream e (.fence .system))) ∧
    (∃ mb ∈ buffering.members, mb.psb ≠ []) := by
  refine ⟨⟨_, rfl, rfl, by decide +kernel⟩, ?_, by decide, ⟨_, rfl, rfl, by decide +kernel⟩, _, List.mem_singleton.2 rfl, by decide⟩
  decide +kernel
theorem test_acks :
    idle (exec (.fenceMarker 0) { dev (marked (.fence .system)) with accepted := atPort }) = true ∧
    next (exec (.fenceMarker 0) { dev buffering with accepted := atPort }) (fun t => !t.waited && t.mem == [(0x2007F, 7)] &&
      (t.ctxOf 0).any fun c => c.stream.length == 1) = true ∧
    next (exec (.fenceMarker 0) { dev (marked (.fence .domain)) with accepted := atPort }) (fun t =>
      (t.ctxOf 0).any fun c => c.stream.length == 0) = true ∧
    idle (exec (.fenceMarker 0) { dev (marked (.fence .domain)) with accepted := atPort, deviceNumber := some 3 }) = true ∧
    next (exec (.fenceMarker 0) { dev (marked (.fence .system)) with accepted := atPort.map fun a => { a with owner := 5 } }) (fun t =>
      (t.ctxOf 0).any fun c => c.stream.length == 0) = true := by
  decide +kernel
def busyBar : Ctx :=
  let c := { base with nextSeq := 1 }.push (markerEntry base (.bar .next .gang) (.bar .gang))
  { c with members := c.members.map fun mb => { mb with copyQ := [{ failedCmd with st := .queued }], handed := 1 } }
theorem test_wit_bar_busy : ∃ e, MarkerTurn (dev busyBar) 0 busyBar (.stream e (.bar .gang)) ∧ busyBar.enginesBusy e.seq = true :=
  ⟨_, ⟨rfl, rfl, by decide +kernel⟩, by decide +kernel⟩
def cdefM : Ctx := marked (.cdef 2 true 0x20000 [⟨0x20000, false⟩, ⟨0x20004, false⟩])
theorem test_wit_cdef_poison : let s := { dev cdefM with poison := [.mem 0x20004] }
    (∃ e, MarkerTurn s 0 cdefM (.stream e (.cdef 2 true 0x20000 [⟨0x20000, false⟩, ⟨0x20004, false⟩]))) ∧
    s.memPoisoned 0x20004 = true ∧ s.memPoisoned 0x20000 = false ∧ cdefM.halting = false ∧ CanTrap cdefM ∧
    trapAfter s (.cdefMarker 0) = some (0x40, 0x5000000000020001) := by
  refine ⟨⟨_, rfl, rfl, by decide +kernel⟩, by decide +kernel, by decide +kernel, rfl, ⟨rfl, by decide +kernel⟩, by decide +kernel⟩

/-! ## Witnesses: the end of a dispatch, launches, switches, events -/

def laneFault : Trap := { cause := .align, dom := .l, esn := 7, addr := 0x20001, mask := 2, pc := 0x2000 }
/-- Items 1 and 2 of a gang have stopped at the same slot: item 1 is reported. -/
def stoppedRows : Ctx :=
  { pair with halting := true,
              rows := pair.rows.map fun r => if r.item == 1 || r.item == 2 then { r with stop := some (3, laneFault) } else r }
/-- A context after EXIT. -/
def exitedCtx : Ctx := { base with gen := .stopped, rows := base.rows.map fun r => { r with retired := some ⟨0, 0, []⟩ } }
def engineFault : Trap := { cause := .frange, dom := .x, esn := 4, mask := 5 }
def failedCopy : Cmd := { e := { seq := 4, esn := 4, item := .slot (.cpy cpyF) }, copied := [], held := false, st := .faulted engineFault }
/-- Its copy queue has stopped at a command. -/
def exitedFault : Ctx := { exitedCtx with members := exitedCtx.members.map fun mb => { mb with copyQ := [failedCopy] } }

/-- LaneAndEngineTraps: both clauses, and what they leave. -/
theorem test_wit_trap_entry : ∃ r n tr, (dev stoppedRows).ctxOf 0 = some stoppedRows ∧ stoppedRows.halting = true ∧
    stoppedRows.ended = none ∧ stoppedRows.revoked = false ∧ stoppedRows.switch = .inside ∧ stoppedRows.reported = some (r, n, tr) ∧
    CanTrap stoppedRows := by
  exact ⟨_, _, _, rfl, rfl, rfl, rfl, rfl, rfl, rfl, by decide +kernel⟩
theorem test_wit_engine_trap : ∃ n m g tr, (dev exitedFault).ctxOf 0 = some exitedFault ∧ exitedFault.gen = .stopped ∧
    exitedFault.liveRows = [] ∧ exitedFault.intake = [] ∧ exitedFault.active = true ∧ exitedFault.halting = false ∧
    exitedFault.completed = false ∧ (exitedFault.members.all Member.queuesOver) = true ∧
    leastBy2 (fun x => (x.1, x.2.1)) (exitedFault.queueFaults (dev exitedFault)) = some (n, m, g, tr) ∧ CanTrap exitedFault := by
  exact ⟨_, _, _, _, rfl, rfl, rfl, rfl, rfl, rfl, rfl, rfl, rfl, rfl, by decide +kernel⟩
theorem test_traps_entered : (stoppedRows.reported.map fun x => x.1.item) = some 1 ∧
    trapAfter (dev stoppedRows) (.trapEntry 0) = some (6, 0x20001) ∧ trapAfter (dev exitedFault) (.engineFaultAfterExit 0) = some (0x33, 0) ∧
    next (exec (.engineFaultAfterExit 0) (dev exitedFault)) (fun t => (t.ctxOf 0).any fun c => c.tmask == 0 && c.tesn == 4) = true := by
  decide +kernel

/-- DispatchCompletion: a record that translates and one that does not; STATUS of a context that was killed. -/
def overCtx (compl : DWord) : Ctx := { exitedCtx with compl := compl, cycle := 300 }
theorem test_wit_completion : ∀ x ∈ [(overCtx 0x20040, true), (overCtx 0x40000, false)],
    (dev x.1).ctxOf 0 = some x.1 ∧ x.1.over = true ∧
      let d := drainCtx (dev x.1) x.1
      (translateN (d.1.putCtx { d.2 with completed := true }) d.2.domain true .store d.2.compl.toNat 64).toOption.isSome = x.2 := by
  intro x hx
  simp only [List.mem_cons, List.not_mem_nil, or_false] at hx
  rcases hx with rfl | rfl <;> exact ⟨rfl, by decide +kernel, by decide +kernel⟩
theorem test_completion :
    next (exec (.dispatchCompletion 0) (dev { overCtx 0x20040 with ended := some ⟨2, 0x20, 6, 7⟩ })) (fun t =>
      t.mem == [(0x20040, 2), (0x20041, 0x20), (0x20058, 44), (0x20059, 1), (0x20068, 6), (0x20070, 7)]) = true ∧
    next (exec (.dispatchCompletion 0) (dev (overCtx 0x40000))) (fun t => t.mem == []) = true := by decide +kernel

/-- LaunchAndPlacement: launch queue 1 whose record names kernel 0 of a code object. -/
def launchQ : DevQueue := { queue1 with consumer := .launch, logr := 8, ticket := 1, committed := [0], unreleased := [0] }
def kernel1 : Kernel := { probeKernel with regs := 16, handler := some 5 }
def codeObj : CodeObj := { domain := 0, va := 0x10000, kernels := [kernel1] }
/-- The record: the code object, kernel 0, the defaults of the kernel, the completion address 0x20040, no queue bound. -/
def launchBytes (rows : Byte) : List Byte :=
  leBytes 8 0x10000 ++ [0, 0, 0, 0, 0, 0, rows, 0, 0, 0, 0, 0] ++ List.replicate 12 0xFF ++ leBytes 8 0 ++ leBytes 8 0x20040 ++
    List.replicate 32 0xFF ++ List.replicate 176 0
def launchDev (bs : List Byte) (code : List CodeObj) : State :=
  { dev base with queues := [launchQ], mem := Memory.writeN [] 0x21000 bs, code := code, ctxs := [], nextId := 1 }
def unread : State := { launchDev [] [] with queues := [{ launchQ with ring := 0x40000 }] }
theorem test_wit_launch_unreadable : headSlot unread 1 = some { launchQ with ring := 0x40000 } ∧
    readRecord (takeHead unread { launchQ with ring := 0x40000 }) (some 0) (({ launchQ with ring := 0x40000 } : DevQueue).slotAddr 0) 256 = none := by
  exact ⟨rfl, by decide +kernel⟩
theorem test_wit_launch_nokernel : headSlot (launchDev (launchBytes 0) []) 1 = some launchQ ∧ launchQ.consumer = .launch ∧
    launchQ.domain = some 0 ∧ (launchDev (launchBytes 0) []).phase = .running ∧
    readRecord (takeHead (launchDev (launchBytes 0) []) launchQ) (some 0) (launchQ.slotAddr launchQ.head) 256 = some (launchBytes 0) ∧
    launchKernel (takeHead (launchDev (launchBytes 0) []) launchQ) 0 (launchBytes 0) = none := by
  exact ⟨rfl, rfl, rfl, rfl, by decide +kernel, by decide +kernel⟩
theorem test_wit_launch_kernel : launchKernel (takeHead (launchDev (launchBytes 33) [codeObj]) launchQ) 0 (launchBytes 33) = some kernel1 ∧
    (launchRec kernel1 (launchBytes 0)).rows = 1 ∧ (launchRec kernel1 (launchBytes 0)).tvec = 0x2005 ∧
    32 < (launchRec kernel1 (launchBytes 33)).rows ∧
    launchRefusal (takeHead (launchDev (launchBytes 33) [codeObj]) launchQ) 0 (launchRec kernel1 (launchBytes 33)) (launchBytes 33) = some 0x01 ∧
    launchRefusal (takeHead (launchDev (launchBytes 0) [codeObj]) launchQ) 0 (launchRec kernel1 (launchBytes 0)) (launchBytes 0) = none := by
  decide +kernel
theorem test_launch :
    next (exec (.launch 1) (launchDev (launchBytes 0) [codeObj])) (fun t => t.waiting.map (fun w => (w.k, w.params.tvec)) == [(1, 0x2005)]) = true ∧
    next (exec (.launch 1) (launchDev (launchBytes 33) [codeObj])) (fun t => t.waiting == [] && Memory.readN t.mem 0x20040 2 == [1, 1]) = true ∧
    next (exec (.launch 1) unread) (fun t => t.errcnt == [(1, 1)]) = true := by decide +kernel
def waiting9 : Waiting := { launch1 with k := 9 }
/-- The launch waits; some clusters are fenced. -/
def placing (cs : List Ctx) (f : BitVec 192) : State := { dev base with ctxs := cs, waiting := [waiting9], fenced := ⟨f, 0, 0, 0, 0, 0⟩ }
theorem test_wit_placement : ((placing [] 0).waiting.find? fun w => w.k == 9) = some waiting9 ∧
    Waiting.fits (placing [] 0) waiting9 191 = some [[0]] ∧ Waiting.fits (placing [base] (BitVec.allOnes 192)) waiting9 0 = none ∧
    (Waiting.base? (placing [base] (BitVec.allOnes 192)) waiting9).isNone = true := by
  exact ⟨rfl, by decide +kernel, by decide +kernel, by decide +kernel⟩
theorem test_placement :
    next (exec (.launchPlacement 9 191) (placing [base] 0)) (fun t =>
      t.waiting == [] && t.ctxs.map (fun c => c.members.map fun m => m.cluster) == [[0], [191]]) = true ∧
    next (exec (.launchPlacement 9 0) (placing [base] (BitVec.allOnes 192))) (fun t => t.links == [⟨0, false, false, .fragwait 9⟩] && t.waiting.all fun w => w.reported) = true := by decide +kernel

/-- DispatchStart: a fresh context of two members. -/
theorem test_dispatch_start : pair.members.length = 2 ∧ pair.rows.length = 4 ∧ (pair.rows.map fun r => r.item) = [0, 1, 2, 3] ∧
    seedOf 0 0 = 0xE220A8397B1DCDAF := by decide +kernel

/-- SwitchesAndRevocation. -/
def ashCtx : Ctx := { base with id := 1, cls := .ash }
def lending : Ctx := { base with members := base.members.map fun mb => { mb with lends := [⟨.ab, 0x400, 0x400, .lent 1⟩] } }
def ashDev (c d : Ctx) : State := { dev base with ctxs := [c, d] }
/-- A launch of a class waits, reported, on a device of which cluster 0 alone is not fenced. -/
def waitingFor (cls : TrafficClass) (reported : Bool) (cs : List Ctx) : State :=
  { dev base with ctxs := cs, fenced := ⟨BitVec.allOnes 192 ^^^ 1, 0, 0, 0, 0, 0⟩, nextId := 2,
                  waiting := [{ launch1 with k := 9, reported := reported, params := { launch1.params with cls := cls, rows := 16, regs := 256 } }] }
/-- An ash context with a row in each lane block of cluster 0. -/
def ashFull : Ctx :=
  let p := { launch1.params with rows := 4, regs := 256, cls := .ash }
  { freshCtx { launch1 with params := p } 0 [[0, 0, 0, 0]] with id := 1 }
def bulkBase : Ctx := { base with cls := .bulk }
theorem test_wit_revocation :
    ((waitingFor .normal true [ashFull]).waiting.any fun w => (nextRevoked (waitingFor .normal true [ashFull]) w).any fun d => d.id == 1) = true ∧
    ashFull.ash = true ∧ ashFull.onBlocks = true ∧ ashFull.ended = none ∧
    (∀ w ∈ (ashDev base ashCtx).waiting, ∀ d, nextRevoked (ashDev base ashCtx) w = some d → d.id ≠ 1) := by
  exact ⟨by decide +kernel, rfl, by decide +kernel, rfl, nofun⟩
theorem test_wit_ash_back :
    (let c : Ctx := { ashCtx with revoked := true }
     c.revoked = true ∧ c.resident = true ∧ c.ended = none ∧ (placeGang (ashDev base c) c.request 0 c.localsOf).isSome = true ∧
       holderGone (ashDev lending c) 1 = true) ∧
    holderGone (dev lending) 1 = true ∧ holderGone (ashDev lending ashCtx) 1 = false := by decide +kernel
theorem test_wit_lent : ∃ mb l, lending.member 0 = some mb ∧ mb.lends[0]? = some l ∧ l.st = .lent 1 := ⟨_, _, rfl, rfl, rfl⟩
/-- A range that is owed is spilled though its holder is back. -/
def owing : Ctx := { base with members := base.members.map fun mb => { mb with lends := [⟨.ab, 0x400, 0x400, .owed 1⟩] } }
theorem test_owed : holderGone (ashDev owing ashCtx) 1 = false ∧ idle (exec (.lentRangeSpill 0 0 0) (ashDev lending ashCtx)) = true ∧
    next (exec (.lentRangeSpill 0 0 0) (ashDev owing ashCtx)) (fun t => (t.ctxOf 0).any fun c => c.members.all fun m =>
      m.lends.all fun l => l.st == .touched) = true := by decide +kernel
theorem test_wit_switch_out : ∀ z ∈ [(TrafficClass.crimson, base, true), (.normal, bulkBase, false)],
    let s := waitingFor z.1 true [z.2.1]
    let l := switchSet s z.2.1
    preempts s z.2.1 z.2.2 = true ∧ (l.any fun d => d.id == 0) = true ∧ (∀ d ∈ l, d.switchable = true) ∧
      orderRoom s (l.flatMap fun d => d.members.map fun mb => mb.cluster) z.2.2 = true ∧
      l.foldl (fun s d => preemptOne s z.2.2 d.id) (s.swapTogether l) ≠ s := by
  intro z hz
  simp only [List.mem_cons, List.not_mem_nil, or_false] at hz
  rcases hz with rfl | rfl <;> exact ⟨by decide +kernel, by decide +kernel, by decide +kernel, by decide +kernel, by decide +kernel⟩
/-- A row within an atomic, and permits: six messages of other classes leave two for Crimson; with eight none is left. -/
def withinAtomic : Ctx := { base with rows := base.rows.map fun r => { r with amo := some ⟨0, Lanes.fill 0, 0⟩ } }
def ordered (n : Nat) (s : State) : State := { s with orders := List.replicate n ⟨0, false, .place 3⟩ }
theorem test_wit_switch_waits :
    (∃ d ∈ switchSet (waitingFor .crimson true [withinAtomic]) withinAtomic, d.switchable = false) ∧
    idle (exec (.switchOut 0 true) (waitingFor .crimson true [withinAtomic])) = true ∧
    orderRoom (ordered 6 (dev base)) [0] true = true ∧ orderRoom (ordered 6 (dev base)) [0] false = false ∧
    orderRoom (ordered 5 (dev base)) [0] false = true ∧ orderRoom (ordered 8 (dev base)) [0] true = false ∧
    orderRoom (ordered 8 (dev base)) [1] false = true ∧
    idle (exec (.switchOut 0 true) (ordered 8 (waitingFor .crimson true [base]))) = true := by
  exact ⟨⟨withinAtomic, List.mem_singleton.2 rfl, by decide +kernel⟩, by decide +kernel⟩
def deferring : Ctx := { inHandler with deferred := some 100 }
theorem test_wit_expiry : deferring.deferred = some 100 ∧ deferring.handler = true ∧ deferring.switchable = true ∧
    18800 ≤ (({ dev deferring with realtime := 18900 } : State).realtime - 100).toNat ∧
    ({ deferring with handler := false } : Ctx).switchable = true := by decide +kernel
/-- An image with the row record of the example behind R104 (v0-v9 U, v10-v11 A, v12-v15 G) and an idle matrix bank. -/
def imageOf (impl : Nat) : Image := imageBytes 0x58564931 1 1
  [⟨3, 0, leBytes 4 0 ++ leBytes 2 16 ++ List.replicate 658 0 ++ tagMap (List.replicate 10 .u ++ [.a, .a] ++ List.replicate 4 .g) ++
    List.replicate 1080 0⟩, ⟨7, 0, leBytes 8 (1 + impl * 2 ^ 16)⟩]
def goodImage : Image := imageOf 6
/-- The row of the example behind R104: its record has 1,752 bytes and `v10` is stored as 0x100 and 4. -/
def exampleRow : Row :=
  { freshRow launch1.params 0 0 0 with
      regs := List.replicate 10 ⟨Lanes.fill 7, .u⟩ ++ List.replicate 2 ⟨Lanes.build fun l => BitVec.ofNat 32 (0x100 + 4 * l), .a⟩ ++
        List.replicate 4 ⟨Lanes.fill 1, .g⟩ }
theorem test_save_image : (rowRecord base exampleRow).length = 1752 ∧
    ((rowRecord base exampleRow).drop (672 + 40)).take 8 = [0x00, 0x01, 0, 0, 4, 0, 0, 0] ∧
    tagsOk 2 (rowRecord base exampleRow ++ rowRecord base exampleRow) = true ∧
    (dwordBytes (generatorWords (dev base) base 0)).length = 3448 := by decide +kernel
def outCtx (i : Image) (tvec : DWord) : Ctx := { base with switch := .out, image := some i, tvec := tvec }
theorem test_wit_restore :
    (∀ i, (outCtx (imageOf 5) 0).image = some i → imageOk i = false) ∧ imageOk goodImage = true ∧
    (placeGang (sendOrders (dev (outCtx goodImage 0)) [7] false (.restore 0)) (outCtx goodImage 0).request 7 (outCtx goodImage 0).localsOf) = some [[0]] ∧
    (outCtx goodImage 0).tvec = 0 ∧ CanTrap (outCtx goodImage 0x100) ∧ (outCtx goodImage 0).completed = false := by
  refine ⟨?_, by decide +kernel, by decide +kernel, rfl, by decide +kernel, rfl⟩
  intro i h
  cases h
  decide +kernel
theorem test_switches :
    next (exec (.switchOut 0 true) (waitingFor .crimson true [base])) (fun t => (t.ctxOf 0).any fun c => c.switch == .out && c.image.isSome && c.pc == 0x2000) = true ∧
    next (exec (.switchOut 0 false) (waitingFor .normal true [bulkBase])) (fun t => (t.ctxOf 0).any fun c => c.switch == .preempting && c.pc == 0x100 && c.tpc == 0x2000) = true ∧
    next (exec (.restore 0 7) (dev (outCtx goodImage 0))) (fun t => (t.ctxOf 0).any fun c =>
      c.switch == .inside && c.latches == 3 && c.members.map (fun m => m.cluster) == [7]) = true ∧
    next (exec (.lentRangeSpill 0 0 0) (dev lending)) (fun t => (t.ctxOf 0).any fun c => c.members.all fun m => m.lends.all fun l => l.st == .untouched) = true := by
  decide +kernel

/-- TimerAndDeadline: each clause. -/
def timed (c : Ctx) : Ctx := { c with cycle := 800, deadline := some 50 }
def timedDev (c : Ctx) : State := { dev c with realtime := 50, slices := ⟨400, 300, 200⟩ }
theorem test_wit_timer : ∀ c ∈ [timed base, timed inHandler, timed noVector, { timed base with revoked := true }, { timed base with gen := .sleepEvent 4 },
      { timed base with gen := .stopped }],
    (timedDev c).ctxOf 0 = some c ∧ c.resident = true ∧ c.ended = none ∧ c.halting = false ∧ c.cls ≠ .crimson ∧ c.cycle ≠ c.lastTimer ∧
      c.cycle.toNat % 400 = 0 ∧ c.deadline = some 50 ∧ (50 : DWord).toNat ≤ (timedDev c).realtime.toNat := by
  intro c hc
  simp only [List.mem_cons, List.not_mem_nil, or_false] at hc
  rcases hc with rfl | rfl | rfl | rfl | rfl | rfl <;>
    exact ⟨rfl, rfl, rfl, rfl, by decide, by decide +kernel, by decide +kernel, rfl, by decide +kernel⟩
theorem test_wit_timer_kinds : CanTrap (timed base) ∧ (timed inHandler).handler = true ∧ (timed noVector).tvec = 0 ∧
    (timed noVector).handler = false ∧ (timed base).gen ≠ .stopped ∧ (timed base).revoked = false ∧ (timed base).switch = .inside ∧
    (¬∃ m : BitVec 3, (timed base).gen = .sleepEvent m ∧ m.getLsbD 2 = true) ∧
    (∃ m : BitVec 3, (GenState.sleepEvent 4) = .sleepEvent m ∧ m.getLsbD 2 = true) := by
  exact ⟨by decide +kernel, rfl, rfl, rfl, by decide, rfl, rfl, nofun, 4, rfl, by decide⟩
theorem test_events : trapAfter (timedDev (timed base)) (.timer 0 400) = some (0x50, 800) ∧
    trapAfter (timedDev (timed base)) (.deadline 0) = some (0x51, 50) ∧
    next (exec (.timer 0 400) (timedDev (timed inHandler))) (fun t => (t.ctxOf 0).any fun c => c.timerWaits == some 800) = true ∧
    next (exec (.deadline 0) (timedDev (timed noVector))) (fun t => (t.ctxOf 0).any fun c => c.latches == 4 && !c.handler) = true := by
  decide +kernel

/-! ### More of the same statements -/

/-- LaneAndEngineTraps: item 1 comes first among the stopped rows; a fault noted late; nothing that stopped; a fault that kills. -/
def lateStopped : Ctx :=
  { base with halting := true, rows := base.rows.map fun r => { r with late := some (2, laneFault, 9) } }
theorem test_wit_lane_traps : ∃ r n tr, r ∈ stoppedRows.rows ∧ r.live = true ∧ r.stop = some (n, tr) ∧
    (stoppedRows.rows.all fun q => !q.live || q.stop.all fun x => decide (n < x.1) || (n == x.1 && decide (r.item < q.item)) || q.item == r.item) = true ∧
    (∀ q ∈ stoppedRows.rows, q.live = true → q.amo = none) := by
  refine ⟨stoppedRows.rows.getD 1 (freshRow launch1.params 0 0 0), 3, laneFault, ?_, by decide +kernel, by decide +kernel, by decide +kernel,
    by decide +kernel⟩
  decide +kernel
theorem test_wit_lane_traps_none : let c : Ctx := { base with halting := true }
    c.halting = true ∧ c.ended = none ∧ c.revoked = false ∧ c.switch = .inside ∧ (∀ r ∈ c.rows, r.live = true → r.stop = none ∧ r.late = none ∧ r.amo = none) := by
  exact ⟨rfl, rfl, rfl, rfl, by decide +kernel⟩
theorem test_lane_traps :
    trapAfter (dev lateStopped) (.trapEntry 0) = some (6, 0x20001) ∧
    next (exec (.trapEntry 0) (dev { base with halting := true })) (fun t => (t.ctxOf 0).any fun c => !c.halting && !c.handler) = true ∧
    endedAfter (dev { stoppedRows with tvec := 0 }) (.trapEntry 0) = some (2, 0x23) ∧
    endedAfter (dev { exitedFault with tvec := 0 }) (.engineFaultAfterExit 0) = some (2, 0x23) := by decide +kernel
/-- Queues that stopped: at the fault, or at a command before it that waits for an entry of the scoreboard. -/
def exitedBlocked : Ctx :=
  { exitedFault with members := exitedFault.members.map fun mb => { mb with
      copyQ := { failedCopy with e := { failedCopy.e with seq := 3, esn := 3 }, st := .queued } :: mb.copyQ
      board := [⟨2, .fetch, some ⟨.buf .ab, 0x100, 4⟩, []⟩, ⟨3, .copy, some ⟨.buf .ab, 0x100, 16⟩, []⟩] } }
theorem test_wit_exited_heads : ∀ c ∈ [exitedFault, exitedBlocked], ∀ mb ∈ c.members, ∀ g : Engine,
    (∀ x ∈ mb.queue g, x.st ≠ .started) ∧ ∀ x ∈ turnCmds mb g false, mb.blocked x = true := by
  intro c hc mb hm g
  simp only [List.mem_cons, List.not_mem_nil, or_false] at hc
  rcases hc with rfl | rfl <;> (cases List.mem_singleton.1 hm; cases g <;> decide +kernel)
theorem test_exited_blocked : (exitedBlocked.members.all fun mb => (turnCmds mb .copy false).length == 1) = true ∧
    trapAfter (dev exitedBlocked) (.engineFaultAfterExit 0) = some (0x33, 0) := by decide +kernel

/-- DispatchCompletion: lines that another context of the group goes before. -/
def monoOver : Ctx :=
  { overCtx 0x20040 with
      mono := true, monoGroup := 1, genCount := 9,
      members := base.members.map fun mb => { mb with psb := [⟨⟨0x20000, false⟩, [some 7], [], [], []⟩] } }
def monoOther : Ctx := { base with id := 1, mono := true, monoGroup := 1 }
/-- Its lines have left for a port and wait there for their place. -/
def owedLines : State := { dev (overCtx 0x20040) with accepted := [⟨0, 0, [(⟨0x20000, false⟩, 7)], some ⟨0, 1, 0, 9⟩, []⟩] }
theorem test_wit_owed_lines : (∃ a ∈ owedLines.accepted, ∃ p, a.place = some p ∧ p.id = 0) ∧ linesHeld owedLines (overCtx 0x20040) = false ∧
    idle (exec (.dispatchCompletion 0) owedLines) = true := by
  exact ⟨⟨_, List.mem_singleton.2 rfl, _, rfl, rfl⟩, by decide +kernel, by decide +kernel⟩
theorem test_wit_lines_held : let s := { dev monoOver with ctxs := [monoOver, monoOther] }
    s.ctxOf 0 = some monoOver ∧ monoOver.over = true ∧ linesHeld s monoOver = true ∧ linesHeld (dev monoOver) monoOver = false ∧
      idle (exec (.dispatchCompletion 0) s) = true := by
  exact ⟨rfl, by decide +kernel, by decide +kernel, by decide +kernel, by decide +kernel⟩

/-- LaunchAndPlacement, the reasons of R267: one record or kernel for each. -/
def refused (k : Kernel) (bs : List Byte) (f : State → State := id) : Option Nat :=
  launchRefusal (f (launchDev bs [codeObj])) 0 (launchRec k bs) bs
theorem test_wit_reasons :
    refused kernel1 (launchBytes 33) = some 0x01 ∧ refused kernel1 (launchBytes 32) = none ∧
    refused { kernel1 with regs := 12 } (launchBytes 1) = some 0x02 ∧ refused { kernel1 with carry := [16] } (launchBytes 1) = some 0x02 ∧
    refused kernel1 ((launchBytes 1).set 19 9) = some 0x03 ∧ refused { kernel1 with levels := [(2, 0, 1)] } (launchBytes 1) = some 0x03 ∧
    refused { kernel1 with mmrev := 3 } (launchBytes 1) = some 0x04 ∧
    refused { kernel1 with cls := .ash, mono := true } (launchBytes 1) = some 0x05 ∧
    refused kernel1 (launchBytes 1) (fun s => { s with fenced := ⟨BitVec.allOnes 192, 0, 0, 0, 0, 0⟩ }) = some 0x06 ∧
    refused { kernel1 with wb := 0x401000 } (launchBytes 1) = some 0x08 ∧ refused { kernel1 with lends := [(.ab, 0, 0x402000)] } (launchBytes 1) = some 0x08 ∧
    refused kernel1 (((launchBytes 1).set 48 0).set 49 0) = some 0x09 ∧ refused kernel1 ((launchBytes 1).set 120 1) = some 0x0A := by
  decide +kernel
theorem test_wit_placement_reported : Waiting.base? (placing [] 0) waiting9 = some 0 ∧ Waiting.fits (placing [] 0) waiting9 192 = none ∧
    idle (exec (.launchPlacement 9 192) (placing [] 0)) = true := by decide +kernel

/-- DispatchStart: parameters in g5 and g6 of a gang of two, rows in granules. -/
def launchP : Waiting :=
  { launch2 with params := { launch2.params with kernel := { launch2.params.kernel with params := [5, 6, 0] }, params := [7, 8, 9] } }
theorem test_wit_start : launchP.params.kernel.params.Nodup ∧ launchP.params.kernel.params[1]? = some 6 ∧ launchP.params.params[1]? = some 8 ∧
    (freshCtx launchP 0 [[0, 0], [2, 2]]).greg 6 = 8 ∧ (freshCtx launchP 0 [[0, 0], [2, 2]]).greg 0 = 0 ∧
    ([[0, 0], [2, 2]] : List (List Nat)).length = launchP.params.gang ∧ (∀ l ∈ ([[0, 0], [2, 2]] : List (List Nat)), l.length = launchP.params.rows) ∧
    (freshCtx launchP 0 [[0, 0], [2, 2]]).rows.map (fun r => (r.member, r.granule)) = [(0, 0), (0, 0), (1, 2), (1, 2)] ∧
    (freshCtx launchP 190 [[0, 0], [2, 2]]).members.map (fun m => m.cluster) = [190, 191] := by decide +kernel

/-- SwitchesAndRevocation: a set of two contexts that left together, a base that is taken, RESTORE in a context with a trap vector. -/
def outPair : List Ctx := [{ outCtx goodImage 0 with swap := some 4 }, { outCtx goodImage 0 with id := 1, swap := some 4, members := (freshCtx launch1 1 [[0]]).members }]
theorem test_wit_restore_set : let s := { dev base with ctxs := outPair, nextId := 5 }
    (∀ c ∈ outPair, c.switch = .out ∧ c.completed = false ∧ c.ended = none ∧ swapOpen s c = false ∧ ∃ i, c.image = some i ∧ imageOk i = true) ∧
    (s.ctxs.filter fun d => d.swap == some 4 && d.switch == .out && !d.completed && d.ended.isNone) = outPair ∧
    (let leaves := fun b => outPair.flatMap fun d => leavesAt (movedBase (outCtx goodImage 0) b d) d.members.length
     leaves 8 = [8, 9] ∧ orderRoom s (leaves 8) false = true ∧ 8 % 4 = (outCtx goodImage 0).base % 4 ∧
      (placeSet (movedBase (outCtx goodImage 0) 8) outPair (sendOrders s (leaves 8) false (.restore 0))).isSome = true ∧
      191 % 4 ≠ (outCtx goodImage 0).base % 4 ∧ idle (exec (.restore 0 191) s) = true ∧
      idle (exec (.restore 0 8) { s with orders := List.replicate 6 ⟨9, false, .place 3⟩ }) = true) ∧
    placeSet (movedBase (outCtx goodImage 0) 192) outPair { s with fenced := ⟨BitVec.allOnes 192, 0, 0, 0, 0, 0⟩ } = none := by
  refine ⟨?_, by decide +kernel, by decide +kernel, by decide +kernel⟩
  intro c hc
  simp only [outPair, List.mem_cons, List.not_mem_nil, or_false] at hc
  rcases hc with rfl | rfl <;> exact ⟨rfl, rfl, rfl, by decide +kernel, goodImage, rfl, by decide +kernel⟩
theorem test_restore :
    next (exec (.restore 0 8) { dev base with ctxs := outPair, nextId := 5 }) (fun t =>
      t.ctxs.map (fun c => (c.switch == .inside, c.members.map fun m => m.cluster)) == [(true, [8]), (true, [9])]) = true ∧
    next (exec (.restore 0 7) (dev (outCtx goodImage 0x100))) (fun t => (t.ctxOf 0).any fun c =>
      c.switch == .restoring && c.pc == 0x100 && c.tcause == 0x53) = true ∧
    next (exec (.restore 0 7) (dev (outCtx (imageOf 5) 0))) (fun t => t.links.map (fun x => x.body) == [.imgbad 0] &&
      (t.ctxOf 0).any fun c => c.ended == some ⟨2, 0x21, 0, 0⟩) = true := by decide +kernel

/-- TimerAndDeadline: Crimson has no slice; a multiple that was passed, not met. -/
theorem test_timer_passed : idle (exec (.timer 0 0) (timedDev { timed base with cls := .crimson })) = true ∧
    trapAfter (timedDev { timed base with cycle := 1199 }) (.timer 0 400) = some (0x50, 800) ∧
    idle (exec (.timer 0 400) (timedDev { timed base with cycle := 1199, lastTimer := 801 })) = true := by decide +kernel

/-! ## Witnesses: control records, outside accesses, the device -/

/-- The control queue of the host and one of domain 0, with a record at their head. -/
def hostQ : DevQueue := { queue1 with num := 0, domain := none, consumer := .control, logr := 7, ticket := 1, committed := [0], unreleased := [0] }
def domQ : DevQueue := { hostQ with num := 2, domain := some 0 }
def ctlDev (q : DevQueue) (bs : List Byte) : State :=
  { dev base with queues := [q], mem := Memory.writeN [] 0x21000 bs, domains := [(0, 0x30000)], ctxs := [] }
/-- A record: kind, completion record at 0x20040, the words from +16 on. -/
def recordOf (kind : Nat) (ws : List Nat) : List Byte := leBytes 8 kind ++ leBytes 8 0x20040 ++ ws.flatMap (leBytes 8) ++ List.replicate (112 - 8 * ws.length) 0
theorem test_wit_ctl_refused : headSlot (ctlDev domQ (recordOf 1 [])) 2 = some domQ ∧ domQ.consumer = .control ∧
    readRecord (ctlDev domQ (recordOf 1 [])) domQ.domain (domQ.slotAddr domQ.head) 128 = some (recordOf 1 []) ∧
    (ctlLocs (takeHead (ctlDev domQ (recordOf 1 [])) domQ) domQ.domain (fld (recordOf 1 []) 8 8)).isSome = true ∧
    fld (recordOf 1 []) 0 2 = 1 ∧ domQ.domain ≠ none ∧ hostQ.domain = none ∧ restZero (recordOf 1 [0, 0, 1]) [(0, 2), (8, 8), (16, 16)] = false ∧
    readRecord (ctlDev hostQ (recordOf 1 [0, 0, 1])) hostQ.domain (hostQ.slotAddr hostQ.head) 128 = some (recordOf 1 [0, 0, 1]) ∧
    (ctlLocs (takeHead (ctlDev hostQ (recordOf 1 [0, 0, 1])) hostQ) hostQ.domain (fld (recordOf 1 [0, 0, 1]) 8 8)).isSome = true := by
  exact ⟨rfl, rfl, by decide +kernel, by decide +kernel, by decide +kernel, nofun, rfl, by decide +kernel, by decide +kernel, by decide +kernel⟩
theorem test_wit_ctl_kinds : ∀ x ∈ [(0, false, ([] : List Nat), [(16, 112)]), (9, false, [], [(16, 112)]), (1, true, [1023, 0x30000], [(16, 16)]),
      (2, true, [0], [(16, 8)]), (3, false, [4095, 0x21800, 0, 0], [(16, 32)]), (4, false, [4095], [(16, 8)]),
      (5, false, [0, 0x20000, 0x10000], [(16, 24)]), (7, true, [1023, 3, 1, 4096, 0], [(16, 40)]), (8, true, [5], [(16, 8)]),
      (6, false, [0x1_0000_0000, 0x2000, 0x20080, 0, 0], [(16, 28), (48, 8)])],
    fld (recordOf x.1 x.2.2.1) 0 2 = x.1 ∧
      ControlRecord (ctlDev hostQ (recordOf x.1 x.2.2.1)) 0 hostQ (recordOf x.1 x.2.2.1) x.2.1 x.2.2.2 := by
  decide +kernel
/-- What the kinds ask for beside that. -/
def desc1 : List Byte := leBytes 8 0x24000 ++ leBytes 8 0x604 ++ leBytes 8 0x25000 ++ leBytes 8 0
theorem test_wit_ctl_own :
    (let d := ctlDev hostQ (recordOf 2 [0])
     paExists Fenced.clear 0x30000 = true ∧ (∀ x ∈ d.domains, x.1 ≠ 1023) ∧ (∃ x ∈ d.domains, x.1 = 0) ∧
      (∀ x ∈ (takeHead d hostQ).queues, x.domain ≠ some 0) ∧ (∀ p ∈ d.pairs, p.domain ≠ 0 ∧ p.num ≠ 1023) ∧ domainExists d 0 = true) ∧
    (queueOf (takeHead (ctlDev hostQ []) hostQ) 4095 (some 0) 0 desc1).isSome = true ∧
    readRecord ({ ctlDev hostQ [] with mem := Memory.writeN [] 0x21800 desc1 } : State) none 0x21800 32 = some desc1 ∧
    ({ dev base with queues := [{ queue1 with num := 4095 }] } : State).queueOf 4095 = some { queue1 with num := 4095 } ∧ queue1.sleepers = [] ∧
    (∀ c ∈ (ctlDev hostQ []).ctxs, c.completed = false → some 4095 ∉ c.queues.toList) ∧
    (({ ctlDev hostQ [] with pairs := [{ pair5 with done := [] }] } : State).pairs.find? fun p => p.num == 5) = some { pair5 with done := [] } := by
  exact ⟨by decide +kernel, by decide +kernel, by decide +kernel, rfl, rfl, by decide +kernel, by decide +kernel⟩
def shootDev (q : Nat) : State :=
  { ctlDev domQ [] with shoots := [{ k := 4, queue := q, slot := 0, domain := 0, lo := 0x30000, len := 0x10000, compl := 0x20040, via := some 0 }] }
theorem test_wit_shootdown : ∀ q ∈ [2, 7], ∃ x, ((shootDev q).shoots.find? fun x => x.k == 4) = some x ∧
    accessesOver (shootDev q) x.domain x.lo x.len = true ∧
    (let s1 := discardRange (shootDev q) x.domain x.lo x.len
     let s2 := { s1 with shoots := s1.shoots.filter fun y => y.k != 4 }
     (s2.queueOf x.queue).isSome = (q == 2)) := by
  intro q hq
  simp only [List.mem_cons, List.not_mem_nil, or_false] at hq
  rcases hq with rfl | rfl <;> exact ⟨_, rfl, by decide +kernel, by decide +kernel⟩
/-- A patch of one slot at the address where a context stands, with and without a pair for it. -/
def patchRec (n : Nat) : List Byte := recordOf 6 [0x1_0000_0000, 0x2000, 0x20080, n, if n = 0 then 0 else 0x20100]
def patchDev (n : Nat) (cs : List Ctx) : State :=
  let m := Memory.writeN (Memory.writeN [] 0x21000 (patchRec n)) 0x20080 [1, 2, 3, 4, 5, 6, 7, 8]
  { ctlDev hostQ [] with ctxs := cs, mem := Memory.writeN m 0x20100 (leBytes 8 0x2000 ++ leBytes 8 0x2002), tlb := [(0, page), (0, { probeXlat with w := false })] }
theorem test_wit_patch : ∀ x ∈ [(0, ([] : List Ctx), false), (0, [base], true), (1, [base], false)],
    let s1 := takeHead (patchDev x.1 x.2.1) hostQ
    let map := (List.range x.1).map fun _ => (0x2000, 0x2002)
    ControlRecord (patchDev x.1 x.2.1) 0 hostQ (patchRec x.1) false [(16, 28), (48, 8)] ∧ fld (patchRec x.1) 20 4 = 1 ∧
      fld (patchRec x.1) 24 8 = 0x2000 ∧ fld (patchRec x.1) 40 4 = x.1 ∧ domainExists s1 0 = true ∧
      readRecord s1 (some 0) (fld (patchRec x.1) 32 8) 8 = some [1, 2, 3, 4, 5, 6, 7, 8] ∧
      (readRecord s1 (some 0) (fld (patchRec x.1) 48 8) (16 * x.1)).isSome = true ∧
      (translateN s1 0 false .patch 0x10000 8).toOption.isSome = true ∧
      ((s1.ctxs.filter fun c => c.domain == 0 && !c.completed && c.codeAddrs.any (inTarget 0x2000 1)).any fun c =>
        c.codeAddrs.any fun p => inTarget 0x2000 1 p && !(map.any fun x => x.1 == p.toNat)) = x.2.2 := by
  decide +kernel
theorem test_control :
    next (exec (.domcreate 2) (ctlDev domQ (recordOf 1 []))) (fun t => Memory.readN t.mem 0x20040 2 == [1, 0x40]) = true ∧
    next (exec (.domcreate 0) (ctlDev hostQ (recordOf 1 [1023, 0x30000]))) (fun t => t.domains == [(0, 0x30000), (1023, 0x30000)]) = true ∧
    next (exec (.unassignedControlKind 0) (ctlDev hostQ (recordOf 9 []))) (fun t => Memory.readN t.mem 0x20040 2 == [1, 0x41]) = true ∧
    next (exec (.nvmepair 0) (ctlDev hostQ (recordOf 7 [6, 0x50003, 1, 16, 0]))) (fun t =>
      t.pairs == [{ num := 6, port := 3, requester := 5, ns := 1, entries := 16, domain := 0, submitted := [], done := [] }]) = true ∧
    next (exec (.patch 0) (patchDev 0 [base])) (fun t => Memory.readN t.mem 0x20040 2 == [1, 0x44]) = true ∧
    next (exec (.patch 0) (patchDev 1 [base])) (fun t => Memory.readN t.mem 0x10000 8 == [1, 2, 3, 4, 5, 6, 7, 8] &&
      Memory.readN t.mem 0x20048 1 == [0] && t.shoots.length == 1 && ((t.ctxOf 0).any fun c => c.pc == 0x2002) &&
      next (exec (.shootdownAck (t.shoots.map fun x => x.k).sum) t) (fun u => Memory.readN u.mem 0x20048 1 == [1] && u.shoots == [])) = true := by
  decide +kernel

/-- HostReservesAndCommits, ControlWindow: each clause over the queues of QueueInstructions; the control window disabled, enabled, with a bad and a good
descriptor. -/
def enabled : State := { dev base with ctlEn := true, queues := [hostQ] }
def described : State := { dev base with ctlDesc := ⟨#[0x24000, 0x704, 0x25000, 0], rfl⟩ }
theorem test_wit_windows : (qdev base queue1).phase = .running ∧ (qdev base queue1).queueOf 7 = none ∧ (qdev base queue1).queueOf 1 = some queue1 ∧
    queue1.ticket < queue1.size ∧ ¬(fullQ.ticket < fullQ.size ∨ fullQ.ticket - fullQ.size ∉ fullQ.unreleased) ∧
    ((1 : DWord).toNat < queue1.ticket ∧ queue1.head ≤ (1 : DWord).toNat ∧ (1 : DWord).toNat ∉ queue1.committed) ∧
    ¬((2 : DWord).toNat < queue1.ticket) ∧ (0x3FFFF % 64 ≠ 8 ∧ 0x3FFFF % 64 ≠ 16) ∧ (0x40028 ∉ [0x40000, 0x40008, 0x40010, 0x40018, 0x40020]) ∧
    (1 : DWord).getLsbD 0 = true ∧ (0 : DWord).getLsbD 0 = false ∧ enabled.ctlEn = true ∧ described.ctlEn = false ∧
    (queueOf (dev base) 0 none 0 ((dev base).ctlDesc.toList.flatMap fun w => leBytes 8 w.toNat)).isNone = true ∧
    (queueOf described 0 none 0 (described.ctlDesc.toList.flatMap fun w => leBytes 8 w.toNat)).isSome = true ∧ (∀ x ∈ described.shoots, x.queue ≠ 0) := by
  exact ⟨rfl, rfl, rfl, by decide +kernel, by decide, by decide, by decide, by decide, by decide, by decide, by decide, rfl, rfl, by decide +kernel, by decide +kernel, nofun⟩
theorem test_windows :
    next (exec (.ticket 1) (qdev base queue1)) (fun t => t.hostRead == [2, 0, 0, 0, 0, 0, 0, 0]) = true ∧
    next (exec (.ticket 7) (qdev base queue1)) (fun t => t.hostRead == List.replicate 8 0xFF) = true ∧
    next (exec (.commit 1 2) (qdev base queue1)) (fun t => t.errcnt == [(1, 1)]) = true ∧
    next (exec (.registerWrite 0x48 1) (qdev base queue1)) (fun t => (t.queueOf 1).any fun q => q.committed == [1]) = true ∧
    next (exec (.errcnt 1 3) { dev base with errcnt := [(1, 7)] }) (fun t => t.errcnt == [(1, 4)]) = true ∧
    next (exec .enEnable (dev base)) (fun t => t.ctlBad && !t.ctlEn) = true ∧
    next (exec (.registerWrite 0x40020 1) described) (fun t => t.ctlEn && (t.queueOf 0).isSome) = true ∧
    next (exec .enDisable enabled) (fun t => !t.ctlEn && (t.queueOf 0).isNone) = true := by decide +kernel

/-- OutsideAccesses: the last populated byte of die 0 that is not reserved, the first reserved one, a hole, the second die. -/
def numbered : State := { dev base with deviceNumber := some 3 }
theorem test_wit_outside : numbered.phase = .running ∧ numbered.deviceNumber.isSome = true ∧ reachable numbered (128 * 10 ^ 9 - 2 ^ 30 - 1) = true ∧
    reachable numbered (128 * 10 ^ 9 - 2 ^ 30) = false ∧ reachable numbered (128 * 10 ^ 9) = false ∧ reachable numbered (2 ^ 37) = true ∧ reachable numbered (2 ^ 39) = false ∧
    numbered.memPoisoned 0x20000 = false ∧ Memory.wf numbered.mem = true ∧ (∀ k, k < 8 → reachable numbered (0x20000 + k) = true) := by
  refine ⟨rfl, rfl, by decide +kernel, by decide +kernel, by decide +kernel, by decide +kernel, by decide +kernel, rfl, by decide +kernel, by decide +kernel⟩
theorem test_outside :
    next (exec (.hostCxlMemWrite 0x20000 [1, 0, 2]) numbered) (fun t => t.mem == [(0x20000, 1), (0x20002, 2)] && t.log == []) = true ∧
    next (exec (.hostCxlMemWrite (2 ^ 39 - 1) [1, 2]) numbered) (fun t => t.log == [.badWrite (2 ^ 39 - 1)] && t.mem == []) = true ∧
    next (exec (.remoteAccess 0x20000 (.atomic .add false 0xFFFFFFFF 0)) { numbered with mem := [(0x20000, 5)] })
      (fun t => t.mem == [(0x20000, 4)] && t.hostRead == [5, 0, 0, 0]) = true := by decide +kernel

/-- DeviceManagement: every phase and boot verdict; words that exist. -/
theorem test_wit_device : State.reset.phase = .atReset ∧ (dev base).phase ≠ .atReset ∧ (dev base).phase = .running ∧
    wordExists (dev base) (.vreg 0 0 15 63) = true ∧ wordExists (dev base) (.vreg 0 0 16 0) = false ∧ wordExists (dev base) (.greg 0 63) = true ∧
    wordExists (dev base) (.buf 0 0 .ab 0xFFF) = true ∧ wordExists (dev base) (.mem 0) = true ∧ .mem 0 ∉ (dev base).poison ∧
    bringUp { State.reset.boot with securityOk := false } = (1, 0x01, Fenced.clear) ∧
    bringUp { State.reset.boot with signatureOk := false } = (2, 0x03, Fenced.clear) ∧
    bringUp { State.reset.boot with rollback := 1 } = (2, 0x04, Fenced.clear) ∧ bringUp State.reset.boot = (5, 0, Fenced.clear) := by
  decide +kernel
theorem test_device : next (step State.reset) (fun t => t.phase == .running) = true ∧
    next (exec (.runtimeFence (.cluster 0)) (dev base)) (fun t => t.log == [.replace, .killed 0] && (t.ctxOf 0).any fun c => c.ended == some ⟨2, 0x22, 0, 0⟩) = true ∧
    next (exec .selfTestReport (dev base)) (fun t => t.log.all fun r => match r with
      | .selfTest b => b.length == 80 && b.take 8 == [0x52, 0x41, 0x56, 0x58, 1, 0, 5, 0]
      | _ => false) = true := by decide +kernel

/-! ### More of the same statements -/

/-- ControlRecords: a pair with a command in a storage queue, and with one in an engine dump; a disable of queue 0 that waited for a
shootdown. -/
def freeRec : List Byte := recordOf 8 [5]
def pairFree (c : Ctx) : State := { ctlDev hostQ freeRec with ctxs := [c], pairs := [{ pair5 with done := [] }] }
def flush5 : EForm := { fn := 2, tag := 0, head := 0, p0 := .lit 5, p1 := .lit 0, p2 := .lit 0, p3 := .lit 0 }
def flushCmd : Cmd := { e := { seq := 0, esn := 1, item := .slot (.nsubFlush flush5) }, copied := [], held := false, st := .queued }
def storing : Ctx := { base with members := base.members.map fun mb => { mb with storageQ := [flushCmd] } }
def dumping : Ctx := { base with dump := [{ esn := 1, eng := .storage, member := 0, cmd := flushCmd, dropped := false }] }
theorem test_wit_free : ∀ c ∈ [base, storing, dumping],
    ControlRecord (pairFree c) 0 hostQ freeRec true [(16, 8)] ∧
    ((takeHead (pairFree c) hostQ).pairs.find? fun p => p.num == 5) = some { pair5 with done := [] } := by
  intro c hc
  simp only [List.mem_cons, List.not_mem_nil, or_false] at hc
  rcases hc with rfl | rfl | rfl <;> exact ⟨by decide +kernel, rfl⟩
theorem test_free : next (exec (.nvmefree 0) (pairFree base)) (fun t => t.pairs == []) = true ∧
    (∀ c ∈ [storing, dumping], next (exec (.nvmefree 0) (pairFree c)) (fun t =>
      t.pairs.length == 1 && Memory.readN t.mem 0x20040 2 == [1, 0x42]) = true) := by decide +kernel
def closing : State :=
  { dev base with ctlEn := true, ctlClosing := true, queues := [hostQ], ctxs := [],
                  shoots := [{ k := 4, queue := 0, slot := 0, domain := 0, lo := 0x30000, len := 0x10000, compl := 0x20040, via := none }] }
theorem test_wit_closing : accessesOver closing 0 0x30000 0x10000 = true ∧ (∃ x ∈ closing.shoots, x.queue = 0) ∧
    next (exec (.shootdownAck 4) closing) (fun t => !t.ctlEn && (t.queueOf 0).isNone && t.shoots == [] && t.mem == []) = true ∧
    next (exec .enDisable { closing with ctlClosing := false }) (fun t => t.ctlEn && t.ctlClosing) = true := by
  refine ⟨by decide +kernel, ⟨_, List.mem_singleton.2 rfl, rfl⟩, ?_⟩
  decide +kernel
theorem test_wit_ack_waits : let c := emitted base (.vldg { vmovF with va := 6 })
    accessesOver { closing with ctxs := [{ c with rows := c.rows.map fun r => { r with held := some (0, [⟨0, 0x30000, 0, [⟨0x30000, false⟩]⟩]) } }] } 0 0x30000 0x10000 = false := by
  decide +kernel

/-- ControlWindow: what each register reads. -/
def windowDev (addr : Nat) : State :=
  { dev base with agenda := [.registerRead addr], queues := [{ queue1 with head := 3, lastSlot := 9 }], errcnt := [(1, 7)],
                  ctlDesc := ⟨#[0x24000, 0x704, 0x25000, 0], rfl⟩, ctlBad := true }
theorem test_register_reads : ∀ z ∈ [(72, (9 : Nat)), (88, 3), (80, 7), (16, 0), (0x40008, 0x704), (0x40020, 2), (0x40028, 0), (0x60, 0)],
    next (step (windowDev z.1)) (fun t => t.agenda == [] && t.hostRead == leBytes 8 z.2) = true := by decide +kernel

/-- OutsideAccesses: the window of the host moved, an address below it, a fenced stack; atomics of a peer's lanes. -/
def moved : State := { numbered with hdmBase := 2 ^ 40, mem := [(0x20000, 5)] }
theorem test_wit_hdm : moved.phase = .running ∧ 2 ^ 40 - 1 < moved.hdmBase ∧ moved.hdmBase + 2 ^ 39 ≤ 2 ^ 40 + 2 ^ 39 ∧
    next (exec (.hostCxlMemRead (2 ^ 40 + 0x20000) 1) moved) (fun t => t.hostRead == [5]) = true ∧
    idle (exec (.hostCxlMemRead 0x20000 1) moved) = true ∧
    reachable { moved with fenced := ⟨0, 0, 2, 0, 0, 0⟩ } 0x20000 = true ∧ reachable { moved with fenced := ⟨0, 0, 3, 0, 0, 0⟩ } 0x20000 = false := by
  decide +kernel
theorem test_wit_peer_lane : (∀ k, k < 4 → reachable moved (0x20000 + k) = true) ∧
    next (exec (.remoteAccess 0x20000 (.lane 0 .f32 .rne 0x3F800000 0)) { moved with mem := [(0x20002, 0x80), (0x20003, 0x3F)] })
      (fun t => t.hostRead == [0, 0, 0x80, 0x3F] && t.mem == [(0x20003, 0x40)]) = true ∧
    next (exec (.remoteAccess 0x20000 (.lane 2 .n32 .rne 0x80000000 0)) moved) (fun t => t.mem == [(0x20003, 0x80)]) = true := by decide +kernel

/-- DeviceManagement: an image whose signature is no signature; the reset of a device that runs. -/
def unsignedBoot : BootInputs := { State.reset.boot with image := some ⟨[1], [], []⟩ }
theorem test_wit_boot : unsignedBoot.securityOk = true ∧ unsignedBoot.fusesOk = true ∧ edVerify [] [1] [] = false ∧
    bringUp unsignedBoot = (2, 0x03, Fenced.clear) ∧ (dev base).phase ≠ .atReset ∧
    next (exec .reset { numbered with boot := unsignedBoot }) (fun t => t.phase == .atReset && t.ctxs == [] && t.deviceNumber == none) = true ∧
    next (exec .reset { State.reset with boot := unsignedBoot, deviceNumber := some 3 }) (fun t =>
      t.phase == .amber 2 0x03 && t.deviceNumber == some 3) = true ∧
    next (exec (.criticalTemperature 0) (dev base)) (fun t => t.fenced.clusters == 2 ^ 48 - 1) = true := by
  decide +kernel

/-- AddressChecks: a root table, and a copy, in a stack that is fenced. -/
def fencedRoot : State := { moreDev base with fenced := ⟨0, 0, 1, 0, 0, 0⟩ }
theorem test_wit_fenced_root : paExists fencedRoot.fenced 0x40000 = false ∧
    (fencedRoot.tlb.find? fun x => covers 0 (BitVec.ofNat 64 0x60000) x) = none ∧
    (match lookup fencedRoot 0 0x60000 with
      | .error e => decide (e.cause = .ptebad)
      | .ok _ => false) = true := by decide +kernel

/-- BufferLoadStore: the second row of a member stores to a word of CB before the first (lane 5 alone), which then leaves it there. -/
def storingRows (i : Instr) : Ctx :=
  let c := emitted pair i
  let word := fun (r : Row) (k : Nat) => Lanes.fill (if k = 4 then 0x100 else BitVec.ofNat 32 (r.item + 1))
  { c with rows := c.rows.map fun r => { r with mask := 32, regs := r.regs.zipIdx.map fun x => ⟨word r x.2, .g⟩ } }
def byItem (n : Nat) (s : State) : State := { s with hand := { s.hand with row := n } }
def cbWord (t : State) : Option (List Byte) := ((t.ctxOf 0).bind fun c => c.member 0).map fun m => Memory.readN m.cb.cells 0x100 4
theorem test_wit_vst_leads : let f := lf .f32 0 4 6 0 3
    let c := storingRows (.vst f)
    let s := byItem 1 { dev c with hand := handOf (entryOf c) }
    ∃ r, RowTurn s (.vst f) ⟨c, r, entryOf c, false⟩ ∧ (RowSlot.mk c r (entryOf c) false).leads = true ∧
      next (exec (.vst f) s) (fun t => cbWord t == some [2, 0, 0, 0] && next (exec (.vst f) (byItem 0 { t with hand := s.hand }))
        fun u => cbWord u == some [2, 0, 0, 0] && (u.ctxOf 0).any fun x => x.rows.all fun r => r.item > 1 || r.issue == 1) = true := by
  exact ⟨_, ⟨rfl, rfl, rfl, rfl, by decide +kernel, by decide +kernel⟩, by decide +kernel, by decide +kernel⟩

/-- HandleAndGatherCommands: what FGAT reports of a block that cannot be fetched: with V of a handle without directory HDLBAD, from a page
that nothing maps its cause; the directory of the handle in the data page: an entry of length 0, one of a block too short; of two checksums
one at least is wrong. -/
def handled (desc : BitVec 256) (s : State) : State :=
  { s with ctxs := s.ctxs.map fun c => { c with members := c.members.map fun mb => { mb with handles := mb.handles.setIfInBounds 5 desc } } }
def fgatV : EForm := ef 0 0x00040501 0x100 64 1 0
def directory (w0 w1 : Nat) : State :=
  { handled (0x20000 + 2 ^ 64 * 0x21000 + 2 ^ 192 * 16) (cmdDev (.fgat fgatV) .fetch) with
      mem := Memory.writeN [] 0x21000 (leBytes 8 w0 ++ leBytes 8 w1) }
theorem test_wit_fgat_block : ∀ z ∈ [(cmdDev (.fgat fgatV) .fetch, Cause.hdlbad, 5, (0 : LaneMask)),
      ({ handled (0x60000 + 2 ^ 192 * 16) (cmdDev (.fgat fgatG) .fetch) with domains := [(0, 0x40000)] }, .nomap, 0x60000, 0),
      (directory 0 0, .decf, 0, 1), (directory (127 * 2 ^ 40) 0, .decf, 0, 1)],
    let i := if z.2.1 = .nomap then Instr.fgat fgatG else .fgat fgatV
    let x := if z.2.1 = .nomap then fgatG else fgatV
    let v := viewOf z.1 .fetch i
    ∃ s2, EngineTurn z.1 .fetch i v ∧ fgatBad v.s1 v.c 0 x = none ∧ v.x.spoiled = none ∧
      touchRanges v.c 0 [(.ab, 0x100, 64)] v.s1 = .ready s2 ∧
      (match fetchBlock s2 v.c (v.x.port v.mb) (handleOf (handleAt v.mb 5)) 5 0 (x.head.getLsbD 0) with
        | .error y => decide (y = (z.2.1, z.2.2.1))
        | .ok _ => false) = true ∧
      engineFaultAfter z.1 i = some (engineTrap v.x.e z.2.1 z.2.2.1 z.2.2.2) := by
  intro z hz
  simp only [List.mem_cons, List.not_mem_nil, or_false] at hz
  rcases hz with rfl | rfl | rfl | rfl <;>
    exact ⟨_, ⟨⟨rfl, rfl, rfl, rfl, rfl, nofun, rfl, rfl, rfl, rfl⟩, rfl⟩, by decide +kernel, rfl, rfl, by decide +kernel, by decide +kernel⟩

theorem test_wit_fgat_crc : (∃ w ∈ [5, 6], crc32c (List.replicate 128 0) ≠ w) ∧ ∀ w ∈ [5, 6],
    let v := viewOf (directory (128 * 2 ^ 40) w) .fetch (.fgat fgatV)
    let h := handleOf (handleAt v.mb 5)
    h.dir ≠ 0 ∧ h.kind = 0 ∧ 2 ^ h.logb = 128 ∧
      (fetchRead v.s1 v.c (v.x.port v.mb) h.dir 16).toOption = some (leBytes 8 (128 * 2 ^ 40) ++ leBytes 8 w) ∧
      (fetchRead v.s1 v.c (v.x.port v.mb) h.data 128).toOption = some (List.replicate 128 0) := by
  refine ⟨?_, by decide +kernel⟩
  by_cases h : crc32c (List.replicate 128 0) = 5
  · exact ⟨6, by simp, by rw [h]; decide⟩
  · exact ⟨5, by simp, h⟩

/-- SparseCommands: SMADD of a stream without values, the first and the second; an operand of SPRD and of SCHK that does not fit behind one
that does. -/
def plainStreams (a b : Bool) (x : EForm) : State :=
  let p : Bool → StreamPos := fun v => ⟨0x23000, 2, v, true, 0⟩
  let s := cmdDev (.smadd x) .fetch
  { s with ctxs := s.ctxs.map fun c => { c with members := c.members.map fun mb => { mb with
      fetchQ := mb.fetchQ.map fun y => { y with e := { y.e with streams := [p a, p b] } } } },
           hand := { s.hand with entry := none } }
theorem test_wit_smadd_plain : ∀ z ∈ [(false, true, 0), (true, false, 1)],
    let x := ef 3 8 0x100 2 0 0
    let s := plainStreams z.1 z.2.1 x
    let v := viewOf s .fetch (.smadd x)
    ∃ p q, EngineTurn s .fetch (.smadd x) v ∧ v.x.e.streams = [p, q] ∧ p.val = z.1 ∧ q.val = z.2.1 ∧
      (placeOf v.s1 v.c 0 .ab 0x100 (8 + 2 * 4)).isSome = true ∧
      engineFaultAfter s (.smadd x) = some (engineTrap v.x.e .strbad z.2.2 0) := by
  intro z hz
  simp only [List.mem_cons, List.not_mem_nil, or_false] at hz
  rcases hz with rfl | rfl <;>
    exact ⟨_, _, ⟨⟨rfl, rfl, rfl, rfl, rfl, nofun, rfl, rfl, rfl, rfl⟩, rfl⟩, rfl, rfl, rfl, by decide +kernel, by decide +kernel⟩
theorem test_wit_operands_bad :
    (let x := ef 0 0 0x100 0x400000 0x1002 0x2000
     let v := viewOf (cmdDev (.sprd x) .fetch) .fetch (.sprd x)
     EngineTurn (cmdDev (.sprd x) .fetch) .fetch (.sprd x) v ∧ RangesFit v.s1 v.c 0 [(.ab, 0x100, 32)] ∧
       placeOf v.s1 v.c 0 .wb 0x400000 192 = none ∧
       engineFaultAfter (cmdDev (.sprd x) .fetch) (.sprd x) = some (engineTrap v.x.e .frange 0x400000 0)) ∧
    (let x := ef 0 0x01400000 0x100 0x202 0x301 0
     let v := viewOf (cmdDev (.schk x) .fetch) .fetch (.schk x)
     EngineTurn (cmdDev (.schk x) .fetch) .fetch (.schk x) v ∧ RangesFit v.s1 v.c 0 [(.ab, 0x100, 32)] ∧ 0x202 % 4 ≠ 0 ∧
       engineFaultAfter (cmdDev (.schk x) .fetch) (.schk x) = some (engineTrap v.x.e .frange 0x202 0)) := by
  exact ⟨⟨⟨⟨rfl, rfl, rfl, rfl, rfl, nofun, rfl, rfl, rfl, rfl⟩, rfl⟩, by decide +kernel, by decide +kernel, by decide +kernel⟩,
    ⟨⟨rfl, rfl, rfl, rfl, rfl, nofun, rfl, rfl, rfl, rfl⟩, rfl⟩, by decide +kernel, by decide, by decide +kernel⟩

/-- MatrixCommands: scales that pass the end of WB by a word, metadata out of order in every register; the latches after MMA are free. -/
theorem test_wit_mscl_bad : ∀ x ∈ [ef 1 0 0x3FFE04 0 0 0, ef 0 0 0x3FFE02 0 0 0],
    let v := viewOf (cmdDev (.mscl x) .matrix) .matrix (.mscl x)
    EngineTurn (cmdDev (.mscl x) .matrix) .matrix (.mscl x) v ∧ (pval x.p0 % 4 ≠ 0 ∨ placeOf v.s1 v.c 0 .wb (pval x.p0) 512 = none) ∧
      engineFaultAfter (cmdDev (.mscl x) .matrix) (.mscl x) = some (engineTrap v.x.e .mrange (pval x.p0) 0) := by
  intro x hx
  simp only [List.mem_cons, List.not_mem_nil, or_false] at hx
  rcases hx with rfl | rfl <;>
    exact ⟨⟨⟨rfl, rfl, rfl, rfl, rfl, fun _ => ⟨rfl, by decide +kernel⟩, rfl, rfl, rfl, rfl⟩, rfl⟩, by decide +kernel, by decide +kernel⟩
def mmasBadF : EForm := ef 1 2 0 0 1 0
def unorderedMeta : State :=
  let s := metaDev (.mmas mmasBadF)
  let bad : Lanes := Lanes.build fun l => if l = 63 then 0x06880680 else 0x06880688
  { s with ctxs := s.ctxs.map fun c => { c with members := c.members.map fun mb => { mb with bank := { mb.bank with
      queue := mb.bank.queue.map fun y => { y with copied := y.copied.zipIdx.map fun z => if z.2 = 3 then bad else z.1 } } } } }
theorem test_wit_mmas_bad : let v := viewOf unorderedMeta .matrix (.mmas mmasBadF)
    EngineTurn unorderedMeta .matrix (.mmas mmasBadF) v ∧ mmaCheck v.s1 v.c 0 v.mb (.mmas mmasBadF) mmasBadF = none ∧ v.x.spoiled = none ∧
      (v.x.copied.findIdx? fun r => (List.range 64).any fun l => decide (r.get l ≠ 0x06880688)) = some 3 ∧
      (0x06880680 / 8 % 8 ≤ 0x06880680 % 8 ∨ 0x06880680 / 64 % 8 ≤ 0x06880680 / 8 % 8) ∧
      engineFaultAfter unorderedMeta (.mmas mmasBadF) = some (engineTrap v.x.e .mdfmt 3 (1#64 <<< 63)) := by
  exact ⟨⟨⟨rfl, rfl, rfl, rfl, rfl, fun _ => ⟨rfl, by decide +kernel⟩, rfl, rfl, rfl, rfl⟩, rfl⟩, by decide +kernel, rfl, by decide +kernel,
    by decide, by decide +kernel⟩

/-- WaitsAndRetirement: an MWAIT whose range is lent out; a wait behind a fault, one command that it covers before it. -/
def lentWait : Ctx :=
  let c := heldCtx (.mwait mwaitF)
  { c with members := c.members.map fun mb => { mb with lends := [⟨.cb, 0xFE0, 0x20, .lent 1⟩] } }
theorem test_wit_mwait_lent : let s := ashDev lentWait ashCtx
    (∃ mb h, lentWait.member 0 = some mb ∧ mb.waitOf (.mwait mwaitF) = some h ∧ lentWait.switch = .inside ∧ mb.bank.queue = []) ∧
    mwaitF.head.getLsbD 0 = true ∧ (placeOf s lentWait 0 .cb 0xFE0 32).isSome = true ∧
    (match touchRanges lentWait 0 [(.cb, 0xFE0, 32)] s with
      | .ready _ => false
      | _ => true) = true ∧ idle (exec (.mwait mwaitF) s) = true := by
  exact ⟨⟨_, _, rfl, rfl, rfl, rfl⟩, rfl, by decide +kernel, by decide +kernel, by decide +kernel⟩
def beforeFault : Ctx :=
  let c := behindFault (.cwait cwaitF) .copy true
  let y : Cmd := { failedCmd with st := .queued }
  { c with members := c.members.map fun mb => { mb with copyQ := [y, { failedCmd with e := { failedCmd.e with seq := 1 } }]
                                                        holds := mb.holds.map fun h => { h with seq := 2 } } }
theorem test_wit_wait_before : ∃ mb h z, beforeFault.member 0 = some mb ∧ mb.waitOf (.cwait cwaitF) = some h ∧ z ∈ mb.copyQ ∧
    z.e.seq < h.seq ∧ (queueFault mb.copyQ).map (fun y => y.1.e.seq) = some 1 ∧ z.e.seq = 0 ∧
    idle (exec (.cwait cwaitF) (dev beforeFault)) = true :=
  ⟨_, _, _, rfl, rfl, List.mem_cons_self .., by decide, rfl, rfl, by decide +kernel⟩

/-- MarkersTakeEffect: the read of a CDEF waits behind a line that a port has accepted. -/
theorem test_wit_cdef_port : let s := { dev cdefM with accepted := [⟨1, 0, [(⟨0x20004, false⟩, 1)], none, []⟩] }
    (∃ e, MarkerTurn s 0 cdefM (.stream e (.cdef 2 true 0x20000 [⟨0x20000, false⟩, ⟨0x20004, false⟩]))) ∧
    portBusy s [⟨0x20000, false⟩, ⟨0x20004, false⟩] = true ∧ portBusy (dev cdefM) [⟨0x20000, false⟩, ⟨0x20004, false⟩] = false ∧
    idle (exec (.cdefMarker 0) s) = true :=
  ⟨⟨_, rfl, rfl, by decide +kernel⟩, by decide +kernel, by decide +kernel, by decide +kernel⟩

/-- LaunchAndPlacement: a message to the leaf controller of cluster 191 with a permit and without one. -/
theorem test_wit_orders :
    orderRoom (placing [] 0) [191] false = true ∧
    next (exec (.launchPlacement 9 191) (placing [] 0)) (fun t => t.orders == [⟨191, false, .place 9⟩]) = true ∧
    (let s := { placing [] 0 with orders := List.replicate 6 ⟨191, false, .place 3⟩ }
     orderRoom s [191] false = false ∧ (Waiting.fits s waiting9 191).isSome = true ∧ idle (exec (.launchPlacement 9 191) s) = true ∧
       next (exec (.launchPlacement 9 190) s) (fun t => t.orders.length == 7) = true) := by decide +kernel

/-- SwitchesAndRevocation: the dump is handed over again in several turns. -/
def rehanded : Ctx :=
  { base with switch := .rehanding, tvec := 0
              dump := [{ esn := 4, eng := .copy, member := 0, cmd := { failedCopy with st := .queued }, dropped := false }] }
theorem test_wit_rehanding : rehanded.switch = .rehanding ∧ rehanded.ended = none ∧
    finishRestore (dev rehanded) 0 ≠ dev rehanded ∧
    next (exec (.restore 0 0) (dev rehanded)) (fun t => (t.ctxOf 0).any fun c =>
      c.switch == .inside && c.members.all fun mb => mb.copyQ.length == 1) = true := by
  exact ⟨rfl, rfl, by decide +kernel, by decide +kernel⟩

/-! ## kas -/

/-- Lines of a lane instruction. -/
def kline (op : Nat) (t : ElemTy) (vd va vb : VReg) : KasLane :=
  { op := op, guard := none, t := t, fn := 0, rnd := none, vd := vd, va := va, ka := .none, vb := vb, kb := .none, vc := 0, disp := none, la := none }
/-- The example behind R132. -/
def kasLoop : List KasLine :=
  [.kernel "loop", .rows 2, .regs 16, .carry [4], .gen (.gloop .next .lc0 (.reg 0)) (some (.num 3)) .none, .label "top",
   .laneImm (kline 0x00 .i32 4 4 0) (.lit (.int (.num 1))), .gen (.gadd .next 3 3 (.reg 0)) (some (.num 2)) (.lend .lc0),
   .gen (.gadd .next 0 0 (.reg 0)) none .exit]
theorem test_kas_example : (assemble kasLoop).map (fun l => l.map fun k => (k.slots.drop 1).take 2) =
    some [[0xA0F3104000000001, 0x61FFF80061810002]] := by decide +kernel
/-- The guarded row behind R132, a literal of R129, the examples of R425 and R366. -/
theorem test_kas_slots :
    let sc : KasScope := { labels := [], data := [], equs := [] }
    kasLane sc 16 [4] { kline 0x00 .f32 4 4 5 with guard := some (true, 3), rnd := some .rz, ka := .k1 } = some [0x8038040405002010] ∧
    kasLane sc 16 [] { kline 0x00 .f32 4 4 5 with ka := .k1 } = none ∧
    kasElement sc .f32 (.int (.num 2)) = some 0x40000000 ∧ kasElement sc .f32 (.dec true 20 (-1)) = some 0xC0000000 ∧
    kasLane sc 16 [] { kline 0x40 .f32 5 2 0 with fn := 2, disp := some (.num 4), la := some 2 } = some [0xC0F0050200010082] ∧
    kasGen sc 256 [] 0 (.gli .next 5 0) (some (.num 0x091A2B3C)) .none = some 0x00000090A91A2B3C ∧
    kasData sc 16 [.num (-1), .num 65535, .add (.num 1) (.mul (.num 2) (.num 3))] = some [255, 255, 255, 255, 7, 0] := by decide +kernel

/-! ## Witnesses: values worked by hand (R256, R257, R258, R434) -/

/-- PruneAndPredicateResults: from the state 2^40 the xorshift gives 0x8224410200000000, the draw 0x822441/2^24 = 0.5083…, then
0x1810010004000000 and 0.0939…: 0.5 goes and 0.51 stays; of an F16 word 0.5 goes and 0.1 stays; any number goes below an infinite
threshold. -/
theorem test_prune_draw :
    pruneLane .f32 0x3F000000 0x3F800000 (2 ^ 40) = (0, 0x8224410200000000) ∧
    pruneLane .f32 0x3F028F5C 0x3F800000 (2 ^ 40) = (0x3F028F5C, 0x8224410200000000) ∧
    pruneLane .f32 0x7F000000 0x7F800000 (2 ^ 40) = (0, 0x8224410200000000) ∧
    pruneLane .f16 0x2E663800 0x3C003C00 (2 ^ 40) = (0x2E660000, 0x1810010004000000) := by decide +kernel

/-- CollectiveResults: the steps and the running combination of any list exist; four neighbours are added in pairs, where a scan loses the
two ones behind 2^24; ties of the ranking and of the kept four by lower index; the keys of F32. -/
def treeOf (comb : Option Nat × FpFlags → Option Nat × FpFlags → Option Nat × FpFlags) (l : List (Option Nat × FpFlags)) :
    Nat → Nat → Option Nat × FpFlags
  | 0, k => l.getD k (none, 0)
  | n + 1, k => comb (treeOf comb l n k) (treeOf comb l n (k + 2 ^ n))
def runningOf (comb : Option Nat × FpFlags → Option Nat × FpFlags → Option Nat × FpFlags) (l : List (Option Nat × FpFlags)) :
    Nat → Option Nat × FpFlags
  | 0 => (none, 0)
  | k + 1 => match l[k]? with
    | some x => if x.1.isSome then comb (runningOf comb l k) x else runningOf comb l k
    | none => (none, 0)
theorem test_wit_collective_order (comb : Option Nat × FpFlags → Option Nat × FpFlags → Option Nat × FpFlags)
    (l : List (Option Nat × FpFlags)) :
    (∃ step : Nat → Nat → Option Nat × FpFlags, (∀ k, step 0 k = l.getD k (none, 0)) ∧
      ∀ n k, step (n + 1) k = comb (step n k) (step n (k + 2 ^ n))) ∧
    ∃ acc : Nat → Option Nat × FpFlags, acc 0 = (none, 0) ∧
      ∀ k x, l[k]? = some x → acc (k + 1) = if x.1.isSome then comb (acc k) x else acc k :=
  ⟨⟨treeOf comb l, fun _ => rfl, fun _ _ => rfl⟩, runningOf comb l, rfl, fun k x h => by simp only [runningOf, h]⟩
def four : List (Option Nat × FpFlags) :=
  [(some 0x4B800000, 0), (none, 0), (some 0x3F800000, 0), (some 0x3F800000, 0)] ++ List.replicate 60 (none, 0)
theorem test_collective_order :
    (reduceElem (redElem .f32 .rne 0) four).1 = some 0x4B800001 ∧
    ((scanElems (redElem .f32 .rne 0) (none, 0) four).getLastD (none, 0)).1 = some 0x4B800000 ∧
    (rankAll [(5, 0, 10), (7, 1, 11), (5, 2, 12), (7, 3, 13)]).map (fun x => x.2.1) = [1, 3, 0, 2] ∧
    keptPositions [1, 2, 3, 4, 4, 3, 2, 1] = [2, 3, 4, 5] ∧ keptPositions (List.replicate 8 5) = [0, 1, 2, 3] ∧
    keptPositions [9, 1, 1, 1, 1, 1, 1, 9] = [0, 1, 2, 7] ∧ magnitude .i8 0x80 = 128 ∧ magnitude .f16 0xBC00 = 0x3C00 ∧
    rankKey .f32 0x80000000 = rankKey .f32 0 ∧ rankKey .f32 0x7FC00000 < rankKey .f32 0xFF800000 := by decide +kernel
/-- VTOPK with fewer candidates than lanes: only the lanes that hold a candidate depend on the sources. -/
theorem test_wit_vtopk_few : let f := lf .i32 8 4 10 5 1
    let s := laneDev rowBase (.vtopk f)
    let t := slotIn rowBase (.vtopk f)
    f.vd.toNat + 1 ≤ f.vb.toNat ∧ f.vb.toNat + 1 < t.r.regs.length ∧ RowTurn s (.vtopk f) t ∧
      ∃ srcs, Readable s t (.vtopk f) ((List.range 2).map fun q => ⟨f.va.toNat + q, t.e.kA, false⟩)
        (fun _ _ l => if l < 5 then (List.range 2).flatMap fun q => (List.range 64).map fun j => (q, j) else []) srcs := by
  exact ⟨by decide +kernel, by decide +kernel, ⟨rfl, rfl, rfl, rfl, by decide +kernel, by decide +kernel⟩, _, rfl, by decide +kernel⟩

/-! ## Witnesses: emission faults, a discard, stores read back -/

/-- FetchEmissionAndReplay: one slot for each emission cause. -/
def vliHole : Instr := .vli ⟨15, false, .i32, 3, 0, .hole 2⟩
def holeStretch : Ctx := { base with stretches := [⟨3, false, false, 0, List.replicate 16 ⟨vliHole, 0, 0, [], 0⟩⟩] }
def longStretch : Ctx := { base with stretches := [⟨3, false, false, 0, List.replicate 4096 ⟨.vmov vmovF, 0, 0, [], 0⟩⟩] }
def fullBacking : Ctx := { base with stretches := capt.stretches ++ (List.range 32).map fun k =>
  ⟨BitVec.ofNat 8 (k + 10), true, false, k, List.replicate 4096 ⟨.vmov vmovF, 0, 0, [], 0⟩⟩ }
def carriedMov (r : BitVec 8) (k : CarryCode) : Instr := .vmov { vmovF with va := r, ka := k }
theorem test_wit_emission_causes : wideMov.wellFormed = true ∧ (Instr.vote voteF).wellFormed = true ∧ vliHole.wellFormed = true ∧
    (carriedMov 4 .k1).wellFormed = true ∧
    emissionCause inHandler (.vote voteF) = some (.inspf, 0) ∧
    emissionCause base (.vld { lf .f32 3 4 0 255 1 with la := 1 }) = none ∧
    emissionCause base (.vote { voteF with la := 1 }) = some (.lafld, 0) ∧
    emissionCause base (carriedMov 4 .k1) = some (.carryr, 4) ∧ emissionCause base (carriedMov 1 .k2) = some (.carryk, 2) ∧
    emissionCause base (carriedMov 1 .k1) = none ∧ emissionCause voteStretch (.vote voteF) = some (.vqovf, 0) ∧
    emissionCause holeStretch vliHole = some (.caphole, 0) ∧ emissionCause holeStretch (.vmov vmovF) = none ∧
    emissionCause longStretch (.vmov vmovF) = some (.caplen, 0) ∧ emissionCause fullBacking (.vmov vmovF) = some (.capfull, 0) := by
  decide +kernel

/-- HandlerDiscard: of two copies the one that has run stays; the name under capture leaves, the defined one stays. -/
def startedCmd : Cmd := { flushCmd with e := { flushCmd.e with seq := 3, item := .slot (.cpy cpyF) }, st := .started }
def discarding : Ctx :=
  { inHandler with
    stretches := held1.stretches ++ [⟨4, false, false, 0, []⟩]
    taken := [(0, 0)]
    members := inHandler.members.map fun mb => { mb with
      copyQ := [startedCmd, failedCmd], holds := [entryOf base],
      board := [⟨3, .copy, none, []⟩, ⟨failedCmd.e.seq, .copy, none, []⟩] } }
theorem test_wit_discard : (dev discarding).ctxOf (dev discarding).hand.ctx = some discarding ∧ discarding.priv = true ∧
    discarding.handler = true ∧ discarding.channel = [] ∧
    next (exec .grteDiscard (dev discarding)) (fun t => (t.ctxOf 0).any fun c =>
      c.stretches == held1.stretches && c.taken == [] && c.members.all fun mb =>
        mb.copyQ == [startedCmd] && mb.holds == [] && mb.board == [⟨3, .copy, none, []⟩]) = true :=
  ⟨rfl, rfl, rfl, rfl, by decide +kernel⟩

/-- GeneratorLoad and GeneratorStore: four bytes at the end of a line, into a buffer that holds another line; a byte that neither buffer
nor view holds is read at home. -/
def endLoc : GLoc := ⟨0x2007C, false⟩
def storedBefore : Member :=
  (storeBytes (dev base) base (freshMember launch1.params 0) [(⟨0x20100, false⟩, 9)] {}).2
theorem test_wit_store_load : base.mm1 = false ∧ endLoc.pa % 128 + 4 = 128 ∧ storedBefore.psb.length = 1 ∧
    (∀ p ∈ storedBefore.psb, p.data.length = 128) ∧
    (let ls := (List.range 4).map endLoc.next
     let r := storeBytes (dev base) base storedBefore (ls.zip [1, 2, 3, 4]) {}
     (loadBytes r.1.mem r.2 ls).1 = [1, 2, 3, 4] ∧
     (loadBytes [(0x20100, 5), (0x20101, 6)] r.2 [⟨0x20100, false⟩, ⟨0x20101, false⟩]).1 = [9, 6]) := by decide +kernel

/-! ## Witnesses: ranges at their bounds -/

/-- CopyCommand, HandleAndGatherCommands and MatrixCommands: each bound and the first value past it, with the value reported. -/
def rangeOf (fn : BitVec 4) (p0 p1 p2 : DWord) : Option Nat := cpyRangeBad (dev big) big 0 (ef fn 0 p0 p1 p2 0)
theorem test_wit_cpy_bounds : rangeOf 0 0x20000 0x20100 4 = none ∧ rangeOf 0 0x20000 0x20100 0 = some 0 ∧
    rangeOf 0 0x20000 0x20100 6 = some 6 ∧ rangeOf 0 0x20000 0x20100 0x1000000 = none ∧
    rangeOf 0 0x20000 0x20100 0x1000004 = some 0x1000004 ∧ rangeOf 0 0x20002 0x20101 4 = some 0x20002 ∧
    rangeOf 0 0x20000 0x20101 4 = some 0x20101 ∧ rangeOf 2 0x3FFFFC 0x20000 4 = none ∧ rangeOf 2 0x3FFFFC 0x20000 8 = some 0x3FFFFC ∧
    rangeOf 8 0x20000 0x400000 4 = some 0x400000 := by decide +kernel
def gatherOf (head : BitVec 32) (p0 l count : DWord) : Option Nat := fgatBad (dev big) big 0 (ef 0 head p0 l count 0)
theorem test_wit_fgat_bounds : gatherOf 0x00040500 0 65536 64 = none ∧ gatherOf 0x00040500 0 65540 1 = some 65540 ∧
    gatherOf 0x00040500 0 4 64 = none ∧ gatherOf 0x00040500 0 4 65 = some 65 ∧ gatherOf 0x01040500 0 4 65 = none ∧
    gatherOf 0x00040500 0 4 0 = some 0 ∧ gatherOf 0x00040500 2 3 1 = some 2 ∧ gatherOf 0x00040500 0 2 1 = some 2 ∧
    gatherOf 0x00040500 0x3FFFFC 4 2 = some 0x3FFFFC := by decide +kernel
def mmaOf (p0 p1 p2 p3 : DWord) : Option Nat :=
  (big.member 0).bind fun mb => mmaCheck (dev big) big 0 mb (.mma (ef 0 0 p0 p1 p2 p3)) (ef 0 0 p0 p1 p2 p3)
theorem test_wit_mma_bounds : mmaOf 0 0 768 0 = none ∧ mmaOf 0 0 769 0 = some 769 ∧ mmaOf 0 0 0 0 = some 0 ∧ mmaOf 0 4 1 0 = some 4 ∧
    mmaOf 2 4 0 0 = some 2 ∧ mmaOf 0 0 1 124 = some 124 ∧ mmaOf 0x3FFF84 0 1 0 = some 0x3FFF84 ∧ mmaOf 0x3FFF80 0 1 0 = none ∧
    mmaOf 0 0x17F800 1 0 = none ∧ mmaOf 0 0x17F808 1 0 = some 0x17F808 := by decide +kernel
/-- A copy to a lent range of the owner of the cluster: the window begins at `lendBase`, and ends with the range. -/
theorem test_wit_lent_place : let s := ashDev lending ashCtx
    lending.member 0 ≠ none ∧ (placeOf s ashCtx 0 .ab (lendBase + 0x400) 0x400).isSome = true ∧
    placeOf s ashCtx 0 .ab (lendBase + 0x400) 0x404 = none ∧ placeOf s ashCtx 0 .ab (lendBase + 0x3FC) 4 = none ∧
    placeOf s ashCtx 0 .wb (lendBase + 0x400) 4 = none := by decide +kernel

/-! ## Witnesses: fenced ports, full rings, the bitmap, copies after a retry -/

/-- StorageCommands and ControlRecords: a completion ring that is full and a port that is fenced make both sides wait, and a fenced port
takes no pair. -/
def ringFull : State := { dev base with pairs := [{ pair5 with submitted := [submittedCmd], done := List.replicate 2 (9, 0, ⟨0, 0, 0, false, false⟩) }] }
def port (n : BitVec 4) : Fenced := { Fenced.clear with storage := n }
theorem test_storage_waits :
    idle (exec (.nsubRetire 5 0 ⟨0, 0, 0, false, false⟩ [9]) ringFull) = true ∧
    idle (exec (.nsubRetire 5 0 ⟨0, 0, 0, false, false⟩ [9]) { retireDev with fenced := port 1 }) = true ∧
    idle (exec (.nsubRetire 5 0 ⟨0, 0, 0, false, false⟩ [9]) { retireDev with fenced := port 14 }) = false ∧
    idle (exec (.nsubRead readF) { nsubDev (.nsubRead readF) with fenced := port 1 }) = true ∧
    idle (exec (.nsubRead readF) (nsubDev (.nsubRead readF))) = false ∧
    next (exec (.nvmepair 0) { ctlDev hostQ (recordOf 7 [6, 0x50003, 1, 16, 0]) with fenced := port 8 }) (fun t =>
      t.pairs == [] && Memory.readN t.mem 0x20040 2 == [1, 0x41]) = true := by decide +kernel

/-- OutsideAccesses: no module of the host's port is left; no port of the peers is left. -/
theorem test_wit_no_links : let noHost := { numbered with fenced := { Fenced.clear with ucie := 255 } }
    let noPeers := { numbered with fenced := { Fenced.clear with ranoc := 0xFFFF } }
    ¬noHost.fenced.ucie ≠ BitVec.allOnes 8 ∧ noPeers.fenced.ranoc = BitVec.allOnes 16 ∧
    idle (exec (.hostCxlMemRead 0x20000 1) noHost) = true ∧ idle (exec (.hostCxlMemRead 0x20000 1) noPeers) = false ∧
    idle (exec (.remoteAccess 0x20000 (.load 1)) noPeers) = true ∧ idle (exec (.remoteAccess 0x20000 (.load 1)) noHost) = false ∧
    paExists noHost.fenced (2 ^ 52) = false ∧ paExists noPeers.fenced (2 ^ 52) = true ∧ paExists noPeers.fenced (2 ^ 53) = false := by
  decide +kernel

/-- HostReservesAndCommits: a commit writes the whole byte of the bitmap, whatever stood there; so does the enabling of a queue (R437). -/
theorem test_bitmap : next (exec (.commit 1 1) { qdev base queue1 with mem := [(0x22000, 0xF0)] }) (fun t =>
      Memory.read t.mem 0x22000 == 2) = true ∧
    next (exec (.registerWrite 0x40020 1) { described with mem := [(0x25000, 0xFF), (0x25001, 0xFF)] }) (fun t =>
      t.ctlEn && Memory.readN t.mem 0x25000 2 == [0, 0]) = true := by decide +kernel

theorem test_wit_bitmap : (∃ l f, translate (qdev base queue1) 0 (queue1.bitmap + 0) false .store = .ok (l, f) ∧ l.rep = false) ∧
    queue1.domain = some 0 ∧ hostQ.domain = none ∧ paMappable (qdev base hostQ).fenced (hostQ.bitmap + 1) = true ∧
    Memory.wf (qdev base queue1).mem = true :=
  ⟨⟨_, _, rfl, rfl⟩, rfl, rfl, by decide +kernel, rfl⟩

/-- CopyCommand: the second of two copies to the same bytes waits and keeps its entry; after a retry the first has its entry again before the
second can run (R348, R349). -/
def twoCopies (st : CmdState) : Ctx :=
  let c := (emitSlot (emitted big (.cpy cpyG)) (.cpy cpyG)).getD big
  match c.member 0 with
  | some mb =>
    let cmd := fun (n : Nat) st => ({ e := c.stream.getD n (entryOf c), copied := [], held := false, st := st } : Cmd)
    c.putMember 0 ({ mb with handed := 2 }.setQueue .copy [cmd 0 st, cmd 1 .queued])
  | none => c
def secondDev : State := { dev (twoCopies .queued) with hand := handOf ((twoCopies .queued).stream.getD 1 (entryOf base)) }
theorem test_wit_cpy_waits : ∃ c mb x s0, secondDev.ctxOf 0 = some c ∧ c.member 0 = some mb ∧ cmdInHand secondDev mb .copy (.cpy cpyG) = some x ∧
    c.switch = .inside ∧ ensureBoard (engineMemory secondDev .copy) c 0 mb x.e (.cpy cpyG) = some (s0, false) ∧ cpyRangeBad s0 c 0 cpyG = none ∧
    (cpyLocs s0 c (cpyDst cpyG.fn) 0x100 16 .store).toOption.isSome = true ∧ (cpyLocs s0 c (cpySrc cpyG.fn) 0x20080 16 .load).toOption.isSome = true ∧
    next (exec (.cpy cpyG) secondDev) (fun t => !t.waited && (t.ctxOf 0).any fun c => (c.member 0).any fun mb =>
      mb.board.map (fun b => b.seq) == [1] && mb.copyQ.all fun y => y.st == .queued) = true :=
  ⟨_, _, _, _, rfl, rfl, rfl, rfl, rfl, by decide +kernel, by decide +kernel, by decide +kernel, by decide +kernel⟩
def retrying : Ctx :=
  let t : Trap := { cause := .mchk, dom := .x, esn := (entryOf (emitted big (.cpy cpyG))).esn, pc := 0x2000 }
  { twoCopies (.faulted t) with
    handler := true, priv := true, handling := some { handlingG with trap := t, row := some 0, eng := some (0, .copy), resume := 0x2000, skipLen := 0 } }
theorem test_retry_lists : next (exec .grteRetry (dev retrying)) (fun t => (t.ctxOf 0).any fun c => (c.member 0).any fun mb =>
    mb.copyQ.all (fun y => y.st == .queued) && mb.board.map (fun b => b.seq) == [0, 1]) = true := by decide +kernel

/-- DispatchCompletion: the lines at a port with a link left are performed; one at a port with none stays there (log 84), and keeps its own
dispatch from its record. -/
def twoPorts : State :=
  { dev (overCtx 0x20040) with
    fenced := { Fenced.clear with ucie := 255 }
    accepted := [⟨5, 1, [(⟨2 ^ 52, false⟩, 7)], none, []⟩, ⟨0, 2, [(⟨2 ^ 53, false⟩, 8)], none, []⟩] }
theorem test_completion_ports : (overCtx 0x20040).over = true ∧ linesHeld twoPorts (overCtx 0x20040) = false ∧
    (∀ a ∈ twoPorts.accepted, a.place = none) ∧
    next (exec (.dispatchCompletion 0) twoPorts) (fun t => t.accepted == twoPorts.accepted.take 1 && Memory.read t.mem (2 ^ 53) == 8 &&
      Memory.read t.mem (2 ^ 52) == 0 && (t.ctxOf 0).any fun c => c.completed) = true ∧
    idle (exec (.dispatchCompletion 0) { twoPorts with accepted := twoPorts.accepted.map fun a => { a with owner := 0 } }) = true := by
  decide +kernel

/-! ## Witnesses: clauses of the last review -/

/-- GeneratorLoad: a snapshot taken ahead of the load stands for the home value, once, and no store overlays it. -/
def aheadOf : Ctx := { base with members := base.members.map fun mb => { mb with early := [⟨0x20000, List.replicate 128 9⟩] } }
theorem test_gld_early : next (exec (.gld .next .b false 2 1 0) (memDev (withG aheadOf 1 0x20000) 0x20000 [5])) (fun t =>
    (t.ctxOf 0).any fun c => c.greg 2 == 9 && c.members.all fun mb => mb.early == [] && mb.view.map (fun v => v.pa) == [0x20000]) = true := by
  decide +kernel

/-- GeneratorStore under MM1: performed at once, buffer, view and snapshots empty; a VSTG of no lane keeps the view. -/
def mm1Ctx : Ctx :=
  { aheadOf with mm1 := true, members := aheadOf.members.map fun mb => { mb with view := [⟨0x20080, List.replicate 128 0⟩] } }
theorem test_wit_store_mm1 : mm1Ctx.mm1 = true ∧ ([7] : List Byte) ≠ [] ∧ (0x2007F % 128 + 1 ≤ 128) ∧ (∀ mb ∈ mm1Ctx.members, mb.psb = []) ∧
    (dev mm1Ctx).fenced.linked 0 = true ∧ (dev mm1Ctx).accepted = [] ∧
    next (exec (.gst .next .b 2 1 0) (dev (withG (withG mm1Ctx 1 0x2007F) 2 7))) (fun t => t.mem == [(0x2007F, 7)] &&
      (t.ctxOf 0).any fun c => c.members.all fun mb => mb.psb == [] && mb.view == [] && mb.early == []) = true := by decide +kernel
def vstgNone : LForm := { lf .f32 0 6 4 4 0 with pg := 3 }
theorem test_vstg_no_lane : next (exec (.vstg vstgNone) (laneDev { rowBase with mm1 := true, members := mm1Ctx.members } (.vstg vstgNone)))
    (fun t => (t.ctxOf 0).any fun c => c.members.all fun mb => mb.view.length == 1) = true := by decide +kernel

/-- AddressChecks: the bytes that the own buffer overlays are not read from a poisoned word, and the atomic's own line rewrites it. -/
def rewritten (n : Nat) (mb : Member) : Member :=
  { mb with psb := [⟨⟨0x20000, false⟩, List.replicate n (some 1) ++ List.replicate (128 - n) none, [], [], []⟩] }
theorem test_poison_own_line : base.members.all (fun mb =>
    let at' := fun n k => poisonedFor k (poisonMem base) base (rewritten n mb) ((List.range 8).map (page.loc 0x20000).next)
    at' 8 .load == none && at' 8 .atomic == none && at' 2 .load == some 2 && at' 2 .atomic == some 0) = true := by decide +kernel
theorem test_wit_poison_own_line : ∃ mb p, base.member 0 = some mb ∧ p ∈ (rewritten 8 mb).psb ∧ p.loc = (⟨0x20000, false⟩ : GLoc).line ∧ p.lost = [] ∧
    (∀ k < 8, (p.data.getD k none).isSome = true) ∧ (poisonMem base).fenced.linked 0 = true ∧ ∀ q ∈ mb.psb, q.loc ≠ (⟨0x20000, false⟩ : GLoc).line :=
  ⟨_, _, rfl, List.mem_singleton.2 rfl, rfl, rfl, by decide +kernel, rfl, by decide +kernel⟩

/-- LaneFaultsStopTheRow: a VLDG passes by poisoned bytes that the buffer overlays, and a VAMO drains them first. -/
theorem test_wit_poisoned_view : base.members.all (fun mb =>
    let u : LaneUnit := ⟨2, 0x20000, 0, (List.range 4).map (page.loc 0x20000).next⟩
    poisonedView (poisonMem base) (rewritten 4 mb) [u] == none && poisonedView (poisonMem base) mb [u] == some (0x20000, 4) &&
      poisonedDrained (poisonMem base) 0 (rewritten 4 mb) [u] == none && poisonedDrained (poisonMem base) 0 mb [u] == some (0x20000, 4)) = true := by
  decide +kernel

/-- CaptureAndReplay: CAPX and RPLY of a name in a register, while a capture is open and of a name that is not defined. -/
theorem test_capture_by_register : GenReady (dev (withG base 1 7)) (withG base 1 7) (nameRegs (.reg 1)) ∧
    trapAfter (dev (withG base 1 7)) (.capx .next (.reg 1)) = some (0xF, 7) ∧ trapAfter (dev (withG base 1 7)) (.rply .next (.reg 1)) = some (0xF, 7) ∧
    trapAfter (dev { withG base 1 7 with stretches := [⟨1, false, false, 0, []⟩] }) (.rply .next (.reg 1)) = some (0xD, 7) := by
  refine ⟨⟨rfl, by decide +kernel⟩, ?_⟩
  decide +kernel

/-- VotesAndStorageCompletions: the word of a completion of a write on pair 513. -/
theorem test_poll_word : pollWord 513 (0xABCD, 1, ⟨0x81, 2, 3, true, false⟩) = 0x000006013A81ABCD := by decide +kernel

/-- QueueInstructions: a sleeper that a commit of slot HEAD wakes, a commit of another slot, a BITMAP that nothing maps. -/
def sleeper : Ctx := { base with id := 1, gen := .sleepQueue 1 5 .next }
def sleptOn (dq : DevQueue) : State := { dev base with ctxs := [base, sleeper], queues := [{ dq with sleepers := [1] }] }
theorem test_wit_commit : (sleptOn queue1).queueOf 1 = some { queue1 with sleepers := [1] } ∧ (sleptOn queue1).ctxOf 1 = some sleeper ∧
    (queue1.head ∈ queue1.committed ++ [0]) ∧ (∃ x d sq, sleeper.gen = .sleepQueue x d sq ∧ sq ≠ .exit) ∧ queue1.head ∉ queue1.committed ++ [1] :=
  ⟨rfl, rfl, by decide, ⟨_, _, _, rfl, by decide⟩, by decide⟩
theorem test_commit_wakes :
    (commitSlot (sleptOn queue1) { queue1 with sleepers := [1] } 0 |> fun t =>
      t.queues.map (fun q => (q.head, q.committed, q.sleepers)) == [(1, [], [])] &&
        (t.ctxOf 1).any fun c => c.gen == .running && c.greg 5 == 0 && c.taken == [(1, 0)] && c.pc == base.pc + 1 && c.latches == 1) = true ∧
    (commitSlot (sleptOn queue1) { queue1 with sleepers := [1] } 1 |> fun t =>
      t.queues.map (fun q => (q.head, q.committed, q.sleepers)) == [(0, [1], [1])] && t.mem == [(0x22000, 2)] &&
        (t.ctxOf 0).any fun c => c.latches == 1) = true ∧
    (mirror (dev base) { queue1 with bitmap := 0x60000, committed := [1] } 0).mem = [] := by decide +kernel
theorem test_wit_unmapped_bitmap : ∃ e, translate (dev base) 0 0x60000 false .store = .error e := ⟨_, rfl⟩
/-- QPOP of a queue of launch records waits behind a FENCE marker too. -/
theorem test_qpop_waits : idle (exec (.qpop .next 2 0) (qdev (marked (.fence .gang)) { queue1 with consumer := .launch })) = true := by
  decide +kernel

/-- PruneAndPredicateResults: a vote that every row has passed resolves, one that a row has yet to take does not. -/
def votesAt (k : VoteKind) (seq : Nat) : Ctx :=
  { base with vq := [{ newVote base 1 k with seq := some seq, anySet := true, count := 5 }], rows := base.rows.map fun r => { r with issue := 3 } }
theorem test_votes_resolve : ([VoteKind.any, .all, .cnt].map fun k => (votesAt k 2).resolveVotes.vq.map fun v => v.result) =
      [[some 1], [some 1], [some 5]] ∧ ((votesAt .any 3).resolveVotes.vq.map fun v => v.result) = [none] ∧
    (∀ r ∈ (votesAt .any 2).rows, r.live = false ∨ 2 < r.issue ∨ 2 ∈ r.ahead) ∧ ¬(∀ r ∈ (votesAt .any 3).rows, r.live = false ∨ 3 < r.issue ∨ 3 ∈ r.ahead) := by
  decide +kernel
theorem test_vcmp_nan : cmpElem .f32 2 0x7FC00000 0 = (false, FpFlags.nv) ∧ cmpElem .f32 1 0x7FC00000 0 = (true, 0) ∧
    cmpElem .f32 0 0x80000000 0 = (true, 0) ∧ cmpElem .f16 6 0x7C01 0 = (true, FpFlags.nv) ∧ cmpElem .bf16 4 0x7F80 0x4000 = (true, 0) := by
  decide +kernel

/-- BufferLoadStore: an earlier store of a row of lower item stays behind the later one of a row of higher item (R32). -/
theorem test_store_earlier_slot :
    let c := { storingRows (.vst (lf .f32 0 4 6 0 3)) with stores := [⟨4, 1, 0, [(.buf .cb, 0x100)]⟩] }
    c.outranked (entryOf c) ((c.rowOf 0).getD (freshRow launch1.params 0 0 0)) true (.buf .cb, 0x100) = true ∧
    ({ c with stores := [⟨0, 0, 0, [(.buf .cb, 0x100)]⟩] }.outranked (entryOf c) ((c.rowOf 0).getD (freshRow launch1.params 0 0 0)) true
      (.buf .cb, 0x100)) = false := by decide +kernel

/-- GlobalLaneAccesses: units of the formats: -2.5 in SX4 with a step of 1 and E = 129 (the example behind R165), 1.5 in F16, -3 in INT8. -/
theorem test_units : decodeUnit .f32 false 2 1 [0x81, 0xE4, 0xAC, 0x7E, 0xC2, 0xDE, 0x00, 0xA8, 0xF0, 0x50, 0xA0, 0x01] = 0xC0200000 ∧
    decodeUnit .f32 false 5 0 [0x00, 0x3E] = 0x3FC00000 ∧ decodeUnit .f32 false 4 0 [0xFD] = 0xC0400000 ∧
    encodeUnit .f32 (fun _ => 0x3FC00000) ⟨0, 0, 6, []⟩ = ([0xC0, 0x3F], 0) ∧ encodeUnit .f32 (fun _ => 0xC0600000) ⟨0, 0, 4, []⟩ = ([0xFC], FpFlags.nx) := by
  decide +kernel

/-- MatrixCommands: the weight block and the sums of the example behind R170; a group of eight whose kept elements are 1, 2, 5 and 7. -/
theorem test_block_product :
    let w := matBlock 4 [0x81, 0xE4, 0xAC, 0x7E, 0xC2, 0xDE, 0x00, 0xA8, 0xF0, 0x50, 0xA0, 0x01]
    let a : MatBlock := ⟨127, List.replicate 16 ⟨false, 8, 0⟩⟩
    a36Add 0x3F0000000 (a36Decode (blockProduct 4 a w 0x3C00 0x2E66)) = 0x3F9261400 := by decide +kernel
theorem test_sparse_elem : let regs := [Lanes.build fun l => if l = 0 then 0xF51 else 0]
    (List.range 8).map (fun k => sparseElem ((List.range 4).flatMap fun q => BitVec.ofNat 8 (q + 1) :: List.replicate 255 0) regs k 0) =
      [0, 1, 2, 0, 0, 3, 0, 4] := by decide +kernel

/-- MarkersTakeEffect: a poisoned word under the leader's own bytes is not read by CDEF.mem. -/
theorem test_wit_cdef_overlaid :
    let c := { cdefM with members := cdefM.members.map (rewritten 8) }
    let s := { dev c with poison := [.mem 0x20004] }
    (∃ e, MarkerTurn s 0 c (.stream e (.cdef 2 true 0x20000 [⟨0x20000, false⟩, ⟨0x20004, false⟩]))) ∧
    portBusy s [⟨0x20000, false⟩, ⟨0x20004, false⟩] = false ∧
    next (exec (.cdefMarker 0) s) (fun t => (t.ctxOf 0).any fun d => d.stream == [] && d.gen == c.gen && d.handling == none) = true := by
  refine ⟨⟨_, rfl, rfl, by decide +kernel⟩, by decide +kernel, by decide +kernel⟩

/-- DispatchCompletion: lines that the drain itself brings to a port with no link keep the record back; lent ranges are untouched behind it. -/
def stuckOver : Ctx :=
  { overCtx 0x20040 with members := base.members.map fun mb => { mb with psb := [⟨⟨2 ^ 52, false⟩, [some 7], [], [], []⟩] } }
theorem test_completion_owed : let s := { dev stuckOver with fenced := { Fenced.clear with ucie := 255 } }
    stuckOver.over = true ∧ linesHeld s stuckOver = false ∧ (∃ mb ∈ stuckOver.members, mb.psb ≠ []) ∧
    next (exec (.dispatchCompletion 0) s) (fun t => t.accepted.map (fun a => a.owner) == [0] && ((t.ctxOf 0).any fun c => !c.completed) &&
      idle (exec (.dispatchCompletion 0) t)) = true ∧
    next (exec (.dispatchCompletion 0) (dev { overCtx 0x20040 with members := lending.members })) (fun t =>
      (t.ctxOf 0).any fun c => c.completed && c.members.all fun mb => mb.lends.all fun l => l.st == .untouched) = true := by
  refine ⟨by decide +kernel, by decide +kernel, ⟨_, List.mem_singleton.2 rfl, by decide⟩, by decide +kernel, by decide +kernel⟩

/-- SwitchesAndRevocation: an ash context does not come back before the range that it held has spilled. -/
def ashHolder : Ctx := { base with id := 1, cls := .ash, revoked := true }
theorem test_wit_owes : (∃ d ∈ ({ dev owing with ctxs := [owing, ashHolder] } : State).ctxs, ∃ mb ∈ d.members, ∃ l ∈ mb.lends, l.st = .owed 1) ∧
    ashHolder.revoked = true ∧ idle (exec (.ashResume 1) { dev owing with ctxs := [owing, ashHolder] }) = true ∧
    idle (exec (.restore 1 0) { dev owing with ctxs := [owing, { ashHolder with revoked := false, switch := .out }] }) = true := by
  refine ⟨⟨_, List.mem_cons_self .., _, List.mem_singleton.2 rfl, _, List.mem_singleton.2 rfl, rfl⟩, rfl, by decide +kernel, by decide +kernel⟩

/-- DeviceManagement: each end of bring-up. -/
theorem test_bring_up :
    let b := (State.reset).boot
    let b := { b with securityOk := true, fusesOk := true, signatureOk := true, image := none, version := 3, rollback := 3, skoconOk := true, failing := Fenced.clear }
    bringUp { b with fusesOk := false } = (1, 2, Fenced.clear) ∧ bringUp { b with skoconOk := false } = (3, 5, Fenced.clear) ∧
    bringUp { b with failing := { Fenced.clear with hbm := 255, ucie := 1 } } = (3, 6, { Fenced.clear with hbm := 255 }) ∧
    bringUp { b with failing := { Fenced.clear with ucie := 1 } } = (5, 0, { Fenced.clear with ucie := 1 }) ∧ b.verified = true := by
  decide +kernel

/-! ## Rules of the last review -/

/-- R29, R46: after EXIT a row retires past a BAR marker that is still pending, and past a copy; a CWAIT keeps it. -/
def exiting (c : Ctx) : Ctx := { c with gen := .stopped }.settle
theorem test_retire_past_marker : (exiting (marked (.bar .gang))).rows.all (fun r => !r.live) = true ∧
    (exiting (emitted base (.cpy cpyF))).rows.all (fun r => !r.live) = true ∧
    (exiting (emitted base (.cwait cwaitF))).rows.all (fun r => r.live) = true := by decide +kernel

/-- R289: a Monochrome CSRR of a counter waits for a CWAIT that holds a member; R302: nothing is inspected behind one. -/
theorem test_drained_holds : (heldCtx (.cwait cwaitF)).drained = false ∧
    ({ heldCtx (.cwait cwaitF) with members := base.members }.unheld 0 = true) := by decide +kernel

/-- R385: behind an MWAIT that is still pending no later command of the bank runs. -/
theorem test_turn_behind_mwait : let c := heldCtx (.mwait cwaitF)
    c.members.map (fun mb => mb.behindMwait { failedCmd with e := { seq := 9, esn := 9, item := .slot (.mclr cpyF) } }) = [true] := by
  decide +kernel

/-- R128: a VAMO takes no displacement. R127: CAPB.dry of an expression; a stretch name above 255. R130: the heads of engine commands. -/
theorem test_kas_commands :
    let sc : KasScope := { labels := [], data := [], equs := [] }
    kasLane sc 16 [] { kline 0x44 .i32 5 6 8 with fn := 7, disp := some (.num 4) } = none ∧
    kasGen sc 256 [] 0 (.capbDry .next 0) (some (.num 12)) .none = some 0x000004000001010C ∧
    kasGen sc 256 [] 0 (.capb .next 0) (some (.num 256)) .none = none ∧
    kasEngine sc 64 (.cpy 2 true) (some (.num 9)) [.lit (.num 4100), .g 11, .lit (.num 8192)] =
      some [0xF0F2000900000001, 0x1004, 0x400000000000000B, 0x2000, 0] ∧
    kasEngine sc 64 (.nsub 1 true) (some (.num 7)) [.lit (.num 7), .g 5, .g 6, .lit (.num 15)] =
      some [0xFCF1000700000001, 7, 0x4000000000000005, 0x4000000000000006, 15] ∧
    kasEngine sc 64 (.fgat false true (.d 5) 32 (.num 2)) none [.lit (.num 0), .lit (.num 128), .lit (.num 100)] =
      some [0xF1F0000001200501, 0, 128, 100, 0] ∧
    kasEngine sc 64 (.sprd (.num 4096) (.num 16384) (.num 64)) none (List.replicate 4 (.g 1)) =
      some (0xFEF0000000CFFCFF :: List.replicate 4 0x4000000000000001) ∧
    kasEngine sc 64 (.sprd (.num 4100) (.num 16384) (.num 64)) none (List.replicate 4 (.g 1)) = none ∧
    kasEngine sc 64 (.cwait 0) (some (.num 65535)) [] = some [0xFBF0FFFF00000000, 0, 0, 0, 0] := by decide +kernel

/-- R224: a snapshot taken ahead displaces no line of the view. R335: what stands in a context before its saved lines makes them leave at its key. -/
theorem test_snapshot_ahead : (((takeSnapshot (dev mm1Ctx) 0 0 0x20010).ctxOf 0).any fun c => c.members.all fun mb =>
    mb.view.map (fun v => v.pa) == [0x20080] && mb.early.map (fun v => v.pa) == [0x20000]) = true := by decide +kernel
theorem test_drain_key : let c := { marked (.phase true false) with stream := [{ markerEntry base (.fenceX .next) (.phase true false) with key := 35 }], keyHold := some 36 }
    c.key = 36 ∧ c.drainKey = 35 ∧ { base with keyHold := some 36 }.drainKey = 36 := by decide +kernel

end Sys2Proof.Tests
end

/-! ## BAR0 (R5, R273, R320): what a write and a read at each offset do -/

namespace Sys2Proof.Machine

theorem hostUp_of_running {s : State} (hrun : s.phase = .running) (hlink : s.fenced.ucie ≠ BitVec.allOnes 8) :
    s.hostUp = true := by
  have hl : s.fenced.linked 1 = true := bne_iff_ne.2 hlink
  simp [State.hostUp, State.up, hrun, hl]

/-! ### Offsets -/

/-- The offsets at which the control window holds a register (R320). -/
def ctlOffsets : List Nat := [0x40000, 0x40008, 0x40010, 0x40018, 0x40020]

/-- The window and the register that offset `r` of window `q` names. -/
theorem queueWindow_offset {q r : Nat} (hq : q < 4096) (hr : r < 64) :
    64 * q + r < ctlWindow ∧ (64 * q + r) / 64 = q ∧ (64 * q + r) % 64 = r := by
  unfold ctlWindow
  omega

/-- An offset of the control window that holds no register is none of those that the window decodes. -/
theorem ctlWindow_offset_ne {addr : Nat} (hhigh : ctlWindow ≤ addr) (hne : addr ∉ ctlOffsets) :
    addr - ctlWindow ≠ 0x00 ∧ addr - ctlWindow ≠ 0x08 ∧ addr - ctlWindow ≠ 0x10 ∧ addr - ctlWindow ≠ 0x18 ∧
      addr - ctlWindow ≠ 0x20 := by
  simp only [ctlOffsets, List.mem_cons, List.not_mem_nil, or_false, not_or] at hne
  unfold ctlWindow at *
  omega

/-! ### Writes -/

section Writes
variable {s : State}

theorem exec_registerWrite (addr : Nat) (v : DWord) :
    exec (.registerWrite addr v) s = execRegisterWrite addr v s := rfl

theorem exec_errcnt (up : s.hostUp = true) (q : Nat) (v : Word) : exec (.errcnt q v) s = done (clearErrors s q v) :=
  if_pos up

theorem exec_enEnable (up : s.hostUp = true) : exec .enEnable s = done (enableControl s) := if_pos up

theorem exec_enDisable (up : s.hostUp = true) : exec .enDisable s = done (writeDisable s) := if_pos up

/-- A write of the ERRCNT field is the clear on ones, of the 32 bits that the field has. -/
theorem exec_registerWrite_errcnt (up : s.hostUp = true) {q : Nat} (hq : q < 4096) (v : DWord) :
    exec (.registerWrite (64 * q + 16) v) s = done (clearErrors s q (v.truncate 32)) := by
  obtain ⟨hlow, hdiv, hmod⟩ := queueWindow_offset hq (r := 16) (by decide)
  simp only [exec_registerWrite, execRegisterWrite, up, Bool.not_true, Bool.false_eq_true, if_false, if_pos hlow,
    hdiv, hmod]

/-- RO and RSV registers of the queue windows ignore a write.  Here and below `simp` reaches the last branch of a match on the
offset by the inequalities in the context. -/
theorem exec_registerWrite_queueWindow_ignored (up : s.hostUp = true) {addr : Nat} (hlow : addr < ctlWindow)
    (h8 : addr % 64 ≠ 8) (h16 : addr % 64 ≠ 16) (v : DWord) : exec (.registerWrite addr v) s = done s := by
  simp only [exec_registerWrite, execRegisterWrite, up, Bool.not_true, Bool.false_eq_true, if_false, if_pos hlow]

/-- So does an offset of the control window that holds no register. -/
theorem exec_registerWrite_ctlWindow_ignored (up : s.hostUp = true) {addr : Nat} (hhigh : ctlWindow ≤ addr)
    (hne : addr ∉ ctlOffsets) (v : DWord) : exec (.registerWrite addr v) s = done s := by
  obtain ⟨h0, h8, h10, h18, h20⟩ := ctlWindow_offset_ne hhigh hne
  simp only [exec_registerWrite, execRegisterWrite, up, Bool.not_true, Bool.false_eq_true, if_false,
    if_neg (Nat.not_lt.2 hhigh)]

/-- A write of word `n` of CTLDESC, which holds its content while queue 0 is enabled. -/
theorem exec_registerWrite_ctlDesc (up : s.hostUp = true) {n : Nat} (hn : n < 4) (v : DWord) :
    exec (.registerWrite (0x40000 + 8 * n) v) s =
      done { s with ctlDesc := if s.ctlEn then s.ctlDesc else s.ctlDesc.setIfInBounds n v } := by
  have keep : ∀ d, (if s.ctlEn then s else { s with ctlDesc := d }) =
      { s with ctlDesc := if s.ctlEn then s.ctlDesc else d } := by
    intro d
    by_cases hen : s.ctlEn = true
    · rw [if_pos hen, if_pos hen]
    · rw [if_neg hen, if_neg hen]
  rw [← keep]
  have : n = 0 ∨ n = 1 ∨ n = 2 ∨ n = 3 := by omega
  obtain rfl | rfl | rfl | rfl := this <;> exact if_neg (by simp [up])

/-- A write of EN is the enabling or the disabling, by bit 0. -/
theorem exec_registerWrite_en (up : s.hostUp = true) (v : DWord) :
    exec (.registerWrite 0x40020 v) s = done (if v.getLsbD 0 then enableControl s else writeDisable s) :=
  if_neg (by simp [up])

/-! ### EN -/

theorem enableControl_enabled (hen : s.ctlEn = true) : enableControl s = s := if_pos hen

theorem enableControl_bad (hen : s.ctlEn = false) (hd : queueOf s 0 none 0 (ctlDescBytes s) = none) :
    enableControl s = { s with ctlBad := true } := by
  simp [enableControl, hen, hd]

theorem enableControl_good {x : DevQueue} (hen : s.ctlEn = false)
    (hd : queueOf s 0 none 0 (ctlDescBytes s) = some x) :
    enableControl s = mirrorAll
      { s with ctlBad := false, ctlEn := true, queues := (s.queues.filter fun x => x.num != 0) ++ [x] } x := by
  simp [enableControl, hen, hd]

theorem controlBusy_iff : controlBusy s = true ↔ ∃ x ∈ s.shoots, x.queue = 0 := by
  simp [controlBusy]

theorem writeDisable_idle (h : ∀ x ∈ s.shoots, x.queue ≠ 0) : writeDisable s = disableControl s := by
  have hb : controlBusy { s with ctlClosing := true } = false := by
    rw [Bool.eq_false_iff, Ne, controlBusy_iff]
    exact fun ⟨x, hx, hq⟩ => h x hx hq
  simp [writeDisable, settleControl, hb, disableControl]

theorem writeDisable_busy (h : ∃ x ∈ s.shoots, x.queue = 0) : writeDisable s = { s with ctlClosing := true } := by
  have hb : controlBusy { s with ctlClosing := true } = true := controlBusy_iff.2 h
  simp [writeDisable, settleControl, hb]

/-- The three ways in which the host writes EN do the same, by the bit written. -/
theorem exec_writeEn (up : s.hostUp = true) {v : DWord} {i : Instr}
    (hi : (i = .enEnable ∧ v = 1) ∨ (i = .enDisable ∧ v = 0) ∨ i = .registerWrite 0x40020 v) :
    exec i s = done (if v.getLsbD 0 then enableControl s else writeDisable s) := by
  obtain ⟨rfl, rfl⟩ | ⟨rfl, rfl⟩ | rfl := hi
  · exact exec_enEnable up
  · exact exec_enDisable up
  · exact exec_registerWrite_en up v

end Writes

/-! ### Reads -/

section Reads
variable {s : State}

theorem bar0Read_commit {q : Nat} (hq : q < 4096) {dq : DevQueue} (h : s.queueOf q = some dq) :
    bar0Read s (64 * q + 8) = (dq.lastSlot, s) := by
  obtain ⟨hlow, hdiv, hmod⟩ := queueWindow_offset hq (r := 8) (by decide)
  simp only [bar0Read, if_pos hlow, hdiv, hmod, h, Option.map_some, Option.getD_some]

theorem bar0Read_head {q : Nat} (hq : q < 4096) {dq : DevQueue} (h : s.queueOf q = some dq) :
    bar0Read s (64 * q + 24) = (BitVec.ofNat 64 dq.head, s) := by
  obtain ⟨hlow, hdiv, hmod⟩ := queueWindow_offset hq (r := 24) (by decide)
  simp only [bar0Read, if_pos hlow, hdiv, hmod, h, Option.map_some, Option.getD_some]

theorem bar0Read_errcnt {q : Nat} (hq : q < 4096) :
    bar0Read s (64 * q + 16) =
      ((((s.errcnt.find? fun x => x.1 == q).map fun x => x.2).getD (0 : Word)).zeroExtend 64, s) := by
  obtain ⟨hlow, hdiv, hmod⟩ := queueWindow_offset hq (r := 16) (by decide)
  simp only [bar0Read, if_pos hlow, hdiv, hmod]

theorem bar0Read_ctlDesc {n : Nat} (hn : n < 4) {v : DWord} (hv : s.ctlDesc.toList[n]? = some v) :
    bar0Read s (0x40000 + 8 * n) = (v, s) := by
  have hd : s.ctlDesc[n] = v := by simpa [List.getElem?_eq_getElem, hn] using hv
  rw [← hd]
  have : n = 0 ∨ n = 1 ∨ n = 2 ∨ n = 3 := by omega
  obtain rfl | rfl | rfl | rfl := this <;> rfl

theorem bar0Read_en :
    bar0Read s 0x40020 = (BitVec.ofNat 64 ((if s.ctlEn then 1 else 0) + if s.ctlBad then 2 else 0), s) := by
  show ((if s.ctlEn then 1 else 0) ||| (if s.ctlBad then 2 else 0), s) = _
  cases s.ctlEn <;> cases s.ctlBad <;> rfl

theorem bar0Read_queueWindow_reserved {addr : Nat} (hlow : addr < ctlWindow) (h : addr % 64 ∉ [0, 8, 16, 24]) :
    bar0Read s addr = (0, s) := by
  simp only [List.mem_cons, List.not_mem_nil, or_false, not_or] at h
  obtain ⟨h0, h8, h16, h24⟩ := h
  simp only [bar0Read, if_pos hlow]

theorem bar0Read_ctlWindow_reserved {addr : Nat} (hhigh : ctlWindow ≤ addr) (h : addr ∉ ctlOffsets) :
    bar0Read s addr = (0, s) := by
  obtain ⟨h0, h8, h10, h18, h20⟩ := ctlWindow_offset_ne hhigh h
  simp only [bar0Read, if_neg (Nat.not_lt.2 hhigh)]

/-- A register that is read without an effect: the step consumes the input and answers the value. -/
theorem step_registerRead {addr : Nat} {rest : List Input} {v : DWord} (up : s.hostUp = true)
    (hag : s.agenda = .registerRead addr :: rest)
    (hv : bar0Read { s with agenda := rest } addr = (v, { s with agenda := rest })) :
    step s = .next { s with agenda := rest, hostRead := leBytes 8 v.toNat, waited := false } := by
  have up' : ({ s with agenda := rest } : State).hostUp = true := up
  have hs : step s = hostRegisterRead { s with agenda := rest } addr := by
    simp only [step, hag, takeInput]
  rw [hs, hostRegisterRead, if_pos up', hv]
  rfl

end Reads

/-- Settles O58: each clause is the rule of its register (`exec_registerWrite_…`, `exec_writeEn`, `bar0Read_…`)
over a host port that is up. -/
theorem controlWindow : Obligations.ControlWindow := by
  unfold Obligations.ControlWindow
  intro s hrun hlink
  have up : s.hostUp = true := hostUp_of_running hrun hlink
  refine ⟨?errcnt, ?ignored, ?ctlDesc, ?en, ?read⟩
  case errcnt =>
    rintro q v i (rfl | ⟨hq, rfl⟩)
    · exact exec_errcnt up q _
    · exact exec_registerWrite_errcnt up hq v
  case ignored =>
    rintro addr v (⟨hlow, h8, h16⟩ | ⟨hhigh, hne⟩)
    · exact exec_registerWrite_queueWindow_ignored up hlow h8 h16 v
    · exact exec_registerWrite_ctlWindow_ignored up hhigh hne v
  case ctlDesc =>
    intro v n hn
    exact exec_registerWrite_ctlDesc up hn v
  case en =>
    intro v i hi
    rw [exec_writeEn up hi]
    refine ⟨fun hv hen => ?_, fun hv hen hd => ?_, fun x hv hen hd => ?_, fun hv hidle => ?_, fun hv hbusy => ?_⟩
    · rw [if_pos hv, enableControl_enabled hen, done_eq]
    · rw [if_pos hv, enableControl_bad hen hd, done_eq]
    · rw [if_pos hv, enableControl_good hen hd, done_eq]
    · rw [if_neg (Bool.eq_false_iff.1 hv), writeDisable_idle hidle, done_eq, disableControl]
    · rw [if_neg (Bool.eq_false_iff.1 hv), writeDisable_busy hbusy, done_eq]
  case read =>
    intro addr rest v hag hreg
    refine step_registerRead up hag ?_
    obtain ⟨q, dq, hq, hdq, ⟨rfl, rfl⟩ | ⟨rfl, rfl⟩⟩ | ⟨q, hq, rfl, rfl⟩ | ⟨n, hn, rfl, hd⟩ | ⟨rfl, rfl⟩ |
      ⟨⟨hlow, hres⟩ | ⟨hhigh, hres⟩, rfl⟩ := hreg
    · exact bar0Read_commit hq hdq
    · exact bar0Read_head hq hdq
    · exact bar0Read_errcnt hq
    · exact bar0Read_ctlDesc hn hd
    · exact bar0Read_en
    · exact bar0Read_queueWindow_reserved hlow hres
    · exact bar0Read_ctlWindow_reserved hhigh hres

end Sys2Proof.Machine

/-! ## Accesses from outside (R240, R319, R323, R324): the host over CXL.mem and the peers -/

namespace Sys2Proof.Machine

section Outside
variable {s : State}

/-! ### Who reaches the device -/

theorem hostUp_eq_false (h : ¬s.fenced.ucie ≠ BitVec.allOnes 8) : s.hostUp = false := by
  have hl : s.fenced.linked 1 = false := bne_eq_false_iff_eq.2 (Decidable.not_not.1 h)
  simp [State.hostUp, hl]

/-- The guard at which a peer's access waits: no Ranoc port is left, or the device has no number (R323, R324; log 84). -/
def State.peersAway (s : State) : Bool := !s.up || !s.fenced.linked 2 || s.deviceNumber.isNone

theorem peersAway_iff (hrun : s.phase = .running) :
    s.peersAway = true ↔ ¬(s.fenced.ranoc ≠ BitVec.allOnes 16 ∧ s.deviceNumber ≠ none) := by
  have hl : s.fenced.linked 2 = true ↔ s.fenced.ranoc ≠ BitVec.allOnes 16 := bne_iff_ne
  have hup : s.up = true := beq_iff_eq.2 hrun
  rw [← hl, Decidable.not_and_iff_not_or_not, Decidable.not_not, Bool.not_eq_true, State.peersAway, hup, Bool.not_true,
    Bool.false_or, Bool.or_eq_true, Bool.not_eq_true', Option.isNone_iff_eq_none]

theorem hdmOffset_base_add {x : Nat} (hx : x < 2 ^ 39) : hdmOffset s (s.hdmBase + x) = some x := by
  have hin : s.hdmBase ≤ s.hdmBase + x ∧ s.hdmBase + x < s.hdmBase + 2 ^ 39 := by omega
  rw [hdmOffset, if_pos hin, Nat.add_sub_cancel_left]

theorem hdmOffset_outside {a : Nat} (ha : a < s.hdmBase ∨ s.hdmBase + 2 ^ 39 ≤ a) : hdmOffset s a = none :=
  if_neg (by omega)

/-! ### Reads -/

theorem all_reachable_iff (x n : Nat) :
    ((List.range n).map fun k => x + k).all (reachable s) = true ↔ ∀ k, k < n → reachable s (x + k) = true := by
  simp

/-- The test on which an atomic stops, a byte that cannot be reached, fails where all can. -/
theorem not_unreachable {x n : Nat} (h : ∀ k, k < n → reachable s (x + k) = true) :
    ¬(!((List.range n).map fun k => x + k).all (reachable s)) = true := by
  rw [(all_reachable_iff x n).2 h]
  decide

/-- The state that an outside read of `n` bytes at offset `x` leaves. -/
def readOutside (s : State) (x n : Nat) : State :=
  { s with
    hostRead := (List.range n).map fun k => outsideByte s (x + k)
    log := if ∀ k, k < n → reachable s (x + k) = true then s.log else s.log ++ [.badRead x] }

/-- `readOutside` is the state in which the model's two read paths end. -/
theorem readOutside_eq (x n : Nat) :
    { s with
      hostRead := ((List.range n).map fun k => x + k).map (outsideByte s)
      log := if ((List.range n).map fun k => x + k).all (reachable s) then s.log else s.log ++ [.badRead x] } =
      readOutside s x n := by
  simp only [readOutside, all_reachable_iff, List.map_map]
  rfl

theorem outsideByte_of_reachable {x : Nat} (hr : reachable s x = true) (hp : s.memPoisoned x = false) :
    outsideByte s x = Memory.read s.mem x := by
  simp [outsideByte, hr, hp]

/-! ### Bytes that land in one copy -/

@[simp] theorem perform_log (s : State) (l : List (GLoc × Byte)) : (s.perform l).log = s.log := by
  unfold State.perform cureMem
  split <;> rfl

@[simp] theorem writeCopy_log (l : List (Nat × Byte)) : (writeCopy s l).log = s.log := perform_log s _
@[simp] theorem writeCopy_ctxs (l : List (Nat × Byte)) : (writeCopy s l).ctxs = s.ctxs := perform_ctxs s _
@[simp] theorem writeCopy_queues (l : List (Nat × Byte)) : (writeCopy s l).queues = s.queues := perform_queues s _
@[simp] theorem writeCopy_tlb (l : List (Nat × Byte)) : (writeCopy s l).tlb = s.tlb := perform_tlb s _

/-- The bytes of `l` at the single copies that their addresses name. -/
def singleCopies (l : List (Nat × Byte)) : List (GLoc × Byte) := l.map fun x => (⟨x.1, false⟩, x.2)

@[simp] theorem writeCopy_mem (l : List (Nat × Byte)) : (writeCopy s l).mem = homeWriteN s.mem (singleCopies l) :=
  perform_mem s _

theorem read_singleCopies_other {m : List Host.Cell} {l : List (Nat × Byte)} {a : Nat} (h : ∀ y ∈ l, y.1 ≠ a) :
    Memory.read (homeWriteN m (singleCopies l)) a = Memory.read m a := by
  refine homeWriteN_other _ fun z hz => ?_
  obtain ⟨y, hy, rfl⟩ := List.mem_map.1 hz
  simpa [GLoc.copies] using (h y hy).symm

/-- An address that is written with one value alone holds it afterwards. -/
theorem read_singleCopies {a : Nat} {v : Byte} {l : List (Nat × Byte)} (hmem : (a, v) ∈ l)
    (huniq : ∀ y ∈ l, y.1 = a → y.2 = v) :
    ∀ {m : List Host.Cell}, Memory.wf m = true → Memory.read (homeWriteN m (singleCopies l)) a = v := by
  induction l with
  | nil => cases hmem
  | cons y l ih =>
    intro m hm
    show Memory.read (homeWriteN (homeWrite m ⟨y.1, false⟩ y.2) (singleCopies l)) a = v
    by_cases hl : (a, v) ∈ l
    · exact ih hl (fun z hz => huniq z (List.mem_cons_of_mem y hz)) (homeWrite_wf _ _ hm)
    · have hy : (a, v) = y := (List.mem_cons.1 hmem).resolve_right hl
      have hne : ∀ z ∈ l, z.1 ≠ a := fun z hz hza =>
        hl ((Prod.ext hza (huniq z (List.mem_cons_of_mem y hz) hza) : z = (a, v)) ▸ hz)
      rw [read_singleCopies_other hne, ← hy]
      show Memory.read (Memory.write m a v) a = v
      rw [Memory.read_write hm, if_pos rfl]

/-! ### Writes -/

/-- The bytes of a write at offset `x`, each with its address. -/
def addressed (x : Nat) (data : List Byte) : List (Nat × Byte) := data.zipIdx.map fun (v, k) => (x + k, v)

theorem mem_addressed {x : Nat} {data : List Byte} {y : Nat × Byte} :
    y ∈ addressed x data ↔ ∃ k, data[k]? = some y.2 ∧ y.1 = x + k := by
  obtain ⟨a, v⟩ := y
  simp only [addressed, List.mem_map, Prod.exists, List.mk_mem_zipIdx_iff_getElem?, Prod.mk.injEq]
  exact ⟨fun ⟨w, k, hk, ha, hw⟩ => ⟨k, hw ▸ hk, ha.symm⟩, fun ⟨k, hk, ha⟩ => ⟨v, k, hk, ha.symm, rfl⟩⟩

theorem all_addressed_iff (x : Nat) (data : List Byte) :
    ((addressed x data).all fun y => reachable s y.1) = true ↔ ∀ k, k < data.length → reachable s (x + k) = true := by
  rw [List.all_eq_true]
  constructor
  · exact fun h k hk => h (x + k, data[k]) (mem_addressed.2 ⟨k, List.getElem?_eq_getElem hk, rfl⟩)
  · intro h y hy
    obtain ⟨k, hk, hy1⟩ := mem_addressed.1 hy
    exact hy1 ▸ h k (List.getElem?_eq_some_iff.1 hk).1

/-- The bytes of a write that can be reached. -/
def reached (s : State) (x : Nat) (data : List Byte) : List (Nat × Byte) :=
  (addressed x data).filter fun y => reachable s y.1

theorem mem_reached {x : Nat} {data : List Byte} {y : Nat × Byte} :
    y ∈ reached s x data ↔ (∃ k, data[k]? = some y.2 ∧ y.1 = x + k) ∧ reachable s y.1 = true := by
  rw [reached, List.mem_filter, mem_addressed]

/-- The state that an outside write at offset `x` leaves. -/
def writeOutside (s : State) (x : Nat) (data : List Byte) : State :=
  let s1 := writeCopy s (reached s x data)
  { s1 with log := if (addressed x data).all fun y => reachable s y.1 then s1.log else s1.log ++ [.badWrite x] }

theorem writeOutside_log (x : Nat) (data : List Byte) :
    (writeOutside s x data).log =
      if ∀ k, k < data.length → reachable s (x + k) = true then s.log else s.log ++ [.badWrite x] := by
  simp only [writeOutside, writeCopy_log, all_addressed_iff]

theorem writeOutside_mem (x : Nat) (data : List Byte) :
    (writeOutside s x data).mem = homeWriteN s.mem (singleCopies (reached s x data)) := writeCopy_mem _

/-- A byte that is not written, or cannot be reached, stays. -/
theorem read_writeOutside_other {x : Nat} {data : List Byte} {a : Nat}
    (h : ¬(x ≤ a ∧ a < x + data.length ∧ reachable s a = true)) :
    Memory.read (writeOutside s x data).mem a = Memory.read s.mem a := by
  rw [writeOutside_mem]
  refine read_singleCopies_other fun y hy hya => h ?_
  obtain ⟨⟨k, hk, hy1⟩, hr⟩ := mem_reached.1 hy
  have hlt : k < data.length := (List.getElem?_eq_some_iff.1 hk).1
  exact ⟨by omega, by omega, hya ▸ hr⟩

/-- A byte that is written and can be reached reads back. -/
theorem read_writeOutside {x : Nat} {data : List Byte} (hinv : Safety.State.Inv s) {k : Nat} (hk : k < data.length)
    (hr : reachable s (x + k) = true) : Memory.read (writeOutside s x data).mem (x + k) = data.getD k 0 := by
  have hget : data[k]? = some (data.getD k 0) := by
    rw [List.getD_eq_getElem?_getD, List.getElem?_eq_getElem hk, Option.getD_some]
  rw [writeOutside_mem]
  refine read_singleCopies (mem_reached.2 ⟨⟨k, hget, rfl⟩, hr⟩) (fun y hy hya => ?_) hinv
  obtain ⟨⟨j, hj, hyj⟩, -⟩ := mem_reached.1 hy
  have hjk : j = k := by omega
  rw [hjk, hget] at hj
  exact (Option.some.inj hj).symm

/-! ### The host's accesses -/

theorem exec_hostCxlMem_wait {a : Nat} (h : (if s.hostUp then hdmOffset s a else none) = none) (n : Nat)
    (data : List Byte) :
    exec (.hostCxlMemRead a n) s = wait s ∧ exec (.hostCxlMemWrite a data) s = wait s := by
  show execHostCxlMemRead a n s = wait s ∧ execHostCxlMemWrite a data s = wait s
  simp only [execHostCxlMemRead, execHostCxlMemWrite, h, and_self]

/-- Without a module of its port every access of the host waits (log 84). -/
theorem exec_host_wait (down : s.hostUp = false) {a n q : Nat} {data : List Byte} {v : DWord} {e : Word} {i : Instr}
    (hi : i ∈ [Instr.hostCxlMemRead a n, .hostCxlMemWrite a data, .ticket q, .commit q v, .errcnt q e, .enEnable,
      .enDisable, .registerWrite a v]) : exec i s = wait s := by
  have hmem := exec_hostCxlMem_wait (a := a) (by rw [down]; rfl) n data
  have hdown : ¬s.hostUp = true := Bool.eq_false_iff.1 down
  have hdown' : (!s.hostUp) = true := by rw [down]; rfl
  simp only [List.mem_cons, List.not_mem_nil, or_false] at hi
  obtain rfl | rfl | rfl | rfl | rfl | rfl | rfl | rfl := hi
  · exact hmem.1
  · exact hmem.2
  · exact if_pos hdown'
  · exact if_neg hdown
  · exact if_neg hdown
  · exact if_neg hdown
  · exact if_neg hdown
  · exact if_pos hdown'

theorem exec_hostCxlMemRead (up : s.hostUp = true) {x : Nat} (hx : x < 2 ^ 39) (n : Nat) :
    exec (.hostCxlMemRead (s.hdmBase + x) n) s = done (readOutside s x n) := by
  show execHostCxlMemRead (s.hdmBase + x) n s = _
  simp only [execHostCxlMemRead, if_pos up, hdmOffset_base_add hx, readOutside_eq]

theorem exec_hostCxlMemWrite (up : s.hostUp = true) {x : Nat} (hx : x < 2 ^ 39) (data : List Byte) :
    exec (.hostCxlMemWrite (s.hdmBase + x) data) s = done (writeOutside s x data) := by
  show execHostCxlMemWrite (s.hdmBase + x) data s = _
  simp only [execHostCxlMemWrite, if_pos up, hdmOffset_base_add hx]
  rfl

/-! ### A peer's accesses -/

theorem exec_remoteAccess_wait (away : s.peersAway = true) (pa : Nat)
    (op : RemoteOp) : exec (.remoteAccess pa op) s = wait s := if_pos away

section Peers
variable (near : ¬s.peersAway = true)
include near

theorem exec_remoteLoad (pa n : Nat) : exec (.remoteAccess pa (.load n)) s = done (readOutside s pa n) := by
  rw [← readOutside_eq]
  exact if_neg near

theorem exec_remoteStore (pa : Nat) (data : List Byte) :
    exec (.remoteAccess pa (.store data)) s = done (writeOutside s pa data) := if_neg near

/-- A peer's atomic of R370 on bytes that can all be reached; a failing cas writes nothing. -/
theorem exec_remoteAtomic {pa : Nat} (op : AtomicOp) (wide : Bool) (operand compare : DWord)
    (hr : ∀ k, k < (if wide then 8 else 4) → reachable s (pa + k) = true) :
    let n := if wide then 8 else 4
    let old := (List.range n).map fun k => outsideByte s (pa + k)
    exec (.remoteAccess pa (.atomic op wide operand compare)) s =
      if op = .cas ∧ leNat old ≠ compare.toNat % 2 ^ (8 * n) then done { s with hostRead := old }
      else done { writeCopy s (((List.range n).map fun k => pa + k).zip (leBytes n (atomicNew op (8 * n) (leNat old)
        (operand.toNat % 2 ^ (8 * n)) (compare.toNat % 2 ^ (8 * n))))) with hostRead := old } := by
  intro n old
  have hall := not_unreachable hr
  have hold : ((List.range n).map fun k => pa + k).map (outsideByte s) = old := List.map_map
  clear_value old
  subst hold
  exact (if_neg near).trans ((if_neg hall).trans (ite_congr
    (by rw [Bool.and_eq_true, beq_iff_eq, bne_iff_ne]) (fun _ => rfl) fun _ => rfl))

/-- A peer's atomic of R414 on a word that can be reached; one that leaves the value writes nothing. -/
theorem exec_remoteLane {pa : Nat} (fn : BitVec 4) (ty : ElemTy) (rnd : Rnd) (operand compare : Word)
    (hr : ∀ k, k < 4 → reachable s (pa + k) = true) :
    let old := (List.range 4).map fun k => outsideByte s (pa + k)
    let new := (laneAtomic fn ty rnd (leNat old) operand.toNat compare.toNat).1
    exec (.remoteAccess pa (.lane fn ty rnd operand compare)) s =
      if new = leNat old then done { s with hostRead := old }
      else done { writeCopy s (((List.range 4).map fun k => pa + k).zip (leBytes 4 new)) with hostRead := old } := by
  intro old new
  have hall := not_unreachable hr
  exact (if_neg near).trans ((if_neg hall).trans (ite_congr (propext beq_iff_eq) (fun _ => rfl) fun _ => rfl))

end Peers

/-! ### Host and peers alike -/

/-- R319, R324: a read of the host and a load of a peer are one operation. -/
theorem exec_readOutside {x n : Nat} {i : Instr}
    (hi : (s.hostUp = true ∧ x < 2 ^ 39 ∧ i = .hostCxlMemRead (s.hdmBase + x) n) ∨
      (¬s.peersAway = true ∧ i = .remoteAccess x (.load n))) :
    exec i s = done (readOutside s x n) := by
  obtain ⟨up, hx, rfl⟩ | ⟨near, rfl⟩ := hi
  · exact exec_hostCxlMemRead up hx n
  · exact exec_remoteLoad near x n

/-- So are a write of the host and a store of a peer. -/
theorem exec_writeOutside {x : Nat} {data : List Byte} {i : Instr}
    (hi : (s.hostUp = true ∧ x < 2 ^ 39 ∧ i = .hostCxlMemWrite (s.hdmBase + x) data) ∨
      (¬s.peersAway = true ∧ i = .remoteAccess x (.store data))) :
    exec i s = done (writeOutside s x data) := by
  obtain ⟨up, hx, rfl⟩ | ⟨near, rfl⟩ := hi
  · exact exec_hostCxlMemWrite up hx data
  · exact exec_remoteStore near x data

end Outside

/-- Settles O59: host and peers go through `readOutside` and `writeOutside`, whose effects the lemmas above give byte by
byte; a peer's atomics are `exec_remoteAtomic` and `exec_remoteLane`. -/
theorem outsideAccesses : Obligations.OutsideAccesses := by
  unfold Obligations.OutsideAccesses
  intro s hrun host peers
  have hostUp : host → s.hostUp = true := hostUp_of_running hrun
  have near : peers → ¬s.peersAway = true :=
    fun h away => (peersAway_iff hrun).1 away h
  refine ⟨?hostWaits, ?peersWait, ?read, ?window, ?write, ?atomic, ?lane⟩
  case hostWaits =>
    intro hdown a n q data v e i hi
    exact exec_host_wait (hostUp_eq_false hdown) hi
  case peersWait =>
    intro pa op hdown
    exact exec_remoteAccess_wait ((peersAway_iff hrun).2 hdown) pa op
  case read =>
    intro x n i hi
    refine ⟨exec_readOutside (hi.imp (And.imp_left hostUp) (And.imp_left near)), fun k _ hr hp => ?_⟩
    exact outsideByte_of_reachable hr hp
  case window =>
    intro a n data ha
    exact exec_hostCxlMem_wait (by rw [hdmOffset_outside ha, ite_self]) n data
  case write =>
    intro x data i hi
    refine ⟨_, exec_writeOutside (hi.imp (And.imp_left hostUp) (And.imp_left near)), rfl, writeCopy_ctxs _,
      writeCopy_queues _, writeCopy_tlb _, writeOutside_log x data, fun a ha => ?_, fun hinv k hk hr => ?_⟩
    · exact read_writeOutside_other ha
    · exact read_writeOutside hinv hk hr
  case atomic =>
    intro pa op wide operand compare hpeers n hr
    exact exec_remoteAtomic (near hpeers) op wide operand compare hr
  case lane =>
    intro pa fn ty rnd operand compare hpeers hr
    exact exec_remoteLane (near hpeers) fn ty rnd operand compare hr

end Sys2Proof.Machine

/-! ## Lane accesses to typed buffers (R32, R206, R208, R216, R425) -/

namespace Sys2Proof.Machine
open Sys2Proof.Safety

theorem laneBuf_eq (fn : BitVec 4) : laneBuf fn = if fn = 1 then Buf.wb else if fn = 2 then Buf.ab else Buf.cb := by
  revert fn
  decide

/-- Checks that find no cause in any lane report none. -/
theorem firstCause_eq_none {l : List LaneCheck} (h : ∀ x ∈ l, x.2.2 = []) : firstCause l = none := by
  refine List.findSome?_eq_none_iff.2 fun cause _ => ?_
  have hnone : (l.filter fun x => x.2.2.contains cause) = [] :=
    List.filter_eq_nil_iff.2 fun x hx => by simp [h x hx]
  rw [hnone]

/-- An access whose offsets are clear goes on in the state that its touches leave. -/
theorem bufferAccess_ready {s s1 : State} {t : RowSlot} {b : Buf} {store : Bool} {offs : List (Nat × Nat)} {mb : Member}
    (hclear : OffsetsClear s t b store offs mb)
    (htouch : touchAll s t.c t.r.member b 4 (offs.map fun x => x.2) = .ready s1) (k : State → Member → RowRes) :
    bufferAccess s t b store offs k = k s1 mb := by
  obtain ⟨hmember, hoffs, hboard⟩ := hclear
  have hcause : firstCause (offs.map fun x => (x.1, x.2, if offsetBad s t.c t.r.member b x.2 then [Cause.bufv] else [])) = none := by
    refine firstCause_eq_none fun y hy => ?_
    obtain ⟨x, hx, rfl⟩ := List.mem_map.1 hy
    simp [hoffs x hx]
  simp only [bufferAccess, hmember, hcause, Option.isNone_iff_eq_none.1 hboard, htouch]

/-- The lanes of a row's store that no row of higher item has outranked (R32); an inspection slot keeps all. -/
def keptLanes (t : RowSlot) (b : Buf) (offs : List (Nat × Nat)) : List (Nat × Nat) :=
  offs.filter fun x => t.insp || !(t.c.stores.any fun y => decide (t.e.seq ≤ y.seq) && decide (t.r.item < y.item) &&
    y.member == t.r.member && y.cells.contains (.buf b, x.2))

theorem keptLanes_eq (t : RowSlot) (b : Buf) (offs : List (Nat × Nat)) :
    keptLanes t b offs = if t.insp then offs else offs.filter fun x => !t.c.outranked t.e t.r true (.buf b, x.2) := by
  unfold keptLanes
  cases t.insp
  · simp only [Bool.false_eq_true, if_false, Ctx.outranked, beq_true, Bool.false_or]
  · exact (List.filter_eq_self.2 fun _ _ => rfl).trans (if_pos rfl).symm

/-- A row that leads notes what it stores. -/
theorem note_of_leads {t : RowSlot} (h : t.leads = true) (cells : List (Space × Nat)) :
    t.note cells = fun c => { c with stores := c.stores ++ [⟨t.e.seq, t.r.item, t.r.member, cells⟩] } :=
  funext fun _ => if_pos h

section Buffers
variable {s s1 : State} {t : RowSlot} {srcs : List Source} {f : LForm} {mb : Member}

theorem exec_vld (hturn : RowTurn s (.vld f) t) (hread : Readable s t (.vld f) [vaOp t f.va] (ownLane 1) srcs)
    (hclear : OffsetsClear s t (laneBuf f.fn) false (laneOffsets f (t.part (.vld f)) srcs) mb)
    (htouch : touchAll s t.c t.r.member (laneBuf f.fn) 4 ((laneOffsets f (t.part (.vld f)) srcs).map fun x => x.2) = .ready s1)
    (hclean : poisonedOffset s1 t (laneBuf f.fn) (laneOffsets f (t.part (.vld f)) srcs) = none) :
    exec (.vld f) s = .next (laneDone s1 t (.vld f) f.la { writes := [(f.vd.toNat, Lanes.build fun l =>
      BitVec.ofNat 32 (leNat (bufLoad s1 t.c t.r.member (laneBuf f.fn) (laneOffset (srcWord srcs 0 l) f.vc) 4)))] }) := by
  show execVld f s = _
  unfold execVld
  refine rowStep_ok hturn ?_
  simp only [withSources_ok hread, bufferAccess_ready hclear htouch, hclean]
  rfl

/-- VST leaves the words of the lanes that are kept, in lane order, and its note where the row leads. -/
theorem exec_vst (hturn : RowTurn s (.vst f) t)
    (hread : Readable s t (.vst f) [vaOp t f.va, vbOp t f.vb] (ownLane 2) srcs)
    (hclear : OffsetsClear s t (laneBuf f.fn) true (laneOffsets f (t.part (.vst f)) srcs) mb)
    (htouch : touchAll s t.c t.r.member (laneBuf f.fn) 4 ((laneOffsets f (t.part (.vst f)) srcs).map fun x => x.2) = .ready s1)
    {s2 : State} (hstored : (keptLanes t (laneBuf f.fn) (laneOffsets f (t.part (.vst f)) srcs)).foldl
      (fun s x => bufStore s t.c t.r.member (laneBuf f.fn) x.2 (leBytes 4 (srcWord srcs 1 x.1).toNat)) s1 = s2) :
    exec (.vst f) s = .next (slotDone
      (if t.leads then s2.updCtx t.c.id
          (t.note ((laneOffsets f (t.part (.vst f)) srcs).map fun x => (.buf (laneBuf f.fn), x.2))) else s2) t t.r (.vst f)) := by
  show execVst f s = _
  unfold execVst
  refine rowStep_ok hturn ?_
  simp only [withSources_ok hread, bufferAccess_ready hclear htouch, ← keptLanes_eq, hstored]

end Buffers

/-- Settles O38: VLD and VST are `exec_vld` and `exec_vst`, over the model's names for the buffer and the offsets. -/
theorem bufferLoadStore : Obligations.BufferLoadStore := by
  unfold Obligations.BufferLoadStore
  intro s s1 t srcs f mb
  rw [← laneBuf_eq]
  refine ⟨fun hturn hread hclear htouch hclean => exec_vld hturn hread hclear htouch hclean,
    fun hturn hread hclear htouch => ?_⟩
  have hexec := exec_vst hturn hread hclear htouch rfl
  refine ⟨fun hleads => ?_, fun hleads => ?_⟩
  · rw [if_neg (by simp [hleads])] at hexec
    exact hexec
  · rw [if_pos hleads, note_of_leads hleads] at hexec
    exact hexec

end Sys2Proof.Machine

/-! ## The state in which a dispatch starts (R27, R94, R95, R265, R266, R280) -/

namespace Sys2Proof.Machine

/-! ### Registers -/

theorem toList_replicate_getD {α : Type} (n k : Nat) (v : α) : (Vector.replicate n v).toList.getD k v = v := by
  simp only [Vector.toList_replicate, List.getD_eq_getElem?_getD, List.getElem?_replicate]
  split <;> rfl

theorem toList_ofFn_getD {α : Type} {n k : Nat} (f : Fin n → α) (d : α) (hk : k < n) :
    (Vector.ofFn f).toList.getD k d = f ⟨k, hk⟩ := by
  simp [Vector.toList_ofFn, List.getD_eq_getElem?_getD, hk]

/-- The registers `g` after the words `vs` have gone to the registers `rs`, one by one. -/
def loadParams (g : Vector DWord 64) (rs : List GReg) (vs : List DWord) : Vector DWord 64 :=
  (rs.zip vs).foldl (fun g x => g.setIfInBounds x.1.toNat x.2) g

theorem paramRegs_eq (p : LaunchRec) : paramRegs p = loadParams (Vector.replicate 64 0) p.kernel.params p.params := rfl

/-- A register that no parameter names stays. -/
theorem loadParams_other {n : Nat} {rs : List GReg} (h : n ∉ rs.map fun x => x.toNat) (vs : List DWord) (g : Vector DWord 64) :
    (loadParams g rs vs).toList.getD n 0 = g.toList.getD n 0 := by
  induction rs generalizing vs g with
  | nil => rfl
  | cons r rs ih =>
    cases vs with
    | nil => rfl
    | cons v vs =>
      obtain ⟨hne, hrest⟩ := not_or.1 (mt List.mem_cons.2 h)
      refine (ih hrest vs _).trans ?_
      simp only [Vector.toList_setIfInBounds, List.getD_eq_getElem?_getD, List.getElem?_set_ne (Ne.symm hne)]

/-- A register that one parameter names holds its word. -/
theorem loadParams_get {rs : List GReg} {vs : List DWord} {j : Nat} {r : GReg} {v : DWord} (hnodup : rs.Nodup)
    (hr : rs[j]? = some r) (hv : vs[j]? = some v) (g : Vector DWord 64) :
    (loadParams g rs vs).toList.getD r.toNat 0 = v := by
  induction rs generalizing vs j g with
  | nil => simp at hr
  | cons r0 rs ih =>
    obtain ⟨hnot, hrest⟩ := List.nodup_cons.1 hnodup
    cases vs with
    | nil => simp at hv
    | cons v0 vs =>
      cases j with
      | succ j => exact ih hrest hr hv _
      | zero =>
        obtain rfl : r0 = r := by simpa using hr
        obtain rfl : v0 = v := by simpa using hv
        have hmap : r0.toNat ∉ rs.map fun x => x.toNat := by
          simpa [BitVec.toNat_inj] using hnot
        refine (loadParams_other hmap vs _).trans ?_
        have hlt : r0.toNat < 64 := r0.isLt
        simp [Vector.toList_setIfInBounds, hlt]

theorem greg_eq_getD (c : Ctx) {r : GReg} (h : r ≠ 0) : c.greg r = c.g.toList.getD r.toNat 0 := if_neg (by simpa using h)

/-! ### Members -/

theorem freshMember_of_getElem {w : Waiting} {base : Nat} {gs : List (List Nat)} {m : Nat} {mb : Member}
    (h : (freshCtx w base gs).members[m]? = some mb) : mb = freshMember w.params (clusterOf base m) := by
  simp only [freshCtx, List.getElem?_map, Option.map_eq_some_iff, List.getElem?_eq_some_iff, List.getElem_range] at h
  obtain ⟨_, ⟨_, rfl⟩, rfl⟩ := h
  rfl

section Members
variable (p : LaunchRec) (k : Nat)

/-- Every buffer of a fresh member reads zero and every granule of it is empty. -/
theorem freshMember_buf (b : Buf) : ((freshMember p k).buf b).cells = [] ∧ ((freshMember p k).buf b).full = 0 := by
  cases b <;> exact ⟨rfl, rfl⟩

theorem readN_nil (a n : Nat) : Memory.readN [] a n = List.replicate n 0 := by
  simp [Memory.readN, Memory.read, List.map_const']

theorem freshMember_lends : (freshMember p k).lends =
    if p.cls = .ash then [] else p.kernel.lends.map fun l => ⟨l.1, l.2.1, l.2.2, .untouched⟩ :=
  ite_congr (propext beq_iff_eq) (fun _ => rfl) fun _ => rfl

theorem freshMember_handles : ∀ h ∈ (freshMember p k).handles.toList, h = 0 := by
  intro h hh
  exact List.eq_of_mem_replicate (Vector.toList_replicate ▸ hh)

/-- The scales of a fresh bank are 1.0. -/
theorem freshMember_scales : ∀ x ∈ (freshMember p k).bank.rowScale ++ (freshMember p k).bank.colScale, x = 0x3C00 := by
  intro x hx
  exact (List.mem_append.1 hx).elim List.eq_of_mem_replicate List.eq_of_mem_replicate

end Members

/-! ### Rows -/

/-- A row of a fresh context is the `j`-th of its member, at the granule that its placement gave it. -/
theorem mem_freshCtx_rows {w : Waiting} {base : Nat} {gs : List (List Nat)} {r : Row} :
    r ∈ (freshCtx w base gs).rows ↔ ∃ m j l g, gs[m]? = some l ∧ l[j]? = some g ∧
      r = freshRow w.params (m * w.params.rows + j) m g := by
  simp only [freshCtx, List.mem_flatMap, List.mem_map, List.mem_zipIdx_iff_getElem?, Prod.exists]
  constructor
  · rintro ⟨l, m, hl, g, j, hg, rfl⟩
    exact ⟨m, j, l, g, hl, hg, rfl⟩
  · rintro ⟨m, j, l, g, hl, hg, rfl⟩
    exact ⟨l, m, hl, g, j, hg, rfl⟩

/-- The items of members of `n` rows each, from member `m` on, are numbered one after another (R23). -/
theorem items_consecutive {n : Nat} (gs : List (List Nat)) (h : ∀ l ∈ gs, l.length = n) (m : Nat) :
    ((gs.zipIdx m).flatMap fun x => x.1.zipIdx.map fun y => x.2 * n + y.2) = List.range' (m * n) (gs.length * n) := by
  induction gs generalizing m with
  | nil => simp
  | cons l gs ih =>
    obtain ⟨hl, hrest⟩ := List.forall_mem_cons.1 h
    have hfirst : (l.zipIdx.map fun y => m * n + y.2) = List.range' (m * n) n := by
      rw [← Function.comp_def (fun k => m * n + k) Prod.snd, ← List.map_map, List.zipIdx_map_snd, List.map_add_range', hl,
        Nat.add_zero]
    rw [List.zipIdx_cons, List.flatMap_cons, ih hrest, hfirst, Nat.succ_mul, List.range'_append_1, List.length_cons,
      Nat.succ_mul, Nat.add_comm]

theorem freshCtx_items {w : Waiting} (base : Nat) {gs : List (List Nat)} (hgang : gs.length = w.params.gang)
    (hrows : ∀ l ∈ gs, l.length = w.params.rows) :
    (freshCtx w base gs).rows.map (fun r => r.item) = List.range (w.params.gang * w.params.rows) := by
  have hitems := items_consecutive gs hrows 0
  rw [Nat.zero_mul, hgang, ← List.range_eq_range'] at hitems
  rw [← hitems]
  simp only [freshCtx, List.map_flatMap, List.map_map]
  rfl

/-- Where a row of whole members stands: item and member say which granule is its own. -/
theorem freshCtx_row_place {w : Waiting} {base : Nat} {gs : List (List Nat)} (hrows : ∀ l ∈ gs, l.length = w.params.rows)
    {r : Row} (hr : r ∈ (freshCtx w base gs).rows) : r.member = r.item / w.params.rows ∧
      (gs[r.member]?.bind fun l => l[r.item % w.params.rows]?) = some r.granule := by
  obtain ⟨m, j, l, g, hl, hg, rfl⟩ := mem_freshCtx_rows.1 hr
  have hj : j < w.params.rows := by
    rw [← hrows l (List.mem_of_getElem? hl)]
    exact (List.getElem?_eq_some_iff.1 hg).1
  show m = (m * w.params.rows + j) / w.params.rows ∧ (gs[m]?.bind fun l => l[(m * w.params.rows + j) % w.params.rows]?) = some g
  rw [Nat.add_comm, Nat.add_mul_div_right _ _ (Nat.zero_lt_of_lt hj), Nat.div_eq_of_lt hj, Nat.zero_add, Nat.add_mul_mod_self_right,
    Nat.mod_eq_of_lt hj, hl]
  exact ⟨rfl, hg⟩

section Row
variable (p : LaunchRec) (item member granule : Nat)

theorem freshRow_reg (k : Nat) : (freshRow p item member granule).reg k = Lanes.fill 0 := by
  simp only [Row.reg, freshRow, List.getElem?_replicate]
  split <;> rfl

theorem freshRow_pred {k : Nat} (hk : k < 15) : (freshRow p item member granule).pred k = 0 :=
  (if_neg (by simpa using Nat.ne_of_lt hk)).trans (toList_replicate_getD 16 k 0)

theorem freshRow_tag {k : Nat} (hk : k < p.regs) : (freshRow p item member granule).tag k = .u := by
  simp only [Row.tag, freshRow, List.getElem?_replicate, if_pos hk, Option.map_some, Option.getD_some]

/-- Every lane has its own seed (R266). -/
theorem freshRow_rng {l : Nat} (hl : l < 64) :
    (freshRow p item member granule).rng.toList.getD l 0 = seedOf p.seed (item * 64 + l) :=
  toList_ofFn_getD (fun l : Fin 64 => seedOf p.seed (item * 64 + l.val)) 0 hl

end Row

/-- Settles O53: what `freshCtx`, `freshMember` and `freshRow` write out holds by definition; the lemmas above give the lists. -/
theorem dispatchStart : Obligations.DispatchStart := by
  unfold Obligations.DispatchStart
  intro w base gs p c
  refine ⟨?generator, ?launch, fun n => toList_replicate_getD 3 _ 0, fun n => toList_replicate_getD 16 _ 0, ?streams, ?noParam,
    ?param, ⟨rfl, rfl, rfl⟩, by simp [c, p, freshCtx], ?members, ?place, ?rows⟩
  case generator => and_intros <;> rfl
  case launch => and_intros <;> rfl
  case streams =>
    intro n _
    exact congrArg StreamReg.isOpen (toList_replicate_getD 8 n _)
  case noParam =>
    intro r hr
    by_cases h0 : r = 0
    · rw [h0, greg_zero]
    · exact (greg_eq_getD c h0).trans ((loadParams_other hr _ _).trans (toList_replicate_getD 64 _ 0))
  case param =>
    intro hnodup j r v hr hv
    split
    · next h0 => rw [h0, greg_zero]
    · next h0 => exact (greg_eq_getD c h0).trans (loadParams_get hnodup hr hv _)
  case members =>
    intro m mb hmb
    obtain rfl := freshMember_of_getElem hmb
    refine ⟨rfl, rfl, rfl, rfl, fun b o n => ?_, fun b => (freshMember_buf p _ b).2, freshMember_lends p _, freshMember_handles p _,
      rfl, rfl, freshMember_scales p _, rfl, fun _ _ _ => rfl, ?_⟩
    · rw [(freshMember_buf p _ b).1, readN_nil]
    · and_intros <;> rfl
  case place => exact fun hgang hrows => ⟨freshCtx_items base hgang hrows, fun r hr => freshCtx_row_place hrows hr⟩
  case rows =>
    intro r hr
    obtain ⟨m, j, l, g, -, -, rfl⟩ := mem_freshCtx_rows.1 hr
    exact ⟨rfl, rfl, rfl, rfl, rfl, freshRow_reg p _ m g, fun k => freshRow_pred p _ m g, fun k => freshRow_tag p _ m g,
      fun l => freshRow_rng p _ m g⟩

end Sys2Proof.Machine

/-! ## Markers whose turn has come (R63, R222-R227, R284, R338, R344, R345, R355, R395) and carries (R49) -/

namespace Sys2Proof.Machine
open Sys2Proof.Safety

/-! ### Release and acquire -/

/-- R227, line by line: SYSTEM waits for every line of the context that has no place in a group's order, DOMAIN, in a device
that belongs to a domain, for those of region 0x2. -/
theorem acknowledged_iff (s : State) (k : Nat) (sc : Scope) : acknowledged s k sc = true ↔
    (sc = .system → ∀ x ∈ s.accepted, x.owner = k → x.place.isSome = true) ∧
      (sc = .domain → s.deviceNumber ≠ none → ∀ x ∈ s.accepted, x.owner = k → x.place.isSome = true ∨ x.region ≠ 2) := by
  cases sc with
  | system =>
    simp only [acknowledged, List.all_filter, List.all_eq_true, Bool.or_eq_true, Bool.not_eq_true', beq_eq_false_iff_ne,
      ne_eq, reduceCtorEq, false_implies, and_true, forall_const, ← Decidable.imp_iff_not_or]
  | domain =>
    simp only [acknowledged, List.all_filter, Bool.or_eq_true, Option.isNone_iff_eq_none, List.all_eq_true, bne_iff_ne,
      Bool.not_eq_true', beq_eq_false_iff_ne, ne_eq, reduceCtorEq, false_implies, true_and, forall_const,
      Decidable.or_iff_not_imp_left, Decidable.not_not]
  | _ => simp [acknowledged]

section ReleaseAcquire
variable {s : State} {c : Ctx} {a : MarkerAt} {sc : Scope}

theorem releaseAcquire_acknowledged (acq : Bool) (h : acknowledged (drainCtx s (c.dropMarker a)).1 c.id sc = true) :
    releaseAcquire s c a sc true acq = some ((drainCtx s (c.dropMarker a)).1.putCtx
      (if acq then (drainCtx s (c.dropMarker a)).2.dropView else (drainCtx s (c.dropMarker a)).2)) :=
  if_pos (by simpa using h)

/-- Without a release nothing is waited for. -/
theorem releaseAcquire_acquire (acq : Bool) : releaseAcquire s c a sc false acq =
    some (s.putCtx (if acq then (c.dropMarker a).dropView else c.dropMarker a)) := rfl

theorem releaseAcquire_drains (acq : Bool) (h : acknowledged (drainCtx s (c.dropMarker a)).1 c.id sc = false)
    (hlines : ∃ mb ∈ c.members, mb.psb ≠ []) :
    releaseAcquire s c a sc true acq = some ((drainCtx s c).1.putCtx (drainCtx s c).2) :=
  (if_neg (by simp [h])).trans (if_neg (by simpa using hlines))

theorem releaseAcquire_waits (acq : Bool) (h : acknowledged (drainCtx s (c.dropMarker a)).1 c.id sc = false)
    (hempty : ∀ mb ∈ c.members, mb.psb = []) : releaseAcquire s c a sc true acq = none :=
  (if_neg (by simp [h])).trans (if_pos (by simpa using hempty))

end ReleaseAcquire

/-! ### The step of a marker -/

section Marker
variable {s : State} {k : Nat} {c : Ctx} {a : MarkerAt} {f : Ctx → MarkerAt → Option State}

theorem markerStep_some (h : MarkerTurn s k c a) {t : State} (hf : f c a = some t) : markerStep s k f = done t := by
  obtain ⟨hctx, hturn, hmono⟩ := h
  simp only [markerStep, hctx, hturn, hmono, Bool.false_eq_true, if_false, hf]

theorem markerStep_none (h : MarkerTurn s k c a) (hf : f c a = none) : markerStep s k f = wait s := by
  obtain ⟨hctx, hturn, hmono⟩ := h
  simp only [markerStep, hctx, hturn, hmono, Bool.false_eq_true, if_false, hf]

/-- A marker that releases and acquires takes effect once its drained lines are acknowledged; until then it only drains. -/
theorem markerStep_releaseAcquire (h : MarkerTurn s k c a) {sc : Scope} (hf : f c a = releaseAcquire s c a sc true true) :
    let d := drainCtx s (c.dropMarker a)
    (acknowledged d.1 k sc = true → markerStep s k f = done (d.1.putCtx d.2.dropView)) ∧
      (¬acknowledged d.1 k sc = true → (∃ mb ∈ c.members, mb.psb ≠ []) →
        markerStep s k f = done ((drainCtx s c).1.putCtx (drainCtx s c).2)) ∧
      (¬acknowledged d.1 k sc = true → (∀ mb ∈ c.members, mb.psb = []) → markerStep s k f = wait s) := by
  obtain rfl : c.id = k := ctxOf_id h.1
  refine ⟨fun hack => ?_, fun hack hlines => ?_, fun hack hempty => ?_⟩
  · exact markerStep_some h (hf.trans (releaseAcquire_acknowledged true hack))
  · exact markerStep_some h (hf.trans (releaseAcquire_drains true (Bool.eq_false_iff.2 hack) hlines))
  · exact markerStep_none h (hf.trans (releaseAcquire_waits true (Bool.eq_false_iff.2 hack) hempty))

/-- PHASE asks for DEVICE scope, which every port acknowledges as it accepts. -/
theorem exec_phaseMarker (h : MarkerTurn s k c a) {rel acq : Bool} (hm : a.marker = .phase rel acq) :
    let d := drainCtx s (c.dropMarker a)
    let c2 := if rel then d.2 else c.dropMarker a
    exec (.phaseMarker k) s = done ((if rel then d.1 else s).putCtx (if acq then c2.dropView else c2)) := by
  refine markerStep_some h ?_
  simp only [hm]
  cases rel
  · exact releaseAcquire_acquire acq
  · exact releaseAcquire_acknowledged acq rfl

theorem exec_tsetMarker (h : MarkerTurn s k c a) {b : FeBuf} {full : Bool} {off : Nat} (hm : a.marker = .tset b full off)
    {s1 : State} (hset : setOnMembers (s.putCtx (c.dropMarker a)) (c.dropMarker a) (feBuf b) full off
      (List.range (c.dropMarker a).members.length) = some s1) : exec (.tsetMarker k) s = done s1 := by
  refine markerStep_some h ?_
  simp only [hm, hset]

end Marker

/-! ### CDEF -/

/-- The first poisoned word among the bytes that a CDEF.mem fixed, with its place; the leader's own stores hide poison. -/
def poisonedFixed (s : State) (mb : Member) (l : List GLoc) : Option (GLoc × Nat) :=
  if s.poison == [] then none
  else l.zipIdx.find? fun y => !mb.overlaid y.1 && s.memPoisoned (y.1.on (dieOf mb.cluster))

/-- A byte that a CDEF.mem cannot read. -/
def FixedBad (s : State) (mb : Member) (y : GLoc) : Prop :=
  mb.overlaid y = false ∧ s.memPoisoned (y.on (dieOf mb.cluster)) = true

section Fixed
variable {s : State} {mb : Member} {l : List GLoc}

theorem fixedBad_iff {y : GLoc} :
    (!mb.overlaid y && s.memPoisoned (y.on (dieOf mb.cluster))) = true ↔ FixedBad s mb y := by
  rw [Bool.and_eq_true, Bool.not_eq_true', FixedBad]

theorem poisonedFixed_eq_none (h : ∀ y ∈ l, ¬FixedBad s mb y) : poisonedFixed s mb l = none := by
  unfold poisonedFixed
  split
  · rfl
  · refine List.find?_eq_none.2 fun y hy hbad => h y.1 ?_ (fixedBad_iff.1 hbad)
    exact List.mem_of_getElem? (List.mem_zipIdx_iff_getElem?.1 hy)

theorem poisonedFixed_eq_some {y : GLoc} {j : Nat} (hy : l[j]? = some y) (hbad : FixedBad s mb y)
    (hfirst : ∀ j' z, j' < j → l[j']? = some z → ¬FixedBad s mb z) : poisonedFixed s mb l = some (y, j) := by
  have hpoison : ¬(s.poison == []) = true := fun h0 => by
    have := hbad.2
    simp [State.memPoisoned, beq_iff_eq.1 h0] at this
  obtain ⟨hj, rfl⟩ := List.getElem?_eq_some_iff.1 hy
  refine (if_neg hpoison).trans (List.find?_eq_some_iff_getElem.2 ⟨fixedBad_iff.2 hbad, j, by simpa using hj, by simp, ?_⟩)
  intro i hi
  have hgood := mt fixedBad_iff.1 (hfirst i l[i] hi (List.getElem?_eq_getElem (Nat.lt_trans hi hj)))
  rw [List.getElem_zipIdx, Bool.not_eq_true', ← Bool.not_eq_true]
  exact hgood

end Fixed

section Cdef
variable {s : State} {k : Nat} {c : Ctx} {e : Entry} {x : Nat} {v : DWord} {l : List GLoc}

theorem exec_cdefMarker_value (h : MarkerTurn s k c (.stream e (.cdef x false v l))) :
    let c1 := c.dropMarker (.stream e (.cdef x false v l))
    exec (.cdefMarker k) s = done (s.putCtx { c1 with defaults := c1.defaults.map fun y =>
      if y.1 == x then (y.1, Lanes.fill (v.truncate 32)) else y }) := by
  obtain ⟨hctx, hturn, hmono⟩ := h
  show execCdefMarker k s = _
  simp only [execCdefMarker, hctx, hturn]
  exact if_neg (by rw [show monoBlocked s c e.key = false from hmono]; decide)

/-- CDEF.mem: the first poisoned word raises MCHK unless the gang halts; else the read waits behind the ports. -/
theorem execCdefMarker_mem {mb : Member} (h : MarkerTurn s k c (.stream e (.cdef x true v l))) (hmb : c.member 0 = some mb) :
    (∀ i, (poisonedFixed s mb l).map (fun y => y.2) = some i → c.halting = false →
      let tr := genTrap c .mchk (poisonAddr 5 (v.toNat + i))
      exec (.cdefMarker k) s = done (enterTrap s c tr
        { trap := tr, row := none, eng := none, marker := true, afterExit := c.exited, resume := c.pc, skipLen := 0 })) ∧
    (poisonedFixed s mb l = none →
      (portBusy s l = true → exec (.cdefMarker k) s = wait s) ∧
      (portBusy s l = false →
        let r := loadBytes s.mem mb l
        let c2 := (c.dropMarker (.stream e (.cdef x true v l))).putMember 0 r.2
        exec (.cdefMarker k) s = done (s.putCtx { c2 with defaults := c2.defaults.map fun y =>
          if y.1 == x then (y.1, Lanes.build fun n => BitVec.ofNat 32 (leNat ((r.1.drop (4 * n)).take 4))) else y }))) := by
  obtain ⟨hctx, hturn, hmono⟩ := h
  have hkey : ¬monoBlocked s c e.key = true := Bool.eq_false_iff.1 hmono
  have hexec : exec (.cdefMarker k) s = execCdefMarker k s := rfl
  simp only [hexec, execCdefMarker, hctx, hturn, hmb, if_neg hkey]
  refine ⟨fun i hi hhalt => ?_, fun hnone => ⟨fun hport => ?_, fun hport => ?_⟩⟩
  · obtain ⟨⟨y, j⟩, hy, rfl⟩ := Option.map_eq_some_iff.1 hi
    unfold poisonedFixed at hy
    simp only [hy, hhalt, Bool.false_eq_true, if_false]
    rfl
  · unfold poisonedFixed at hnone
    simp only [hnone, hport, if_true]
  · unfold poisonedFixed at hnone
    simp only [hnone, hport, Bool.false_eq_true, if_false]
    rfl

end Cdef

/-! ### Carries -/

theorem exec_carrySend {s : State} {k m : Nat} {c : Ctx} {mb : Member} {n : Need} {v : Lanes × LaneMask}
    (hctx : s.ctxOf k = some c) (hmb : c.member (m + 1) = some mb)
    (hneed : ((c.stream.flatMap (needsOf c m)).find? fun n => !n.sent mb.inbox) = some n) (hv : n.value s c = some v)
    (hmove : c.rowsMove = true) (hroom : mb.inbox.length < Config.inboxDepth) :
    exec (.carrySend k m) s = done (s.putCtx { (c.putMember (m + 1) { mb with inbox := mb.inbox ++
        [{ seq := n.e.seq, consumer := n.consumer, operandB := n.operandB, reg := n.reg, lanes := v.1, bad := v.2 }] }) with
      kept := c.kept.filter fun y =>
        !(y.seq == n.e.seq && y.item == n.consumer && y.operandB == n.operandB && y.reg == n.reg) }) := by
  show execCarrySend k m s = _
  simp only [execCarrySend, hctx, hmb, hneed, hv]
  exact if_neg (by simpa [hmove] using hroom)

/-- Settles O49: each marker is the rule of its kind above; FENCE, FENCE.x and BAR share `markerStep_releaseAcquire`. -/
theorem markersTakeEffect : Obligations.MarkersTakeEffect := by
  unfold Obligations.MarkersTakeEffect
  refine ⟨fun s k c a h => ?_, fun s k m c mb n v hctx hmb hneed hv hmove hroom => exec_carrySend hctx hmb hneed hv hmove hroom⟩
  simp only [← acknowledged_iff]
  refine ⟨fun sc hm => ?fence, fun hm => ?fenceX, fun sc hm => ?bar, fun e sc ha hbusy => ?busy, fun rel acq hm => ?phase,
    fun b full off s1 hm hset => ?tset, fun e x v l ha => ?value, fun e x v l mb ha hmb => ?mem⟩
  case fence => exact markerStep_releaseAcquire h (by simp only [hm])
  case fenceX => exact markerStep_releaseAcquire h (by simp only [hm])
  case bar =>
    obtain ⟨e, rfl⟩ | ⟨e, rfl, hidle⟩ := hm
    · exact markerStep_releaseAcquire h rfl
    · exact markerStep_releaseAcquire h (if_neg (Bool.eq_false_iff.1 hidle))
  case busy =>
    subst ha
    exact markerStep_none h (if_pos hbusy)
  case phase => exact exec_phaseMarker h hm
  case tset => exact exec_tsetMarker h hm hset
  case value =>
    subst ha
    exact exec_cdefMarker_value h
  case mem =>
    subst ha
    obtain ⟨hpoisoned, hclean⟩ := execCdefMarker_mem h hmb
    refine ⟨fun hgood => (hclean (poisonedFixed_eq_none hgood)).1, fun hgood => (hclean (poisonedFixed_eq_none hgood)).2, ?_⟩
    intro y j hy hbad hfirst hhalt hcan
    refine ⟨_, hpoisoned j (by rw [poisonedFixed_eq_some hy hbad hfirst, Option.map_some]) hhalt, ?_⟩
    exact enterTrap_entered hcan ((ctxOf_id h.1).symm ▸ h.1)

end Sys2Proof.Machine

/-! ## Launches and their placement (R39, R263, R265, R267, R268, R280, R281) -/

namespace Sys2Proof.Machine
open Sys2Proof.Safety

/-! ### The record -/

section Launch
variable {s : State} {q : Nat} {dq : DevQueue} {d : Nat} (hhead : headSlot s q = some dq) (hlaunch : dq.consumer = .launch)
  (hdom : dq.domain = some d) (hrun : s.phase = .running)
include hhead hlaunch hdom hrun

/-- A record that cannot be read is dropped and counted (log 26). -/
theorem exec_launch_unreadable (hread : readRecord (takeHead s dq) (some d) (dq.slotAddr dq.head) 256 = none) :
    exec (.launch q) s = done (releaseSlot (countError (takeHead s dq) q) q dq.head) := by
  show execLaunch q s = _
  simp only [execLaunch, hhead, hlaunch, hdom, hrun, bne_self_eq_false, Bool.false_eq_true, if_false, hread]

variable {bs : List Byte} (hread : readRecord (takeHead s dq) (some d) (dq.slotAddr dq.head) 256 = some bs)
include hread

/-- CODEBAD comes before every other reason. -/
theorem exec_launch_codeBad (hkernel : launchKernel (takeHead s dq) d bs = none) :
    exec (.launch q) s = done (refuseLaunch (takeHead s dq) d q dq.head bs 0x07) := by
  show execLaunch q s = _
  simp only [execLaunch, hhead, hlaunch, hdom, hrun, bne_self_eq_false, Bool.false_eq_true, if_false, hread, hkernel]

variable {k : Kernel} (hkernel : launchKernel (takeHead s dq) d bs = some k)
include hkernel

theorem exec_launch_refused {reason : Nat} (hreason : launchRefusal (takeHead s dq) d (launchRec k bs) bs = some reason) :
    exec (.launch q) s = done (refuseLaunch (takeHead s dq) d q dq.head bs reason) := by
  show execLaunch q s = _
  simp only [execLaunch, hhead, hlaunch, hdom, hrun, bne_self_eq_false, Bool.false_eq_true, if_false, hread, hkernel, hreason]

theorem exec_launch_accepted (hreason : launchRefusal (takeHead s dq) d (launchRec k bs) bs = none) :
    let s1 := takeHead s dq
    let p := launchRec k bs
    exec (.launch q) s = done { s1 with
      waiting := s1.waiting ++ [{ k := s1.nextId, queue := q, slot := dq.head, domain := d, rank := s1.nextRank, reported := false,
                                  params := p, pool := ((wholeBases s1 p.gang).find? (poolOk s1 p)).getD 0 }],
      nextId := s1.nextId + 1, nextRank := s1.nextRank + 1 } := by
  show execLaunch q s = _
  simp only [execLaunch, hhead, hlaunch, hdom, hrun, bne_self_eq_false, Bool.false_eq_true, if_false, hread, hkernel, hreason]

end Launch

/-! ### The checks of R267, each as a proposition -/

/-- ROWS: between 1 and 32. -/
def RowsBad (p : LaunchRec) : Prop := p.rows < 1 ∨ 32 < p.rows

/-- REGS: a multiple of 8 that holds the carried registers and fits the lane blocks. -/
def RegsBad (p : LaunchRec) : Prop :=
  p.regs % 8 ≠ 0 ∨ p.regs < 8 ∨ 256 < p.regs ∨ (∃ r ∈ p.kernel.carry, p.regs ≤ r) ∨ 1024 < (p.rows + 3) / 4 * p.regs

/-- The levels of R39 for a number of rows. -/
def LevelsFit (rows : Nat) (l : List (Nat × Nat × Nat)) : Prop :=
  1 ≤ l.length ∧ l.length ≤ 8 ∧ (∀ x ∈ l, 1 ≤ x.1 ∧ x.1 ≤ 65535 ∧ x.2.1 ≤ 5 ∧ x.2.2 ≤ 6 ∧ x.2.1 ≤ x.2.2) ∧
    (∀ j x y, l[j]? = some x → l[j + 1]? = some y → x.2.1 ≤ y.2.1) ∧
    ((l.filter fun x => decide (x.2.1 ≤ 1)).map fun x => x.1).foldl (· * ·) 1 = rows

def HierarchyBad (p : LaunchRec) (bs : List Byte) : Prop :=
  8 < fld bs 19 1 ∨ ∃ l, launchLevels p.kernel bs = some l ∧ ¬LevelsFit p.rows l

def RevisionBad (p : LaunchRec) : Prop := p.kernel.mmrev ≠ 1 ∧ p.kernel.mmrev ≠ 2

/-- An ash launch asks for too much of a block, for Monochrome order, or for space that no pool has. -/
def AshBad (s : State) (p : LaunchRec) : Prop :=
  p.cls = .ash ∧ (256 < (p.rows + 3) / 4 * p.regs ∨ p.mono = true ∨
    (wholeBases s p.gang ≠ [] ∧ ∀ b ∈ wholeBases s p.gang, poolOk s p b = false))

def GangBad (s : State) (p : LaunchRec) : Prop := p.gang < 1 ∨ wholeBases s p.gang = []

/-- A buffer size that is no multiple of 4096 or exceeds its buffer. -/
def SizeBad (n cap : Nat) : Prop := n % 4096 ≠ 0 ∨ cap < n

def BuffersBad (p : LaunchRec) : Prop :=
  SizeBad p.wb 4194304 ∨ SizeBad p.ab 4194304 ∨ SizeBad p.cb 1572864 ∨
    ∃ l ∈ p.kernel.lends, (match l.1 with | Buf.wb => p.wb | .ab => p.ab | .cb => p.cb) < l.2.1 + l.2.2

/-- A bound queue that is the control queue, or none of the domain's. -/
def QueueBad (s : State) (d : Nat) (p : LaunchRec) : Prop :=
  ∃ n, some n ∈ p.queues.toList ∧ (n = 0 ∨ ∀ x, s.queueOf n = some x → x.domain ≠ some d)

def FieldBad (bs : List Byte) : Prop :=
  fld bs 120 8 ≠ 0 ∨ 4 < fld bs 16 1 ∨ 2 < fld bs 17 1 ∨ ∃ j, j < 8 ∧ 2 ^ 22 ≤ fld bs (80 + 4 * j) 4

/-- A test of every element and its successor. -/
theorem all_zip_drop_one {α : Type} (test : α → α → Bool) (l : List α) :
    ((l.zip (l.drop 1)).all fun x => test x.1 x.2) = true ↔
      ∀ j x y, l[j]? = some x → l[j + 1]? = some y → test x y = true := by
  rw [List.all_eq_true]
  constructor
  · intro h j x y hx hy
    refine h (x, y) (List.mem_iff_getElem?.2 ⟨j, ?_⟩)
    rw [List.getElem?_zip_eq_some, List.getElem?_drop, Nat.add_comm]
    exact ⟨hx, hy⟩
  · intro h x hx
    obtain ⟨j, hj⟩ := List.mem_iff_getElem?.1 hx
    rw [List.getElem?_zip_eq_some, List.getElem?_drop, Nat.add_comm] at hj
    exact h j x.1 x.2 hj.1 hj.2

theorem levelsOk_iff (rows : Nat) (l : List (Nat × Nat × Nat)) : levelsOk rows l = true ↔ LevelsFit rows l := by
  have hnext := all_zip_drop_one (fun x y : Nat × Nat × Nat => decide (x.2.1 ≤ y.2.1)) l
  simp only [decide_eq_true_eq] at hnext
  simp only [levelsOk, LevelsFit, Bool.and_eq_true, decide_eq_true_eq, List.all_eq_true (p := fun x : Nat × Nat × Nat => _), hnext,
    beq_iff_eq, List.foldl_map, and_assoc]

theorem boundQueue_iff (s : State) (d n : Nat) :
    (n == 0 || !((s.queueOf n).any fun x => x.domain == some d)) = true ↔
      n = 0 ∨ ∀ x, s.queueOf n = some x → x.domain ≠ some d := by
  simp only [Bool.or_eq_true, beq_iff_eq, Bool.not_eq_true', Option.any_eq_false, beq_eq_false_iff_ne]

section Refusal
variable (s : State) (d : Nat) (p : LaunchRec) (bs : List Byte)

open Classical in
/-- R267: the reason is that of the first check that fails. -/
theorem launchRefusal_eq : launchRefusal s d p bs =
    if RowsBad p then some 0x01 else if RegsBad p then some 0x02 else if HierarchyBad p bs then some 0x03
    else if RevisionBad p then some 0x04 else if AshBad s p then some 0x05 else if GangBad s p then some 0x06
    else if BuffersBad p then some 0x08 else if QueueBad s d p then some 0x09 else if FieldBad bs then some 0x0A else none := by
  refine ite_congr rfl (fun _ => rfl) fun _ => ite_congr ?regs (fun _ => rfl) fun _ => ite_congr ?hier (fun _ => rfl) fun _ =>
    ite_congr ?rev (fun _ => rfl) fun _ => ite_congr ?ash (fun _ => rfl) fun _ => ite_congr ?gang (fun _ => rfl) fun _ =>
    ite_congr ?buf (fun _ => rfl) fun _ => ite_congr ?queue (fun _ => rfl) fun _ => ite_congr ?field (fun _ => rfl) fun _ => rfl
  case regs => simp only [RegsBad, Bool.or_eq_true, bne_iff_ne, decide_eq_true_eq, List.any_eq_true, or_assoc]
  case hier =>
    simp only [HierarchyBad, Bool.or_eq_true, decide_eq_true_eq, Bool.not_eq_true', ← Bool.not_eq_true, Option.all_eq_true,
      levelsOk_iff, not_forall, exists_prop]
  case rev => simp only [RevisionBad, Bool.and_eq_true, bne_iff_ne]
  case ash =>
    simp only [AshBad, Bool.and_eq_true, Bool.or_eq_true, beq_iff_eq, decide_eq_true_eq, Bool.not_eq_true', Bool.or_eq_false_iff,
      List.isEmpty_eq_false_iff, List.any_eq_false, Bool.not_eq_true, or_assoc]
  case gang => simp only [GangBad, List.isEmpty_iff]
  case buf =>
    simp only [BuffersBad, SizeBad, Bool.or_eq_true, bne_iff_ne, List.any_eq_true, decide_eq_true_eq, or_assoc, Nat.reducePow,
      Nat.reduceMul] <;> rfl
  case queue =>
    refine propext (List.any_eq_true.trans ⟨?_, ?_⟩)
    · rintro ⟨_ | n, hn, hbad⟩
      · cases hbad
      · exact ⟨n, hn, (boundQueue_iff s d n).1 hbad⟩
    · rintro ⟨n, hn, hbad⟩
      exact ⟨some n, hn, (boundQueue_iff s d n).2 hbad⟩
  case field =>
    have hhigh : ∀ v, v / 2 ^ 22 ≠ 0 ↔ 2 ^ 22 ≤ v := by omega
    simp only [FieldBad, Bool.or_eq_true, bne_iff_ne, decide_eq_true_eq, List.any_eq_true, List.mem_range, or_assoc, hhigh]

/-- The same, reason by reason. -/
theorem launchRefusal_reasons :
    let r := launchRefusal s d p bs
    (RowsBad p → r = some 0x01) ∧ (¬RowsBad p → RegsBad p → r = some 0x02) ∧
    (¬RowsBad p → ¬RegsBad p → HierarchyBad p bs → r = some 0x03) ∧
    (¬RowsBad p → ¬RegsBad p → ¬HierarchyBad p bs → RevisionBad p → r = some 0x04) ∧
    (¬RowsBad p → ¬RegsBad p → ¬HierarchyBad p bs → ¬RevisionBad p →
      (AshBad s p → r = some 0x05) ∧ (¬AshBad s p → GangBad s p → r = some 0x06) ∧
      (¬AshBad s p → ¬GangBad s p → BuffersBad p → r = some 0x08) ∧
      (¬AshBad s p → ¬GangBad s p → ¬BuffersBad p → QueueBad s d p → r = some 0x09) ∧
      (¬AshBad s p → ¬GangBad s p → ¬BuffersBad p → ¬QueueBad s d p → FieldBad bs → r = some 0x0A) ∧
      (¬AshBad s p → ¬GangBad s p → ¬BuffersBad p → ¬QueueBad s d p → ¬FieldBad bs → r = none)) := by
  intro r
  have hr : r = _ := launchRefusal_eq s d p bs
  refine ⟨fun h1 => ?_, fun h1 h2 => ?_, fun h1 h2 h3 => ?_, fun h1 h2 h3 h4 => ?_, fun h1 h2 h3 h4 => ⟨fun h5 => ?_,
    fun h5 h6 => ?_, fun h5 h6 h7 => ?_, fun h5 h6 h7 h8 => ?_, fun h5 h6 h7 h8 h9 => ?_, fun h5 h6 h7 h8 h9 => ?_⟩⟩ <;>
  simp only [*, if_true, if_false]

end Refusal

/-! ### Placement -/

section Placement
variable {s : State} {k base : Nat} {w : Waiting} (hw : (s.waiting.find? fun w => w.k == k) = some w)
include hw

theorem exec_launchPlacement_fits {gs : List (List Nat)} (hfits : w.fits s base = some gs) :
    let leaves := leavesAt base w.params.gang
    let crimson := w.params.cls == .crimson
    let s1 := evictAsh (sendOrders s leaves crimson (.place k)) w.request base w.params.gang
    (orderRoom s leaves crimson = false → exec (.launchPlacement k base) s = wait s) ∧
    (orderRoom s leaves crimson = true → exec (.launchPlacement k base) s = done (releaseSlot
      { s1 with ctxs := s1.ctxs ++ [freshCtx w base gs], waiting := s1.waiting.filter fun x => x.k != k } w.queue w.slot)) := by
  have hexec : exec (.launchPlacement k base) s = execLaunchPlacement k base s := rfl
  simp only [hexec, execLaunchPlacement, hw, hfits]
  exact ⟨fun hroom => if_pos (by rw [hroom]; rfl), fun hroom => if_neg (by rw [hroom]; decide)⟩

/-- FRAGWAIT is left with the leaf controller of the base, once. -/
theorem exec_launchPlacement_fragwait (hfits : w.fits s base = none) (hnew : w.reported = false) (hnone : w.base? s = none) :
    let told := post s (clusterOf base 0) (w.params.cls == .crimson) (.fragwait k)
    exec (.launchPlacement k base) s =
      done { told with waiting := told.waiting.map fun x => if x.k == k then { x with reported := true } else x } := by
  show execLaunchPlacement k base s = _
  simp only [execLaunchPlacement, hw, hfits, hnew, hnone, Option.isSome_none, Bool.or_self, Bool.false_eq_true, if_false]
  rfl

theorem exec_launchPlacement_wait (hfits : w.fits s base = none) (h : w.reported = true ∨ w.base? s ≠ none) :
    exec (.launchPlacement k base) s = wait s := by
  show execLaunchPlacement k base s = _
  simp only [execLaunchPlacement, hw, hfits]
  exact if_pos (by rwa [Bool.or_eq_true, Option.isSome_iff_ne_none])

end Placement

/-- Settles O52: the record by `exec_launch_…`, the reasons by `launchRefusal_eq`, the placement by `exec_launchPlacement_…`. -/
theorem launchAndPlacement : Obligations.LaunchAndPlacement := by
  unfold Obligations.LaunchAndPlacement
  refine ⟨?record, ?reasons, ?placement⟩
  case record =>
    intro s q dq d hhead hlaunch hdom hrun
    refine ⟨fun hread => exec_launch_unreadable hhead hlaunch hdom hrun hread, fun bs hread => ⟨fun hkernel => ?_, fun k hkernel =>
      ⟨fun reason hreason => ?_, fun hreason => ?_⟩⟩⟩
    · exact exec_launch_codeBad hhead hlaunch hdom hrun hread hkernel
    · exact exec_launch_refused hhead hlaunch hdom hrun hread hkernel hreason
    · exact exec_launch_accepted hhead hlaunch hdom hrun hread hkernel hreason
  case reasons => exact fun s d k bs => launchRefusal_reasons s d (launchRec k bs) bs
  case placement =>
    intro s k base w hw
    refine ⟨fun gs hfits => exec_launchPlacement_fits hw hfits, fun hfits hnew hnone => ?_, fun hfits h => ?_⟩
    · exact exec_launchPlacement_fragwait hw hfits hnew hnone
    · exact exec_launchPlacement_wait hw hfits h

end Sys2Proof.Machine

/-! ## Revocation, spills, pre-emption, restore (R26, R104, R208, R263, R278, R281, R306, R314, R317) -/

namespace Sys2Proof.Machine
open Sys2Proof.Safety

/-! ### Choices from a list -/

theorem leastBy_mem {α : Type} {f : α → Nat} {l : List α} {y : α} (h : leastBy f l = some y) : y ∈ l := by
  induction l generalizing y with
  | nil => cases h
  | cons x l ih =>
    rw [leastBy] at h
    split at h
    · exact Option.some.inj h ▸ List.mem_cons_self
    · next z hz =>
      split at h
      · exact Option.some.inj h ▸ List.mem_cons_of_mem x (ih hz)
      · exact Option.some.inj h ▸ List.mem_cons_self

theorem leastBy2_mem {α : Type} {f : α → Nat × Nat} {l : List α} {y : α} (h : leastBy2 f l = some y) : y ∈ l := by
  induction l generalizing y with
  | nil => cases h
  | cons x l ih =>
    rw [leastBy2] at h
    split at h
    · exact Option.some.inj h ▸ List.mem_cons_self
    · next z hz =>
      split at h
      · exact Option.some.inj h ▸ List.mem_cons_of_mem x (ih hz)
      · exact Option.some.inj h ▸ List.mem_cons_self

/-! ### Lent ranges -/

theorem owesSpill_iff (s : State) (k : Nat) : s.owesSpill k = true ↔
    ∃ d ∈ s.ctxs, ∃ mb ∈ d.members, ∃ l ∈ mb.lends, l.st = .lent k ∨ l.st = .owed k := by
  simp only [State.owesSpill, List.any_eq_true, Bool.or_eq_true, beq_iff_eq]

section Spill
variable {s : State} {k m j h : Nat} {c : Ctx} {mb : Member} {l : Lend} (hctx : s.ctxOf k = some c) (hmb : c.member m = some mb)
  (hl : mb.lends[j]? = some l)
include hctx hmb hl

/-- A range that the owner has reclaimed, or whose holder is gone, spills. -/
theorem exec_lentRangeSpill (hst : l.st = .owed h ∨ (l.st = .lent h ∧ holderGone s h = true)) :
    exec (.lentRangeSpill k m j) s = done (spillRange s k m j l h) := by
  show execLentRangeSpill k m j s = _
  simp only [execLentRangeSpill, hctx, Option.bind_some, hmb, hl]
  obtain hst | ⟨hst, hgone⟩ := hst
  · rw [hst]
  · simp only [hst, hgone, if_true]

theorem exec_lentRangeSpill_wait (hst : l.st = .lent h) (hheld : holderGone s h = false) :
    exec (.lentRangeSpill k m j) s = wait s := by
  show execLentRangeSpill k m j s = _
  simp only [execLentRangeSpill, hctx, Option.bind_some, hmb, hl, hst, hheld, Bool.false_eq_true, if_false]

end Spill

/-! ### Revocation and return -/

theorem exec_revocation {s : State} {k : Nat} {c : Ctx} (hctx : s.ctxOf k = some c) (hash : c.ash = true)
    (hblocks : c.onBlocks = true) (hended : c.ended = none) :
    ((∃ w ∈ s.waiting, ∃ d, nextRevoked s w = some d ∧ d.id = k) →
      exec (.revocation k) s = done (s.putCtx { c with revoked := true })) ∧
    ((∀ w ∈ s.waiting, ∀ d, nextRevoked s w = some d → d.id ≠ k) → exec (.revocation k) s = wait s) := by
  have hexec : exec (.revocation k) s = execRevocation k s := rfl
  have hrevoke : revoke s k = s.putCtx { c with revoked := true } := by simp only [revoke, hctx]
  rw [← hrevoke]
  simp only [hexec, execRevocation, hctx, hash, hblocks, hended, Option.isNone_none, Bool.true_and]
  refine ⟨fun ⟨w, hw, d, hd, hid⟩ => if_pos ?_, fun hnone => if_neg ?_⟩
  · exact List.any_eq_true.2 ⟨w, hw, by rw [hd]; exact beq_iff_eq.2 hid⟩
  · simpa [Option.any_eq_true] using hnone

theorem ashInTheWay_spec {s : State} {w : Waiting} {d : Ctx} (h : d ∈ ashInTheWay s w) :
    (w.params.cls = .crimson ∨ w.params.cls = .normal) ∧ d ∈ s.ctxs ∧ d.ash = true ∧ d.onBlocks = true := by
  unfold ashInTheWay at h
  split at h
  · cases h
  · next hcls =>
    refine ⟨by simpa only [Bool.not_eq_true', Bool.not_eq_false, Bool.or_eq_true, beq_iff_eq] using hcls, ?_⟩
    split at h
    · obtain ⟨hd, hp⟩ := List.mem_filter.1 h
      simp only [Bool.and_eq_true] at hp
      exact ⟨hd, hp.1.1.1, hp.1.1.2⟩
    · obtain ⟨hd, hp⟩ := List.mem_filter.1 h
      simp only [Bool.and_eq_true] at hp
      exact ⟨hd, hp.1.1, hp.1.2⟩

/-- Who is revoked next, and for whom (R281). -/
theorem nextRevoked_spec {s : State} {w : Waiting} {d : Ctx} (h : nextRevoked s w = some d) :
    w.reported = true ∧ (w.params.cls = .crimson ∨ w.params.cls = .normal) ∧ d ∈ s.ctxs ∧ d.ash = true ∧ d.onBlocks = true ∧
      w.base? s = none := by
  unfold nextRevoked at h
  split at h
  · cases h
  · next hwait =>
    obtain ⟨hcls, hd, hash, hblocks⟩ := ashInTheWay_spec (leastBy_mem h)
    have : w.reported = true ∧ w.base? s = none := by simpa using hwait
    exact ⟨this.1, hcls, hd, hash, hblocks, this.2⟩

section Resume
variable {s : State} {k : Nat} {c : Ctx} (hctx : s.ctxOf k = some c)
include hctx

theorem exec_ashResume_owes (howes : s.owesSpill k = true) : exec (.ashResume k) s = wait s := by
  show execAshResume k s = _
  simp only [execAshResume, hctx, howes, Bool.or_true, if_true]

theorem exec_ashResume (howes : s.owesSpill k = false) (hrev : c.revoked = true) (hres : c.resident = true)
    (hended : c.ended = none) {gs : List (List Nat)}
    (hplace : placeGang s c.request (((c.member 0).map fun m => m.cluster).getD 0) c.localsOf = some gs) :
    exec (.ashResume k) s = done (resumeEvents (s.putCtx
      { c.withGranules (((c.member 0).map fun m => m.cluster).getD 0) gs with revoked := false }) k) := by
  show execAshResume k s = _
  simp only [execAshResume, hctx, howes, hrev, hres, hended, Option.isNone_none, Bool.and_self, Bool.not_true, Bool.or_self,
    Bool.false_eq_true, if_false, hplace]

end Resume

/-! ### Pre-emption -/

section SwitchOut
variable {s : State} {k : Nat} {c : Ctx} {crimson : Bool} (hctx : s.ctxOf k = some c)
include hctx

theorem exec_switchOut (hself : ((switchSet s c).any fun d => d.id == k) = true)
    (hall : ∀ d ∈ switchSet s c, d.switchable = true) (hpre : preempts s c crimson = true)
    (hroom : orderRoom s ((switchSet s c).flatMap fun d => d.members.map fun mb => mb.cluster) crimson = true)
    (hmoved : (switchSet s c).foldl (fun s d => preemptOne s crimson d.id) (s.swapTogether (switchSet s c)) ≠ s) :
    exec (.switchOut k crimson) s = done (sendOrders
      ((switchSet s c).foldl (fun s d => preemptOne s crimson d.id) (s.swapTogether (switchSet s c)))
      ((switchSet s c).flatMap fun d => d.members.map fun mb => mb.cluster) crimson (.switchOut k)) := by
  show execSwitchOut k crimson s = _
  simp only [execSwitchOut, hctx, hself, List.all_eq_true.2 hall, hpre, hroom, Bool.not_true, Bool.or_self, Bool.false_eq_true,
    if_false, beq_eq_false_iff_ne.2 hmoved]

theorem exec_switchOut_wait (h : (∃ d ∈ switchSet s c, d.switchable = false) ∨
    orderRoom s ((switchSet s c).flatMap fun d => d.members.map fun mb => mb.cluster) crimson = false) :
    exec (.switchOut k crimson) s = wait s := by
  show execSwitchOut k crimson s = _
  simp only [execSwitchOut, hctx]
  refine if_pos ?_
  obtain hstuck | hroom := h
  · have hall : (switchSet s c).all Ctx.switchable = false := List.all_eq_false.2 (by simpa using hstuck)
    simp only [hall, Bool.not_false, Bool.or_true, Bool.true_or]
  · simp only [hroom, Bool.not_false, Bool.or_true]

/-- R306: 20 µs after its arrival a deferred pre-emption is taken with the handler in place. -/
theorem exec_preemptDeferExpiry {t : DWord} (hdef : c.deferred = some t) (hhandler : c.handler = true)
    (hsw : c.switchable = true) (hlate : 18800 ≤ (s.realtime - t).toNat) :
    exec (.preemptDeferExpiry k) s = done (startSwitch s k true) := by
  show execPreemptDeferExpiry k s = _
  have hdue : deferLimit ≤ (s.realtime - t).toNat := hlate
  simp only [execPreemptDeferExpiry, hctx, hdef, hsw, hhandler, Bool.not_true, Bool.false_eq_true, if_false, hdue, decide_true,
    if_true]

theorem exec_preemptDeferExpiry_returned {t : DWord} (hdef : c.deferred = some t) (hhandler : c.handler = false)
    (hsw : c.switchable = true) :
    exec (.preemptDeferExpiry k) s = done (startSwitch (s.putCtx { c with deferred := none }) k false) := by
  show execPreemptDeferExpiry k s = _
  simp only [execPreemptDeferExpiry, hctx, hdef, hsw, hhandler, Bool.not_true, Bool.not_false, Bool.false_eq_true, if_false, if_true]

end SwitchOut

/-- The classes that stand before another (R278). -/
theorem classRank_lt {a b : TrafficClass} (h : classRank a < classRank b) :
    a = .crimson ∧ b ≠ .crimson ∨ a = .normal ∧ b ≠ .crimson ∧ b ≠ .normal ∨ a = .bulk ∧ b = .ash := by
  cases a with
  | crimson => exact .inl ⟨rfl, by rintro rfl; exact absurd h (by decide)⟩
  | normal =>
    exact .inr (.inl ⟨rfl, by rintro rfl; exact absurd h (by decide), by rintro rfl; exact absurd h (by decide)⟩)
  | bulk =>
    cases b with
    | ash => exact .inr (.inr ⟨rfl, rfl⟩)
    | _ => exact absurd h (by decide)
  | ash => cases b <;> exact absurd h (by decide)

/-- A victim ranks below the launch with every owner that leaves with it; the launch fits nowhere. -/
theorem victim_spec {s : State} {w : Waiting} {v : Ctx} (h : victim s w = some v) :
    w.params.cls ≠ .ash ∧ w.base? s = none ∧ v ∈ s.ctxs ∧
      ∀ d ∈ switchSet s v, classRank w.params.cls < classRank d.cls := by
  unfold victim at h
  split at h
  · cases h
  · next hplace =>
    have hwants : w.params.cls ≠ .ash ∧ w.base? s = none := by
      simp only [Waiting.hasPlace, Bool.or_eq_true, beq_iff_eq, not_or, Bool.not_eq_true, Option.isSome_eq_false_iff,
        Option.isNone_iff_eq_none] at hplace
      exact ⟨hplace.1, hplace.2.1⟩
    dsimp only at h
    split at h
    · cases h
    · split at h
      · cases h
      · have hv := (List.mem_filter.1 (List.mem_filter.1 (List.mem_filter.1 (leastBy2_mem h)).1).1)
        simp only [Ctx.preemptible, Bool.and_eq_true, List.all_eq_true, decide_eq_true_eq] at hv
        exact ⟨hwants.1, hwants.2, hv.1, hv.2.2⟩

/-- R278: a launch that waits and finds no placement pre-empts; of owners only those whose whole set ranks below it. -/
theorem preempts_spec {s : State} {c : Ctx} {crimson : Bool} (h : preempts s c crimson = true) :
    ∃ w ∈ s.waiting, (crimson = true ↔ w.params.cls = .crimson) ∧ w.params.cls ≠ .ash ∧ w.base? s = none ∧
      (c.ash = false → ∃ v ∈ s.ctxs, v.id = c.id ∧ ∀ d ∈ switchSet s v, classRank w.params.cls < classRank d.cls) := by
  obtain ⟨w, hw, hp⟩ := List.any_eq_true.1 h
  obtain ⟨hclass, hcase⟩ := Bool.and_eq_true_iff.1 hp
  have hcrimson : crimson = true ↔ w.params.cls = .crimson := by rw [beq_iff_eq.1 hclass, beq_iff_eq]
  by_cases hash : c.ash = true
  · rw [if_pos hash, Bool.and_eq_true, bne_iff_ne, Option.isNone_iff_eq_none] at hcase
    exact ⟨w, hw, hcrimson, hcase.1, hcase.2, fun hf => absurd hash (Bool.eq_false_iff.1 hf)⟩
  · rw [if_neg hash] at hcase
    obtain ⟨v, hv, hid⟩ := (Option.any_eq_true _ _).1 hcase
    obtain ⟨hna, hbase, hmem, hrank⟩ := victim_spec hv
    exact ⟨w, hw, hcrimson, hna, hbase, fun _ => ⟨v, hmem, beq_iff_eq.1 hid, hrank⟩⟩

/-! ### The end of a dispatch: no row is live, the context has ended -/

/-- Only a row of another number stays live when a row retires. -/
theorem live_of_mem_retireRow {c : Ctx} {x r : Row} {n : Nat} {e : BitVec 48} (hr : r ∈ (c.retireRow x n e).rows)
    (hlive : r.live = true) : r ∈ c.rows ∧ r.item ≠ x.item := by
  obtain ⟨y, hy, rfl⟩ := List.mem_map.1 hr
  dsimp only at hlive ⊢
  split at hlive
  · cases hlive
  · next hne => exact ⟨by rwa [if_neg hne], by rw [if_neg hne]; simpa using hne⟩

/-- A context of which no row is live. -/
def Ctx.NoneLive (c : Ctx) : Prop := ∀ r ∈ c.rows, r.live = false

theorem Ctx.NoneLive.retireRow {c : Ctx} (h : c.NoneLive) (x : Row) (n : Nat) (e : BitVec 48) : (c.retireRow x n e).NoneLive :=
  fun r hr => Bool.eq_false_iff.2 fun hlive => Bool.eq_false_iff.1 (h r (live_of_mem_retireRow hr hlive).1) hlive

theorem Ctx.NoneLive.retireDone {c : Ctx} (h : c.NoneLive) : c.retireDone.NoneLive := by
  unfold Ctx.retireDone
  split
  · refine List.foldlRecOn (motive := Ctx.NoneLive) c.rows _ h fun d hd x _ => ?_
    split
    · split
      · exact hd.retireRow _ _ _
      · exact hd
    · exact hd
  · exact h

theorem settle_rows (c : Ctx) : c.settle.rows = c.retireDone.rows := by
  unfold Ctx.settle
  rw [pruneChannel_rows, prune_rows, resolveVotes_rows, prune_rows]

@[simp] theorem settle_ended (c : Ctx) : c.settle.ended = c.ended := by
  rw [(settle_same c).eq]

theorem Ctx.NoneLive.settle {c : Ctx} (h : c.NoneLive) : c.settle.NoneLive := by
  unfold Ctx.NoneLive
  rw [settle_rows]
  exact h.retireDone

/-- Retiring rows one after another leaves none live when every live row has its number among them. -/
theorem noneLive_foldl_retireRow (l : List Row) {c : Ctx} (h : ∀ r ∈ c.rows, r.live = true → ∃ x ∈ l, x.item = r.item) :
    (l.foldl (fun c r => c.retireRow r c.nextSeq c.nextEsn) c).NoneLive := by
  induction l generalizing c with
  | nil =>
    intro r hr
    refine Bool.eq_false_iff.2 fun hlive => ?_
    obtain ⟨x, hx, -⟩ := h r hr hlive
    cases hx
  | cons x l ih =>
    refine ih fun r hr hlive => ?_
    obtain ⟨hmem, hne⟩ := live_of_mem_retireRow hr hlive
    obtain ⟨y, hy, hitem⟩ := h r hmem hlive
    obtain rfl | hy := List.mem_cons.1 hy
    · exact absurd hitem.symm hne
    · exact ⟨y, hy, hitem⟩

theorem noneLive_retireAll (c : Ctx) : (c.liveRows.foldl (fun c r => c.retireRow r c.nextSeq c.nextEsn) c).NoneLive :=
  noneLive_foldl_retireRow _ fun r hr hlive => ⟨r, List.mem_filter.2 ⟨hr, hlive⟩, rfl⟩

theorem retireAll_id (c : Ctx) : (c.liveRows.foldl (fun c r => c.retireRow r c.nextSeq c.nextEsn) c).id = c.id :=
  (foldl_same _ (fun d r => retireRow_same d r _ _) _ c).id

/-- What a fold of a state leaves alone because each of its steps does. -/
theorem foldl_field {α β : Type} (field : State → β) {f : State → α → State} (h : ∀ s x, field (f s x) = field s) (l : List α)
    (s : State) : field (l.foldl f s) = field s :=
  List.foldlRecOn (motive := fun t => field t = field s) l f rfl fun t ht x _ => (h t x).trans ht

@[simp] theorem releaseSlot_links (s : State) (q n : Nat) : (releaseSlot s q n).links = s.links := by
  unfold releaseSlot; split <;> rfl

@[simp] theorem drainLine_links (k : Nat) (s : State) (p : PsbLine) : (drainLine k s p).links = s.links := by
  unfold drainLine
  split
  · exact perform_links s _
  · rfl

@[simp] theorem drainLines_links (k : Nat) (s : State) (l : List PsbLine) : (drainLines k s l).links = s.links :=
  foldl_field State.links (drainLine_links k) l s

/-- The drain at the end of a dispatch touches neither contexts nor messages, and of the context only its members. -/
theorem drainOut_frame (s : State) (c : Ctx) :
    (drainOut s c).1.ctxs = s.ctxs ∧ (drainOut s c).1.links = s.links ∧ (drainOut s c).2.id = c.id := by
  unfold drainOut
  split
  · exact ⟨rfl, rfl, rfl⟩
  · unfold drainCtx
    exact ⟨foldl_field State.ctxs (fun s (mb : Member) => drainLines_ctxs c.id mb.psb s) c.members s,
      foldl_field State.links (fun s (mb : Member) => drainLines_links c.id s mb.psb) c.members s, rfl⟩

theorem stopContext_ctxOf {s : State} {c d : Ctx} (h : s.ctxOf c.id = some d) : ∃ c', (stopContext s c).ctxOf c.id = some c' ∧
    c' = ({ c with gen := .stopped, ir := none, stretches := c.stretches.filter fun x => x.defined, taken := [] } : Ctx).settle := by
  refine ⟨_, ?_, rfl⟩
  generalize hc' : ({ c with gen := .stopped, ir := none, stretches := c.stretches.filter fun x => x.defined, taken := [] } : Ctx).settle = c'
  have hid : c'.id = c.id := by rw [← hc', settle_id]
  have hctxs : (stopContext s c).ctxs = (s.putCtx c').ctxs := by
    rw [← hc']
    exact foldl_field State.ctxs (fun s (t : Nat × Nat) => releaseSlot_ctxs s t.1 t.2) _ _
  have hput : (s.putCtx c').ctxOf c.id = some c' := hid ▸ ctxOf_putCtx_self (hid.symm ▸ h)
  unfold State.ctxOf at hput ⊢
  rw [hctxs, hput]

theorem stopContext_links (s : State) (c : Ctx) : (stopContext s c).links = s.links := by
  unfold stopContext
  exact foldl_field State.links (fun s (t : Nat × Nat) => releaseSlot_links s t.1 t.2) _ _

/-- A dispatch cut short: it has ended as it is told, no row is live, no message has gone. -/
theorem endContext_ended {s : State} {c d : Ctx} (h : s.ctxOf c.id = some d) (status reason : BitVec 8) (tcause tesn : DWord) :
    (∃ c', (endContext s c status reason tcause tesn).ctxOf c.id = some c' ∧ c'.ended = some ⟨status, reason, tcause, tesn⟩ ∧
      c'.NoneLive) ∧ (endContext s c status reason tcause tesn).links = s.links := by
  obtain ⟨hctxs, hlinks, hid⟩ := drainOut_frame (unsleep s c).1 (unsleep s c).2
  have stops : ∀ e : Ctx, e.id = c.id → e.ended = some ⟨status, reason, tcause, tesn⟩ → e.NoneLive →
      (∃ c', (stopContext (drainOut (unsleep s c).1 (unsleep s c).2).1 e).ctxOf c.id = some c' ∧
        c'.ended = some ⟨status, reason, tcause, tesn⟩ ∧ c'.NoneLive) ∧
      (stopContext (drainOut (unsleep s c).1 (unsleep s c).2).1 e).links = s.links := by
    intro e he hended hnone
    have hslot : (drainOut (unsleep s c).1 (unsleep s c).2).1.ctxOf e.id = some d := by
      rw [he]
      unfold State.ctxOf at h ⊢
      rw [hctxs, unsleep_state, h]
    obtain ⟨c', hc', hsettled⟩ := stopContext_ctxOf hslot
    refine ⟨⟨c', he ▸ hc', ?_, ?_⟩, ?_⟩
    · rw [hsettled, settle_ended]
      exact hended
    · rw [hsettled]
      exact Ctx.NoneLive.settle hnone
    · rw [stopContext_links, hlinks, unsleep_state]
  unfold endContext
  refine stops _ ?_ rfl (noneLive_retireAll (drainOut (unsleep s c).1 (unsleep s c).2).2)
  exact (retireAll_id _).trans (hid.trans (by rw [unsleep_ctx]))

/-! ### Restore -/

theorem swapSet_eq (s : State) (c : Ctx) : swapSet s c = if c.swap = none then [c]
    else s.ctxs.filter fun d => d.swap == c.swap && d.switch == .out && !d.completed && d.ended.isNone :=
  ite_congr (propext Option.isNone_iff_eq_none) (fun _ => rfl) fun _ => rfl

/-- A context that can return is of its own set. -/
theorem mem_swapSet {s : State} {k : Nat} {c : Ctx} (hctx : s.ctxOf k = some c) (hout : c.switch = .out)
    (hcomp : c.completed = false) (hended : c.ended = none) : c ∈ swapSet s c := by
  rw [swapSet_eq]
  split
  · exact List.mem_singleton_self c
  · exact List.mem_filter.2 ⟨List.mem_of_find?_eq_some hctx, by simp [hout, hcomp, hended]⟩

theorem swapSet_alone {c : Ctx} (s : State) (hswap : c.swap = none) : swapSet s c = [c] := by
  rw [swapSet_eq, if_pos hswap]

theorem swapOpen_alone {c : Ctx} (s : State) (hswap : c.swap = none) : swapOpen s c = false := by
  simp [swapOpen, hswap]

/-- A set of several returns only by whole partitions (R26). -/
theorem restoreSet_eq (s : State) (c : Ctx) (base : Nat) (l : List Ctx) : restoreSet s c base l =
    if l.length ≤ 1 ∨ base % 4 = c.base % 4 then placeSet (movedBase c base) l s else none := by
  unfold restoreSet
  have guard : (decide (1 < l.length) && base % 4 != c.base % 4) = true ↔ ¬(l.length ≤ 1 ∨ base % 4 = c.base % 4) := by
    simp only [Bool.and_eq_true, decide_eq_true_eq, bne_iff_ne, ne_eq, not_or, Nat.not_le]
  by_cases haligned : l.length ≤ 1 ∨ base % 4 = c.base % 4
  · rw [if_pos haligned, if_neg (mt guard.1 (not_not_intro haligned))]
  · rw [if_neg haligned, if_pos (guard.2 haligned)]

section Restore
variable {s : State} {k : Nat} {c : Ctx} (hctx : s.ctxOf k = some c)
include hctx

theorem exec_restore_rehanding (hsw : c.switch = .rehanding) (hended : c.ended = none) (base : Nat) :
    exec (.restore k base) s = if finishRestore s k = s then wait s else done (finishRestore s k) := by
  show execRestore k base s = _
  simp only [execRestore, hctx, hsw, hended, Option.isSome_none, Bool.false_eq_true, if_false, beq_iff_eq]

variable (hout : c.switch = .out)
include hout

/-- A context whose lent range has not spilled does not return (R208). -/
theorem exec_restore_owes (howes : s.owesSpill k = true) (base : Nat) : exec (.restore k base) s = wait s := by
  show execRestore k base s = _
  simp only [execRestore, hctx, hout]
  refine if_pos ?_
  by_cases hcomp : c.completed = true
  · simp only [hcomp, Bool.true_or]
  by_cases hended : c.ended = none
  · have hmem := mem_swapSet hctx hout (Bool.eq_false_iff.2 hcomp) hended
    have hany : ((swapSet s c).any fun d => s.owesSpill d.id) = true :=
      List.any_eq_true.2 ⟨c, hmem, by rw [ctxOf_id hctx]; exact howes⟩
    simp only [hany, Bool.or_true]
  · have hsome : c.ended.isSome = true := Option.isSome_iff_ne_none.2 hended
    simp only [hsome, Bool.or_true, Bool.true_or]

variable (hcomp : c.completed = false) (hended : c.ended = none) (hopen : swapOpen s c = false)
  (howes : ∀ d ∈ swapSet s c, s.owesSpill d.id = false)
include hcomp hended hopen howes

/-- The first image of the set that fails its checks ends its context. -/
theorem exec_restore_bad {d : Ctx} (hbad : ((swapSet s c).find? fun d => !(d.image.any imageOk)) = some d) (base : Nat) :
    exec (.restore k base) s = done (rejectImage s d) := by
  have hany : ((swapSet s c).any fun d => s.owesSpill d.id) = false := List.any_eq_false.2 (by simpa using howes)
  show execRestore k base s = _
  simp only [execRestore, hctx, hout, hcomp, hended, hopen, hany, Option.isSome_none, Bool.or_self, Bool.false_eq_true, if_false, hbad]

/-- With every image good the set returns together, once there are permits and places for all. -/
theorem exec_restore_good (hgood : ∀ d ∈ swapSet s c, ∃ i, d.image = some i ∧ imageOk i = true) (base : Nat) :
    let leaves := (swapSet s c).flatMap fun d => leavesAt (movedBase c base d) d.members.length
    let crimson := c.cls == .crimson
    let placed := restoreSet (sendOrders s leaves crimson (.restore k)) c base (swapSet s c)
    (∀ s1, orderRoom s leaves crimson = true → placed = some s1 →
      exec (.restore k base) s = done ((swapSet s c).foldl (fun s d => enterRestore s d.id) s1)) ∧
    (orderRoom s leaves crimson = false ∨ placed = none → exec (.restore k base) s = wait s) := by
  have hany : ((swapSet s c).any fun d => s.owesSpill d.id) = false := List.any_eq_false.2 (by simpa using howes)
  have hfind : ((swapSet s c).find? fun d => !(d.image.any imageOk)) = none := by
    refine List.find?_eq_none.2 fun d hd => ?_
    obtain ⟨i, hi, hok⟩ := hgood d hd
    simp [hi, hok]
  have hexec : exec (.restore k base) s = execRestore k base s := rfl
  simp only [hexec, execRestore, hctx, hout, hcomp, hended, hopen, hany, Option.isSome_none, Bool.or_self, Bool.false_eq_true,
    if_false, hfind]
  refine ⟨fun s1 hroom hplaced => ?_, fun h => ?_⟩
  · simp only [hroom, Bool.not_true, Bool.false_eq_true, if_false, hplaced]
  · obtain hroom | hplaced := h
    · exact if_pos (by rw [hroom]; rfl)
    · simp only [hplaced, ite_self]

end Restore

/-- R104: a context whose image fails its checks has ended with IMGBAD and is reported. -/
theorem rejectImage_ended {s : State} {k : Nat} {c : Ctx} (hctx : s.ctxOf k = some c) :
    (∃ c', (rejectImage s c).ctxOf k = some c' ∧ c'.ended = some ⟨2, 0x21, 0, 0⟩ ∧ c'.NoneLive) ∧
      ∃ m ∈ (rejectImage s c).links, m.body = .imgbad k := by
  obtain rfl : c.id = k := ctxOf_id hctx
  let c1 : Ctx := { c with members := c.members.map fun mb => { mb with bank := { mb.bank with queue := [] } }, dump := [] }
  obtain ⟨hended, hlinks⟩ := endContext_ended (s := post s c.base (c.cls == .crimson) (.imgbad c.id)) (c := c1) (d := c) hctx 2 0x21 0 0
  refine ⟨hended, ⟨c.base, c.cls == .crimson, false, .imgbad c.id⟩, ?_, rfl⟩
  show _ ∈ (endContext _ c1 2 0x21 0 0).links
  rw [hlinks]
  exact List.mem_append_right _ (List.mem_singleton_self _)

/-! ### One context returns -/

/-- A context as it returns to a base: its rows at their granules, the leader's handles on every member, its bank bound again where bank 1
is free, an empty view. -/
def Ctx.placedAt (c : Ctx) (s : State) (base : Nat) (gs : List (List Nat)) : Ctx :=
  ((c.withGranules base gs).sameHandles.rebound s).dropView

theorem foldl_putRow (l : List Row) (c : Ctx) : ∃ rows, l.foldl Ctx.putRow c = { c with rows := rows } := by
  refine List.foldlRecOn (motive := fun d => ∃ rows, d = { c with rows := rows }) l Ctx.putRow ⟨c.rows, rfl⟩ ?_
  rintro _ ⟨rows, rfl⟩ r _
  exact ⟨_, rfl⟩

/-- It differs in rows and members alone. -/
theorem placedAt_eq (c : Ctx) (s : State) (base : Nat) (gs : List (List Nat)) :
    ∃ rows members, c.placedAt s base gs = { c with rows := rows, members := members } := by
  obtain ⟨rows, hrows⟩ := foldl_putRow (c.members.zipIdx.flatMap fun (_, m) =>
    ((c.memberRows m).zip (gs.getD m [])).map fun (r, g) => { r with granule := g }) c
  unfold Ctx.placedAt Ctx.withGranules Ctx.sameHandles
  simp only [hrows]
  split <;> exact ⟨_, _, rfl⟩

/-- Contexts changed where `p` holds are found under their numbers. -/
theorem find_mapIf_id {f : Ctx → Ctx} (hf : ∀ d, (f d).id = d.id) (p : Ctx → Bool) (l : List Ctx) (k : Nat) :
    (mapIf p f l).find? (fun x => x.id == k) = (l.find? fun x => x.id == k).map fun d => if p d then f d else d := by
  have hkey : (fun x : Ctx => x.id == k) ∘ (fun d => if p d then f d else d) = fun x => x.id == k := by
    funext d
    show (Ctx.id (if p d then f d else d) == k) = _
    split
    · rw [hf]
    · rfl
  rw [mapIf, List.find?_map, hkey]

/-- Behind a revocation every context stands under its number. -/
theorem evictAsh_ctxOf {s : State} {k : Nat} {c : Ctx} (h : s.ctxOf k = some c) (r : Request) (base gang : Nat) :
    ∃ d, (evictAsh s r base gang).ctxOf k = some d := by
  unfold evictAsh
  split
  · exact ⟨c, h⟩
  · exact ⟨_, (find_mapIf_id (f := fun d => { d with revoked := true }) (fun _ => rfl) _ s.ctxs k).trans (congrArg _ h)⟩

theorem movedBase_self {c : Ctx} {base : Nat} (h : base < 192) : movedBase c base c = base := by
  unfold movedBase Config.clusters
  omega

theorem rejectedSet_alone {c : Ctx} (s : State) (hswap : c.swap = none) (hbad : ∀ i, c.image = some i → imageOk i = false) :
    ((swapSet s c).find? fun d => !(d.image.any imageOk)) = some c := by
  rw [swapSet_alone s hswap, List.find?_cons]
  have : c.image.any imageOk = false := by simpa [Option.any_eq_false] using hbad
  simp [this]

/-- A context without companions is placed as `Ctx.placedAt` says. -/
theorem placeSet_alone {s : State} {c : Ctx} {base : Nat} {gs : List (List Nat)} (hswap : c.swap = none) (hbase : base < 192)
    (hplace : placeGang s c.request base c.localsOf = some gs) :
    let s1 := evictAsh s c.request base c.members.length
    placeSet (movedBase c base) [c] s =
      some (s1.putCtx { c.placedAt s1 base gs with switch := .restoring, image := none }) := by
  intro s1
  obtain ⟨rows, members, heq⟩ := placedAt_eq c s1 base gs
  have hnone : ({ c.placedAt s1 base gs with switch := .restoring, image := none, swap := none } : Ctx) =
      { c.placedAt s1 base gs with switch := .restoring, image := none } := by
    rw [heq, ← hswap]
  rw [← hnone]
  simp only [placeSet, movedBase_self hbase, hplace]
  rfl

/-- The trap of a context that the state holds otherwise is entered as if the state held it. -/
theorem enterTrap_ctxOf {s : State} {c d : Ctx} {t : Trap} {h : Handling} (hc : CanTrap c) (hs : s.ctxOf c.id = some d) :
    ∃ w, (enterTrap s c t h).ctxOf c.id = some { (c.record t) with
      priv := true, handler := true, pc := c.tvec, ir := none, gen := .running, halting := false, handling := some h, twait := w } := by
  refine ⟨(unsleep (reportFault s c t h) c).2.twait, ?_⟩
  unfold enterTrap takeTrap
  rw [if_neg (by simp [hc.1]), if_neg (by simpa using hc.2)]
  dsimp only
  rw [unsleep_ctx (reportFault s c t h) c]
  have hslot : (unsleep (reportFault s c t h) c).1.ctxOf c.id = some d := by
    rw [unsleep_state, reportFault_eq]
    exact hs
  exact ctxOf_putCtx_self hslot

theorem enterRestore_quiet {s : State} {k : Nat} {c : Ctx} (hctx : s.ctxOf k = some c) (h : c.tvec = 0 ∨ c.handler = true) :
    enterRestore s k = continueRestore s k := by
  unfold enterRestore
  simp only [hctx]
  refine if_neg ?_
  obtain h | h := h <;> simp [h]

/-- The RESTORE handler is entered with the address of the dump (R317). -/
theorem enterRestore_trap {s : State} {k : Nat} {c : Ctx} (hctx : s.ctxOf k = some c) (h : CanTrap c) :
    ∃ c', (enterRestore s k).ctxOf k = some c' ∧ c'.priv = true ∧ c'.handler = true ∧ c'.pc = c.tvec ∧ c'.switch = c.switch ∧
      c'.tpc = c.pc ∧ c'.taddr = Config.dumpAddress k c.base ∧ c'.members = c.members ∧
      c'.tcause = ({ cause := .restore, dom := .g, addr := Config.dumpAddress k c.base, pc := c.pc } : Trap).word := by
  obtain rfl : c.id = k := ctxOf_id hctx
  have henter : (c.tvec != 0 && !c.handler) = true := by rw [h.1, bne_iff_ne.2 h.2]; rfl
  unfold enterRestore
  simp only [hctx, henter, if_true]
  obtain ⟨w, hw⟩ := enterTrap_ctxOf (s := s) (c := { c with keyHold := some c.key })
    (t := { cause := .restore, dom := .g, addr := Config.dumpAddress c.id c.base, pc := c.pc })
    (h := { trap := { cause := .restore, dom := .g, addr := Config.dumpAddress c.id c.base, pc := c.pc }, row := none, eng := none,
            marker := false, afterExit := c.exited, resume := c.pc, skipLen := 0 }) h hctx
  refine ⟨_, hw, rfl, rfl, rfl, ?_⟩
  dsimp only [Ctx.record]
  exact ⟨rfl, rfl, rfl, rfl, rfl⟩

section Alone
variable {s : State} {k base : Nat} {c : Ctx} {gs : List (List Nat)} {i : Image} (hctx : s.ctxOf k = some c) (hout : c.switch = .out)
  (hcomp : c.completed = false) (hended : c.ended = none) (hswap : c.swap = none) (howes : s.owesSpill k = false)
include hctx hout hcomp hended hswap howes

/-- A bad image of a context without companions: IMGBAD, and the report. -/
theorem exec_restore_imgbad (hbad : ∀ i, c.image = some i → imageOk i = false) :
    exec (.restore k base) s = done (rejectImage s c) := by
  have howes' : ∀ d ∈ swapSet s c, s.owesSpill d.id = false := by
    rw [swapSet_alone s hswap]
    simpa [ctxOf_id hctx] using howes
  exact exec_restore_bad hctx hout hcomp hended (swapOpen_alone s hswap) howes' (rejectedSet_alone s hswap hbad) base

/-- A context without companions returns to a base at which it fits. -/
theorem exec_restore_alone (himage : c.image = some i) (hok : imageOk i = true) (hbase : base < 192)
    (hroom : orderRoom s (leavesAt base c.members.length) (c.cls == .crimson) = true) :
    let s0 := sendOrders s (leavesAt base c.members.length) (c.cls == .crimson) (.restore k)
    placeGang s0 c.request base c.localsOf = some gs →
    let s1 := evictAsh s0 c.request base c.members.length
    exec (.restore k base) s =
      done (enterRestore (s1.putCtx { c.placedAt s1 base gs with switch := .restoring, image := none }) k) := by
  intro s0 hplace s1
  have hset := swapSet_alone s hswap
  have howes' : ∀ d ∈ swapSet s c, s.owesSpill d.id = false := by
    rw [hset]
    simpa [ctxOf_id hctx] using howes
  have hgood : ∀ d ∈ swapSet s c, ∃ i, d.image = some i ∧ imageOk i = true := by
    rw [hset]
    simpa [himage] using hok
  have hexec := (exec_restore_good hctx hout hcomp hended (swapOpen_alone s hswap) howes' hgood base).1
  rw [hset] at hexec
  simp only [List.flatMap_cons, List.flatMap_nil, List.append_nil, movedBase_self hbase, List.foldl_cons, List.foldl_nil,
    ctxOf_id hctx] at hexec
  refine hexec _ hroom ?_
  rw [restoreSet_eq, if_pos (Or.inl (show [c].length ≤ 1 from Nat.le_refl 1))]
  exact placeSet_alone hswap hbase hplace

end Alone

/-- The context placed stands in the state, with what it keeps. -/
theorem placedAt_ctxOf {s s1 : State} {k : Nat} {c d : Ctx} (hctx : s.ctxOf k = some c) (hslot : s1.ctxOf k = some d) (base : Nat)
    (gs : List (List Nat)) :
    let c1 : Ctx := { c.placedAt s1 base gs with switch := .restoring, image := none }
    (s1.putCtx c1).ctxOf k = some c1 ∧ c1.tvec = c.tvec ∧ c1.handler = c.handler ∧ c1.pc = c.pc := by
  obtain ⟨rows, members, heq⟩ := placedAt_eq c s1 base gs
  obtain rfl : c.id = k := ctxOf_id hctx
  rw [heq]
  exact ⟨ctxOf_putCtx_self hslot, rfl, rfl, rfl⟩

/-- Settles O54: revocation, return, spill, pre-emption and restore, each by the rules above. -/
theorem switchesAndRevocation : Obligations.SwitchesAndRevocation := by
  unfold Obligations.SwitchesAndRevocation
  intro s k c hctx owes
  have howes : ∀ {h}, owes h ↔ s.owesSpill h = true := fun {h} => (owesSpill_iff s h).symm
  have hfree : ∀ {h}, ¬owes h → s.owesSpill h = false := fun {h} hn => Bool.eq_false_iff.2 (mt howes.2 hn)
  refine ⟨?revoke, fun w d => nextRevoked_spec, ?owes, ?resume, ?spill, ?switchOut, ?preempts, ?expiry, ?returned, ?imgbad, ?set,
    ?rehand, ?alone⟩
  case revoke => exact fun hash hblocks hended => exec_revocation hctx hash hblocks hended
  case owes =>
    intro ho
    exact ⟨fun _ => exec_ashResume_owes hctx (howes.1 ho), fun base hout => exec_restore_owes hctx hout (howes.1 ho) base⟩
  case resume =>
    intro gs ho hrev hres hended hplace
    exact exec_ashResume hctx (hfree ho) hrev hres hended hplace
  case spill =>
    intro m j mb l h hmb hl
    exact ⟨fun hst => exec_lentRangeSpill hctx hmb hl hst, fun hst hheld => exec_lentRangeSpill_wait hctx hmb hl hst hheld⟩
  case switchOut =>
    intro crimson
    exact ⟨fun hself hall hpre hroom hmoved => exec_switchOut hctx hself hall hpre hroom hmoved, exec_switchOut_wait hctx⟩
  case preempts =>
    intro crimson hpre
    obtain ⟨w, hw, hclass, hna, hbase, howner⟩ := preempts_spec hpre
    refine ⟨w, hw, hclass, hna, hbase, fun hash => ?_⟩
    obtain ⟨v, hv, hid, hrank⟩ := howner hash
    exact ⟨v, hv, hid, fun d hd => classRank_lt (hrank d hd)⟩
  case expiry => exact fun t hdef hhandler hsw hlate => exec_preemptDeferExpiry hctx hdef hhandler hsw hlate
  case returned => exact fun t hdef hhandler hsw => exec_preemptDeferExpiry_returned hctx hdef hhandler hsw
  case imgbad =>
    intro base hout hcomp hended hopen hswap ho hbad
    obtain ⟨⟨c', hc', hend, hnone⟩, hreport⟩ := rejectImage_ended hctx
    exact ⟨_, c', exec_restore_imgbad hctx hout hcomp hended hswap (hfree ho) hbad, hc', hend, hnone, hreport⟩
  case set =>
    intro base hout hcomp hended hopen
    rw [← swapSet_eq]
    intro l leaves crimson placed aligned ho hgood
    obtain ⟨hgo, hwait⟩ := exec_restore_good hctx hout hcomp hended hopen (fun d hd => hfree (ho d hd)) hgood base
    rw [restoreSet_eq] at hgo hwait
    refine ⟨fun s1 hroom haligned hplaced => hgo s1 hroom ((if_pos haligned).trans hplaced), fun h => hwait ?_⟩
    refine h.imp_right fun h => ?_
    obtain hnot | hplaced := h
    · exact if_neg hnot
    · exact (ite_eq_right_iff.2 fun _ => hplaced)
  case rehand =>
    intro hsw hended
    rw [exec_restore_rehanding hctx hsw hended, apply_ite Host.Outcome.next]
    rfl
  case alone =>
    intro base gs i hout hcomp hended hswap ho himage hok hbase hroom s0 hplace s1 c1
    have hexec := exec_restore_alone hctx hout hcomp hended hswap (hfree ho) himage hok hbase hroom hplace
    obtain ⟨d, hslot⟩ := evictAsh_ctxOf (s := s0) hctx c.request base c.members.length
    obtain ⟨hself, htvec, hhandler, hpc⟩ := placedAt_ctxOf hctx hslot base gs
    refine ⟨fun hquiet => ?_, fun hcan => ?_⟩
    · rw [hexec, enterRestore_quiet hself (by rw [htvec, hhandler]; exact hquiet)]
      rfl
    · obtain ⟨c', hc', hpriv, hhand, hpc', hswitch, htpc, htaddr, hmembers, htcause⟩ :=
        enterRestore_trap hself (by rw [CanTrap, htvec, hhandler]; exact hcan)
      rw [hpc] at htpc htcause
      exact ⟨_, hexec, rfl, c', hc', hpriv, hhand, hpc'.trans htvec, hswitch, htpc, htaddr, hmembers, htcause⟩

end Sys2Proof.Machine

/-! ## What a register writer and a setter leave (R86, R109, R253, R309, R364, R373, R384) -/

namespace Sys2Proof.Machine
open Sys2Proof.Safety

/-! ### The context and the state behind an instruction that goes on -/

/-- The context as its own effect left it, the instruction counted, before its sequencing. -/
def Ctx.counted (c : Ctx) : Ctx := { c with ir := none, gen := .running, genCount := c.genCount + 1, twait := none }

@[simp] theorem counted_id (c : Ctx) : c.counted.id = c.id := rfl
@[simp] theorem counted_g (c : Ctx) : c.counted.g = c.g := rfl
@[simp] theorem counted_f (c : Ctx) : c.counted.f = c.f := rfl

/-- But for EXIT, an instruction's end puts its context back behind NextPC. -/
theorem genNext_of_ne_exit (s : State) (c : Ctx) {q : Seq} (hq : q ≠ .exit) :
    genNext s c q = { s.putCtx (c.counted.nextPc q) with waited := false } := by
  cases q with
  | exit => exact absurd rfl hq
  | _ => rfl

theorem genNext_ctxOf_self {s : State} {c c0 : Ctx} {q : Seq} (hq : q ≠ .exit) (hctx : s.ctxOf c.id = some c0) :
    (genNext s c q).ctxOf c.id = some (c.counted.nextPc q) := by
  rw [genNext_of_ne_exit s c hq]
  have hid : (c.counted.nextPc q).id = c.id := (nextPc_id _ q).trans (counted_id c)
  rw [← hid] at hctx ⊢
  exact ctxOf_putCtx_self hctx

/-- Of the device only the poison may differ, and only by what the instruction's own effect did to it. -/
theorem genNext_onlyCtx {s s1 : State} {c : Ctx} {q : Seq} (hq : q ≠ .exit) (hs : s1 = { s with poison := s1.poison }) :
    OnlyCtx c.id s (genNext s1 c q) := by
  have hid : (c.counted.nextPc q).id = c.id := (nextPc_id _ q).trans (counted_id c)
  rw [genNext_of_ne_exit s1 c hq]
  refine ⟨?_, fun j hj => ?_⟩
  · rw [hs]
    rfl
  · refine (ctxOf_putCtx_other s1 _ (hid ▸ hj)).trans ?_
    rw [hs]
    rfl

theorem genNext_poison (s : State) (c : Ctx) {q : Seq} (hq : q ≠ .exit) : (genNext s c q).poison = s.poison := by
  rw [genNext_of_ne_exit s c hq]
  rfl

theorem genNext_sameMemory {s s1 : State} (c : Ctx) (q : Seq) (hmem : s1.mem = s.mem) : SameMemory s (genNext s1 c q) := fun a =>
  congrArg (Memory.read · a) ((retireGen_mem s1 c q).trans hmem)

/-! ### Register writers -/

theorem mem_cure {s : State} {f : PoisonLoc → Bool} {p : PoisonLoc} : p ∈ (s.cure f).poison ↔ p ∈ s.poison ∧ f p = false := by
  simp [State.cure]

/-- A write to g`d` changes nothing but the general registers. -/
theorem setG_frame (c : Ctx) (d : GReg) (v : DWord) : c.setG d v = { c with g := (c.setG d v).g } := by
  unfold Ctx.setG
  split <;> rfl

/-- Every register writer is a computation on its sources. -/
theorem exec_genWriter {i : Instr} {q : Seq} {d : GReg} {srcs : List GReg} (h : genWriter i = some (q, d, srcs)) :
    ∃ f, ∀ s, exec i s = genCompute s q d srcs f := by
  unfold genWriter at h
  split at h
  all_goals cases h
  all_goals exact ⟨_, fun _ => rfl⟩

/-- Settles O10: the written context by `greg_setG`, its end and the rest of the device by the rules of `genNext`. -/
theorem registerWriterFrame : Obligations.RegisterWriterFrame := by
  unfold Obligations.RegisterWriterFrame
  intro i q d srcs s c hi hready hseq hq
  obtain ⟨f, hf⟩ := exec_genWriter hi
  have hid : (c.setG d (f c)).id = c.id := setG_id c d (f c)
  have hself : s.ctxOf (c.setG d (f c)).id = some c := by
    rw [hid, ctxOf_id hready.1]
    exact hready.1
  have hpoison := genNext_poison (s.cure fun p => p == .greg c.id d.toNat) (c.setG d (f c)) hq
  refine ⟨genDone s c q d (f c), ((c.setG d (f c)).counted).nextPc q, (hf s).trans (genCompute_ok hready hseq), ?only,
    genNext_sameMemory _ q (cure_mem s _), ?ctx, ?other, rfl, ?fresh, ?kept, ?frame⟩
  case only => exact hid ▸ genNext_onlyCtx hq rfl
  case ctx => exact hid ▸ genNext_ctxOf_self (s := s.cure _) hq hself
  case other =>
    intro r hr
    have hg : ((c.setG d (f c)).counted.nextPc q).greg r = (c.setG d (f c)).greg r := by
      unfold Ctx.greg
      rw [nextPc_g, counted_g]
    rw [hg, greg_setG, if_neg fun h => hr h.1]
  case fresh =>
    intro p hp
    exact (mem_cure.1 (hpoison ▸ hp)).1
  case kept =>
    intro p hp hne
    exact hpoison.symm ▸ mem_cure.2 ⟨hp, beq_eq_false_iff_ne.2 hne⟩
  case frame =>
    rw [nextPc_frame, setG_frame]
    rfl

/-! ### Setters -/

/-- The flag f7 reads true. -/
@[simp] theorem flag_seven (c : Ctx) : c.flag 7 = true := rfl

/-- A write to a flag leaves the others. -/
theorem flag_setFlag_other (c : Ctx) {f k : BitVec 3} (v : Bool) (h : k ≠ f) : (c.setFlag f v).flag k = c.flag k := by
  unfold Ctx.setFlag
  by_cases hf : f = 7
  · rw [if_pos (beq_iff_eq.2 hf)]
  · have hk : k.toNat < 8 := k.isLt
    have hkf : k.toNat ≠ f.toNat := fun e => h (BitVec.eq_of_toNat_eq e)
    have hbit : (1#8 <<< f.toNat).getLsbD k.toNat = false := by
      rw [BitVec.getLsbD_shiftLeft, BitVec.getLsbD_one]
      simp only [Bool.and_eq_false_iff, decide_eq_false_iff_not, Bool.not_eq_false', decide_eq_true_eq]
      omega
    have hnew : (if v then 1#8 <<< f.toNat else 0).getLsbD k.toNat = false := by
      cases v
      · exact BitVec.getLsbD_zero
      · exact hbit
    rw [if_neg (beq_eq_false_iff_ne.2 hf ▸ Bool.false_ne_true)]
    simp only [Ctx.flag, BitVec.getLsbD_or, BitVec.getLsbD_and, BitVec.getLsbD_not, hbit, hnew, hk, decide_true, Bool.not_false,
      Bool.and_true, Bool.or_false]

/-- What the own effect of a setter leaves of its context `c`: flags, loop counters, holes and streams apart everything, and of those
the flags that it does not name, the holes but for HSET, the streams but for SCLS. -/
structure SetBy (i : Instr) (c c1 : Ctx) : Prop where
  frame : c1 = { c with f := c1.f, lc := c1.lc, h := c1.h, streams := c1.streams }
  flag : ∀ f, (∀ q cc a b, i ≠ .gcmp q cc f a b) → (∀ q n, i ≠ .seof q f n) → c1.flag f = c.flag f
  hole : (∀ q h b, i ≠ .hset q h b) → c1.h = c.h
  stream : (∀ q n, i ≠ .scls q n) → c1.streams = c.streams

theorem setFlag_frame (c : Ctx) (f : BitVec 3) (v : Bool) : c.setFlag f v = { c with f := (c.setFlag f v).f } := by
  unfold Ctx.setFlag
  split <;> rfl

/-- An instruction that writes flag `f` alone. -/
theorem setBy_setFlag {i : Instr} {f : BitVec 3} (c : Ctx) (v : Bool)
    (hi : ∀ k, (∀ q cc a b, i ≠ .gcmp q cc k a b) → (∀ q n, i ≠ .seof q k n) → k ≠ f) : SetBy i c (c.setFlag f v) where
  frame := by rw [setFlag_frame]
  flag k hg hs := flag_setFlag_other c v (hi k hg hs)
  hole _ := by rw [setFlag_frame]
  stream _ := by rw [setFlag_frame]

/-- Every setter does its own effect on its context, then its sequencing. -/
theorem exec_genSetter {i : Instr} {q : Seq} {srcs : List GReg} (h : genSetter i = some (q, srcs)) :
    ∃ f : Ctx → Ctx, (∀ s, exec i s = genStep s q srcs fun c => .ok s (f c)) ∧ ∀ c, SetBy i c (f c) := by
  unfold genSetter at h
  split at h
  case h_1 q cc k a b =>
    cases h
    exact ⟨_, fun _ => rfl, fun c => setBy_setFlag c _ fun j hg _ hj => hg q cc a b (hj ▸ rfl)⟩
  case h_2 q n b =>
    cases h
    exact ⟨_, fun _ => rfl, fun c => ⟨rfl, fun _ _ _ => rfl, fun _ => rfl, fun _ => rfl⟩⟩
  case h_3 q k b =>
    cases h
    exact ⟨_, fun _ => rfl, fun c => ⟨rfl, fun _ _ _ => rfl, fun hn => absurd rfl (hn _ _ _), fun _ => rfl⟩⟩
  case h_4 q k n =>
    cases h
    exact ⟨_, fun _ => rfl, fun c => setBy_setFlag c _ fun j _ hs hj => hs q n (hj ▸ rfl)⟩
  case h_5 q n =>
    cases h
    exact ⟨_, fun _ => rfl, fun c => ⟨rfl, fun _ _ _ => rfl, fun _ => rfl, fun hn => absurd rfl (hn _ _)⟩⟩
  case h_6 => cases h

/-- Settles O11: the own effect of each setter by `exec_genSetter`, its end by `genNext`'s rules. -/
theorem setterFrame : Obligations.SetterFrame := by
  unfold Obligations.SetterFrame
  intro i q srcs s c hi hready hseq hq
  obtain ⟨f, hf, hsets⟩ := exec_genSetter hi
  have hexec : exec i s = .next (genNext s (f c) q) := (hf s).trans (genStep_ok hready rfl hseq)
  have hset : SetBy i c (f c) := hsets c
  generalize f c = c1 at hexec hset
  have hid : c1.id = c.id := by rw [hset.frame]
  have hself : s.ctxOf c1.id = some c := by
    rw [hid, ctxOf_id hready.1]
    exact hready.1
  have hflag : ∀ k, (c1.counted.nextPc q).flag k = c1.flag k := fun k => by
    unfold Ctx.flag
    rw [nextPc_f, counted_f]
  have hend : c1.counted.nextPc q =
      { c1.counted with pc := (c1.counted.nextPc q).pc, rstack := (c1.counted.nextPc q).rstack, lc := (c1.counted.nextPc q).lc } :=
    nextPc_frame _ q
  refine ⟨genNext s c1 q, c1.counted.nextPc q, hexec, hid ▸ genNext_onlyCtx hq rfl, genNext_poison s c1 hq,
    genNext_sameMemory c1 q rfl, hid ▸ genNext_ctxOf_self hq hself, flag_seven _,
    fun f hg hs => (hflag f).trans (hset.flag f hg hs), fun hn => ?hole, fun hn => ?stream, ?frame⟩
  case hole =>
    rw [hend]
    exact hset.hole hn
  case stream =>
    rw [hend]
    exact hset.stream hn
  case frame =>
    rw [hend, hset.frame]
    rfl

end Sys2Proof.Machine

/-! ## System registers (R92, R93, R351, R352) -/

namespace Sys2Proof.Machine
open Sys2Proof.Safety

/-! ### What a read returns -/

/-- Each flag stands at its own place in STATUS (R95). -/
theorem getLsbD_statusWord (s : State) (c : Ctx) (k : Nat) : (statusWord s c).getLsbD k =
    ((k == 0 && c.dense) || (k == 8 && s.fenced.any) || (k == 9 && c.mm1) || (k == 10 && c.ash) || (k == 11 && c.handler)) := by
  have hplaces : statusWord s c = (BitVec.ofBool c.dense).setWidth 64 ||| (BitVec.ofBool s.fenced.any).setWidth 64 <<< 8 |||
      (BitVec.ofBool c.mm1).setWidth 64 <<< 9 ||| (BitVec.ofBool c.ash).setWidth 64 <<< 10 |||
      (BitVec.ofBool c.handler).setWidth 64 <<< 11 := by
    unfold statusWord
    cases c.dense <;> cases s.fenced.any <;> cases c.mm1 <;> cases c.ash <;> cases c.handler <;> rfl
  have hbit : ∀ (b : Bool) (p : Nat), p < 64 → ((BitVec.ofBool b).setWidth 64 <<< p).getLsbD k = (k == p && b) := by
    intro b p hp
    rw [BitVec.getLsbD_shiftLeft, BitVec.getLsbD_setWidth, BitVec.getLsbD_ofBool]
    by_cases hk : k = p
    · subst hk
      simp [hp]
    · have : (k == p) = false := beq_eq_false_iff_ne.2 hk
      simp [this]
      omega
  have h0 := hbit c.dense 0 (by decide)
  rw [BitVec.shiftLeft_zero] at h0
  simp only [hplaces, BitVec.getLsbD_or, h0, hbit _ 8 (by decide), hbit _ 9 (by decide), hbit _ 10 (by decide), hbit _ 11 (by decide)]

/-- Behind the registers that have a number each stand the QSLOT registers. -/
theorem csrValue_of_le (s : State) (c : Ctx) {m : Nat} (h : 0x100 ≤ m) : csrValue s c m = qslot s c (m - 0x100) := by
  unfold csrValue
  dsimp only
  split
  case h_24 => rfl
  all_goals exact absurd h (by decide)

/-- QSLOT`n` is HEAD of the queue that is bound to it (R352). -/
theorem csrValue_qslot (s : State) (c : Ctx) (n : Fin 16) : csrValue s c (0x100 + n) = match (c.queues[n]).bind s.queueOf with
    | some q => BitVec.ofNat 64 q.head
    | none => 0 := by
  have hslot : csrValue s c (0x100 + n) = qslot s c n := by
    rw [csrValue_of_le s c (Nat.le_add_right _ _), Nat.add_sub_cancel_left]
  have hget : c.queues.toList.getD n none = c.queues[n] := by
    simp [List.getD]
  rw [hslot, qslot, hget]
  cases c.queues[n] with
  | none => rfl
  | some k =>
    show ((s.queueOf k).map fun q => BitVec.ofNat 64 q.head).getD 0 = _
    rw [Option.bind_some]
    cases s.queueOf k <;> rfl

/-! ### CSRR and CSRW -/

section Access
variable {s : State} {c : Ctx} {q : Seq} {n : BitVec 12}

/-- The guard at which a SUPER register raises PRIVF (R92) lets SUPER mode pass. -/
theorem csrSuper_and_not_priv (h : csrSuper n.toNat = true → c.priv = true) : (csrSuper n.toNat && !c.priv) = false := by
  cases hs : csrSuper n.toNat with
  | false => rfl
  | true => rw [h hs]; rfl

theorem exec_csrr {d : GReg} (hready : GenReady s c []) (hseq : SeqOk c q) (hn : csrAssigned n.toNat = true)
    (hpriv : csrSuper n.toNat = true → c.priv = true)
    (hdrained : c.mono = true → 0x10 ≤ n.toNat → n.toNat ≤ 0x12 → c.drained = true) :
    exec (.csrr q d n) s = .next (genDone s c q d (csrValue s c n.toNat)) := by
  have hwait : ¬(c.mono && decide (0x10 ≤ n.toNat ∧ n.toNat ≤ 0x12) && !c.drained) = true := by
    simp only [Bool.and_eq_true, decide_eq_true_eq, Bool.not_eq_true']
    rintro ⟨⟨hm, hlo, hhi⟩, hd⟩
    exact Bool.false_ne_true (hd.symm.trans (hdrained hm hlo hhi))
  refine genStep_ok (s1 := s.cure fun p => p == .greg c.id d.toNat) (c1 := c.setG d (csrValue s c n.toNat)) hready ?_ hseq
  simp only [hn, csrSuper_and_not_priv hpriv, if_neg hwait, Bool.not_true, Bool.false_eq_true, if_false]
  rfl

theorem exec_csrw {a : GReg} (hready : GenReady s c [a]) (hseq : SeqOk c q) (hn : csrAssigned n.toNat = true)
    (hpriv : csrSuper n.toNat = true → c.priv = true) :
    exec (.csrw q a n) s = .next (genNext s (csrWrite c n.toNat (c.greg a)) q) := by
  refine genStep_ok (s1 := s) hready ?_ hseq
  simp only [hn, csrSuper_and_not_priv hpriv, Bool.not_true, Bool.false_eq_true, if_false]

/-- A number that is not assigned raises CSRBAD, read or written. -/
theorem exec_csr_unassigned {a : GReg} (hready : GenReady s c [a]) (hn : csrAssigned n.toNat = false) :
    exec (.csrr q a n) s = genFault s c .csrbad (n.zeroExtend 64) ∧ exec (.csrw q a n) s = genFault s c .csrbad (n.zeroExtend 64) := by
  have hread : GenReady s c [] := ⟨hready.1, nofun⟩
  exact ⟨genStep_trap hread (if_pos (by rw [hn]; rfl)), genStep_trap hready (if_pos (by rw [hn]; rfl))⟩

/-- A SUPER register that USER mode names raises PRIVF. -/
theorem exec_csr_super {a : GReg} (hready : GenReady s c [a]) (hlo : 0x040 ≤ n.toNat) (hhi : n.toNat ≤ 0x045)
    (hpriv : c.priv = false) :
    exec (.csrr q a n) s = genFault s c .privf 0 ∧ exec (.csrw q a n) s = genFault s c .privf 0 := by
  have hread : GenReady s c [] := ⟨hready.1, nofun⟩
  have hn : ¬(!csrAssigned n.toNat) = true := by simp [csrAssigned, hlo, hhi]
  have hsuper : (csrSuper n.toNat && !c.priv) = true := by simp [csrSuper, hlo, hhi, hpriv]
  exact ⟨genStep_trap hread ((if_neg hn).trans (if_pos hsuper)), genStep_trap hready ((if_neg hn).trans (if_pos hsuper))⟩

end Access

/-! ### What a write changes -/

/-- CSRW writes the register that it names, field by field, and no other (R351). -/
theorem csrWrite_eq (c : Ctx) (n : BitVec 12) (v : DWord) : csrWrite c n.toNat v =
    { c with rmax := if n = 0x030 then v.extractLsb' 0 16 else c.rmax,
             beta := if n = 0x031 then v.extractLsb' 0 16 else c.beta,
             tvec := if n = 0x040 then v else c.tvec,
             dense := if n = 0x020 ∧ v.getLsbD 0 = true then false else c.dense,
             ck1 := if n = 0x005 ∧ v.extractLsb' 0 16 ≠ 0 then v.extractLsb' 0 16 else c.ck1,
             ck2 := if n = 0x006 ∧ v.extractLsb' 0 16 ≠ 0 then v.extractLsb' 0 16 else c.ck2 } := by
  have hlow : v.truncate 16 = v.extractLsb' 0 16 := BitVec.setWidth_eq_extractLsb' (by decide)
  have hnum : ∀ k : BitVec 12, n.toNat = k.toNat → n = k := fun _ => BitVec.eq_of_toNat_eq
  have hother : ∀ k : BitVec 12, (n.toNat = k.toNat → False) → n ≠ k := fun k hk e => hk (congrArg BitVec.toNat e)
  unfold csrWrite
  rw [hlow]
  split
  case h_1 h =>
    obtain rfl := hnum 0x005 h
    by_cases hz : v.extractLsb' 0 16 = 0#16 <;> simp [hz]
  case h_2 h =>
    obtain rfl := hnum 0x006 h
    by_cases hz : v.extractLsb' 0 16 = 0#16 <;> simp [hz]
  case h_3 h =>
    obtain rfl := hnum 0x020 h
    cases v.getLsbD 0 <;> simp
  case h_4 h =>
    obtain rfl := hnum 0x030 h
    simp
  case h_5 h =>
    obtain rfl := hnum 0x031 h
    simp
  case h_6 h =>
    obtain rfl := hnum 0x040 h
    simp
  case h_7 h1 h2 h3 h4 h5 h6 =>
    simp [hother 0x005#12 h1, hother 0x006#12 h2, hother 0x020#12 h3, hother 0x030#12 h4, hother 0x031#12 h5, hother 0x040#12 h6]

/-- Settles O16: the values by `csrValue`'s lemmas, the accesses by `exec_csrr`, `exec_csrw` and their faults, the writes by
`csrWrite_eq`. -/
theorem systemRegisters : Obligations.SystemRegisters := by
  unfold Obligations.SystemRegisters
  refine ⟨fun s c q d n => exec_csrr, fun s c => ?values, ?write, ?faults⟩
  case values =>
    exact ⟨rfl, rfl, rfl, rfl, rfl, rfl, rfl, rfl, rfl, rfl, rfl, rfl, getLsbD_statusWord s c, rfl, rfl, rfl, rfl, rfl, rfl, rfl, rfl,
      rfl, rfl, csrValue_qslot s c⟩
  case write =>
    intro s c q a n hready hseq hn hpriv
    exact ⟨_, exec_csrw hready hseq hn hpriv, csrWrite_eq c n _⟩
  case faults =>
    intro s c q a n hready htrap
    have hself : s.ctxOf c.id = some c := (ctxOf_id hready.1).symm ▸ hready.1
    refine ⟨fun hn => ?_, fun hlo hhi hpriv => ?_⟩
    · obtain ⟨hr, hw⟩ := exec_csr_unassigned (q := q) hready hn
      exact ⟨hr ▸ genFault_taken htrap hself, hw ▸ genFault_taken htrap hself⟩
    · obtain ⟨hr, hw⟩ := exec_csr_super (q := q) hready hlo hhi hpriv
      exact ⟨hr ▸ genFault_taken htrap hself, hw ▸ genFault_taken htrap hself⟩

end Sys2Proof.Machine

/-! ## Reset, bring-up, reports, fencing, errors (R95, R309, R323, R325-R329) -/

namespace Sys2Proof.Machine
open Sys2Proof.Safety

/-! ### Reset and bring-up -/

/-- The first turn after reset is the reset. -/
theorem step_reset : step State.reset = exec .reset State.reset := rfl

theorem exec_reset_atReset {s : State} (h : s.phase = .atReset) :
    exec .reset s = .next { State.reset with
      phase := if (bringUp s.boot).2.1 = 0 then .running else .amber (bringUp s.boot).1 (bringUp s.boot).2.1,
      fenced := (bringUp s.boot).2.2, boot := s.boot, agenda := s.agenda, free := s.free, deviceNumber := s.deviceNumber } := by
  show execReset s = _
  unfold execReset
  rw [h]
  dsimp only
  rw [if_neg (by decide)]
  simp only [beq_iff_eq]
  rfl

theorem exec_reset_running {s : State} (h : s.phase ≠ .atReset) :
    exec .reset s = .next { State.reset with boot := s.boot, agenda := s.agenda, free := s.free } :=
  if_pos (bne_iff_ne.2 h)

section BringUp
variable {b : BootInputs}

theorem bringUp_insecure (h : b.securityOk = false) : bringUp b = (1, 0x01, Fenced.clear) :=
  if_pos (by rw [h]; rfl)

theorem bringUp_badFuses (h : b.securityOk = true) (hf : b.fusesOk = false) : bringUp b = (1, 0x02, Fenced.clear) := by
  simp [bringUp, h, hf]

theorem bringUp_unsigned (h : b.securityOk = true) (hf : b.fusesOk = true) (hv : b.verified = false) :
    bringUp b = (2, 0x03, Fenced.clear) := by
  simp [bringUp, h, hf, hv]

theorem bringUp_rolledBack (h : b.securityOk = true) (hf : b.fusesOk = true) (hv : b.verified = true)
    (hver : b.version < b.rollback) : bringUp b = (2, 0x04, Fenced.clear) := by
  simp [bringUp, h, hf, hv, hver]

/-- The units that the self-test of step 3 has reached. -/
def BootInputs.tested (b : BootInputs) : Fenced := { b.failing with ucie := 0, storage := 0, ranoc := 0 }

/-- No cluster or no stack is left (R325). -/
def BootInputs.NothingLeft (b : BootInputs) : Prop :=
  (∀ n, n < 192 → b.failing.clusters.getLsbD n = true) ∨ ∀ n, n < 8 → b.failing.hbm.getLsbD n = true

theorem eq_allOnes_iff {w : Nat} (v : BitVec w) : v = BitVec.allOnes w ↔ ∀ n, n < w → v.getLsbD n = true := by
  constructor
  · rintro rfl n hn
    rw [BitVec.getLsbD_allOnes, decide_eq_true hn]
  · intro h
    refine BitVec.eq_of_getLsbD_eq fun n hn => ?_
    rw [h n hn, BitVec.getLsbD_allOnes, decide_eq_true hn]

theorem bringUp_authentic (h : b.securityOk = true) (hf : b.fusesOk = true) (hv : b.verified = true)
    (hver : b.rollback ≤ b.version) :
    (b.skoconOk = false → bringUp b = (3, 0x05, b.tested)) ∧
      (b.skoconOk = true → b.NothingLeft → bringUp b = (3, 0x06, b.tested)) ∧
      (b.skoconOk = true → ¬b.NothingLeft → bringUp b = (5, 0x00, b.failing)) := by
  have hnothing : (b.failing.clusters == BitVec.allOnes 192 || b.failing.hbm == BitVec.allOnes 8) = true ↔ b.NothingLeft := by
    rw [Bool.or_eq_true, beq_iff_eq, beq_iff_eq, eq_allOnes_iff, eq_allOnes_iff]
    rfl
  have hlast : bringUp b = if !b.skoconOk then (3, 0x05, b.tested)
      else if b.failing.clusters == BitVec.allOnes 192 || b.failing.hbm == BitVec.allOnes 8 then (3, 0x06, b.tested)
      else (5, 0x00, b.failing) := by
    simp only [bringUp, h, hf, hv, Nat.not_lt.2 hver, Bool.not_true, Bool.false_eq_true, if_false]
    rfl
  rw [hlast]
  refine ⟨fun hs => if_pos (by rw [hs]; rfl), fun hs hn => ?_, fun hs hn => ?_⟩
  · rw [if_neg (by rw [hs]; decide), if_pos (hnothing.2 hn)]
  · rw [if_neg (by rw [hs]; decide), if_neg (mt hnothing.1 hn)]

end BringUp

/-! ### The self-test report (R326) -/

theorem leBytes_getElem? (n v k : Nat) (h : k < n) : (leBytes n v)[k]? = some (BitVec.ofNat 8 (v / 256 ^ k)) := by
  induction n generalizing v k with
  | zero => exact absurd h (Nat.not_lt_zero k)
  | succ n ih =>
    cases k with
    | zero => simp [leBytes]
    | succ k =>
      rw [leBytes, List.getElem?_cons_succ, ih _ _ (Nat.lt_of_succ_lt_succ h), Nat.div_div_eq_div_mul, Nat.pow_succ']

@[simp] theorem leBytes_length (n v : Nat) : (leBytes n v).length = n := by
  induction n generalizing v with
  | zero => rfl
  | succ n ih => rw [leBytes, List.length_cons, ih]

/-- Bit `n` of a word stands in bit `n % 8` of its byte `n / 8`. -/
theorem getLsbD_leBytes {w : Nat} (x : BitVec w) {k n : Nat} (hn : n < 8 * k) :
    ((leBytes k x.toNat).getD (n / 8) 0).getLsbD (n % 8) = x.getLsbD n := by
  have hk : n / 8 < k := by omega
  have hpow : 256 ^ (n / 8) = 2 ^ (8 * (n / 8)) := by rw [Nat.pow_mul]
  rw [List.getD_eq_getElem?_getD, leBytes_getElem? k x.toNat _ hk, Option.getD_some, BitVec.getLsbD_ofNat, hpow,
    Nat.testBit_div_two_pow, decide_eq_true (Nat.mod_lt n (by decide)), Bool.true_and, Nat.mod_add_div]
  rfl

/-- An item of one of several lists that stand one behind the other. -/
theorem getElem?_flatten_field {α : Type} {l : List (List α)} {i : Nat} {f : List α} (hf : l[i]? = some f) {k : Nat}
    (hk : k < f.length) : l.flatten[(l.take i).flatten.length + k]? = f[k]? := by
  obtain ⟨hi, hget⟩ := List.getElem?_eq_some_iff.1 hf
  have hsplit : l.flatten = (l.take i).flatten ++ (f ++ (l.drop (i + 1)).flatten) := by
    have hl : l = l.take i ++ f :: l.drop (i + 1) := by
      rw [← hget, ← List.drop_eq_getElem_cons hi, List.take_append_drop]
    calc l.flatten = (l.take i ++ f :: l.drop (i + 1)).flatten := congrArg List.flatten hl
      _ = _ := by rw [List.flatten_append, List.flatten_cons]
  rw [hsplit, List.getElem?_append_right (Nat.le_add_right _ _), Nat.add_sub_cancel_left, List.getElem?_append_left hk]

section Report
variable (s : State) (reached code : BitVec 8)

/-- The fields of the report in the order in which they stand in it. -/
def selfTestFields : List (List Byte) :=
  [leBytes 4 0x58564152, leBytes 2 1, [reached], [code], leBytes 8 0, leBytes 24 s.fenced.clusters.toNat,
    leBytes 32 s.fenced.slices.toNat, leBytes 1 s.fenced.hbm.toNat, leBytes 1 s.fenced.ucie.toNat, leBytes 1 s.fenced.storage.toNat,
    [0], leBytes 2 s.fenced.ranoc.toNat, leBytes 2 0]

/-- How many bytes each field has (R326). -/
def selfTestWidths : List Nat := [4, 2, 1, 1, 8, 24, 32, 1, 1, 1, 1, 2, 2]

theorem selfTestFields_widths : (selfTestFields s reached code).map List.length = selfTestWidths := by
  simp [selfTestFields, selfTestWidths]

theorem selfTestBytes_eq_flatten : selfTestBytes s reached code = (selfTestFields s reached code).flatten := by
  simp [selfTestBytes, selfTestFields]

variable {s reached code}

/-- Byte `k` of field `i`, which begins at byte `place`. -/
theorem selfTestBytes_getElem? {i place k : Nat} {f : List Byte} (hf : (selfTestFields s reached code)[i]? = some f)
    (hplace : (selfTestWidths.take i).sum = place) (hk : k < f.length) :
    (selfTestBytes s reached code)[place + k]? = f[k]? := by
  rw [selfTestBytes_eq_flatten, ← hplace, ← selfTestFields_widths s reached code, ← List.map_take, ← List.length_flatten,
    getElem?_flatten_field hf hk]

/-- Bit `n` of a map of `k` bytes. -/
theorem selfTestBytes_bit {i place k n w : Nat} {x : BitVec w} (hf : (selfTestFields s reached code)[i]? = some (leBytes k x.toNat))
    (hplace : (selfTestWidths.take i).sum = place) (hn : n < 8 * k) :
    ((selfTestBytes s reached code).getD (place + n / 8) 0).getLsbD (n % 8) = x.getLsbD n := by
  have hk : n / 8 < (leBytes k x.toNat).length := by
    rw [leBytes_length]
    omega
  rw [← getLsbD_leBytes x hn, List.getD_eq_getElem?_getD, List.getD_eq_getElem?_getD, selfTestBytes_getElem? hf hplace hk]

theorem selfTestBytes_head : leNat ((selfTestBytes s reached code).take 4) = 0x58564152 ∧
    leNat (((selfTestBytes s reached code).drop 4).take 2) = 1 ∧ (selfTestBytes s reached code)[6]? = some reached ∧
    (selfTestBytes s reached code)[7]? = some code := by
  have hsplit : selfTestBytes s reached code =
      leBytes 4 0x58564152 ++ (leBytes 2 1 ++ ((selfTestFields s reached code).drop 2).flatten) := by
    rw [selfTestBytes_eq_flatten]
    rfl
  refine ⟨?_, ?_, ?_, ?_⟩
  · rw [hsplit, List.take_left' (leBytes_length 4 _)]
    rfl
  · rw [hsplit, List.drop_left' (leBytes_length 4 _), List.take_left' (leBytes_length 2 _)]
    rfl
  · exact selfTestBytes_getElem? (i := 2) (place := 6) (k := 0) rfl rfl Nat.one_pos
  · exact selfTestBytes_getElem? (i := 3) (place := 7) (k := 0) rfl rfl Nat.one_pos

/-- The reserved bytes are zero. -/
theorem selfTestBytes_reserved {n : Nat} (hn : (8 ≤ n ∧ n < 16) ∨ n = 75 ∨ n = 78 ∨ n = 79) :
    (selfTestBytes s reached code)[n]? = some 0 := by
  obtain ⟨hlo, hhi⟩ | rfl | rfl | rfl := hn
  · have := selfTestBytes_getElem? (s := s) (reached := reached) (code := code) (i := 4) (place := 8) (k := n - 8) rfl rfl (by simp; omega)
    rw [Nat.add_sub_cancel' hlo] at this
    have hzero : ∀ v : Nat, some (BitVec.ofNat 8 (0 / v)) = some 0#8 := fun v => by rw [Nat.zero_div]
    exact this.trans ((leBytes_getElem? 8 0 _ (by omega)).trans (hzero _))
  · exact selfTestBytes_getElem? (i := 10) (place := 75) (k := 0) rfl rfl (by decide)
  · exact selfTestBytes_getElem? (i := 12) (place := 78) (k := 0) rfl rfl (by decide)
  · exact selfTestBytes_getElem? (i := 12) (place := 78) (k := 1) rfl rfl (by decide)

theorem selfTestBytes_length : (selfTestBytes s reached code).length = 80 := by
  simp [selfTestBytes]

end Report

/-! ### Fencing (R328, R329) -/

theorem add_cluster_getLsbD (f : Fenced) (k n : Nat) (hn : n < 192) :
    (f.add (.cluster k)).clusters.getLsbD n = true ↔ f.clusters.getLsbD n = true ∨ n = k := by
  show (f.clusters ||| (1#192 <<< k)).getLsbD n = true ↔ _
  rw [BitVec.getLsbD_or, Bool.or_eq_true, BitVec.getLsbD_shiftLeft, BitVec.getLsbD_one]
  refine or_congr_right ?_
  simp only [Bool.and_eq_true, decide_eq_true_eq, Bool.not_eq_true', decide_eq_false_iff_not]
  omega

/-- Clusters that are fenced one after the other. -/
theorem foldl_add_cluster (base : Nat) (l : List Nat) (f : Fenced) :
    let z := l.foldl (fun f k => f.add (.cluster (base + k))) f
    z = { f with clusters := z.clusters } ∧
      ∀ n, n < 192 → (z.clusters.getLsbD n = true ↔ f.clusters.getLsbD n = true ∨ ∃ k ∈ l, n = base + k) := by
  induction l generalizing f with
  | nil => exact ⟨rfl, fun n _ => by simp⟩
  | cons k l ih =>
    obtain ⟨hframe, hbits⟩ := ih (f.add (.cluster (base + k)))
    refine ⟨hframe, fun n hn => (hbits n hn).trans ?_⟩
    rw [add_cluster_getLsbD f _ n hn]
    simp [or_assoc]

section Running
variable {s : State}

theorem up_of_running (h : s.phase = .running) : s.up = true := beq_iff_eq.2 h

theorem exec_selfTestReport (h : s.phase ≠ .atReset) :
    let sc : BitVec 8 × BitVec 8 := match s.phase with
      | .amber a b => (a, b)
      | _ => (5, 0)
    exec .selfTestReport s = .next { s with log := s.log ++ [.selfTest (selfTestBytes s sc.1 sc.2)], waited := false } := by
  show execSelfTestReport s = _
  unfold execSelfTestReport State.reportState
  cases hp : s.phase with
  | atReset => exact absurd hp h
  | running => rfl
  | amber a b => rfl

theorem exec_attestationReport (h : s.phase = .running) (nonce : List Byte) :
    exec (.attestationReport nonce) s = .next { s with
      log := s.log ++ [.attestation (edSign (s.boot.identity.getD Config.identitySeed)
        (shake256 ((s.boot.image.map fun i => i.bytes).getD (Config.firmware s.boot.version) ++ selfTestBytes s 5 0 ++ nonce) 64))],
      waited := false } :=
  if_neg (by rw [up_of_running h]; decide)

theorem exec_runtimeFence (h : s.phase = .running) (u : FenceUnit) :
    exec (.runtimeFence u) s =
      .next { killFenced { s with fenced := s.fenced.add u, log := s.log ++ [.replace] } with waited := false } :=
  if_neg (by rw [up_of_running h]; decide)

theorem exec_criticalTemperature (h : s.phase = .running) (die : Nat) :
    exec (.criticalTemperature die) s = .next { killFenced { s with
      fenced := (List.range 48).foldl (fun f k => f.add (.cluster (48 * die + k))) s.fenced
      log := s.log ++ [.replace] } with waited := false } :=
  if_neg (by rw [up_of_running h]; decide)

theorem exec_uncorrectableError {l : PoisonLoc} (hword : wordExists s l = true) (hclean : l ∉ s.poison) :
    exec (.uncorrectableError l) s = .next { s with poison := s.poison ++ [l], waited := false } :=
  if_pos (by simpa [hword] using hclean)

end Running

/-- Settles O60: bring-up by its verdicts in their order, the report by its fields, fencing by the clusters that it adds. -/
theorem deviceManagement : Obligations.DeviceManagement := by
  unfold Obligations.DeviceManagement
  refine ⟨step_reset, fun s => ?bringUp, fun s reached code => ?report, fun s n h => ?number, fun s h => exec_selfTestReport h,
    fun s nonce h => exec_attestationReport h nonce, fun s u h => exec_runtimeFence h u, fun s die h => ?heat,
    fun s l => exec_uncorrectableError⟩
  case bringUp =>
    refine ⟨exec_reset_atReset, exec_reset_running, fun h => ?_, fun h hf => ?_, fun h hf hv => ?_, fun h hf hv hver => ?_,
      fun h hf hv hver => bringUp_authentic h hf hv hver⟩
    · rw [bringUp_insecure h]
      exact ⟨rfl, rfl⟩
    · rw [bringUp_badFuses h hf]
      exact ⟨rfl, rfl⟩
    · rw [bringUp_unsigned h hf hv]
      exact ⟨rfl, rfl⟩
    · rw [bringUp_rolledBack h hf hv hver]
      exact ⟨rfl, rfl⟩
  case report =>
    obtain ⟨hmagic, hversion, hstep, hcode⟩ := selfTestBytes_head (s := s) (reached := reached) (code := code)
    exact ⟨selfTestBytes_length, hmagic, hversion, hstep, hcode, fun n => selfTestBytes_reserved,
      fun n hn => selfTestBytes_bit (i := 5) (k := 24) rfl rfl hn, fun n hn => selfTestBytes_bit (i := 6) (k := 32) rfl rfl hn,
      fun n hn => ⟨selfTestBytes_bit (i := 7) (k := 1) rfl rfl hn, selfTestBytes_bit (i := 8) (k := 1) rfl rfl hn,
        selfTestBytes_bit (i := 9) (k := 1) rfl rfl hn⟩, fun n hn => selfTestBytes_bit (i := 11) (k := 2) rfl rfl hn⟩
  case number => exact if_pos (beq_iff_eq.2 h)
  case heat =>
    obtain ⟨hframe, hbits⟩ := foldl_add_cluster (48 * die) (List.range 48) s.fenced
    refine ⟨_, exec_criticalTemperature h die, hframe, fun n hn => (hbits n hn).trans (or_congr_right ?_)⟩
    simp only [List.mem_range]
    constructor
    · rintro ⟨k, hk, rfl⟩
      omega
    · rintro ⟨hlo, hhi⟩
      exact ⟨n - 48 * die, by omega, by omega⟩

end Sys2Proof.Machine

/-! ## Elementwise lane instructions: the slot (R87, R117, R153, R408) -/

namespace Sys2Proof.Machine
open Sys2Proof.Safety

/-- The instructions of an elementwise form compute their slot from their operands' words, each with its tag. -/
theorem exec_elementwise {i : Instr} {e : Elementwise} (h : elementwise i = some e) :
    ∃ (n : Nat) (tag : List Tag → Tag), (∀ s, exec i s = computeSlot s i e.la e.ops (ownLane n) fun _ part srcs =>
      elemResult e.t e.d e.extra tag e.op part srcs) ∧ ∀ t, (e.ops t).length = n := by
  unfold elementwise at h
  split at h
  all_goals cases h
  all_goals exact ⟨_, _, fun _ => rfl, fun _ => rfl⟩

/-- A participating lane of a mapped register. -/
theorem mapLanes_get {part : LaneMask} (f : Nat → Word × FpFlags) {l : Nat} (hl : l < 64) (hp : part.getLsbD l = true) :
    (mapLanes part f).1.get l = (f l).1 := by
  have hout : ((List.range 64).map fun l => if part.getLsbD l then f l else (0, 0)).getD l (0, 0) = f l := by
    simp [List.getD_eq_getElem?_getD, hl, hp]
  unfold mapLanes
  rw [build_get _ hl, hout]

/-- The flags of the participating lanes (R153). -/
theorem mapLanes_flags (part : LaneMask) (f : Nat → Word × FpFlags) :
    (mapLanes part f).2 = FpFlags.join ((List.range 64).map fun l => if part.getLsbD l = true then (f l).2 else 0) := by
  unfold mapLanes
  dsimp only
  rw [List.map_map]
  refine congrArg FpFlags.join (List.map_congr_left fun l _ => ?_)
  rw [Function.comp_apply]
  split <;> rfl

/-- What an elementwise instruction leaves of its slot: the words of its lanes, and their flags. -/
theorem elemResult_eq (e : Elementwise) (tag : List Tag → Tag) (part : LaneMask) (srcs : List Source) :
    let x := elemResult e.t e.d e.extra tag e.op part srcs
    x.writes = [(e.d, (mapLanes part (e.word srcs)).1)] ∧ x.flags = (mapLanes part (e.word srcs)).2 ∧ x.pred = none ∧ x.rng = none := by
  have hword : (fun l => mapElems e.t e.op (srcs.map (fun x => x.lanes.get l) ++ e.extra)) = e.word srcs := rfl
  unfold elemResult
  rw [hword]
  exact ⟨rfl, rfl, rfl, rfl⟩

/-- An elementwise slot writes its destination and raises its flags, and changes nothing else. -/
theorem exec_elementwise_wrote {s : State} {i : Instr} {t : RowSlot} {e : Elementwise} {srcs : List Source}
    (he : elementwise i = some e) (hturn : RowTurn s i t) (hready : Readable s t i (e.ops t) (ownLane (e.ops t).length) srcs)
    (hd : e.d < t.r.regs.length) :
    ∃ s', exec i s = .next s' ∧ RowWrote s t i s' (only e.d fun l => (e.word srcs l).1)
      (FpFlags.join ((List.range 64).map fun l => if (t.part i).getLsbD l = true then (e.word srcs l).2 else 0)) := by
  obtain ⟨n, tag, hexec, hlen⟩ := exec_elementwise he
  rw [hlen] at hready
  have hdone := (hexec s).trans (computeSlot_ok hturn hready)
  obtain ⟨hwrites, hflags, hpred, hrng⟩ := elemResult_eq e tag (t.part i) srcs
  generalize elemResult e.t e.d e.extra tag e.op (t.part i) srcs = x at *
  refine ⟨_, hdone, ?_⟩
  rw [← mapLanes_flags, ← hflags]
  refine laneDone_wrote e.la x hturn (fun w hw => ?_) hpred hrng fun k => ?_
  · rw [hwrites] at hw
    rw [List.mem_singleton.1 hw]
    exact hd
  · rw [hwrites]
    by_cases hk : k = e.d
    · rw [only, if_pos hk]
      exact ⟨_, List.find?_cons_of_pos (beq_iff_eq.2 hk.symm), fun l => mapLanes_get _⟩
    · rw [only, if_neg hk]
      exact List.find?_cons_of_neg (fun h => hk (beq_iff_eq.1 h).symm)

end Sys2Proof.Machine

/-! ## Integer elements (R117, R148): ranges, wrapping, clamping -/

namespace Sys2Proof

/-- The least and the greatest integer that an element of `w` bits holds. -/
def elemLo (signed : Bool) (w : Nat) : Int := if signed = true then -2 ^ (w - 1) else 0
def elemHi (signed : Bool) (w : Nat) : Int := if signed = true then 2 ^ (w - 1) - 1 else 2 ^ w - 1

section Ranges
variable {signed : Bool} {w : Nat}

theorem two_pow_pos : (0 : Int) < 2 ^ w := Int.pow_pos (by decide)

theorem two_pow_eq_double (hw : 0 < w) : (2 : Int) ^ w = 2 * 2 ^ (w - 1) := by
  obtain ⟨k, rfl⟩ : ∃ k, w = k + 1 := ⟨w - 1, by omega⟩
  rw [Nat.add_sub_cancel, Int.pow_succ, Int.mul_comm]

theorem cast_two_pow : ((2 ^ w : Nat) : Int) = 2 ^ w := Int.natCast_pow 2 w

theorem elemLo_nonpos : elemLo signed w ≤ 0 := by
  have : (0 : Int) < 2 ^ (w - 1) := two_pow_pos
  unfold elemLo
  split <;> omega

theorem elemHi_nonneg : 0 ≤ elemHi signed w := by
  have h1 : (0 : Int) < 2 ^ (w - 1) := two_pow_pos
  have h2 : (0 : Int) < 2 ^ w := two_pow_pos
  unfold elemHi
  split <;> omega

theorem elemLo_le_elemHi : elemLo signed w ≤ elemHi signed w := Int.le_trans elemLo_nonpos elemHi_nonneg

theorem elemInt_eq (v : Nat) : elemInt signed w v = if signed = true ∧ 2 ^ (w - 1) ≤ v then (v : Int) - 2 ^ w else v := by
  simp only [elemInt, Bool.and_eq_true, decide_eq_true_eq]

/-- An element stands for an integer with the same low bits. -/
theorem elemInt_emod (v : Nat) : elemInt signed w v % 2 ^ w = (v : Int) % 2 ^ w := by
  rw [elemInt_eq]
  split
  · exact Int.sub_emod_right _ _
  · rfl

theorem elemInt_mem (hw : 0 < w) {v : Nat} (hv : v < 2 ^ w) :
    elemLo signed w ≤ elemInt signed w v ∧ elemInt signed w v ≤ elemHi signed w := by
  have hd := two_pow_eq_double hw
  have hv' : (v : Int) < 2 ^ w := cast_two_pow (w := w) ▸ Int.ofNat_lt.2 hv
  have hhalf : (2 ^ (w - 1) ≤ v) ↔ (2 : Int) ^ (w - 1) ≤ v := by
    rw [← cast_two_pow]
    exact Int.ofNat_le.symm
  rw [elemInt_eq]
  cases signed
  · simp only [elemLo, elemHi, Bool.false_eq_true, false_and, if_false]
    omega
  · simp only [elemLo, elemHi, true_and, if_true, hhalf]
    split <;> omega

theorem cast_wrapInt (z : Int) : (wrapInt w z : Int) = z % 2 ^ w := by
  unfold wrapInt
  rw [cast_two_pow]
  exact Int.toNat_of_nonneg (Int.emod_nonneg _ (Int.ne_of_gt two_pow_pos))

theorem wrapInt_lt (z : Int) : wrapInt w z < 2 ^ w := by
  rw [← Int.ofNat_lt, cast_wrapInt, cast_two_pow]
  exact Int.emod_lt_of_pos _ two_pow_pos

/-- An integer wraps to the pattern that has its low bits. -/
theorem wrapInt_eq_of_emod {z : Int} {v : Nat} (hv : v < 2 ^ w) (h : z % 2 ^ w = (v : Int) % 2 ^ w) : wrapInt w z = v := by
  have hv' : (v : Int) < 2 ^ w := cast_two_pow (w := w) ▸ Int.ofNat_lt.2 hv
  rw [← Int.ofNat_inj, cast_wrapInt, h, Int.emod_eq_of_lt (Int.natCast_nonneg v) hv']

/-- Two integers in one range with the same low bits are equal. -/
theorem eq_of_emod_of_mem (hw : 0 < w) {x z : Int} (hx : elemLo signed w ≤ x ∧ x ≤ elemHi signed w)
    (hz : elemLo signed w ≤ z ∧ z ≤ elemHi signed w) (h : x % 2 ^ w = z % 2 ^ w) : x = z := by
  have hspan : elemHi signed w - elemLo signed w < 2 ^ w := by
    have hd := two_pow_eq_double hw
    cases signed <;> simp only [elemLo, elemHi, Bool.false_eq_true, if_true, if_false] <;> omega
  have hoff := (Int.emod_sub_cancel_right (elemLo signed w)).2 h
  rw [Int.emod_eq_of_lt (by omega) (by omega), Int.emod_eq_of_lt (by omega) (by omega)] at hoff
  omega

/-- An integer in range is held as it is. -/
theorem elemInt_wrapInt (hw : 0 < w) {z : Int} (hlo : elemLo signed w ≤ z) (hhi : z ≤ elemHi signed w) :
    elemInt signed w (wrapInt w z) = z := by
  refine eq_of_emod_of_mem hw (elemInt_mem hw (wrapInt_lt z)) ⟨hlo, hhi⟩ ?_
  rw [elemInt_emod, cast_wrapInt, Int.emod_emod]

theorem clampInt_eq (z : Int) :
    (clampInt signed w z).1 = max (elemLo signed w) (min (elemHi signed w) z) ∧
      ((clampInt signed w z).2 = false ↔ elemLo signed w ≤ z ∧ z ≤ elemHi signed w) := by
  have hle : elemLo signed w ≤ elemHi signed w := elemLo_le_elemHi
  have hdef : clampInt signed w z = if z < elemLo signed w then (elemLo signed w, true)
      else if elemHi signed w < z then (elemHi signed w, true) else (z, false) := by
    unfold clampInt elemLo elemHi
    rw [cast_two_pow, cast_two_pow]
  rw [hdef]
  split
  case isTrue h => exact ⟨by omega, iff_of_false nofun (by omega)⟩
  case isFalse h =>
    split
    case isTrue h => exact ⟨by omega, iff_of_false nofun (by omega)⟩
    case isFalse h => exact ⟨by omega, iff_of_true rfl (by omega)⟩

/-- Narrowing by wrapping keeps the low bits and raises no flag. -/
theorem narrowInt_wrap (z : Int) : (narrowInt false signed w z).2 = 0 ∧ (narrowInt false signed w z).1 < 2 ^ w ∧
    ((narrowInt false signed w z).1 : Int) % 2 ^ w = z % 2 ^ w :=
  ⟨rfl, wrapInt_lt z, by
    show (wrapInt w z : Int) % 2 ^ w = _
    rw [cast_wrapInt, Int.emod_emod]⟩

/-- Narrowing by clamping gives the nearest integer in range, and raises a flag when that is another. -/
theorem narrowInt_clamp (hw : 0 < w) (z : Int) :
    elemInt signed w (narrowInt true signed w z).1 = max (elemLo signed w) (min (elemHi signed w) z) ∧
      ((narrowInt true signed w z).2 = 0 ↔ elemLo signed w ≤ z ∧ z ≤ elemHi signed w) := by
  obtain ⟨hval, hhit⟩ := clampInt_eq (signed := signed) (w := w) z
  have hle : elemLo signed w ≤ elemHi signed w := elemLo_le_elemHi
  constructor
  · show elemInt signed w (wrapInt w (clampInt signed w z).1) = _
    rw [hval, elemInt_wrapInt hw (by omega) (by omega)]
  · rw [← hhit]
    show FpFlags.when (clampInt signed w z).2 FpFlags.sat = 0 ↔ _
    cases (clampInt signed w z).2 <;> decide

end Ranges

end Sys2Proof

/-! ## Operations on integer elements (R412, R413, R415, R416) -/

namespace Sys2Proof.Machine

theorem elemBits_pos (t : ElemTy) : 0 < elemBits t := by cases t <;> decide

section IntOps
variable {t : ElemTy} {a b : Nat}

/-- `intOf` as the manual's two's complement reads it. -/
theorem intOf_eq (t : ElemTy) (a : Nat) :
    intOf t a = if isSigned t = true ∧ 2 ^ (elemBits t - 1) ≤ a then (a : Int) - 2 ^ elemBits t else a := elemInt_eq a

/-- The sum, the difference and the product are the integers' own, narrowed. -/
theorem addElem_int (ht : isF t = false) (r : Rnd) (sat : Bool) : addElem t r sat a b = fitInt t sat (intOf t a + intOf t b) :=
  if_neg (by rw [ht]; decide)
theorem subElem_int (ht : isF t = false) (r : Rnd) (sat : Bool) : subElem t r sat a b = fitInt t sat (intOf t a - intOf t b) :=
  if_neg (by rw [ht]; decide)
theorem mulElem_int (ht : isF t = false) (r : Rnd) (sat : Bool) : mulElem t r sat a b = fitInt t sat (intOf t a * intOf t b) :=
  if_neg (by rw [ht]; decide)

/-- What an operation gives that narrows the exact result `x`, wrapped and clamped. -/
theorem fitInt_spec (t : ElemTy) (x : Int) :
    (fitInt t false x).2 = 0 ∧ (fitInt t false x).1 < 2 ^ elemBits t ∧
      ((fitInt t false x).1 : Int) % 2 ^ elemBits t = x % 2 ^ elemBits t ∧
      intOf t (fitInt t true x).1 = max (elemLo (isSigned t) (elemBits t)) (min (elemHi (isSigned t) (elemBits t)) x) ∧
      ((fitInt t true x).2 = 0 ↔ elemLo (isSigned t) (elemBits t) ≤ x ∧ x ≤ elemHi (isSigned t) (elemBits t)) := by
  obtain ⟨hflag, hlt, hmod⟩ := narrowInt_wrap (signed := isSigned t) (w := elemBits t) x
  exact ⟨hflag, hlt, hmod, narrowInt_clamp (elemBits_pos t) x⟩

theorem minElem_int (ht : isF t = false) : intOf t (minElem t a b).1 = min (intOf t a) (intOf t b) := by
  unfold minElem
  rw [if_neg (by rw [ht]; decide), Int.min_def, apply_ite (intOf t)]

theorem maxElem_int (ht : isF t = false) : intOf t (maxElem t a b).1 = max (intOf t a) (intOf t b) := by
  unfold maxElem
  rw [if_neg (by rw [ht]; decide), Int.max_def, apply_ite (intOf t)]

/-- The pattern of the negated integer. -/
theorem fitInt_neg (ha : a < 2 ^ elemBits t) : fitInt t false (-intOf t a) = ((2 ^ elemBits t - a) % 2 ^ elemBits t, 0) := by
  refine Prod.ext (wrapInt_eq_of_emod (Nat.mod_lt _ (Nat.two_pow_pos _)) ?_) rfl
  rw [Int.natCast_emod, Int.natCast_sub (Nat.le_of_lt ha), cast_two_pow, Int.emod_emod, intOf_eq]
  split
  · rw [Int.neg_sub]
  · rw [Int.sub_eq_add_neg, Int.add_emod_left]

theorem negElem_int (ht : isF t = false) (ha : a < 2 ^ elemBits t) : negElem t a = ((2 ^ elemBits t - a) % 2 ^ elemBits t, 0) :=
  (if_neg (by rw [ht]; decide)).trans (fitInt_neg ha)

theorem absElem_int (ht : isF t = false) (ha : a < 2 ^ elemBits t) :
    absElem t a = (if intOf t a < 0 then (2 ^ elemBits t - a) % 2 ^ elemBits t else a, 0) := by
  refine (if_neg (by rw [ht]; decide)).trans ?_
  by_cases hneg : intOf t a < 0
  · rw [if_pos hneg, Int.ofNat_natAbs_of_nonpos (Int.le_of_lt hneg), fitInt_neg ha]
  · rw [if_neg hneg, Int.natAbs_of_nonneg (Int.not_lt.1 hneg)]
    exact Prod.ext (wrapInt_eq_of_emod ha (elemInt_emod a)) rfl

/-- A quotient by a positive integer lies between the dividend and zero. -/
theorem ediv_mem {x lo hi p : Int} (hp : 0 < p) (hlo : lo ≤ x) (hhi : x ≤ hi) (hlo0 : lo ≤ 0) (hhi0 : 0 ≤ hi) :
    lo ≤ x / p ∧ x / p ≤ hi := by
  constructor
  · have hscale : lo * p ≤ lo * 1 := Int.mul_le_mul_of_nonpos_left hlo0 (by omega)
    rw [Int.mul_one] at hscale
    exact (Int.le_ediv_iff_mul_le hp).2 (Int.le_trans hscale hlo)
  · rcases Int.le_total x 0 with hx | hx
    · exact Int.le_trans (Int.ediv_nonpos_of_nonpos_of_neg hx hp) hhi0
    · exact Int.le_trans (Int.ediv_le_self p hx) hhi

theorem sraElem_int (ha : a < 2 ^ elemBits t) : intOf t (sraElem t a b).1 = intOf t a / 2 ^ (b % elemBits t) := by
  have hpow : ((2 ^ (b % elemBits t) : Nat) : Int) = 2 ^ (b % elemBits t) := cast_two_pow
  obtain ⟨hlo, hhi⟩ := elemInt_mem (signed := isSigned t) (elemBits_pos t) ha
  obtain ⟨hlo', hhi'⟩ := ediv_mem (p := 2 ^ (b % elemBits t)) two_pow_pos hlo hhi elemLo_nonpos elemHi_nonneg
  unfold sraElem
  rw [hpow]
  exact elemInt_wrapInt (elemBits_pos t) hlo' hhi'

theorem popElem_eq (t : ElemTy) (a : Nat) : (popElem t a).1 = (List.range (elemBits t)).countP (fun k => a.testBit k) :=
  List.countP_eq_length_filter.symm

/-- The count of leading zeros: so many bits at the top are clear, and the next is set. -/
theorem clzElem_spec (ha : a < 2 ^ elemBits t) : (clzElem t a).1 ≤ elemBits t ∧
    (∀ k, elemBits t - (clzElem t a).1 ≤ k → a.testBit k = false) ∧
    ((clzElem t a).1 < elemBits t → a.testBit (elemBits t - 1 - (clzElem t a).1) = true) := by
  by_cases hzero : a = 0
  · subst hzero
    exact ⟨Nat.le_refl _, fun k _ => Nat.zero_testBit k, fun h => absurd h (Nat.lt_irrefl _)⟩
  · have hval : (clzElem t a).1 = elemBits t - 1 - Nat.log2 a := if_neg (by simpa using hzero)
    have hlog : Nat.log2 a < elemBits t := (Nat.log2_lt hzero).2 ha
    rw [hval]
    refine ⟨by omega, fun k hk => ?_, fun _ => ?_⟩
    · exact Nat.testBit_lt_two_pow (Nat.lt_of_lt_of_le Nat.lt_log2_self (Nat.pow_le_pow_right (by decide) (by omega)))
    · rw [show elemBits t - 1 - (elemBits t - 1 - Nat.log2 a) = Nat.log2 a by omega]
      exact Nat.testBit_log2 hzero

end IntOps

end Sys2Proof.Machine

/-! ## Sums and products of floating-point elements (R150, R154) -/

namespace Sys2Proof

/-- A sign, a magnitude and a scale as one integer. -/
def signedUnits (neg : Bool) (m k : Nat) : Int := (if neg = true then -1 else 1) * m * 2 ^ k

theorem signedUnits_eq_shift (neg : Bool) (m k : Nat) :
    signedUnits neg m k = if neg = true then -((m <<< k : Nat) : Int) else ((m <<< k : Nat) : Int) := by
  rw [Nat.shiftLeft_eq, Int.natCast_mul, cast_two_pow]
  cases neg
  · simp only [signedUnits, Bool.false_eq_true, if_false, Int.one_mul]
  · simp only [signedUnits, if_true, Int.neg_mul, Int.one_mul]

theorem signedUnits_not (neg : Bool) (m k : Nat) : signedUnits (!neg) m k = -signedUnits neg m k := by
  rw [signedUnits_eq_shift, signedUnits_eq_shift]
  cases neg
  · rfl
  · exact (Int.neg_neg _).symm

theorem signedUnits_eq_zero {neg : Bool} {m k : Nat} : signedUnits neg m k = 0 ↔ m = 0 := by
  have hshift : m <<< k = 0 ↔ m = 0 := by
    rw [Nat.shiftLeft_eq, Nat.mul_eq_zero, or_iff_left (Nat.ne_of_gt (Nat.two_pow_pos k))]
  rw [signedUnits_eq_shift, ← hshift]
  cases neg
  · exact Int.natCast_eq_zero
  · exact Int.neg_eq_zero.trans Int.natCast_eq_zero

theorem alignTwo_eq (n1 : Bool) (m1 : Nat) (e1 : Int) (n2 : Bool) (m2 : Nat) (e2 : Int) : alignTwo n1 m1 e1 n2 m2 e2 =
    (signedUnits n1 m1 (e1 - min e1 e2).toNat, signedUnits n2 m2 (e2 - min e1 e2).toNat, min e1 e2) := by
  rw [signedUnits_eq_shift, signedUnits_eq_shift, Int.min_def]
  rfl

section Values
variable {r : Rnd} {x y : FVal}

theorem FVal.eq_nan_of_isNan (h : x.isNan = true) : ∃ q, x = .nan q := by
  cases x with
  | nan q => exact ⟨q, rfl⟩
  | inf n => cases h
  | fin n m e => cases h

theorem FVal.isNan_flip (x : FVal) : x.flip.isNan = x.isNan := by cases x <;> rfl

/-- A NaN makes the sum and the product a NaN. -/
theorem FVal.add_nan (h : x.isNan = true ∨ y.isNan = true) : (FVal.add r x y).1 = .nan true := by
  obtain hx | hy := h
  · obtain ⟨q, rfl⟩ := FVal.eq_nan_of_isNan hx
    cases y <;> rfl
  · obtain ⟨q, rfl⟩ := FVal.eq_nan_of_isNan hy
    cases x <;> rfl

theorem FVal.mul_nan (h : x.isNan = true ∨ y.isNan = true) : (FVal.mul x y).1 = .nan true := by
  obtain hx | hy := h
  · obtain ⟨q, rfl⟩ := FVal.eq_nan_of_isNan hx
    cases y <;> rfl
  · obtain ⟨q, rfl⟩ := FVal.eq_nan_of_isNan hy
    cases x <;> rfl

/-- The finite terms of a sum over one unit. -/
theorem FVal.add_fin (r : Rnd) (n1 n2 : Bool) (m1 m2 : Nat) (e1 e2 : Int) :
    let z1 := signedUnits n1 m1 (e1 - min e1 e2).toNat
    let z2 := signedUnits n2 m2 (e2 - min e1 e2).toNat
    FVal.add r (.fin n1 m1 e1) (.fin n2 m2 e2) = if z1 + z2 = 0
      then (.fin (if m1 = 0 ∧ n1 = n2 then n1 else r == .rd) 0 0, false)
      else (FVal.ofInt (z1 + z2) (min e1 e2), false) := by
  intro z1 z2
  have hdef : FVal.add r (.fin n1 m1 e1) (.fin n2 m2 e2) = if z1 + z2 == 0
      then (.fin (if m1 == 0 && m2 == 0 && n1 == n2 then n1 else r == .rd) 0 0, false)
      else (FVal.ofInt (z1 + z2) (min e1 e2), false) := by
    rw [FVal.add, alignTwo_eq]
  rw [hdef]
  by_cases hz : z1 + z2 = 0
  · have hzero : m1 = 0 → m2 = 0 := fun h => by
      have h1 : z1 = 0 := signedUnits_eq_zero.2 h
      rw [h1, Int.zero_add] at hz
      exact signedUnits_eq_zero.1 hz
    rw [if_pos (beq_iff_eq.2 hz), if_pos hz]
    by_cases hm : m1 = 0
    · simp [hm, hzero hm]
    · simp [hm]
  · rw [if_neg (by simpa using hz), if_neg hz]

end Values

section Lanes
variable {f : Fmt} {r : Rnd} {a b : Nat}

theorem encode_ofInt {z : Int} (hz : z ≠ 0) (u : Int) :
    f.encode r (FVal.ofInt z u) = f.round r (decide (z < 0)) z.natAbs u false :=
  if_neg (by simpa using hz)

/-- R154: a NaN operand gives the default NaN. -/
theorem lanes_nan (h : (FVal.decode f a).isNan = true ∨ (FVal.decode f b).isNan = true) :
    (fAdd f r a b).1 = f.dnan ∧ (fSub f r a b).1 = f.dnan ∧ (fMul f r a b).1 = f.dnan := by
  refine ⟨?_, ?_, ?_⟩
  · show (f.encode r (FVal.add r (FVal.decode f a) (FVal.decode f b)).1).1 = _
    rw [FVal.add_nan h]
    rfl
  · show (f.encode r (FVal.add r (FVal.decode f a) (FVal.decode f b).flip).1).1 = _
    rw [FVal.add_nan (by rwa [FVal.isNan_flip])]
    rfl
  · show (f.encode r (FVal.mul (FVal.decode f a) (FVal.decode f b)).1).1 = _
    rw [FVal.mul_nan h]
    rfl

variable {n1 n2 : Bool} {m1 m2 : Nat} {e1 e2 : Int}

/-- Two finite operands add no NV to the flags of the rounding. -/
theorem or_no_flag (x : Nat × FpFlags) : (x.1, x.2 ||| FpFlags.when (false || anySnan [.fin n1 m1 e1, .fin n2 m2 e2]) FpFlags.nv) = x :=
  Prod.ext rfl (BitVec.or_zero)

theorem fAdd_fin (h1 : FVal.decode f a = .fin n1 m1 e1) (h2 : FVal.decode f b = .fin n2 m2 e2) :
    let z1 := signedUnits n1 m1 (e1 - min e1 e2).toNat
    let z2 := signedUnits n2 m2 (e2 - min e1 e2).toNat
    fAdd f r a b = if z1 + z2 = 0 then (if (if m1 = 0 ∧ n1 = n2 then n1 else r == .rd) then f.sign else 0, 0)
      else f.round r (decide (z1 + z2 < 0)) (z1 + z2).natAbs (min e1 e2) false := by
  intro z1 z2
  unfold fAdd
  rw [h1, h2]
  dsimp only
  rw [FVal.add_fin]
  by_cases hz : z1 + z2 = 0
  · rw [if_pos hz, if_pos hz]
    exact or_no_flag _
  · rw [if_neg hz, if_neg hz, ← encode_ofInt hz]
    exact or_no_flag _

theorem fSub_fin (h1 : FVal.decode f a = .fin n1 m1 e1) (h2 : FVal.decode f b = .fin n2 m2 e2)
    (hz : signedUnits n1 m1 (e1 - min e1 e2).toNat - signedUnits n2 m2 (e2 - min e1 e2).toNat ≠ 0) :
    let z := signedUnits n1 m1 (e1 - min e1 e2).toNat - signedUnits n2 m2 (e2 - min e1 e2).toNat
    fSub f r a b = f.round r (decide (z < 0)) z.natAbs (min e1 e2) false := by
  intro z
  have hadd : FVal.add r (.fin n1 m1 e1) (FVal.flip (.fin n2 m2 e2)) = (FVal.ofInt z (min e1 e2), false) := by
    show FVal.add r (.fin n1 m1 e1) (.fin (!n2) m2 e2) = _
    rw [FVal.add_fin, signedUnits_not, ← Int.sub_eq_add_neg, if_neg hz]
  unfold fSub
  rw [h1, h2, ← encode_ofInt hz]
  dsimp only
  rw [hadd]
  exact or_no_flag _

theorem fMul_fin (h1 : FVal.decode f a = .fin n1 m1 e1) (h2 : FVal.decode f b = .fin n2 m2 e2) (hm1 : m1 ≠ 0) (hm2 : m2 ≠ 0) :
    fMul f r a b = f.round r (n1 != n2) (m1 * m2) (e1 + e2) false := by
  have hencode : f.encode r (.fin (n1 != n2) (m1 * m2) (e1 + e2)) = f.round r (n1 != n2) (m1 * m2) (e1 + e2) false :=
    if_neg fun h => Nat.mul_ne_zero hm1 hm2 (beq_iff_eq.1 h)
  unfold fMul
  rw [h1, h2, ← hencode]
  exact or_no_flag _

end Lanes
end Sys2Proof

namespace Sys2Proof.Machine

/-- Settles O32: the slot by `exec_elementwise_wrote`, integers by `fitInt_spec` and the rules of each operation, floats by `fAdd_fin`,
`fSub_fin`, `fMul_fin` and `lanes_nan`. -/
theorem elementwiseResults : Obligations.ElementwiseResults := by
  unfold Obligations.ElementwiseResults
  refine ⟨fun s i t e srcs => exec_elementwise_wrote, fun t r a b ht ha hb => ?integers, fun f r a b _ => ?floats⟩
  case integers =>
    intro w z lo hi
    have hint : ∀ x, z x = intOf t x := fun x => (intOf_eq t x).symm
    simp only [hint]
    refine ⟨?_, minElem_int ht, maxElem_int ht, negElem_int ht ha, absElem_int ht ha, sraElem_int ha, popElem_eq t a, clzElem_spec ha⟩
    simp only [List.forall_mem_cons, addElem_int ht, subElem_int ht, mulElem_int ht]
    exact ⟨fitInt_spec t _, fitInt_spec t _, fitInt_spec t _, nofun⟩
  case floats =>
    refine ⟨lanes_nan, fun n1 m1 e1 n2 m2 e2 h1 h2 => ?_⟩
    intro u z1 z2
    exact ⟨fun h => (fAdd_fin h1 h2).trans (if_neg h), fun h => fSub_fin h1 h2 h, fun h => (fAdd_fin h1 h2).trans (if_pos h),
      fMul_fin h1 h2⟩

end Sys2Proof.Machine

/-! ## The slots of a byte string (R3, R105) -/

namespace Sys2Proof

/-- The bits above a byte and the byte below them. -/
theorem shiftLeft_or_byte (w : DWord) (n : Nat) : (w >>> (n + 8)) <<< 8 ||| (w.extractLsb' n 8).zeroExtend 64 = w >>> n := by
  apply BitVec.eq_of_getLsbD_eq
  intro k hk
  simp only [BitVec.getLsbD_or, BitVec.getLsbD_shiftLeft, BitVec.getLsbD_ushiftRight, BitVec.truncate_eq_setWidth,
    BitVec.getLsbD_setWidth, BitVec.getLsbD_extractLsb', hk, decide_true, Bool.true_and]
  by_cases hlow : k < 8
  · simp [hlow]
  · have hplace : n + 8 + (k - 8) = n + k := by omega
    simp [hlow, hplace]

/-- A slot is the number that its bytes write, lowest first. -/
theorem slotBytes_foldr (w : DWord) : (slotBytes w).foldr (fun (x : Byte) (acc : DWord) => (acc <<< 8) ||| x.zeroExtend 64) 0 = w := by
  have habove : (0 : DWord) = w >>> (56 + 8) := (BitVec.ushiftRight_eq_zero (by decide)).symm
  rw [habove]
  simp only [slotBytes, List.range_succ, List.range_zero, List.nil_append, List.cons_append, List.map_cons, List.map_nil,
    List.foldr_cons, List.foldr_nil, shiftLeft_or_byte]
  exact BitVec.ushiftRight_zero w

theorem slotAt_cons_zero (w : DWord) (bs : List Byte) : slotAt (slotBytes w ++ bs) 0 = some w := by
  have htake : (slotBytes w ++ bs).take 8 = slotBytes w := List.take_left' rfl
  unfold slotAt
  simp only [Nat.mul_zero, List.drop_zero, htake, slotBytes_foldr]
  rfl

theorem slotAt_cons_succ (w : DWord) (bs : List Byte) (n : Nat) : slotAt (slotBytes w ++ bs) (n + 1) = slotAt bs n := by
  have hlen : (slotBytes w).length = 8 := rfl
  unfold slotAt
  rw [Nat.mul_succ, Nat.add_comm, ← List.drop_drop, List.drop_left' hlen]

/-- The slots of a byte string are read back in their order. -/
theorem slotAt_flatMap (ws : List DWord) (n : Nat) : slotAt (ws.flatMap slotBytes) n = ws[n]? := by
  induction ws generalizing n with
  | nil => simp [slotAt]
  | cons w ws ih =>
    rw [List.flatMap_cons]
    cases n with
    | zero => exact slotAt_cons_zero w _
    | succ n => exact (slotAt_cons_succ w _ n).trans (ih n)

theorem decodeBytes_one {w : DWord} (h : slotLength w = 1) : decodeBytes ([w].flatMap slotBytes) = decodeSlots w 0 0 0 0 := by
  unfold decodeBytes
  simp only [slotAt_flatMap, List.getElem?_cons_zero, List.getElem?_cons_succ, h]
  rfl

theorem decodeBytes_five {w a b c d : DWord} (h : slotLength w = 5) :
    decodeBytes ([w, a, b, c, d].flatMap slotBytes) = decodeSlots w a b c d := by
  unfold decodeBytes
  simp only [slotAt_flatMap, List.getElem?_cons_zero, List.getElem?_cons_succ, h]
  rfl

end Sys2Proof

/-! ## Generator slots (R107, R108, R109, R110, R135, R136, R137) -/

namespace Sys2Proof

/-- A bit is a field of its own. -/
theorem getLsbD_of_field {w : DWord} {n : Nat} {b : Bool} (h : fieldOf w n 1 = BitVec.ofBool b) : w.getLsbD n = b := by
  have hbit : (fieldOf w n 1).getLsbD 0 = w.getLsbD n := by simp [fieldOf]
  rw [← hbit, h]
  cases b <;> rfl

/-- The sequencing that its three fields hold. -/
theorem decodeSeq_of_fields {w : DWord} {q : Seq} (hsel : fieldOf w 60 3 = (encodeSeq q).1)
    (hflag : fieldOf w 57 3 = (encodeSeq q).2.1) (hoff : fieldOf w 43 14 = (encodeSeq q).2.2) : decodeSeq w = some q := by
  unfold decodeSeq
  dsimp only
  rw [hsel, hflag, hoff]
  cases q with
  | lend n off => cases n <;> rfl
  | _ => rfl

/-- The fields of a generator slot. -/
@[simp] theorem packG_fields (q : Seq) (op : BitVec 8) (gd ga gb : BitVec 6) (i : Bool) (imm : BitVec 16) :
    decodeSeq (packG q op gd ga gb i imm) = some q ∧ fieldOf (packG q op gd ga gb i imm) 35 8 = op ∧
      fieldOf (packG q op gd ga gb i imm) 29 6 = gd ∧ fieldOf (packG q op gd ga gb i imm) 23 6 = ga ∧
      fieldOf (packG q op gd ga gb i imm) 17 6 = gb ∧ (packG q op gd ga gb i imm)[16] = i ∧
      fieldOf (packG q op gd ga gb i imm) 0 16 = imm := by
  refine ⟨decodeSeq_of_fields ?_ ?_ ?_, ?_, ?_, ?_, ?_, getLsbD_of_field ?_, BitVec.extractLsb'_append_eq_right⟩
  all_goals
    unfold packG fieldOf
    repeat rw [BitVec.extractLsb'_append_eq_of_le (by decide)]
    exact BitVec.extractLsb'_append_eq_right

/-- The fields of the slot of a constant. -/
@[simp] theorem packGli_fields (q : Seq) (op : BitVec 8) (gd : BitVec 6) (v : BitVec 29) :
    decodeSeq (packGli q op gd v) = some q ∧ fieldOf (packGli q op gd v) 35 8 = op ∧ fieldOf (packGli q op gd v) 29 6 = gd ∧
      fieldOf (packGli q op gd v) 0 29 = v := by
  refine ⟨decodeSeq_of_fields ?_ ?_ ?_, ?_, ?_, BitVec.extractLsb'_append_eq_right⟩
  all_goals
    unfold packGli fieldOf
    repeat rw [BitVec.extractLsb'_append_eq_of_le (by decide)]
    exact BitVec.extractLsb'_append_eq_right

/-! ### Operands and codes -/

/-- A field that stands extended in a wider one is read back from it. -/
@[simp] theorem extractLsb'_setWidth_self {n m : Nat} (x : BitVec n) (h : n ≤ m) : (x.setWidth m).extractLsb' 0 n = x := by
  rw [BitVec.extractLsb'_setWidth_of_le ((Nat.zero_add n).symm ▸ h), BitVec.extractLsb'_eq_self]

/-- A field of `n` bits, extended, stays below every bound from `2 ^ n` on. -/
@[simp] theorem toNat_mod_lt_of_pow_le {n : Nat} (x : BitVec n) {k b : Nat} (h : 2 ^ n ≤ b) : x.toNat % k < b :=
  Nat.lt_of_le_of_lt (Nat.mod_le _ _) (Nat.lt_of_lt_of_le x.isLt h)

@[simp] theorem condOf_condCode (cc : GCond) : condOf (condCode cc).toNat = some cc := by cases cc <;> rfl
@[simp] theorem atomicOf_atomicCode (op : AtomicOp) : atomicOf (atomicCode op) = op := by cases op <;> rfl
@[simp] theorem scopeOf_scopeCode (sc : Scope) : scopeOf (scopeCode sc).toNat = some sc := by cases sc <;> rfl
@[simp] theorem scopeCode_ne_fenceX (sc : Scope) : (scopeCode sc).toNat ≠ 8 := by cases sc <;> decide
@[simp] theorem loopOf_loopCode (n : LoopReg) : loopOf (loopCode n).toNat = some n := by cases n <;> rfl
@[simp] theorem feOf_feCode (b : FeBuf) (full : Bool) : feOf (feCode b full) = some (b, full) := by cases b <;> cases full <;> rfl
@[simp] theorem rndOf_rndCode (r : Rnd) : rndOf (rndCode r) = r := by cases r <;> rfl
@[simp] theorem carryOf_carryCode (k : CarryCode) : carryOf (carryCode k) = k := by cases k <;> rfl
@[simp] theorem ofCode_code (t : ElemTy) : ElemTy.ofCode t.code = t := by cases t <;> rfl

/-- The size and the extension of a load share gb; the one pair that R367 leaves out has the code 7. -/
theorem sizeField (sx : Bool) (sz : Size) :
    let gb : GReg := 0#3 ++ BitVec.ofBool sx ++ sizeCode sz
    (gb.toNat < 7 ↔ sx = false ∨ sz ≠ .d) ∧ sizeOf2 (gb.extractLsb' 0 2) = sz ∧ gb[2] = sx := by
  cases sx <;> cases sz <;> decide

theorem storeSizeField (sz : Size) :
    let gb : GReg := 0#4 ++ sizeCode sz
    gb.toNat < 4 ∧ sizeOf2 (gb.extractLsb' 0 2) = sz := by
  cases sz <;> decide

/-- A bit alone in its field: the link of GJMPR, the `mem` of CDEF. -/
theorem bitField (b : Bool) :
    let gb : GReg := 0#5 ++ BitVec.ofBool b
    gb.toNat < 2 ∧ gb[0] = b := by
  cases b <;> decide

/-- The name of CAPB.dry stands below its mark. -/
theorem dryField (n : BitVec 8) :
    let imm : BitVec 16 := 1#8 ++ n
    imm.toNat < 512 ∧ imm[8] = true ∧ imm.extractLsb' 0 8 = n := by
  refine ⟨?range, Laws.append_high (1#8) n 0 8 rfl, BitVec.extractLsb'_append_eq_right⟩
  rw [BitVec.toNat_append]
  exact Nat.or_lt_two_pow (n := 9) (by decide) (Nat.lt_trans n.isLt (by decide))

/-- The second operand of R362 in the fields gb, I and imm16. -/
theorem packSrc_eq (q : Seq) (op : BitVec 8) (gd ga : BitVec 6) (b : GSrc) :
    ∃ gb i imm, packSrc q op gd ga b = packG q op gd ga gb i imm ∧ decodeSrc i gb imm = some b := by
  cases b with
  | reg r => exact ⟨_, _, _, rfl, rfl⟩
  | imm v => exact ⟨_, _, _, rfl, rfl⟩

/-- A stretch name of R75 in the fields ga, I and imm16. -/
theorem packName_eq (q : Seq) (op : BitVec 8) (n : NameSrc) :
    ∃ ga i imm, packName q op n = packG q op 0 ga 0 i imm ∧ decodeG.decodeName i ga imm = some n := by
  cases n with
  | imm n => exact ⟨_, _, _, rfl, by simp [decodeG.decodeName]⟩
  | reg a => exact ⟨_, _, _, rfl, rfl⟩

theorem decodeG_packSrc {q : Seq} {op : BitVec 8} {gd ga : GReg} {b : GSrc} (h : op.toNat < 0x0E) :
    decodeG (packSrc q op gd ga b) = mould op.toNat q gd ga b := by
  obtain ⟨gb, i, imm, hw, hsrc⟩ := packSrc_eq q op gd ga b
  have hop : ∀ n, 0x0E ≤ n → op.toNat ≠ n := fun n hn => by omega
  rw [hw]
  simp [decodeG, hsrc, hop]

/-! ### The decoder -/

/-- A generator slot: it is encoded, and not as a lane slot or an engine command. -/
def Instr.isGen (i : Instr) : Bool := i.lform.isNone && i.liform.isNone && i.eform.isNone && !(encode i).isEmpty

theorem packSrc_clear (q : Seq) (op : BitVec 8) (gd ga : BitVec 6) (b : GSrc) : (packSrc q op gd ga b).getLsbD 63 = false := by
  cases b <;> exact Laws.packG_clear ..

theorem packName_clear (q : Seq) (op : BitVec 8) (n : NameSrc) : (packName q op n).getLsbD 63 = false := by
  cases n <;> exact Laws.packG_clear ..

/-- The decoder reads back every generator slot. -/
theorem decodeG_encode {i : Instr} (hgen : i.isGen = true) (hwf : i.wellFormed = true) :
    ∃ w, encode i = [w] ∧ w.getLsbD 63 = false ∧ decodeG w = some i := by
  cases i with
  | gadd q d a b | gsub q d a b | gmul q d a b | gmulh q d a b | gdiv q d a b | grem q d a b | gand q d a b | gor q d a b
  | gxor q d a b | gshl q d a b | gshr q d a b | gsra q d a b | gmin q d a b | gmax q d a b =>
    exact ⟨_, rfl, packSrc_clear .., decodeG_packSrc (by decide)⟩
  | gcmp q cc f a b =>
    obtain ⟨gb, i, imm, hw, hsrc⟩ := packSrc_eq q 0x0F (condCode cc ++ f) a b
    have hcond : (condCode cc ++ f).extractLsb' 3 3 = condCode cc := BitVec.extractLsb'_append_eq_left
    have hflag : (condCode cc ++ f).extractLsb' 0 3 = f := BitVec.extractLsb'_append_eq_right
    exact ⟨_, rfl, packSrc_clear .., by rw [hw]; simp [decodeG, hsrc, hcond, hflag]⟩
  | gloop q n b =>
    obtain ⟨gb, i, imm, hw, hsrc⟩ := packSrc_eq q 0x60 (loopCode n) 0 b
    exact ⟨_, rfl, packSrc_clear .., by rw [hw]; simp [decodeG, hsrc]⟩
  | gwfe q b =>
    obtain ⟨gb, i, imm, hw, hsrc⟩ := packSrc_eq q 0x62 0 0 b
    exact ⟨_, rfl, packSrc_clear .., by rw [hw]; simp [decodeG, hsrc]⟩
  | capx q n =>
    obtain ⟨ga, i, imm, hw, hname⟩ := packName_eq q 0x82 n
    exact ⟨_, rfl, packName_clear .., by rw [hw]; simp [decodeG, hname]⟩
  | rply q n =>
    obtain ⟨ga, i, imm, hw, hname⟩ := packName_eq q 0x83 n
    exact ⟨_, rfl, packName_clear .., by rw [hw]; simp [decodeG, hname]⟩
  | hset q h b =>
    cases b with
    | reg a | imm v => exact ⟨_, rfl, Laws.packG_clear .., by simp [decodeG]⟩
  | gli q d v | glih q d v => exact ⟨_, rfl, Laws.packGli_clear .., by simp [decodeG]⟩
  | gld q sz sx d a v =>
    have hsize : sx = false ∨ sz ≠ .d := by simpa [Instr.wellFormed] using hwf
    obtain ⟨hrange, hsz, hsx⟩ := sizeField sx sz
    exact ⟨_, rfl, Laws.packG_clear .., by simp [decodeG, hrange.2 hsize, hsz, hsx]⟩
  | gst q sz d a v =>
    obtain ⟨hrange, hsz⟩ := storeSizeField sz
    exact ⟨_, rfl, Laws.packG_clear .., by simp [decodeG, hrange, hsz]⟩
  | gjmpr b a | cdef q b x a =>
    obtain ⟨hrange, hbit⟩ := bitField b
    exact ⟨_, rfl, Laws.packG_clear .., by simp [decodeG, hrange, hbit]⟩
  | gtrap q v =>
    have hq : q ≠ .exit := by simpa [Instr.wellFormed] using hwf
    exact ⟨_, rfl, Laws.packG_clear .., by simp [decodeG, hq]⟩
  | capbDry q n =>
    obtain ⟨hrange, hdry, hname⟩ := dryField n
    exact ⟨_, rfl, Laws.packG_clear .., by simp [decodeG, hrange, hdry, hname]⟩
  | gsel q d a b f | gclz q d a | gpopc q d a | gamo q op d a b | grteRetry | grteSkip | grteDiscard | csrr q d n | csrw q a n
  | fence q sc | fenceX q | phaseAcq q | phaseRel q | phaseAcqrel q | bar q sc | capb q n | cape q d | gvq q d | qrsv q d n
  | qcmt q a n | qpop q d n | twait q b full a | tset q b full a | sopen q n a | seof q f n | scls q n | npoll q d a =>
    exact ⟨_, rfl, Laws.packG_clear .., by simp [decodeG]⟩
  | _ => exact absurd hgen Bool.false_ne_true

end Sys2Proof

/-! ## Lane slots (R55, R116, R120, R138, R139, R141, R142) -/

namespace Sys2Proof

/-- An opcode in its field of seven bits. -/
theorem toNat_ofNat_op {op : Nat} (h : op < 0x80) : (BitVec.ofNat 7 op).toNat = op := Nat.mod_eq_of_lt h

/-! ### Format L -/

/-- The fields of a format L slot. -/
theorem packL_fields (op : Nat) (f : LForm) :
    let w := packL op f
    w.getLsbD 63 = true ∧ fieldOf w 56 7 = BitVec.ofNat 7 op ∧ fieldOf w 52 4 = f.pg ∧ w.getLsbD 51 = f.pn ∧
      fieldOf w 48 3 = f.t.code ∧ fieldOf w 40 8 = f.vd ∧ fieldOf w 32 8 = f.va ∧ fieldOf w 24 8 = f.vb ∧ fieldOf w 16 8 = f.vc ∧
      fieldOf w 13 3 = carryCode f.ka ∧ fieldOf w 10 3 = carryCode f.kb ∧ fieldOf w 6 4 = f.la ∧ fieldOf w 4 2 = rndCode f.rnd ∧
      fieldOf w 0 4 = f.fn := by
  refine ⟨getLsbD_of_field ?top, ?_, ?_, getLsbD_of_field ?_, ?_, ?_, ?_, ?_, ?_, ?_, ?_, ?_, ?_, BitVec.extractLsb'_append_eq_right⟩
  all_goals
    unfold packL fieldOf
    repeat rw [BitVec.extractLsb'_append_eq_of_le (by decide)]
  case top => rfl
  all_goals exact BitVec.extractLsb'_append_eq_right

theorem decodeLForm_packL (op : Nat) (f : LForm) : decodeLForm (packL op f) = f := by
  obtain ⟨-, -, hpg, hpn, ht, hvd, hva, hvb, hvc, hka, hkb, hla, hrnd, hfn⟩ := packL_fields op f
  simp only [decodeLForm, hpg, hpn, ht, hvd, hva, hvb, hvc, hka, hkb, hla, hrnd, hfn, ofCode_code, carryOf_carryCode, rndOf_rndCode]

theorem lform_op {i : Instr} {op : Nat} {f : LForm} (h : i.lform = some (op, f)) : op < 0x20 ∨ (0x30 ≤ op ∧ op < 0x70) := by
  unfold Instr.lform at h
  split at h
  all_goals cases h
  all_goals decide

/-- A format L instruction has the constructor of its opcode; VCVT has two, which vc separates (R420). -/
theorem mkL_lform {i : Instr} {op : Nat} {f : LForm} (h : i.lform = some (op, f)) (hrow : i.rowOk = true) : mkL op f = some i := by
  cases i with
  | vcvt g =>
    cases h
    exact if_pos (of_decide_eq_true hrow)
  | vcvtAcc g =>
    cases h
    exact if_neg (Nat.not_lt.2 (of_decide_eq_true hrow))
  | _ => cases h <;> rfl

theorem decodeLane_packL {i : Instr} {op : Nat} {f : LForm} (p0 p1 p2 p3 : DWord) (h : i.lform = some (op, f))
    (hrow : i.rowOk = true) (htype : lTypeOk op f = true) : decodeLane (packL op f) p0 p1 p2 p3 = .ok i := by
  have hop := lform_op h
  obtain ⟨-, hcode, -⟩ := packL_fields op f
  unfold decodeLane
  simp only [hcode, toNat_ofNat_op (by omega : op < 0x80), if_pos hop, decodeLForm_packL, mkL_lform h hrow, htype, if_true]

/-! ### Format L-I -/

/-- The fields of a format L-I slot. -/
theorem packLI_fields (op : Nat) (f : LIForm) :
    let w := packLI op f
    w.getLsbD 63 = true ∧ fieldOf w 56 7 = BitVec.ofNat 7 op ∧ fieldOf w 52 4 = f.pg ∧ w.getLsbD 51 = f.pn ∧
      fieldOf w 48 3 = f.t.code ∧ fieldOf w 42 6 = f.vd ∧ fieldOf w 36 6 = f.va ∧ fieldOf w 0 36 = packSub f.src := by
  refine ⟨getLsbD_of_field ?top, ?_, ?_, getLsbD_of_field ?_, ?_, ?_, ?_, BitVec.extractLsb'_append_eq_right⟩
  all_goals
    unfold packLI fieldOf
    repeat rw [BitVec.extractLsb'_append_eq_of_le (by decide)]
  case top => rfl
  all_goals exact BitVec.extractLsb'_append_eq_right

/-- A field within the low field. -/
theorem fieldOf_low {w : DWord} {n : Nat} {x : BitVec n} {lo k : Nat} (h : fieldOf w 0 n = x) (hk : lo + k ≤ n) :
    fieldOf w lo k = x.extractLsb' lo k := by
  rw [← h]
  apply BitVec.eq_of_getLsbD_eq
  intro j hj
  have hin : lo + j < n := by omega
  simp [fieldOf, hj, hin]

/-- An immediate of R55 is a marker above a word, from which it is read back. -/
theorem packSub_eq (x : Sub) : ∃ (m : BitVec 4) (v : Word), packSub x = m ++ v ∧
    ∀ w, fieldOf w 32 4 = m → fieldOf w 0 32 = v → decodeSub w = .ok (x, true) := by
  cases x with
  | imm v | glo n | ghi n | hole n =>
    refine ⟨_, _, rfl, fun w hmark hword => ?_⟩
    unfold decodeSub
    simp [hmark, hword]

theorem decodeSub_of_field {w : DWord} {x : Sub} (h : fieldOf w 0 36 = packSub x) : decodeSub w = .ok (x, true) := by
  obtain ⟨m, v, hx, hdecode⟩ := packSub_eq x
  rw [hx] at h
  exact hdecode w ((fieldOf_low h (by decide)).trans BitVec.extractLsb'_append_eq_left)
    ((fieldOf_low h (by decide)).trans BitVec.extractLsb'_append_eq_right)

theorem liform_op {i : Instr} {op : Nat} {f : LIForm} (h : i.liform = some (op, f)) :
    op < 0x30 ∧ liAssigned op = true ∧ mkLI op f = some i := by
  cases i
  all_goals cases h
  all_goals exact ⟨by decide, by decide, rfl⟩

theorem decodeLane_packLI {i : Instr} {op : Nat} {f : LIForm} (p0 p1 p2 p3 : DWord) (h : i.liform = some (op, f))
    (htype : liTypeOk op f = true) : decodeLane (packLI op f) p0 p1 p2 p3 = .ok i := by
  obtain ⟨hop, hassigned, hmk⟩ := liform_op h
  have hlow : 0x20 ≤ op := by
    simp only [liAssigned, Bool.and_eq_true, decide_eq_true_eq] at hassigned
    omega
  obtain ⟨-, hcode, hpg, hpn, ht, hvd, hva, hsrc⟩ := packLI_fields op f
  have hform : ¬(op < 0x20 ∨ (0x30 ≤ op ∧ op < 0x70)) := by omega
  unfold decodeLane
  simp only [hcode, toNat_ofNat_op (by omega : op < 0x80), if_neg hform, if_pos hop, hassigned, decodeSub_of_field hsrc, hpg, hpn, ht,
    ofCode_code, hvd, hva, htype, hmk, Bool.not_true, Bool.false_eq_true, if_false]

/-! ### Engine commands -/

/-- The fields of a command's head. -/
theorem packE_fields (op : Nat) (e : EForm) :
    let w : DWord := 1#1 ++ BitVec.ofNat 7 op ++ 0xF#4 ++ e.fn ++ e.tag ++ e.head
    w.getLsbD 63 = true ∧ fieldOf w 56 7 = BitVec.ofNat 7 op ∧ fieldOf w 52 4 = 0xF ∧ fieldOf w 48 4 = e.fn ∧
      fieldOf w 32 16 = e.tag ∧ fieldOf w 0 32 = e.head := by
  refine ⟨getLsbD_of_field ?top, ?_, ?_, ?_, ?_, BitVec.extractLsb'_append_eq_right⟩
  all_goals
    unfold fieldOf
    repeat rw [BitVec.extractLsb'_append_eq_of_le (by decide)]
  case top => rfl
  all_goals exact BitVec.extractLsb'_append_eq_right

/-- A parameter of R55 is a marker above 62 bits, from which it is read back; a literal must be the extension of its 62 bits. -/
theorem packParam_eq {p : Param} (h : p.encodable = true) : ∃ (m : BitVec 2) (c : BitVec 62), packParam p = m ++ c ∧
    ∀ w, fieldOf w 62 2 = m → fieldOf w 0 62 = c → decodeParam w = some (p, true) := by
  cases p with
  | lit v =>
    have hv : (v.extractLsb' 0 62).signExtend 64 = v := beq_iff_eq.1 h
    refine ⟨_, _, rfl, fun w hmark hword => ?_⟩
    unfold decodeParam
    simp [hmark, hword, hv]
  | g n | hole n =>
    refine ⟨_, _, rfl, fun w hmark hword => ?_⟩
    unfold decodeParam
    simp [hmark, hword]

theorem decodeParam_packParam {p : Param} (h : p.encodable = true) : decodeParam (packParam p) = some (p, true) := by
  obtain ⟨m, c, hp, hdecode⟩ := packParam_eq h
  rw [hp]
  exact hdecode _ BitVec.extractLsb'_append_eq_left BitVec.extractLsb'_append_eq_right

theorem eform_op {i : Instr} {op : Nat} {e : EForm} (h : i.eform = some (op, e)) : 0x70 ≤ op ∧ op < 0x80 := by
  unfold Instr.eform at h
  split at h
  all_goals cases h
  all_goals decide

/-- A command has the constructor of its opcode; NSUB and the merges have several, which FN separates (R255, R392). -/
theorem mkE_eform {i : Instr} {op : Nat} {e : EForm} (h : i.eform = some (op, e)) (hrow : i.rowOk = true) : mkE op e = some i := by
  cases i with
  | nsubRead g | nsubWrite g | nsubFlush g | sisec g | sunion g | sdiff g | smadd g =>
    cases h
    have hfn := beq_iff_eq.1 hrow
    simp [mkE, hfn]
  | _ => cases h <;> rfl

theorem decodeLane_packE {i : Instr} {op : Nat} {e : EForm} (h : i.eform = some (op, e)) (hrow : i.rowOk = true)
    (htype : eTypeOk op e = true) (henc : e.encodable = true) :
    decodeLane (1#1 ++ BitVec.ofNat 7 op ++ 0xF#4 ++ e.fn ++ e.tag ++ e.head) (packParam e.p0) (packParam e.p1) (packParam e.p2)
      (packParam e.p3) = .ok i := by
  obtain ⟨hlow, hhigh⟩ := eform_op h
  obtain ⟨-, hcode, hmark, hfn, htag, hhead⟩ := packE_fields op e
  have hform : ¬(op < 0x20 ∨ (0x30 ≤ op ∧ op < 0x70)) := by omega
  have hform' : ¬op < 0x30 := by omega
  simp only [EForm.encodable, Bool.and_eq_true] at henc
  obtain ⟨⟨⟨h0, h1⟩, h2⟩, h3⟩ := henc
  unfold decodeLane
  simp only [hcode, toNat_ofNat_op hhigh, if_neg hform, if_neg hform', hmark, decodeParam_packParam h0, decodeParam_packParam h1,
    decodeParam_packParam h2, decodeParam_packParam h3, hfn, htag, hhead, htype, mkE_eform h hrow, Bool.not_true, Bool.and_self,
    Bool.false_eq_true, if_false, beq_self_eq_true]

end Sys2Proof

/-! ## The round trip (O1) -/

namespace Sys2Proof

theorem wellFormed_lform {i : Instr} {op : Nat} {f : LForm} (h : i.lform = some (op, f)) (hwf : i.wellFormed = true) :
    lTypeOk op f = true ∧ i.rowOk = true := by
  unfold Instr.wellFormed at hwf
  split at hwf
  case h_3 => simpa [h] using hwf
  all_goals cases h

theorem wellFormed_liform {i : Instr} {op : Nat} {f : LIForm} (hl : i.lform = none) (h : i.liform = some (op, f))
    (hwf : i.wellFormed = true) : liTypeOk op f = true := by
  unfold Instr.wellFormed at hwf
  split at hwf
  case h_3 => simpa [hl, h] using hwf
  all_goals cases h

theorem wellFormed_eform {i : Instr} {op : Nat} {e : EForm} (hl : i.lform = none) (hli : i.liform = none)
    (h : i.eform = some (op, e)) (hwf : i.wellFormed = true) : eTypeOk op e = true ∧ e.encodable = true ∧ i.rowOk = true := by
  unfold Instr.wellFormed at hwf
  split at hwf
  case h_3 => simpa [hl, hli, h, and_assoc] using hwf
  all_goals cases h

theorem encode_lform {i : Instr} {op : Nat} {f : LForm} (h : i.lform = some (op, f)) : encode i = [packL op f] := by
  cases i
  all_goals cases h
  all_goals rfl

theorem encode_liform {i : Instr} {op : Nat} {f : LIForm} (h : i.liform = some (op, f)) : encode i = [packLI op f] := by
  cases i
  all_goals cases h
  all_goals rfl

theorem encode_eform {i : Instr} {op : Nat} {e : EForm} (h : i.eform = some (op, e)) : encode i = packE op e := by
  cases i
  all_goals cases h
  all_goals rfl

theorem decodeSlots_lane {w p0 p1 p2 p3 : DWord} (h : w.getLsbD 63 = true) :
    decodeSlots w p0 p1 p2 p3 = decodeLane w p0 p1 p2 p3 := if_pos h

section RoundTrip
variable {i : Instr} {op : Nat}

theorem decodeBytes_encode_lform {f : LForm} (h : i.lform = some (op, f)) (hwf : i.wellFormed = true) :
    decodeBytes ((encode i).flatMap slotBytes) = .ok i := by
  obtain ⟨htype, hrow⟩ := wellFormed_lform h hwf
  have hop := lform_op h
  have hlen : slotLength (packL op f) = 1 := (Laws.slotLength_packL op f (by omega)).trans (if_neg (by omega))
  rw [encode_lform h, decodeBytes_one hlen, decodeSlots_lane (packL_fields op f).1]
  exact decodeLane_packL 0 0 0 0 h hrow htype

theorem decodeBytes_encode_liform {f : LIForm} (hl : i.lform = none) (h : i.liform = some (op, f)) (hwf : i.wellFormed = true) :
    decodeBytes ((encode i).flatMap slotBytes) = .ok i := by
  obtain ⟨hop, -⟩ := liform_op h
  have hlen : slotLength (packLI op f) = 1 := (Laws.slotLength_packLI op f (by omega)).trans (if_neg (by omega))
  rw [encode_liform h, decodeBytes_one hlen, decodeSlots_lane (packLI_fields op f).1]
  exact decodeLane_packLI 0 0 0 0 h (wellFormed_liform hl h hwf)

theorem decodeBytes_encode_eform {e : EForm} (hl : i.lform = none) (hli : i.liform = none) (h : i.eform = some (op, e))
    (hwf : i.wellFormed = true) : decodeBytes ((encode i).flatMap slotBytes) = .ok i := by
  obtain ⟨htype, hparams, hrow⟩ := wellFormed_eform hl hli h hwf
  obtain ⟨hlow, hhigh⟩ := eform_op h
  have hlen := (Laws.slotLength_headE op e hhigh).trans (if_pos hlow)
  rw [encode_eform h, packE, decodeBytes_five hlen, decodeSlots_lane (packE_fields op e).1]
  exact decodeLane_packE h hrow htype hparams

theorem decodeBytes_encode_gen (hgen : i.isGen = true) (hwf : i.wellFormed = true) :
    decodeBytes ((encode i).flatMap slotBytes) = .ok i := by
  obtain ⟨w, hw, hclear, hdecode⟩ := decodeG_encode hgen hwf
  rw [hw, decodeBytes_one (Laws.slotLength_of_clear w hclear), decodeSlots, hclear, hdecode]
  rfl

end RoundTrip

/-- Settles O1: an instruction that is encoded is a lane slot of format L or L-I, an engine command or a generator slot, each of which
`decodeBytes_encode_…` reads back. -/
theorem encodeDecodeAgree : Obligations.EncodeDecodeAgree := by
  unfold Obligations.EncodeDecodeAgree
  intro i hwf henc
  rcases hl : i.lform with _ | ⟨op, f⟩
  · rcases hli : i.liform with _ | ⟨op, f⟩
    · rcases he : i.eform with _ | ⟨op, e⟩
      · exact decodeBytes_encode_gen (by simp [Instr.isGen, hl, hli, he, henc]) hwf
      · exact decodeBytes_encode_eform hl hli he hwf
    · exact decodeBytes_encode_liform hl hli hwf
  · exact decodeBytes_encode_lform hl hwf

end Sys2Proof

/-! ## Sequencing (R109, R110, R111, R113) -/

namespace Sys2Proof.Machine
open Sys2Proof.Safety

/-- A write to a loop counter changes that one alone. -/
theorem loop_setLoop (c : Ctx) (n k : LoopReg) (v : Word) : (c.setLoop n v).loop k = if k = n then v else c.loop k := by
  have hnum : loopNum k = loopNum n ↔ k = n := by cases n <;> cases k <;> decide
  have hlt : loopNum k < 3 := by cases k <;> decide
  by_cases hk : k = n
  · subst hk
    simp [Ctx.loop, Ctx.setLoop, Vector.toList, List.getD, hlt]
  · have hne : loopNum n ≠ loopNum k := fun h => hk (hnum.1 h.symm)
    simp [Ctx.loop, Ctx.setLoop, Vector.toList, List.getD, hk, hne]

@[simp] theorem setFlag_id (c : Ctx) (f : BitVec 3) (v : Bool) : (c.setFlag f v).id = c.id := by rw [setFlag_frame]
@[simp] theorem setFlag_rstack (c : Ctx) (f : BitVec 3) (v : Bool) : (c.setFlag f v).rstack = c.rstack := by rw [setFlag_frame]

/-- The only fault of a sequencing is in the depth of the return stack. -/
theorem seqFault_congr {c c1 : Ctx} (h : c1.rstack = c.rstack) (q : Seq) : c1.seqFault q = c.seqFault q := by
  unfold Ctx.seqFault
  rw [h]

/-- NextPC by the cases of R109. -/
theorem nextPc_spec {c : Ctx} {q : Seq} (hq : q ≠ .exit) (hseq : SeqOk c q) : NextPc c q (c.nextPc q) := by
  cases q with
  | next | jump off | jt g off | jf g off | call off => exact ⟨rfl, rfl, rfl⟩
  | ret =>
    have hne : c.rstack ≠ [] := fun h => by simp [SeqOk, Ctx.seqFault, h] at hseq
    refine ⟨?_, rfl⟩
    show c.rstack = c.rstack.dropLast ++ [c.rstack.getLastD 0]
    rw [List.getLastD_eq_getLast?, List.getLast?_eq_some_getLast hne]
    exact (List.dropLast_concat_getLast hne).symm
  | lend n off =>
    have hself : ∀ v, (c.setLoop n v).loop n = v := fun v => (loop_setLoop c n n v).trans (if_pos rfl)
    have hother : ∀ v k, k ≠ n → (c.setLoop n v).loop k = c.loop k := fun v k hk => (loop_setLoop c n k v).trans (if_neg hk)
    unfold NextPc Ctx.nextPc
    dsimp only
    by_cases hmore : 1 < (c.loop n).toNat
    · rw [if_pos hmore, if_pos hmore]
      exact ⟨⟨rfl, hself _⟩, hother _, rfl⟩
    · rw [if_neg hmore, if_neg hmore]
      exact ⟨⟨rfl, hself _⟩, hother _, rfl⟩
  | exit => exact absurd rfl hq

/-- EXIT stops the generator and leaves the PC, the return stack and the loop counters (R113). -/
theorem genNext_exit {s : State} {c c0 : Ctx} (hctx : s.ctxOf c.id = some c0) :
    ∃ c', (genNext s c .exit).ctxOf c.id = some c' ∧ NextPc c .exit c' := by
  obtain ⟨c', hc', hstop⟩ := stopContext_ctxOf (c := c.counted) hctx
  refine ⟨c', hc', ?_⟩
  rw [hstop, (settle_same _).eq]
  exact ⟨rfl, rfl, rfl, rfl⟩

/-- The end of every instruction sets its context by NextPC. -/
theorem genNext_nextPc {s : State} {c c0 : Ctx} {q : Seq} (hctx : s.ctxOf c.id = some c0) (hseq : SeqOk c q) :
    ∃ c', (genNext s c q).ctxOf c.id = some c' ∧ NextPc c q c' := by
  by_cases hq : q = .exit
  · subst hq
    exact genNext_exit hctx
  · exact ⟨_, genNext_ctxOf_self hq hctx, nextPc_spec (c := c.counted) hq hseq⟩

/-- An instruction whose own effect `f` is on its context alone: NextPC reads the context as that effect left it. -/
theorem exec_nextPc {i : Instr} {s : State} {c : Ctx} {q : Seq} {srcs : List GReg} (f : Ctx → Ctx)
    (hexec : exec i s = genStep s q srcs fun c => .ok s (f c)) (hready : GenReady s c srcs) (hid : (f c).id = c.id)
    (hstack : (f c).rstack = c.rstack) (hseq : SeqOk c q) :
    ∃ t c', exec i s = .next t ∧ t.ctxOf c.id = some c' ∧ NextPc (f c) q c' := by
  have hself : s.ctxOf (f c).id = some c := by
    rw [hid, ctxOf_id hready.1]
    exact hready.1
  obtain ⟨c', hc', hnext⟩ := genNext_nextPc hself ((seqFault_congr hstack q).trans hseq)
  exact ⟨_, c', hexec.trans (genStep_ok hready rfl hseq), hid ▸ hc', hnext⟩

/-- Settles O12: an instruction's end by `genNext_nextPc`; GCMP and GLOOP by `exec_nextPc`, behind the write of the flag and of the
loop counter. -/
theorem nextPcAfterEffect : Obligations.NextPcAfterEffect := by
  unfold Obligations.NextPcAfterEffect
  refine ⟨fun s c0 c q hctx hseq => genNext_nextPc hctx hseq, ?gcmp, ?gloop⟩
  case gcmp =>
    intro s c q cc f a b hready hseq
    exact exec_nextPc (fun c => c.setFlag f (gcond cc (c.greg a) (c.src b))) rfl hready (setFlag_id ..) (setFlag_rstack ..) hseq
  case gloop =>
    intro s c q n b hready hseq
    have hlow : (c.src b).truncate 32 = (c.src b).extractLsb' 0 32 := BitVec.setWidth_eq_extractLsb' (by decide)
    rw [← hlow]
    exact exec_nextPc (fun c => c.setLoop n ((c.src b).truncate 32)) rfl hready rfl rfl hseq

end Sys2Proof.Machine

/-! ## Elementwise instructions on 32-bit integers (R117, R413, R415, R416) -/

namespace Sys2Proof.Machine
open Sys2Proof.Safety

/-- An operation on elements that is the operation `op` of the whole word and raises no flag. -/
def IsWordOp (g : Nat → Nat → Nat × FpFlags) (op : Word → Word → Word) : Prop :=
  ∀ a b : Word, g a.toNat b.toNat = ((op a b).toNat, 0)

/-- A 32-bit element is the whole word. -/
theorem mapElems_i32 {g : Nat → Nat → Nat × FpFlags} {op : Word → Word → Word} (h : IsWordOp g op) (a b : Word) :
    mapElems .i32 (op2 g) [a, b] = (op a b, 0) := by
  have helem : ∀ x : Word, elemAt 32 x 0 = x.toNat := fun x => by simpa [elemAt] using x.isLt
  have hpack : ∀ x : Word, packElems 32 [x.toNat] = x := fun x => by
    have hmod : x.toNat % 4294967296 = x.toNat := Nat.mod_eq_of_lt x.isLt
    simp [packElems, hmod]
  have hflag : FpFlags.join [0] = 0 := by decide
  show (packElems 32 [(g (elemAt 32 a 0) (elemAt 32 b 0)).1], FpFlags.join [(g (elemAt 32 a 0) (elemAt 32 b 0)).2]) = (op a b, 0)
  rw [helem, helem, h a b]
  exact Prod.ext (hpack _) hflag

/-- A 32-bit element stands for the word's own integer. -/
theorem intOf_i32 (a : Word) : intOf .i32 a.toNat = a.toInt := by
  have hhalf : 2 ^ (elemBits .i32 - 1) ≤ a.toNat ↔ ¬2 * a.toNat < 2 ^ 32 := by
    show 2 ^ 31 ≤ a.toNat ↔ _
    omega
  rw [intOf_eq, BitVec.toInt_eq_toNat_cond]
  by_cases hlow : 2 * a.toNat < 2 ^ 32
  · rw [if_pos hlow]
    exact if_neg fun h => hhalf.1 h.2 hlow
  · rw [if_neg hlow]
    exact if_pos ⟨rfl, hhalf.2 hlow⟩

/-- Wrapping to 32 bits is the word of the integer. -/
theorem fitInt_i32 (z : Int) : fitInt .i32 false z = ((BitVec.ofInt 32 z).toNat, 0) := by
  rw [BitVec.toNat_ofInt]
  rfl

theorem addElem_i32 (r : Rnd) : IsWordOp (addElem .i32 r false) fun a b => a + b := fun a b => by
  rw [addElem_int rfl, intOf_i32, intOf_i32, fitInt_i32, BitVec.ofInt_add, BitVec.ofInt_toInt, BitVec.ofInt_toInt]

theorem subElem_i32 (r : Rnd) : IsWordOp (subElem .i32 r false) fun a b => a - b := fun a b => by
  rw [subElem_int rfl, intOf_i32, intOf_i32, fitInt_i32, Int.sub_eq_add_neg, BitVec.ofInt_add, BitVec.ofInt_neg, BitVec.ofInt_toInt,
    BitVec.ofInt_toInt, ← BitVec.sub_eq_add_neg]

theorem mulElem_i32 (r : Rnd) : IsWordOp (mulElem .i32 r false) fun a b => a * b := fun a b => by
  rw [mulElem_int rfl, intOf_i32, intOf_i32, fitInt_i32, BitVec.ofInt_mul, BitVec.ofInt_toInt, BitVec.ofInt_toInt]

theorem andElem_word : IsWordOp (fun a b => (a &&& b, 0)) fun a b => a &&& b := fun a b => by rw [BitVec.toNat_and]
theorem orElem_word : IsWordOp (fun a b => (a ||| b, 0)) fun a b => a ||| b := fun a b => by rw [BitVec.toNat_or]
theorem xorElem_word : IsWordOp (fun a b => (a ^^^ b, 0)) fun a b => a ^^^ b := fun a b => by rw [BitVec.toNat_xor]

theorem shlElem_i32 : IsWordOp (shlElem .i32) fun a b => a <<< (b.toNat % 32) := fun a b => by
  rw [BitVec.toNat_shiftLeft, Nat.shiftLeft_eq]
  rfl

theorem shrElem_i32 : IsWordOp (shrElem .i32) fun a b => a >>> (b.toNat % 32) := fun a b => by
  rw [BitVec.toNat_ushiftRight, Nat.shiftRight_eq_div_pow]
  rfl

theorem sraElem_i32 : IsWordOp (sraElem .i32) fun a b => a.sshiftRight (b.toNat % 32) := fun a b => by
  show _ = ((BitVec.ofInt 32 (a.toInt >>> (b.toNat % 32))).toNat, 0)
  rw [Int.shiftRight_eq_div_pow, ← fitInt_i32, ← intOf_i32]
  rfl

theorem minElem_i32 : IsWordOp (minElem .i32) fun a b => if a.toInt ≤ b.toInt then a else b := fun a b => by
  dsimp only
  rw [← intOf_i32, ← intOf_i32, apply_ite BitVec.toNat]
  rfl

theorem maxElem_i32 : IsWordOp (maxElem .i32) fun a b => if a.toInt ≤ b.toInt then b else a := fun a b => by
  dsimp only
  rw [← intOf_i32, ← intOf_i32, apply_ite BitVec.toNat]
  rfl

theorem sources_length {s : State} {t : RowSlot} {ops : List Operand} {j : Nat} {srcs : List Source}
    (h : sources s t j ops = some srcs) : srcs.length = ops.length := by
  induction ops generalizing j srcs with
  | nil =>
    cases h
    rfl
  | cons o ops ih =>
    unfold sources at h
    split at h
    case h_1 hrest =>
      cases h
      exact congrArg (· + 1) (ih hrest)
    case h_2 => cases h

/-- A two-source slot on 32-bit integers writes the word operation to its destination and raises no flag. -/
theorem exec_two_i32 {s : State} {i : Instr} {t : RowSlot} {f : LForm} {srcs : List Source} {g : Nat → Nat → Nat × FpFlags}
    {op : Word → Word → Word} (hi : elementwise i = two f g) (hop : IsWordOp g op) (ht : f.t = .i32) (hturn : RowTurn s i t)
    (hready : Readable s t i [vaOp t f.va, vbOp t f.vb] (ownLane 2) srcs) (hd : f.vd.toNat < t.r.regs.length) :
    ∃ s', exec i s = .next s' ∧ RowWrote s t i s' (only f.vd.toNat fun l => op (srcWord srcs 0 l) (srcWord srcs 1 l)) 0 := by
  obtain ⟨x, y, hsrcs⟩ : ∃ x y, srcs = [x, y] := by
    match srcs, sources_length hready.1 with
    | [x, y], _ => exact ⟨x, y, rfl⟩
  have hword : ∀ l, mapElems f.t (op2 g) ((srcs.map fun x => x.lanes.get l) ++ []) =
      (op (srcWord srcs 0 l) (srcWord srcs 1 l), 0) := fun l => by
    rw [ht, hsrcs]
    exact mapElems_i32 hop _ _
  obtain ⟨s', hexec, hwrote⟩ := exec_elementwise_wrote hi hturn hready hd
  simp only [Elementwise.word, hword, ite_self] at hwrote
  exact ⟨s', hexec, hwrote⟩

/-- Settles O33: each instruction is elementwise on a word operation (`addElem_i32` to `maxElem_i32`), and `exec_two_i32` says what
such a slot leaves. -/
theorem thirtyTwoBitIntegerResults : Obligations.ThirtyTwoBitIntegerResults := by
  unfold Obligations.ThirtyTwoBitIntegerResults
  intro s t f srcs i op ht hfn hmem hturn hready hd
  have hsat : (f.fn == 1) = false := by rw [hfn]; rfl
  have hops : ∃ g, elementwise i = two f g ∧ IsWordOp g op := by
    simp only [List.mem_cons, List.not_mem_nil, or_false, Prod.mk.injEq] at hmem
    rcases hmem with ⟨rfl, rfl⟩ | ⟨rfl, rfl⟩ | ⟨rfl, rfl⟩ | ⟨rfl, rfl⟩ | ⟨rfl, rfl⟩ | ⟨rfl, rfl⟩ | ⟨rfl, rfl⟩ | ⟨rfl, rfl⟩ |
      ⟨rfl, rfl⟩ | ⟨rfl, rfl⟩ | ⟨rfl, rfl⟩
    · exact ⟨_, rfl, by rw [ht, hsat]; exact addElem_i32 _⟩
    · exact ⟨_, rfl, by rw [ht, hsat]; exact subElem_i32 _⟩
    · exact ⟨_, rfl, by rw [ht, hsat]; exact mulElem_i32 _⟩
    · exact ⟨_, rfl, andElem_word⟩
    · exact ⟨_, rfl, orElem_word⟩
    · exact ⟨_, rfl, xorElem_word⟩
    · exact ⟨_, rfl, ht ▸ shlElem_i32⟩
    · exact ⟨_, rfl, ht ▸ shrElem_i32⟩
    · exact ⟨_, rfl, ht ▸ sraElem_i32⟩
    · exact ⟨_, rfl, ht ▸ minElem_i32⟩
    · exact ⟨_, rfl, ht ▸ maxElem_i32⟩
  obtain ⟨g, hi, hg⟩ := hops
  exact exec_two_i32 hi hg ht hturn hready hd

end Sys2Proof.Machine

/-! ## Slots of unassigned OP (R133, R134) -/

namespace Sys2Proof

/-- The OP values that R133 assigns. -/
abbrev AssignedOp (op : Nat) : Prop :=
  op ≤ 0x13 ∨ (0x40 ≤ op ∧ op ≤ 0x42) ∨ (0x60 ≤ op ∧ op ≤ 0x69) ∨ (0x80 ≤ op ∧ op ≤ 0x8F)

theorem mould_eq_none {op : Nat} (h : 0x0E ≤ op) (q : Seq) (d a : GReg) (b : GSrc) : mould op q d a b = none := by
  have hop : ∀ n, n < 0x0E → op ≠ n := fun n hn => by omega
  simp [mould, hop]

/-- No row of R135, R136 and R137 has an unassigned OP: the decoder's own rows are assigned, and the mould of R362 ends below 0x0E. -/
theorem decodeG_unassigned {w : DWord} (h : ¬AssignedOp (fieldOf w 35 8).toNat) : decodeG w = none := by
  have hlarge : 0x0E ≤ (fieldOf w 35 8).toNat := by
    unfold AssignedOp at h
    omega
  unfold decodeG
  dsimp only
  split
  case h_1 => rfl
  case h_2 =>
    split
    case h_36 => exact Option.bind_eq_none_iff.2 fun b _ => mould_eq_none hlarge ..
    all_goals
      next hop => exact (h (hop ▸ by decide)).elim

theorem decodeBytes_slotBytes {w : DWord} (h : slotLength w = 1) : decodeBytes (slotBytes w) = decodeSlots w 0 0 0 0 := by
  rw [← decodeBytes_one h, List.flatMap_singleton]

theorem decodeBytes_unassigned {w : DWord} (hg : w.getLsbD 63 = false) (h : ¬AssignedOp (fieldOf w 35 8).toNat) :
    decodeBytes (slotBytes w) = .error .illegal := by
  rw [decodeBytes_slotBytes (Laws.slotLength_of_clear w hg)]
  simp only [decodeSlots, hg, Bool.false_eq_true, if_false, decodeG_unassigned h]

end Sys2Proof

namespace Sys2Proof.Machine
open Sys2Proof.Safety

theorem exec_generatorFetch (k : Nat) (s : State) : exec (.generatorFetch k) s = execGeneratorFetch k s := rfl

section Fetch

variable {s : State} {k : Nat} {c : Ctx} {mb : Member} (hctx : s.ctxOf k = some c) (hmoves : c.genMoves = true)
  (hir : c.ir = none) (hrun : c.gen = .running) (hmb : c.member 0 = some mb)
include hctx hmoves hir hrun hmb

/-- A fetch that faults reports its own fault; nothing is decoded. -/
theorem exec_generatorFetch_fault {cause : Cause} {a : DWord}
    (hfetch : fetchInstr s c (dieOf mb.cluster) c.pc = .error (cause, a)) :
    exec (.generatorFetch k) s = genFault s c cause a := by
  simp [exec_generatorFetch, execGeneratorFetch, hctx, hmoves, hir, hrun, hmb, hfetch]

/-- Slots that are no generator instruction, or too short for any, are ILLEGAL. -/
theorem exec_generatorFetch_illegal {bs : List Byte} {e : DecodeErr}
    (hfetch : fetchInstr s c (dieOf mb.cluster) c.pc = .ok bs) (hdec : decodeBytes bs = .error e)
    (he : e = .illegal ∨ e = .truncated) : exec (.generatorFetch k) s = genFault s c .illegal 0 := by
  rcases he with rfl | rfl <;> simp [exec_generatorFetch, execGeneratorFetch, hctx, hmoves, hir, hrun, hmb, hfetch, hdec]

end Fetch

/-- Settles O6: outside R133's ranges no row of the decoder applies (`decodeG_unassigned`), and a fetch ends in the trap of its own fault
or in ILLEGAL (`exec_generatorFetch_fault`, `exec_generatorFetch_illegal`), each of which is taken by `genFault_taken`. -/
theorem unassignedSlotRaisesIllegal : Obligations.UnassignedSlotRaisesIllegal := by
  unfold Obligations.UnassignedSlotRaisesIllegal
  refine ⟨fun w hg hop => decodeBytes_unassigned hg hop, fun s k c mb hctx hmoves hir hrun hmb hcan => ?_⟩
  have hself : s.ctxOf c.id = some c := (ctxOf_id hctx).symm ▸ hctx
  constructor
  · intro bs e hfetch hdec he
    rw [exec_generatorFetch_illegal hctx hmoves hir hrun hmb hfetch hdec he]
    exact genFault_taken hcan hself
  · intro cause a hfetch
    rw [exec_generatorFetch_fault hctx hmoves hir hrun hmb hfetch]
    exact genFault_taken hcan hself

end Sys2Proof.Machine

/-! ## The one rounding (R150) -/

namespace Sys2Proof

/-- `m * 2^e` cut off at the place `2^u`. -/
def cutOff (m : Nat) (e u : Int) : Nat := if u ≤ e then m * 2 ^ (e - u).toNat else m / 2 ^ (u - e).toNat

/-- What the cut leaves off, in units of `2^e`. -/
def cutRest (m : Nat) (e u : Int) : Nat := if u ≤ e then 0 else m % 2 ^ (u - e).toNat

/-- Whether a mode goes to the next pattern: `q` is what the cut keeps, `rest` what it leaves off of `2^k`. -/
def roundsUp (r : Rnd) (neg : Bool) (q rest k : Nat) : Bool :=
  rest != 0 && match r with
    | .rne => decide (2 ^ k < 2 * rest ∨ (2 * rest = 2 ^ k ∧ q % 2 = 1))
    | .rz => false
    | .ru => !neg
    | .rd => neg

theorem roundsUp_zero (r : Rnd) (neg : Bool) (q k : Nat) : roundsUp r neg q 0 k = false := rfl

/-- To the nearest: up past the half, and at the half from an odd last place. -/
theorem roundsUp_rne (neg : Bool) (q rest k : Nat) :
    roundsUp .rne neg q rest k = decide (2 ^ k < 2 * rest ∨ (2 * rest = 2 ^ k ∧ q % 2 = 1)) := by
  by_cases hrest : rest = 0
  · have hpos : 0 < 2 ^ k := Nat.two_pow_pos k
    rw [hrest, roundsUp_zero]
    exact (decide_eq_false (by omega)).symm
  · rw [roundsUp, bne_iff_ne.2 hrest, Bool.true_and]

/-- A choice between a number and its successor adds one or nothing. -/
theorem add_ite_one (c : Prop) [Decidable c] (n : Nat) : (n + if c then 1 else 0) = if c then n + 1 else n := by
  split <;> rfl

section Rounding
variable {r : Rnd} {neg : Bool} {m : Nat} {e u : Int}

theorem lt_two_pow_of_log2 {m j : Nat} (h : Nat.log2 m < j) : m < 2 ^ j :=
  Nat.lt_of_lt_of_le Nat.lt_log2_self (Nat.pow_le_pow_right (by decide) h)

/-- A shift by `k` places, of which the short way for a value far below one place is a case. -/
theorem roundShift_eq (hm : m ≠ 0) (k : Nat) : roundShift r neg m k false =
    (m / 2 ^ k + (if roundsUp r neg (m / 2 ^ k) (m % 2 ^ k) k = true then 1 else 0), m % 2 ^ k != 0) := by
  unfold roundShift
  split
  case isTrue hfar =>
    have hhalf : m < 2 ^ (k - 1) := lt_two_pow_of_log2 (by omega)
    have hdouble : 2 ^ k = 2 * 2 ^ (k - 1) := by
      rw [← Nat.pow_succ']
      congr 1
      omega
    have hq : m / 2 ^ k = 0 := Nat.div_eq_of_lt (by omega)
    have hrest : m % 2 ^ k = m := Nat.mod_eq_of_lt (by omega)
    have hne : (m != 0) = true := bne_iff_ne.2 hm
    have hbelow : 2 * m ≤ 2 ^ k := by omega
    rw [hq, hrest]
    cases r <;> simp [roundsUp, hne, hbelow]
  case isFalse =>
    have hrest : m - (m >>> k) <<< k = m % 2 ^ k := by
      rw [Nat.shiftRight_eq_div_pow, Nat.shiftLeft_eq, Nat.mod_eq_sub_div_mul]
    dsimp only
    rw [hrest, Nat.shiftRight_eq_div_pow]
    by_cases hexact : m % 2 ^ k = 0
    · have hpos : (0 : Nat) ≠ 2 ^ k := Nat.ne_of_lt (Nat.two_pow_pos k)
      rw [hexact]
      cases r <;> simp [roundsUp, hpos]
    · have hne : (m % 2 ^ k != 0) = true := bne_iff_ne.2 hexact
      cases r <;> simp [roundsUp, hne, add_ite_one]

/-- What is brought to a place is the cut value or the next, and inexact when the cut leaves something off. -/
theorem roundTo_eq (hm : m ≠ 0) : roundTo r neg m e u false =
    (cutOff m e u + (if roundsUp r neg (cutOff m e u) (cutRest m e u) (u - e).toNat = true then 1 else 0), cutRest m e u != 0) := by
  unfold roundTo cutOff cutRest
  split
  · rw [roundsUp_zero, Nat.shiftLeft_eq]
    rfl
  · exact roundShift_eq hm _

/-- The cut as one quotient and remainder. -/
theorem cutOff_eq_div : cutOff m e u = m * 2 ^ (e - u).toNat / 2 ^ (u - e).toNat := by
  unfold cutOff
  split
  · rw [show (u - e).toNat = 0 by omega, Nat.pow_zero, Nat.div_one]
  · rw [show (e - u).toNat = 0 by omega, Nat.pow_zero, Nat.mul_one]

theorem cutRest_eq_mod : cutRest m e u = m * 2 ^ (e - u).toNat % 2 ^ (u - e).toNat := by
  unfold cutRest
  split
  · rw [show (u - e).toNat = 0 by omega, Nat.pow_zero, Nat.mod_one]
  · rw [show (e - u).toNat = 0 by omega, Nat.pow_zero, Nat.mul_one]

/-- The cut value has the bits above the place and no others. -/
theorem cutOff_lt {b : Nat} (h : Nat.log2 m + e - u < b) : cutOff m e u < 2 ^ b := by
  unfold cutOff
  split
  · have hlt : m < 2 ^ (Nat.log2 m + 1) := Nat.lt_log2_self
    calc m * 2 ^ (e - u).toNat < 2 ^ (Nat.log2 m + 1) * 2 ^ (e - u).toNat := Nat.mul_lt_mul_of_pos_right hlt (Nat.two_pow_pos _)
      _ = 2 ^ (Nat.log2 m + 1 + (e - u).toNat) := (Nat.pow_add ..).symm
      _ ≤ 2 ^ b := Nat.pow_le_pow_right (by decide) (by omega)
  · rw [Nat.div_lt_iff_lt_mul (Nat.two_pow_pos _), ← Nat.pow_add]
    exact lt_two_pow_of_log2 (by omega)

theorem le_cutOff (hm : m ≠ 0) {b : Nat} (h : b ≤ Nat.log2 m + e - u) : 2 ^ b ≤ cutOff m e u := by
  unfold cutOff
  split
  · calc 2 ^ b ≤ 2 ^ (Nat.log2 m + (e - u).toNat) := Nat.pow_le_pow_right (by decide) (by omega)
      _ = 2 ^ Nat.log2 m * 2 ^ (e - u).toNat := Nat.pow_add ..
      _ ≤ m * 2 ^ (e - u).toNat := Nat.mul_le_mul_right _ (Nat.log2_self_le hm)
  · rw [Nat.le_div_iff_mul_le (Nat.two_pow_pos _), ← Nat.pow_add]
    exact Nat.le_trans (Nat.pow_le_pow_right (by decide) (by omega)) (Nat.log2_self_le hm)

end Rounding

/-! ### Patterns of a format (R145) -/

/-- What the patterns of a format rest on: the exponent codes run to twice the bias and one more, which stands for infinity. -/
structure Fmt.Balanced (f : Fmt) : Prop where
  codes : 2 ^ f.eb = 2 * f.bias + 2
  bias_pos : 1 ≤ f.bias

theorem Fmt.balanced {f : Fmt} (hf : f ∈ [fmtF32, fmtF16, fmtBF16]) : f.Balanced := by
  simp only [List.mem_cons, List.not_mem_nil, or_false] at hf
  rcases hf with rfl | rfl | rfl <;> exact ⟨by decide, by decide⟩

/-- The sign bit of a pattern. -/
def Fmt.signed (f : Fmt) (neg : Bool) : Nat := if neg then f.sign else 0

section Patterns
variable {f : Fmt}

theorem Fmt.Balanced.inf_eq (hf : f.Balanced) : f.inf = (2 * f.bias + 1) * 2 ^ f.fb := by
  rw [Fmt.inf, hf.codes]
  rfl

theorem Fmt.Balanced.sign_eq (hf : f.Balanced) : f.sign = (2 * f.bias + 2) * 2 ^ f.fb := by
  rw [Fmt.sign, Nat.pow_add, hf.codes]

/-- The value of a pattern by its three fields, for an exponent code below that of infinity. -/
theorem Fmt.Balanced.decode_fields (hf : f.Balanced) (neg : Bool) {ex fr : Nat} (hex : ex ≤ 2 * f.bias) (hfr : fr < 2 ^ f.fb) :
    FVal.decode f (f.signed neg + (ex * 2 ^ f.fb + fr)) = if ex = 0 then .fin neg fr (1 - (f.bias : Int) - f.fb)
      else .fin neg (2 ^ f.fb + fr) ((ex : Int) - f.bias - f.fb) := by
  have hpos : 0 < 2 ^ f.fb := Nat.two_pow_pos _
  have hcodes := hf.codes
  have hw : f.signed neg + (ex * 2 ^ f.fb + fr) = fr + 2 ^ f.fb * (ex + neg.toNat * 2 ^ f.eb) := by
    have hneg : f.signed neg = 2 ^ f.fb * (neg.toNat * 2 ^ f.eb) := by
      cases neg with
      | false => rw [Bool.toNat_false, Nat.zero_mul, Nat.mul_zero]; rfl
      | true => rw [Bool.toNat_true, Nat.one_mul, ← Nat.pow_add, Nat.add_comm]; rfl
    rw [hneg, Nat.mul_add, Nat.mul_comm ex]
    omega
  have hfrac : (f.signed neg + (ex * 2 ^ f.fb + fr)) % 2 ^ f.fb = fr := by
    rw [hw, Nat.add_mul_mod_self_left, Nat.mod_eq_of_lt hfr]
  have hhigh : (f.signed neg + (ex * 2 ^ f.fb + fr)) / 2 ^ f.fb = ex + neg.toNat * 2 ^ f.eb := by
    rw [hw, Nat.add_mul_div_left _ _ hpos, Nat.div_eq_of_lt hfr, Nat.zero_add]
  have hcode : (f.signed neg + (ex * 2 ^ f.fb + fr)) / 2 ^ f.fb % 2 ^ f.eb = ex := by
    rw [hhigh, Nat.add_mul_mod_self_right, Nat.mod_eq_of_lt (by omega)]
  have hsign : ((f.signed neg + (ex * 2 ^ f.fb + fr)) / f.sign % 2 == 1) = neg := by
    rw [Fmt.sign, Nat.add_comm f.eb, Nat.pow_add, ← Nat.div_div_eq_div_mul, hhigh, Nat.add_mul_div_right _ _ (Nat.two_pow_pos _),
      Nat.div_eq_of_lt (by omega), Nat.zero_add]
    cases neg <;> rfl
  have hfinite : (ex == 2 ^ f.eb - 1) = false := by
    rw [beq_eq_false_iff_ne]
    omega
  unfold FVal.decode
  rw [hsign, hcode, hfrac]
  simp only [hfinite, Bool.false_eq_true, if_false, beq_iff_eq]

/-- A significand at an exponent step: steps above the lowest have the leading bit, which carries into the exponent code. -/
theorem Fmt.Balanced.decode_step (hf : f.Balanced) (neg : Bool) {step q : Nat} (hstep : step + 1 ≤ 2 * f.bias) (hq : q < 2 ^ (f.fb + 1))
    (hlead : step ≠ 0 → 2 ^ f.fb ≤ q) :
    FVal.decode f (f.signed neg + (step * 2 ^ f.fb + q)) = .fin neg q (step + 1 - (f.bias : Int) - f.fb) := by
  rw [Nat.pow_succ] at hq
  by_cases hnormal : 2 ^ f.fb ≤ q
  · obtain ⟨fr, rfl⟩ := Nat.exists_eq_add_of_le hnormal
    have hpattern : step * 2 ^ f.fb + (2 ^ f.fb + fr) = (step + 1) * 2 ^ f.fb + fr := by
      rw [Nat.succ_mul, Nat.add_assoc]
    rw [hpattern, hf.decode_fields neg (by omega) (by omega), if_neg (by omega)]
    push_cast
    rfl
  · have hzero : step = 0 := Decidable.byContradiction fun h => hnormal (hlead h)
    subst hzero
    rw [hf.decode_fields neg (by omega) (by omega), if_pos rfl]
    rfl

end Patterns

/-! ### The pattern of a rounded value (R150) -/

/-- The place at which a value is cut: its last bit in the format, not below that of the subnormal numbers. -/
def Fmt.place (f : Fmt) (m : Nat) (e : Int) : Int := max (Nat.log2 m + e) (1 - f.bias) - f.fb

/-- The exponent steps above the lowest exponent. -/
def Fmt.steps (f : Fmt) (m : Nat) (e : Int) : Nat := (max (Nat.log2 m + e) (1 - f.bias) - (1 - f.bias)).toNat

/-- The significand that the cut keeps, what it leaves off, and whether the mode goes to the next. -/
def Fmt.kept (f : Fmt) (m : Nat) (e : Int) : Nat := cutOff m e (f.place m e)
def Fmt.rest (f : Fmt) (m : Nat) (e : Int) : Nat := cutRest m e (f.place m e)
def Fmt.up (f : Fmt) (r : Rnd) (neg : Bool) (m : Nat) (e : Int) : Bool :=
  roundsUp r neg (f.kept m e) (f.rest m e) (f.place m e - e).toNat

/-- The result of an overflow: infinity, or the greatest finite number toward which the mode goes. -/
def Fmt.overflow (f : Fmt) (r : Rnd) (neg : Bool) : Nat × FpFlags :=
  (f.signed neg + (if r = .rne ∨ (r = .ru ∧ neg = false) ∨ (r = .rd ∧ neg = true) then f.inf else f.inf - 1),
    FpFlags.ovf ||| FpFlags.nx)

section Round
variable {f : Fmt} {r : Rnd} {neg : Bool} {m : Nat} {e : Int}

theorem Fmt.round_overflow (htop : f.bias < Nat.log2 m + e) : f.round r neg m e false = f.overflow r neg := by
  unfold Fmt.round
  dsimp only
  rw [if_pos htop]
  cases r <;> cases neg <;> rfl

/-- The kept significand fits the format, and has its leading bit above the lowest exponent. -/
theorem Fmt.kept_lt : f.kept m e < 2 ^ (f.fb + 1) := by
  refine cutOff_lt ?_
  unfold Fmt.place
  omega

theorem Fmt.le_kept (hm : m ≠ 0) (h : f.steps m e ≠ 0) : 2 ^ f.fb ≤ f.kept m e := by
  refine le_cutOff hm ?_
  unfold Fmt.steps at h
  unfold Fmt.place
  omega

/-- What rounding gives below the overflow, but for the range in which an inexact result is tiny. -/
theorem Fmt.round_eq (hm : m ≠ 0) (htop : Nat.log2 m + e ≤ f.bias) :
    let bits := f.steps m e * 2 ^ f.fb + (f.kept m e + (if f.up r neg m e = true then 1 else 0))
    ∃ tiny, f.round r neg m e false = if f.inf ≤ bits then f.overflow r neg else
      (f.signed neg + bits, FpFlags.when (f.rest m e != 0) FpFlags.nx ||| FpFlags.when (f.rest m e != 0 && tiny) FpFlags.unf) := by
  have hmax : (if Nat.log2 m + e < 1 - f.bias then 1 - (f.bias : Int) else Nat.log2 m + e) = max (Nat.log2 m + e) (1 - f.bias) := by
    omega
  unfold Fmt.round
  dsimp only
  rw [if_neg (Int.not_lt.2 htop), hmax, roundTo_eq hm]
  cases r <;> cases neg <;> exact ⟨_, rfl⟩

/-- The exponent steps below the overflow. -/
theorem Fmt.Balanced.steps_le (hf : f.Balanced) (htop : Nat.log2 m + e ≤ f.bias) : f.steps m e + 1 ≤ 2 * f.bias := by
  have := hf.bias_pos
  unfold Fmt.steps
  omega

/-- The kept pattern lies below infinity. -/
theorem Fmt.Balanced.kept_lt_inf (hf : f.Balanced) (htop : Nat.log2 m + e ≤ f.bias) : f.steps m e * 2 ^ f.fb + f.kept m e < f.inf := by
  have hkept : f.kept m e < 2 ^ f.fb * 2 := f.kept_lt
  calc f.steps m e * 2 ^ f.fb + f.kept m e < f.steps m e * 2 ^ f.fb + 2 ^ f.fb * 2 := by omega
    _ = (f.steps m e + 2) * 2 ^ f.fb := by rw [Nat.add_mul, Nat.mul_comm 2]
    _ ≤ (2 * f.bias + 1) * 2 ^ f.fb := Nat.mul_le_mul_right _ (by have := hf.steps_le htop; omega)
    _ = f.inf := hf.inf_eq.symm

/-- A mode that goes up goes to infinity when it overflows. -/
theorem Fmt.overflow_of_up (h : f.up r neg m e = true) : f.overflow r neg = (f.signed neg + f.inf, FpFlags.ovf ||| FpFlags.nx) := by
  have hmode : r = .rne ∨ (r = .ru ∧ neg = false) ∨ (r = .rd ∧ neg = true) := by
    have hgoes := (Bool.and_eq_true_iff.1 h).2
    cases r <;> simp at hgoes ⊢ <;> exact hgoes
  rw [Fmt.overflow, if_pos hmode]

/-- Of the flags of a rounding NX stands for the inexact result, tiny or not. -/
theorem rounding_nx (inexact tiny : Bool) :
    (FpFlags.when inexact FpFlags.nx ||| FpFlags.when (inexact && tiny) FpFlags.unf) &&& FpFlags.nx = 0 ↔ inexact = false := by
  cases inexact <;> cases tiny <;> decide

/-- A mode goes up from an inexact result alone. -/
theorem Fmt.rest_ne_of_up (h : f.up r neg m e = true) : f.rest m e ≠ 0 := fun hrest => by
  rw [Fmt.up, hrest, roundsUp_zero] at h
  cases h

section Below
variable (hf : f.Balanced) (hm : m ≠ 0) (htop : Nat.log2 m + e ≤ f.bias)
include hf hm htop

/-- The pattern is the kept one or the next, which is infinity's when the greatest finite number rounds up; NX says that the cut leaves
something off. -/
theorem Fmt.Balanced.round_spec :
    (f.round r neg m e false).1 = f.signed neg + (f.steps m e * 2 ^ f.fb + f.kept m e) + (if f.up r neg m e = true then 1 else 0) ∧
      ((f.round r neg m e false).2 &&& FpFlags.nx = 0 ↔ f.rest m e = 0) := by
  have hlt := hf.kept_lt_inf htop
  obtain ⟨tiny, hround⟩ := f.round_eq (r := r) (neg := neg) hm htop
  rw [hround]
  by_cases hinf : f.inf ≤ f.steps m e * 2 ^ f.fb + (f.kept m e + (if f.up r neg m e = true then 1 else 0))
  · have hup : f.up r neg m e = true := Decidable.byContradiction fun h => by
      rw [if_neg h] at hinf
      omega
    rw [if_pos hinf, Fmt.overflow_of_up hup, if_pos hup]
    rw [if_pos hup] at hinf
    have hflag : (FpFlags.ovf ||| FpFlags.nx) &&& FpFlags.nx ≠ 0 := by decide
    exact ⟨by dsimp only; omega, iff_of_false hflag (Fmt.rest_ne_of_up hup)⟩
  · rw [if_neg hinf]
    exact ⟨by dsimp only; omega, (rounding_nx _ tiny).trans bne_eq_false_iff_eq⟩

theorem Fmt.Balanced.round_rz_fst : (f.round .rz neg m e false).1 = f.signed neg + (f.steps m e * 2 ^ f.fb + f.kept m e) := by
  have hstay : f.up .rz neg m e = false := Bool.and_false _
  rw [(hf.round_spec hm htop).1, hstay]
  rfl

/-- Toward zero the pattern holds the value cut off at its last place. -/
theorem Fmt.Balanced.decode_round_rz : FVal.decode f (f.round .rz neg m e false).1 = .fin neg (f.kept m e) (f.place m e) := by
  have hplace : (f.steps m e : Int) + 1 - f.bias - f.fb = f.place m e := by
    unfold Fmt.steps Fmt.place
    omega
  rw [hf.round_rz_fst hm htop, hf.decode_step neg (hf.steps_le htop) f.kept_lt (Fmt.le_kept hm), hplace]

end Below

end Round
end Sys2Proof

/-! ## Conversions and dot products (R147, R158, R419, R420, R421) -/

namespace Sys2Proof

theorem FpFlags.foldl_or_eq_zero (l : List FpFlags) (x : FpFlags) : l.foldl (· ||| ·) x = 0 ↔ x = 0 ∧ ∀ y ∈ l, y = 0 := by
  induction l generalizing x with
  | nil => simp
  | cons y l ih =>
    have hor : x ||| y = 0 ↔ x = 0 ∧ y = 0 := BitVec.or_eq_zero_iff
    rw [List.foldl_cons, ih, hor, List.forall_mem_cons, and_assoc]

/-- No flag is raised exactly when no element raises one (R153). -/
theorem FpFlags.join_eq_zero (l : List FpFlags) : FpFlags.join l = 0 ↔ ∀ y ∈ l, y = 0 :=
  (FpFlags.foldl_or_eq_zero l 0).trans (and_iff_right rfl)

/-- A pattern of `w` bits stands for its two's-complement integer. -/
theorem elemInt_toNat {w : Nat} (hw : 0 < w) (x : BitVec w) : elemInt true w x.toNat = x.toInt := by
  have hdouble : 2 ^ (w - 1) * 2 = 2 ^ w := Nat.two_pow_pred_mul_two hw
  have hhalf : 2 ^ (w - 1) ≤ x.toNat ↔ ¬2 * x.toNat < 2 ^ w := by
    rw [← hdouble]
    omega
  simp only [elemInt_eq, BitVec.toInt_eq_toNat_cond, true_and, hhalf, ite_not, cast_two_pow]

end Sys2Proof

namespace Sys2Proof.Machine
open Sys2Proof.Safety

/-- A slot that computes one register lane by lane writes those words and raises the flags of its lanes. -/
theorem exec_mapped {s : State} {i : Instr} {t : RowSlot} {la : BitVec 4} {ops : RowSlot → List Operand}
    {dep : LaneMask → List Source → Deps} {srcs : List Source} {d : Nat} {word : List Source → Nat → Word × FpFlags}
    {tag : List Source → Tag}
    (hexec : exec i s = computeSlot s i la ops dep fun _ part srcs =>
      { writes := [(d, (mapLanes part (word srcs)).1)], tag := tag srcs, flags := (mapLanes part (word srcs)).2 })
    (hturn : RowTurn s i t) (hready : Readable s t i (ops t) dep srcs) (hd : d < t.r.regs.length) :
    ∃ s', exec i s = .next s' ∧ RowWrote s t i s' (only d fun l => (word srcs l).1)
      (FpFlags.join ((List.range 64).map fun l => if (t.part i).getLsbD l = true then (word srcs l).2 else 0)) := by
  refine ⟨_, hexec.trans (computeSlot_ok hturn hready), ?_⟩
  rw [← mapLanes_flags]
  refine laneDone_wrote la _ hturn (fun w hw => ?_) rfl rfl fun k => ?_
  · rw [List.mem_singleton.1 hw]
    exact hd
  · by_cases hk : k = d
    · rw [only, if_pos hk]
      exact ⟨_, List.find?_cons_of_pos (beq_iff_eq.2 hk.symm), fun l => mapLanes_get _⟩
    · rw [only, if_neg hk]
      exact List.find?_cons_of_neg fun h => hk (beq_iff_eq.1 h).symm

/-- The byte `k` of a word, as VDOT4 reads it. -/
theorem elemAt_byte (x : Word) (k : Nat) : elemAt 8 x k = (x.extractLsb' (8 * k) 8).toNat := by
  rw [BitVec.extractLsb'_toNat, Nat.shiftRight_eq_div_pow]
  rfl

theorem intOf_byte {t : ElemTy} (ht : t = .i8 ∨ t = .n8) (b : Byte) : intOf t b.toNat = if t = .i8 then b.toInt else (b.toNat : Int) := by
  rcases ht with rfl | rfl
  · exact elemInt_toNat (by decide) b
  · rfl

/-- A fold that adds is the sum. -/
theorem foldl_add_eq_sum {α : Type} (g : α → Int) (l : List α) (z : Int) :
    l.foldl (fun acc x => acc + g x) z = z + (l.map g).sum := by
  induction l generalizing z with
  | nil => simp
  | cons x l ih => rw [List.foldl_cons, ih, List.map_cons, List.sum_cons, Int.add_assoc]

/-- The exact dot product of four bytes and a word. -/
def dotOf (t : ElemTy) (a b c : Word) : Int :=
  ((List.range 4).map fun k => intOf t (elemAt 8 a k) * intOf t (elemAt 8 b k)).sum + c.toInt

theorem dotWord_eq (t : ElemTy) (sat : Bool) (a b c : Word) : dotWord t sat a b c =
    (BitVec.ofNat 32 (narrowInt sat true 32 (dotOf t a b c)).1, (narrowInt sat true 32 (dotOf t a b c)).2) := by
  have hsum : (List.range 4).foldl (fun (z : Int) k => z + intOf t (elemAt 8 a k) * intOf t (elemAt 8 b k)) c.toInt =
      dotOf t a b c := (foldl_add_eq_sum _ _ _).trans (Int.add_comm ..)
  unfold dotWord
  rw [hsum]

theorem exec_vdot4 {s : State} {t : RowSlot} {srcs : List Source} {f : LForm} (hd : f.vd.toNat < t.r.regs.length)
    (hturn : RowTurn s (.vdot4 f) t)
    (hready : Readable s t (.vdot4 f) [vaOp t f.va, vbOp t f.vb, plainOp f.vc.toNat] (ownLane 3) srcs) :
    let word := fun l => dotWord f.t (f.fn == 1) (srcWord srcs 0 l) (srcWord srcs 1 l) (srcWord srcs 2 l)
    ∃ s', exec (.vdot4 f) s = .next s' ∧ RowWrote s t (.vdot4 f) s' (only f.vd.toNat fun l => (word l).1)
      (FpFlags.join ((List.range 64).map fun l => if (t.part (.vdot4 f)).getLsbD l = true then (word l).2 else 0)) :=
  exec_mapped (ops := fun t => [vaOp t f.va, vbOp t f.vb, plainOp f.vc.toNat])
    (word := fun srcs l => dotWord f.t (f.fn == 1) (srcWord srcs 0 l) (srcWord srcs 1 l) (srcWord srcs 2 l)) rfl hturn hready hd

/-- The word of an integer, wrapped. -/
theorem ofNat_wrapInt (z : Int) : BitVec.ofNat 32 (wrapInt 32 z) = BitVec.ofInt 32 z := by
  rw [show wrapInt 32 z = (BitVec.ofInt 32 z).toNat from congrArg Prod.fst (fitInt_i32 z), BitVec.ofNat_toNat, BitVec.setWidth_eq]

/-- The word of an integer, clamped, and the flag of the clamp. -/
theorem narrowInt_clamp_word (z : Int) :
    BitVec.ofNat 32 (narrowInt true true 32 z).1 = BitVec.ofInt 32 (max (-2 ^ 31) (min (2 ^ 31 - 1) z)) :=
  (ofNat_wrapInt _).trans (congrArg _ (clampInt_eq (signed := true) (w := 32) z).1)

theorem narrowInt_clamp_flag (z : Int) : (narrowInt true true 32 z).2 = 0 ↔ -2 ^ 31 ≤ z ∧ z < 2 ^ 31 :=
  (narrowInt_clamp (signed := true) (by decide) z).2.trans (and_congr_right fun _ => Int.le_sub_one_iff)

/-- The participating lanes raise no flag exactly when each of them raises none. -/
theorem laneFlags_eq_zero (part : LaneMask) (fl : Nat → FpFlags) :
    FpFlags.join ((List.range 64).map fun l => if part.getLsbD l = true then fl l else 0) = 0 ↔
      ∀ l, l < 64 → part.getLsbD l = true → fl l = 0 := by
  simp only [FpFlags.join_eq_zero, List.forall_mem_map, List.mem_range, ite_eq_right_iff]

/-- VDOT4 wraps: the dot product's word in the participating lanes, and no flag. -/
theorem exec_vdot4_wrap {s : State} {t : RowSlot} {srcs : List Source} {f : LForm} (hfn : f.fn = 0) (hd : f.vd.toNat < t.r.regs.length)
    (hturn : RowTurn s (.vdot4 f) t)
    (hready : Readable s t (.vdot4 f) [vaOp t f.va, vbOp t f.vb, plainOp f.vc.toNat] (ownLane 3) srcs) :
    ∃ s', exec (.vdot4 f) s = .next s' ∧ RowWrote s t (.vdot4 f) s' (only f.vd.toNat fun l =>
      BitVec.ofInt 32 (dotOf f.t (srcWord srcs 0 l) (srcWord srcs 1 l) (srcWord srcs 2 l))) 0 := by
  have hsat : (f.fn == 1) = false := by rw [hfn]; rfl
  have hflags := (laneFlags_eq_zero (t.part (.vdot4 f)) fun _ => 0).2 fun _ _ _ => rfl
  have hwrote := exec_vdot4 hd hturn hready
  simp only [hsat, dotWord_eq, narrowInt, Bool.false_eq_true, if_false, ofNat_wrapInt] at hwrote
  rwa [hflags] at hwrote

/-- VDOT4 clamps: the nearest signed word, and a flag exactly when some participating lane is out of range. -/
theorem exec_vdot4_clamp {s : State} {t : RowSlot} {srcs : List Source} {f : LForm} (hfn : f.fn = 1) (hd : f.vd.toNat < t.r.regs.length)
    (hturn : RowTurn s (.vdot4 f) t)
    (hready : Readable s t (.vdot4 f) [vaOp t f.va, vbOp t f.vb, plainOp f.vc.toNat] (ownLane 3) srcs) :
    let dot := fun l => dotOf f.t (srcWord srcs 0 l) (srcWord srcs 1 l) (srcWord srcs 2 l)
    ∃ s' fl, exec (.vdot4 f) s = .next s' ∧
      RowWrote s t (.vdot4 f) s' (only f.vd.toNat fun l => BitVec.ofInt 32 (max (-2 ^ 31) (min (2 ^ 31 - 1) (dot l)))) fl ∧
      (fl = 0 ↔ ∀ l, l < 64 → (t.part (.vdot4 f)).getLsbD l = true → -2 ^ 31 ≤ dot l ∧ dot l < 2 ^ 31) := by
  intro dot
  have hsat : (f.fn == 1) = true := by rw [hfn]; rfl
  obtain ⟨s', hexec, hwrote⟩ := exec_vdot4 hd hturn hready
  simp only [hsat, dotWord_eq, narrowInt_clamp_word] at hwrote
  refine ⟨s', _, hexec, hwrote, ?_⟩
  simp only [laneFlags_eq_zero, narrowInt_clamp_flag, dot]

/-- Settles O35: VCVT and VCVTACC by `exec_mapped`, VDOT4 by `exec_vdot4_wrap` and `exec_vdot4_clamp`, the rounding by `round_spec`,
`decode_round_rz` and `round_overflow`. -/
theorem conversionResults : Obligations.ConversionResults := by
  unfold Obligations.ConversionResults
  refine ⟨fun s t srcs f hd => ⟨?vcvt, ?vcvtAcc, ?vdot4⟩, fun f r neg m e hmem hm => ?rounding⟩
  case vcvt =>
    intro src narrow w hturn hready
    have hready' : Readable s t (.vcvt f) (vaOp t f.va :: if decide narrow = true then [plainOp f.vd.toNat] else [])
        (ownLane (if decide narrow = true then 2 else 1)) srcs := by
      simpa only [decide_eq_true_eq] using hready
    exact exec_mapped (ops := fun t => vaOp t f.va :: if decide narrow = true then [plainOp f.vd.toNat] else [])
      (word := fun srcs l => convWord src f.t f.rnd (f.vc.toNat % 128) (srcWord srcs 1 l) (srcWord srcs 0 l)) rfl hturn hready' hd
  case vcvtAcc =>
    intro w hturn hready
    have hword : ∀ l, w l = convAcc f (srcWord srcs 0 l) (srcWord srcs 1 l) := fun l => by
      simp only [w, convAcc, beq_iff_eq]
    simp only [hword]
    exact exec_mapped (ops := fun t => [vaOp t f.va, vbOp t f.vb])
      (word := fun srcs l =>
        (BitVec.ofNat 32 (convAcc f (srcWord srcs 0 l) (srcWord srcs 1 l)).1, (convAcc f (srcWord srcs 0 l) (srcWord srcs 1 l)).2))
      rfl hturn hready hd
  case vdot4 =>
    intro byte val dot ht hturn hready
    have hdot : ∀ l, dotOf f.t (srcWord srcs 0 l) (srcWord srcs 1 l) (srcWord srcs 2 l) = dot l := fun l => by
      unfold dotOf
      simp only [elemAt_byte, intOf_byte ht]
      rfl
    constructor
    · intro hfn
      simpa only [hdot] using exec_vdot4_wrap hfn hd hturn hready
    · intro hfn
      simpa only [hdot] using exec_vdot4_clamp hfn hd hturn hready
  case rounding =>
    intro top u k q rem up
    have hf : f.Balanced := Fmt.balanced hmem
    refine ⟨fun htop => ⟨hf.decode_round_rz hm htop, ?_, (hf.round_spec hm htop).2⟩, fun htop => Fmt.round_overflow htop⟩
    rw [(hf.round_spec hm htop).1, hf.round_rz_fst hm htop]
    rfl

end Sys2Proof.Machine

/-! ## The sums of the matrix array (R149, R151, R168-R170) -/

namespace Sys2Proof

/-- The default NaN and the infinities of the A36 containers, and a finite pattern with its sign. -/
def a36Nan : Nat := 0x7FC000000
def a36Signed (neg : Bool) (x : Nat) : Nat := (if neg then 2 ^ 35 else 0) + x
def a36Inf (neg : Bool) : Nat := a36Signed neg (255 * 2 ^ 27)

theorem roundA36_zero (neg : Bool) (e : Int) : roundA36 (.fin neg 0 e) = a36Signed neg 0 := rfl

/-- RoundA36 of a finite value (R151): the nearest significand of 28 bits, a carry moves the exponent, what is too large is infinity,
what lies below the normal range is zero. -/
theorem roundA36_fin {neg : Bool} {m : Nat} {e : Int} (hm : m ≠ 0) :
    let top : Int := Nat.log2 m + e
    let step := 2 ^ (top - 27 - e).toNat
    let x := m * 2 ^ (e - (top - 27)).toNat
    let q := if step < 2 * (x % step) ∨ (2 * (x % step) = step ∧ x / step % 2 = 1) then x / step + 1 else x / step
    let full := decide (q = 2 ^ 28)
    let place := if full then top + 1 else top
    roundA36 (.fin neg m e) = a36Signed neg (if 127 < place then 255 * 2 ^ 27 else if place < -126 then 0
      else (place + 127).toNat * 2 ^ 27 + ((if full then 2 ^ 27 else q) - 2 ^ 27)) := by
  intro top step x q full place
  have hround : roundTo .rne neg m e (top - 27) false = (q, cutRest m e (top - 27) != 0) := by
    rw [roundTo_eq hm, roundsUp_rne, cutOff_eq_div, cutRest_eq_mod]
    simp only [q, decide_eq_true_eq, add_ite_one]
    rfl
  have hzero : (m == 0) = false := beq_eq_false_iff_ne.2 hm
  unfold roundA36
  dsimp only
  rw [hzero, hround]
  dsimp only
  have hcarry : (if (q == 2 ^ 28) = true then (2 ^ 27, (Nat.log2 m : Int) + e + 1) else (q, (Nat.log2 m : Int) + e)) =
      (if full = true then 2 ^ 27 else q, place) := by
    simp only [place, full, beq_iff_eq, decide_eq_true_eq]
    split <;> rfl
  rw [hcarry, if_neg Bool.false_ne_true]
  dsimp only
  split
  · rfl
  · split
    · rfl
    · exact Nat.add_assoc ..

theorem signedUnits_eq_cast (neg : Bool) (m k : Nat) :
    signedUnits neg m k = (if neg = true then -1 else 1) * ((m * 2 ^ k : Nat) : Int) := by
  rw [signedUnits, Int.natCast_mul, cast_two_pow, Int.mul_assoc]

/-- Two terms of one sign cancel when both are zero. -/
theorem eq_zero_of_signedUnits_add {i : Bool} {m k a b : Nat} (h : signedUnits i m a + signedUnits i k b = 0) : m = 0 := by
  refine (signedUnits_eq_zero (neg := i) (k := a)).1 ?_
  rw [signedUnits_eq_shift, signedUnits_eq_shift] at h
  rw [signedUnits_eq_shift]
  generalize m <<< a = x at h ⊢
  generalize k <<< b = y at h
  cases i <;> simp only [Bool.false_eq_true, if_true, if_false] at h ⊢ <;> omega

/-- A sum of two finite values (R151, R168 step 5): a zero is negative when both are. -/
theorem roundA36_add_fin (i j : Bool) (m k : Nat) (g h : Int) :
    let z := signedUnits i m (g - min g h).toNat + signedUnits j k (h - min g h).toNat
    roundA36 (FVal.add .rne (.fin i m g) (.fin j k h)).1 =
      if z = 0 then a36Signed (i && j) 0 else roundA36 (.fin (decide (z < 0)) z.natAbs (min g h)) := by
  intro z
  rw [FVal.add_fin]
  by_cases hz : z = 0
  · have hsign : (if m = 0 ∧ i = j then i else Rnd.rne == Rnd.rd) = (i && j) := by
      by_cases hij : i = j
      · subst hij
        rw [if_pos ⟨eq_zero_of_signedUnits_add hz, rfl⟩, Bool.and_self]
      · rw [if_neg fun h => hij h.2]
        cases i <;> cases j <;> trivial
    rw [if_pos hz, if_pos hz, hsign]
    rfl
  · rw [if_neg hz, if_neg hz]
    rfl

theorem a36Add_eq {acc : Nat} {x : FVal} (h : a36Decode acc = x) (y : FVal) : a36Add acc y = roundA36 (FVal.add .rne x y).1 := by
  rw [a36Add, h]

/-- An infinity times a finite value. -/
theorem FVal.mul_inf_fin (i j : Bool) (m : Nat) (g : Int) :
    (FVal.mul (.inf i) (.fin j m g)).1 = if m = 0 then .nan true else .inf (i != j) := by
  simp only [FVal.mul, beq_iff_eq, apply_ite Prod.fst]

theorem FVal.mul_fin_inf (i j : Bool) (m : Nat) (g : Int) :
    (FVal.mul (.fin i m g) (.inf j)).1 = if m = 0 then .nan true else .inf (i != j) := by
  simp only [FVal.mul, beq_iff_eq, apply_ite Prod.fst, bne_comm (a := i)]

end Sys2Proof

namespace Sys2Proof.Machine

/-- The exact sum of the sixteen products of two blocks (R168 step 2). -/
theorem blockSum_eq {a w : MatBlock} (ha : a.elems.length = 16) (hw : w.elems.length = 16) :
    let elem := fun (b : MatBlock) (k : Nat) => b.elems.getD k ⟨false, 0, 0⟩
    blockSum a w = ((List.range 16).map fun k => (if (elem a k).neg != (elem w k).neg then -1 else 1) *
      (((elem a k).m * (elem w k).m * 2 ^ ((3 - (elem a k).delta) + (3 - (elem w k).delta)) : Nat) : Int)).sum := by
  intro elem
  have hzip : a.elems.zip w.elems = (List.range 16).map fun k => (elem a k, elem w k) := by
    refine List.ext_getElem (by simp [ha, hw]) fun k h1 h2 => ?_
    have hk : k < 16 := by simpa using h2
    simp [elem, List.getD_eq_getElem?_getD, ha, hw, hk]
  unfold blockSum
  rw [hzip, List.foldl_map]
  dsimp only
  rw [foldl_add_eq_sum, Int.zero_add]
  refine congrArg List.sum (List.map_congr_left fun k _ => ?_)
  split
  · exact (Int.neg_one_mul _).symm
  · exact (Int.one_mul _).symm

/-- A block sum of exponent `e` times the scale (R168 steps 3 and 4). -/
def scaleBlock (sum : Int) (e : Int) (scale : FVal) : Nat :=
  match (FVal.mul (FVal.ofInt sum e) scale).1 with
  | .fin n m e => if m == 0 then roundA36 (.fin false 0 0) else roundA36 (.fin n m e)
  | v => roundA36 v

theorem blockProduct_nan {M : Nat} {a w : MatBlock} {rs cs : BitVec 16} (h : a.e = 255 ∨ w.e = 255) :
    blockProduct M a w rs cs = a36Nan := by
  unfold blockProduct
  exact if_pos (by simpa using h)

theorem blockProduct_eq {M : Nat} {a w : MatBlock} (ha : a.e ≠ 255) (hw : w.e ≠ 255) (rs cs : BitVec 16) :
    blockProduct M a w rs cs = scaleBlock (blockSum a w) ((a.e : Int) + w.e - 254 - 2 * ((M : Int) - 1) - 6)
      (FVal.mul (FVal.decode fmtF16 rs.toNat) (FVal.decode fmtF16 cs.toNat)).1 := by
  unfold blockProduct
  exact if_neg (by simp [ha, hw])

section Scale
variable {z e : Int}

theorem scaleBlock_nan (q : Bool) : scaleBlock z e (.nan q) = a36Nan := rfl

/-- An infinite scale: a NaN on a zero sum, else the infinity of the product's sign. -/
theorem scaleBlock_inf (i : Bool) : scaleBlock z e (.inf i) = if z = 0 then a36Nan else a36Inf (decide (z < 0) != i) := by
  by_cases hz : z = 0
  · subst hz
    rfl
  · have hzero : (z.natAbs == 0) = false := by simpa using hz
    unfold scaleBlock FVal.ofInt FVal.mul
    dsimp only
    rw [hzero, if_neg hz]
    exact congrArg a36Inf bne_comm

/-- An infinite scale with a finite one, which makes a NaN when it is zero. -/
theorem scaleBlock_inf_or_nan (i : Bool) (m : Nat) : scaleBlock z e (if m = 0 then .nan true else .inf i) =
    if m = 0 ∨ z = 0 then a36Nan else a36Inf (decide (z < 0) != i) := by
  by_cases hm : m = 0
  · rw [if_pos hm, if_pos (.inl hm), scaleBlock_nan]
  · rw [if_neg hm, scaleBlock_inf]
    simp only [hm, false_or]

theorem scaleBlock_mul_inf_fin (i j : Bool) (m : Nat) (g : Int) : scaleBlock z e (FVal.mul (.inf i) (.fin j m g)).1 =
    if m = 0 ∨ z = 0 then a36Nan else a36Inf (decide (z < 0) != (i != j)) := by
  rw [FVal.mul_inf_fin, scaleBlock_inf_or_nan]

theorem scaleBlock_mul_fin_inf (i j : Bool) (m : Nat) (g : Int) : scaleBlock z e (FVal.mul (.fin i m g) (.inf j)).1 =
    if m = 0 ∨ z = 0 then a36Nan else a36Inf (decide (z < 0) != (i != j)) := by
  rw [FVal.mul_fin_inf, scaleBlock_inf_or_nan]

/-- A finite scale: the exact product, rounded once. -/
theorem scaleBlock_fin (i : Bool) (m : Nat) (g : Int) : scaleBlock z e (.fin i m g) =
    if z = 0 ∨ m = 0 then 0 else roundA36 (.fin (decide (z < 0) != i) (z.natAbs * m) (e + g)) := by
  have hzero : (z.natAbs * m == 0) = true ↔ z = 0 ∨ m = 0 := by
    rw [beq_iff_eq, Nat.mul_eq_zero, Int.natAbs_eq_zero]
  unfold scaleBlock FVal.ofInt FVal.mul
  dsimp only
  by_cases hz : z = 0 ∨ m = 0
  · rw [if_pos (hzero.2 hz), if_pos hz]
    rfl
  · rw [if_neg (mt hzero.1 hz), if_neg hz]

end Scale

/-! ### Elements of blocks (R162, R168) -/

/-- A block has sixteen elements, each with its sign, its mantissa and the step of its quad. -/
theorem matBlock_length (width : Nat) (bs : List Byte) : (matBlock width bs).elems.length = 16 := by
  simp [matBlock, SxBlock.ofBytes]

theorem matBlock_elem (width : Nat) (bs : List Byte) {k : Nat} (hk : k < 16) :
    let field := leNat (bs.drop 2) / 2 ^ ((width + 1) * k) % 2 ^ (width + 1)
    (matBlock width bs).elems[k]? =
      some ⟨decide (field / 2 ^ width = 1), field % 2 ^ width, (bs.getD 1 0).toNat / 4 ^ (k / 4) % 4⟩ := by
  intro field
  have hquad : k / 4 < 4 := by omega
  have hsteps : ((List.range 4).map fun q => (bs.getD 1 0).toNat / 4 ^ q % 4).getD (k / 4) 0 =
      (bs.getD 1 0).toNat / 4 ^ (k / 4) % 4 := by
    simp [List.getD_eq_getElem?_getD, hquad]
  unfold matBlock SxBlock.ofBytes
  dsimp only
  rw [List.getElem?_map, List.getElem?_zipIdx, List.getElem?_map, List.getElem?_range hk]
  dsimp only [Option.map]
  rw [Nat.zero_add, hsteps]
  rfl

/-! ### Cells (R149, R170, R171, R182) -/

/-- A byte of a tile without blocks. -/
theorem tileElem_int8 (tile : List Byte) (k n : Nat) : tileElem 3 tile k n = (tile.getD (k * 256 + n) 0).toNat := by
  have htake : ∀ l : List Byte, leNat (l.take 1) = (l.getD 0 0).toNat := fun l => by
    cases l with
    | nil => rfl
    | cons b l => rfl
  show leNat ((tile.drop ((k * 256 + n) * 1)).take 1) = _
  rw [htake, Nat.mul_one]
  simp [List.getD_eq_getElem?_getD]

/-- An INT8 product whose sum stays within 36 bits is added exactly. -/
theorem addInt8_exact {acc : Nat} {a w : Byte} (hit : Bool)
    (hlo : -2 ^ 35 ≤ elemInt true 36 acc + a.toInt * w.toInt) (hhi : elemInt true 36 acc + a.toInt * w.toInt < 2 ^ 35) :
    addInt8 (acc, hit) a w = (wrapInt 36 (elemInt true 36 acc + a.toInt * w.toInt), hit) := by
  generalize hz : elemInt true 36 acc + a.toInt * w.toInt = z at hlo hhi
  have hclamp : clampInt true 36 z = (z, false) := by
    obtain ⟨hval, hhit⟩ := clampInt_eq (signed := true) (w := 36) z
    refine Prod.ext (hval.trans ?_) (hhit.2 ⟨hlo, Int.le_sub_one_of_lt hhi⟩)
    show max (-2 ^ 35) (min (2 ^ 35 - 1) z) = z
    omega
  unfold addInt8
  dsimp only
  rw [hz, hclamp, Bool.or_false]

/-- An INT8 product that would pass the top of 36 bits leaves the greatest value, and the column's flag. -/
theorem addInt8_above {acc : Nat} {a w : Byte} (hit : Bool) (h : 2 ^ 35 ≤ elemInt true 36 acc + a.toInt * w.toInt) :
    addInt8 (acc, hit) a w = (2 ^ 35 - 1, true) := by
  generalize hz : elemInt true 36 acc + a.toInt * w.toInt = z at h
  have hclamp : clampInt true 36 z = (2 ^ 35 - 1, true) := by
    obtain ⟨hval, hhit⟩ := clampInt_eq (signed := true) (w := 36) z
    refine Prod.ext (hval.trans ?_) (eq_true_of_ne_false fun hin => ?_)
    · show max (-2 ^ 35) (min (2 ^ 35 - 1) z) = 2 ^ 35 - 1
      omega
    · have htop : z ≤ 2 ^ 35 - 1 := (hhit.1 hin).2
      omega
  unfold addInt8
  dsimp only
  rw [hz, hclamp, Bool.or_true]
  rfl

/-- The weight of logical position `k` of an INT8 column. -/
def int8Weight (md : Option (List Lanes)) (tile : List Byte) (n k : Nat) : Byte :=
  match md with
  | none => tile.getD (k * 256 + n) 0
  | some regs => BitVec.ofNat 8 (sparseElem tile regs k n)

/-- The products of a column up to position `j`. -/
def int8Sum (md : Option (List Lanes)) (tile act : List Byte) (n j : Nat) : Int :=
  ((List.range j).map fun k => (act.getD k 0).toInt * (int8Weight md tile n k).toInt).sum

theorem matrixCell_int8 (md : Option (List Lanes)) (tile act : List Byte) (acc : Nat) (rs cs : BitVec 16) (n : Nat) :
    matrixCell 3 md tile act acc rs cs n = (List.range (if md.isSome then 512 else 256)).foldl
      (fun acc k => addInt8 acc (act.getD k 0) (int8Weight md tile n k)) (acc, false) := by
  cases md with
  | none =>
    unfold matrixCell int8Weight
    simp only [tileElem_int8, BitVec.ofNat_toNat, BitVec.setWidth_eq]
    rfl
  | some regs => rfl

/-- As long as every partial sum stays within 36 bits, the products of a column add up exactly and nothing is clamped (R149). -/
theorem foldl_addInt8 {md : Option (List Lanes)} {tile act : List Byte} {acc n last : Nat} (hacc : acc < 2 ^ 36)
    (h : ∀ j, j ≤ last →
      -2 ^ 35 ≤ elemInt true 36 acc + int8Sum md tile act n j ∧ elemInt true 36 acc + int8Sum md tile act n j < 2 ^ 35) :
    ∃ out, (List.range last).foldl (fun acc k => addInt8 acc (act.getD k 0) (int8Weight md tile n k)) (acc, false) = (out, false) ∧
      out < 2 ^ 36 ∧ elemInt true 36 out = elemInt true 36 acc + int8Sum md tile act n last := by
  induction last with
  | zero => exact ⟨acc, rfl, hacc, (Int.add_zero _).symm⟩
  | succ last ih =>
    obtain ⟨out, hfold, -, hout⟩ := ih fun j hj => h j (by omega)
    have hstep : int8Sum md tile act n (last + 1) =
        int8Sum md tile act n last + (act.getD last 0).toInt * (int8Weight md tile n last).toInt := by
      simp [int8Sum, List.range_succ]
    obtain ⟨hlo, hhi⟩ := h (last + 1) (Nat.le_refl _)
    rw [hstep, ← Int.add_assoc, ← hout] at hlo hhi
    refine ⟨_, ?_, wrapInt_lt _, (elemInt_wrapInt (signed := true) (by decide) hlo (Int.le_sub_one_of_lt hhi)).trans ?_⟩
    · rw [List.range_succ, List.foldl_append, hfold]
      exact addInt8_exact false hlo hhi
    · rw [hstep, ← Int.add_assoc, hout]

/-- An SX cell adds one exact block product after another. -/
theorem matrixCell_sx {fn width : Nat} (h : (fn, width) ∈ [(0, 2), (1, 4), (2, 7)]) (md : Option (List Lanes)) (tile act : List Byte)
    (acc : Nat) (rs cs : BitVec 16) (n : Nat) :
    let size := 2 + 2 * (width + 1)
    let block := fun (l : List Byte) (j : Nat) => matBlock width ((l.drop (j * size)).take size)
    let weight := fun j => match md with
      | none => block tile (j * 256 + n)
      | some regs => sparseBlock fn tile regs j n
    matrixCell fn md tile act acc rs cs n = ((List.range (if md.isSome then 32 else 16)).foldl (fun acc j =>
      a36Add acc (a36Decode (blockProduct width (block act j) (weight j) rs cs))) acc, false) := by
  simp only [List.mem_cons, Prod.mk.injEq, List.not_mem_nil, or_false] at h
  have hblocks : ∀ b : Bool, (if b = true then 512 else 256) / 16 = if b = true then 32 else 16 := by decide
  intro size block weight
  unfold matrixCell
  dsimp only
  rw [hblocks]
  rcases h with ⟨rfl, rfl⟩ | ⟨rfl, rfl⟩ | ⟨rfl, rfl⟩ <;> cases md <;> rfl

/-- An F16 or BF16 cell adds one exact product after another. -/
theorem matrixCell_float {x : Nat × Fmt} (h : x ∈ [(4, fmtF16), (5, fmtBF16)]) (tile act : List Byte) (acc : Nat) (rs cs : BitVec 16)
    (n : Nat) :
    let half := fun (l : List Byte) (j : Nat) => FVal.decode x.2 (leNat ((l.drop (2 * j)).take 2))
    matrixCell x.1 none tile act acc rs cs n =
      ((List.range 256).foldl (fun acc k => a36Add acc (FVal.mul (half act k) (half tile (k * 256 + n))).1) acc, false) := by
  simp only [List.mem_cons, List.not_mem_nil, or_false] at h
  rcases h with rfl | rfl
  all_goals
    simp only [Nat.mul_comm 2 (_ * 256 + n)]
    rfl

/-! ### Metadata (R181, R182) -/

/-- Position `p` of a group is kept as the element `q` of its four: the field's first position that is `p`. -/
def KeptAt (field p q : Nat) : Prop := q < 4 ∧ field / 8 ^ q % 8 = p ∧ ∀ r, r < q → field / 8 ^ r % 8 ≠ p

theorem findIdx_metaPos (field p q : Nat) : ((metaPos field).findIdx? fun x => x == p) = some q ↔ KeptAt field p q := by
  have hpos : ∀ (j : Nat) (h : j < (metaPos field).length), (metaPos field)[j] = field / 8 ^ j % 8 := fun j h => by
    simp [metaPos]
  have hlen : (metaPos field).length = 4 := rfl
  rw [List.findIdx?_eq_some_iff_getElem]
  constructor
  · rintro ⟨hq, hp, hfirst⟩
    rw [hpos, beq_iff_eq] at hp
    exact ⟨hlen ▸ hq, hp, fun r hr heq => hfirst r hr (by rw [hpos, beq_iff_eq]; exact heq)⟩
  · rintro ⟨hq, hp, hfirst⟩
    exact ⟨hlen ▸ hq, by rw [hpos, beq_iff_eq]; exact hp, fun r hr h => hfirst r hr (by rwa [hpos, beq_iff_eq] at h)⟩

theorem findIdx_metaPos_none {field p : Nat} (h : ∀ q, ¬KeptAt field p q) : ((metaPos field).findIdx? fun x => x == p) = none :=
  Option.eq_none_iff_forall_ne_some.2 fun q hq => h q ((findIdx_metaPos field p q).1 hq)

section Sparse
variable {fn : Nat} {tile : List Byte} {regs : List Lanes} {n j k y q : Nat}

theorem sparseBlock_length : (sparseBlock fn tile regs j n).elems.length = 16 := by simp [sparseBlock]

/-- A kept position of a group holds the stored element that its metadata names. -/
theorem sparseBlock_kept (hk : k < 16) (h : KeptAt (metaField regs n (2 * j + k / 8)) (k % 8) q) :
    (sparseBlock fn tile regs j n).elems[k]? =
      some ((tileBlock fn tile (j / 2) n).elems.getD (4 * ((2 * j + k / 8) % 4) + q) ⟨false, 0, 0⟩) := by
  unfold sparseBlock
  dsimp only
  rw [List.getElem?_map, List.getElem?_range hk, Option.map_some, (findIdx_metaPos _ _ _).2 h]

/-- A pruned position of a block has no mantissa. -/
theorem sparseBlock_pruned (hk : k < 16) (h : ∀ q, ¬KeptAt (metaField regs n (2 * j + k / 8)) (k % 8) q) :
    ((sparseBlock fn tile regs j n).elems.getD k ⟨false, 1, 0⟩).m = 0 := by
  unfold sparseBlock
  dsimp only
  rw [List.getD_eq_getElem?_getD, List.getElem?_map, List.getElem?_range hk, Option.map_some, findIdx_metaPos_none h]
  rfl

theorem sparseElem_kept (h : KeptAt (metaField regs n (y / 8)) (y % 8) q) :
    sparseElem tile regs y n = (tile.getD ((4 * (y / 8) + q) * 256 + n) 0).toNat := by
  unfold sparseElem
  dsimp only
  rw [(findIdx_metaPos _ _ _).2 h]
  exact tileElem_int8 tile _ n

theorem sparseElem_pruned (h : ∀ q, ¬KeptAt (metaField regs n (y / 8)) (y % 8) q) : sparseElem tile regs y n = 0 := by
  unfold sparseElem
  dsimp only
  rw [findIdx_metaPos_none h]

end Sparse

/-- A field is in order when each position lies above the one before. -/
theorem fieldOk_iff (field : Nat) : fieldOk field = true ↔ ∀ q, q < 3 → field / 8 ^ q % 8 < field / 8 ^ (q + 1) % 8 := by
  have hdef : fieldOk field = decide (field / 8 ^ 0 % 8 < field / 8 ^ 1 % 8 ∧ field / 8 ^ 1 % 8 < field / 8 ^ 2 % 8 ∧
      field / 8 ^ 2 % 8 < field / 8 ^ 3 % 8) := rfl
  rw [hdef, decide_eq_true_eq]
  constructor
  · rintro ⟨h0, h1, h2⟩ q hq
    match q, hq with
    | 0, _ => exact h0
    | 1, _ => exact h1
    | 2, _ => exact h2
  · intro h
    exact ⟨h 0 (by decide), h 1 (by decide), h 2 (by decide)⟩

/-- A word of metadata with a field that is out of order. -/
def Unordered (w : Nat) : Prop := ∃ h, h < 2 ∧ ∃ q, q < 3 ∧ w / 2 ^ (16 * h) / 8 ^ (q + 1) % 8 ≤ w / 2 ^ (16 * h) / 8 ^ q % 8

theorem fieldOk_mod (v : Nat) : fieldOk (v % 4096) = fieldOk v := by
  have hdigit : ∀ q, q < 4 → v % 4096 / 8 ^ q % 8 = v / 8 ^ q % 8 := fun q hq => by
    match q, hq with
    | 0, _ => omega
    | 1, _ => omega
    | 2, _ => omega
    | 3, _ => omega
  rw [Bool.eq_iff_iff, fieldOk_iff, fieldOk_iff]
  refine forall_congr' fun q => forall_congr' fun hq => ?_
  rw [hdigit q (by omega), hdigit (q + 1) (by omega)]

theorem metaWordBad_iff (w : Nat) : metaWordBad w = true ↔ Unordered w := by
  have hfield : ∀ v, (!fieldOk v) = true ↔ ∃ q, q < 3 ∧ v / 8 ^ (q + 1) % 8 ≤ v / 8 ^ q % 8 := fun v => by
    rw [Bool.not_eq_true', ← Bool.not_eq_true, fieldOk_iff]
    simp only [Classical.not_forall, Nat.not_lt, exists_prop]
  unfold metaWordBad Unordered
  rw [Bool.or_eq_true, fieldOk_mod, fieldOk_mod, hfield, hfield]
  constructor
  · rintro (h | h)
    · exact ⟨0, by decide, by rwa [Nat.mul_zero, Nat.pow_zero, Nat.div_one]⟩
    · exact ⟨1, by decide, h⟩
  · rintro ⟨h, hh, hq⟩
    match h, hh with
    | 0, _ => exact .inl (by rwa [Nat.mul_zero, Nat.pow_zero, Nat.div_one] at hq)
    | 1, _ => exact .inr hq

/-- Bits set one after another. -/
theorem foldl_or_bit {α : Type} {w : Nat} (g : α → Nat) (l : List α) (x : BitVec w) {n : Nat} (hn : n < w) :
    (l.foldl (fun m a => m ||| (1#w <<< g a)) x).getLsbD n = true ↔ x.getLsbD n = true ∨ ∃ a ∈ l, g a = n := by
  induction l generalizing x with
  | nil => simp
  | cons a l ih =>
    have hbit : (1#w <<< g a).getLsbD n = true ↔ g a = n := by
      rw [BitVec.getLsbD_shiftLeft, BitVec.getLsbD_one]
      simp only [Bool.and_eq_true, Bool.not_eq_true', decide_eq_true_eq, decide_eq_false_iff_not]
      omega
    rw [List.foldl_cons, ih, BitVec.getLsbD_or, Bool.or_eq_true, hbit]
    simp only [List.mem_cons, exists_eq_or_imp, or_assoc]

theorem getLsbD_maskBuild (f : Nat → Bool) {l : Nat} (hl : l < 64) : (LaneMask.build f).getLsbD l = f l := by
  rw [LaneMask.build, ← List.foldl_filter (p := f) (f := fun m k => m ||| (1#64 <<< k)), Bool.eq_iff_iff,
    foldl_or_bit (fun k => k) _ _ hl]
  simp [hl]

/-- MDFMT: the lowest register with a field out of order, and the lanes with one in any register. -/
theorem metaBad_eq {regs : List Lanes} {k : Nat} {r : Lanes} {mask : LaneMask} (hr : regs[k]? = some r)
    (hbad : ∃ l, l < 64 ∧ Unordered (r.get l).toNat)
    (hbefore : ∀ j r, j < k → regs[j]? = some r → ∀ l, ¬(l < 64 ∧ Unordered (r.get l).toNat))
    (hmask : ∀ l, l < 64 → (mask.getLsbD l = true ↔ ∃ r ∈ regs, l < 64 ∧ Unordered (r.get l).toNat)) :
    metaBad regs = some (mask, k) := by
  have hreg : ∀ r : Lanes, ((List.range 64).any fun l => metaWordBad (r.get l).toNat) = true ↔
      ∃ l, l < 64 ∧ Unordered (r.get l).toNat := fun r => by
    simp only [List.any_eq_true, List.mem_range, metaWordBad_iff]
  have hfind : (regs.zipIdx.find? fun x => (List.range 64).any fun l => metaWordBad (x.1.get l).toNat) = some (r, k) := by
    obtain ⟨hk, hget⟩ := List.getElem?_eq_some_iff.1 hr
    rw [List.find?_eq_some_iff_getElem]
    refine ⟨(hreg r).2 hbad, k, by simpa using hk, by simp [hget], fun j hj => ?_⟩
    have hj' : j < regs.length := Nat.lt_trans hj hk
    rw [List.getElem_zipIdx, Bool.not_eq_true', ← Bool.not_eq_true, hreg]
    rintro ⟨l, hl⟩
    exact hbefore j _ hj (List.getElem?_eq_getElem hj') l hl
  have hlanes : (LaneMask.build fun l => regs.any fun r => metaWordBad (r.get l).toNat) = mask := by
    refine BitVec.eq_of_getLsbD_eq fun l hl => ?_
    rw [getLsbD_maskBuild _ hl, Bool.eq_iff_iff, hmask l hl]
    simp only [List.any_eq_true, metaWordBad_iff, hl, true_and]
  unfold metaBad
  rw [hfind, ← hlanes]

/-! ### The rows of a command (R182) -/

/-- A list of pieces of one length, piece by piece. -/
theorem take_drop_flatMap {α β : Type} {f : α → List β} {c : Nat} (hf : ∀ x, (f x).length = c) {l : List α} {i : Nat} {x : α}
    (hx : l[i]? = some x) : ((l.flatMap f).drop (i * c)).take c = f x := by
  induction l generalizing i with
  | nil => simp at hx
  | cons y l ih =>
    rw [List.flatMap_cons]
    cases i with
    | zero =>
      rw [List.getElem?_cons_zero, Option.some_inj] at hx
      rw [Nat.zero_mul, List.drop_zero, List.take_append_of_le_length (Nat.le_of_eq (hf y).symm), hx, ← hf x, List.take_length]
    | succ i =>
      have hdrop : (f y ++ l.flatMap f).drop ((i + 1) * c) = (l.flatMap f).drop (i * c) := by
        rw [Nat.succ_mul, Nat.add_comm, ← hf y, ← List.drop_drop, List.drop_left]
      rw [hdrop]
      exact ih hx

theorem length_flatMap_const {α β : Type} {f : α → List β} {c : Nat} (hf : ∀ x, (f x).length = c) (l : List α) :
    (l.flatMap f).length = l.length * c := by
  induction l with
  | nil => exact (Nat.zero_mul c).symm
  | cons x l ih => rw [List.flatMap_cons, List.length_append, hf, ih, List.length_cons, Nat.succ_mul, Nat.add_comm]

/-- An item of a list of pieces of one length. -/
theorem getElem?_flatMap_const {α β : Type} {f : α → List β} {c : Nat} (hf : ∀ x, (f x).length = c) {l : List α} {i j : Nat} {x : α}
    (hx : l[i]? = some x) (hj : j < c) : (l.flatMap f)[i * c + j]? = (f x)[j]? := by
  rw [← take_drop_flatMap hf hx, List.getElem?_take_of_lt hj, List.getElem?_drop]

theorem leNat_leBytes (n v : Nat) : leNat (leBytes n v) = v % 256 ^ n := by
  induction n generalizing v with
  | zero => simp [leBytes, leNat, Nat.mod_one]
  | succ n ih =>
    rw [leBytes, leNat, ih, BitVec.toNat_ofNat, (Nat.pow_succ' : 256 ^ (n + 1) = 256 * 256 ^ n)]
    exact (Nat.mod_mul ..).symm

/-- The cells of the rows of a command, row by row. -/
def matrixCells (fn : Nat) (md : Option (List Lanes)) (b : Bank) (acts : List (List Byte)) (accs : List Nat) : List (Nat × Bool) :=
  acts.zipIdx.flatMap fun x => (List.range 256).map fun n =>
    matrixCell fn md b.active.tile x.1 (accs.getD (x.2 * 256 + n) 0) (b.rowScale.getD (x.2 % 256) 0) (b.colScale.getD n 0) n

section Rows
variable {fn : Nat} {md : Option (List Lanes)} {b : Bank} {acts : List (List Byte)} {accs : List Nat}

theorem matrixRows_fst : (matrixRows fn md b acts accs).1 = (matrixCells fn md b acts accs).flatMap fun x => leBytes 8 x.1 := rfl

theorem matrixRows_snd : (matrixRows fn md b acts accs).2 =
    ((matrixCells fn md b acts accs).zipIdx.filter fun x => x.1.2).foldl (fun f x => f ||| (1#256 <<< (x.2 % 256))) 0 := rfl

theorem matrixCells_length : (matrixCells fn md b acts accs).length = acts.length * 256 := by
  unfold matrixCells
  rw [length_flatMap_const (c := 256) (by simp), List.length_zipIdx]

theorem matrixCells_get {r n : Nat} (hr : r < acts.length) (hn : n < 256) : (matrixCells fn md b acts accs)[r * 256 + n]? =
    some (matrixCell fn md b.active.tile (acts.getD r []) (accs.getD (r * 256 + n) 0) (b.rowScale.getD (r % 256) 0)
      (b.colScale.getD n 0) n) := by
  have hrow : acts.zipIdx[r]? = some (acts.getD r [], r) := by
    simp [List.getD_eq_getElem?_getD, hr]
  unfold matrixCells
  rw [getElem?_flatMap_const (c := 256) (by simp) hrow hn, List.getElem?_map, List.getElem?_range hn]
  rfl

/-- The bytes of a command's rows: eight for each cell. -/
theorem matrixRows_bytes {r n : Nat} (hr : r < acts.length) (hn : n < 256) :
    leNat (((matrixRows fn md b acts accs).1.drop (r * 2048 + 8 * n)).take 8) =
      (matrixCell fn md b.active.tile (acts.getD r []) (accs.getD (r * 256 + n) 0) (b.rowScale.getD (r % 256) 0)
        (b.colScale.getD n 0) n).1 % 2 ^ 64 := by
  have hpos : r * 2048 + 8 * n = (r * 256 + n) * 8 := by omega
  rw [matrixRows_fst, hpos, take_drop_flatMap (fun x => leBytes_length 8 x.1) (matrixCells_get hr hn)]
  exact leNat_leBytes 8 _

theorem matrixRows_length : (matrixRows fn md b acts accs).1.length = acts.length * 2048 := by
  rw [matrixRows_fst, length_flatMap_const (f := fun x : Nat × Bool => leBytes 8 x.1) (fun x => leBytes_length 8 x.1),
    matrixCells_length, Nat.mul_assoc]

/-- The flag of a column: some row's cell was clamped. -/
theorem matrixRows_flag {n : Nat} (hn : n < 256) : (matrixRows fn md b acts accs).2.getLsbD n = true ↔ ∃ r, r < acts.length ∧
    (matrixCell fn md b.active.tile (acts.getD r []) (accs.getD (r * 256 + n) 0) (b.rowScale.getD (r % 256) 0)
      (b.colScale.getD n 0) n).2 = true := by
  rw [matrixRows_snd, foldl_or_bit (fun x : (Nat × Bool) × Nat => x.2 % 256) _ _ hn,
    or_iff_right (by simp : ¬(0 : BitVec 256).getLsbD n = true)]
  simp only [List.mem_filter, List.mem_zipIdx_iff_getElem?, Prod.exists]
  constructor
  · rintro ⟨out, hit, i, ⟨hget, hhit⟩, rfl⟩
    obtain ⟨hi, -⟩ := List.getElem?_eq_some_iff.1 hget
    rw [matrixCells_length] at hi
    have hr : i / 256 < acts.length := by omega
    have hcell := matrixCells_get (fn := fn) (md := md) (b := b) (accs := accs) hr hn
    rw [show i / 256 * 256 + i % 256 = i by omega, hget, Option.some_inj] at hcell
    refine ⟨i / 256, hr, ?_⟩
    rw [show i / 256 * 256 + i % 256 = i by omega, ← hcell]
    exact hhit
  · rintro ⟨r, hr, hhit⟩
    exact ⟨_, _, r * 256 + n, ⟨matrixCells_get hr hn, hhit⟩, by omega⟩

end Rows

end Sys2Proof.Machine

/-! ## The commands of the matrix array (R180-R188, R385-R388) -/

namespace Sys2Proof.Machine
open Sys2Proof.Safety

section Commands
variable {s s2 : State} {v : EngineView} {x : EForm} {n : Nat}

theorem weightCheck_eq_some {c : Ctx} {m w0 : Nat} (h : w0 % 4 ≠ 0 ∨ placeOf s c m .wb w0 n = none) :
    weightCheck s c m w0 n = some w0 := by
  unfold weightCheck
  by_cases halign : w0 % 4 = 0
  · have hplace := h.resolve_left fun hne => hne halign
    simp [hplace]
  · simp [halign]

theorem weightCheck_eq_none {c : Ctx} {m w0 : Nat} (halign : w0 % 4 = 0) (hplace : (placeOf s c m .wb w0 n).isSome = true) :
    weightCheck s c m w0 n = none := by
  unfold weightCheck
  simp [halign, Option.isSome_iff_ne_none.1 hplace]

theorem exec_mldw_bad (hturn : EngineTurn s .matrix (.mldw x) v)
    (hbad : pval x.p0 % 4 ≠ 0 ∨ placeOf v.s1 v.c s.hand.member .wb (pval x.p0) (tileBytes x.fn.toNat) = none) :
    exec (.mldw x) s = .next (engineFaulted v.s1 v.c0.id s.hand.member .matrix v.x .mrange (pval x.p0) 0) := by
  show execMldw x s = _
  unfold execMldw
  refine engineStep_fault hturn ?_
  dsimp only
  rw [weightCheck_eq_some hbad]

/-- MLDW loads the shadow plane and its code. -/
theorem exec_mldw (hturn : EngineTurn s .matrix (.mldw x) v) (halign : pval x.p0 % 4 = 0)
    (hplace : (placeOf v.s1 v.c s.hand.member .wb (pval x.p0) (tileBytes x.fn.toNat)).isSome = true) (hheld : v.x.held = false)
    (hclear : MatrixClear v.s1 v.c s.hand.member v.mb (.mldw x) s2) :
    exec (.mldw x) s = .next (engineDone (updBank s2 v.c.id s.hand.member fun b =>
      { b with shadow := ⟨x.fn.toNat + 1, bufRead s2 v.c s.hand.member .wb (pval x.p0) (tileBytes x.fn.toNat)⟩ })
      v.c0.id s.hand.member .matrix v.x []) := by
  show execMldw x s = _
  unfold execMldw
  refine engineStep_ok hturn ?_
  dsimp only
  rw [weightCheck_eq_none halign hplace]
  dsimp only
  rw [hheld, if_neg Bool.false_ne_true, matrixRun_ok hclear]

theorem exec_mswp (hturn : EngineTurn s .matrix (.mswp x) v) (hclear : MatrixClear v.s1 v.c s.hand.member v.mb (.mswp x) s2) :
    exec (.mswp x) s = .next (engineDone (updBank s2 v.c.id s.hand.member fun b => { b with active := b.shadow, shadow := b.active })
      v.c0.id s.hand.member .matrix v.x []) := by
  show execMswp x s = _
  unfold execMswp
  exact engineStep_ok hturn (matrixRun_ok hclear)

theorem exec_mclr (hturn : EngineTurn s .matrix (.mclr x) v) (hclear : MatrixClear v.s1 v.c s.hand.member v.mb (.mclr x) s2) :
    exec (.mclr x) s = .next (engineDone (updBank s2 v.c.id s.hand.member fun b => { b with flags := 0, sums := none })
      v.c0.id s.hand.member .matrix v.x []) := by
  show execMclr x s = _
  unfold execMclr
  exact engineStep_ok hturn (matrixRun_ok hclear)

theorem exec_mscl_bad (hturn : EngineTurn s .matrix (.mscl x) v)
    (hbad : pval x.p0 % 4 ≠ 0 ∨ placeOf v.s1 v.c s.hand.member .wb (pval x.p0) 512 = none) :
    exec (.mscl x) s = .next (engineFaulted v.s1 v.c0.id s.hand.member .matrix v.x .mrange (pval x.p0) 0) := by
  show execMscl x s = _
  unfold execMscl
  refine engineStep_fault hturn ?_
  dsimp only
  rw [weightCheck_eq_some hbad]

/-- MSCL loads the 256 row or column scales. -/
theorem exec_mscl (hturn : EngineTurn s .matrix (.mscl x) v) (halign : pval x.p0 % 4 = 0)
    (hplace : (placeOf v.s1 v.c s.hand.member .wb (pval x.p0) 512).isSome = true)
    (hclear : MatrixClear v.s1 v.c s.hand.member v.mb (.mscl x) s2) :
    let scales := (List.range 256).map fun k =>
      BitVec.ofNat 16 (leNat (((bufRead s2 v.c s.hand.member .wb (pval x.p0) 512).drop (2 * k)).take 2))
    exec (.mscl x) s = .next (engineDone (updBank s2 v.c.id s.hand.member fun b =>
      if x.fn = 0 then { b with rowScale := scales } else { b with colScale := scales }) v.c0.id s.hand.member .matrix v.x []) := by
  intro scales
  show execMscl x s = _
  unfold execMscl
  refine engineStep_ok hturn ?_
  dsimp only
  rw [weightCheck_eq_none halign hplace]
  dsimp only
  rw [matrixRun_ok hclear]
  simp only [beq_iff_eq]
  rfl

/-- The checks of an MMA or MMAS in their order (R180). -/
theorem mmaCheck_eq {z : State} {c : Ctx} {m : Nat} {mb : Member} {i : Instr} :
    let d := if pval x.p3 = 0 then matrixRow i else pval x.p3
    mmaCheck z c m mb i x = if pval x.p0 % 4 ≠ 0 then some (pval x.p0) else if pval x.p1 % 8 ≠ 0 then some (pval x.p1)
      else if pval x.p2 < 1 ∨ 768 < pval x.p2 then some (pval x.p2) else if d < matrixRow i then some (pval x.p3)
      else if placeOf z c m .ab (pval x.p0) ((pval x.p2 - 1) * d + matrixRow i) = none then some (pval x.p0)
      else if placeOf z c m .cb (pval x.p1) (pval x.p2 * 2048) = none then some (pval x.p1)
      else if mb.bank.active.code ≠ x.fn.toNat + 1 then some (2 ^ 63 + mb.bank.active.code) else none := by
  intro d
  unfold mmaCheck mmaShape
  simp only [bne_iff_ne, beq_iff_eq, decide_eq_true_eq, Option.isNone_iff_eq_none]
  rfl

/-- What an MMA or MMAS leaves, from the state `s2` in which it runs (R182, R190). -/
def mmaDone (s2 : State) (v : EngineView) (m : Nat) (i : Instr) (x : EForm) (md : Option (List Lanes)) : State :=
  let d := if pval x.p3 = 0 then matrixRow i else pval x.p3
  let acts := (List.range (pval x.p2)).map fun r => bufRead s2 v.c m .ab (pval x.p0 + r * d) (matrixRow i)
  let old := bufRead s2 v.c m .cb (pval x.p1) (pval x.p2 * 2048)
  let accs := if x.head.getLsbD 1 then [] else (List.range (pval x.p2 * 256)).map fun k => leNat ((old.drop (8 * k)).take 8) % 2 ^ 36
  let r := matrixRows x.fn.toNat md v.mb.bank acts accs
  let s3 := bump (updBank (bufWrite s2 v.c m .cb (pval x.p1) r.1) v.c.id m fun b =>
    { b with flags := b.flags ||| r.2, sums := some s2.free,
             hazards := mapIf (fun h => h.seq == v.x.e.seq) (fun h => { h with old := some old }) b.hazards })
  if (v.mb.bank.hazards.any fun h => h.seq == v.x.e.seq && h.tainted) = true
    then scramble s3 v.c m ⟨.buf .cb, pval x.p1, pval x.p2 * 2048⟩ else s3

section Mma
variable {i : Instr} {md : Option (List Lanes)} (hi : (i = .mma x ∧ md = none) ∨ (i = .mmas x ∧ md = some v.x.copied))
  (hturn : EngineTurn s .matrix i v)
include hi

/-- The run of an MMA or MMAS is `runMma`, with the metadata that the command has copied. -/
theorem exec_mma_runMma : ∃ f, exec i s = engineStep s .matrix i f ∧
    f v.s1 v.c s.hand.member v.mb v.x = runMma i x md v.s1 v.c s.hand.member v.mb v.x := by
  rcases hi with ⟨rfl, rfl⟩ | ⟨rfl, rfl⟩
  · exact ⟨runMma (.mma x) x none, rfl, rfl⟩
  · exact ⟨fun s c m mb cmd => runMma (.mmas x) x (some cmd.copied) s c m mb cmd, rfl, rfl⟩

include hturn

theorem exec_mma_fault {k : Cause} {a : Nat} {mask : LaneMask}
    (h : runMma i x md v.s1 v.c s.hand.member v.mb v.x = .fault v.s1 k a mask) :
    exec i s = .next (engineFaulted v.s1 v.c0.id s.hand.member .matrix v.x k a mask) := by
  obtain ⟨f, hexec, hrun⟩ := exec_mma_runMma (s := s) hi
  exact hexec.trans (engineStep_fault hturn (hrun.trans h))

theorem exec_mma_ok {s3 : State} (h : runMma i x md v.s1 v.c s.hand.member v.mb v.x = .ok s3 []) :
    exec i s = .next (engineDone s3 v.c0.id s.hand.member .matrix v.x []) := by
  obtain ⟨f, hexec, hrun⟩ := exec_mma_runMma (s := s) hi
  exact hexec.trans (engineStep_ok hturn (hrun.trans h))

theorem exec_mma_mrange {a : Nat} (h : mmaCheck v.s1 v.c s.hand.member v.mb i x = some a) :
    exec i s = .next (engineFaulted v.s1 v.c0.id s.hand.member .matrix v.x .mrange a 0) := by
  refine exec_mma_fault hi hturn ?_
  unfold runMma
  rw [h]

theorem exec_mma_mdfmt {regs : List Lanes} {k : Nat} {mask : LaneMask} (hcheck : mmaCheck v.s1 v.c s.hand.member v.mb i x = none)
    (hspoiled : v.x.spoiled = none) (hmd : md = some regs) (hbad : metaBad regs = some (mask, k)) :
    exec i s = .next (engineFaulted v.s1 v.c0.id s.hand.member .matrix v.x .mdfmt ((x.head.extractLsb' 8 8).toNat + k) mask) := by
  refine exec_mma_fault hi hturn ?_
  unfold runMma
  rw [hcheck, hspoiled, hmd]
  dsimp only
  rw [Option.bind_some, hbad]

theorem exec_mma_done (hcheck : mmaCheck v.s1 v.c s.hand.member v.mb i x = none)
    (hspoiled : v.x.spoiled = none) (hmd : md.bind metaBad = none) (hheld : v.x.held = false)
    (hclear : MatrixClear v.s1 v.c s.hand.member v.mb i s2) :
    exec i s = .next (engineDone (mmaDone s2 v s.hand.member i x md) v.c0.id s.hand.member .matrix v.x []) := by
  refine exec_mma_ok hi hturn ?_
  unfold runMma
  rw [hcheck, hspoiled, hmd]
  dsimp only
  rw [hheld, if_neg Bool.false_ne_true, matrixRun_ok hclear]
  unfold mmaShape mmaDone
  simp only [beq_iff_eq]
  split <;> rfl

end Mma
end Commands

/-- An equation with two cases, case by case. -/
theorem eq_cases_of_eq_ite {α : Type} {c : Prop} [Decidable c] {a x y : α} (h : a = if c then x else y) :
    if c then a = x else a = y :=
  (apply_ite (a = ·) c x y).mp h

/-- An accumulator of 36 bits as an integer. -/
theorem accInt_eq (acc : Nat) : (if acc < 2 ^ 35 then (acc : Int) else (acc : Int) - 2 ^ 36) = elemInt true 36 acc := by
  simp only [elemInt_eq, true_and, ← Nat.not_lt, ite_not]

/-- Settles O44: the commands by `exec_mldw` to `exec_mma_done`, the rows by `matrixRows_bytes` and `matrixRows_flag`, the cells by
`foldl_addInt8`, `matrixCell_sx` and `matrixCell_float`, the blocks by `blockProduct_eq` and the rules of `scaleBlock`, the sums by
`roundA36_add_fin` and `roundA36_fin`, the metadata by `sparseBlock_kept` and `sparseElem_kept`. -/
theorem matrixCommands : Obligations.MatrixCommands := by
  unfold Obligations.MatrixCommands
  refine ⟨fun s s2 v x => ?commands, fun fn md b acts accs => ?rows, fun tile act md acc rs cs n hacc hn htile => ?int8,
    fun tile act md acc fn width n rs cs h => matrixCell_sx h md tile act acc rs cs n,
    fun tile act acc n rs cs y hy => matrixCell_float hy tile act acc rs cs n,
    fun width bs k hk => ⟨rfl, matBlock_length width bs, matBlock_elem width bs hk⟩,
    fun width a w rs cs ha hw => ?product, fun acc y => ?sum, fun neg m e hm => roundA36_fin hm,
    fun tile regs fn n j k hfn hj hk hn => ?sparse, fun acc hit a w hacc hsum => ?clamp⟩
  case commands =>
    intro m done'
    refine ⟨fun n hbytes hturn => ?mldw, exec_mswp, exec_mclr, exec_mscl_bad, exec_mscl, fun z c m mb i hi => ?check,
      fun i md hi hturn => ⟨fun a => exec_mma_mrange hi hturn, fun regs k mask hcheck hspoiled hmd => ?mdfmt, exec_mma_done hi hturn⟩⟩
    case mldw =>
      subst hbytes
      exact ⟨exec_mldw_bad hturn, exec_mldw hturn⟩
    case check =>
      intro a0 c0 rows rowBytes d
      have hrow : rowBytes = matrixRow i := by
        rcases hi with rfl | rfl
        · exact if_pos rfl
        · exact if_neg nofun
      have hd : d = if pval x.p3 = 0 then matrixRow i else pval x.p3 := by rw [← hrow]
      rw [hd, hrow]
      exact mmaCheck_eq
    case mdfmt =>
      intro unordered bad hbad hbefore hmask
      obtain ⟨r, hr, hlane⟩ := hbad
      exact exec_mma_mdfmt hi hturn hcheck hspoiled hmd (metaBad_eq hr hlane hbefore hmask)
  case rows =>
    intro cell out
    exact ⟨matrixRows_length, fun n hn => ⟨fun r hr => matrixRows_bytes hr hn, matrixRows_flag hn⟩⟩
  case int8 =>
    intro start weight last partialSum r hrange
    have hpartial : ∀ j, partialSum j = elemInt true 36 acc + int8Sum md tile act n j := fun j => by
      have hweight : ∀ k, weight k = int8Weight md tile n k := fun k => by cases md <;> rfl
      rw [← accInt_eq]
      simp only [partialSum, hweight]
      rfl
    obtain ⟨out, hfold, -, hvalue⟩ := foldl_addInt8 hacc fun j hj => hpartial j ▸ hrange j hj
    have hcell : r = (out, false) := (matrixCell_int8 md tile act acc rs cs n).trans hfold
    rw [hcell, hpartial, ← hvalue]
    exact ⟨rfl, accInt_eq out⟩
  case product =>
    intro elem total nan signed
    have htotal : blockSum a w = total := blockSum_eq ha hw
    refine ⟨blockProduct_nan, fun hae hwe => ?_⟩
    have hproduct : ∀ x y, FVal.decode fmtF16 rs.toNat = x → FVal.decode fmtF16 cs.toNat = y → blockProduct width a w rs cs =
        scaleBlock total ((a.e : Int) + w.e - 254 - 2 * ((width : Int) - 1) - 6) (FVal.mul x y).1 := by
      rintro _ _ rfl rfl
      rw [← htotal]
      exact blockProduct_eq hae hwe rs cs
    cases hrs : FVal.decode fmtF16 rs.toNat with
    | nan q => cases hcs : FVal.decode fmtF16 cs.toNat <;> exact hproduct _ _ hrs hcs
    | inf i =>
      cases hcs : FVal.decode fmtF16 cs.toNat with
      | nan q => exact hproduct _ _ hrs hcs
      | inf j => exact eq_cases_of_eq_ite ((hproduct _ _ hrs hcs).trans (scaleBlock_inf _))
      | fin j m g => exact eq_cases_of_eq_ite ((hproduct _ _ hrs hcs).trans (scaleBlock_mul_inf_fin i j m g))
    | fin i m g =>
      cases hcs : FVal.decode fmtF16 cs.toNat with
      | nan q => exact hproduct _ _ hrs hcs
      | inf j => exact eq_cases_of_eq_ite ((hproduct _ _ hrs hcs).trans (scaleBlock_mul_fin_inf i j m g))
      | fin j k h => exact (hproduct _ _ hrs hcs).trans (scaleBlock_fin _ _ _)
  case sum =>
    cases hacc : a36Decode acc with
    | nan q => cases y <;> exact a36Add_eq hacc _
    | inf i =>
      cases y with
      | nan q => exact a36Add_eq hacc _
      | inf j => cases i <;> cases j <;> exact a36Add_eq hacc _
      | fin j k h => exact a36Add_eq hacc _
    | fin i m g =>
      cases y with
      | nan q => exact a36Add_eq hacc _
      | inf j => exact a36Add_eq hacc _
      | fin j k h =>
        have hsum := (a36Add_eq hacc _).trans (roundA36_add_fin i j m k g h)
        simp only [signedUnits_eq_cast] at hsum
        exact hsum
  case sparse =>
    intro word field kept stored out g
    have hfield : ∀ g, metaField regs n g = field g := fun g => by
      simp only [metaField, beq_iff_eq]
      rfl
    have hkept : ∀ g p q, kept g p q ↔ KeptAt (metaField regs n g) p q := fun g p q => by
      rw [hfield]
      rfl
    simp only [hkept]
    exact ⟨rfl, sparseBlock_length, fun q => sparseBlock_kept hk, sparseBlock_pruned hk, fun y q _ h _ => sparseElem_kept h,
      fun y _ => sparseElem_pruned⟩
  case clamp =>
    refine addInt8_above hit ?_
    rwa [← accInt_eq, if_pos hacc]

end Sys2Proof.Machine

/-! ## Waits behind engines and the retirement of commands (R185, R186, R243, R353, R354) -/

namespace Sys2Proof.Machine
open Sys2Proof.Safety

/-! ### A context or a member changed twice -/

theorem putCtx_putCtx (s : State) {c d : Ctx} (h : d.id = c.id) : (s.putCtx c).putCtx d = s.putCtx d := by
  unfold State.putCtx mapIf
  rw [List.map_map]
  refine congrArg (fun l => ({ s with ctxs := l } : State)) (List.map_congr_left fun x _ => ?_)
  by_cases hx : x.id = c.id <;> simp [h, hx]

theorem setAt_setAt {α : Type} (y z : α) : ∀ (l : List α) (n : Nat), setAt (setAt l n y) n z = setAt l n z
  | [], _ => rfl
  | _ :: _, 0 => rfl
  | x :: l, n + 1 => congrArg (x :: ·) (setAt_setAt y z l n)

theorem member_putMember {c : Ctx} {m : Nat} {mb : Member} (h : c.member m = some mb) (new : Member) :
    (c.putMember m new).member m = some new :=
  (setAt_get c.members m m new (List.getElem?_eq_some_iff.1 h).1).trans (if_pos rfl)

theorem putMember_putMember (c : Ctx) (m : Nat) (mb new : Member) : (c.putMember m mb).putMember m new = c.putMember m new :=
  congrArg (fun l => ({ c with members := l } : Ctx)) (setAt_setAt mb new c.members m)

theorem updMember_eq {s : State} {k m : Nat} {c : Ctx} {mb : Member} (hctx : s.ctxOf k = some c) (hmb : c.member m = some mb)
    (f : Member → Member) : s.updMember k m f = s.putCtx (c.putMember m (f mb)) := by
  simp only [State.updMember, hctx, hmb]

theorem updMember_updMember (s : State) (k m : Nat) (f g : Member → Member) :
    (s.updMember k m f).updMember k m g = s.updMember k m (g ∘ f) := by
  cases hctx : s.ctxOf k with
  | none => simp only [State.updMember, hctx]
  | some c =>
    cases hmb : c.member m with
    | none => simp only [State.updMember, hctx, hmb]
    | some mb =>
      obtain rfl := ctxOf_id hctx
      have hslot : (s.putCtx (c.putMember m (f mb))).ctxOf c.id = some (c.putMember m (f mb)) := ctxOf_putCtx_self hctx
      rw [updMember_eq hctx hmb, updMember_eq hctx hmb, updMember_eq hslot (member_putMember hmb _), putMember_putMember]
      exact putCtx_putCtx s rfl

theorem updBank_updBank (s : State) (k m : Nat) (f g : Bank → Bank) :
    updBank (updBank s k m f) k m g = updBank s k m (g ∘ f) :=
  updMember_updMember s k m _ _

/-! ### How a wait stands -/

/-- A command of the queue that a wait of order number `seq` and tag `tag` covers (R186, R354). -/
def Cmd.Covered (seq : Nat) (tag : BitVec 16) (y : Cmd) : Prop := y.e.seq < seq ∧ (tag = 0xFFFF ∨ y.tag = tag)

section WaitResult
variable {q : List Cmd} {seq : Nat} {tag : BitVec 16}

theorem mem_covered {y : Cmd} :
    (y ∈ q.filter fun x => decide (x.e.seq < seq) && (tag == 0xFFFF || x.tag == tag)) ↔ y ∈ q ∧ y.Covered seq tag := by
  simp [Cmd.Covered]

theorem waitResult_over (h : ∀ y ∈ q, ¬y.Covered seq tag) : waitResult q seq tag = .over := by
  refine if_pos (List.isEmpty_iff.2 (List.eq_nil_iff_forall_not_mem.2 fun y hy => ?_))
  obtain ⟨hmem, hcov⟩ := mem_covered.1 hy
  exact h y hmem hcov

theorem waitResult_covered {z : Cmd} (hz : z ∈ q) (hcov : z.Covered seq tag) :
    waitResult q seq tag = match queueFault q with
      | some (x, t) =>
        if (q.filter fun x => decide (x.e.seq < seq) && (tag == 0xFFFF || x.tag == tag)).all fun y => decide (x.e.seq ≤ y.e.seq) then
          .faulty x t
        else .waits
      | none => .waits :=
  if_neg (by simpa [List.isEmpty_iff] using List.ne_nil_of_mem (mem_covered.2 ⟨hz, hcov⟩))

/-- A covered command before the fault of the queue, or without one, is waited for. -/
theorem waitResult_waits {z : Cmd} (hz : z ∈ q) (hcov : z.Covered seq tag)
    (hbefore : ∀ y t, queueFault q = some (y, t) → z.e.seq < y.e.seq) : waitResult q seq tag = .waits := by
  rw [waitResult_covered hz hcov]
  cases hfault : queueFault q with
  | none => rfl
  | some p =>
    refine if_neg fun hall => ?_
    have := of_decide_eq_true (List.all_eq_true.1 hall z (mem_covered.2 ⟨hz, hcov⟩))
    exact absurd (hbefore p.1 p.2 hfault) (Nat.not_lt.2 this)

/-- With every covered command at or behind the fault the wait ends with the fault. -/
theorem waitResult_faulty {y z : Cmd} {t : Trap} (hfault : queueFault q = some (y, t)) (hz : z ∈ q) (hcov : z.Covered seq tag)
    (hbehind : ∀ z ∈ q, z.Covered seq tag → y.e.seq ≤ z.e.seq) : waitResult q seq tag = .faulty y t := by
  rw [waitResult_covered hz hcov, hfault]
  refine if_pos (List.all_eq_true.2 fun x hx => decide_eq_true ?_)
  obtain ⟨hmem, hcov⟩ := mem_covered.1 hx
  exact hbehind x hmem hcov

end WaitResult

/-! ### MWAIT and CWAIT -/

/-- The engine behind which an MWAIT or CWAIT waits. -/
def waitEngine (i : Instr) : Engine :=
  match i with
  | .cwait x => cwaitEngine x.fn
  | _ => .matrix

theorem cwaitEngine_eq (fn : BitVec 4) : cwaitEngine fn = if fn = 0 then .copy else if fn = 1 then .fetch else .storage := by
  by_cases h0 : fn = 0
  · subst h0; rfl
  · by_cases h1 : fn = 1
    · subst h1; rfl
    · have hne0 : fn.toNat ≠ 0 := fun h => h0 (BitVec.eq_of_toNat_eq h)
      have hne1 : fn.toNat ≠ 1 := fun h => h1 (BitVec.eq_of_toNat_eq h)
      rw [if_neg h0, if_neg h1]
      unfold cwaitEngine
      split
      · exact absurd ‹_› hne0
      · exact absurd ‹_› hne1
      · rfl

theorem waitEngine_eq {x : EForm} {i : Instr} (hi : i = .mwait x ∨ i = .cwait x) :
    waitEngine i = if i = .mwait x then .matrix else if x.fn = 0 then .copy else if x.fn = 1 then .fetch else .storage := by
  obtain rfl | rfl := hi
  · exact (if_pos rfl).symm
  · exact (cwaitEngine_eq x.fn).trans (if_neg Instr.noConfusion).symm

section Waits
variable {s : State} {c : Ctx} {mb : Member} {x : EForm} {h : Entry} (hctx : s.ctxOf s.hand.ctx = some c)
include hctx

theorem exec_mrdy {e : Entry} (hentry : handoverEntry s c s.hand.member = some (mb, e, .mrdy x)) (hbank : bankFor s c mb = true) :
    exec (.mrdy x) s = done (s.putCtx (c.putMember s.hand.member
      { mb with bank := { releaseHeld mb.bank x.tag with bound := true }, handed := e.seq + 1 }).engineLatch.settle) := by
  show execMrdy x s = _
  simp only [execMrdy, withCtx_some hctx, hentry, bne_self_eq_false, hbank, Bool.not_true, Bool.or_self, Bool.false_eq_true, if_false]

variable (hmb : c.member s.hand.member = some mb)
include hmb

/-- A wait that stands leaves the state as it is. -/
theorem exec_wait_waits {i : Instr} (hi : i = .mwait x ∨ i = .cwait x) (hhold : mb.waitOf i = some h)
    (hres : waitResult (mb.queue (waitEngine i)) h.seq x.tag = .waits) : exec i s = wait s := by
  obtain rfl | rfl := hi
  · show execMwait x s = _
    have hres : waitResult mb.bank.queue h.seq x.tag = .waits := hres
    simp only [execMwait, withCtx_some hctx, hmb, hhold, hres, ite_self]
  · show execCwait x s = _
    have hres : waitResult (mb.queue (cwaitEngine x.fn)) h.seq x.tag = .waits := hres
    simp only [execCwait, withCtx_some hctx, hmb, hhold, hres, ite_self]

variable (hin : c.switch = .inside)
include hin

/-- A wait behind a fault raises it. -/
theorem exec_wait_faulty {i : Instr} {y : Cmd} {t : Trap} (hi : i = .mwait x ∨ i = .cwait x) (hhold : mb.waitOf i = some h)
    (hissue : c.rowsIssue = true) (hres : waitResult (mb.queue (waitEngine i)) h.seq x.tag = .faulty y t) :
    exec i s = done (raiseAtWait s c s.hand.member h y.e.seq t) := by
  obtain rfl | rfl := hi
  · show execMwait x s = _
    have hres : waitResult mb.bank.queue h.seq x.tag = .faulty y t := hres
    simp only [execMwait, withCtx_some hctx, hmb, hhold, hin, bne_self_eq_false, hres, hissue, Bool.not_true, Bool.false_eq_true,
      if_false]
  · show execCwait x s = _
    have hres : waitResult (mb.queue (cwaitEngine x.fn)) h.seq x.tag = .faulty y t := hres
    simp only [execCwait, withCtx_some hctx, hmb, hhold, hin, bne_self_eq_false, hres, hissue, Bool.not_true, Bool.false_eq_true,
      if_false]

theorem exec_cwait_over (hhold : mb.waitOf (.cwait x) = some h)
    (hres : waitResult (mb.queue (cwaitEngine x.fn)) h.seq x.tag = .over) :
    exec (.cwait x) s = done (clearHold s c.id s.hand.member h) := by
  show execCwait x s = _
  simp only [execCwait, withCtx_some hctx, hmb, hhold, hin, bne_self_eq_false, hres, Bool.false_eq_true, if_false]

/-- The hazards that an MWAIT covers end with it (R190). -/
def endHazards (k m seq : Nat) (tag : BitVec 16) (s : State) : State :=
  updBank s k m fun b =>
    { b with hazards := b.hazards.filter fun z => !(decide (z.seq < seq) && (tag == 0xFFFF || z.tag == tag)) }

/-- An MWAIT without a flag write ends. -/
theorem exec_mwait_over (hhold : mb.waitOf (.mwait x) = some h) (hres : waitResult mb.bank.queue h.seq x.tag = .over)
    (hflags : x.head.getLsbD 0 = false) :
    exec (.mwait x) s = done (endMwait (endHazards c.id s.hand.member h.seq x.tag s) c.id s.hand.member h) := by
  show execMwait x s = _
  simp only [execMwait, withCtx_some hctx, hmb, hhold, hin, bne_self_eq_false, hres, hflags, Bool.false_eq_true, if_false, endHazards]

section Flags
variable (hhold : mb.waitOf (.mwait x) = some h) (hres : waitResult mb.bank.queue h.seq x.tag = .over)
  (hflags : x.head.getLsbD 0 = true) (hgood : flagsBad s c s.hand.member (pval x.p0) = false)
include hhold hres hflags hgood

/-- A flag write whose range is lent waits. -/
theorem exec_mwait_lent (hlent : ∀ s1, touchRanges c s.hand.member [(.cb, pval x.p0, 32)] s ≠ .ready s1) :
    exec (.mwait x) s = wait s := by
  show execMwait x s = _
  simp only [execMwait, withCtx_some hctx, hmb, hhold, hin, bne_self_eq_false, hres, hflags, touchFlags, hgood, Bool.false_eq_true,
    if_true, if_false]
  cases htouch : touchRanges c s.hand.member [(.cb, pval x.p0, 32)] s with
  | ready s1 => exact absurd htouch (hlent s1)
  | wait => exact ite_self _
  | revoked s1 => exact ite_self _

theorem exec_mwait_flags {s1 : State} (hissue : c.rowsIssue = true) (hbank : bankFor s c mb = true)
    (htouch : touchRanges c s.hand.member [(.cb, pval x.p0, 32)] s = .ready s1) :
    exec (.mwait x) s = done (writeFlags (endHazards c.id s.hand.member h.seq x.tag s1) c s.hand.member mb h (pval x.p0) false) := by
  show execMwait x s = _
  simp only [execMwait, withCtx_some hctx, hmb, hhold, hin, bne_self_eq_false, hres, hflags, touchFlags, hgood, hissue, hbank, htouch,
    Bool.not_true, Bool.or_self, Bool.false_and, Bool.false_eq_true, if_true, if_false, endHazards]

end Flags

end Waits

/-- An aligned range of CB takes the flags (R186). -/
theorem flagsBad_eq_false {s : State} {c : Ctx} {m c0 : Nat} (halign : c0 % 8 = 0) (hplace : (placeOf s c m .cb c0 32).isSome = true) :
    flagsBad s c m c0 = false := by
  simp only [flagsBad, halign, bne_self_eq_false, Bool.false_or, Option.isNone_eq_false_iff, hplace]

/-- The flags go to CB and are cleared, in a bank that is bound and used from then on. -/
theorem writeFlags_good (s : State) (c : Ctx) (m : Nat) (mb : Member) (h : Entry) (c0 : Nat) :
    writeFlags s c m mb h c0 false = endMwait (bufWrite (updBank s c.id m fun b => { b with flags := 0, used := true, bound := true })
      c m .cb c0 (leBytes 32 mb.bank.flags.toNat)) c.id m h := by
  have hbank : bindBank (useBank (updBank s c.id m fun b => { b with flags := 0 }) c.id m) c.id m .matrix =
      updBank s c.id m fun b => { b with flags := 0, used := true, bound := true } := by
    show updBank (updBank (updBank s c.id m _) c.id m fun b => { b with used := true }) c.id m (fun b => { b with bound := true }) = _
    rw [updBank_updBank, updBank_updBank]
    rfl
  simp only [writeFlags, Bool.false_eq_true, if_false, hbank]

/-- Without rows a wait behind a fault ends silently (R308). -/
theorem raiseAtWait_norows {s : State} {c : Ctx} {m : Nat} (hrows : c.memberRows m = []) (h : Entry) (seq : Nat) (t : Trap) :
    raiseAtWait s c m h seq t = clearHold s c.id m h := by
  simp only [raiseAtWait, hrows, List.isEmpty_nil, if_true]

/-- With rows and outside a handler its rows stop and the gang halts (R187, R298). -/
theorem raiseAtWait_rows {s : State} {c : Ctx} {m : Nat} (hrows : c.memberRows m ≠ []) (hhandler : c.handler = false) (h : Entry)
    (seq : Nat) (t : Trap) : raiseAtWait s c m h seq t = s.putCtx { c with
      rows := c.rows.map fun r =>
        if r.live && r.member == m then
          { r with stop := some (seq, t), late := none, held := none, halted := c.halting && r.halted }
        else { r with halted := c.halting && r.halted },
      halting := true } := by
  have hempty : (c.memberRows m).isEmpty = false := by simpa [List.isEmpty_iff] using hrows
  have hstop : raiseAtWait s c m h seq t = s.putCtx (stopRows c (fun r => r.member == m) seq t) := by
    simp only [raiseAtWait, hempty, hhandler, Bool.false_eq_true, if_false]
  rw [hstop, stopRows]
  refine congrArg (fun l => s.putCtx { c with rows := l, halting := true }) (List.map_congr_left fun r _ => ?_)
  split <;> rfl

/-! ### Retirement -/

section Retirement
variable {s s1 : State} {k n : Nat} {y : Cmd} {d : Ctx}

/-- A CPY makes the granules of its destination full when its head asks for it (R212, R347). -/
theorem exec_cpyRetire (h : Retires s k n .copy y d s1) :
    exec (.cpyRetire k n) s = done (match y.e.item with
      | .slot (.cpy e) =>
        if e.head.getLsbD 0 && (placeOf s1 d n .ab (pval e.p0) (pval e.p2)).any (heldBy s1 d)
          then setGranules s1 d n .ab (pval e.p0) (pval e.p2) true else s1
      | _ => s1) :=
  retireHead_ok (cpyRetired n) h

theorem exec_fetchUnitRetire (h : Retires s k n .fetch y d s1) : exec (.fetchUnitRetire k n) s = done s1 :=
  retireHead_ok (fun s _ _ => s) h

/-- A matrix command retires with its bank bound (R192). -/
theorem exec_matrixCommandComplete {mb : Member} (hmb : d.member n = some mb) (hbank : bankFor s d mb = true)
    (h : Retires s k n .matrix y d s1) : exec (.matrixCommandComplete k n) s =
      done (s1.updMember k n fun b => { b with bank := { b.bank with bound := true } }) := by
  show execMatrixCommandComplete k n s = _
  simp only [execMatrixCommandComplete, h.1, Option.bind_some, hmb, Option.map_some, hbank, if_true]
  exact retireHead_ok (fun s _ _ => bindBank s k n .matrix) h

end Retirement

/-- Settles O45: the waits by how they stand (`waitResult_over`, `waitResult_waits`, `waitResult_faulty`), the retirements by
`retireHead_ok`. -/
theorem waitsAndRetirement : Obligations.WaitsAndRetirement := by
  unfold Obligations.WaitsAndRetirement
  intro s c mb x hctx hmb m covered
  refine ⟨?mrdy, ?mwait, ?cwait, ?waits, ?faulty, fun k n y d s1 => ⟨exec_cpyRetire, exec_fetchUnitRetire, ?matrix⟩⟩
  case mrdy => exact fun e hentry hbank => exec_mrdy hctx hentry hbank
  case mwait =>
    intro h hhold hin hnone ended finished
    have hres : waitResult mb.bank.queue h.seq x.tag = .over := waitResult_over hnone
    refine ⟨exec_mwait_over hctx hmb hin hhold hres, ?lent, ?flags⟩
    case lent =>
      intro hflags halign hplace hlent
      exact exec_mwait_lent hctx hmb hin hhold hres hflags (flagsBad_eq_false halign hplace) hlent
    case flags =>
      intro s1 hflags hissue hbank halign hplace htouch
      rw [exec_mwait_flags hctx hmb hin hhold hres hflags (flagsBad_eq_false halign hplace) hissue hbank htouch, writeFlags_good]
      rfl
  case cwait =>
    intro h hhold hin hnone
    rw [← cwaitEngine_eq] at hnone
    exact exec_cwait_over hctx hmb hin hhold (waitResult_over hnone)
  case waits =>
    intro i h hi hhold q
    rintro ⟨z, hz, hcov, hbefore⟩
    refine exec_wait_waits hctx hmb hi hhold ?_
    rw [waitEngine_eq hi]
    exact waitResult_waits hz hcov hbefore
  case faulty =>
    intro i h y t hi hhold hin hissue
    dsimp only
    rintro ⟨hfault, ⟨z, hz, hcov⟩, hbehind⟩
    have hres : waitResult (mb.queue (waitEngine i)) h.seq x.tag = .faulty y t := by
      rw [waitEngine_eq hi]
      exact waitResult_faulty hfault hz hcov hbehind
    rw [exec_wait_faulty hctx hmb hin hi hhold hissue hres]
    refine ⟨fun hrows => ?_, fun hrows hhandler => ?_⟩
    · rw [raiseAtWait_norows hrows]
      rfl
    · rw [raiseAtWait_rows hrows hhandler]
      rfl
  case matrix => exact fun mn hmn hbank hret => exec_matrixCommandComplete hmn hbank hret

end Sys2Proof.Machine

/-! ## The return from a lane trap behind EXIT (R29, R303) -/

namespace Sys2Proof.Machine
open Sys2Proof.Safety

/-- A command that the row has yet to pass: an MCLR, which does not keep a row from retiring behind EXIT (log 32). -/
def unpassedCommand : Entry := { seq := 0, esn := 1, item := .slot (.mclr ⟨0, 0, 0, .lit 0, .lit 0, .lit 0, .lit 0⟩) }

/-- A lane trap of row 0, taken after the generator's EXIT. -/
def trapBehindExit : Handling :=
  { trap := { cause := .bufv, dom := .l, esn := 1 }, row := some 0, eng := none, marker := false, afterExit := true, resume := 0,
    skipLen := 0 }

/-- The handler of that trap, with the command next in the row's stream. -/
def handlerBehindExit : Ctx :=
  { probeCtx with priv := true, handler := true, handling := some trapBehindExit, stream := [unpassedCommand] }

/-- The device that runs it. -/
def deviceBehindExit : State := { State.reset with phase := .running, ctxs := [handlerBehindExit] }

theorem returning_behindExit : Returning deviceBehindExit handlerBehindExit trapBehindExit :=
  ⟨rfl, rfl, rfl, rfl, rfl, rfl, rfl, rfl, rfl⟩

/-- The position of row 0 of context 0 after a step. -/
def issueAfter : Out → Option Nat
  | .next t => (t.ctxOf 0).bind fun c => (c.rowOf 0).map fun r => r.issue
  | _ => none

/-- The return retires the row before the skip could pass the command: its position stays. -/
theorem issueAfter_grteSkip : issueAfter (exec .grteSkip deviceBehindExit) = some 0 := by decide +kernel

/-- Refutes O25: a skip does not always pass the slot that the reported row takes next, since the clause does not ask that this slot be a
lane instruction's.  Behind EXIT a row retires as the handler returns once no slot before it keeps it (R29, log 32); an engine command that
is still to be handed over keeps none, so that a row whose next entry is one retires where it stands. -/
theorem not_handlerReturn : ¬ Obligations.HandlerReturn := by
  unfold Obligations.HandlerReturn
  rintro ⟨hreturn, -⟩
  obtain ⟨-, hlane⟩ := hreturn deviceBehindExit handlerBehindExit trapBehindExit true .grteSkip (by simp) returning_behindExit
  obtain ⟨t, c', hexec, ⟨-, -, hctx, -⟩, -, -, -, hskip, -⟩ := hlane (Or.inl rfl) rfl rfl
  obtain ⟨r', hrow, hissue⟩ := hskip 0 (freshRow probeLaunch.params 0 0 0) unpassedCommand _ rfl rfl rfl rfl rfl rfl rfl rfl
  have hctx : t.ctxOf 0 = some c' := hctx
  have hafter : issueAfter (exec .grteSkip deviceBehindExit) = some r'.issue := by
    rw [hexec]
    simp only [issueAfter, hctx, hrow, Option.bind_some, Option.map_some]
  rw [issueAfter_grteSkip, hissue] at hafter
  exact absurd (Option.some.inj hafter) (by decide)

end Sys2Proof.Machine

/-! ## A generator store across two lines (R198, R213, R222, R227) -/

namespace Sys2Proof.Machine
open Sys2Proof.Safety

/-- A translation whose first byte is the last one of a line of region 0x1.  A leaf's address is a multiple of its page's size (R198), so
that no walk ends in it; the statement asks that of no cached translation. -/
def oddPage : Xlat :=
  { base := 0, size := 2 ^ 16, pa := 2 ^ 52 + 127, rep := false, fmt := 0, r := true, w := true, x := false, u := true }

/-- Every second line from the start of region 0x1, with every byte stored, to the number of lines that an ash context may hold (R221). -/
def heldLines : List PsbLine :=
  (List.range Config.ashLines).map fun k => { loc := ⟨2 ^ 52 + 256 * k, false⟩, data := List.replicate 128 (some 1) }

/-- The leader whose share of the store buffer is full. -/
def fullLeader : Member := { freshMember probeLaunch.params 0 with psb := heldLines }

/-- An ash context with that leader. -/
def fullCtx : Ctx := { probeCtx with cls := .ash, members := [fullLeader] }

/-- The device that runs it; no port has accepted a line. -/
def fullDevice : State := { State.reset with phase := .running, ctxs := [fullCtx], tlb := [(0, oddPage)] }

/-- GST.h of g0 at address 0: two bytes of zero, one in the oldest line held, one in the next line, which is not held. -/
def twoLineStore : Instr := .gst .next .h 0 0 0

/-- The locations of its two bytes. -/
def twoLineLocs : List GLoc := [⟨2 ^ 52 + 127, false⟩, ⟨2 ^ 52 + 128, false⟩]

theorem genAccess_twoLines : GenAccess fullDevice fullCtx 0 (sizeBytes .h) .store fullLeader twoLineLocs :=
  ⟨rfl, by decide +kernel, rfl, rfl, ⟨(⟨2 ^ 52 + 127, false⟩, 0), by decide +kernel, rfl⟩, rfl, rfl, nofun, rfl⟩

/-- What the ports have accepted after a step. -/
def acceptedAfter : Out → List Accepted
  | .next t => t.accepted
  | _ => []

/-- The entry of a port for a line of context 0. -/
def portEntry (p : PsbLine) : Accepted := ⟨0, p.loc.region, p.bytes, none, p.vas⟩

/-- The first byte goes into the oldest line; the second needs a new entry, under whose pressure that line drains, with the first byte
in it. -/
theorem acceptedAfter_twoLineStore : ∃ x ∈ acceptedAfter (exec twoLineStore fullDevice),
    (⟨2 ^ 52 + 127, false⟩, 0) ∈ x.bytes ∧ ∀ p ∈ fullLeader.psb, x ≠ portEntry p := by decide +kernel

/-- Refutes O19: what a port accepts is not always a line as the leader's buffer held it.  The clause does not ask that the store's bytes
lie in one line: where a cached translation puts them in two, the first byte is merged into the oldest line of a full share, and the entry
for the second drains that line, so that the port accepts a byte of this very store. -/
theorem not_generatorStoreFrame : ¬ Obligations.GeneratorStoreFrame := by
  unfold Obligations.GeneratorStoreFrame
  intro h
  obtain ⟨t, c', mb', hexec, -, -, -, -, -, -, -, haccepted, -⟩ :=
    h fullDevice fullCtx .next .h 0 0 0 fullLeader twoLineLocs ⟨rfl, by decide⟩ rfl (by decide) genAccess_twoLines
  obtain ⟨x, hx, -, hnew⟩ := acceptedAfter_twoLineStore
  rw [twoLineStore, hexec] at hx
  rcases haccepted x hx with hold | ⟨p, hp, rfl⟩
  · exact absurd hold List.not_mem_nil
  · exact hnew p hp rfl

end Sys2Proof.Machine

/-! ## Generator arithmetic (R107, R362, R363, R365, R366) -/

namespace Sys2Proof.Machine
open Sys2Proof.Safety

/-- Settles O3: reset lists no byte. -/
theorem resetHasCanonicalMemory : Obligations.ResetHasCanonicalMemory := by
  unfold Obligations.ResetHasCanonicalMemory Safety.State.Inv
  rfl

/-- Settles O4: the decoder evaluated on each printed slot. -/
theorem printedEncodingsDecode : Obligations.PrintedEncodingsDecode := by
  unfold Obligations.PrintedEncodingsDecode
  decide

/-! ### Slots of format G -/

/-- A slot of format G holds its fields where R107 has them. -/
theorem formG_packG (q : Seq) (op : BitVec 8) (gd ga gb : GReg) (imm : Bool) (v : BitVec 16) :
    FormG (packG q op gd ga gb imm v) op gd ga gb imm v := by
  obtain ⟨-, hop, hgd, hga, hgb, himm, hv⟩ := packG_fields q op gd ga gb imm v
  exact ⟨Laws.packG_clear q op gd ga gb imm v, hop, hgd, hga, hgb, himm, hv⟩

/-! ### Values of R362 -/

/-- A shift count is the low six bits of its operand. -/
theorem shiftCount_eq (y : DWord) : (y.extractLsb' 0 6).toNat = y.toNat % 64 := by
  simp [BitVec.extractLsb'_toNat]

/-- The quotient with its corner cases; the overflowing one wraps to the dividend. -/
theorem divSigned_eq (x y : DWord) : divSigned x y = if y = 0 then BitVec.allOnes 64
    else if x = 0x8000000000000000 ∧ y = BitVec.allOnes 64 then 0x8000000000000000 else BitVec.ofInt 64 (x.toInt.tdiv y.toInt) := by
  unfold divSigned
  simp only [beq_iff_eq]
  split
  · rfl
  · split
    next h => obtain ⟨rfl, rfl⟩ := h; decide
    next => rfl

/-- The remainder with its corner cases. -/
theorem remSigned_eq (x y : DWord) : remSigned x y = if y = 0 then x
    else if x = 0x8000000000000000 ∧ y = BitVec.allOnes 64 then 0 else BitVec.ofInt 64 (x.toInt - y.toInt * x.toInt.tdiv y.toInt) := by
  unfold remSigned
  simp only [beq_iff_eq]
  split
  · rfl
  · split
    next h => obtain ⟨rfl, rfl⟩ := h; decide
    next => rw [Int.tmod_def]

theorem sshiftRight_eq_ofInt (x : DWord) (n : Nat) : x.sshiftRight n = BitVec.ofInt 64 (x.toInt / 2 ^ n) := by
  rw [BitVec.sshiftRight, Int.shiftRight_eq_div_pow]
  norm_cast

/-- Settles O7: the layouts by `formG_packG`; every result is a computation on clean sources, `genCompute_ok`. -/
theorem twoSourceResults : Obligations.TwoSourceResults := by
  unfold Obligations.TwoSourceResults
  refine ⟨fun q d a b x hx => ?layout, fun s c q d a b hready hseq => ?results⟩
  case layout =>
    simp only [List.mem_cons, List.not_mem_nil, or_false] at hx
    cases b <;> rcases hx with rfl | rfl | rfl | rfl | rfl | rfl | rfl | rfl | rfl | rfl | rfl | rfl | rfl | rfl <;>
      exact ⟨_, rfl, formG_packG ..⟩
  case results =>
    have two : ∀ f : DWord → DWord → DWord, genTwo s q d a b f = .next (genDone s c q d (f (c.greg a) (c.src b))) :=
      fun f => genCompute_ok hready hseq
    have sle : ∀ x y : DWord, x.sle y = true ↔ x.toInt ≤ y.toInt := fun x y => by simp [BitVec.sle]
    cases b with
    | reg _ | imm _ =>
      dsimp only
      rw [← divSigned_eq, ← remSigned_eq, shiftCount_eq, ← sshiftRight_eq_ofInt]
      simp only [← sle]
      exact ⟨two _, two _, two _, two mulHigh, two divSigned, two remSigned, two _, two _, two _,
        two fun x y => x <<< (y.toNat % 64), two fun x y => x >>> (y.toNat % 64), two fun x y => x.sshiftRight (y.toNat % 64),
        two fun x y => if x.sle y then x else y, two fun x y => if y.sle x then x else y⟩

/-! ### Counts (R365) -/

theorem leadingZeros_spec (x : DWord) : leadingZeros 64 x.toNat ≤ 64 ∧
    (∀ k, 64 - leadingZeros 64 x.toNat ≤ k → x.getLsbD k = false) ∧
    (leadingZeros 64 x.toNat < 64 → x.getLsbD (63 - leadingZeros 64 x.toNat) = true) := by
  unfold leadingZeros
  by_cases hx : x.toNat = 0
  · have hz : x = 0 := BitVec.eq_of_toNat_eq hx
    subst hz
    simp
  · rw [if_neg (by simpa using hx)]
    have hlog : Nat.log2 x.toNat < 64 := (Nat.log2_lt hx).2 x.isLt
    refine ⟨by omega, fun k hk => ?_, fun _ => ?_⟩
    · refine Nat.testBit_lt_two_pow (Nat.lt_of_lt_of_le ((Nat.log2_lt hx).1 (Nat.lt_succ_self _)) ?_)
      exact Nat.pow_le_pow_right (by decide) (by omega)
    · rw [show 63 - (64 - 1 - Nat.log2 x.toNat) = Nat.log2 x.toNat by omega]
      exact Nat.testBit_log2 hx

theorem popCount_eq_countP (n : Nat) : ∀ v, popCount n v = (List.range n).countP fun k => v.testBit k := by
  induction n with
  | zero => intro v; rfl
  | succ n ih =>
    intro v
    rw [List.range_succ_eq_map, List.countP_cons, List.countP_map, popCount, ih]
    have hbit : (if v.testBit 0 = true then 1 else 0) = v % 2 := by
      rw [Nat.testBit_zero]
      rcases Nat.mod_two_eq_zero_or_one v with h | h <;> simp [h]
    rw [hbit, Nat.add_comm]
    congr 1
    exact List.countP_congr fun k _ => by simp [Nat.testBit_succ]

/-- GLIH shifts the register up by 29 places and adds the constant. -/
theorem glih_value (x : DWord) (v : BitVec 29) : x * 0x20000000 + v.zeroExtend 64 = BitVec.ofNat 64 (x.toNat * 2 ^ 29 + v.toNat) := by
  have hpow : (0x20000000 : DWord).toNat = 2 ^ 29 := by decide
  rw [BitVec.ofNat_add, BitVec.ofNat_mul, BitVec.ofNat_toNat, BitVec.setWidth_eq, ← hpow, BitVec.ofNat_toNat, BitVec.setWidth_eq,
    BitVec.ofNat_toNat]

/-- Settles O8: the layouts by `formG_packG`, the results by `genCompute_ok`, the counts by `leadingZeros_spec` and
`popCount_eq_countP`. -/
theorem oneSourceResults : Obligations.OneSourceResults := by
  unfold Obligations.OneSourceResults
  refine ⟨fun q d a b f => ⟨⟨_, rfl, formG_packG ..⟩, ⟨_, rfl, formG_packG ..⟩, _, rfl, formG_packG ..⟩, by decide,
    fun s c q d a b f hready hseq => ⟨genCompute_ok hready hseq, ?always⟩, fun s c q d a hready hseq => ⟨⟨_, genCompute_ok hready hseq,
      leadingZeros_spec (c.greg a)⟩, ?popc⟩, fun s c q d v hready hseq => ⟨?gli, ?glih⟩⟩
  case always => exact genCompute_ok (f := fun c => if c.flag 7 then c.greg a else c.greg b) hready hseq
  case popc =>
    have hcount : ((List.range 64).countP fun k => (c.greg a).getLsbD k) = popCount 64 (c.greg a).toNat :=
      (popCount_eq_countP 64 _).symm
    rw [hcount]
    exact genCompute_ok hready hseq
  case gli => exact genCompute_ok (f := fun _ => v.signExtend 64) ⟨hready.1, fun _ h => absurd h List.not_mem_nil⟩ hseq
  case glih =>
    rw [← glih_value]
    exact genCompute_ok (f := fun c => c.greg d * 0x20000000 + v.zeroExtend 64) hready hseq

end Sys2Proof.Machine

/-! ## Setters, register jumps and software traps (R253, R364, R373, R374, R378, R384) -/

namespace Sys2Proof

/-! ### The slot of GJMPR -/

/-- A field is zero when its bits are. -/
theorem field_eq_zero_iff (w : DWord) (lo n : Nat) : w.extractLsb' lo n = 0 ↔ w.toNat / 2 ^ lo % 2 ^ n = 0 := by
  rw [← BitVec.toNat_inj, BitVec.extractLsb'_toNat, Nat.shiftRight_eq_div_pow]
  simp

/-- The sequencing is `.next` when SEQ, FS and OFF are all zero (R110). -/
theorem decodeSeq_next_iff (w : DWord) : decodeSeq w = some .next ↔ w.extractLsb' 43 20 = 0 := by
  have hsplit : w.extractLsb' 43 20 = 0 ↔ (fieldOf w 60 3).toNat = 0 ∧ w.extractLsb' 57 3 = 0 ∧ w.extractLsb' 43 14 = 0 := by
    simp only [field_eq_zero_iff, fieldOf, BitVec.extractLsb'_toNat, Nat.shiftRight_eq_div_pow]
    omega
  rw [hsplit]
  unfold decodeSeq
  generalize (fieldOf w 60 3).toNat = sel
  dsimp only
  split
  case h_1 => simp [fieldOf]
  case h_7 => split <;> simp
  all_goals simp_all

/-- The row of R136 for GJMPR. -/
theorem decodeG_gjmpr {w : DWord} (h : w.extractLsb' 35 8 = 0x61) : decodeG w =
    if w.extractLsb' 43 20 = 0 ∧ w.extractLsb' 29 6 = 0 ∧ w.extractLsb' 18 5 = 0 ∧ w.extractLsb' 0 17 = 0
      then some (.gjmpr (w.getLsbD 17) (w.extractLsb' 23 6)) else none := by
  have hop : (fieldOf w 35 8).toNat = 0x61 := by unfold fieldOf; rw [h]; rfl
  have himm : w.extractLsb' 0 17 = 0 ↔ w.getLsbD 16 = false ∧ fieldOf w 0 16 = 0 := by
    simp only [fieldOf, field_eq_zero_iff, BitVec.getLsbD, Nat.testBit_eq_decide_div_mod_eq, decide_eq_false_iff_not]
    omega
  have hgb : w.extractLsb' 18 5 = 0 ↔ (fieldOf w 17 6).toNat < 2 := by
    simp only [field_eq_zero_iff, fieldOf, BitVec.extractLsb'_toNat, Nat.shiftRight_eq_div_pow]
    omega
  have hlink : (fieldOf w 17 6).getLsbD 0 = w.getLsbD 17 := by simp [fieldOf]
  have hgd : w.extractLsb' 29 6 = fieldOf w 29 6 := rfl
  have hnext := decodeSeq_next_iff w
  unfold decodeG
  dsimp only
  rw [hop, hlink]
  cases hq : decodeSeq w with
  | none =>
    rw [hq] at hnext
    exact (if_neg fun hz => Option.some_ne_none _ (hnext.2 hz.1).symm).symm
  | some q =>
    rw [hq, Option.some_inj] at hnext
    refine if_congr ?_ rfl rfl
    rw [← hnext, himm, hgb, hgd]
    simp only [Bool.and_eq_true, beq_iff_eq, Bool.not_eq_true', decide_eq_true_eq]
    tauto

theorem decodeBytes_gjmpr {w : DWord} (hg : w.getLsbD 63 = false) (h : w.extractLsb' 35 8 = 0x61) : decodeBytes (slotBytes w) =
    if w.extractLsb' 43 20 = 0 ∧ w.extractLsb' 29 6 = 0 ∧ w.extractLsb' 18 5 = 0 ∧ w.extractLsb' 0 17 = 0
      then .ok (.gjmpr (w.getLsbD 17) (w.extractLsb' 23 6)) else .error .illegal := by
  rw [decodeBytes_slotBytes (Laws.slotLength_of_clear w hg), decodeSlots, hg, if_neg Bool.false_ne_true, decodeG_gjmpr h]
  by_cases hfields : w.extractLsb' 43 20 = 0 ∧ w.extractLsb' 29 6 = 0 ∧ w.extractLsb' 18 5 = 0 ∧ w.extractLsb' 0 17 = 0
  · rw [if_pos hfields, if_pos hfields]
  · rw [if_neg hfields, if_neg hfields]

end Sys2Proof

namespace Sys2Proof.Machine
open Sys2Proof.Safety

/-! ### Setters -/

/-- The conditions of R364 on integers. -/
theorem gcond_eq (cc : GCond) (x y : DWord) : gcond cc x y = match cc with
    | .eq => decide (x = y)
    | .ne => decide (x ≠ y)
    | .lt => decide (x.toInt < y.toInt)
    | .le => decide (x.toInt ≤ y.toInt)
    | .ltu => decide (x.toNat < y.toNat)
    | .leu => decide (x.toNat ≤ y.toNat) := by
  cases cc with
  | ne => simp [gcond, bne, beq_eq_decide]
  | _ => rfl

/-- Settles O9: every setter is a clean read and its own write, `genStep_ok`. -/
theorem setterResults : Obligations.SetterResults := by
  unfold Obligations.SetterResults
  refine ⟨fun c v => ⟨rfl, rfl⟩, ?gcmp, ?gloop, ?hset, ?stream⟩
  case gcmp =>
    intro s c q cc f a b hready hseq
    have hset : exec (.gcmp q cc f a b) s = .next (genNext s (c.setFlag f (gcond cc (c.greg a) (c.src b))) q) := by
      show execGcmp q cc f a b s = _
      refine genStep_ok hready ?_ hseq
      rfl
    refine hset.trans ?_
    rewrite [gcond_eq]
    cases cc <;> rfl
  case gloop =>
    intro s c q n b hready hseq
    rw [← BitVec.setWidth_eq_extractLsb' (by decide)]
    show execGloop q n b s = _
    refine genStep_ok hready ?_ hseq
    rfl
  case hset =>
    intro s c q h b hready hseq
    rw [← BitVec.setWidth_eq_extractLsb' (by decide)]
    show execHset q h b s = _
    refine genStep_ok hready ?_ hseq
    rfl
  case stream =>
    intro s c q f n hready hseq
    have hend : decide ((c.streamReg n.toNat).isOpen = false ∨ (c.streamReg n.toNat).len ≤ (c.streamReg n.toNat).cur) =
        (!(c.streamReg n.toNat).isOpen || decide ((c.streamReg n.toNat).len ≤ (c.streamReg n.toNat).cur)) := by
      rw [Bool.decide_or, Bool.decide_eq_false]
    dsimp only
    rw [hend]
    constructor
    · show execSeof q f n s = _
      refine genStep_ok hready ?_ hseq
      rfl
    · show execScls q n s = _
      refine genStep_ok hready ?_ hseq
      rfl

/-! ### Jumps and software traps -/

/-- A jump whose register is clean and whose return address has room. -/
theorem exec_gjmpr {s : State} {c : Ctx} {link : Bool} {a : GReg} (hready : GenReady s c [a])
    (hroom : link = true → c.rstack.length < 16) :
    exec (.gjmpr link a) s = done (s.putCtx { c with
      pc := c.greg a, rstack := if link then c.rstack ++ [c.pc + 1] else c.rstack, ir := none, gen := .running,
      genCount := c.genCount + 1 }) := by
  show withCtx s _ = _
  rw [withCtx_some hready.1, hready.2 a (List.mem_singleton_self a), if_neg Bool.false_ne_true, if_neg]
  cases link with
  | false => simp
  | true => simpa using hroom rfl

/-- With sixteen return addresses a jump that links raises RSOVF. -/
theorem exec_gjmpr_full {s : State} {c : Ctx} {a : GReg} (hctx : s.ctxOf s.hand.ctx = some c) (hclean : s.gPoisoned c.id a = false)
    (hfull : c.rstack.length = 16) : exec (.gjmpr true a) s = genFault s c .rsovf 0 := by
  show withCtx s _ = _
  rw [withCtx_some hctx, hclean, if_neg Bool.false_ne_true, if_pos (by simp [hfull])]

/-- Settles O14: the slot by `decodeBytes_gjmpr`, the jump by `exec_gjmpr`, the full stack by `exec_gjmpr_full`. -/
theorem registerJump : Obligations.RegisterJump := by
  unfold Obligations.RegisterJump
  refine ⟨fun w hg hop => decodeBytes_gjmpr hg hop, by decide, fun s c link a hready => ⟨fun hroom => ?jump, fun hlink hfull hcan => ?full⟩⟩
  case jump =>
    have hself : s.ctxOf c.id = some c := ctxOf_id hready.1 ▸ hready.1
    exact ⟨_, _, exec_gjmpr hready hroom, ⟨rfl, fun j hj => ctxOf_putCtx_other s _ hj⟩, fun _ => rfl,
      ctxOf_putCtx_self (s := s) (c := { c with
        pc := c.greg a, rstack := if link then c.rstack ++ [c.pc + 1] else c.rstack, ir := none, gen := .running,
        genCount := c.genCount + 1 }) hself, rfl⟩
  case full =>
    subst hlink
    rw [exec_gjmpr_full hready.1 (hready.2 a (List.mem_singleton_self a)) hfull]
    exact genFault_taken hcan (ctxOf_id hready.1 ▸ hready.1)

/-- GTRAP traps behind its own sequencing, in the context that this leaves. -/
theorem exec_gtrap {s : State} {c : Ctx} {q : Seq} (hctx : s.ctxOf s.hand.ctx = some c) (hseq : SeqOk c q) (hq : q ≠ .exit)
    (v : BitVec 16) : exec (.gtrap q v) s =
      genFault (s.putCtx (c.counted.nextPc q)) (c.counted.nextPc q) .gtrap (v.zeroExtend 64) := by
  have hid : (c.counted.nextPc q).id = c.id := nextPc_id _ q
  have hself : (s.putCtx (c.counted.nextPc q)).ctxOf c.id = some (c.counted.nextPc q) := by
    rw [← hid]
    exact ctxOf_putCtx_self (by rw [hid, ctxOf_id hctx]; exact hctx)
  have hret : retireGen s c q = s.putCtx (c.counted.nextPc q) := by
    cases q with
    | exit => exact absurd rfl hq
    | _ => rfl
  show withCtx s _ = _
  rw [withCtx_some hctx, hseq]
  dsimp only
  rw [hret, hself]

/-- Settles O24: `exec_gtrap`, and the trap is taken in the context behind the sequencing. -/
theorem softwareTrap : Obligations.SoftwareTrap := by
  unfold Obligations.SoftwareTrap
  intro s c q v hctx hseq hq hcan
  have hid : (c.counted.nextPc q).id = c.id := nextPc_id _ q
  have hself : (s.putCtx (c.counted.nextPc q)).ctxOf (c.counted.nextPc q).id = some (c.counted.nextPc q) :=
    ctxOf_putCtx_self (by rw [hid, ctxOf_id hctx]; exact hctx)
  have hcan1 : CanTrap (c.counted.nextPc q) := by rw [nextPc_frame]; exact hcan
  obtain ⟨t, ht, htrap⟩ := genFault_taken (k := .gtrap) (a := v.zeroExtend 64) hcan1 hself
  exact ⟨t, (exec_gtrap hctx hseq hq v).trans ht, htrap, rfl⟩

end Sys2Proof.Machine

/-! ## Loads, stores and atomics of the generator (R223, R242, R252, R316, R367-R371) -/

namespace Sys2Proof.Machine
open Sys2Proof.Safety

/-! ### Numbers and bytes -/

theorem leNat_lt (bs : List Byte) : leNat bs < 256 ^ bs.length := by
  induction bs with
  | nil => decide
  | cons b bs ih =>
    have hb := b.isLt
    rw [leNat, List.length_cons, Nat.pow_succ]
    omega

/-- An unsigned element in a `g` register. -/
theorem ofInt_elemInt_unsigned {w v : Nat} (hv : v < 2 ^ w) : BitVec.ofInt 64 (elemInt false w v) = (BitVec.ofNat w v).zeroExtend 64 := by
  apply BitVec.eq_of_toNat_eq
  simp [elemInt, BitVec.toNat_setWidth, Nat.mod_eq_of_lt hv]

/-- A signed element in a `g` register. -/
theorem ofInt_elemInt_signed {w v : Nat} (hw : 0 < w) (hv : v < 2 ^ w) :
    BitVec.ofInt 64 (elemInt true w v) = (BitVec.ofNat w v).signExtend 64 := by
  have hnat : (BitVec.ofNat w v).toNat = v := Nat.mod_eq_of_lt hv
  rw [← hnat, elemInt_toNat hw, hnat]
  rfl

theorem leBytes_toNat (n : Nat) (x : DWord) : leBytes n x.toNat = (List.range n).map fun k => x.extractLsb' (8 * k) 8 := by
  apply List.ext_getElem?
  intro k
  by_cases hk : k < n
  · rw [leBytes_getElem? n x.toNat k hk, List.getElem?_map, List.getElem?_range hk, Option.map_some]
    congr 1
    apply BitVec.eq_of_toNat_eq
    rw [BitVec.toNat_ofNat, BitVec.extractLsb'_toNat, Nat.shiftRight_eq_div_pow, Nat.pow_mul]
  · rw [List.getElem?_eq_none (by simpa using hk), List.getElem?_eq_none (by simpa using hk)]

theorem eraseDups_eq_singleton {α : Type} [BEq α] [LawfulBEq α] {l : List α} {a : α} (hne : l ≠ []) (h : ∀ x ∈ l, x = a) :
    l.eraseDups = [a] := by
  cases l with
  | nil => exact absurd rfl hne
  | cons x l =>
    have hx : x = a := h x (List.mem_cons_self ..)
    subst hx
    have hrest : (l.filter fun b => !b == x) = [] := by
      rw [List.filter_eq_nil_iff]
      intro y hy
      simp [h y (List.mem_cons_of_mem x hy)]
    rw [List.eraseDups_cons, hrest]
    rfl

/-! ### The checks of an access -/

/-- An access whose checks hold goes to memory. -/
theorem genMemory_ok {s : State} {c : Ctx} {addr : DWord} {n : Nat} {k : Access} {mb : Member} {ls : List GLoc}
    (h : GenAccess s c addr.toNat n k mb ls) (onDump : Nat → GenRes) (f : Member → List GLoc → GenRes) :
    genMemory s c addr n k onDump f = f mb ls := by
  obtain ⟨horder, hmono, hcanon, halign, ⟨⟨l, fmt⟩, htrans, rfl⟩, hmb, hpoison, hport, hdump⟩ := h
  have htr : translate s c.domain addr.toNat (!c.priv) k = .ok (l, fmt) := by
    cases hx : translate s c.domain addr.toNat (!c.priv) k with
    | error e => rw [hx] at htrans; cases htrans
    | ok x => rw [hx] at htrans; cases htrans; rfl
  have hacc : genAccess s c addr.toNat n k = .ok ((List.range n).map l.next) := by
    unfold genAccess
    rw [hcanon, halign, htr]
    rfl
  have hbusy : (k == .load && portBusy s ((List.range n).map l.next)) = false := by
    by_cases hk : k = .load
    · rw [hport hk, Bool.and_false]
    · rw [beq_eq_false_iff_ne.2 hk, Bool.false_and]
  unfold genMemory
  rw [horder, hmono, hcanon, halign, hdump]
  rw [Bool.or_self, if_neg Bool.false_ne_true, ite_self]
  dsimp only
  rw [hacc, hmb]
  dsimp only
  rw [hbusy, if_neg Bool.false_ne_true, hpoison]

/-- An access of a switch handler to the engine dump (R316). -/
theorem genMemory_dump {s : State} {c : Ctx} {addr : DWord} {n off : Nat} {k : Access} (h : DumpAccess s c addr.toNat n off)
    (onDump : Nat → GenRes) (f : Member → List GLoc → GenRes) : genMemory s c addr n k onDump f = onDump off := by
  obtain ⟨horder, hmono, hcanon, halign, hdump⟩ := h
  unfold genMemory
  rw [horder, hmono, hcanon, halign, hdump]
  rfl

theorem genAccess_length {s : State} {c : Ctx} {a n : Nat} {k : Access} {mb : Member} {ls : List GLoc} (h : GenAccess s c a n k mb ls) :
    ls.length = n := by
  obtain ⟨-, -, -, -, ⟨x, -, rfl⟩, -⟩ := h
  simp

theorem genLoad_ok {s : State} {c : Ctx} {addr : DWord} {n : Nat} {mb : Member} {ls : List GLoc}
    (h : GenAccess s c addr.toNat n .load mb ls) (f : List Byte → Ctx → GenRes) :
    genLoad s c addr n f = f (loadBytes s.mem mb ls).1 (c.putMember 0 (loadBytes s.mem mb ls).2) :=
  genMemory_ok h _ _

theorem loadBytes_length (m : List Host.Cell) (mb : Member) (ls : List GLoc) : (loadBytes m mb ls).1.length = ls.length := by
  simp [loadBytes]

/-! ### Locations of one line -/

section Line
variable {l : GLoc} {k : Nat} (h : l.pa % 128 + k < 128)
include h

theorem next_line : (l.next k).line = l.line := by
  have : l.pa + k - (l.pa + k) % 128 = l.pa - l.pa % 128 := by omega
  simp [GLoc.next, GLoc.line, this]

theorem next_place : (l.next k).pa % 128 = l.pa % 128 + k := by
  show (l.pa + k) % 128 = _
  omega

theorem next_on (die : Nat) : (l.next k).on die = l.on die + k := by
  unfold GLoc.on GLoc.next
  dsimp only
  split <;> omega

end Line

theorem on_place (l : GLoc) (die : Nat) : l.on die % 128 = l.pa % 128 := by
  unfold GLoc.on
  split <;> omega

/-! ### Loads (R223) -/

@[simp] theorem snapshotLine_psb (m : List Host.Cell) (mb : Member) (pa : Nat) : (snapshotLine m mb pa).psb = mb.psb := by
  unfold snapshotLine; split <;> rfl
@[simp] theorem snapshotLine_cluster (m : List Host.Cell) (mb : Member) (pa : Nat) : (snapshotLine m mb pa).cluster = mb.cluster := by
  unfold snapshotLine; split <;> rfl


/-- What a load finds of a line in the snapshots: the view's, else the one taken ahead, else the bytes at home. -/
def Member.lineData (mb : Member) (m : List Host.Cell) (line : Nat) : List Byte :=
  ((mb.view.find? fun w => w.pa == line).map fun w => w.data).getD (mb.snapData m line)

theorem snapshotLine_seen {mb : Member} {line : Nat} (h : (mb.view.find? fun w => w.pa == line).isSome = true) (m : List Host.Cell) :
    snapshotLine m mb line = mb :=
  if_pos (List.find?_isSome.1 h |> fun ⟨w, hw, hp⟩ => List.any_eq_true.2 ⟨w, hw, hp⟩)

theorem snapshotLine_new {mb : Member} {line : Nat} (h : (mb.view.find? fun w => w.pa == line) = none) (m : List Host.Cell) :
    snapshotLine m mb line = { mb with
      view := (if Config.viewLines ≤ mb.view.length then mb.view.drop 1 else mb.view) ++ [⟨line, mb.snapData m line⟩]
      early := mb.early.filter fun w => w.pa != line } := by
  refine if_neg ?_
  rw [List.find?_eq_none] at h
  simpa using h

/-- Behind the snapshot the view holds the line. -/
theorem find_snapshotLine (m : List Host.Cell) (mb : Member) (line : Nat) :
    ((snapshotLine m mb line).view.find? fun w => w.pa == line).map (fun w => w.data) = some (mb.lineData m line) := by
  unfold Member.lineData
  cases hseen : mb.view.find? fun w => w.pa == line with
  | some w =>
    rw [snapshotLine_seen (by rw [hseen]; rfl), hseen]
    rfl
  | none =>
    have hold : (if Config.viewLines ≤ mb.view.length then mb.view.drop 1 else mb.view).find? (fun w => w.pa == line) = none := by
      rw [List.find?_eq_none] at hseen ⊢
      intro w hw
      split at hw
      · exact hseen w (List.mem_of_mem_drop hw)
      · exact hseen w hw
    rw [snapshotLine_new hseen, List.find?_append, hold]
    simp

/-- The byte that the store buffer of a member holds at a place of a line. -/
def Member.bufferedAt (mb : Member) (line : GLoc) (place : Nat) : Option Byte :=
  (mb.psb.find? fun p => p.loc == line).bind fun p => p.data.getD place none

/-- A load within one line. -/
theorem loadBytes_line (m : List Host.Cell) (mb : Member) {l : GLoc} {n : Nat} (hn : n ≠ 0) (hfit : l.pa % 128 + n ≤ 128) :
    let home := l.on (dieOf mb.cluster)
    loadBytes m mb ((List.range n).map l.next) =
      ((List.range n).map fun k => (mb.bufferedAt l.line (l.pa % 128 + k)).getD
        ((mb.lineData m (home - home % 128)).getD (l.pa % 128 + k) 0),
      snapshotLine m mb (home - home % 128)) := by
  intro home
  have hplace := on_place l (dieOf mb.cluster)
  have hlines : ((((List.range n).map l.next).map fun x => x.on (dieOf mb.cluster)).map fun pa => pa - pa % 128).eraseDups =
      [home - home % 128] := by
    refine eraseDups_eq_singleton (by simpa using hn) ?_
    simp only [List.map_map, List.mem_map, List.mem_range, Function.comp_apply]
    rintro x ⟨k, hk, rfl⟩
    rw [next_on (by omega)]
    show l.on (dieOf mb.cluster) + k - _ = l.on (dieOf mb.cluster) - _
    omega
  have hsnap : snapLines m [home - home % 128] mb =
      ((snapshotLine m mb (home - home % 128)).view.filter fun v => v.pa == home - home % 128, snapshotLine m mb (home - home % 128)) := by
    simp [snapLines]
  unfold loadBytes
  dsimp only
  rw [hlines, hsnap]
  refine Prod.ext ?_ rfl
  dsimp only
  rw [List.map_map]
  refine List.map_congr_left fun k hk => ?_
  have hk : l.pa % 128 + k < 128 := by have := List.mem_range.1 hk; omega
  have hfound := find_snapshotLine m mb (home - home % 128)
  have hline : home + k - (home + k) % 128 = home - home % 128 := by
    show l.on (dieOf mb.cluster) + k - _ = l.on (dieOf mb.cluster) - _
    omega
  have hoff : (home + k) % 128 = l.pa % 128 + k := by
    show (l.on (dieOf mb.cluster) + k) % 128 = _
    omega
  unfold loadByte Member.bufferedAt
  dsimp only [Function.comp_apply]
  rw [snapshotLine_psb, snapshotLine_cluster, next_line hk, next_place hk, next_on hk, List.find?_filter]
  cases (mb.psb.find? fun p => p.loc == l.line).bind fun p => p.data.getD (l.pa % 128 + k) none with
  | some v => rfl
  | none =>
    dsimp only
    rw [hline, hoff]
    simp only [Bool.decide_and, Bool.decide_eq_true, Bool.and_self]
    rw [hfound]
    rfl

/-- Bytes of a load past the end of a line's snapshot at home. -/
theorem getD_readN (m : List Host.Cell) {a n k : Nat} (hk : k < n) : (Memory.readN m a n).getD k 0 = Memory.read m (a + k) := by
  simp [Memory.readN, List.getD, hk]

/-- The element of an access in a `g` register (R367). -/
theorem loadValue_eq (sz : Size) (sx : Bool) {bs : List Byte} (h : bs.length ≤ sizeBytes sz) :
    BitVec.ofInt 64 (elemInt sx (8 * sizeBytes sz) (leNat bs)) = match sz, sx with
      | .b, false => (BitVec.ofNat 8 (leNat bs)).zeroExtend 64
      | .h, false => (BitVec.ofNat 16 (leNat bs)).zeroExtend 64
      | .w, false => (BitVec.ofNat 32 (leNat bs)).zeroExtend 64
      | .d, _ => BitVec.ofNat 64 (leNat bs)
      | .b, true => (BitVec.ofNat 8 (leNat bs)).signExtend 64
      | .h, true => (BitVec.ofNat 16 (leNat bs)).signExtend 64
      | .w, true => (BitVec.ofNat 32 (leNat bs)).signExtend 64 := by
  have hlt : leNat bs < 2 ^ (8 * sizeBytes sz) := by
    rw [Nat.pow_mul]
    exact Nat.lt_of_lt_of_le (leNat_lt bs) (Nat.pow_le_pow_right (by decide) h)
  cases sx with
  | false =>
    rw [ofInt_elemInt_unsigned hlt]
    cases sz <;> rfl
  | true =>
    rw [ofInt_elemInt_signed (by cases sz <;> decide) hlt]
    cases sz with
    | d => exact BitVec.signExtend_eq _
    | _ => rfl

/-- Settles O17: the access by `genMemory_ok` and `genMemory_dump`, the element by `loadValue_eq`, the bytes by `loadBytes_line`. -/
theorem generatorLoad : Obligations.GeneratorLoad := by
  unfold Obligations.GeneratorLoad
  intro s c q sz sx d a v hready hseq
  refine ⟨fun mb ls hacc => ?memory, fun off hdump => ?dump, fun m mb l n hfit => ?bytes⟩
  case memory =>
    have hval := loadValue_eq sz sx (Nat.le_of_eq ((loadBytes_length s.mem mb ls).trans (genAccess_length hacc)))
    show execGld q sz sx d a v s = _
    refine (genStep_ok hready (genLoad_ok hacc _) hseq).trans ?_
    rewrite [hval]
    cases sz <;> cases sx <;> rfl
  case dump =>
    have hval := loadValue_eq sz sx (bs := ((dumpBytes c.dump).drop off).take (sizeBytes sz)) (List.length_take_le ..)
    show execGld q sz sx d a v s = _
    refine (genStep_ok hready (genMemory_dump hdump _ _) hseq).trans ?_
    rewrite [hval]
    cases sz <;> cases sx <;> rfl
  case bytes =>
    by_cases hn : n = 0
    · subst hn
      exact ⟨rfl, (if_pos (Or.inl rfl)).symm⟩
    have hplace := on_place l (dieOf mb.cluster)
    dsimp only
    rw [loadBytes_line m mb hn hfit]
    refine ⟨List.map_congr_left fun k hk => ?_, ?_⟩
    · have hk : k < n := List.mem_range.1 hk
      unfold Member.bufferedAt Member.lineData Member.snapData
      cases (mb.psb.find? fun p => p.loc == l.line).bind fun p => p.data.getD (l.pa % 128 + k) none with
      | some b => rfl
      | none =>
        cases mb.view.find? fun w => w.pa == l.on (dieOf mb.cluster) - l.on (dieOf mb.cluster) % 128 with
        | some w => rfl
        | none =>
          cases mb.early.find? fun w => w.pa == l.on (dieOf mb.cluster) - l.on (dieOf mb.cluster) % 128 with
          | some w => rfl
          | none =>
            refine (getD_readN m (by omega)).trans (congrArg (Memory.read m) ?_)
            omega
    · cases hseen : mb.view.find? fun w => w.pa == l.on (dieOf mb.cluster) - l.on (dieOf mb.cluster) % 128 with
      | some w => exact (snapshotLine_seen (by rw [hseen]; rfl) m).trans (if_pos (Or.inr rfl)).symm
      | none =>
        refine (snapshotLine_new hseen m).trans ((if_neg ?_).trans ?_).symm
        · simpa using hn
        · unfold Member.snapData
          cases mb.early.find? fun w => w.pa == l.on (dieOf mb.cluster) - l.on (dieOf mb.cluster) % 128 <;> rfl

/-! ### Atomics (R370, R371) -/

/-- The new value of a GAMO that performs. -/
def gamoValue (op : AtomicOp) (old y : DWord) : DWord :=
  match op with
  | .add => old + y
  | .min => if old.toInt ≤ y.toInt then old else y
  | .max => if y.toInt ≤ old.toInt then old else y
  | .and => old &&& y
  | .or => old ||| y
  | .xor => old ^^^ y
  | .exch | .cas => y

theorem atomicNew_eq (op : AtomicOp) (old y z : DWord) (h : op = .cas → old = z) :
    atomicNew op 64 old.toNat y.toNat z.toNat = (gamoValue op old y).toNat := by
  cases op with
  | add => exact (BitVec.toNat_add old y).symm
  | min | max =>
    simp only [atomicNew, gamoValue, elemInt_toNat (by decide : 0 < 64)]
    split <;> rfl
  | and => exact (BitVec.toNat_and old y).symm
  | or => exact (BitVec.toNat_or old y).symm
  | xor => exact (BitVec.toNat_xor old y).symm
  | exch => rfl
  | cas => simp [atomicNew, gamoValue, h rfl]

/-- A failing `.cas` performs nothing, every other GAMO its new value. -/
theorem gamo_performs (op : AtomicOp) (old y z : DWord) :
    (if op == .cas && old.toNat != z.toNat then none else some (atomicNew op 64 old.toNat y.toNat z.toNat)) =
      if op = .cas ∧ old ≠ z then none else some (gamoValue op old y).toNat := by
  have hcond : (op == .cas && old.toNat != z.toNat) = true ↔ op = .cas ∧ old ≠ z := by
    simp only [Bool.and_eq_true, beq_iff_eq, bne_iff_ne, ne_eq, BitVec.toNat_inj]
  by_cases h : op = .cas ∧ old ≠ z
  · rw [if_pos h, if_pos (hcond.2 h)]
  · rw [if_neg h, if_neg (hcond.not.2 h), atomicNew_eq op old y z fun hop => not_not.1 fun hne => h ⟨hop, hne⟩]

theorem ofNat_leNat_toNat {bs : List Byte} (h : bs.length ≤ 8) : (BitVec.ofNat 64 (leNat bs)).toNat = leNat bs :=
  Nat.mod_eq_of_lt (Nat.lt_of_lt_of_le (leNat_lt bs) (Nat.pow_le_pow_right (by decide) h))

/-- Settles O20: the access by `genMemory_ok` and `genMemory_dump`, what is performed by `gamo_performs`. -/
theorem generatorAtomic : Obligations.GeneratorAtomic := by
  unfold Obligations.GeneratorAtomic
  intro s c q op d a b hready hseq
  have hready' : GenReady s c ([a, b] ++ if (op == .cas) = true then [d] else []) := by simpa only [beq_iff_eq] using hready
  refine ⟨fun mb l ls hacc => ?memory, fun off hdump => ?dump⟩
  case memory =>
    have hlen : (l :: ls).length = 8 := genAccess_length hacc
    have hold := ofNat_leNat_toNat (bs := homeRead (atomicLine c.id s mb l).1.mem 0 (l :: ls)) (by rw [homeRead, List.length_map, hlen])
    have hperf := gamo_performs op (BitVec.ofNat 64 (leNat (homeRead (atomicLine c.id s mb l).1.mem 0 (l :: ls)))) (c.greg b) (c.greg d)
    rw [hold] at hperf
    show execGamo q op d a b s = _
    refine genStep_ok hready' ((genMemory_ok hacc _ _).trans ?_) hseq
    unfold performAtomic genWrite
    dsimp only
    rw [hperf]
    by_cases hfail : op = .cas ∧ BitVec.ofNat 64 (leNat (homeRead (atomicLine c.id s mb l).1.mem 0 (l :: ls))) ≠ c.greg d
    · rw [if_pos hfail, if_pos hfail]
    · rw [if_neg hfail, if_neg hfail]
      dsimp only
      rewrite [hlen, leBytes_toNat]
      cases op <;> rfl
  case dump =>
    have hold := ofNat_leNat_toNat (bs := ((dumpBytes c.dump).drop off).take 8) (List.length_take_le ..)
    have hperf := gamo_performs op (BitVec.ofNat 64 (leNat (((dumpBytes c.dump).drop off).take 8))) (c.greg b) (c.greg d)
    rw [hold] at hperf
    show execGamo q op d a b s = _
    refine genStep_ok hready' ((genMemory_dump hdump _ _).trans ?_) hseq
    unfold genWrite fld
    dsimp only
    rw [hperf]
    by_cases hfail : op = .cas ∧ BitVec.ofNat 64 (leNat (((dumpBytes c.dump).drop off).take 8)) ≠ c.greg d
    · rw [if_pos hfail, if_pos hfail]
    · rw [if_neg hfail, if_neg hfail]
      dsimp only
      rewrite [leBytes_toNat]
      cases op <;> rfl

/-! ### Streams (R252, R401) -/

/-- A reserved bit of the two words of a descriptor. -/
theorem descriptorBad_iff (x y : Nat) : (x / 2 ^ 57 != 0 || y / 2 ^ 33 != 0) = true ↔ ¬(x < 2 ^ 57 ∧ y < 2 ^ 33) := by
  simp only [Bool.or_eq_true, bne_iff_ne]
  omega

/-- Settles O22: two loads by `genLoad_ok`, then the reserved bits of the descriptor. -/
theorem streamOpen : Obligations.StreamOpen := by
  unfold Obligations.StreamOpen
  intro s c q n a mb mb2 ls0 ls1 hready hseq hacc0 r0 c0 hacc1 r1 base w
  have hself : s.ctxOf c.id = some c := ctxOf_id hready.1 ▸ hready.1
  show (_ → _ → execSopen q n a s = _) ∧ (_ → _ → ∃ t, execSopen q n a s = _ ∧ _)
  unfold execSopen
  refine ⟨fun hbase hw => ?opens, fun hbad hcan => ?traps⟩
  case opens =>
    refine genStep_ok hready ((genLoad_ok hacc0 _).trans ((genLoad_ok (addr := c.greg a + 8) hacc1 _).trans ?_)) hseq
    have hval : (w / 2 ^ 32 % 2 == 1) = decide (2 ^ 32 ≤ w) := by
      rw [Bool.eq_iff_iff, beq_iff_eq, decide_eq_true_eq]
      omega
    dsimp only
    rw [if_neg fun hbad => (descriptorBad_iff ..).1 hbad ⟨hbase, hw⟩]
    show GenRes.ok s (Ctx.setStream _ _ ⟨_, _, w / 2 ^ 32 % 2 == 1, _, _⟩) = _
    rw [hval]
  case traps =>
    rw [genStep_trap hready ((genLoad_ok hacc0 _).trans ((genLoad_ok (addr := c.greg a + 8) hacc1 _).trans
      (if_pos ((descriptorBad_iff ..).2 hbad))))]
    exact genFault_taken hcan hself

end Sys2Proof.Machine

/-! ## Stores of the generator (R32, R221-R225, R242, R367) -/

namespace Sys2Proof.Machine
open Sys2Proof.Safety

/-! ### Bytes performed at home -/

theorem read_foldl_write {f : Nat → Nat} {v : Byte} {x : Nat} {m : List Host.Cell} (ds : List Nat) (hwf : Memory.wf m = true)
    (h : ∃ d ∈ ds, x = f d) : Memory.read (ds.foldl (fun m d => Memory.write m (f d) v) m) x = v := by
  induction ds generalizing m with
  | nil => obtain ⟨d, hd, -⟩ := h; exact absurd hd List.not_mem_nil
  | cons d ds ih =>
    rw [List.foldl_cons]
    by_cases hrest : ∃ d ∈ ds, x = f d
    · exact ih (Memory.write_wf (f d) v hwf) hrest
    · have hx : x = f d := by
        obtain ⟨e, he, hx⟩ := h
        rcases List.mem_cons.1 he with rfl | he
        · exact hx
        · exact absurd ⟨e, he, hx⟩ hrest
      rw [foldl_write_other f v ds fun e he hxe => hrest ⟨e, he, hxe⟩, Memory.read_write hwf, if_pos hx]

/-- A byte performed at home stands in every copy. -/
theorem homeWrite_copy {m : List Host.Cell} (hwf : Memory.wf m = true) {l : GLoc} {x : Nat} (hx : x ∈ l.copies) (v : Byte) :
    Memory.read (homeWrite m l v) x = v := by
  unfold GLoc.copies at hx
  unfold homeWrite
  split at hx
  next hrep =>
    rw [if_pos hrep]
    obtain ⟨d, hd, rfl⟩ := List.mem_map.1 hx
    exact read_foldl_write _ hwf ⟨d, hd, rfl⟩
  next hrep => rw [if_neg hrep, List.mem_singleton.1 hx, Memory.read_write hwf, if_pos rfl]

theorem homeWriteN_append (m : List Host.Cell) (l r : List (GLoc × Byte)) : homeWriteN m (l ++ r) = homeWriteN (homeWriteN m l) r :=
  List.foldl_append

/-- A copy that all bytes performed there agree on. -/
theorem homeWriteN_copy {m : List Host.Cell} (hwf : Memory.wf m = true) {ls : List (GLoc × Byte)} {x : Nat} {v : Byte}
    (hmem : ∃ y ∈ ls, x ∈ y.1.copies) (hall : ∀ y ∈ ls, x ∈ y.1.copies → y.2 = v) : Memory.read (homeWriteN m ls) x = v := by
  induction ls generalizing m with
  | nil => obtain ⟨y, hy, -⟩ := hmem; exact absurd hy List.not_mem_nil
  | cons y ls ih =>
    show Memory.read (homeWriteN (homeWrite m y.1 y.2) ls) x = v
    by_cases hrest : ∃ y ∈ ls, x ∈ y.1.copies
    · exact ih (homeWrite_wf y.1 y.2 hwf) hrest fun z hz => hall z (List.mem_cons_of_mem y hz)
    · have hx : x ∈ y.1.copies := by
        obtain ⟨z, hz, hx⟩ := hmem
        rcases List.mem_cons.1 hz with rfl | hz
        · exact hx
        · exact absurd ⟨z, hz, hx⟩ hrest
      rw [homeWriteN_other ls fun z hz hxz => hrest ⟨z, hz, hxz⟩, homeWrite_copy hwf hx, hall y (List.mem_cons_self ..) hx]

/-- The copies of two bytes of one line lie apart. -/
theorem copies_place {l : GLoc} {x : Nat} (h : x ∈ l.copies) : x % 128 = l.pa % 128 := by
  unfold GLoc.copies at h
  split at h
  · obtain ⟨d, -, rfl⟩ := List.mem_map.1 h
    exact on_place l d
  · rw [List.mem_singleton.1 h]

/-! ### The entry of a line in the store buffer (R221) -/

/-- The bytes of a store within one line, by their place in it. -/
def placed (l : GLoc) (bs : List Byte) : List (Nat × Byte) := (List.range bs.length).map fun k => (l.pa % 128 + k, bs.getD k 0)

theorem foldl_setAt_range {α : Type} (v : Nat → α) {d : List (Option α)} {a : Nat} (n : Nat) (h : a + n ≤ d.length) (i : Nat) :
    (((List.range n).map fun k => (a + k, v k)).foldl (fun d x => setAt d x.1 (some x.2)) d)[i]? =
      if a ≤ i ∧ i < a + n then some (some (v (i - a))) else d[i]? := by
  induction n with
  | zero => exact (if_neg (by omega)).symm
  | succ n ih =>
    have hlen : ∀ ds : List (Nat × α), (ds.foldl (fun d x => setAt d x.1 (some x.2)) d).length = d.length := fun ds => by
      induction ds using List.reverseRecOn with
      | nil => rfl
      | append_singleton ds y ih => rw [List.foldl_append]; exact (setAt_length _ _ _).trans ih
    rw [List.range_succ, List.map_append, List.foldl_append]
    show (setAt _ (a + n) (some (v n)))[i]? = _
    rw [setAt_get _ _ _ _ (by rw [hlen]; omega), ih (by omega)]
    by_cases hi : i = a + n
    · rw [if_pos hi, if_pos (by omega), hi, Nat.add_sub_cancel_left]
    · rw [if_neg hi]
      by_cases hin : a ≤ i ∧ i < a + n
      · rw [if_pos hin, if_pos (by omega)]
      · rw [if_neg hin, if_neg (by omega)]

theorem put_placed_data {p : PsbLine} (tag : StoreTag) {l : GLoc} {bs : List Byte} (hlen : p.data.length = 128)
    (hfit : l.pa % 128 + bs.length ≤ 128) (i : Nat) :
    (p.put tag (placed l bs)).data[i]? =
      if l.pa % 128 ≤ i ∧ i < l.pa % 128 + bs.length then some (some (bs.getD (i - l.pa % 128) 0)) else p.data[i]? :=
  foldl_setAt_range (fun k => bs.getD k 0) bs.length (hlen ▸ hfit) i

/-- The entry that a store makes for a line without one. -/
def freshLine (tag : StoreTag) (l : GLoc) (bs : List Byte) : PsbLine :=
  PsbLine.put ⟨l.line, List.replicate 128 none, [], [], []⟩ tag (placed l bs)

/-- Behind a store the line's entry holds the stored bytes. -/
theorem bufferLine_entry (c : Ctx) (tag : StoreTag) (s : State) {mb : Member} (l : GLoc) (bs : List Byte)
    (hlen : ∀ p ∈ mb.psb, p.data.length = 128) :
    ∃ p : PsbLine, p.data.length = 128 ∧
      (bufferLine c tag s mb l.line (placed l bs)).2.psb.find? (fun p => p.loc == l.line) = some (p.put tag (placed l bs)) := by
  unfold bufferLine
  by_cases hthere : (mb.psb.any fun p => p.loc == l.line) = true
  · rw [if_pos hthere]
    obtain ⟨p, hp⟩ := Option.isSome_iff_exists.1 (List.find?_isSome.2 (List.any_eq_true.1 hthere))
    refine ⟨p, hlen p (List.mem_of_find?_eq_some hp), ?_⟩
    show (mapIf _ _ mb.psb).find? _ = _
    unfold mapIf
    rw [List.find?_map, show ((fun p : PsbLine => p.loc == l.line) ∘ fun p => if (p.loc == l.line) = true then p.put tag (placed l bs) else p) =
      fun p => p.loc == l.line from ?_, hp]
    · exact congrArg some (if_pos (List.find?_some hp))
    · funext p
      dsimp only [Function.comp_apply]
      split <;> rfl
  · rw [if_neg hthere]
    have hnone : ∀ ps : List PsbLine, (∀ p ∈ ps, p ∈ mb.psb) →
        (ps ++ [freshLine tag l bs]).find? (fun p => p.loc == l.line) = some (freshLine tag l bs) := fun ps hps => by
      have hold : ps.find? (fun p => p.loc == l.line) = none :=
        List.find?_eq_none.2 fun p hp hloc => hthere (List.any_eq_true.2 ⟨p, hps p hp, hloc⟩)
      rw [List.find?_append, hold]
      simp [freshLine]
    refine ⟨⟨l.line, List.replicate 128 none, [], [], []⟩, List.length_replicate .., ?_⟩
    cases hpsb : mb.psb with
    | nil => exact hnone [] fun p hp => absurd hp List.not_mem_nil
    | cons q rest =>
      dsimp only
      split
      · exact hnone rest fun p hp => hpsb ▸ List.mem_cons_of_mem q hp
      · exact hnone (q :: rest) fun p hp => hpsb ▸ hp

theorem mem_stored {l : GLoc} {bs : List Byte} {y : GLoc × Byte} (h : y ∈ ((List.range bs.length).map l.next).zip bs) :
    ∃ k < bs.length, y = (l.next k, bs.getD k 0) := by
  obtain ⟨k, hk, rfl⟩ := List.mem_iff_getElem.1 h
  have hk : k < bs.length := by simpa using hk
  exact ⟨k, hk, by simp [hk]⟩

/-- A store within one line makes or changes one entry. -/
theorem stored_line {c : Ctx} (tag : StoreTag) (s : State) (mb : Member) {l : GLoc} {bs : List Byte} (hbs : bs ≠ [])
    (hfit : l.pa % 128 + bs.length ≤ 128) :
    let ls := ((List.range bs.length).map l.next).zip bs
    (ls.map fun x => x.1.line).eraseDups.foldl (fun (x : State × Member) line =>
      bufferLine c tag x.1 x.2 line ((ls.filter fun y => y.1.line == line).map fun y => (y.1.pa % 128, y.2))) (s, mb) =
    bufferLine c tag s mb l.line (placed l bs) := by
  intro ls
  have hline : ∀ y ∈ ls, y.1.line = l.line := fun y hy => by
    obtain ⟨k, hk, rfl⟩ := mem_stored hy
    exact next_line (by omega)
  have hlines : (ls.map fun x => x.1.line).eraseDups = [l.line] := by
    refine eraseDups_eq_singleton (by simpa [ls] using hbs) fun x hx => ?_
    obtain ⟨y, hy, rfl⟩ := List.mem_map.1 hx
    exact hline y hy
  rw [hlines]
  show bufferLine c tag s mb l.line _ = _
  rw [List.filter_eq_self.2 fun y hy => beq_iff_eq.2 (hline y hy)]
  refine congrArg _ (List.ext_getElem (by simp [ls, placed]) fun k hk _ => ?_)
  have hk : k < bs.length := by simpa [ls] using hk
  have hplace := next_place (l := l) (k := k) (by omega)
  simp [ls, placed, hk, hplace]

/-! ### Stores that the buffer keeps (R223) -/

/-- A load behind a buffered store of the same bytes returns them. -/
theorem loadBytes_stored {c : Ctx} (hmm : c.mm1 = false) (tag : StoreTag) (s : State) {mb : Member} {l : GLoc} {bs : List Byte}
    (hfit : l.pa % 128 + bs.length ≤ 128) (hlen : ∀ p ∈ mb.psb, p.data.length = 128) :
    let ls := (List.range bs.length).map l.next
    let r := storeBytes s c mb (ls.zip bs) tag
    (loadBytes r.1.mem r.2 ls).1 = bs := by
  intro ls
  by_cases hbs : bs = []
  · subst hbs; rfl
  have hstore : storeBytes s c mb (ls.zip bs) tag = bufferLine c tag s mb l.line (placed l bs) := by
    unfold storeBytes
    rw [hmm, Bool.false_and]
    exact stored_line tag s mb hbs hfit
  obtain ⟨p, hp, hfind⟩ := bufferLine_entry c tag s l bs hlen
  dsimp only
  rw [hstore, loadBytes_line _ _ (List.length_pos_iff.2 hbs).ne' hfit]
  refine List.ext_getElem (by simp) fun k _ hk => ?_
  have hbyte : (bufferLine c tag s mb l.line (placed l bs)).2.bufferedAt l.line (l.pa % 128 + k) = some (bs.getD k 0) := by
    unfold Member.bufferedAt
    rw [hfind, Option.bind_some, List.getD_eq_getElem?_getD, put_placed_data tag hp hfit, if_pos (by omega), Nat.add_sub_cancel_left]
    rfl
  simp [hbyte, hk]

/-! ### Stores under MM1 (R242) -/

/-- What the drain of a fresh entry performs. -/
theorem mem_freshLine_bytes {tag : StoreTag} (htag : tag.lost = []) {l : GLoc} {bs : List Byte} (hfit : l.pa % 128 + bs.length ≤ 128)
    (y : GLoc × Byte) : y ∈ (freshLine tag l bs).bytes ↔ ∃ k < bs.length, y = (l.next k, bs.getD k 0) := by
  have hlost : (freshLine tag l bs).lost = [] := by simp [freshLine, PsbLine.put, htag]
  have hnext : ∀ i, l.pa % 128 ≤ i → l.line.next i = l.next (i - l.pa % 128) := fun i hi => by
    simp only [GLoc.next, GLoc.line, GLoc.mk.injEq, and_true]
    omega
  have hdata : ∀ i, (freshLine tag l bs).data[i]? =
      if l.pa % 128 ≤ i ∧ i < l.pa % 128 + bs.length then some (some (bs.getD (i - l.pa % 128) 0))
      else (List.replicate 128 (none : Option Byte))[i]? := put_placed_data tag (List.length_replicate ..) hfit
  unfold PsbLine.bytes
  rw [List.mem_filterMap]
  constructor
  · rintro ⟨⟨b, i⟩, hi, hy⟩
    have hget := hdata i ▸ (List.mem_zipIdx_iff_getElem?.1 hi)
    dsimp only at hy hget
    rw [hlost, if_neg (by simp)] at hy
    by_cases hin : l.pa % 128 ≤ i ∧ i < l.pa % 128 + bs.length
    · rw [if_pos hin, Option.some_inj] at hget
      subst hget
      refine ⟨i - l.pa % 128, by omega, ?_⟩
      rw [← hnext i hin.1]
      exact (Option.some_inj.1 hy).symm
    · rw [if_neg hin, List.getElem?_replicate] at hget
      split at hget
      · cases hget; cases hy
      · cases hget
  · rintro ⟨k, hk, rfl⟩
    refine ⟨(some (bs.getD k 0), l.pa % 128 + k), List.mem_zipIdx_iff_getElem?.2 ?_, ?_⟩
    · rw [hdata, if_pos (by omega), Nat.add_sub_cancel_left]
    · dsimp only
      rw [hlost, if_neg (by simp)]
      refine congrArg some (Prod.ext ?_ rfl)
      have := hnext (l.pa % 128 + k) (by omega)
      rw [Nat.add_sub_cancel_left] at this
      exact this

theorem performAll_mem (l : List Accepted) (s : State) :
    (l.foldl (fun s a => s.perform a.bytes) s).mem = homeWriteN s.mem (l.flatMap fun a => a.bytes) := by
  induction l generalizing s with
  | nil => rfl
  | cons a l ih => rw [List.foldl_cons, ih, perform_mem, List.flatMap_cons, homeWriteN_append]

theorem flushPorts_mem (s : State) :
    (flushPorts s).mem = homeWriteN s.mem ((s.accepted.filter (Accepted.moves s.fenced)).flatMap fun a => a.bytes) := by
  unfold flushPorts
  split
  · next h => rw [beq_iff_eq.1 h]; rfl
  · exact performAll_mem _ s

theorem perform_fenced (s : State) (ls : List (GLoc × Byte)) : (s.perform ls).fenced = s.fenced := by
  unfold State.perform cureMem
  split <;> rfl

/-- What a drained line and the ports' lines leave in memory. -/
theorem drained_mem {k : Nat} {s : State} {p : PsbLine} (hlink : s.fenced.linked p.loc.region = true) :
    ∃ ws, (flushPorts (drainLine k s p)).mem = homeWriteN s.mem ws ∧ (∀ y ∈ p.bytes, y ∈ ws) ∧
      ∀ y ∈ ws, y ∈ p.bytes ∨ ∃ a ∈ s.accepted, y ∈ a.bytes := by
  have hold : ∀ y ∈ (s.accepted.filter (Accepted.moves s.fenced)).flatMap fun a => a.bytes, ∃ a ∈ s.accepted, y ∈ a.bytes := fun y hy => by
    obtain ⟨a, ha, hy⟩ := List.mem_flatMap.1 hy
    exact ⟨a, (List.mem_filter.1 ha).1, hy⟩
  by_cases hreg : p.loc.region = 0
  · refine ⟨p.bytes ++ _, ?_, fun y hy => List.mem_append_left _ hy, fun y hy => (List.mem_append.1 hy).imp id (hold y)⟩
    rw [drainLine_home hreg, flushPorts_mem, perform_mem, perform_accepted, perform_fenced, homeWriteN_append]
  · refine ⟨_ ++ p.bytes, ?_, fun y hy => List.mem_append_right _ hy, fun y hy => (List.mem_append.1 hy).symm.imp id (hold y)⟩
    rw [drainLine_port hreg, flushPorts_mem]
    have hmoves : Accepted.moves s.fenced ⟨k, p.loc.region, p.bytes, none, p.vas⟩ = true := hlink
    dsimp only
    rw [List.filter_append, List.filter_cons_of_pos hmoves, List.filter_nil, List.flatMap_append, List.flatMap_singleton]

/-- A store under MM1 leaves buffer and view empty. -/
theorem storeBytes_mm1 {c : Ctx} (hmm : c.mm1 = true) (tag : StoreTag) (s : State) {mb : Member} {l : GLoc} {bs : List Byte} (hbs : bs ≠ [])
    (hpsb : mb.psb = []) (hfit : l.pa % 128 + bs.length ≤ 128) :
    storeBytes s c mb (((List.range bs.length).map l.next).zip bs) tag =
      (flushPorts (drainLine c.id s (freshLine tag l bs)), { mb with psb := [], view := [], early := [] }) := by
  have hmade : (!(((List.range bs.length).map l.next).zip bs).isEmpty) = true := by
    simpa using hbs
  have hfresh : bufferLine c tag s mb l.line (placed l bs) = (s, { mb with psb := [freshLine tag l bs] }) := by
    unfold bufferLine
    rw [hpsb]
    rfl
  unfold storeBytes
  dsimp only
  rw [hmm, hmade, stored_line tag s mb hbs hfit, hfresh]
  rfl

theorem mem_vaLines (dom va : Nat) (ls : List GLoc) (x : GLoc × Nat × Nat) :
    x ∈ vaLines dom va ls ↔ ∃ k l, ls[k]? = some l ∧ x = (l.line, dom, (va + k) % 2 ^ 64 / 128 * 128) := by
  unfold vaLines
  rw [List.mem_eraseDups, List.mem_map]
  constructor
  · rintro ⟨⟨l, k⟩, h, rfl⟩
    exact ⟨k, l, List.mem_zipIdx_iff_getElem?.1 h, rfl⟩
  · rintro ⟨k, l, h, rfl⟩
    exact ⟨(l, k), List.mem_zipIdx_iff_getElem?.2 h, rfl⟩

/-- Settles O18: the access by `genMemory_ok` and `genMemory_dump`, a later load by `loadBytes_stored`, MM1 by `storeBytes_mm1`. -/
theorem generatorStore : Obligations.GeneratorStore := by
  unfold Obligations.GeneratorStore
  intro s c q sz d a v hready hseq addr bytes
  refine ⟨fun mb ls hacc => ?memory, fun off hdump => ?dump, fun mb l bs tag hmm hfit hlen => loadBytes_stored hmm tag s hfit hlen,
    fun mb l bs tag hmm hbs htag hpsb hfit hlink hinv hports => ?mm1, fun mb tag => ?none, mem_vaLines⟩
  case memory =>
    show execGst q sz d a v s = _
    refine genStep_ok hready ((genMemory_ok hacc _ _).trans ?_) hseq
    rw [leBytes_toNat]
  case dump =>
    show execGst q sz d a v s = _
    refine genStep_ok hready ((genMemory_dump hdump _ _).trans ?_) hseq
    rw [leBytes_toNat]
  case none =>
    unfold storeBytes
    rw [show (!([] : List (GLoc × Byte)).isEmpty) = false from rfl, Bool.and_false]
    rfl
  case mm1 =>
    have hregion : (freshLine tag l bs).loc.region = l.region := by
      show (l.pa - l.pa % 128) / 2 ^ 52 = l.pa / 2 ^ 52
      omega
    obtain ⟨ws, hmem, hall, hsrc⟩ := drained_mem (k := c.id) (hregion ▸ hlink : s.fenced.linked (freshLine tag l bs).loc.region = true)
    dsimp only
    rw [storeBytes_mm1 hmm tag s hbs hpsb hfit]
    refine ⟨rfl, fun k hk x hx => ?_, fun x hx hacc => ?_⟩
    · dsimp only
      rw [hmem]
      refine homeWriteN_copy ?_ ⟨_, hall _ ((mem_freshLine_bytes htag hfit _).2 ⟨k, hk, rfl⟩), hx⟩ fun y hy hxy => ?_
      · exact hinv
      · rcases hsrc y hy with hy | ⟨a, ha, hy⟩
        · obtain ⟨j, hj, rfl⟩ := (mem_freshLine_bytes htag hfit y).1 hy
          have hx' := (copies_place hx).symm.trans (copies_place hxy)
          rw [next_place (by omega), next_place (by omega)] at hx'
          exact congrArg (bs.getD · 0) (by omega)
        · exact absurd hxy (hports a ha y hy k hk x hx)
    · dsimp only
      rw [hmem]
      refine homeWriteN_other ws fun y hy => ?_
      rcases hsrc y hy with hy | ⟨a, ha, hy⟩
      · obtain ⟨j, hj, rfl⟩ := (mem_freshLine_bytes htag hfit y).1 hy
        exact hx j hj
      · exact hacc a ha y hy

end Sys2Proof.Machine

/-! ## Instructions that sleep (R283, R376, R405) -/

namespace Sys2Proof.Machine
open Sys2Proof.Safety

section Gwfe
variable {s : State} {c : Ctx} {q : Seq} {b : GSrc} (hready : GenReady s c (srcRegs b)) {m : BitVec 3}
  (hm : (c.src b).truncate 3 = m)
include hready hm

theorem exec_gwfe_met (hseq : SeqOk c q) (h : m = 0 ∨ c.latches &&& m ≠ 0) :
    exec (.gwfe q b) s = .next (genNext s { c with latches := c.latches &&& ~~~m } q) := by
  have hmet : ((srcRegs b).any (s.gPoisoned c.id) || (c.src b).truncate 3 == (0 : BitVec 3) ||
      (c.latches &&& (c.src b).truncate 3) != 0) = true := by
    rw [hm]
    rcases h with h | h
    · rw [h]; simp
    · rw [bne_iff_ne.2 h, Bool.or_true]
  show execGwfe q b s = _
  unfold execGwfe
  rw [withCtx_some hready.1]
  dsimp only
  rw [if_pos hmet]
  refine genStep_ok hready ?_ hseq
  rw [hm]

theorem exec_gwfe_unmet (hzero : m ≠ 0) (hlatch : c.latches &&& m = 0) :
    exec (.gwfe q b) s = if c.gen = .sleepEvent m then .next { s with waited := true }
      else .next { s.putCtx { c with gen := .sleepEvent m } with waited := false } := by
  have hclean : (srcRegs b).any (s.gPoisoned c.id) = false := List.any_eq_false.2 fun r hr => by simp [hready.2 r hr]
  show execGwfe q b s = _
  unfold execGwfe
  rw [withCtx_some hready.1]
  dsimp only
  rw [hm, hclean, hlatch, beq_false_of_ne hzero, if_neg (by decide)]
  by_cases hgen : c.gen = .sleepEvent m
  · rw [if_pos hgen, if_pos (beq_iff_eq.2 hgen)]
    rfl
  · rw [if_neg hgen, if_neg (mt beq_iff_eq.1 hgen)]
    rfl

end Gwfe

section Twait
variable {s s1 : State} {c c1 : Ctx} {q : Seq} {b : FeBuf} {full : Bool} {a : GReg} (hready : GenReady s c [a]) (hhandler : c.handler = false)
  (hgran : granuleOk s c (feBuf b) (c.greg a).toNat = true) (htset : c.tsetPending = false)
  (htouch : touchMembers c (feBuf b) (c.greg a).toNat (List.range c.members.length) s = .ready s1)
include hready hhandler hgran htset htouch

theorem exec_twait : exec (.twait q b full a) s =
    if granulesMet s1 c (feBuf b) full (c.greg a).toNat then genStep s1 q [a] fun c => .ok s1 c
    else sleepGranule s s1 c ⟨feBuf b, (c.greg a).toNat, full, false⟩ := by
  show execTwait q b full a s = _
  unfold execTwait
  rw [withCtx_some hready.1]
  dsimp only
  rw [hready.2 a (List.mem_singleton_self a), hhandler, hgran, if_neg (by decide), htset, if_neg (by decide), htouch]

end Twait

/-- Settles O23: each instruction by what its wait has found. -/
theorem sleepingInstructions : Obligations.SleepingInstructions := by
  unfold Obligations.SleepingInstructions
  refine ⟨fun s c q b hready hseq => ?gwfe, fun s s1 c c1 q b full a hready hhandler hgran htset htouch hready1 hseq => ?twait⟩
  case gwfe =>
    have hm : (c.src b).truncate 3 = (c.src b).extractLsb' 0 3 := BitVec.setWidth_eq_extractLsb' (by decide)
    exact ⟨exec_gwfe_met hready hm hseq,
      fun hzero hlatch hgen => (exec_gwfe_unmet hready hm hzero hlatch).trans (if_neg hgen),
      fun hzero hlatch hgen => (exec_gwfe_unmet hready hm hzero hlatch).trans (if_pos hgen)⟩
  case twait =>
    intro held seen
    have hexec := exec_twait (q := q) (full := full) hready hhandler hgran htset htouch
    have hmet : granulesMet s1 c (feBuf b) full (c.greg a).toNat = (seen || held) := rfl
    rw [hmet] at hexec
    refine ⟨fun hgo => ?goes, fun hheld hseen hnew hid => ?sleeps, fun hheld hseen hgen hsame => ?stays⟩
    case goes =>
      refine (hexec.trans (if_pos ?_)).trans (genStep_ok hready1 rfl hseq)
      rcases hgo with h | h
      · rw [h, Bool.or_true]
      · rw [h, Bool.true_or]
    case sleeps =>
      have hself : s1.ctxOf c.id = some c1 := hid ▸ ctxOf_id hready1.1 ▸ hready1.1
      refine hexec.trans ?_
      rw [hheld, hseen, if_neg (by decide)]
      unfold sleepGranule
      rw [if_neg (by simpa [imp_iff_not_or] using hnew), hself]
      rfl
    case stays =>
      refine hexec.trans ?_
      rw [hheld, hseen, if_neg (by decide)]
      unfold sleepGranule
      rw [if_pos (by simp [hgen, hsame])]
      rfl

/-! ## The host's queue accesses (R273) -/

section HostQueue
variable {s : State} (up : s.hostUp = true)
include up

theorem exec_ticket_unbound {q : Nat} (h : s.queueOf q = none) :
    exec (.ticket q) s = .next { s with hostRead := leBytes 8 (2 ^ 64 - 1), waited := false } := by
  show execTicket q s = _
  unfold execTicket
  rw [up, h]
  rfl

theorem exec_ticket {q : Nat} {dq : DevQueue} (h : s.queueOf q = some dq) :
    exec (.ticket q) s =
      .next { (reserveSlot s dq).2 with hostRead := leBytes 8 (reserveSlot s dq).1.toNat, waited := false } := by
  show execTicket q s = _
  unfold execTicket
  rw [up, h]
  rfl

/-- Both ways to write COMMIT perform the host's commit. -/
theorem exec_hostCommit {q : Nat} {slot : DWord} {i : Instr} (hi : i = .commit q slot ∨ (q < 4096 ∧ i = .registerWrite (64 * q + 8) slot)) :
    exec i s = done (hostCommit s q slot) := by
  rcases hi with rfl | ⟨hq, rfl⟩
  · exact if_pos up
  · obtain ⟨hlow, hdiv, hmod⟩ := queueWindow_offset hq (r := 8) (by decide)
    simp only [exec_registerWrite, execRegisterWrite, up, Bool.not_true, Bool.false_eq_true, if_false, if_pos hlow, hdiv, hmod]

end HostQueue

theorem reserveSlot_room {s : State} {dq : DevQueue} (h : dq.ticket < dq.size ∨ dq.ticket - dq.size ∉ dq.unreleased) :
    reserveSlot s dq = (BitVec.ofNat 64 dq.ticket,
      s.putQueue { dq with ticket := dq.ticket + 1, unreleased := dq.unreleased ++ [dq.ticket] }) :=
  if_pos (by simpa using h)

theorem reserveSlot_full {s : State} {dq : DevQueue} (h : ¬(dq.ticket < dq.size ∨ dq.ticket - dq.size ∉ dq.unreleased)) :
    reserveSlot s dq = (BitVec.allOnes 64, s) :=
  if_neg (by simpa using h)

theorem slotBad_eq_false {dq : DevQueue} {slot : Nat} (hticket : slot < dq.ticket) (hhead : dq.head ≤ slot) (hcommit : slot ∉ dq.committed) :
    slotBad dq slot = false := by
  simp [slotBad, hticket, hhead, hcommit]

theorem hostCommit_ok {s : State} {q : Nat} {dq : DevQueue} {slot : DWord} (h : s.queueOf q = some dq) (hbad : slotBad dq slot.toNat = false) :
    hostCommit s q slot = commitSlot s dq slot.toNat := by
  unfold hostCommit
  rw [h]
  exact if_neg (Bool.eq_false_iff.1 hbad)

theorem slotBad_of_not {dq : DevQueue} {slot : Nat} (h : ¬(slot < dq.ticket ∧ dq.head ≤ slot ∧ slot ∉ dq.committed)) :
    slotBad dq slot = true := by
  refine Bool.eq_true_of_not_eq_false fun hbad => h ?_
  simpa [slotBad, and_assoc] using hbad

theorem hostCommit_bad {s : State} {q : Nat} {slot : DWord} (h : ∀ dq, s.queueOf q = some dq → slotBad dq slot.toNat = true) :
    hostCommit s q slot = countError s q := by
  unfold hostCommit
  cases hq : s.queueOf q with
  | none => rfl
  | some dq => exact if_pos (h dq hq)

/-- Settles O57: TICKET by `reserveSlot`, COMMIT by `hostCommit`. -/
theorem hostReservesAndCommits : Obligations.HostReservesAndCommits := by
  unfold Obligations.HostReservesAndCommits
  intro s hrun hlink
  have up := hostUp_of_running hrun hlink
  refine ⟨fun q => ⟨exec_ticket_unbound up, fun dq hq => ⟨fun hroom => ?_, fun hfull => ?_⟩⟩, fun q slot i hi => ⟨fun dq hq ht hh hc => ?_, fun hbad => ?_⟩⟩
  · rw [exec_ticket up hq, reserveSlot_room hroom]
  · rw [exec_ticket up hq, reserveSlot_full hfull]
    rfl
  · rw [exec_hostCommit up hi, hostCommit_ok hq (slotBad_eq_false ht hh hc)]
    rfl
  · rw [exec_hostCommit up hi, hostCommit_bad fun dq hq => slotBad_of_not (hbad dq hq)]
    rfl

end Sys2Proof.Machine

/-! ## Dispatches that end early (R304, R305), the traps after a halt (R298-R308) -/

namespace Sys2Proof.Machine
open Sys2Proof.Safety

/-! ### Traps taken by a context that is still to be put back -/

theorem enterTrap_putCtx {s : State} {c : Ctx} {t : Trap} {h : Handling} (hc : CanTrap c) :
    enterTrap (s.putCtx c) c t h = enterTrap s c t h := by
  have he : ∀ s : State, enterTrap s c t h = (unsleep (reportFault s c t h) c).1.putCtx { (c.record t) with
      priv := true, handler := true, pc := c.tvec, ir := none, gen := .running, halting := false, handling := some h,
      twait := (unsleep s c).2.twait } := fun s => by
    unfold enterTrap takeTrap
    rw [if_neg (by simp [hc.1]), if_neg (by simpa using hc.2)]
    dsimp only
    rw [unsleep_ctx (reportFault s c t h) c]
    rfl
  rw [he, he, unsleep_state, unsleep_state, reportFault_eq, reportFault_eq]
  exact putCtx_putCtx { s with
    queues := s.queues.map fun q => { q with sleepers := q.sleepers.filter fun w => w != c.id }
    links := if t.cause.isEvent then s.links
      else s.links ++ [{ leaf := c.faultLeaf h, crimson := c.cls == .crimson, sent := false, body := .fault c.id t.word }] } rfl

/-- The trap of a context that has changed since it stood in the device. -/
theorem enterTrap_changed {s : State} {c d : Ctx} {t : Trap} {h : Handling} (hc : CanTrap c) (hs : s.ctxOf c.id = some d) :
    TrapEntered s c t h { enterTrap s c t h with waited := false } := by
  have hput : (s.putCtx c).ctxOf c.id = some c := ctxOf_putCtx_self hs
  have htaken := enterTrap_entered (t := t) (h := h) hc hput
  rw [enterTrap_putCtx hc] at htaken
  obtain ⟨hdev, hother, hself⟩ := htaken
  exact ⟨hdev, fun j hj => (hother j hj).trans (ctxOf_putCtx_other s c hj), hself⟩

/-! ### What the end of a dispatch leaves of the device -/

theorem perform_frame (s : State) (ls : List (GLoc × Byte)) : (s.perform ls).agenda = s.agenda ∧ (s.perform ls).hand = s.hand := by
  unfold State.perform cureMem
  split <;> exact ⟨rfl, rfl⟩

theorem drainLine_frame (k : Nat) (s : State) (p : PsbLine) : (drainLine k s p).agenda = s.agenda ∧ (drainLine k s p).hand = s.hand := by
  unfold drainLine
  split
  · exact perform_frame s _
  · exact ⟨rfl, rfl⟩

theorem drainOut_hand (s : State) (c : Ctx) : (drainOut s c).1.agenda = s.agenda ∧ (drainOut s c).1.hand = s.hand := by
  unfold drainOut
  split
  · exact ⟨rfl, rfl⟩
  · exact ⟨foldl_field State.agenda (fun s (mb : Member) => foldl_field State.agenda (fun s p => (drainLine_frame c.id s p).1) mb.psb s) c.members s,
      foldl_field State.hand (fun s (mb : Member) => foldl_field State.hand (fun s p => (drainLine_frame c.id s p).2) mb.psb s) c.members s⟩

theorem drainOut_ctx (s : State) (c : Ctx) : (drainOut s c).2 = { c with members := c.members.map Member.afterDrain } := by
  unfold drainOut
  split <;> rfl

theorem releaseSlot_frame (s : State) (q n : Nat) : (releaseSlot s q n).agenda = s.agenda ∧ (releaseSlot s q n).hand = s.hand := by
  unfold releaseSlot
  split <;> exact ⟨rfl, rfl⟩

theorem stopContext_frame (s : State) (c : Ctx) : (stopContext s c).agenda = s.agenda ∧ (stopContext s c).hand = s.hand ∧
    ∀ j, j ≠ c.id → (stopContext s c).ctxOf j = s.ctxOf j := by
  unfold stopContext
  refine ⟨foldl_field State.agenda (fun s (t : Nat × Nat) => (releaseSlot_frame s t.1 t.2).1) _ _,
    foldl_field State.hand (fun s (t : Nat × Nat) => (releaseSlot_frame s t.1 t.2).2) _ _, fun j hj => ?_⟩
  refine (foldl_field (fun s => s.ctxOf j) (fun s (t : Nat × Nat) => ?_) _ _).trans (ctxOf_putCtx_other s _ ?_)
  · unfold State.ctxOf
    rw [releaseSlot_ctxs]
  · rw [settle_id]
    exact hj

/-! ### What the end of a dispatch leaves of the context -/

/-- A member of a dispatch that is cut short: of its queues the commands that have started, with their scoreboard entries (R304). -/
def Member.cutShort (m : Member) : Member :=
  let left := startedOnly m.copyQ ++ startedOnly m.fetchQ ++ startedOnly m.storageQ ++ startedOnly m.bank.queue
  { m with copyQ := startedOnly m.copyQ, fetchQ := startedOnly m.fetchQ, storageQ := startedOnly m.storageQ, holds := [], inbox := [],
           board := m.board.filter fun b => left.any fun x => x.e.seq == b.seq, bank := { m.bank with queue := startedOnly m.bank.queue } }

/-- A context whose rows have all retired (R304, R305). -/
def Ctx.retireAll (c : Ctx) : Ctx := c.liveRows.foldl (fun c r => c.retireRow r c.nextSeq c.nextEsn) c

/-- A context that is cut short, before its generator stops (R304, R305). -/
def Ctx.cutShort (c : Ctx) (status reason : BitVec 8) (tcause tesn : DWord) : Ctx :=
  { c.retireAll with
    members := c.retireAll.members.map Member.cutShort
    stream := [], intake := [], channel := [], kept := [], handling := none, halting := false, deferred := none
    switch := if c.retireAll.switch == .out then .out else .inside
    handler := false, priv := false, ended := some ⟨status, reason, tcause, tesn⟩, deadline := none }

theorem endContext_eq (s : State) (c : Ctx) (status reason : BitVec 8) (tcause tesn : DWord) :
    endContext s c status reason tcause tesn =
      stopContext (drainOut (unsleep s c).1 (unsleep s c).2).1
        ((drainOut (unsleep s c).1 (unsleep s c).2).2.cutShort status reason tcause tesn) := rfl

theorem retireAll_same (c : Ctx) : c.SameBut c.retireAll := foldl_same _ (fun d r => retireRow_same d r _ _) _ c

theorem retireAll_vq (c : Ctx) : c.retireAll.vq = c.vq :=
  List.foldlRecOn (motive := fun d : Ctx => d.vq = c.vq) c.liveRows _ rfl fun _ hd _ _ => hd

theorem retireAll_members (c : Ctx) : c.KeepsMembers c.retireAll :=
  List.foldlRecOn (motive := c.KeepsMembers) c.liveRows _ rfl fun d hd r _ => (retireRow_members d r _ _).trans hd

theorem retireDone_vq (c : Ctx) : c.retireDone.vq = c.vq := by
  unfold Ctx.retireDone
  split
  · refine List.foldlRecOn (motive := fun d : Ctx => d.vq = c.vq) c.rows _ rfl fun d hd r _ => ?_
    split
    · split
      · exact hd
      · exact hd
    · exact hd
  · rfl

theorem retireDone_stream (c : Ctx) : c.retireDone.stream = c.stream := by
  unfold Ctx.retireDone
  split
  · refine List.foldlRecOn (motive := fun d : Ctx => d.stream = c.stream) c.rows _ rfl fun d hd r _ => ?_
    split
    · split
      · exact hd
      · exact hd
    · exact hd
  · rfl

theorem settle_stream_nil {c : Ctx} (h : c.stream = []) : c.settle.stream = [] := by
  have hp : ∀ d : Ctx, d.stream = [] → d.prune.stream = [] := fun d hd => by unfold Ctx.prune; rw [hd]; rfl
  exact hp _ (hp _ ((retireDone_stream c).trans h))

/-- A vote that has resolved stays as it is. -/
theorem settle_votes {c : Ctx} (h : ∀ v ∈ c.vq, v.result.isSome = true) : ∀ v ∈ c.settle.vq, v.result.isSome = true := by
  have hvq : c.settle.vq = (c.retireDone.prune.resolveVotes).vq := rfl
  intro v hv
  rw [hvq] at hv
  obtain ⟨w, hw, rfl⟩ := List.mem_map.1 hv
  have hsome := h w (retireDone_vq c ▸ hw)
  split
  · exact hsome
  · split
    · rfl
    · exact hsome
  · exact hsome

/-- What a dispatch that ends early leaves: in the context `c'`, and of the device (R304, R305). -/
structure CutShort (s : State) (c : Ctx) (e : Ended) (t : State) (c' : Ctx) : Prop where
  agenda : t.agenda = s.agenda
  hand : t.hand = s.hand
  links : t.links = s.links
  others : ∀ j, j ≠ c.id → t.ctxOf j = s.ctxOf j
  self : t.ctxOf c.id = some c'
  noneLive : c'.NoneLive
  stream : c'.stream = []
  votes : (∀ v ∈ c.vq, v.result.isSome = true) → ∀ v ∈ c'.vq, v.result.isSome = true
  members : c'.members.map memberKept = c.members.map fun m => memberKept m.afterDrain.cutShort
  rest : c' = { c with
    rows := c'.rows, kept := c'.kept, members := c'.members, stream := c'.stream, vq := c'.vq, channel := c'.channel, stores := c'.stores
    gen := .stopped, ir := none, twait := c'.twait, intake := [], handling := none, halting := false, deferred := none
    switch := c'.switch, handler := false, priv := false, ended := some e, deadline := none, taken := []
    stretches := c.stretches.filter fun x => x.defined }

theorem endContext_cutShort {s : State} {c d : Ctx} (h : s.ctxOf c.id = some d) (status reason : BitVec 8) (tcause tesn : DWord) :
    ∃ c', CutShort s c ⟨status, reason, tcause, tesn⟩ (endContext s c status reason tcause tesn) c' := by
  obtain ⟨hctxs, hlinks, hid⟩ := drainOut_frame (unsleep s c).1 (unsleep s c).2
  obtain ⟨hagenda, hhand⟩ := drainOut_hand (unsleep s c).1 (unsleep s c).2
  rw [endContext_eq]
  generalize hs1 : (drainOut (unsleep s c).1 (unsleep s c).2).1 = s1 at *
  generalize hc1 : (drainOut (unsleep s c).1 (unsleep s c).2).2 = c1 at *
  have hc1' : c1 = { c with gen := c1.gen, twait := c1.twait, members := c.members.map Member.afterDrain } := by
    rw [← hc1, drainOut_ctx, unsleep_ctx]
  have hctxOf : ∀ j, s1.ctxOf j = s.ctxOf j := fun j => by
    unfold State.ctxOf
    rw [hctxs, unsleep_state]
  have hcut : (c1.cutShort status reason tcause tesn).id = c.id := by
    rw [hc1']
    exact (retireAll_same _).id
  obtain ⟨hag, hha, hother⟩ := stopContext_frame s1 (c1.cutShort status reason tcause tesn)
  obtain ⟨c', hc', hsettled⟩ := stopContext_ctxOf (s := s1) (c := c1.cutShort status reason tcause tesn) (hcut ▸ (hctxOf c.id).trans h)
  refine ⟨c', hag.trans (hagenda.trans ?_), hha.trans (hhand.trans ?_), (stopContext_links ..).trans (hlinks.trans ?_),
    fun j hj => (hother j (hcut ▸ hj)).trans (hctxOf j), hcut ▸ hc', ?_, ?_, ?_, ?_, ?_⟩
  · rw [unsleep_state]
  · rw [unsleep_state]
  · rw [unsleep_state]
  · rw [hsettled]
    exact Ctx.NoneLive.settle (noneLive_retireAll c1)
  · rw [hsettled]
    exact settle_stream_nil rfl
  · intro hv
    rw [hsettled]
    refine settle_votes fun v hv' => hv v ?_
    have : v ∈ c1.retireAll.vq := hv'
    rw [retireAll_vq, hc1'] at this
    exact this
  · obtain ⟨-, hkeep⟩ := settle_keeps ({ c1.cutShort status reason tcause tesn with
      gen := .stopped, ir := none, stretches := (c1.cutShort status reason tcause tesn).stretches.filter fun x => x.defined, taken := [] })
    have hcomm : memberKept ∘ Member.cutShort = Member.cutShort ∘ memberKept := rfl
    have hretired : c1.retireAll.members.map memberKept = c1.members.map memberKept := retireAll_members c1
    rw [← hsettled] at hkeep
    refine hkeep.trans ?_
    show (c1.retireAll.members.map Member.cutShort).map memberKept = _
    rw [List.map_map, hcomm, ← List.map_map, hretired, hc1', List.map_map, List.map_map]
    rfl
  · obtain ⟨r1, k1, m1, st1, v1, ch1, so1, hall⟩ := retireAll_same c1
    obtain ⟨r2, k2, m2, st2, v2, ch2, so2, hset⟩ := settle_same ({ c1.cutShort status reason tcause tesn with
      gen := .stopped, ir := none, stretches := (c1.cutShort status reason tcause tesn).stretches.filter fun x => x.defined, taken := [] })
    rw [hset] at hsettled
    subst hsettled
    unfold Ctx.cutShort
    rw [hall, hc1']

theorem afterDrain_eq (mb : Member) :
    mb.afterDrain = { mb with psb := [], view := mb.afterDrain.view, early := mb.afterDrain.early } := by
  have hsee : ∀ l : List PsbLine, ∃ v e, l.foldl Member.seeDrained mb = { mb with view := v, early := e } := fun l =>
    List.foldlRecOn (motive := fun m : Member => ∃ v e, m = { mb with view := v, early := e }) l _ ⟨mb.view, mb.early, rfl⟩
      fun m ⟨v, e, hm⟩ p _ => by subst hm; exact ⟨_, _, rfl⟩
  obtain ⟨v, e, hve⟩ := hsee mb.psb
  unfold Member.afterDrain
  rw [hve]

/-- A member of the context as the end of its dispatch leaves it. -/
theorem CutShort.member {s t : State} {c c' : Ctx} {e : Ended} (h : CutShort s c e t c') {m : Nat} {mb : Member}
    (hmb : c.member m = some mb) : ∃ mb', c'.member m = some mb' ∧ memberKept mb' = memberKept mb.afterDrain.cutShort := by
  have hget := congrArg (fun l : List Member => l[m]?) h.members
  rw [List.getElem?_map, List.getElem?_map, show c.members[m]? = some mb from hmb] at hget
  obtain ⟨mb', hmb', heq⟩ := Option.map_eq_some_iff.1 hget
  exact ⟨mb', hmb', heq⟩

/-! ### Traps that kill (R301, R305) -/

/-- A trap that cannot be taken ends the dispatch. -/
theorem enterTrap_dies (s : State) {c : Ctx} (t : Trap) (h : Handling) (hdie : MustDie c) :
    enterTrap s c t h = endContext (reportFault s c t h) (c.record t) 2 (deathReason c) t.word (t.esn.zeroExtend 64) := by
  unfold enterTrap takeTrap deathReason
  by_cases hh : c.handler = true
  · rw [if_pos hh, if_pos hh]
    rfl
  · rw [if_neg hh, if_neg hh, if_pos (beq_iff_eq.2 (hdie.resolve_left hh))]
    rfl

theorem enterTrap_killed {s : State} {c d : Ctx} (hs : s.ctxOf c.id = some d) (hdie : MustDie c) (t : Trap) (h : Handling) :
    Killed s c t (deathReason c) { enterTrap s c t h with waited := false } := by
  have hdev := reportFault_eq s c t h
  have hctx : (reportFault s c t h).ctxOf (c.record t).id = some d := by rw [hdev]; exact hs
  obtain ⟨c', hcut⟩ := endContext_cutShort hctx 2 (deathReason c) t.word (t.esn.zeroExtend 64)
  rw [← enterTrap_dies s t h hdie] at hcut
  refine ⟨rfl, hcut.agenda.trans (by rw [hdev]), hcut.hand.trans (by rw [hdev]),
    fun j hj => (hcut.others j hj).trans (by rw [hdev]; rfl), fun hev => ⟨c.faultLeaf h, hcut.links.trans ?_⟩, c', hcut.self, ?_⟩
  · rw [hdev, hev]
    rfl
  · have hrest := hcut.rest
    have hstream := hcut.stream
    have hlive := hcut.noneLive
    rw [hrest] at hstream hlive ⊢
    exact ⟨rfl, rfl, rfl, rfl, rfl, rfl, rfl, rfl, rfl, hstream, rfl, hlive, rfl, rfl, rfl⟩

theorem queue_memberKept (mb : Member) (g : Engine) : (memberKept mb).queue g = mb.queue g := by
  cases g <;> rfl

/-- The scoreboard entries that stay are those of the commands that have started. -/
theorem mem_cutShort_board (mb : Member) (b : BoardEntry) :
    b ∈ mb.cutShort.board ↔ b ∈ mb.board ∧ ∃ g, ∃ x ∈ mb.queue g, x.st = .started ∧ x.e.seq = b.seq := by
  have hleft : ∀ x : Cmd, x ∈ startedOnly mb.copyQ ++ startedOnly mb.fetchQ ++ startedOnly mb.storageQ ++ startedOnly mb.bank.queue ↔
      ∃ g, x ∈ mb.queue g ∧ x.st = .started := fun x => by
    simp only [List.mem_append, startedOnly, List.mem_filter, beq_iff_eq]
    constructor
    · rintro (((h | h) | h) | h)
      · exact ⟨.copy, h⟩
      · exact ⟨.fetch, h⟩
      · exact ⟨.storage, h⟩
      · exact ⟨.matrix, h⟩
    · rintro ⟨g, h⟩
      cases g with
      | copy => exact Or.inl (Or.inl (Or.inl h))
      | fetch => exact Or.inl (Or.inl (Or.inr h))
      | storage => exact Or.inl (Or.inr h)
      | matrix => exact Or.inr h
  show b ∈ mb.board.filter _ ↔ _
  rw [List.mem_filter, List.any_eq_true]
  refine and_congr_right fun _ => ⟨fun ⟨x, hx, hseq⟩ => ?_, fun ⟨g, x, hx, hst, hseq⟩ => ?_⟩
  · obtain ⟨g, hmem, hst⟩ := (hleft x).1 hx
    exact ⟨g, x, hmem, hst, beq_iff_eq.1 hseq⟩
  · exact ⟨x, (hleft x).2 ⟨g, hx, hst⟩, beq_iff_eq.2 hseq⟩

theorem discardVotes_resolved (c : Ctx) : ∀ v ∈ (discardVotes c).vq, v.result.isSome = true := by
  intro v hv
  obtain ⟨w, -, rfl⟩ := List.mem_map.1 hv
  split
  · next h => rw [h]; rfl
  all_goals rfl

/-- Settles O26: the end of the dispatch by `endContext_cutShort`. -/
theorem handlerDiscard : Obligations.HandlerDiscard := by
  unfold Obligations.HandlerDiscard
  intro s c hctx hpriv hhandler hchannel
  have hself : s.ctxOf c.id = some c := ctxOf_id hctx ▸ hctx
  obtain ⟨c', hcut⟩ := endContext_cutShort (c := { discardVotes c with genCount := c.genCount + 1 }) hself 3 (c.tcause.truncate 8)
    c.tcause c.tesn
  have hexec : exec .grteDiscard s =
      done (endContext s { discardVotes c with genCount := c.genCount + 1 } 3 (c.tcause.truncate 8) c.tcause c.tesn) := by
    show execGrteDiscard s = _
    unfold execGrteDiscard grte
    rw [withCtx_some hctx, hpriv, hhandler, hchannel]
    rfl
  have hrest := hcut.rest
  have hlow : c.tcause.truncate 8 = c.tcause.extractLsb' 0 8 := BitVec.setWidth_eq_extractLsb' (by decide)
  refine ⟨_, c', hexec, rfl, hcut.self, ?_, ?_, ?_, ?_, hcut.stream, ?_, hcut.noneLive, hcut.votes (discardVotes_resolved c), ?_, ?_,
    fun m mb hmb => ?_⟩
  · rw [hrest, ← hlow]
  · rw [hrest]
  · rw [hrest]
  · rw [hrest]
  · rw [hrest]
  · rw [hrest]
  · rw [hrest]
    rfl
  · obtain ⟨mb', hmb', hkept⟩ := hcut.member (m := m) hmb
    have hqueue : ∀ g, mb'.queue g = startedOnly (mb.queue g) := fun g => by
      refine (queue_memberKept mb' g).symm.trans ((congrArg (Member.queue · g) hkept).trans ?_)
      rw [afterDrain_eq]
      cases g <;> rfl
    refine ⟨mb', hmb', ?_, hqueue, fun b => ?_⟩
    · exact (congrArg Member.holds hkept).trans rfl
    · have hboard : mb'.board = mb.cutShort.board := (congrArg Member.board hkept).trans (by rw [afterDrain_eq]; rfl)
      rw [hboard, mem_cutShort_board]

/-! ### Poisoned registers (R310) -/

theorem find_singleton_poisoned {s : State} {c : Ctx} {a r : GReg} (hbad : [a].find? (fun x => s.gPoisoned c.id x) = some r) : a = r ∧ s.gPoisoned c.id a = true := by
  obtain rfl := List.mem_singleton.1 (List.mem_of_find?_eq_some hbad)
  exact ⟨rfl, List.find?_some (p := fun x => s.gPoisoned c.id x) hbad⟩

section Poisoned
variable {s : State} {c : Ctx} {r : GReg} (hctx : s.ctxOf s.hand.ctx = some c)
include hctx

theorem genStep_poisoned {srcs : List GReg} (hbad : srcs.find? (fun x => s.gPoisoned c.id x) = some r) (q : Seq) (f : Ctx → GenRes) :
    genStep s q srcs f = genFault s c .mchk (poisonAddr 4 r.toNat) := by
  unfold genStep
  rw [withCtx_some hctx, hbad]

theorem exec_gwfe_poisoned {b : GSrc} (hbad : (srcRegs b).find? (fun x => s.gPoisoned c.id x) = some r) (q : Seq) :
    exec (.gwfe q b) s = genFault s c .mchk (poisonAddr 4 r.toNat) := by
  have hany : (srcRegs b).any (s.gPoisoned c.id) = true :=
    List.any_eq_true.2 ⟨r, List.mem_of_find?_eq_some hbad, List.find?_some (p := fun x => s.gPoisoned c.id x) hbad⟩
  show execGwfe q b s = _
  unfold execGwfe
  rw [withCtx_some hctx]
  dsimp only
  rw [hany, Bool.true_or, Bool.true_or, if_pos rfl]
  exact genStep_poisoned hctx hbad q _

theorem exec_gjmpr_poisoned {a : GReg} (hbad : s.gPoisoned c.id a = true) (link : Bool) :
    exec (.gjmpr link a) s = genFault s c .mchk (poisonAddr 4 a.toNat) := by
  show execGjmpr link a s = _
  unfold execGjmpr
  rw [withCtx_some hctx]
  rw [if_pos hbad]

theorem exec_twait_poisoned {a : GReg} (hbad : [a].find? (fun x => s.gPoisoned c.id x) = some r) (q : Seq) (b : FeBuf) (full : Bool) :
    exec (.twait q b full a) s = genFault s c .mchk (poisonAddr 4 r.toNat) := by
  obtain ⟨-, hpoison⟩ := find_singleton_poisoned hbad
  show execTwait q b full a s = _
  unfold execTwait
  rw [withCtx_some hctx]
  dsimp only
  rw [hpoison, Bool.true_or, Bool.true_or, if_pos rfl]
  exact genStep_poisoned hctx hbad q _

/-- A generator instruction that would read a poisoned register. -/
theorem exec_poisoned {i : Instr} (hbad : (genSources i).find? (fun x => s.gPoisoned c.id x) = some r) :
    exec i s = genFault s c .mchk (poisonAddr 4 r.toNat) := by
  unfold genSources at hbad
  split at hbad
  case h_1 q cc f a b => exact (genStep_poisoned hctx hbad q _ : execGcmp q cc f a b s = _)
  case h_2 q n b => exact (genStep_poisoned hctx hbad q _ : execGloop q n b s = _)
  case h_3 q n b => exact (genStep_poisoned hctx hbad q _ : execHset q n b s = _)
  case h_4 q b => exact exec_gwfe_poisoned hctx hbad q
  case h_5 q sz sx d a v => exact (genStep_poisoned hctx hbad q _ : execGld q sz sx d a v s = _)
  case h_6 q sz d a v => exact (genStep_poisoned hctx hbad q _ : execGst q sz d a v s = _)
  case h_7 q op d a b =>
    refine (genStep_poisoned hctx (Eq.trans ?_ hbad) q _ : execGamo q op d a b s = _)
    by_cases hop : op = .cas <;> simp [hop]
  case h_8 link a =>
    obtain ⟨rfl, hpoison⟩ := find_singleton_poisoned hbad
    exact exec_gjmpr_poisoned hctx hpoison link
  case h_9 q a n => exact (genStep_poisoned hctx hbad q _ : execCsrw q a n s = _)
  case h_10 q a n => exact (genStep_poisoned hctx hbad q _ : execQcmt q a n s = _)
  case h_11 q n a => exact (genStep_poisoned hctx hbad q _ : execSopen q n a s = _)
  case h_12 q d a => exact (genStep_poisoned hctx hbad q _ : execNpoll q d a s = _)
  case h_13 q b full a => exact exec_twait_poisoned hctx hbad q b full
  case h_14 q b full a => exact (genStep_poisoned hctx hbad q _ : execTset q b full a s = _)
  case h_15 q n => exact (genStep_poisoned hctx hbad q _ : execCapx q n s = _)
  case h_16 q n => exact (genStep_poisoned hctx hbad q _ : execRply q n s = _)
  case h_17 =>
    cases hw : genWriter i with
    | none => rw [hw] at hbad; cases hbad
    | some x =>
      rw [hw] at hbad
      obtain ⟨f, hf⟩ := exec_genWriter (i := i) (q := x.1) (d := x.2.1) (srcs := x.2.2) hw
      rw [hf]
      exact genStep_poisoned hctx hbad x.1 _

theorem exec_cdef_poisoned {a : GReg} (hhandler : c.handler = false) {x : BitVec 8} (hx : x.toNat ∈ c.carried)
    (hbad : s.gPoisoned c.id a = true) (q : Seq) (mem : Bool) :
    exec (.cdef q mem x a) s = genFault s c .mchk (poisonAddr 4 a.toNat) := by
  show execCdef q mem x a s = _
  refine genStep_trap ⟨hctx, fun _ h => absurd h List.not_mem_nil⟩ ?_
  dsimp only
  rw [hhandler, if_neg Bool.false_ne_true, List.contains_iff_mem.2 hx, if_neg (by decide), if_pos hbad]

end Poisoned

section Emission
variable {s : State} {k : Nat} {c : Ctx} {i : Instr} (hctx : s.ctxOf k = some c) (hmoves : c.genMoves = true) (hgen : c.gen = .running)
  (hir : c.ir = some i) (hlane : (i.lform.isSome || i.liform.isSome || i.eform.isSome) = true)
include hctx hmoves hgen hir hlane

theorem exec_emission_cause {cause : Cause} {a : Nat} (hcause : emissionCause c i = some (cause, a)) :
    exec (.emission k) s = emitFault s c (if i.eform.isSome then 5 else 1) cause (BitVec.ofNat 64 a) := by
  show execEmission k s = _
  unfold execEmission
  rw [hctx]
  dsimp only
  rw [hir]
  dsimp only
  rw [hmoves, hgen, hlane, if_neg (by decide), hcause]

theorem exec_emission_poisoned {r : GReg} (hcause : emissionCause c i = none)
    (hbad : (markedRegs i).find? (fun x => s.gPoisoned c.id x) = some r) :
    exec (.emission k) s = genFault s c .mchk (poisonAddr 4 r.toNat) := by
  show execEmission k s = _
  unfold execEmission
  rw [hctx]
  dsimp only
  rw [hir]
  dsimp only
  rw [hmoves, hgen, hlane, if_neg (by decide), hcause]
  dsimp only
  rw [hbad]

end Emission

/-- The TADDR of a poisoned register of the generator. -/
theorem poisonAddr_greg (r : GReg) : poisonAddr 4 r.toNat = BitVec.ofNat 64 (4 * 2 ^ 60 + r.toNat) := by
  unfold poisonAddr
  rw [Nat.mod_eq_of_lt (Nat.lt_trans r.isLt (by decide))]

/-- Settles O15: each by what its execution answers, all by `genFault_taken`. -/
theorem poisonedRegisterRaisesMachineCheck : Obligations.PoisonedRegisterRaisesMachineCheck := by
  unfold Obligations.PoisonedRegisterRaisesMachineCheck
  refine ⟨fun i r s c hctx hcan hbad => ?_, fun s k c i r hctx hcan hmoves hgen hir hlane hcause hbad => ?_,
    fun s c q mem x a hctx hcan hx hbad => ?_⟩
  · rw [exec_poisoned hctx hbad, poisonAddr_greg]
    exact genFault_taken hcan (ctxOf_id hctx ▸ hctx)
  · rw [exec_emission_poisoned hctx hmoves hgen hir hlane hcause hbad, poisonAddr_greg]
    exact genFault_taken hcan (ctxOf_id hctx ▸ hctx)
  · rw [exec_cdef_poisoned hctx hcan.1 hx hbad, poisonAddr_greg]
    exact genFault_taken hcan (ctxOf_id hctx ▸ hctx)

/-! ### Faults that kill (R301, R305) -/

section Killed
variable {s : State} {c d : Ctx} (hs : s.ctxOf c.id = some d) (hdie : MustDie c)
include hs hdie

theorem genFault_killed (k : Cause) (a : DWord) :
    ∃ t, genFault s c k a = .next t ∧ Killed s c (genTrap c k a) (deathReason c) t :=
  ⟨_, rfl, enterTrap_killed hs hdie _ _⟩

theorem emitFault_killed (n : Nat) (k : Cause) (a : DWord) :
    ∃ t, emitFault s c n k a = .next t ∧ Killed s c (emitTrap c k a) (deathReason c) t :=
  ⟨_, rfl, enterTrap_killed hs hdie _ _⟩

end Killed

/-! ### The trap after a gang halt (R298, R299) -/

section TrapEntry
variable {s : State} {k : Nat} {c : Ctx} (hctx : s.ctxOf k = some c) (hhalting : c.halting = true) (hended : c.ended = none)
  (hrevoked : c.revoked = false) (hswitch : c.switch = .inside ∨ c.switch = .restoring) (hslot : c.midSlot = false)
include hctx hhalting hended hrevoked hswitch hslot

theorem exec_trapEntry_none (hnone : c.stopLate.reported = none) :
    exec (.trapEntry k) s = done (s.putCtx { c.stopLate with halting := false }) := by
  have hsw : (c.switch == .inside || c.switch == .restoring) = true := by
    rcases hswitch with h | h <;> rw [h] <;> rfl
  show execTrapEntry k s = _
  unfold execTrapEntry
  rw [hctx]
  dsimp only
  rw [hhalting, hended, hrevoked, hsw, hslot, if_neg (by decide), hnone]

theorem exec_trapEntry_some {r : Row} {n : Nat} {tr : Trap} (hsome : c.stopLate.reported = some (r, n, tr)) :
    exec (.trapEntry k) s = done (enterTrap s c.stopLate tr
      { trap := tr, row := some r.item, eng := if tr.dom = .x then some (r.member, engineOfFault c.stopLate r.member tr.esn) else none,
        marker := false, afterExit := c.gen == .stopped, resume := c.pc, skipLen := 0 }) := by
  have hsw : (c.switch == .inside || c.switch == .restoring) = true := by
    rcases hswitch with h | h <;> rw [h] <;> rfl
  have heng : ∀ x : Option (Nat × Engine), (if tr.dom = .x then x else none) = if (tr.dom == .x) = true then x else none := fun x =>
    if_congr beq_iff_eq.symm rfl rfl
  show execTrapEntry k s = _
  unfold execTrapEntry
  rw [hctx]
  dsimp only
  rw [hhalting, hended, hrevoked, hsw, hslot, if_neg (by decide), hsome, heng]
  rfl

end TrapEntry

/-- Settles O27: every fault by `genFault_killed` or `emitFault_killed`, the trap after a halt by `enterTrap_killed`. -/
theorem faultsThatKill : Obligations.FaultsThatKill := by
  unfold Obligations.FaultsThatKill
  refine ⟨fun s c hself hdie => ⟨fun k a => genFault_killed hself hdie k a, fun n k a => emitFault_killed hself hdie n k a,
    fun hhand => ?hand, fun mb bs hmoves hgen hir hmb hfetch hdec => ?fetch, fun i cause a hmoves hgen hir hlane hcause => ?emission,
    fun r n tr hhalting hended hrevoked hswitch hslot hrep => ?halt⟩, rfl, rfl⟩
  case hand =>
    have hctx : s.ctxOf s.hand.ctx = some c := hhand ▸ hself
    refine ⟨fun i r hbad => ?_, fun a hclean hfull => ?_, fun q v hseq hq => ?_⟩
    · rw [exec_poisoned hctx hbad]
      exact genFault_killed hself hdie _ _
    · rw [exec_gjmpr_full hctx hclean hfull]
      exact genFault_killed hself hdie _ _
    · have hframe := nextPc_frame c.counted q
      have hid : (c.counted.nextPc q).id = c.id := nextPc_id _ q
      have hdie1 : MustDie (c.counted.nextPc q) := by rw [hframe]; exact hdie
      have hreason : deathReason (c.counted.nextPc q) = deathReason c := by rw [hframe]; rfl
      rw [exec_gtrap hctx hseq hq v, ← hreason]
      exact genFault_killed (ctxOf_putCtx_self (by rw [hid]; exact hself)) hdie1 _ _
  case fetch =>
    rw [exec_generatorFetch_illegal hself hmoves hir hgen hmb hfetch hdec (Or.inl rfl)]
    exact genFault_killed hself hdie _ _
  case emission =>
    rw [exec_emission_cause hself hmoves hgen hir hlane hcause]
    exact emitFault_killed hself hdie _ _ _
  case halt =>
    rw [exec_trapEntry_some hself hhalting hended hrevoked (Or.inl hswitch) hslot hrep]
    exact ⟨_, rfl, enterTrap_killed (c := c.stopLate) hself hdie _ _⟩

/-! ### Which fault is reported (R299, R308) -/

theorem leastBy2_none {α : Type} {f : α → Nat × Nat} {l : List α} (h : leastBy2 f l = none) : l = [] := by
  cases l with
  | nil => rfl
  | cons x l =>
    rw [leastBy2] at h
    split at h
    · cases h
    · split at h <;> cases h

theorem leastBy2_le {α : Type} {f : α → Nat × Nat} {l : List α} {y : α} (h : leastBy2 f l = some y) :
    ∀ x ∈ l, (f y).1 < (f x).1 ∨ ((f y).1 = (f x).1 ∧ (f y).2 ≤ (f x).2) := by
  induction l generalizing y with
  | nil => cases h
  | cons x l ih =>
    rw [leastBy2] at h
    cases hrest : leastBy2 f l with
    | none =>
      rw [hrest] at h
      obtain rfl := Option.some.inj h
      rw [leastBy2_none hrest]
      intro z hz
      obtain rfl := List.mem_singleton.1 hz
      exact Or.inr ⟨rfl, Nat.le_refl _⟩
    | some z =>
      rw [hrest] at h
      dsimp only at h
      have hz := ih hrest
      intro w hw
      split at h
      · next hlt =>
        obtain rfl := Option.some.inj h
        rcases List.mem_cons.1 hw with rfl | hw
        · simp only [Bool.or_eq_true, Bool.and_eq_true, decide_eq_true_eq, beq_iff_eq] at hlt
          omega
        · exact hz w hw
      · next hlt =>
        obtain rfl := Option.some.inj h
        rcases List.mem_cons.1 hw with rfl | hw
        · exact Or.inr ⟨rfl, Nat.le_refl _⟩
        · have := hz w hw
          simp only [Bool.or_eq_true, Bool.and_eq_true, decide_eq_true_eq, beq_iff_eq] at hlt
          omega

theorem mem_stops {c : Ctx} {r : Row} {n : Nat} {tr : Trap} :
    (r, n, tr) ∈ c.liveRows.filterMap (fun r => r.stop.map fun p => (r, p.1, p.2)) ↔ r ∈ c.rows ∧ r.live = true ∧ r.stop = some (n, tr) := by
  unfold Ctx.liveRows
  rw [List.mem_filterMap]
  constructor
  · rintro ⟨q, hq, hp⟩
    obtain ⟨p, hstop, heq⟩ := Option.map_eq_some_iff.1 hp
    cases heq
    obtain ⟨hmem, hlive⟩ := List.mem_filter.1 hq
    exact ⟨hmem, hlive, hstop⟩
  · rintro ⟨hmem, hlive, hstop⟩
    exact ⟨r, List.mem_filter.2 ⟨hmem, hlive⟩, by rw [hstop]; rfl⟩

theorem reported_none {c : Ctx} (h : ∀ r ∈ c.rows, r.live = true → r.stop = none) : c.reported = none := by
  cases hrep : c.reported with
  | none => rfl
  | some x =>
    obtain ⟨r, n, tr⟩ := x
    obtain ⟨hmem, hlive, hstop⟩ := mem_stops.1 (leastBy2_mem hrep)
    rw [h r hmem hlive] at hstop
    cases hstop

/-- The fault of lowest ESN, of lowest item among those. -/
theorem reported_least {c : Ctx} {r : Row} {n : Nat} {tr : Trap} (hr : r ∈ c.rows) (hlive : r.live = true) (hstop : r.stop = some (n, tr))
    (hleast : ∀ q ∈ c.rows, q.live = true → ∀ n' tr', q.stop = some (n', tr') → n < n' ∨ (n = n' ∧ r.item < q.item) ∨ q = r) :
    c.reported = some (r, n, tr) := by
  have hmem := mem_stops.2 ⟨hr, hlive, hstop⟩
  cases hrep : c.reported with
  | none => rw [leastBy2_none hrep] at hmem; cases hmem
  | some x =>
    obtain ⟨q, n', tr'⟩ := x
    obtain ⟨hq, hqlive, hqstop⟩ := mem_stops.1 (leastBy2_mem hrep)
    have hle := leastBy2_le hrep _ hmem
    dsimp only at hle
    obtain rfl : q = r := by
      rcases hleast q hq hqlive n' tr' hqstop with h | h | h
      · omega
      · omega
      · exact h
    rw [hstop] at hqstop
    cases hqstop
    rfl

theorem stopLate_rows (c : Ctx) : c.stopLate.rows = c.rows.map fun r => { r with
    stop := match r.late with
      | some (seq, tr, _) => some (seq, tr)
      | none => r.stop
    late := none } := by
  refine List.map_congr_left fun r _ => ?_
  unfold Row.stopLate
  cases r.late <;> rfl

theorem midSlot_false {c : Ctx} (h : ∀ r ∈ c.rows, r.live = true → r.amo = none) : c.midSlot = false := by
  refine List.any_eq_false.2 fun r hr => ?_
  obtain ⟨hmem, hlive⟩ := List.mem_filter.1 hr
  rw [h r hmem hlive]
  exact Bool.false_ne_true

/-! ### A fault of an engine after EXIT (R308) -/

theorem queuesOver_of {mb : Member} (h : ∀ g : Engine, (∀ x ∈ mb.queue g, x.st ≠ .started) ∧ ∀ x ∈ turnCmds mb g false, mb.blocked x = true) :
    mb.queuesOver = true := by
  refine List.all_eq_true.2 fun g _ => ?_
  obtain ⟨hstarted, hblocked⟩ := h g
  unfold Member.queueOver
  rw [Bool.and_eq_true]
  exact ⟨List.all_eq_true.2 fun x hx => bne_iff_ne.2 (hstarted x hx), List.all_eq_true.2 hblocked⟩

theorem exec_engineFaultAfterExit {s : State} {k : Nat} {c : Ctx} (hctx : s.ctxOf k = some c) (hgen : c.gen = .stopped) (hrows : c.liveRows = [])
    (hintake : c.intake = []) (hactive : c.active = true) (hhalting : c.halting = false) (hcompleted : c.completed = false)
    (hhandler : c.handler = false) (hover : c.members.all Member.queuesOver = true) {n m : Nat} {g : Engine} {tr : Trap}
    (hleast : leastBy2 (fun x => (x.1, x.2.1)) (c.queueFaults s) = some (n, m, g, tr)) :
    exec (.engineFaultAfterExit k) s = done (enterTrap s c { tr with mask := 0 }
      { trap := { tr with mask := 0 }, row := none, eng := some (m, g), marker := false, afterExit := true, resume := c.pc, skipLen := 0 }) := by
  show execEngineFaultAfterExit k s = _
  unfold execEngineFaultAfterExit
  rw [hctx]
  dsimp only
  rw [hgen, hrows, hintake, hhandler, hactive, hhalting, hcompleted, hover, if_neg (by decide), hleast]

/-- Settles O50: the fault that `reported_least` finds, the trap by `enterTrap_changed`, the death by `enterTrap_killed`. -/
theorem laneAndEngineTraps : Obligations.LaneAndEngineTraps := by
  unfold Obligations.LaneAndEngineTraps
  intro s k c hctx
  have hself : s.ctxOf c.id = some c := ctxOf_id hctx ▸ hctx
  refine ⟨fun hhalting hended hrevoked hswitch hamo => ?halt,
    fun n m g tr hgen hrows hintake hactive hhalting hcompleted hover hleast hhandler => ?exit⟩
  case halt =>
    have hslot := midSlot_false hamo
    intro stopped c1
    have hst : stopped = c.stopLate.rows := (stopLate_rows c).symm
    have hc1 : c1 = c.stopLate := congrArg (fun l => ({ c with rows := l } : Ctx)) hst
    rw [hc1, hst]
    refine ⟨fun hnone => ?_, fun r n tr hr hlive hstop hleast => ?_⟩
    · exact exec_trapEntry_none hctx hhalting hended hrevoked hswitch hslot (reported_none hnone)
    · refine ⟨_, exec_trapEntry_some hctx hhalting hended hrevoked hswitch hslot (reported_least hr hlive hstop hleast), fun hcan => ?_,
        fun hdie => ?_⟩
      · exact enterTrap_changed (c := c.stopLate) hcan hself
      · exact enterTrap_killed (c := c.stopLate) hself hdie _ _
  case exit =>
    have hover' : c.members.all Member.queuesOver = true := List.all_eq_true.2 fun mb hmb => queuesOver_of (hover mb hmb)
    refine ⟨_, exec_engineFaultAfterExit hctx hgen hrows hintake hactive hhalting hcompleted hhandler hover' hleast, fun hcan => ?_,
      fun htvec => ?_⟩
    · exact enterTrap_changed hcan hself
    · have hreason : deathReason c = 0x23 := by unfold deathReason; rw [hhandler]; rfl
      exact hreason ▸ enterTrap_killed hself (Or.inr htvec) _ _

/-! ### TIMER and DEADLINE (R311, R312) -/

theorem hearsEvents_eq (c : Ctx) : c.hearsEvents = true ↔ c.tvec ≠ 0 ∧ c.gen ≠ .stopped := by
  unfold Ctx.hearsEvents
  rw [Bool.and_eq_true, bne_iff_ne, bne_iff_ne]

theorem eventTrap_taken {s : State} {c d : Ctx} (hcan : CanTrap c) (hs : s.ctxOf c.id = some d) (k : Cause) (a : DWord) :
    let tr : Trap := { cause := k, dom := .g, addr := a, pc := c.pc }
    TrapEntered s c tr (plainHandling tr 0) { eventTrap s c k a with waited := false } :=
  enterTrap_changed hcan hs

/-- The generator sleeps for latch 2. -/
def Ctx.sleepsForDeadline (c : Ctx) : Bool :=
  match c.gen with
  | .sleepEvent m => m.getLsbD 2
  | _ => false

theorem sleepsForDeadline_iff (c : Ctx) : c.sleepsForDeadline = true ↔ ∃ m : BitVec 3, c.gen = .sleepEvent m ∧ m.getLsbD 2 = true := by
  unfold Ctx.sleepsForDeadline
  cases hgen : c.gen with
  | sleepEvent m => exact ⟨fun h => ⟨m, rfl, h⟩, fun ⟨n, hn, h⟩ => by cases hn; exact h⟩
  | _ => exact ⟨fun h => (Bool.false_ne_true h).elim, fun ⟨n, hn, _⟩ => by cases hn⟩

section Timer
variable {s : State} {k : Nat} {c : Ctx} (hctx : s.ctxOf k = some c)
include hctx

/-- A slice of another class, or none, raises nothing. -/
theorem exec_timer_crimson (hcls : c.cls = .crimson) (slice : Nat) : exec (.timer k slice) s = .next { s with waited := true } := by
  have hof : s.slices.of c.cls = 0 := by rw [hcls]; rfl
  have hidle : (slice != s.slices.of c.cls || !c.timerDue slice) = true := by
    rw [hof]
    cases slice with
    | zero => rfl
    | succ n => rfl
  show execTimer k slice s = _
  unfold execTimer
  rw [hctx]
  dsimp only
  rw [hidle]
  rfl

variable (hres : c.resident = true) (hended : c.ended = none) (hhalting : c.halting = false)
include hres hended hhalting

theorem exec_timer_due {slice : Nat} (hof : slice = s.slices.of c.cls) (hzero : slice ≠ 0)
    (hdue : c.lastTimer.toNat / slice < c.cycle.toNat / slice) :
    let c1 := { c with lastTimer := c.cycle }
    let v : DWord := BitVec.ofNat 64 (c.cycle.toNat / slice * slice)
    exec (.timer k slice) s =
      if c.handler then done (s.putCtx { c1 with timerWaits := some (c.timerWaits.getD v) })
      else if !c.hearsEvents then done (s.putCtx c1)
      else if c.revoked || c.switch != .inside then done (s.putCtx { c1 with timerWaits := some v })
      else done (eventTrap s c1 .timer v) := by
  have hdue' : c.timerDue slice = true := by
    unfold Ctx.timerDue
    rw [Bool.and_eq_true, bne_iff_ne, decide_eq_true_eq]
    exact ⟨hzero, hdue⟩
  show execTimer k slice s = _
  unfold execTimer
  rw [hctx]
  dsimp only
  rw [bne_eq_false_iff_eq.2 hof, hdue', hres, hended, hhalting, if_neg (by decide)]
  rfl

theorem exec_deadline_due {d : DWord} (hdl : c.deadline = some d) (hdue : d.toNat ≤ s.realtime.toNat) :
    let c1 := { c with deadline := none, latches := c.latches ||| 4 }
    exec (.deadline k) s =
      if c.sleepsForDeadline then done (s.putCtx c1)
      else if c.handler then done (s.putCtx { c1 with deadlineWaits := some d })
      else if !c.hearsEvents then done (s.putCtx c1)
      else if c.revoked || c.switch != .inside then done (s.putCtx { c1 with deadlineWaits := some d })
      else done (eventTrap s c1 .deadline d) := by
  have hnot : (decide (s.realtime.toNat < d.toNat) || !c.resident || c.ended.isSome || c.halting) = false := by
    rw [hres, hended, hhalting, decide_eq_false (Nat.not_lt.2 hdue)]
    rfl
  show execDeadline k s = _
  unfold execDeadline
  rw [hctx]
  dsimp only
  rw [hdl]
  dsimp only
  rw [hnot]
  rfl

end Timer

/-- Settles O55: the branches of `exec_timer_due` and `exec_deadline_due`. -/
theorem timerAndDeadline : Obligations.TimerAndDeadline := by
  unfold Obligations.TimerAndDeadline
  intro s k c hctx
  have hself : s.ctxOf c.id = some c := ctxOf_id hctx ▸ hctx
  have hdeaf : (c.tvec = 0 ∨ c.gen = .stopped) → (!c.hearsEvents) = true := fun h => by
    rw [Bool.not_eq_true', Bool.eq_false_iff, ne_eq, hearsEvents_eq]
    rcases h with h | h
    · exact fun hx => hx.1 h
    · exact fun hx => hx.2 h
  have hhears : CanTrap c → c.gen ≠ .stopped → ¬(!c.hearsEvents) = true := fun hcan hgen => by
    rw [(hearsEvents_eq c).2 ⟨hcan.2, hgen⟩]
    decide
  have haway : (c.revoked = true ∨ c.switch ≠ .inside) ↔ (c.revoked || c.switch != .inside) = true := by
    rw [Bool.or_eq_true, bne_iff_ne]
  have hhome : c.revoked = false → c.switch = .inside → ¬(c.revoked || c.switch != .inside) = true := fun hrev hsw => by
    rw [hrev, hsw]
    decide
  have hfree : c.handler = false → ¬c.handler = true := fun h => by rw [h]; decide
  refine ⟨fun slice hcls => exec_timer_crimson hctx hcls slice, fun hres hended hhalting => ⟨fun slice hcls hzero hdue => ?timer, fun d hdl hdue => ?deadline⟩⟩
  case timer =>
    have hof : slice = s.slices.of c.cls := by
      rcases hcls with ⟨h, hx⟩ | ⟨h, hx⟩ | ⟨h, hx⟩ <;> rw [h] <;> exact hx
    intro c1 v
    have hexec := exec_timer_due hctx hres hended hhalting hof hzero hdue
    refine ⟨fun hh => ?_, fun hh hno => ?_, fun hcan hgen hno => ?_, fun hcan hgen hrev hsw => ?_⟩
    · exact hexec.trans (if_pos hh)
    · exact hexec.trans ((if_neg (hfree hh)).trans (if_pos (hdeaf hno)))
    · exact hexec.trans ((if_neg (hfree hcan.1)).trans ((if_neg (hhears hcan hgen)).trans (if_pos (haway.1 hno))))
    · exact ⟨_, hexec.trans ((if_neg (hfree hcan.1)).trans ((if_neg (hhears hcan hgen)).trans (if_neg (hhome hrev hsw)))),
        eventTrap_taken (c := c1) hcan hself _ _⟩
  case deadline =>
    intro c1
    rw [← sleepsForDeadline_iff]
    intro asleep
    have hexec := exec_deadline_due hctx hres hended hhalting hdl hdue
    refine ⟨fun hs => ?_, fun hs hh => ?_, fun hs hh hno => ?_, fun hs hcan hgen hno => ?_, fun hs hcan hgen hrev hsw => ?_⟩
    · exact hexec.trans (if_pos hs)
    · exact hexec.trans ((if_neg hs).trans (if_pos hh))
    · exact hexec.trans ((if_neg hs).trans ((if_neg (hfree hh)).trans (if_pos (hdeaf hno))))
    · exact hexec.trans ((if_neg hs).trans ((if_neg (hfree hcan.1)).trans ((if_neg (hhears hcan hgen)).trans (if_pos (haway.1 hno)))))
    · exact ⟨_, hexec.trans ((if_neg hs).trans ((if_neg (hfree hcan.1)).trans ((if_neg (hhears hcan hgen)).trans (if_neg (hhome hrev hsw))))),
        eventTrap_taken (c := c1) hcan hself _ _⟩

end Sys2Proof.Machine

/-! ## Votes, storage completions and queues (R270-R273, R381, R390) -/

namespace Sys2Proof.Machine
open Sys2Proof.Safety

/-! ### The word of NPOLL (R390) -/

section PollWord
variable (p : Nat) (hp : p < 1024) (tag : BitVec 16) (kind : BitVec 2) (x : NvmeStatus)

/-- The fields of the word as one sum. -/
def pollSum : Nat :=
  tag.toNat + 2 ^ 16 * x.sc.toNat + 2 ^ 24 * x.sct.toNat + 2 ^ 27 * x.crd.toNat + 2 ^ 29 * x.more.toNat + 2 ^ 30 * x.dnr.toNat +
    2 ^ 32 * p + 2 ^ 42 * kind.toNat

include hp

theorem pollWord_toNat : (pollWord p (tag, kind, x)).toNat = pollSum p tag kind x := by
  have htag := tag.isLt
  have hsc := x.sc.isLt
  have hsct := x.sct.isLt
  have hcrd := x.crd.isLt
  have hkind := kind.isLt
  have hmore := x.more.toNat_lt
  have hdnr := x.dnr.toNat_lt
  have hm : (if x.more then 2 ^ 29 else 0) = 2 ^ 29 * x.more.toNat := by cases x.more <;> rfl
  have hd : (if x.dnr then 2 ^ 30 else 0) = 2 ^ 30 * x.dnr.toNat := by cases x.dnr <;> rfl
  unfold pollWord pollSum
  rw [BitVec.toNat_ofNat, hm, hd]
  dsimp only
  omega

theorem pollWord_field (lo : Nat) {n : Nat} (v : BitVec n) (h : pollSum p tag kind x / 2 ^ lo % 2 ^ n = v.toNat) :
    (pollWord p (tag, kind, x)).extractLsb' lo n = v := by
  apply BitVec.eq_of_toNat_eq
  rw [BitVec.extractLsb'_toNat, pollWord_toNat p hp, Nat.shiftRight_eq_div_pow, h]

theorem pollWord_bit (lo : Nat) (v : Bool) (h : pollSum p tag kind x / 2 ^ lo % 2 = v.toNat) :
    (pollWord p (tag, kind, x)).getLsbD lo = v := by
  rw [BitVec.getLsbD, pollWord_toNat p hp, Nat.testBit_eq_decide_div_mod_eq, h]
  cases v <;> rfl

theorem pollWord_fields :
    let w := pollWord p (tag, kind, x)
    w.extractLsb' 0 16 = tag ∧ w.extractLsb' 16 8 = x.sc ∧ w.extractLsb' 24 3 = x.sct ∧ w.extractLsb' 27 2 = x.crd ∧
      w.getLsbD 29 = x.more ∧ w.getLsbD 30 = x.dnr ∧ w.getLsbD 31 = false ∧ w.extractLsb' 32 10 = BitVec.ofNat 10 p ∧
      w.extractLsb' 42 2 = kind ∧ w.extractLsb' 44 20 = 0 := by
  have htag := tag.isLt
  have hsc := x.sc.isLt
  have hsct := x.sct.isLt
  have hcrd := x.crd.isLt
  have hkind := kind.isLt
  have hmore := x.more.toNat_lt
  have hdnr := x.dnr.toNat_lt
  refine ⟨pollWord_field p hp tag kind x 0 tag ?_, pollWord_field p hp tag kind x 16 x.sc ?_, pollWord_field p hp tag kind x 24 x.sct ?_,
    pollWord_field p hp tag kind x 27 x.crd ?_, pollWord_bit p hp tag kind x 29 _ ?_, pollWord_bit p hp tag kind x 30 _ ?_,
    pollWord_bit p hp tag kind x 31 false ?_, pollWord_field p hp tag kind x 32 (BitVec.ofNat 10 p) ?_,
    pollWord_field p hp tag kind x 42 kind ?_, pollWord_field p hp tag kind x 44 0 ?_⟩
  all_goals simp only [pollSum, BitVec.toNat_ofNat, Bool.toNat_false, BitVec.ofNat_eq_ofNat]
  all_goals omega

end PollWord

/-! ### Handlers (R305, R337) -/

theorem deathReason_handler {c : Ctx} (h : c.handler = true) : deathReason c = 0x20 := if_pos h

/-- In a handler these instructions raise HSTATE. -/
theorem exec_hstate {s : State} {c : Ctx} (q : Seq) (d a : GReg) (n : NameSrc) (k x : BitVec 8) (z : BitVec 4) (b : FeBuf) (full mem : Bool)
    (hready : GenReady s c (a :: nameRegs n)) (hhandler : c.handler = true) :
    ∀ i ∈ [Instr.gvq q d, .capb q k, .capbDry q k, .cape q d, .capx q n, .rply q n, .tset q b full a, .twait q b full a, .cdef q mem x a,
           .qpop q d z], exec i s = genFault s c .hstate 0 := by
  have hnone : GenReady s c [] := ⟨hready.1, fun r hr => absurd hr List.not_mem_nil⟩
  have hname : GenReady s c (nameRegs n) := ⟨hready.1, fun r hr => hready.2 r (List.mem_cons_of_mem a hr)⟩
  have hone : GenReady s c [a] := ⟨hready.1, fun r hr => hready.2 r (List.mem_singleton.1 hr ▸ List.mem_cons_self ..)⟩
  simp only [List.forall_mem_cons]
  refine ⟨?_, ?_, ?_, ?_, ?_, ?_, ?_, ?_, ?_, ?_, fun i hi => absurd hi List.not_mem_nil⟩
  · exact (genStep_trap hnone (if_pos hhandler) : execGvq q d s = _)
  · exact (genStep_trap hnone (if_pos hhandler) : execCapb q k s = _)
  · exact (genStep_trap hnone (if_pos hhandler) : execCapbDry q k s = _)
  · exact (genStep_trap hnone (if_pos hhandler) : execCape q d s = _)
  · exact (genStep_trap hname (if_pos hhandler) : execCapx q n s = _)
  · exact (genStep_trap hname (if_pos hhandler) : execRply q n s = _)
  · exact (genStep_trap hone (if_pos hhandler) : execTset q b full a s = _)
  · show execTwait q b full a s = _
    unfold execTwait
    rw [withCtx_some hready.1]
    dsimp only
    rw [hhandler, Bool.or_true, Bool.true_or, if_pos rfl]
    exact genStep_trap hone (if_pos hhandler)
  · exact (genStep_trap hnone (if_pos hhandler) : execCdef q mem x a s = _)
  · show execQpop q d z s = _
    unfold execQpop
    rw [withCtx_some hready.1]
    cases boundQueue s c z with
    | none => exact genStep_trap hnone (if_pos hhandler)
    | some dq => exact if_pos hhandler

/-! ### GVQ and NPOLL -/

section Npoll
variable {s : State} {c : Ctx} {q : Seq} {d a : GReg} (hready : GenReady s c [a]) (hseq : SeqOk c q) {p : Nat} (hp : (c.greg a).toNat % 1024 = p)
include hready hseq hp

theorem exec_npoll_none (h : ∀ x ∈ s.pairs, x.num = p → x.domain = c.domain → x.done = []) :
    exec (.npoll q d a) s = .next (genDone s c q d (BitVec.allOnes 64)) := by
  show execNpoll q d a s = _
  refine genStep_ok hready (s1 := s.cure fun p => p == .greg c.id d.toNat) (c1 := c.setG d (BitVec.allOnes 64)) ?_ hseq
  rw [hp]
  dsimp only
  cases hx : s.pairs.find? fun x => x.num == p && x.domain == c.domain with
  | none => rfl
  | some x =>
    have hmatch := List.find?_some hx
    simp only [Bool.and_eq_true, beq_iff_eq] at hmatch
    dsimp only
    rw [h x (List.mem_of_find?_eq_some hx) hmatch.1 hmatch.2]
    rfl

theorem exec_npoll_some {x : NvmePair} {y : BitVec 16 × BitVec 2 × NvmeStatus} {rest : List (BitVec 16 × BitVec 2 × NvmeStatus)}
    (hx : (s.pairs.find? fun x => x.num == p && x.domain == c.domain) = some x) (hdone : x.done = y :: rest) :
    exec (.npoll q d a) s = .next (genDone
      { s with pairs := mapIf (fun z => z.num == p) (fun z => { z with done := rest }) s.pairs } c q d (pollWord p y)) := by
  show execNpoll q d a s = _
  refine genStep_ok hready (s1 := State.cure _ fun p => p == .greg c.id d.toNat) (c1 := c.setG d (pollWord p y)) ?_ hseq
  rw [hp]
  dsimp only
  rw [hx]
  dsimp only
  rw [hdone]
  rfl

end Npoll

/-- Settles O30: each instruction by what it finds, HSTATE by `exec_hstate`, the map of NPOLL's word by `pollWord_fields`. -/
theorem votesAndStorageCompletions : Obligations.VotesAndStorageCompletions := by
  unfold Obligations.VotesAndStorageCompletions
  refine ⟨fun s c q d v rest r hready hseq hhandler hvq hres => ?_, fun s c q d hready hcan hvq => ?_,
    fun s c q d a n k x z b full mem hready hhandler i hi => ?_,
    fun s c q d a hready hseq => ⟨exec_npoll_none hready hseq rfl, fun x y rest hx hdone => exec_npoll_some hready hseq rfl hx hdone⟩,
    fun p tag kind x hp => pollWord_fields p hp tag kind x⟩
  · show execGvq q d s = _
    refine genStep_ok hready (s1 := s.cure fun p => p == .greg c.id d.toNat) (c1 := Ctx.setG { c with vq := rest } d r) ?_ hseq
    rw [hhandler, hvq]
    dsimp only
    rw [hres]
    rfl
  · have hexec : exec (.gvq q d) s = genFault s c .vqempty 0 := by
      show execGvq q d s = _
      refine genStep_trap hready ?_
      rw [hcan.1, hvq]
      rfl
    rw [hexec]
    exact genFault_taken hcan (ctxOf_id hready.1 ▸ hready.1)
  · rw [exec_hstate q d a n k x z b full mem hready hhandler i hi, ← deathReason_handler hhandler]
    exact genFault_killed (ctxOf_id hready.1 ▸ hready.1) (Or.inl hhandler) _ _

end Sys2Proof.Machine

/-! ## Hardware queues (R270-R273, R376, R437) -/

namespace Sys2Proof.Machine
open Sys2Proof.Safety

/-! ### The mirror of the commit bits (R437) -/

theorem mirror_eq (s : State) (q : DevQueue) (j : Nat) : mirror s q j = s ∨ ∃ l, mirror s q j = s.perform [(l, q.mirrorByte j)] := by
  unfold mirror
  dsimp only
  split
  · exact Or.inl rfl
  · exact Or.inr ⟨_, rfl⟩

@[simp] theorem mirror_queues (s : State) (q : DevQueue) (j : Nat) : (mirror s q j).queues = s.queues := by
  rcases mirror_eq s q j with h | ⟨l, h⟩
  · rw [h]
  · rw [h, perform_queues]

@[simp] theorem mirror_ctxs (s : State) (q : DevQueue) (j : Nat) : (mirror s q j).ctxs = s.ctxs := by
  rcases mirror_eq s q j with h | ⟨l, h⟩
  · rw [h]
  · rw [h, perform_ctxs]

theorem mirror_queueOf (s : State) (q : DevQueue) (j n : Nat) : (mirror s q j).queueOf n = s.queueOf n := by
  unfold State.queueOf
  rw [mirror_queues]

theorem mirror_ctxOf (s : State) (q : DevQueue) (j k : Nat) : (mirror s q j).ctxOf k = s.ctxOf k := by
  unfold State.ctxOf
  rw [mirror_ctxs]

/-- A sum of different powers of two has the bits of its terms. -/
theorem bitSum_testBit (p : Nat → Bool) (n : Nat) :
    ((List.range n).map fun k => if p k then 2 ^ k else 0).sum < 2 ^ n ∧
      ∀ k, k < n → ((List.range n).map fun k => if p k then 2 ^ k else 0).sum.testBit k = p k := by
  induction n with
  | zero => exact ⟨Nat.one_pos, fun k hk => absurd hk (Nat.not_lt_zero k)⟩
  | succ n ih =>
    obtain ⟨hlt, hbits⟩ := ih
    rw [List.range_succ, List.map_append, List.sum_append]
    generalize ((List.range n).map fun k => if p k then 2 ^ k else 0).sum = t at *
    have hone : ([n].map fun k => if p k then 2 ^ k else 0).sum = if p n then 2 ^ n else 0 := by simp
    rw [hone]
    refine ⟨?_, fun k hk => ?_⟩
    · split <;> omega
    · by_cases hkn : k = n
      · subst hkn
        by_cases hp : p k = true
        · rw [if_pos hp, Nat.add_comm, Nat.testBit_two_pow_add_eq, Nat.testBit_lt_two_pow hlt, hp]
          rfl
        · rw [if_neg hp, Nat.add_zero, Nat.testBit_lt_two_pow hlt]
          exact (Bool.eq_false_iff.2 hp).symm
      · have hk : k < n := by omega
        by_cases hp : p n = true
        · rw [if_pos hp, Nat.add_comm, Nat.testBit_two_pow_add_gt hk, hbits k hk]
        · rw [if_neg hp, Nat.add_zero, hbits k hk]

theorem mirrorByte_bit (q : DevQueue) (j : Nat) {k : Nat} (hk : k < 8) :
    (q.mirrorByte j).getLsbD k = true ↔ ∃ x ∈ q.committed, x % q.size = 8 * j + k := by
  obtain ⟨hlt, hbits⟩ := bitSum_testBit (fun k => q.committed.any fun x => x % q.size == 8 * j + k) 8
  unfold DevQueue.mirrorByte
  rw [BitVec.getLsbD, BitVec.toNat_ofNat, Nat.mod_eq_of_lt hlt, hbits k hk, List.any_eq_true]
  simp only [beq_iff_eq]

/-- Where the byte stands that mirrors the commit bits: at home for queue 0, else where its page translates. -/
def mirrorAt (s : State) (q : DevQueue) (j : Nat) (l : GLoc) : Prop :=
  match q.domain with
  | none => paMappable s.fenced (q.bitmap + j) = true ∧ l = ⟨q.bitmap + j, false⟩
  | some d => ∃ f, translate s d (q.bitmap + j) false .store = .ok (l, f)

/-- The byte that mirrors the commit bits has no place. -/
def mirrorNowhere (s : State) (q : DevQueue) (j : Nat) : Prop :=
  match q.domain with
  | none => paMappable s.fenced (q.bitmap + j) = false
  | some d => ∃ e, translate s d (q.bitmap + j) false .store = .error e

theorem mirror_at {s : State} {q : DevQueue} {j : Nat} {l : GLoc} (h : mirrorAt s q j l) : mirror s q j = s.perform [(l, q.mirrorByte j)] := by
  unfold mirrorAt at h
  unfold mirror
  cases hd : q.domain with
  | none =>
    rw [hd] at h
    obtain ⟨hmap, rfl⟩ := h
    dsimp only
    rw [hmap]
    rfl
  | some d =>
    rw [hd] at h
    obtain ⟨f, hf⟩ := h
    dsimp only
    rw [hf]

theorem mirror_nowhere {s : State} {q : DevQueue} {j : Nat} (h : mirrorNowhere s q j) : mirror s q j = s := by
  unfold mirrorNowhere at h
  unfold mirror
  cases hd : q.domain with
  | none =>
    rw [hd] at h
    dsimp only at h ⊢
    rw [h]
    rfl
  | some d =>
    rw [hd] at h
    obtain ⟨e, he⟩ := h
    dsimp only
    rw [he]

theorem mirror_memory {s : State} {q : DevQueue} {j : Nat} {l : GLoc} (hinv : Safety.State.Inv s) (hrep : l.rep = false) (h : mirrorAt s q j l) :
    (∀ k, k < 8 → ((Memory.read (mirror s q j).mem l.pa).getLsbD k = true ↔ ∃ x ∈ q.committed, x % q.size = 8 * j + k)) ∧
    ∀ a, a ≠ l.pa → Memory.read (mirror s q j).mem a = Memory.read s.mem a := by
  have hcopies : l.copies = [l.pa] := by unfold GLoc.copies; rw [hrep]; rfl
  rw [mirror_at h, perform_mem]
  refine ⟨fun k hk => ?_, fun a ha => homeWriteN_other _ fun y hy => ?_⟩
  · rw [homeWriteN_copy (v := q.mirrorByte j) hinv ⟨_, List.mem_singleton_self _, by rw [hcopies]; exact List.mem_singleton_self _⟩
      fun y hy _ => by rw [List.mem_singleton.1 hy], mirrorByte_bit q j hk]
  · rw [List.mem_singleton.1 hy, hcopies, List.mem_singleton]
    exact ha

/-! ### Queues in the device -/

theorem queueOf_num {s : State} {n : Nat} {q : DevQueue} (h : s.queueOf n = some q) : q.num = n := by
  have := List.find?_some h
  simpa using this

theorem queueOf_putQueue {s : State} {q q1 : DevQueue} (h : s.queueOf q.num = some q1) : (s.putQueue q).queueOf q.num = some q := by
  have hfind := find_mapIf DevQueue.num s.queues q q.num
  rw [if_pos rfl] at hfind
  exact hfind.trans (congrArg (Option.map fun _ => q) h)

/-- The queue behind the taking of its slot HEAD. -/
def DevQueue.headTaken (q : DevQueue) : DevQueue := { q with head := q.head + 1, committed := q.committed.filter fun x => x != q.head }

theorem takeHead_eq (s : State) (q : DevQueue) : takeHead s q = mirror (s.putQueue q.headTaken) q.headTaken (q.head % q.size / 8) := rfl

theorem takeHead_queueOf {s : State} {q q1 : DevQueue} (h : s.queueOf q.num = some q1) : (takeHead s q).queueOf q.num = some q.headTaken := by
  rw [takeHead_eq, mirror_queueOf]
  exact queueOf_putQueue (q := q.headTaken) h

theorem takeHead_ctxOf (s : State) (q : DevQueue) (k : Nat) : (takeHead s q).ctxOf k = s.ctxOf k := by
  rw [takeHead_eq, mirror_ctxOf]
  rfl

/-! ### A commit (R272, R376) -/

/-- The queue behind a commit. -/
def DevQueue.withCommit (q : DevQueue) (now : DWord) (slot : Nat) : DevQueue :=
  { q with committed := q.committed ++ [slot], lastCommit := now, lastSlot := BitVec.ofNat 64 slot }

/-- A context behind a commit on queue `n`: latch 0 is set when it is bound to the queue. -/
def Ctx.latched (c : Ctx) (n : Nat) : Ctx := if some n ∈ c.queues.toList then { c with latches := c.latches ||| 1 } else c

/-- The device behind a commit, before the sleepers are served. -/
def committedState (s : State) (q : DevQueue) (slot : Nat) : State :=
  let q1 := q.withCommit s.realtime slot
  let t := mirror (s.putQueue q1) q1 (slot % q.size / 8)
  { t with ctxs := t.ctxs.map fun c => c.latched q.num }

theorem commitSlot_eq (s : State) (q : DevQueue) (slot : Nat) :
    commitSlot s q slot = wakeSleepers (committedState s q slot) q.num (q.sleepers.length + 1) := by
  have hlatch : (fun c : Ctx => if c.queues.toList.contains (some q.num) then { c with latches := c.latches ||| 1 } else c) =
      fun c => c.latched q.num := by
    funext c
    exact if_congr List.contains_iff_mem rfl rfl
  unfold commitSlot committedState
  dsimp only
  rw [← hlatch]
  rfl

theorem latched_id (c : Ctx) (n : Nat) : (c.latched n).id = c.id := by
  unfold Ctx.latched
  split <;> rfl

theorem committedState_ctxOf (s : State) (q : DevQueue) (slot k : Nat) :
    (committedState s q slot).ctxOf k = (s.ctxOf k).map fun c => c.latched q.num := by
  have hkey : (fun x : Ctx => x.id == k) ∘ (fun c : Ctx => c.latched q.num) = fun x => x.id == k := by
    funext c
    exact congrArg (· == k) (latched_id c q.num)
  unfold committedState State.ctxOf
  dsimp only
  rw [mirror_ctxs, List.find?_map, hkey]
  rfl

theorem committedState_queueOf {s : State} {q : DevQueue} (h : s.queueOf q.num = some q) (slot : Nat) :
    (committedState s q slot).queueOf q.num = some (q.withCommit s.realtime slot) :=
  (mirror_queueOf _ _ _ _).trans (queueOf_putQueue (q := q.withCommit s.realtime slot) h)

/-! ### Sleepers (R272) -/

/-- A sleeper that has been served with slot HEAD. -/
def Ctx.served (c : Ctx) (q : DevQueue) (d : GReg) : Ctx := (c.setG d (BitVec.ofNat 64 q.head)).tookSlot q true

theorem wakeSleepers_none {s : State} {q : DevQueue} {qn : Nat} (h : s.queueOf qn = some q)
    (hidle : q.sleepers = [] ∨ q.head ∉ q.committed) (n : Nat) : wakeSleepers s qn n = s := by
  cases n with
  | zero => rfl
  | succ n =>
    rw [wakeSleepers, h]
    dsimp only
    cases hsl : q.sleepers with
    | nil => rfl
    | cons w rest =>
      have hhead := hidle.resolve_left (by rw [hsl]; exact List.cons_ne_nil w rest)
      exact if_neg (by rw [List.contains_iff_mem]; exact hhead)

section Wake
variable {s : State} {q : DevQueue} {qn w : Nat} {rest : List Nat} (h : s.queueOf qn = some q) (hsl : q.sleepers = w :: rest)
  (hhead : q.head ∈ q.committed)
include h hsl hhead

theorem wakeSleepers_gone (hctx : s.ctxOf w = none) (n : Nat) :
    wakeSleepers s qn (n + 1) = wakeSleepers (s.putQueue { q with sleepers := rest }) qn n := by
  rw [wakeSleepers, h]
  dsimp only
  rw [hsl]
  dsimp only
  rw [if_pos (List.contains_iff_mem.2 hhead), hctx]

theorem wakeSleepers_served {c : Ctx} (hctx : s.ctxOf w = some c) {x : Nat} {d : GReg} {sq : Seq} (hgen : c.gen = .sleepQueue x d sq) (n : Nat) :
    wakeSleepers s qn (n + 1) = wakeSleepers (retireGen ((takeHead s { q with sleepers := rest }).cure fun p => p == .greg w d.toNat)
      (c.served q d) sq) qn n := by
  rw [wakeSleepers, h]
  dsimp only
  rw [hsl]
  dsimp only
  rw [if_pos (List.contains_iff_mem.2 hhead), hctx]
  dsimp only
  rw [hgen]
  rfl

theorem wakeSleepers_awake {c : Ctx} (hctx : s.ctxOf w = some c) (hgen : ∀ x d sq, c.gen ≠ .sleepQueue x d sq) (n : Nat) :
    wakeSleepers s qn (n + 1) = wakeSleepers (s.putQueue { q with sleepers := rest }) qn n := by
  rw [wakeSleepers, h]
  dsimp only
  rw [hsl]
  dsimp only
  rw [if_pos (List.contains_iff_mem.2 hhead), hctx]
  dsimp only
  split
  · next hsleep => exact absurd hsleep (hgen _ _ _)
  · rfl

end Wake

theorem releaseSlot_sleepers {s : State} {n : Nat} {q : DevQueue} (h : s.queueOf n = some q) (k slot : Nat) :
    ∃ q1, (releaseSlot s k slot).queueOf n = some q1 ∧ q1.sleepers = q.sleepers := by
  unfold releaseSlot
  cases hk : s.queueOf k with
  | none => exact ⟨q, h, rfl⟩
  | some q2 =>
    dsimp only
    have hnum := queueOf_num hk
    have hfind := find_mapIf DevQueue.num s.queues { q2 with unreleased := q2.unreleased.filter fun x => x != slot } n
    by_cases hn : n = q2.num
    · have hq : q = q2 := Option.some.inj (h.symm.trans ((hn.trans hnum) ▸ hk))
      subst hq
      refine ⟨{ q with unreleased := q.unreleased.filter fun x => x != slot }, hfind.trans ?_, rfl⟩
      rw [if_pos hn]
      exact congrArg (Option.map fun _ => _) h
    · exact ⟨q, hfind.trans ((if_neg hn).trans h), rfl⟩

theorem retireGen_sleepers {s : State} {n : Nat} {q : DevQueue} (h : s.queueOf n = some q) (c : Ctx) (sq : Seq) :
    ∃ q1, (retireGen s c sq).queueOf n = some q1 ∧ q1.sleepers = q.sleepers := by
  unfold retireGen
  cases sq with
  | exit =>
    unfold stopContext
    refine List.foldlRecOn (motive := fun t : State => ∃ q1, t.queueOf n = some q1 ∧ q1.sleepers = q.sleepers) _ _ ⟨q, h, rfl⟩ ?_
    rintro t ⟨q1, hq1, hsl⟩ x -
    obtain ⟨q2, hq2, hsl2⟩ := releaseSlot_sleepers hq1 x.1 x.2
    exact ⟨q2, hq2, hsl2.trans hsl⟩
  | _ => exact ⟨q, h, rfl⟩

/-- With turns enough the sleepers are served until nobody sleeps or HEAD is not committed. -/
theorem wakeSleepers_served_all {qn n : Nat} {s : State} {q : DevQueue} (h : s.queueOf qn = some q) (hn : q.sleepers.length < n) :
    ∃ q1 served, (wakeSleepers s qn n).queueOf qn = some q1 ∧ q.sleepers = served ++ q1.sleepers ∧
      (q1.sleepers = [] ∨ q1.head ∉ q1.committed) := by
  induction n generalizing s q with
  | zero => exact absurd hn (Nat.not_lt_zero _)
  | succ n ih =>
    by_cases hidle : q.sleepers = [] ∨ q.head ∉ q.committed
    · rw [wakeSleepers_none h hidle]
      exact ⟨q, [], h, rfl, hidle⟩
    · obtain ⟨hne, hhead⟩ := not_or.1 hidle
      rw [not_not] at hhead
      obtain ⟨w, rest, hsl⟩ := List.exists_cons_of_ne_nil hne
      have hlen : rest.length < n := by rw [hsl] at hn; exact Nat.lt_of_succ_lt_succ hn
      have hnum := queueOf_num h
      -- each turn leaves the queue with the first sleeper gone
      have hturn : ∃ t q2, wakeSleepers s qn (n + 1) = wakeSleepers t qn n ∧ t.queueOf qn = some q2 ∧ q2.sleepers = rest := by
        have hput : (s.putQueue { q with sleepers := rest }).queueOf qn = some { q with sleepers := rest } :=
          hnum ▸ queueOf_putQueue (q := { q with sleepers := rest }) (hnum.symm ▸ h)
        cases hctx : s.ctxOf w with
        | none => exact ⟨_, _, wakeSleepers_gone h hsl hhead hctx n, hput, rfl⟩
        | some c =>
          by_cases hgen : ∃ x d sq, c.gen = .sleepQueue x d sq
          · obtain ⟨x, d, sq, hgen⟩ := hgen
            have htaken : ((takeHead s { q with sleepers := rest }).cure fun p => p == .greg w d.toNat).queueOf qn =
                some (DevQueue.headTaken { q with sleepers := rest }) :=
              hnum ▸ takeHead_queueOf (q := { q with sleepers := rest }) (hnum.symm ▸ h)
            obtain ⟨q2, hq2, hsl2⟩ := retireGen_sleepers htaken (c.served q d) sq
            exact ⟨_, q2, wakeSleepers_served h hsl hhead hctx hgen n, hq2, hsl2⟩
          · exact ⟨_, _, wakeSleepers_awake h hsl hhead hctx (fun x d sq hx => hgen ⟨x, d, sq, hx⟩) n, hput, rfl⟩
      obtain ⟨t, q2, hstep, hq2, hsl2⟩ := hturn
      obtain ⟨q1, served, hq1, happ, hend⟩ := ih hq2 (hsl2.symm ▸ hlen)
      refine ⟨q1, w :: served, hstep ▸ hq1, ?_, hend⟩
      rw [hsl, ← hsl2, happ]
      rfl

theorem commitSlot_idle {s : State} {q : DevQueue} (h : s.queueOf q.num = some q) {slot : Nat}
    (hidle : q.sleepers = [] ∨ q.head ∉ q.committed ++ [slot]) : commitSlot s q slot = committedState s q slot := by
  rw [commitSlot_eq]
  exact wakeSleepers_none (committedState_queueOf h slot) hidle _

theorem commitSlot_sleepers {s : State} {q : DevQueue} (h : s.queueOf q.num = some q) (slot : Nat) :
    ∃ q1 served, (commitSlot s q slot).queueOf q.num = some q1 ∧ q.sleepers = served ++ q1.sleepers ∧
      (q1.sleepers = [] ∨ q1.head ∉ q1.committed) := by
  rw [commitSlot_eq]
  exact wakeSleepers_served_all (q := q.withCommit s.realtime slot) (committedState_queueOf h slot) (Nat.lt_succ_self _)

theorem retireGen_putCtx {sq : Seq} (hsq : sq ≠ .exit) (s : State) (c : Ctx) : retireGen s c sq = s.putCtx (c.counted.nextPc sq) := by
  cases sq with
  | exit => exact absurd rfl hsq
  | _ => rfl

theorem served_id (e : Ctx) (y : DevQueue) (r : GReg) : (e.served y r).id = e.id := by
  unfold Ctx.served Ctx.tookSlot
  dsimp only
  split <;> exact setG_id ..

theorem latched_served_genCount (c : Ctx) (n : Nat) (y : DevQueue) (r : GReg) : ((c.latched n).served y r).genCount = c.genCount := by
  have hlatch : (c.latched n).genCount = c.genCount := by
    unfold Ctx.latched
    split <;> rfl
  have hset : ((c.latched n).setG r (BitVec.ofNat 64 y.head)).genCount = (c.latched n).genCount := by rw [setG_frame]
  unfold Ctx.served Ctx.tookSlot
  dsimp only
  split <;> exact hset.trans hlatch

section OneSleeper
variable {s : State} {q : DevQueue} (h : s.queueOf q.num = some q) {slot w : Nat} {rest : List Nat} {c : Ctx} {x : Nat} {d : GReg}
  {sq : Seq} (hsl : q.sleepers = w :: rest) (hhead : q.head ∈ q.committed ++ [slot]) (hone : rest = [] ∨ q.head + 1 ∉ q.committed ++ [slot])
  (hctx : s.ctxOf w = some c) (hgen : c.gen = .sleepQueue x d sq) (hsq : sq ≠ .exit)
include h hsl hhead hone hctx hgen hsq

/-- A commit that lets the oldest sleeper alone go on. -/
theorem commitSlot_one :
    let set := q.withCommit s.realtime slot
    commitSlot s q slot = ((takeHead (committedState s q slot) { set with sleepers := rest }).cure fun p => p == .greg w d.toNat).putCtx
      (((c.latched q.num).served set d).counted.nextPc sq) := by
  intro set
  have hset : (committedState s q slot).queueOf q.num = some set := committedState_queueOf h slot
  have hctx1 : (committedState s q slot).ctxOf w = some (c.latched q.num) := by rw [committedState_ctxOf, hctx]; rfl
  have hgen1 : (c.latched q.num).gen = .sleepQueue x d sq := by
    rw [← hgen]
    unfold Ctx.latched
    split <;> rfl
  have htaken : (((takeHead (committedState s q slot) { set with sleepers := rest }).cure fun p => p == .greg w d.toNat).putCtx
      (((c.latched q.num).served set d).counted.nextPc sq)).queueOf q.num = some (DevQueue.headTaken { set with sleepers := rest }) :=
    takeHead_queueOf (q := { set with sleepers := rest }) hset
  rw [commitSlot_eq, wakeSleepers_served hset hsl hhead hctx1 hgen1, retireGen_putCtx hsq]
  refine wakeSleepers_none (q := DevQueue.headTaken { set with sleepers := rest }) htaken (hone.imp id fun hnot hmem => hnot ?_) _
  exact (List.mem_filter.1 hmem).1

theorem commitSlot_one_queueOf : (commitSlot s q slot).queueOf q.num = some { q.withCommit s.realtime slot with
    head := q.head + 1, committed := (q.committed ++ [slot]).filter (fun x => x != q.head), sleepers := rest } := by
  rw [commitSlot_one h hsl hhead hone hctx hgen hsq]
  exact takeHead_queueOf (q := { q.withCommit s.realtime slot with sleepers := rest }) (committedState_queueOf h slot)

theorem commitSlot_one_ctxOf (k : Nat) : (commitSlot s q slot).ctxOf k =
    if k = w then some (((c.latched q.num).served (q.withCommit s.realtime slot) d).counted.nextPc sq)
    else (s.ctxOf k).map fun c => c.latched q.num := by
  have hid : (((c.latched q.num).served (q.withCommit s.realtime slot) d).counted.nextPc sq).id = w := by
    rw [nextPc_id, counted_id, served_id, latched_id, ctxOf_id hctx]
  rw [commitSlot_one h hsl hhead hone hctx hgen hsq, ctxOf_putCtx, hid, cure_ctxOf, takeHead_ctxOf, committedState_ctxOf]
  by_cases hk : k = w
  · rw [if_pos hk, if_pos hk, hk, hctx]
    rfl
  · rw [if_neg hk, if_neg hk]

end OneSleeper

/-! ### The instructions -/

section Instructions
variable {s : State} {c : Ctx} {q : Seq} {n : BitVec 4}

theorem exec_qrsv {dq : DevQueue} (hready : GenReady s c []) (hseq : SeqOk c q) (hwait : queueWaits s c = false)
    (hbound : boundQueue s c n = some dq) (hpriv : dq.consumer = .control → c.priv = true) (d : GReg) :
    exec (.qrsv q d n) s = .next (genDone (reserveSlot s dq).2 c q d (reserveSlot s dq).1) := by
  show execQrsv q d n s = _
  refine genStep_ok hready (s1 := (reserveSlot s dq).2.cure fun p => p == .greg c.id d.toNat) (c1 := c.setG d (reserveSlot s dq).1) ?_ hseq
  rw [hwait, if_neg Bool.false_ne_true, hbound]
  dsimp only
  rw [if_neg (by simpa using hpriv)]
  rfl

section Commit
variable {dq : DevQueue} {a : GReg} (hready : GenReady s c [a]) (hwait : queueWaits s c = false) (hbound : boundQueue s c n = some dq)
  (hpriv : dq.consumer = .control → c.priv = true)
include hready hwait hbound hpriv

theorem exec_qcmt {c1 : Ctx} (hseq : SeqOk c q) (hbad : slotBad dq (c.greg a).toNat = false)
    (hself : (commitSlot s dq (c.greg a).toNat).ctxOf c.id = some c1) :
    exec (.qcmt q a n) s = .next (genNext (commitSlot s dq (c.greg a).toNat) c1 q) := by
  show execQcmt q a n s = _
  refine genStep_ok hready (s1 := commitSlot s dq (c.greg a).toNat) (c1 := c1) ?_ hseq
  rw [hwait, if_neg Bool.false_ne_true, hbound]
  dsimp only
  rw [if_neg (by simpa using hpriv), hbad, if_neg Bool.false_ne_true, hself]

theorem exec_qcmt_bad (hbad : slotBad dq (c.greg a).toNat = true) : exec (.qcmt q a n) s = genFault s c .qstate (c.greg a) := by
  show execQcmt q a n s = _
  refine genStep_trap hready ?_
  rw [hwait, if_neg Bool.false_ne_true, hbound]
  dsimp only
  rw [if_neg (by simpa using hpriv), if_pos hbad]

end Commit

/-- An unbound context queue. -/
theorem exec_queue_unbound {a : GReg} (hready : GenReady s c [a]) (hhandler : c.handler = false) (hwait : queueWaits s c = false)
    (hbound : boundQueue s c n = none) (d : GReg) :
    ∀ i ∈ [Instr.qrsv q d n, .qcmt q a n, .qpop q d n], exec i s = genFault s c .qbad (n.zeroExtend 64) := by
  have hnone : GenReady s c [] := ⟨hready.1, fun r hr => absurd hr List.not_mem_nil⟩
  simp only [List.forall_mem_cons]
  refine ⟨?_, ?_, ?_, fun i hi => absurd hi List.not_mem_nil⟩
  · show execQrsv q d n s = _
    refine genStep_trap hnone ?_
    rw [hwait, if_neg Bool.false_ne_true, hbound]
  · show execQcmt q a n s = _
    refine genStep_trap hready ?_
    rw [hwait, if_neg Bool.false_ne_true, hbound]
  · show execQpop q d n s = _
    unfold execQpop
    rw [withCtx_some hready.1, hbound]
    refine genStep_trap hnone ?_
    rw [hhandler, if_neg Bool.false_ne_true, hwait, if_neg Bool.false_ne_true]

/-- A queue of control records in USER mode. -/
theorem exec_queue_control {dq : DevQueue} {a : GReg} (hready : GenReady s c [a]) (hwait : queueWaits s c = false)
    (hbound : boundQueue s c n = some dq) (hcontrol : dq.consumer = .control) (hpriv : c.priv = false) (d : GReg) :
    ∀ i ∈ [Instr.qrsv q d n, .qcmt q a n], exec i s = genFault s c .privf 0 := by
  have hnone : GenReady s c [] := ⟨hready.1, fun r hr => absurd hr List.not_mem_nil⟩
  simp only [List.forall_mem_cons]
  refine ⟨?_, ?_, fun i hi => absurd hi List.not_mem_nil⟩
  · show execQrsv q d n s = _
    refine genStep_trap hnone ?_
    rw [hwait, if_neg Bool.false_ne_true, hbound]
    dsimp only
    rw [if_pos (by rw [hcontrol, hpriv]; rfl)]
  · show execQcmt q a n s = _
    refine genStep_trap hready ?_
    rw [hwait, if_neg Bool.false_ne_true, hbound]
    dsimp only
    rw [if_pos (by rw [hcontrol, hpriv]; rfl)]

section Pop
variable {dq : DevQueue} (hctx : s.ctxOf s.hand.ctx = some c) (hhandler : c.handler = false) (hwait : queueWaits s c = false)
  (hbound : boundQueue s c n = some dq) (hawake : ∀ x e sq, c.gen ≠ .sleepQueue x e sq) (d : GReg)
include hctx hhandler hwait hbound hawake

theorem exec_qpop_consumer (hcons : dq.consumer ≠ .context) : exec (.qpop q d n) s = genFault s c .qbad (n.zeroExtend 64) := by
  show execQpop q d n s = _
  unfold execQpop
  rw [withCtx_some hctx, hbound]
  dsimp only
  rw [hhandler, if_neg Bool.false_ne_true]
  split
  · next hsleep => exact absurd hsleep (hawake _ _ _)
  · rw [hwait, if_neg Bool.false_ne_true, if_pos (bne_iff_ne.2 hcons)]

variable (hcons : dq.consumer = .context) (hseq : SeqOk c q) {dq1 : DevQueue} (hqueue : (releaseLast s c dq.num).1.queueOf dq.num = some dq1)
include hcons hseq hqueue

theorem exec_qpop : exec (.qpop q d n) s =
    if dq1.committed.contains dq1.head && dq1.sleepers.isEmpty then
      done (retireGen ((takeHead (releaseLast s c dq.num).1 dq1).cure fun p => p == .greg c.id d.toNat)
        ((((releaseLast s c dq.num).2).setG d (BitVec.ofNat 64 dq1.head)).tookSlot dq1 false) q)
    else done (((releaseLast s c dq.num).1.putQueue { dq1 with sleepers := dq1.sleepers ++ [c.id] }).putCtx
      { (releaseLast s c dq.num).2 with gen := .sleepQueue dq1.num d q }) := by
  show execQpop q d n s = _
  unfold execQpop
  rw [withCtx_some hctx, hbound]
  dsimp only
  rw [hhandler, if_neg Bool.false_ne_true]
  split
  · next hsleep => exact absurd hsleep (hawake _ _ _)
  · rw [hwait, if_neg Bool.false_ne_true, if_neg (by rw [hcons]; decide), hseq]
    dsimp only
    rw [hqueue]

end Pop

end Instructions

/-- Settles O31: the instructions by what they find, a commit by `commitSlot_idle`, `commitSlot_sleepers` and `commitSlot_one`. -/
theorem queueInstructions : Obligations.QueueInstructions := by
  unfold Obligations.QueueInstructions
  refine ⟨fun s c q n dq hseq hwait hbound hpriv => ⟨fun d hready => ?rsv, fun a c1 hready ht hh hc hself => ?cmt, fun a hready hcan hbad => ?cmtBad⟩,
    fun s c q d a n hready hcan hwait => ⟨fun hbound i hi => ?unbound, fun dq hbound => ⟨fun hcons hawake => ?popBad, fun hcontrol hpriv i hi => ?control⟩⟩,
    fun s c q d n dq dq1 hctx hseq hhandler hbound hcons hwait hawake hqueue => ⟨fun hhead hsl => ?pop, fun hnot => ?sleep⟩,
    fun s q j l hinv hrep hat => ?mirror, fun s q j hno => ?nowhere, fun s dq slot hq => ⟨rfl, takeHead_queueOf hq, ?commit⟩⟩
  case rsv =>
    have hexec := exec_qrsv hready hseq hwait hbound hpriv d
    split
    · next hroom => rw [hexec, reserveSlot_room hroom]
    · next hfull => rw [hexec, reserveSlot_full hfull]
  case cmt => exact exec_qcmt hready hwait hbound hpriv hseq (slotBad_eq_false ht hh hc) hself
  case cmtBad =>
    have hbad' : slotBad dq (c.greg a).toNat = true := slotBad_of_not fun ⟨ht, hh, hc⟩ => by
      rcases hbad with h | h | h
      · omega
      · omega
      · exact hc h
    rw [exec_qcmt_bad hready hwait hbound hpriv hbad']
    exact genFault_taken hcan (ctxOf_id hready.1 ▸ hready.1)
  case unbound =>
    rw [exec_queue_unbound hready hcan.1 hwait hbound d i hi]
    exact genFault_taken hcan (ctxOf_id hready.1 ▸ hready.1)
  case popBad =>
    rw [exec_qpop_consumer hready.1 hcan.1 hwait hbound hawake d hcons]
    exact genFault_taken hcan (ctxOf_id hready.1 ▸ hready.1)
  case control =>
    rw [exec_queue_control hready hwait hbound hcontrol hpriv d i hi]
    exact genFault_taken hcan (ctxOf_id hready.1 ▸ hready.1)
  case pop =>
    exact (exec_qpop hctx hhandler hwait hbound hawake d hcons hseq hqueue).trans (if_pos (by simp [hhead, hsl]))
  case sleep =>
    exact (exec_qpop hctx hhandler hwait hbound hawake d hcons hseq hqueue).trans (if_neg (by simpa using hnot))
  case mirror => exact mirror_memory hinv hrep hat
  case nowhere => exact mirror_nowhere hno
  case commit =>
    refine ⟨fun hidle => ?_, commitSlot_sleepers hq slot, fun w rest c x d sq hsl hhead hone hctx hgen hsq => ⟨?_, ?_, fun k hk => ?_⟩⟩
    · have heq := commitSlot_idle hq hidle
      exact ⟨heq ▸ committedState_queueOf hq slot, fun k => heq ▸ committedState_ctxOf s dq slot k, heq ▸ rfl⟩
    · exact commitSlot_one_queueOf hq hsl hhead hone hctx hgen hsq
    · refine (commitSlot_one_ctxOf hq hsl hhead hone hctx hgen hsq w).trans ((if_pos rfl).trans ?_)
      exact congrArg (fun k => some (Ctx.nextPc { (c.latched dq.num).served (dq.withCommit s.realtime slot) d with
        ir := none, gen := .running, genCount := k + 1, twait := none } sq)) (latched_served_genCount c _ _ d)
    · exact (commitSlot_one_ctxOf hq hsl hhead hone hctx hgen hsq k).trans (if_neg hk)

end Sys2Proof.Machine

/-! ## Moves of words and elements (R417, R424, R428, R431, R436) -/

namespace Sys2Proof.Machine
open Sys2Proof.Safety

theorem fill_get (v : Word) {l : Nat} (h : l < 64) : (Lanes.fill v).get l = v :=
  build_get (fun _ => v) h

/-- A slot without sources reads nothing. -/
theorem readable_nil (s : State) (t : RowSlot) (i : Instr) (dep : LaneMask → List Source → Deps) : Readable s t i [] dep [] :=
  ⟨rfl, rfl⟩

/-- A slot that writes one whole register and raises no flag. -/
theorem exec_built {s : State} {i : Instr} {t : RowSlot} {la : BitVec 4} {ops : RowSlot → List Operand} {dep : LaneMask → List Source → Deps}
    {srcs : List Source} {d : Nat} {word : RowSlot → List Source → Lanes} {tag : List Source → Tag}
    (hexec : exec i s = computeSlot s i la ops dep fun t _ srcs => { writes := [(d, word t srcs)], tag := tag srcs })
    (hturn : RowTurn s i t) (hready : Readable s t i (ops t) dep srcs) (hd : d < t.r.regs.length) {v : Nat → Word}
    (hv : ∀ l, l < 64 → (word t srcs).get l = v l) :
    ∃ s', exec i s = .next s' ∧ RowWrote s t i s' (only d v) 0 := by
  refine ⟨_, hexec.trans (computeSlot_ok hturn hready), ?_⟩
  refine laneDone_wrote la _ hturn (fun w hw => ?_) rfl rfl fun k => ?_
  · rw [List.mem_singleton.1 hw]
    exact hd
  · by_cases hk : k = d
    · rw [only, if_pos hk]
      exact ⟨_, List.find?_cons_of_pos (beq_iff_eq.2 hk.symm), fun l hl _ => hv l hl⟩
    · rw [only, if_neg hk]
      exact List.find?_cons_of_neg (by simpa using Ne.symm hk)

theorem find_of_unique {α : Type} {l : List α} {p : α → Bool} {x : α} (hx : x ∈ l) (hp : p x = true) (h : ∀ y ∈ l, p y = true → y = x) :
    l.find? p = some x := by
  cases hf : l.find? p with
  | none => exact absurd hp (List.find?_eq_none.1 hf x hx)
  | some y => exact congrArg some (h y (List.mem_of_find?_eq_some hf) (List.find?_some hf))

theorem exec_vshf {s : State} {t : RowSlot} {srcs : List Source} {f : LForm} (hturn : RowTurn s (.vshf f) t) :
    let o := if f.vc.toNat < 128 then f.vc.toNat else 4 * (f.vc.toNat % 16)
    Readable s t (.vshf f) [vaOp t f.va] (fun _ _ l => if f.fn = 0 ∨ l + o < 64 then [(0, (l + o) % 64)] else []) srcs →
    f.vd.toNat < t.r.regs.length →
    ∃ s', exec (.vshf f) s = .next s' ∧ RowWrote s t (.vshf f) s' (only f.vd.toNat fun l =>
      if f.fn = 0 ∨ l + o < 64 then srcWord srcs 0 ((l + o) % 64) else 0) 0 := by
  intro o hready hd
  have hin : ∀ l, (f.fn == 0 || decide (l + shiftOf f.vc < 64)) = true ↔ f.fn = 0 ∨ l + o < 64 := fun l => by
    rw [Bool.or_eq_true, beq_iff_eq, decide_eq_true_eq]
    exact Iff.rfl
  have hdep : (fun (_ : LaneMask) (_ : List Source) l => if f.fn = 0 ∨ l + o < 64 then [(0, (l + o) % 64)] else []) =
      fun (_ : LaneMask) (_ : List Source) l =>
        if (f.fn == 0 || decide (l + shiftOf f.vc < 64)) = true then [(0, (l + shiftOf f.vc) % 64)] else [] := by
    funext _ _ l
    exact if_congr (hin l).symm rfl rfl
  rw [hdep] at hready
  exact exec_built (ops := fun t => [vaOp t f.va]) (word := fun _ srcs => Lanes.build fun l =>
    if (f.fn == 0 || decide (l + shiftOf f.vc < 64)) = true then srcWord srcs 0 ((l + shiftOf f.vc) % 64) else 0) (tag := fun _ => .g)
    rfl hturn hready hd fun l hl => (build_get _ hl).trans (if_congr (hin l) rfl rfl)

/-- The word of lane `l` of register `r` of a transposed group. -/
def trnWord (f : LForm) (srcs : List Source) (r l : Nat) : Word :=
  packElems (elemBits f.t) ((List.range (perWord f.t)).map fun j =>
    elemAt (elemBits f.t) (srcWord srcs (trnFrom r (l * perWord f.t + j)).1 ((trnFrom r (l * perWord f.t + j)).2 / perWord f.t))
      ((trnFrom r (l * perWord f.t + j)).2 % perWord f.t))

theorem exec_vtrn {s : State} {t : RowSlot} {srcs : List Source} {f : LForm} (hturn : RowTurn s (.vtrn f) t)
    (hd : f.vd.toNat + 7 < t.r.regs.length)
    (hready : Readable s t (.vtrn f) ((List.range 8).map fun q => ⟨f.va.toNat + q, t.e.kA, false⟩)
      (fun _ _ l => (List.range 8).flatMap fun r => (List.range (perWord f.t)).map fun k =>
        ((trnFrom r (l * perWord f.t + k)).1, (trnFrom r (l * perWord f.t + k)).2 / perWord f.t)) srcs) :
    ∃ s', exec (.vtrn f) s = .next s' ∧ RowWrote s t (.vtrn f) s'
      (fun k => if f.vd.toNat ≤ k ∧ k < f.vd.toNat + 8 then some (trnWord f srcs (k - f.vd.toNat)) else none) 0 := by
  have hexec : exec (.vtrn f) s = computeSlot s (.vtrn f) f.la (fun t => (List.range 8).map fun q => ⟨f.va.toNat + q, t.e.kA, false⟩)
      (fun _ _ l => (List.range 8).flatMap fun r => (List.range (perWord f.t)).map fun k =>
        ((trnFrom r (l * perWord f.t + k)).1, (trnFrom r (l * perWord f.t + k)).2 / perWord f.t))
      fun _ _ srcs => { writes := (List.range 8).map fun r => (f.vd.toNat + r, Lanes.build (trnWord f srcs r)) } := rfl
  refine ⟨_, hexec.trans (computeSlot_ok hturn hready), ?_⟩
  refine laneDone_wrote f.la _ hturn (fun w hw => ?_) rfl rfl fun k => ?_
  · obtain ⟨r, hr, rfl⟩ := List.mem_map.1 hw
    have hr := List.mem_range.1 hr
    show f.vd.toNat + r < _
    omega
  · have hmem : ∀ w, w ∈ ((List.range 8).map fun r => (f.vd.toNat + r, Lanes.build (trnWord f srcs r))).reverse ↔
        ∃ r < 8, (f.vd.toNat + r, Lanes.build (trnWord f srcs r)) = w := fun w => by
      rw [List.mem_reverse, List.mem_map]
      simp only [List.mem_range]
    by_cases hk : f.vd.toNat ≤ k ∧ k < f.vd.toNat + 8
    · rw [if_pos hk]
      refine ⟨_, find_of_unique ((hmem (f.vd.toNat + (k - f.vd.toNat), _)).2 ⟨k - f.vd.toNat, by omega, rfl⟩) ?_ ?_,
        fun l hl _ => build_get _ hl⟩
      · rw [beq_iff_eq]
        omega
      · intro y hy hyk
        obtain ⟨r, hr, rfl⟩ := (hmem y).1 hy
        have : f.vd.toNat + r = k := beq_iff_eq.1 hyk
        rw [← this, Nat.add_sub_cancel_left]
    · rw [if_neg hk]
      refine List.find?_eq_none.2 fun y hy hyk => hk ?_
      obtain ⟨r, hr, rfl⟩ := (hmem y).1 hy
      have : f.vd.toNat + r = k := beq_iff_eq.1 hyk
      omega

/-- Settles O34: each writes what its word function gives, `exec_built`; VTRN its eight registers, `laneDone_wrote`. -/
theorem moveResults : Obligations.MoveResults := by
  unfold Obligations.MoveResults
  refine ⟨by decide, fun s t srcs f hd => ⟨fun hturn hready => ?mov, fun hturn hready => ?sel, fun g v hv hd hturn => ?li, fun hturn => ?iota,
    fun hturn hready => ?shf, fun hturn hready => ?perm, fun hturn hd8 hready => ?trn⟩⟩
  case mov =>
    exact exec_built (ops := fun t => [vaOp t f.va]) (dep := ownLane 1) (tag := fun srcs => mapTag (srcs.map fun x => x.tag)) (word := fun _ srcs => Lanes.build (srcWord srcs 0)) rfl hturn hready hd fun l hl => build_get _ hl
  case sel =>
    exact exec_built (ops := fun t => [vaOp t f.va, vbOp t f.vb]) (dep := ownLane 2) (word := fun t srcs => Lanes.build fun l => if (t.r.pred (f.vc.toNat % 16)).getLsbD l then srcWord srcs 0 l
      else srcWord srcs 1 l) (tag := fun _ => .g) rfl hturn hready hd fun l hl => build_get _ hl
  case li =>
    refine exec_built (ops := fun _ => []) (dep := ownLane 0) (word := fun _ _ => Lanes.fill (subWord g.src)) (tag := fun _ => .u) rfl hturn (readable_nil ..) hd
      fun l hl => (fill_get _ hl).trans ?_
    rw [hv]
    rfl
  case iota =>
    exact exec_built (ops := fun _ => []) (dep := ownLane 0) (word := fun _ _ => Lanes.build fun l => BitVec.ofNat 32 l) (tag := fun _ => .a) rfl hturn
      (readable_nil ..) hd fun l hl => build_get _ hl
  case shf => exact exec_vshf hturn hready hd
  case perm =>
    exact exec_built (ops := fun t => [vaOp t f.va, vbOp t f.vb]) (dep := fun _ q l => [(1, l), (0, (srcWord q 1 l).toNat % 64)])
      (word := fun _ srcs => Lanes.build fun l => srcWord srcs 0 ((srcWord srcs 1 l).toNat % 64)) (tag := fun _ => .g) rfl hturn
      hready hd fun l hl => build_get _ hl
  case trn => exact exec_vtrn hturn hd8 hready

end Sys2Proof.Machine

/-! ## The order of floating-point patterns (R145, R256, R257) -/

namespace Sys2Proof

/-! ### The fields of a pattern -/

/-- The exponent code of a pattern. -/
def Fmt.code (f : Fmt) (w : Nat) : Nat := w / 2 ^ f.fb % 2 ^ f.eb

/-- The fraction of a pattern. -/
def Fmt.frac (f : Fmt) (w : Nat) : Nat := w % 2 ^ f.fb

/-- The significand of a finite pattern. -/
def Fmt.sig (f : Fmt) (w : Nat) : Nat := if f.code w = 0 then f.frac w else 2 ^ f.fb + f.frac w

section Fields
variable {f : Fmt} {w : Nat}

theorem Fmt.frac_lt (f : Fmt) (w : Nat) : f.frac w < 2 ^ f.fb := Nat.mod_lt _ (Nat.two_pow_pos _)

theorem Fmt.sig_lt (f : Fmt) (w : Nat) : f.sig w < 2 ^ f.fb * 2 := by
  have := f.frac_lt w
  unfold Fmt.sig
  split <;> omega

theorem Fmt.le_sig (h : f.code w ≠ 0) : 2 ^ f.fb ≤ f.sig w := by
  unfold Fmt.sig
  rw [if_neg h]
  omega

/-- A pattern without its sign is its exponent code above its fraction. -/
theorem mod_sign (f : Fmt) (w : Nat) : w % f.sign = f.frac w + 2 ^ f.fb * f.code w := by
  rw [Fmt.sign, Nat.add_comm f.eb, Nat.pow_add, Nat.mod_mul]
  rfl

theorem decode_cases (f : Fmt) (w : Nat) : FVal.decode f w =
    if f.code w = 2 ^ f.eb - 1 then (if f.frac w = 0 then .inf (w / f.sign % 2 == 1)
      else .nan (f.frac w / 2 ^ (f.fb - 1) == 1))
    else .fin (w / f.sign % 2 == 1) (f.sig w) (max (f.code w : Int) 1 - f.bias - f.fb) := by
  unfold FVal.decode
  dsimp only
  simp only [beq_iff_eq]
  by_cases htop : w / 2 ^ f.fb % 2 ^ f.eb = 2 ^ f.eb - 1
  · rw [if_pos htop, if_pos (show f.code w = _ from htop)]
    rfl
  · rw [if_neg htop, if_neg (show ¬f.code w = _ from htop)]
    unfold Fmt.sig
    by_cases hzero : f.code w = 0
    · rw [if_pos (show w / 2 ^ f.fb % 2 ^ f.eb = 0 from hzero), if_pos hzero, hzero]
      rfl
    · have hmax : max (f.code w : Int) 1 = f.code w := max_eq_left (by omega)
      rw [if_neg (show ¬w / 2 ^ f.fb % 2 ^ f.eb = 0 from hzero), if_neg hzero, hmax]
      rfl

theorem decode_fin_fields {n : Bool} {m : Nat} {e : Int} (h : FVal.decode f w = .fin n m e) :
    f.code w < 2 ^ f.eb - 1 ∧ n = (w / f.sign % 2 == 1) ∧ m = f.sig w ∧ e = max (f.code w : Int) 1 - f.bias - f.fb := by
  rw [decode_cases] at h
  split at h
  · split at h <;> cases h
  · next htop =>
    have hcode : f.code w < 2 ^ f.eb := Nat.mod_lt _ (Nat.two_pow_pos _)
    cases h
    exact ⟨by omega, rfl, rfl, rfl⟩

theorem decode_inf_fields {n : Bool} (h : FVal.decode f w = .inf n) :
    f.code w = 2 ^ f.eb - 1 ∧ f.frac w = 0 ∧ n = (w / f.sign % 2 == 1) := by
  rw [decode_cases] at h
  split at h
  · next htop =>
    split at h
    · next hzero =>
      cases h
      exact ⟨htop, hzero, rfl⟩
    · cases h
  · cases h

end Fields

/-! ### The order of finite values -/

/-- A larger exponent code has a larger value and a larger pattern. -/
theorem sig_lt_of_code_lt {f : Fmt} {a b : Nat} (h : f.code a < f.code b) (low : Int) (hlow : low ≤ max (f.code a : Int) 1 - f.bias - f.fb) :
    f.sig a * 2 ^ (max (f.code a : Int) 1 - f.bias - f.fb - low).toNat < f.sig b * 2 ^ (max (f.code b : Int) 1 - f.bias - f.fb - low).toNat := by
  have hb := Fmt.le_sig (f := f) (w := b) (by omega)
  by_cases hzero : f.code a = 0
  · have ha : f.sig a < 2 ^ f.fb := by
      unfold Fmt.sig
      rw [if_pos hzero]
      exact f.frac_lt a
    exact Nat.lt_of_lt_of_le (Nat.mul_lt_mul_of_pos_right (Nat.lt_of_lt_of_le ha hb) (Nat.two_pow_pos _))
      (Nat.mul_le_mul_left _ (Nat.pow_le_pow_right (by decide) (by omega)))
  · have hsplit : (max (f.code b : Int) 1 - f.bias - f.fb - low).toNat =
        1 + (f.code b - f.code a - 1) + (max (f.code a : Int) 1 - f.bias - f.fb - low).toNat := by omega
    have hlt : f.sig a < f.sig b * 2 ^ (1 + (f.code b - f.code a - 1)) := by
      refine Nat.lt_of_lt_of_le (f.sig_lt a) (Nat.mul_le_mul hb ?_)
      rw [Nat.pow_add, Nat.pow_one]
      exact Nat.le_mul_of_pos_right 2 (Nat.two_pow_pos _)
    rw [hsplit, Nat.pow_add, ← Nat.mul_assoc]
    exact Nat.mul_lt_mul_of_pos_right hlt (Nat.two_pow_pos _)

theorem body_lt_of_code_lt {f : Fmt} {a b : Nat} (h : f.code a < f.code b) : a % f.sign < b % f.sign := by
  rw [mod_sign, mod_sign]
  have ha := f.frac_lt a
  have hmul : 2 ^ f.fb * (f.code a + 1) ≤ 2 ^ f.fb * f.code b := Nat.mul_le_mul_left _ h
  rw [Nat.mul_add] at hmul
  omega

/-- The order of patterns without their signs is that of the magnitudes. -/
theorem body_lt_iff {f : Fmt} {a b : Nat} {n n' : Bool} {m m' : Nat} {e e' : Int} (ha : FVal.decode f a = .fin n m e)
    (hb : FVal.decode f b = .fin n' m' e') :
    a % f.sign < b % f.sign ↔ m * 2 ^ (e - min e e').toNat < m' * 2 ^ (e' - min e e').toNat := by
  obtain ⟨-, -, rfl, rfl⟩ := decode_fin_fields ha
  obtain ⟨-, -, rfl, rfl⟩ := decode_fin_fields hb
  rcases Nat.lt_trichotomy (f.code a) (f.code b) with h | h | h
  · exact iff_of_true (body_lt_of_code_lt h) (sig_lt_of_code_lt h _ (min_le_left _ _))
  · rw [mod_sign, mod_sign, h, min_self, Nat.mul_lt_mul_right (Nat.two_pow_pos _)]
    unfold Fmt.sig
    rw [h]
    split <;> omega
  · exact iff_of_false (Nat.lt_asymm (body_lt_of_code_lt h)) (Nat.lt_asymm (sig_lt_of_code_lt h _ (min_le_right _ _)))

theorem body_lt_inf {f : Fmt} {a b : Nat} {n n' : Bool} {m : Nat} {e : Int} (ha : FVal.decode f a = .fin n m e)
    (hb : FVal.decode f b = .inf n') : a % f.sign < b % f.sign := by
  obtain ⟨hcode, -, -, -⟩ := decode_fin_fields ha
  obtain ⟨htop, -, -⟩ := decode_inf_fields hb
  exact body_lt_of_code_lt (htop ▸ hcode)

end Sys2Proof

namespace Sys2Proof.Machine
open Sys2Proof.Safety

/-! ### The keys of the rankings (R256, R257) -/

theorem magnitude_nan {t : ElemTy} (ht : isF t = true) {a : Nat} (h : (FVal.decode t.fmt a).isNan = true) : magnitude t a = 2 ^ 40 := by
  unfold magnitude
  rw [if_pos ht, if_pos h]

theorem magnitude_number {t : ElemTy} (ht : isF t = true) {a : Nat} (h : ¬(FVal.decode t.fmt a).isNan = true) : magnitude t a = a % t.fmt.sign := by
  unfold magnitude
  rw [if_pos ht, if_neg h]

theorem magnitude_int {t : ElemTy} (ht : isF t = false) (a : Nat) : magnitude t a = (intOf t a).natAbs := by
  unfold magnitude
  rw [ht]
  rfl

theorem rankKey_nan {w : Nat} (h : (FVal.decode fmtF32 w).isNan = true) : rankKey .f32 w = -(2 ^ 40) := by
  unfold rankKey
  rw [if_pos (by decide), if_pos h]

theorem rankKey_number (w : Word) (h : ¬(FVal.decode fmtF32 w.toNat).isNan = true) :
    rankKey .f32 w.toNat = if w.getLsbD 31 then -((w.extractLsb' 0 31).toNat : Int) else (w.extractLsb' 0 31).toNat := by
  have hlt := w.isLt
  have hlow : (w.extractLsb' 0 31).toNat = w.toNat % 2 ^ 31 := by rw [BitVec.extractLsb'_toNat, Nat.shiftRight_zero]
  have hsign : w.getLsbD 31 = decide (2 ^ 31 ≤ w.toNat) := by
    rw [BitVec.getLsbD, Nat.testBit_eq_decide_div_mod_eq]
    exact decide_eq_decide.2 (by omega)
  unfold rankKey
  rw [if_pos (by decide), if_neg h, hlow, hsign]
  by_cases hbig : 2 ^ 31 ≤ w.toNat
  · rw [if_pos hbig, if_pos (decide_eq_true hbig)]
    rw [show w.toNat - 2 ^ 31 = w.toNat % 2 ^ 31 by omega]
  · rw [if_neg hbig, if_neg (by simpa using hbig)]
    exact congrArg Nat.cast (by omega)

theorem rankKey_number_gt (w : Word) (h : ¬(FVal.decode fmtF32 w.toNat).isNan = true) : -(2 ^ 40 : Int) < rankKey .f32 w.toNat := by
  have hlt := (w.extractLsb' 0 31).isLt
  rw [rankKey_number w h]
  split <;> omega

/-! ### Reductions and scans (R434) -/

theorem pairUp_get {α : Type} (g : α → α → α) : ∀ (l : List α) (n k : Nat) (x y : α), l.length = 2 * n → l[2 * k]? = some x →
    l[2 * k + 1]? = some y → (pairUp g l)[k]? = some (g x y)
  | [], _, _, _, _, _, hx, _ => by cases hx
  | [_], n, _, _, _, hlen, _, _ => by simp only [List.length_singleton] at hlen; omega
  | a :: b :: l, n, 0, x, y, _, hx, hy => by
    cases hx
    cases hy
    rfl
  | a :: b :: l, n, k + 1, x, y, hlen, hx, hy => by
    refine pairUp_get g l (n - 1) k x y ?_ hx hy
    simp only [List.length_cons] at hlen
    omega

theorem pairUp_length {α : Type} (g : α → α → α) : ∀ (l : List α) (n : Nat), l.length = 2 * n → (pairUp g l).length = n
  | [], n, hlen => by
    have : n = 0 := by simpa using hlen.symm
    exact this.symm
  | [_], n, hlen => by simp only [List.length_singleton] at hlen; omega
  | a :: b :: l, n, hlen => by
    simp only [List.length_cons] at hlen
    have := pairUp_length g l (n - 1) (by omega)
    show (pairUp g l).length + 1 = n
    omega

/-- What the log steps combine: behind `n` of them place `k` holds the combination that starts at `k * 2 ^ n`. -/
theorem pairUp_steps {α : Type} {g : α → α → α} {l : List α} {d : α} {step : Nat → Nat → α} {m : Nat} (hlen : l.length = 2 ^ m)
    (hzero : ∀ k, step 0 k = l.getD k d) (hstep : ∀ n k, step (n + 1) k = g (step n k) (step n (k + 2 ^ n))) (n : Nat) (hn : n ≤ m) :
    let r := (List.range n).foldl (fun l _ => pairUp g l) l
    r.length = 2 ^ (m - n) ∧ ∀ k, k < 2 ^ (m - n) → r[k]? = some (step n (k * 2 ^ n)) := by
  induction n with
  | zero =>
    refine ⟨hlen, fun k hk => ?_⟩
    have hk : k < l.length := by rw [hlen]; exact hk
    show l[k]? = _
    rw [hzero, Nat.pow_zero, Nat.mul_one, List.getD_eq_getElem?_getD, List.getElem?_eq_getElem hk]
    rfl
  | succ n ih =>
    obtain ⟨hl, hget⟩ := ih (by omega)
    rw [List.range_succ, List.foldl_append]
    have hdouble : 2 ^ (m - n) = 2 * 2 ^ (m - (n + 1)) := by
      rw [show m - n = m - (n + 1) + 1 by omega, Nat.pow_succ, Nat.mul_comm]
    refine ⟨pairUp_length g _ _ (hl.trans hdouble), fun k hk => ?_⟩
    refine (pairUp_get g _ _ k _ _ (hl.trans hdouble) (hget (2 * k) (by omega)) (hget (2 * k + 1) (by omega))).trans ?_
    rw [hstep, Nat.pow_succ]
    congr 3
    · ring
    · ring

/-- VRED combines neighbours at distance 1, 2, 4 up to 32. -/
theorem reduceElem_eq {op : Nat → Nat → Nat × FpFlags} {l : List (Option Nat × FpFlags)} {step : Nat → Nat → Option Nat × FpFlags}
    (hlen : l.length = 64) (hzero : ∀ k, step 0 k = l.getD k (none, 0))
    (hstep : ∀ n k, step (n + 1) k = comb op (step n k) (step n (k + 2 ^ n))) : reduceElem op l = step 6 0 := by
  obtain ⟨-, hget⟩ := pairUp_steps (m := 6) hlen hzero hstep 6 (Nat.le_refl 6)
  have hfirst := hget 0 (by decide)
  unfold reduceElem
  rw [List.headD_eq_head?_getD, List.head?_eq_getElem?, hfirst]
  rfl

/-- VSCAN goes from lane to lane. -/
theorem scanElems_eq {op : Nat → Nat → Nat × FpFlags} {acc : Nat → Option Nat × FpFlags} (l : List (Option Nat × FpFlags)) (n : Nat)
    (hstep : ∀ k x, l[k]? = some x → acc (n + k + 1) = if x.1.isSome then comb op (acc (n + k)) x else acc (n + k)) :
    scanElems op (acc n) l = (List.range l.length).map fun k => acc (n + k + 1) := by
  induction l generalizing n with
  | nil => rfl
  | cons x l ih =>
    have hx : acc (n + 1) = if x.1.isSome then comb op (acc n) x else acc n := hstep 0 x rfl
    rw [List.length_cons, List.range_succ_eq_map, List.map_cons, List.map_map, scanElems]
    rw [← hx, ih (n + 1) fun k y hy => by
      have := hstep (k + 1) y hy
      rwa [show n + (k + 1) = n + 1 + k by omega] at this]
    refine congrArg _ (List.map_congr_left fun k _ => ?_)
    show acc (n + 1 + k + 1) = acc (n + (k + 1) + 1)
    congr 1
    omega

/-! ### Rankings (R256, R257) -/

/-- `x` ranks before `y`, or equal. -/
def Candidate.before (x y : Candidate) : Prop := y.1 < x.1 ∨ (y.1 = x.1 ∧ x.2.1 ≤ y.2.1)

theorem Candidate.before_trans {x y z : Candidate} (h : x.before y) (g : y.before z) : x.before z := by
  unfold Candidate.before at *
  omega

theorem insertRank_perm (x : Candidate) (l : List Candidate) : (insertRank x l).Perm (x :: l) := by
  induction l with
  | nil => exact List.Perm.refl _
  | cons y l ih =>
    unfold insertRank
    split
    · exact List.Perm.refl _
    · exact (List.Perm.cons y ih).trans (List.Perm.swap x y l)

theorem insertRank_sorted (x : Candidate) {l : List Candidate} (h : l.Pairwise Candidate.before) :
    (insertRank x l).Pairwise Candidate.before := by
  induction l with
  | nil => exact List.pairwise_singleton _ x
  | cons y l ih =>
    obtain ⟨hy, hl⟩ := List.pairwise_cons.1 h
    unfold insertRank
    split
    · next hlt =>
      have hxy : Candidate.before x y := by
        simp only [Bool.or_eq_true, Bool.and_eq_true, decide_eq_true_eq, beq_iff_eq] at hlt
        unfold Candidate.before
        omega
      refine List.pairwise_cons.2 ⟨fun z hz => ?_, h⟩
      rcases List.mem_cons.1 hz with rfl | hz
      · exact hxy
      · exact Candidate.before_trans hxy (hy z hz)
    · next hlt =>
      have hyx : Candidate.before y x := by
        simp only [Bool.or_eq_true, Bool.and_eq_true, decide_eq_true_eq, beq_iff_eq] at hlt
        unfold Candidate.before
        omega
      refine List.pairwise_cons.2 ⟨fun z hz => ?_, ih hl⟩
      rcases List.mem_cons.1 ((insertRank_perm x l).mem_iff.1 hz) with rfl | hz
      · exact hyx
      · exact hy z hz

theorem rankAll_perm (l : List Candidate) : (rankAll l).Perm l := by
  induction l with
  | nil => exact List.Perm.refl _
  | cons x l ih => exact (insertRank_perm x _).trans (List.Perm.cons x ih)

theorem rankAll_sorted (l : List Candidate) : (rankAll l).Pairwise Candidate.before := by
  induction l with
  | nil => exact List.Pairwise.nil
  | cons x l ih => exact insertRank_sorted x ih

/-! ### Four of eight (R257) -/

section Kept
variable (mags : List Nat)

/-- Position `j` goes before position `i` in the choice of four of eight. -/
def betterPos (j i : Nat) : Prop := mags.getD i 0 < mags.getD j 0 ∨ (mags.getD j 0 = mags.getD i 0 ∧ j < i)

/-- The positions that go before one. -/
def betterSet (i : Nat) : List Nat :=
  (List.range 8).filter fun j => decide (mags.getD i 0 < mags.getD j 0) || (mags.getD j 0 == mags.getD i 0 && decide (j < i))

theorem mem_betterSet {i j : Nat} : j ∈ betterSet mags i ↔ j < 8 ∧ betterPos mags j i := by
  unfold betterSet betterPos
  rw [List.mem_filter, List.mem_range]
  simp only [Bool.or_eq_true, Bool.and_eq_true, decide_eq_true_eq, beq_iff_eq]

theorem keptPositions_eq : keptPositions mags = (List.range 8).filter fun i => decide ((betterSet mags i).length < 4) := rfl

theorem betterSet_lt {i j : Nat} (hi : i < 8) (h : betterPos mags i j) : (betterSet mags i).length < (betterSet mags j).length := by
  have hnodup : ∀ k, (betterSet mags k).Nodup := fun k => List.nodup_range.filter _
  have hsub : ∀ x ∈ i :: betterSet mags i, x ∈ betterSet mags j := fun x hx => by
    rw [mem_betterSet]
    rcases List.mem_cons.1 hx with rfl | hx
    · exact ⟨hi, h⟩
    · obtain ⟨hx8, hxi⟩ := (mem_betterSet mags).1 hx
      refine ⟨hx8, ?_⟩
      unfold betterPos at *
      omega
  have hcons : (i :: betterSet mags i).Nodup := List.nodup_cons.2 ⟨fun hmem => by
    have := ((mem_betterSet mags).1 hmem).2
    unfold betterPos at this
    omega, hnodup i⟩
  exact (List.subperm_of_subset hcons hsub).length_le

theorem betterPos_total {i j : Nat} (h : i ≠ j) : betterPos mags i j ∨ betterPos mags j i := by
  unfold betterPos
  omega

theorem betterSet_length_lt {i : Nat} (hi : i < 8) : (betterSet mags i).length < 8 := by
  have hcons : (i :: betterSet mags i).Nodup := List.nodup_cons.2 ⟨fun hmem => by
    have := ((mem_betterSet mags).1 hmem).2
    unfold betterPos at this
    omega, List.nodup_range.filter _⟩
  have hsub : i :: betterSet mags i ⊆ List.range 8 := fun x hx => by
    rcases List.mem_cons.1 hx with rfl | hx
    · exact List.mem_range.2 hi
    · exact List.mem_range.2 ((mem_betterSet mags).1 hx).1
  have := (List.subperm_of_subset hcons hsub).length_le
  simpa using this

/-- The eight ranks are the numbers below eight. -/
theorem ranks_perm : ((List.range 8).map fun i => (betterSet mags i).length).Perm (List.range 8) := by
  have hinj : ((List.range 8).map fun i => (betterSet mags i).length).Nodup := by
    refine List.Nodup.map_on (fun i hi j hj heq => ?_) List.nodup_range
    by_contra hne
    rcases betterPos_total mags hne with h | h
    · exact absurd heq (Nat.ne_of_lt (betterSet_lt mags (List.mem_range.1 hi) h))
    · exact absurd heq.symm (Nat.ne_of_lt (betterSet_lt mags (List.mem_range.1 hj) h))
  refine (List.subperm_of_subset hinj fun x hx => ?_).perm_of_length_le (by simp)
  obtain ⟨i, hi, rfl⟩ := List.mem_map.1 hx
  exact List.mem_range.2 (betterSet_length_lt mags (List.mem_range.1 hi))

theorem keptPositions_length : (keptPositions mags).length = 4 := by
  have hcount := (ranks_perm mags).countP_eq fun n => decide (n < 4)
  rw [List.countP_map] at hcount
  rw [keptPositions_eq, ← List.countP_eq_length_filter]
  exact hcount.trans (by decide)

theorem keptPositions_spec :
    (keptPositions mags).length = 4 ∧ (keptPositions mags).Pairwise (fun i j => i < j) ∧ (∀ i ∈ keptPositions mags, i < 8) ∧
      ∀ i ∈ keptPositions mags, ∀ j, j < 8 → j ∉ keptPositions mags →
        mags.getD j 0 < mags.getD i 0 ∨ (mags.getD j 0 = mags.getD i 0 ∧ i < j) := by
  have hmem : ∀ i, i ∈ keptPositions mags ↔ i < 8 ∧ (betterSet mags i).length < 4 := fun i => by
    rw [keptPositions_eq, List.mem_filter, List.mem_range, decide_eq_true_eq]
  refine ⟨keptPositions_length mags, List.pairwise_lt_range.filter _, fun i hi => ((hmem i).1 hi).1, fun i hi j hj hnot => ?_⟩
  have hne : i ≠ j := fun h => hnot (h ▸ hi)
  have hi4 := ((hmem i).1 hi).2
  have hj4 : ¬(betterSet mags j).length < 4 := fun h => hnot ((hmem j).2 ⟨hj, h⟩)
  rcases betterPos_total mags hne with h | h
  · exact h.imp id fun ⟨heq, hlt⟩ => ⟨heq.symm, hlt⟩
  · have := betterSet_lt mags hj h
    omega

end Kept

end Sys2Proof.Machine

/-! ## The collective instructions (R256, R257, R418, R434, R435) -/

namespace Sys2Proof.Machine
open Sys2Proof.Safety

/-- A slot that writes one whole register. -/
theorem exec_collective {s : State} {i : Instr} {t : RowSlot} {la : BitVec 4} {ops : RowSlot → List Operand} {dep : LaneMask → List Source → Deps}
    {srcs : List Source} {d : Nat} {word : LaneMask → List Source → Lanes} {flags : LaneMask → List Source → FpFlags}
    (hexec : exec i s = computeSlot s i la ops dep fun _ part srcs => { writes := [(d, word part srcs)], flags := flags part srcs })
    (hturn : RowTurn s i t) (hready : Readable s t i (ops t) dep srcs) (hd : d < t.r.regs.length) {v : Nat → Word}
    (hv : ∀ l, l < 64 → (word (t.part i) srcs).get l = v l) :
    ∃ s', exec i s = .next s' ∧ RowWrote s t i s' (only d v) (flags (t.part i) srcs) := by
  refine ⟨_, hexec.trans (computeSlot_ok hturn hready), ?_⟩
  refine laneDone_wrote la _ hturn (fun w hw => ?_) rfl rfl fun k => ?_
  · rw [List.mem_singleton.1 hw]
    exact hd
  · by_cases hk : k = d
    · rw [only, if_pos hk]
      exact ⟨_, List.find?_cons_of_pos (beq_iff_eq.2 hk.symm), fun l hl _ => hv l hl⟩
    · rw [only, if_neg hk]
      exact List.find?_cons_of_neg (by simpa using Ne.symm hk)

/-- What a poisoned word blocks depends on the dependences of the lanes alone. -/
theorem poisonedSource_congr {part : LaneMask} {srcs : List Source} {d e : Deps} (h : ∀ l, l < 64 → d l = e l) :
    poisonedSource part srcs d = poisonedSource part srcs e := by
  have hhits : ((List.range 64).filter fun l => part.getLsbD l && (d l).any (Source.isBad srcs)) =
      (List.range 64).filter fun l => part.getLsbD l && (e l).any (Source.isBad srcs) :=
    List.filter_congr fun l hl => by rw [h l (List.mem_range.1 hl)]
  unfold poisonedSource
  dsimp only
  rw [hhits]
  split
  · rfl
  · split
    · rfl
    · next l rest hl =>
      have hmem : l ∈ (List.range 64).filter fun l => part.getLsbD l && (e l).any (Source.isBad srcs) := hl ▸ List.mem_cons_self ..
      rw [h l (List.mem_range.1 (List.mem_filter.1 hmem).1)]

/-- Several registers are written: what stands in the list of writes under each number. -/
theorem exec_writes {s : State} {i : Instr} {t : RowSlot} {la : BitVec 4} {ops : RowSlot → List Operand} {dep : LaneMask → List Source → Deps}
    {srcs : List Source} {writes : List Source → List (Nat × Lanes)}
    (hexec : exec i s = computeSlot s i la ops dep fun _ _ srcs => { writes := writes srcs })
    (hturn : RowTurn s i t) (hready : Readable s t i (ops t) dep srcs) (hd : ∀ w ∈ writes srcs, w.1 < t.r.regs.length)
    {ws : Nat → Option (Nat → Word)} (hnone : ∀ k, ws k = none → ∀ w ∈ writes srcs, w.1 ≠ k)
    (hsome : ∀ k v, ws k = some v → ∃ L, (k, L) ∈ writes srcs ∧ (∀ w ∈ writes srcs, w.1 = k → w = (k, L)) ∧ ∀ l, l < 64 → L.get l = v l) :
    ∃ s', exec i s = .next s' ∧ RowWrote s t i s' ws 0 := by
  refine ⟨_, hexec.trans (computeSlot_ok hturn hready), laneDone_wrote la _ hturn hd rfl rfl fun k => ?_⟩
  cases hk : ws k with
  | none => exact List.find?_eq_none.2 fun w hw hwk => hnone k hk w (List.mem_reverse.1 hw) (beq_iff_eq.1 hwk)
  | some v =>
    obtain ⟨L, hL, huniq, hget⟩ := hsome k v hk
    exact ⟨(k, L), find_of_unique (List.mem_reverse.2 hL) (beq_self_eq_true k)
      fun w hw hwk => huniq w (List.mem_reverse.1 hw) (beq_iff_eq.1 hwk), fun l hl _ => hget l hl⟩

/-! ### VTOPK (R435) -/

section Topk
variable (f : LForm) (srcs : List Source)

/-- The ranked candidates that VTOPK writes. -/
def topkBest : List Candidate :=
  (rankAll ((List.range (f.fn.toNat + 1)).flatMap fun q => (List.range 64).map fun l =>
    (rankKey f.t (srcWord srcs q l).toNat, q * 64 + l, srcWord srcs q l))).take (min f.vc.toNat ((f.fn.toNat + 1) * 64))

/-- The words and the indices of register `j` of VTOPK. -/
def topkWords (j l : Nat) : Word := (((topkBest f srcs)[64 * j + l]?).map fun x => x.2.2).getD (topkFill f.t)
def topkIndices (j l : Nat) : Word := (((topkBest f srcs)[64 * j + l]?).map fun x => BitVec.ofNat 32 x.2.1).getD 0xFFFFFFFF

/-- The registers that VTOPK writes, `m` of words and of indices. -/
def topkWrites (m : Nat) : List (Nat × Lanes) :=
  (List.range m).map (fun j => (f.vd.toNat + j, Lanes.build (topkWords f srcs j))) ++
    (List.range m).map (fun j => (f.vb.toNat + j, Lanes.build (topkIndices f srcs j))) ++
      [(f.vb.toNat + m, Lanes.fill (BitVec.ofNat 32 (min f.vc.toNat ((f.fn.toNat + 1) * 64))))]

theorem mem_topkWrites {m : Nat} {w : Nat × Lanes} : w ∈ topkWrites f srcs m ↔
    (∃ j < m, w = (f.vd.toNat + j, Lanes.build (topkWords f srcs j))) ∨ (∃ j < m, w = (f.vb.toNat + j, Lanes.build (topkIndices f srcs j))) ∨
      w = (f.vb.toNat + m, Lanes.fill (BitVec.ofNat 32 (min f.vc.toNat ((f.fn.toNat + 1) * 64)))) := by
  unfold topkWrites
  simp only [List.mem_append, List.mem_map, List.mem_range, List.mem_singleton, or_assoc, eq_comm (a := w)]

end Topk

theorem exec_vtopk {s : State} {t : RowSlot} {srcs : List Source} {f : LForm} {m : Nat} (hm : m = (f.vc.toNat + 63) / 64)
    (hturn : RowTurn s (.vtopk f) t) (hapart : f.vd.toNat + m ≤ f.vb.toNat ∨ f.vb.toNat + m < f.vd.toNat)
    (hd : f.vd.toNat + m ≤ t.r.regs.length) (hb : f.vb.toNat + m < t.r.regs.length)
    (hready : Readable s t (.vtopk f) ((List.range (f.fn.toNat + 1)).map fun q => ⟨f.va.toNat + q, t.e.kA, false⟩)
      (fun _ _ l => if l < f.vc.toNat then (List.range (f.fn.toNat + 1)).flatMap fun q => (List.range 64).map fun j => (q, j) else []) srcs) :
    ∃ s', exec (.vtopk f) s = .next s' ∧ RowWrote s t (.vtopk f) s' (fun r =>
      if f.vd.toNat ≤ r ∧ r < f.vd.toNat + m then some (topkWords f srcs (r - f.vd.toNat))
      else if f.vb.toNat ≤ r ∧ r < f.vb.toNat + m then some (topkIndices f srcs (r - f.vb.toNat))
      else if r = f.vb.toNat + m then some fun _ => BitVec.ofNat 32 (min f.vc.toNat ((f.fn.toNat + 1) * 64))
      else none) 0 := by
  have hexec : exec (.vtopk f) s = computeSlot s (.vtopk f) f.la (fun t => (List.range (f.fn.toNat + 1)).map fun q => ⟨f.va.toNat + q, t.e.kA, false⟩)
      (fun _ _ => topkDeps (f.fn.toNat + 1) f.vc.toNat) fun _ _ srcs => { writes := topkWrites f srcs m } := by
    rw [hm]
    rfl
  have hdeps : ∀ l, l < 64 → topkDeps (f.fn.toNat + 1) f.vc.toNat l =
      if l < f.vc.toNat then (List.range (f.fn.toNat + 1)).flatMap fun q => (List.range 64).map fun j => (q, j) else [] :=
    fun l hl => if_congr (by omega) rfl rfl
  obtain ⟨hsrc, hclean⟩ := hready
  refine exec_writes hexec hturn ⟨hsrc, (poisonedSource_congr hdeps).trans hclean⟩ (fun w hw => ?_) (fun k hk w hw hwk => ?_) (fun k v hk => ?_)
  · rcases (mem_topkWrites f srcs).1 hw with ⟨j, hj, rfl⟩ | ⟨j, hj, rfl⟩ | rfl
    · show f.vd.toNat + j < _
      omega
    · show f.vb.toNat + j < _
      omega
    · exact hb
  · split at hk
    · cases hk
    · next hwords =>
      split at hk
      · cases hk
      · next hindices =>
        split at hk
        · cases hk
        · next hcount =>
          rcases (mem_topkWrites f srcs).1 hw with ⟨j, hj, rfl⟩ | ⟨j, hj, rfl⟩ | rfl
          · have : f.vd.toNat + j = k := hwk
            omega
          · have : f.vb.toNat + j = k := hwk
            omega
          · exact hcount hwk.symm
  · split at hk
    · next hwords =>
      cases hk
      refine ⟨_, (mem_topkWrites f srcs).2 (Or.inl ⟨k - f.vd.toNat, by omega, Prod.ext ?_ rfl⟩), fun w hw hwk => ?_, fun l hl => build_get _ hl⟩
      · show k = f.vd.toNat + (k - f.vd.toNat)
        omega
      · rcases (mem_topkWrites f srcs).1 hw with ⟨j, hj, rfl⟩ | ⟨j, hj, rfl⟩ | rfl
        · have hj' : f.vd.toNat + j = k := hwk
          rw [← hj', Nat.add_sub_cancel_left]
        · have : f.vb.toNat + j = k := hwk
          omega
        · have : f.vb.toNat + m = k := hwk
          omega
    · split at hk
      · next hindices =>
        cases hk
        refine ⟨_, (mem_topkWrites f srcs).2 (Or.inr (Or.inl ⟨k - f.vb.toNat, by omega, Prod.ext ?_ rfl⟩)), fun w hw hwk => ?_,
          fun l hl => build_get _ hl⟩
        · show k = f.vb.toNat + (k - f.vb.toNat)
          omega
        · rcases (mem_topkWrites f srcs).1 hw with ⟨j, hj, rfl⟩ | ⟨j, hj, rfl⟩ | rfl
          · have : f.vd.toNat + j = k := hwk
            omega
          · have hj' : f.vb.toNat + j = k := hwk
            rw [← hj', Nat.add_sub_cancel_left]
          · have : f.vb.toNat + m = k := hwk
            omega
      · split at hk
        · next hcount =>
          cases hk
          refine ⟨_, (mem_topkWrites f srcs).2 (Or.inr (Or.inr (Prod.ext hcount rfl))), fun w hw hwk => ?_, fun l hl => fill_get _ hl⟩
          rcases (mem_topkWrites f srcs).1 hw with ⟨j, hj, rfl⟩ | ⟨j, hj, rfl⟩ | rfl
          · have : f.vd.toNat + j = k := hwk
            omega
          · have : f.vb.toNat + j = k := hwk
            omega
          · rw [hcount]
        · cases hk

/-! ### VCMPS (R418) -/

section Compress
variable (f : LForm) (srcs : List Source)

/-- Element `e` of the source of VCMPS. -/
def cmpsElem (e : Nat) : Nat := elemAt (elemBits f.t) (srcWord srcs 0 (e / perWord f.t)) (e % perWord f.t)

/-- The positions that group `g` keeps. -/
def cmpsKept (g : Nat) : List Nat := keptPositions ((List.range 8).map fun j => magnitude f.t (cmpsElem f srcs (8 * g + j)))

/-- The words of kept elements, and those of positions. -/
def cmpsWord (l : Nat) : Word :=
  if l < 32 then packElems (elemBits f.t) ((List.range (perWord f.t)).map fun k =>
    cmpsElem f srcs (8 * ((l * perWord f.t + k) / 4) + (cmpsKept f srcs ((l * perWord f.t + k) / 4)).getD ((l * perWord f.t + k) % 4) 0))
  else 0
def cmpsIndex (l : Nat) : Word :=
  if l < 8 * perWord f.t then BitVec.ofNat 32 (((cmpsKept f srcs l).zipIdx.map fun x => x.1 * 8 ^ x.2).sum) else 0

/-- The positions kept as the model lists them, group by group. -/
theorem cmpsKept_getD {g : Nat} (hg : g < 8 * perWord f.t) :
    ((List.range (8 * perWord f.t)).map (cmpsKept f srcs)).getD g [] = cmpsKept f srcs g := by
  simp [List.getD_eq_getElem?_getD, hg]

end Compress

theorem exec_vcmps {s : State} {t : RowSlot} {srcs : List Source} {f : LForm} (hturn : RowTurn s (.vcmps f) t)
    (hd : f.vd.toNat + 1 < t.r.regs.length)
    (hready : Readable s t (.vcmps f) [vaOp t f.va] (fun _ _ l =>
      (if l < 32 then (List.range (perWord f.t)).flatMap fun k => (List.range 8).map fun j => (0, (8 * ((l * perWord f.t + k) / 4) + j) / perWord f.t)
        else []) ++ if l < 8 * perWord f.t then (List.range 8).map fun j => (0, (8 * l + j) / perWord f.t) else []) srcs) :
    ∃ s', exec (.vcmps f) s = .next s' ∧ RowWrote s t (.vcmps f) s' (fun r =>
      if r = f.vd.toNat then some (cmpsWord f srcs) else if r = f.vd.toNat + 1 then some (cmpsIndex f srcs) else none) 0 := by
  have hpos : 0 < perWord f.t := by cases f.t <;> decide
  refine exec_writes (ops := fun t => [vaOp t f.va]) (writes := fun srcs =>
    [(f.vd.toNat, Lanes.build fun l => if l < 32 then packElems (elemBits f.t) ((List.range (perWord f.t)).map fun k =>
        cmpsElem f srcs (8 * ((l * perWord f.t + k) / 4) +
          ((((List.range (8 * perWord f.t)).map (cmpsKept f srcs)).getD ((l * perWord f.t + k) / 4) []).getD ((l * perWord f.t + k) % 4) 0))) else 0),
      (f.vd.toNat + 1, Lanes.build fun l => if l < 8 * perWord f.t then
        BitVec.ofNat 32 (((((List.range (8 * perWord f.t)).map (cmpsKept f srcs)).getD l []).zipIdx.map fun x => x.1 * 8 ^ x.2).sum) else 0)])
    rfl hturn hready ?_ (fun k hk w hw hwk => ?_) fun k v hk => ?_
  · simp only [List.forall_mem_cons]
    exact ⟨by show f.vd.toNat < _; omega, hd, fun w hw => absurd hw List.not_mem_nil⟩
  · split at hk
    · cases hk
    · next hfirst =>
      split at hk
      · cases hk
      · next hsecond =>
        rcases List.mem_cons.1 hw with rfl | hw
        · exact hfirst hwk.symm
        · rw [List.mem_singleton.1 hw] at hwk
          exact hsecond hwk.symm
  · split at hk
    · next hfirst =>
      cases hk
      subst hfirst
      refine ⟨_, List.mem_cons_self .., fun w hw hwk => ?_, fun l hl => (build_get _ hl).trans ?_⟩
      · rcases List.mem_cons.1 hw with rfl | hw
        · rfl
        · rw [List.mem_singleton.1 hw] at hwk
          have : f.vd.toNat + 1 = f.vd.toNat := hwk
          omega
      · unfold cmpsWord
        by_cases hl32 : l < 32
        · rw [if_pos hl32, if_pos hl32]
          refine congrArg _ (List.map_congr_left fun k hk => ?_)
          have hk := List.mem_range.1 hk
          have hgroup : (l * perWord f.t + k) / 4 < 8 * perWord f.t := by
            have : l * perWord f.t ≤ 31 * perWord f.t := Nat.mul_le_mul_right _ (by omega)
            omega
          rw [cmpsKept_getD f srcs hgroup]
        · rw [if_neg hl32, if_neg hl32]
    · split at hk
      · next hsecond =>
        cases hk
        subst hsecond
        refine ⟨_, List.mem_cons_of_mem _ (List.mem_singleton_self _), fun w hw hwk => ?_, fun l hl => (build_get _ hl).trans ?_⟩
        · rcases List.mem_cons.1 hw with rfl | hw
          · have : f.vd.toNat = f.vd.toNat + 1 := hwk
            omega
          · exact List.mem_singleton.1 hw
        · unfold cmpsIndex
          by_cases hl8 : l < 8 * perWord f.t
          · rw [if_pos hl8, if_pos hl8, cmpsKept_getD f srcs hl8]
          · rw [if_neg hl8, if_neg hl8]
      · cases hk

/-- Settles O36: what the collectives rest on by `reduceElem_eq`, `scanElems_eq`, `rankAll_sorted`, `body_lt_iff` and `keptPositions_spec`, the
instructions by what they write. -/
theorem collectiveResults : Obligations.CollectiveResults := by
  unfold Obligations.CollectiveResults
  refine ⟨fun op l => ?fold, fun t r a b => ⟨rfl, rfl, rfl, rfl, rfl, rfl⟩, fun l => ⟨rankAll_perm l, rankAll_sorted l⟩, fun a b => ?keys,
    fun f t a b hft => ?floats, fun a b d => ⟨?_, ?_, ?_⟩, fun mags => keptPositions_spec mags,
    fun s t srcs f hd => ⟨fun hturn hready => ?red, fun hturn hready => ?scan, fun hturn hapart hd hb hready => ?topk, fun hturn hd hready => ?cmps⟩⟩
  case fold =>
    intro comb'
    have hcomb : comb' = comb op := by
      funext x y
      obtain ⟨u, g⟩ := x
      obtain ⟨v, h⟩ := y
      cases u <;> cases v <;> rfl
    rw [hcomb]
    exact ⟨fun step hlen hzero hstep => reduceElem_eq hlen hzero hstep, fun acc hzero hstep => by
      rw [← hzero, scanElems_eq l 0 fun k x hx => by rw [Nat.zero_add]; exact hstep k x hx]
      simp only [Nat.zero_add]⟩
  case keys =>
    intro nan
    refine ⟨intOf_i32 a, rfl, by decide, fun ha hb => ?_, fun ha hb => ?_, fun ha => rankKey_number a ha⟩
    · rw [rankKey_nan ha, rankKey_nan hb]
    · rw [rankKey_nan ha]
      exact rankKey_number_gt b hb
  case floats =>
    intro nan
    have hfmt : isF t = true ∧ t.fmt = f ∧ f.sign ≤ 2 ^ 40 := by
      simp only [List.mem_cons, List.not_mem_nil, or_false, Prod.mk.injEq] at hft
      rcases hft with ⟨rfl, rfl⟩ | ⟨rfl, rfl⟩ | ⟨rfl, rfl⟩ <;> exact ⟨rfl, rfl, by decide⟩
    obtain ⟨ht, rfl, hsign⟩ := hfmt
    refine ⟨fun ha hb => ?_, fun ha => magnitude_number ht ha, fun n m e n' m' e' ha hb => body_lt_iff ha hb,
      fun n m e n' ha hb => body_lt_inf ha hb⟩
    rw [magnitude_nan ht ha, magnitude_number ht hb]
    exact Nat.lt_of_lt_of_le (Nat.mod_lt _ (Nat.two_pow_pos _)) hsign
  case red =>
    exact exec_collective (ops := fun t => [vaOp t f.va]) (word := fun part srcs => Lanes.fill (packElems (elemBits f.t)
      (((List.range (perWord f.t)).map fun k => reduceElem (redElem f.t f.rnd f.fn.toNat) ((List.range 64).map (present part f.t srcs k))).map
        fun x => x.1.getD 0)))
      (flags := fun part srcs => FpFlags.join (((List.range (perWord f.t)).map fun k => reduceElem (redElem f.t f.rnd f.fn.toNat)
        ((List.range 64).map (present part f.t srcs k))).map fun x => x.2)) rfl hturn hready hd fun l hl => fill_get _ hl
  case scan =>
    exact exec_collective (ops := fun t => [vaOp t f.va]) (word := fun part srcs => Lanes.build fun l => packElems (elemBits f.t)
      (((List.range (perWord f.t)).map fun k => scanElems (redElem f.t f.rnd f.fn.toNat) (none, 0)
        ((List.range 64).map (present part f.t srcs k))).map fun x => ((x[l]?).bind fun y => y.1).getD 0))
      (flags := fun part srcs => FpFlags.join (((List.range (perWord f.t)).map fun k => scanElems (redElem f.t f.rnd f.fn.toNat) (none, 0)
        ((List.range 64).map (present part f.t srcs k))).map fun x => (x.getLastD (none, 0)).2)) rfl hturn hready hd fun l hl => build_get _ hl
  case topk => exact exec_vtopk rfl hturn hapart hd hb hready
  case cmps => exact exec_vcmps hturn hd hready
  · rw [magnitude_int rfl]
    exact congrArg Int.natAbs (elemInt_toNat (by decide) a)
  · rw [magnitude_int rfl]
    exact congrArg Int.natAbs (elemInt_toNat (by decide) b)
  · rw [magnitude_int rfl]
    exact congrArg Int.natAbs (elemInt_toNat (by decide) d)

end Sys2Proof.Machine

/-! ## VPRUNE, predicates, votes (R258, R396, R417, R422, R429, R432) -/

namespace Sys2Proof.Machine
open Sys2Proof.Safety

/-! ### The elements of a packed word -/

theorem packElems_sum (w i : Nat) (l : List Nat) : ((l.zipIdx i).map fun (e, k) => e % 2 ^ w * 2 ^ (w * k)).sum =
    2 ^ (w * i) * Nat.ofDigits (2 ^ w) (l.map (· % 2 ^ w)) := by
  induction l generalizing i with
  | nil => rfl
  | cons x l ih =>
    rw [List.zipIdx_cons, List.map_cons, List.sum_cons, ih, List.map_cons, Nat.ofDigits_cons, Nat.mul_succ, Nat.pow_add]
    ring

/-- An element of a word is what was packed there. -/
theorem elemAt_packElems {w : Nat} (hw : w ≠ 0) {l : List Nat} (hfit : w * l.length ≤ 32) {k : Nat} (hk : k < l.length) :
    elemAt w (packElems w l) k = l.getD k 0 % 2 ^ w := by
  have hbase : 1 < 2 ^ w := Nat.one_lt_two_pow hw
  have hdigits : ∀ x ∈ l.map (· % 2 ^ w), x < 2 ^ w := fun x hx => by
    obtain ⟨y, -, rfl⟩ := List.mem_map.1 hx
    exact Nat.mod_lt _ (Nat.two_pow_pos _)
  have hlt : Nat.ofDigits (2 ^ w) (l.map (· % 2 ^ w)) < 2 ^ 32 := by
    refine Nat.lt_of_lt_of_le (Nat.ofDigits_lt_base_pow_length hbase hdigits) ?_
    rw [List.length_map, ← Nat.pow_mul]
    exact Nat.pow_le_pow_right (by decide) hfit
  unfold elemAt packElems
  rw [packElems_sum, Nat.mul_zero, Nat.pow_zero, Nat.one_mul, BitVec.toNat_ofNat, Nat.mod_eq_of_lt hlt, Nat.pow_mul,
    Nat.ofDigits_div_pow_eq_ofDigits_drop k (Nat.two_pow_pos w) _ hdigits, List.drop_eq_getElem_cons (by simpa using hk), Nat.ofDigits_cons,
    Nat.add_mul_mod_self_left, List.getElem_map, Nat.mod_mod]
  simp [hk]

/-! ### VPRUNE (R258, R432) -/

/-- The states of the generator behind each step. -/
def rngAfter (st : DWord) (n : Nat) : DWord := (List.range n).foldl (fun z _ => rngStep z) st

theorem rngAfter_succ (st : DWord) (n : Nat) : rngAfter st (n + 1) = rngStep (rngAfter st n) := by
  unfold rngAfter
  rw [List.range_succ, List.foldl_append]
  rfl

/-- What VPRUNE leaves of element `k`. -/
def prunedElem (t : ElemTy) (a b : Word) (st : DWord) (k : Nat) : Nat :=
  if pruneKeeps ((rngAfter st (k + 1)).toNat / 2 ^ 40) (FVal.decode t.fmt (elemAt (elemBits t) a k))
    (FVal.decode t.fmt (elemAt (elemBits t) b k)) then elemAt (elemBits t) a k else 0

theorem pruneLane_eq (t : ElemTy) (a b : Word) (st : DWord) : pruneLane t a b st =
    (packElems (elemBits t) ((List.range (perWord t)).map (prunedElem t a b st)), rngAfter st (perWord t)) := by
  have hfold : ∀ n, (List.range n).foldl (fun (acc : List Nat × DWord) k =>
      (acc.1 ++ [if pruneKeeps ((rngStep acc.2).toNat / 2 ^ 40) (FVal.decode t.fmt (elemAt (elemBits t) a k))
        (FVal.decode t.fmt (elemAt (elemBits t) b k)) then elemAt (elemBits t) a k else 0], rngStep acc.2)) ([], st) =
      ((List.range n).map (prunedElem t a b st), rngAfter st n) := fun n => by
    induction n with
    | zero => rfl
    | succ n ih =>
      rw [List.range_succ, List.foldl_append, ih, List.map_append, rngAfter_succ]
      have hlast : prunedElem t a b st n = if pruneKeeps ((rngStep (rngAfter st n)).toNat / 2 ^ 40)
          (FVal.decode t.fmt (elemAt (elemBits t) a n)) (FVal.decode t.fmt (elemAt (elemBits t) b n)) then elemAt (elemBits t) a n
          else 0 := by rw [← rngAfter_succ]; rfl
      rw [List.map_singleton, hlast]
      rfl
  unfold pruneLane
  dsimp only
  rw [hfold]

theorem elemAt_lt (w : Nat) (x : Word) (k : Nat) : elemAt w x k < 2 ^ w := Nat.mod_lt _ (Nat.two_pow_pos _)

theorem elemBits_fit (t : ElemTy) : elemBits t ≠ 0 ∧ elemBits t * perWord t ≤ 32 := by cases t <;> decide

theorem pruneLane_elem (t : ElemTy) (a b : Word) (st : DWord) {k : Nat} (hk : k < perWord t) :
    elemAt (elemBits t) (pruneLane t a b st).1 k = prunedElem t a b st k := by
  obtain ⟨hpos, hfit⟩ := elemBits_fit t
  have hlt : prunedElem t a b st k < 2 ^ elemBits t := by
    unfold prunedElem
    split
    · exact elemAt_lt _ _ _
    · exact Nat.two_pow_pos _
  rw [pruneLane_eq, elemAt_packElems hpos (by simpa using hfit) (by simpa using hk)]
  simp [hk, Nat.mod_eq_of_lt hlt]

/-- Finite values compare as integers over the lower of their units. -/
theorem fin_lt (m n : Bool) (i j : Nat) (e g : Int) : (FVal.fin m i e).lt (.fin n j g) =
    decide ((if m then -1 else 1) * ((i * 2 ^ (e - min e g).toNat : Nat) : Int) < (if n then -1 else 1) * ((j * 2 ^ (g - min e g).toNat : Nat) : Int)) := by
  have hmin : (if e ≤ g then e else g) = min e g := (min_def e g).symm
  have hsign : ∀ (b : Bool) (k : Nat), (if b then -(k : Int) else k) = (if b then -1 else 1) * (k : Int) := fun b k => by cases b <;> simp
  show decide (_ < _) = _
  rw [hmin, Nat.shiftLeft_eq, Nat.shiftLeft_eq, hsign, hsign]

theorem fin_lt_fin (m n : Nat) (e g : Int) : (FVal.fin false m e).lt (.fin false n g) =
    decide (m * 2 ^ (e - min e g).toNat < n * 2 ^ (g - min e g).toNat) := by
  rw [fin_lt]
  simp only [Bool.false_eq_true, if_false, Int.one_mul]
  exact decide_eq_decide.2 Int.ofNat_lt

/-- The drawn fraction of a finite threshold, decided over one unit. -/
theorem fraction_lt_iff (u k m : Nat) (g e : Int) : (FVal.fin false (u * k) (g - 24)).lt (.fin false m e) = true ↔
    u * (k * 2 ^ (g - min e g).toNat) < m * 2 ^ (e - min e g).toNat * 2 ^ 24 := by
  rw [fin_lt_fin, decide_eq_true_eq]
  by_cases h : g - 24 ≤ e
  · -- the model's unit is that of the fraction
    rw [min_eq_left h]
    have hs : ∃ d : Nat, (e - (g - 24)).toNat = d ∧ (e - min e g).toNat + 24 = d + (g - min e g).toNat := ⟨_, rfl, by omega⟩
    obtain ⟨d, hd, hsum⟩ := hs
    rw [hd, Int.sub_self]
    have hmul : m * 2 ^ (e - min e g).toNat * 2 ^ 24 = m * 2 ^ d * 2 ^ (g - min e g).toNat := by
      rw [Nat.mul_assoc, ← Nat.pow_add, hsum, Nat.pow_add, ← Nat.mul_assoc]
    rw [hmul, ← Nat.mul_assoc, Nat.mul_lt_mul_right (Nat.two_pow_pos _)]
    simp
  · rw [min_eq_right (by omega), Int.sub_self]
    have hs : (g - min e g).toNat = (g - 24 - e).toNat + 24 ∧ (e - min e g).toNat = 0 := by omega
    rw [hs.1, hs.2, Nat.pow_add, ← Nat.mul_assoc, ← Nat.mul_assoc, Nat.mul_lt_mul_right (Nat.two_pow_pos _)]
    rfl

/-! ### VCMP (R157, R417) -/

theorem lt_asymm (x y : FVal) (h : x.lt y = true) : y.lt x = false := by
  cases x with
  | nan => cases h
  | inf m =>
    cases y with
    | nan => cases h
    | inf n => cases m <;> cases n <;> simp_all [FVal.lt]
    | fin => cases m <;> simp_all [FVal.lt]
  | fin m i e =>
    cases y with
    | nan => cases h
    | inf n => cases n <;> simp_all [FVal.lt]
    | fin n j g =>
      rw [fin_lt, decide_eq_true_eq] at h
      rw [fin_lt, min_comm g e, decide_eq_false_iff_not, Int.not_lt]
      exact h.le

theorem lt_nan {x y : FVal} (h : (x.isNan || y.isNan) = true) : x.lt y = false := by
  rcases Bool.or_eq_true_iff.1 h with h | h
  · obtain ⟨b, rfl⟩ := FVal.eq_nan_of_isNan h
    cases y <;> rfl
  · obtain ⟨b, rfl⟩ := FVal.eq_nan_of_isNan h
    cases x <;> rfl

theorem cmpElem_i32 (fn : Fin 6) (a b : Word) : cmpElem .i32 fn a.toNat b.toNat =
    ([a == b, a != b, a.slt b, a.sle b, b.slt a, b.sle a].getD fn false, 0) := by
  have heq : (a.toInt == b.toInt) = (a == b) := by rw [Bool.eq_iff_iff, beq_iff_eq, beq_iff_eq, BitVec.toInt_inj]
  show (intCmp fn (intOf .i32 a.toNat) (intOf .i32 b.toNat), _) = _
  rw [intOf_i32, intOf_i32]
  fin_cases fn
  · exact congrArg (·, (0 : FpFlags)) heq
  · exact congrArg (fun x => (!x, (0 : FpFlags))) heq
  all_goals rfl

theorem cmpElem_n32 (fn : Fin 6) (a b : Word) : cmpElem .n32 fn a.toNat b.toNat =
    ([a == b, a != b, a.ult b, a.ule b, b.ult a, b.ule a].getD fn false, 0) := by
  have heq : ((a.toNat : Int) == b.toNat) = (a == b) := by rw [Bool.eq_iff_iff, beq_iff_eq, beq_iff_eq, Int.natCast_inj, BitVec.toNat_inj]
  have hlt : ∀ x y : Word, decide ((x.toNat : Int) < y.toNat) = x.ult y := fun x y => decide_eq_decide.2 Int.ofNat_lt
  have hle : ∀ x y : Word, decide ((x.toNat : Int) ≤ y.toNat) = x.ule y := fun x y => decide_eq_decide.2 Int.ofNat_le
  show (intCmp fn (a.toNat : Int) (b.toNat : Int), _) = _
  fin_cases fn
  · exact congrArg (·, (0 : FpFlags)) heq
  · exact congrArg (fun x => (!x, (0 : FpFlags))) heq
  · exact congrArg (·, (0 : FpFlags)) (hlt a b)
  · exact congrArg (·, (0 : FpFlags)) (hle a b)
  · exact congrArg (·, (0 : FpFlags)) (hlt b a)
  · exact congrArg (·, (0 : FpFlags)) (hle b a)

/-- The seven comparisons of R157 by the two strict ones. -/
theorem fCmp_eq (f : Fmt) (fn : Fin 7) (a b : Nat) : fCmp f fn a b =
    let x := FVal.decode f a
    let y := FVal.decode f b
    (if (x.isNan || y.isNan) = true then fn == 1 || fn == 6
      else [!x.lt y && !y.lt x, x.lt y || y.lt x, x.lt y, !y.lt x, y.lt x, !x.lt y, false].getD fn false,
      if (if 2 ≤ fn.val ∧ fn.val ≤ 5 then x.isNan || y.isNan else x.isSnan || y.isSnan) = true then FpFlags.nv else 0) := by
  unfold fCmp
  extract_lets x y un lt gt eq
  have hasymm : lt = true → gt = false := lt_asymm x y
  have hasymm' : gt = true → lt = false := lt_asymm y x
  have hun : un = true → lt = false ∧ gt = false := fun h => ⟨lt_nan h, lt_nan ((Bool.or_comm _ _).trans h)⟩
  have hsnan : anySnan [x, y] = (x.isSnan || y.isSnan) := by
    show (x.isSnan || (y.isSnan || false)) = _
    rw [Bool.or_false]
  refine Prod.ext ?_ ?_
  · show _ = if un = true then _ else [!lt && !gt, lt || gt, lt, !gt, gt, !lt, false].getD fn false
    show (match fn.val with
      | 0 => !un && !lt && !gt
      | 1 => !(!un && !lt && !gt)
      | 2 => lt
      | 3 => lt || (!un && !lt && !gt)
      | 4 => gt
      | 5 => gt || (!un && !lt && !gt)
      | _ => un) = _
    clear_value un lt gt
    cases hu : un
    · cases hl : lt <;> cases hg : gt
      · fin_cases fn <;> rfl
      · fin_cases fn <;> rfl
      · fin_cases fn <;> rfl
      · exact absurd (hasymm hl) (by simp [hg])
    · obtain ⟨hl, hg⟩ := hun hu
      rw [hl, hg]
      fin_cases fn <;> rfl
  · show FpFlags.when (if decide (2 ≤ fn.val ∧ fn.val ≤ 5) = true then un else anySnan [x, y]) FpFlags.nv = _
    rw [hsnan, if_congr decide_eq_true_iff rfl rfl]
    rfl

/-! ### A predicate is written (R87) -/

theorem setPred_pred {r : Row} {p k : Nat} {v : LaneMask} (hp : p < 16) :
    (r.setPred p v).pred k = if k = p ∧ k ≠ 15 then v else r.pred k := by
  unfold Row.setPred
  by_cases h15 : p = 15
  · rw [if_pos (beq_iff_eq.2 h15), if_neg fun h => h.2 (h.1.trans h15)]
  · rw [if_neg (mt beq_iff_eq.1 h15)]
    unfold Row.pred
    by_cases hk : k = 15
    · rw [if_pos (beq_iff_eq.2 hk), if_pos (beq_iff_eq.2 hk), if_neg fun h => h.2 hk]
    · rw [if_neg (mt beq_iff_eq.1 hk), if_neg (mt beq_iff_eq.1 hk)]
      by_cases hkp : k = p
      · rw [if_pos (⟨hkp, hk⟩ : k = p ∧ k ≠ 15), hkp]
        simp [List.getD, hp]
      · rw [if_neg fun h : k = p ∧ k ≠ 15 => hkp h.1]
        simp [List.getD, Ne.symm hkp]

/-- A slot that writes one predicate, in the participating lanes; p15 discards it. -/
theorem exec_predicate {s : State} {i : Instr} {t : RowSlot} {la : BitVec 4} {ops : RowSlot → List Operand} {dep : LaneMask → List Source → Deps}
    {srcs : List Source} {p : Nat} {value : RowSlot → List Source → LaneMask} {flags : LaneMask → List Source → FpFlags}
    (hexec : exec i s = computeSlot s i la ops dep fun t part srcs => { pred := some (p, value t srcs), flags := flags part srcs })
    (hturn : RowTurn s i t) (hready : Readable s t i (ops t) dep srcs) (hp : p < 16) :
    ∃ s' r', exec i s = .next s' ∧ RowAfter s t s' r' ∧ r'.regs = t.r.regs ∧ r'.mask = t.r.mask ∧ r'.rng = t.r.rng ∧
      r'.flags = t.r.flags ||| flags (t.part i) srcs ∧
      ∀ k l, k < 16 → l < 64 → (r'.pred k).getLsbD l =
        if k = p ∧ k ≠ 15 ∧ (t.part i).getLsbD l = true then (value t srcs).getLsbD l else (t.r.pred k).getLsbD l := by
  obtain ⟨q, hafter, hsame⟩ := laneDone_after la { pred := some (p, value t srcs), flags := flags (t.part i) srcs } hturn
  have hkept := hsame.kept
  have hset : rowKept ((t.r.setPred p ((t.r.pred p &&& ~~~(t.part i)) ||| (value t srcs &&& t.part i)))) =
      (t.r.regs, (t.r.setPred p ((t.r.pred p &&& ~~~(t.part i)) ||| (value t srcs &&& t.part i))).preds, t.r.mask, t.r.rng, t.r.flags) := by
    unfold Row.setPred
    split <;> rfl
  simp only [rowKept, Prod.mk.injEq] at hkept hset
  obtain ⟨hregs, hpreds, hmask, hrng, hflags⟩ := hkept
  obtain ⟨sregs, -, smask, srng, sflags⟩ := hset
  refine ⟨_, q, hexec.trans (computeSlot_ok hturn hready), hafter, hregs.trans sregs, hmask.trans smask, hrng.trans srng,
    hflags.trans (congrArg (· ||| flags (t.part i) srcs) sflags), fun k l hk hl => ?_⟩
  have hpred : q.pred k = (t.r.setPred p ((t.r.pred p &&& ~~~(t.part i)) ||| (value t srcs &&& t.part i))).pred k := by
    unfold Row.pred
    rw [hpreds]
    rfl
  rw [hpred, setPred_pred hp]
  by_cases hkp : k = p ∧ k ≠ 15
  · rw [if_pos hkp, hkp.1]
    have h15 : p ≠ 15 := hkp.1 ▸ hkp.2
    rw [BitVec.getLsbD_or, BitVec.getLsbD_and, BitVec.getLsbD_and, BitVec.getLsbD_not, decide_eq_true hl, Bool.true_and]
    cases (t.part i).getLsbD l
    · rw [if_neg fun h => Bool.false_ne_true h.2.2, Bool.not_false, Bool.and_true, Bool.and_false, Bool.or_false]
    · rw [if_pos ⟨rfl, h15, rfl⟩, Bool.not_true, Bool.and_false, Bool.and_true, Bool.false_or]
  · rw [if_neg hkp, if_neg fun h => hkp ⟨h.1, h.2.1⟩]

/-! ### VOTE (R78, R429, R430) -/

theorem laneCountOf_eq (m : LaneMask) : laneCountOf m = (List.range 64).countP fun l => m.getLsbD l :=
  List.countP_eq_length_filter.symm

theorem laneCountOf_eq_zero {m : LaneMask} : laneCountOf m = 0 ↔ m = 0 := by
  rw [laneCountOf_eq, List.countP_eq_zero]
  refine ⟨fun h => BitVec.eq_of_getLsbD_eq fun l hl => ?_, fun h l _ => by simp [h]⟩
  rw [Bool.eq_false_iff.2 (h l (List.mem_range.2 hl))]
  simp

/-- The participating lanes in which a predicate has a value. -/
def votingLanes (part p : LaneMask) (set : Bool) : Nat := (List.range 64).countP fun l => part.getLsbD l && (p.getLsbD l == set)

theorem votingLanes_true (part p : LaneMask) : votingLanes part p true = laneCountOf (p &&& part) := by
  rw [laneCountOf_eq]
  refine List.countP_congr fun l _ => ?_
  rw [BitVec.getLsbD_and, beq_true, Bool.and_comm]

theorem votingLanes_false (part p : LaneMask) : votingLanes part p false = laneCountOf (~~~p &&& part) := by
  rw [laneCountOf_eq]
  refine List.countP_congr fun l hl => ?_
  rw [BitVec.getLsbD_and, BitVec.getLsbD_not, beq_false, Bool.and_comm, decide_eq_true (List.mem_range.1 hl), Bool.true_and]

theorem voteWith_eq (v : VqEntry) (part p : LaneMask) : voteWith v part p = match v.kind with
    | .any => { v with anySet := v.anySet || decide (votingLanes part p true ≠ 0) }
    | .all => { v with allSet := v.allSet && decide (votingLanes part p false = 0) }
    | .cnt => { v with count := v.count + votingLanes part p true }
    | .schk => v := by
  have hany : ((p &&& part) != 0) = decide (votingLanes part p true ≠ 0) := by
    rw [Bool.eq_iff_iff, bne_iff_ne, decide_eq_true_iff, votingLanes_true, ne_eq, ne_eq, laneCountOf_eq_zero]
  have hall : ((~~~p &&& part) == 0) = decide (votingLanes part p false = 0) := by
    rw [Bool.eq_iff_iff, beq_iff_eq, decide_eq_true_iff, votingLanes_false, laneCountOf_eq_zero]
  unfold voteWith
  rewrite [hany, hall, votingLanes_true part p]
  cases v.kind <;> rfl

/-- A vote that has resolved (R430). -/
theorem resolveVotes_get {c : Ctx} {n : Nat} {v : VqEntry} {seq : Nat} (hget : c.vq[n]? = some v) (hseq : v.seq = some seq)
    (hopen : v.result = none) (hkind : v.kind ≠ .schk) : c.resolveVotes.vq[n]? =
      some (if (c.rows.all fun r => !r.live || decide (seq < r.issue) || r.ahead.contains seq) = true then
        { v with result := some (match v.kind with
          | .any => if v.anySet then 1 else 0
          | .all => if v.allSet then 1 else 0
          | .cnt | .schk => BitVec.ofNat 64 v.count) } else v) := by
  unfold Ctx.resolveVotes
  rw [List.getElem?_map, hget]
  cases hk : v.kind with
  | schk => exact absurd hk hkind
  | _ => simp only [Option.map_some, hk, hseq, hopen]

/-! ### What VPRUNE keeps -/

theorem pruneKeeps_always (u : Nat) {x y : FVal} (h : x.isNan = true ∨ y.isNan = true ∨ (∃ m e, y = .fin true m e) ∨
    (∃ n e, y = .fin n 0 e) ∨ y = .inf true ∨ (x.isInf = true ∧ y.isInf = true)) : pruneKeeps u x y = true := by
  rcases h with h | h | ⟨m, e, rfl⟩ | ⟨n, e, rfl⟩ | rfl | ⟨hx, hy⟩
  · obtain ⟨q, rfl⟩ := FVal.eq_nan_of_isNan h
    cases y <;> rfl
  · obtain ⟨q, rfl⟩ := FVal.eq_nan_of_isNan h
    cases x <;> rfl
  · cases x <;> rfl
  · cases x with
    | fin => simp [pruneKeeps]
    | _ => rfl
  · cases x <;> rfl
  · cases x with
    | inf =>
      cases y with
      | inf => rfl
      | _ => cases hy
    | _ => cases hx

theorem pruneKeeps_inf (u : Nat) {x : FVal} (hx : x.isInf = true) (k : Nat) (g : Int) : pruneKeeps u x (.fin false k g) = true := by
  cases x with
  | inf => rfl
  | _ => cases hx

theorem pruneKeeps_fin (u m k : Nat) (n : Bool) (e g : Int) (hk : k ≠ 0) : pruneKeeps u (.fin n m e) (.fin false k g) = true ↔
    u * (k * 2 ^ (g - min e g).toNat) < m * 2 ^ (e - min e g).toNat * 2 ^ 24 := by
  have hzero : (k == 0) = false := beq_eq_false_iff_ne.2 hk
  rw [← fraction_lt_iff]
  unfold pruneKeeps
  dsimp only
  rw [hzero, Bool.false_or, Bool.false_or]

/-! ### The instructions -/

theorem exec_vprune {s : State} {t : RowSlot} {srcs : List Source} {f : LForm} (hd : f.vd.toNat < t.r.regs.length)
    (hturn : RowTurn s (.vprune f) t) (hready : Readable s t (.vprune f) [vaOp t f.va, vbOp t f.vb] (ownLane 2) srcs) :
    let out := fun l => pruneLane f.t (srcWord srcs 0 l) (srcWord srcs 1 l) (t.r.rng.toList.getD l 0)
    ∃ s' r', exec (.vprune f) s = .next s' ∧ RowAfter s t s' r' ∧ r'.preds = t.r.preds ∧ r'.mask = t.r.mask ∧
      r'.flags = t.r.flags ∧ (∀ k, k ≠ f.vd.toNat → r'.regs[k]? = t.r.regs[k]?) ∧
      ∀ l, l < 64 →
        (r'.reg f.vd.toNat).get l = (if (t.r.writable t.insp (t.part (.vprune f)) f.vd.toNat).getLsbD l = true then (out l).1
          else (t.r.reg f.vd.toNat).get l) ∧
        r'.rng.toList.getD l 0 = if (t.part (.vprune f)).getLsbD l = true then (out l).2 else t.r.rng.toList.getD l 0 := by
  intro out
  have hout : ∀ l, l < 64 → ((List.range 64).map out).getD l (0, 0) = out l := fun l hl => by simp [hl]
  have hexec := computeSlot_ok (la := 0) (ops := fun t => [vaOp t f.va, vbOp t f.vb]) (dep := ownLane 2)
    (g := fun t part srcs =>
      { writes := [(f.vd.toNat, Lanes.build fun l => (((List.range 64).map fun l =>
          pruneLane f.t (srcWord srcs 0 l) (srcWord srcs 1 l) (t.r.rng.toList.getD l 0)).getD l (0, 0)).1)]
        rng := some (rngBuild fun l => if part.getLsbD l then (((List.range 64).map fun l =>
          pruneLane f.t (srcWord srcs 0 l) (srcWord srcs 1 l) (t.r.rng.toList.getD l 0)).getD l (0, 0)).2
            else t.r.rng.toList.getD l 0) }) hturn hready
  obtain ⟨q, hafter, hsame⟩ := laneDone_after 0
    { writes := [(f.vd.toNat, Lanes.build fun l => (((List.range 64).map out).getD l (0, 0)).1)]
      rng := some (rngBuild fun l => if (t.part (.vprune f)).getLsbD l then (((List.range 64).map out).getD l (0, 0)).2
        else t.r.rng.toList.getD l 0) } hturn
  have hkept := hsame.kept
  simp only [rowKept, Prod.mk.injEq] at hkept
  obtain ⟨hregs, hpreds, hmask, hrng, hflags⟩ := hkept
  obtain ⟨-, fpreds, fmask, -, fflags⟩ := writeReg_frame t (t.part (.vprune f)) 0 (if t.e.kA == 0 && t.e.kB == 0 then .g else .g) t.r
    (f.vd.toNat, Lanes.build fun l => (((List.range 64).map out).getD l (0, 0)).1)
  refine ⟨_, q, hexec, hafter, hpreds.trans fpreds, hmask.trans fmask,
    hflags.trans ((BitVec.or_zero).trans fflags), fun k hk => ?_, fun l hl => ⟨?_, ?_⟩⟩
  · rw [hregs]
    exact writeReg_other _ _ _ _ _ _ _ hd hk
  · have hreg := writeReg_reg t (t.part (.vprune f)) 0 (if t.e.kA == 0 && t.e.kB == 0 then .g else .g) t.r f.vd.toNat f.vd.toNat l
      (Lanes.build fun l => (((List.range 64).map out).getD l (0, 0)).1) hd hl
    have hq : q.reg f.vd.toNat = (writeReg t (t.part (.vprune f)) 0 (if t.e.kA == 0 && t.e.kB == 0 then .g else .g) t.r
        (f.vd.toNat, Lanes.build fun l => (((List.range 64).map out).getD l (0, 0)).1)).reg f.vd.toNat := by
      unfold Row.reg
      rw [hregs]
      rfl
    rw [hq, hreg, build_get _ hl, hout l hl]
    exact if_congr (and_iff_right rfl) rfl rfl
  · rw [hrng]
    show (rngBuild _).toList.getD l 0 = _
    unfold rngBuild
    simp only [Vector.toList_mk, List.getD_eq_getElem?_getD, List.getElem?_map, List.getElem?_range hl, Option.map_some, Option.getD_some]

theorem exec_vexit {s : State} {t : RowSlot} {f : LForm} (hturn : RowTurn s (.vexit f) t) :
    ∃ s' r', exec (.vexit f) s = .next s' ∧ RowAfter s t s' r' ∧ r'.mask = t.r.mask &&& ~~~(t.part (.vexit f)) ∧
      r'.regs = t.r.regs ∧ r'.preds = t.r.preds ∧ r'.rng = t.r.rng ∧ r'.flags = t.r.flags := by
  obtain ⟨q, hafter, hsame⟩ := slotDone_after (s1 := s) (r := { t.r with mask := t.r.mask &&& ~~~(t.part (.vexit f)) }) hturn rfl rfl
  have hkept := hsame.kept
  simp only [rowKept, Prod.mk.injEq] at hkept
  obtain ⟨hregs, hpreds, hmask, hrng, hflags⟩ := hkept
  exact ⟨_, q, rowStep_ok (f := fun t => .ok s { t.r with mask := t.r.mask &&& ~~~(t.part (.vexit f)) }) hturn rfl, hafter, hmask, hregs,
    hpreds, hrng, hflags⟩

theorem exec_vote {s : State} {t : RowSlot} {f : LForm} (hturn : RowTurn s (.vote f) t) :
    exec (.vote f) s = .next (slotDone (s.putCtx { t.c with
      vq := mapIf (fun v => v.esn == t.e.esn) (fun v => voteWith v (t.part (.vote f)) (t.r.pred (f.va.toNat % 16))) t.c.vq }) t t.r (.vote f)) :=
  rowStep_ok (f := fun t => .ok (s.putCtx { t.c with
    vq := mapIf (fun v => v.esn == t.e.esn) (fun v => voteWith v (t.part (.vote f)) (t.r.pred (f.va.toNat % 16))) t.c.vq }) t.r) hturn rfl

/-- What PLOG writes. -/
def plogMask (fn : Nat) (a b : LaneMask) : LaneMask :=
  match fn with
  | 0 => a &&& b
  | 1 => a ||| b
  | 2 => a ^^^ b
  | 3 => a &&& ~~~b
  | _ => ~~~a

theorem plogMask_get {fn : BitVec 4} {a b : LaneMask} {l : Nat} (hl : l < 64) : (plogMask fn.toNat a b).getLsbD l =
    if fn = 0 then a.getLsbD l && b.getLsbD l else if fn = 1 then a.getLsbD l || b.getLsbD l
      else if fn = 2 then a.getLsbD l != b.getLsbD l else if fn = 3 then a.getLsbD l && !b.getLsbD l else !a.getLsbD l := by
  have hnum : ∀ k : BitVec 4, fn = k ↔ fn.toNat = k.toNat := fun k => BitVec.toNat_inj.symm
  simp only [hnum]
  generalize fn.toNat = n
  have hnot : ∀ x : LaneMask, (~~~x).getLsbD l = !x.getLsbD l := fun x => by
    rw [BitVec.getLsbD_not, decide_eq_true hl, Bool.true_and]
  match n with
  | 0 => exact BitVec.getLsbD_and
  | 1 => exact BitVec.getLsbD_or
  | 2 => exact BitVec.getLsbD_xor.trans (congrFun (congrFun Bool.bne_eq_xor _) _).symm
  | 3 => exact BitVec.getLsbD_and.trans (congrArg (_ && ·) (hnot b))
  | n + 4 => exact hnot a

/-- Settles O37, by cases on the instruction. -/
theorem pruneAndPredicateResults : Obligations.PruneAndPredicateResults := by
  unfold Obligations.PruneAndPredicateResults
  refine ⟨fun s t srcs f hd hturn hready => exec_vprune hd hturn hready, fun ty a b st _ => ⟨?_, fun k hk => ?_⟩,
    fun s t srcs f hturn hready => ?_, fun a b fn => ⟨cmpElem_i32 fn a b, cmpElem_n32 fn a b⟩, fun ty a b fn hty => ?_,
    fun s t f hturn => ?_, fun s t f hturn => ?_, fun c v n seq e k => ⟨⟨rfl, rfl, rfl, rfl⟩, fun hget hseq hopen hkind => ?_⟩,
    fun s t f hturn => exec_vexit hturn⟩
  · exact congrArg Prod.snd (pruneLane_eq ty a b st)
  · intro u was is x y
    have hu : u = (rngAfter st (k + 1)).toNat / 2 ^ 40 := by
      show (rngAfter st (k + 1) >>> 40).toNat = _
      rw [BitVec.toNat_ushiftRight, Nat.shiftRight_eq_div_pow]
    have his : is = if pruneKeeps u x y = true then was else 0 := by
      rw [hu]
      exact pruneLane_elem ty a b st hk
    refine ⟨?_, fun h => ?_, fun n m e hx hy => ?_, fun k g hx hy => ?_, fun n m e k g hx hy hk => ?_⟩
    · rw [his]
      split
      · exact Or.inl rfl
      · exact Or.inr rfl
    · rw [his, if_pos (pruneKeeps_always u h)]
    · exact his.trans (if_neg (by rw [hx, hy]; exact Bool.false_ne_true))
    · rw [his, hy, if_pos (pruneKeeps_inf u hx k g)]
    · rw [his, hx, hy]
      exact if_congr (pruneKeeps_fin u m k n e g hk) rfl rfl
  · intro at'
    obtain ⟨s', r', hnext, hafter, hregs, hmask, hrng, hflags, hpred⟩ := exec_predicate (la := 0) (ops := fun t => [vaOp t f.va, vbOp t f.vb])
      (dep := ownLane 2) (p := f.vd.toNat % 16)
      (value := fun _ srcs => LaneMask.build fun l => (cmpElem f.t f.fn.toNat (srcWord srcs 0 l).toNat (srcWord srcs 1 l).toNat).1)
      (flags := fun part srcs => FpFlags.join ((List.range 64).map fun l =>
        if part.getLsbD l then (cmpElem f.t f.fn.toNat (srcWord srcs 0 l).toNat (srcWord srcs 1 l).toNat).2 else 0))
      rfl hturn hready (Nat.mod_lt _ (by decide))
    refine ⟨s', r', hnext, hafter, hregs, hmask, hrng, hflags, fun p l hp hl => ?_⟩
    exact (hpred p l hp hl).trans (if_congr Iff.rfl (getLsbD_maskBuild _ hl) rfl)
  · intro x y unordered less
    have hf : isF ty = true := by
      rcases List.mem_cons.1 hty with rfl | hty
      · rfl
      · rcases List.mem_cons.1 hty with rfl | hty
        · rfl
        · rw [List.mem_singleton.1 hty]
          rfl
    have hless : ∀ x y, less x y = x.lt y := fun x y => by
      cases x with
      | fin =>
        cases y with
        | fin => exact (fin_lt _ _ _ _ _ _).symm
        | _ => rfl
      | _ => cases y <;> rfl
    have hcmp : cmpElem ty fn a b = fCmp ty.fmt fn a b := if_pos hf
    rw [hcmp, fCmp_eq, hless, hless]
    exact ⟨rfl, rfl⟩
  · intro a b
    obtain ⟨s', r', hnext, hafter, hregs, hmask, hrng, hflags, hpred⟩ := exec_predicate (la := 0) (ops := fun _ => [])
      (dep := ownLane 0) (p := f.vd.toNat % 16) (srcs := [])
      (value := fun t _ => plogMask f.fn.toNat (t.r.pred (f.va.toNat % 16)) (t.r.pred (f.vb.toNat % 16)))
      (flags := fun _ _ => 0) rfl hturn (readable_nil ..) (Nat.mod_lt _ (by decide))
    refine ⟨s', r', hnext, hafter, hregs, hmask, hrng, hflags.trans BitVec.or_zero, fun p l hp hl => ?_⟩
    rw [hpred p l hp hl]
    exact if_congr Iff.rfl (plogMask_get hl) rfl
  · intro lanes vq
    have hvotes : (fun v => voteWith v (t.part (.vote f)) (t.r.pred (f.va.toNat % 16))) = fun v => match v.kind with
        | .any => { v with anySet := v.anySet || decide (lanes true ≠ 0) }
        | .all => { v with allSet := v.allSet && decide (lanes false = 0) }
        | .cnt => { v with count := v.count + lanes true }
        | .schk => v := funext fun v => voteWith_eq v _ _
    refine (exec_vote hturn).trans ?_
    rewrite [hvotes]
    rfl
  · have hresolve := resolveVotes_get hget hseq hopen hkind
    have hall : (c.rows.all fun r => !r.live || decide (seq < r.issue) || r.ahead.contains seq) = true ↔
        ∀ r ∈ c.rows, r.live = false ∨ seq < r.issue ∨ seq ∈ r.ahead := by
      simp [or_assoc]
    exact ⟨fun h => hresolve.trans (congrArg some (if_pos (hall.2 h))), fun h => hresolve.trans (congrArg some (if_neg (mt hall.1 h)))⟩

end Sys2Proof.Machine

/-! ## CPY (R206, R208, R210, R251, R336, R346, R347, R348, R350) -/

namespace Sys2Proof.Machine
open Sys2Proof.Safety

/-! ### Its ranges -/

/-- A buffer range lies in the allocation, or for an ash context in a range that the owner of its cluster has declared (R206, R208). -/
theorem placeOf_isSome {z : State} {c : Ctx} {m : Nat} {mb : Member} (b : Buf) (o n : Nat) (hmb : c.member m = some mb) :
    (placeOf z c m b o n).isSome = true ↔ o + n ≤ (mb.buf b).size ∨
      (c.ash = true ∧ lendBase ≤ o ∧ ∃ d om mo, ownerOn z mb.cluster = some (d, om) ∧ d.member om = some mo ∧
        ∃ l ∈ mo.lends, l.buf = b ∧ l.off ≤ o - lendBase ∧ o - lendBase + n ≤ l.off + l.len) := by
  unfold placeOf
  rw [hmb]
  dsimp only
  by_cases hown : o + n ≤ (mb.buf b).size
  · rw [if_pos (decide_eq_true hown)]
    simp [hown]
  · rw [if_neg (by simpa using hown)]
    by_cases hash : c.ash = true ∧ lendBase ≤ o
    · obtain ⟨ha, hb⟩ := hash
      rw [if_pos (by rw [ha, Bool.true_and, decide_eq_true hb])]
      simp only [hown, ha, hb, true_and, false_or]
      cases ho : ownerOn z mb.cluster with
      | none => simp
      | some y =>
        obtain ⟨d, om⟩ := y
        cases hm : d.member om with
        | none => simp [hm]
        | some mo =>
          simp only [Option.bind_some, hm, Option.map_some, Option.getD_some, List.findSome?_isSome_iff]
          constructor
          · rintro ⟨⟨l, k⟩, hl, h⟩
            split at h
            · next hcond =>
              simp only [Bool.and_eq_true, beq_iff_eq, decide_eq_true_eq] at hcond
              obtain ⟨hbuf, hlo, hhi⟩ := hcond
              exact ⟨d, om, mo, rfl, hm, l, (List.mem_zipIdx' hl).2 ▸ List.getElem_mem _, hbuf, hlo, hhi⟩
            · cases h
          · rintro ⟨_, _, _, heq, hm', l, hl, hbuf, hlo, hhi⟩
            cases heq
            cases hm.symm.trans hm'
            obtain ⟨k, hk, rfl⟩ := List.getElem_of_mem hl
            refine ⟨(mo.lends[k], k), List.mem_zipIdx_iff_getElem?.2 (List.getElem?_eq_getElem hk), ?_⟩
            rw [if_pos (by simp [hbuf, hlo, hhi])]
            rfl
    · rw [if_neg (by simpa using hash)]
      simp only [hown, false_or, Option.isSome_none, Bool.false_eq_true, false_iff]
      exact fun h => hash ⟨h.1, h.2.1⟩

/-- An offset of a CPY is misaligned or its range lies outside the buffer. -/
def cpyOffsetBad (z : State) (c : Ctx) (m n : Nat) (sp : Space) (o : Nat) : Prop :=
  o % 4 ≠ 0 ∨ match sp with
    | .buf b => placeOf z c m b o n = none
    | .global => False

theorem cpyOffsetBad_iff (z : State) (c : Ctx) (m n : Nat) (sp : Space) (o : Nat) :
    (o % 4 != 0 || (match sp with
      | .global => false
      | .buf b => (placeOf z c m b o n).isNone)) = true ↔ cpyOffsetBad z c m n sp o := by
  unfold cpyOffsetBad
  rw [Bool.or_eq_true, bne_iff_ne]
  cases sp with
  | global => exact or_congr_right (by simp)
  | buf b => exact or_congr_right Option.isNone_iff_eq_none

theorem cpyRangeBad_length {z : State} {c : Ctx} {m : Nat} {x : EForm} (h : pval x.p2 % 4 ≠ 0 ∨ pval x.p2 < 4 ∨ 2 ^ 24 < pval x.p2) :
    cpyRangeBad z c m x = some (pval x.p2) := by
  unfold cpyRangeBad
  exact if_pos (by simpa [or_assoc] using h)

theorem cpyRangeBad_offsets {z : State} {c : Ctx} {m : Nat} {x : EForm} (h4 : pval x.p2 % 4 = 0) (hlo : 4 ≤ pval x.p2) (hhi : pval x.p2 ≤ 2 ^ 24) :
    (cpyOffsetBad z c m (pval x.p2) (cpyDst x.fn) (pval x.p0) → cpyRangeBad z c m x = some (pval x.p0)) ∧
    (¬cpyOffsetBad z c m (pval x.p2) (cpyDst x.fn) (pval x.p0) → cpyOffsetBad z c m (pval x.p2) (cpySrc x.fn) (pval x.p1) →
      cpyRangeBad z c m x = some (pval x.p1)) ∧
    (¬cpyOffsetBad z c m (pval x.p2) (cpyDst x.fn) (pval x.p0) → ¬cpyOffsetBad z c m (pval x.p2) (cpySrc x.fn) (pval x.p1) →
      cpyRangeBad z c m x = none) := by
  have hlen : ¬(pval x.p2 % 4 != 0 || decide (pval x.p2 < 4) || decide (2 ^ 24 < pval x.p2)) = true := by
    simp only [Bool.or_eq_true, bne_iff_ne, decide_eq_true_eq]
    omega
  simp only [← cpyOffsetBad_iff]
  unfold cpyRangeBad
  dsimp only
  rw [if_neg hlen]
  refine ⟨fun hd => if_pos hd, fun hd hs => ?_, fun hd hs => ?_⟩
  · exact (if_neg hd).trans (if_pos hs)
  · exact (if_neg hd).trans (if_neg hs)

/-! ### Its scoreboard entry (R210, R347) -/

theorem ensureBoard_cpy (z : State) (c : Ctx) (m : Nat) (mb : Member) (e : Entry) (x : EForm) (h : cpyRangeBad z c m x = none) :
    let dst : Range := ⟨cpyDst x.fn, pval x.p0, pval x.p2⟩
    let src : Range := ⟨cpySrc x.fn, pval x.p1, pval x.p2⟩
    let clear := mb.board.all (fun b => decide (e.seq ≤ b.seq) ||
      !(b.dst.any (fun d => d.meets dst || d.meets src) || b.src.any (fun d => dst.meets d))) && earlierListed z c m mb e.seq
    ensureBoard z c m mb e (.cpy x) =
      if mb.board.any (fun b => b.seq == e.seq) = true then some (z, clear)
      else if 2048 ≤ boardUsed z mb.cluster then none
      else some (z.updMember c.id m fun y => { y with board := y.board ++ [⟨e.seq, .copy, some dst, [src]⟩] }, clear) := by
  intro dst src clear
  have hentry : boardEntry z c m e (.cpy x) = some ⟨e.seq, .copy, some dst, [src]⟩ := by
    unfold boardEntry
    dsimp only
    rw [h]
    rfl
  have hclear : boardClear mb ⟨e.seq, .copy, some dst, [src]⟩ = mb.board.all fun b => decide (e.seq ≤ b.seq) ||
      !(b.dst.any (fun d => d.meets dst || d.meets src) || b.src.any (fun d => dst.meets d)) := by
    unfold boardClear
    congr 1
    funext b
    cases b.dst with
    | none => rfl
    | some d => simp
  unfold ensureBoard
  rw [hentry]
  dsimp only
  rw [hclear]
  rfl

/-! ### Its turn -/

/-- A CPY whose checks pass, whose ranges are its own and whose bytes are clean. -/
theorem runCpy_ok {x : EForm} {v : EngineView} {m : Nat} {s2 : State} {dst src : List GLoc}
    (hrange : cpyRangeBad v.s1 v.c m x = none) (hdst : cpyLocs v.s1 v.c (cpyDst x.fn) (pval x.p0) (pval x.p2) .store = .ok dst)
    (hsrc : cpyLocs v.s1 v.c (cpySrc x.fn) (pval x.p1) (pval x.p2) .load = .ok src) (htouch : touchRanges v.c m (cpyBufs x) v.s1 = .ready s2)
    (hclean : match cpySrc x.fn with
      | .buf b => enginePoison s2 v.c m [(b, pval x.p1, pval x.p2)] = none
      | .global => ∀ l ∈ src, s2.memPoisoned (l.on (dieOf v.mb.cluster)) = false) :
    runCpy x v.s1 v.c m v.mb v.x =
      let bytes := match cpySrc x.fn with
        | .buf b => bufLoad s2 v.c m b (pval x.p1) (pval x.p2)
        | .global => src.map (engineByte s2 v)
      match cpyDst x.fn with
      | .buf b => .ok (bufStore (bump s2) v.c m b (pval x.p0) bytes) []
      | .global =>
        let apart := cpySrc x.fn == .global && !(decide (pval x.p0 < pval x.p1 + pval x.p2 ∧ pval x.p1 < pval x.p0 + pval x.p2))
        .ok ((bump s2).perform (dst.zip (aliasBytes (bump s2) (dieOf v.mb.cluster) apart src dst bytes)))
          (dst.flatMap fun l => l.line.copies).eraseDups := by
  unfold runCpy
  dsimp only
  rw [hrange]
  dsimp only
  rw [hdst]
  dsimp only
  rw [hsrc]
  dsimp only
  rw [htouch]
  cases hspace : cpySrc x.fn with
  | buf b =>
    rw [hspace] at hclean
    have hbad : (if (s2.poison == []) = true then none else enginePoison s2 v.c m [(b, pval x.p1, pval x.p2)]) = none := by
      rw [hclean]
      exact ite_self none
    dsimp only
    rewrite [hbad]
    rfl
  | global =>
    rw [hspace] at hclean
    have hfind : (src.zipIdx.find? fun y => s2.memPoisoned (y.1.on (dieOf v.mb.cluster))) = none :=
      List.find?_eq_none.2 fun y hy => by
        rw [hclean y.1 ((List.mem_zipIdx' hy).2 ▸ List.getElem_mem _)]
        exact Bool.false_ne_true
    dsimp only
    rewrite [hfind, Option.map_none, ite_self]
    rfl

theorem runCpy_crange {x : EForm} {s : State} {c : Ctx} {m : Nat} {mb : Member} {cmd : Cmd} {a : Nat} (h : cpyRangeBad s c m x = some a) :
    runCpy x s c m mb cmd = .fault s .crange a 0 := by
  unfold runCpy
  dsimp only
  rw [h]

theorem runCpy_page {x : EForm} {s : State} {c : Ctx} {m : Nat} {mb : Member} {cmd : Cmd} {dst : List GLoc} {e : XErr} {va : Nat}
    (hrange : cpyRangeBad s c m x = none)
    (h : cpyLocs s c (cpyDst x.fn) (pval x.p0) (pval x.p2) .store = .error (e, va) ∨
      (cpyLocs s c (cpyDst x.fn) (pval x.p0) (pval x.p2) .store = .ok dst ∧
        cpyLocs s c (cpySrc x.fn) (pval x.p1) (pval x.p2) .load = .error (e, va))) :
    runCpy x s c m mb cmd = .fault s e.cause va 0 := by
  unfold runCpy
  dsimp only
  rw [hrange]
  dsimp only
  rcases h with hd | ⟨hd, hs⟩
  · rw [hd]
  · rw [hd]
    dsimp only
    rw [hs]

theorem cpyEarly_page {x : EForm} {s : State} {c : Ctx} {m : Nat} {mb : Member} {e : XErr} {va : Nat} (hrange : cpyRangeBad s c m x = none)
    (h : cpyLocs s c (cpyDst x.fn) (pval x.p0) (pval x.p2) .store = .error (e, va)) : cpyEarly x s c m mb = some (e.cause, va) := by
  unfold cpyEarly
  rw [hrange]
  dsimp only
  rw [h]

theorem cpyEarly_none {x : EForm} {s : State} {c : Ctx} {m : Nat} {mb : Member} {dst src : List GLoc} (hrange : cpyRangeBad s c m x = none)
    (hdst : cpyLocs s c (cpyDst x.fn) (pval x.p0) (pval x.p2) .store = .ok dst)
    (hsrc : cpyLocs s c (cpySrc x.fn) (pval x.p1) (pval x.p2) .load = .ok src) : cpyEarly x s c m mb = none := by
  unfold cpyEarly
  rw [hrange]
  dsimp only
  rw [hdst]
  dsimp only
  rw [hsrc]

/-- A turn that changes nothing waits. -/
theorem waitOrDone_eq (s t : State) :
    (if t == s then wait s else done t) = .next (if t = s then { s with waited := true } else { t with waited := false }) := by
  by_cases h : t = s
  · rw [if_pos h, if_pos (beq_iff_eq.2 h)]
    rfl
  · rw [if_neg h, if_neg (mt beq_iff_eq.1 h)]
    rfl

/-- A turn that reads one line ahead (R336). -/
theorem engineStep_ahead {s : State} {g : Engine} {i : Instr} {v : EngineView} {f : State → Ctx → Nat → Member → Cmd → EngRes}
    {early : State → Ctx → Nat → Member → Option (Cause × Nat)} {line : Nat} (h : EngineFront s g i v) (hpart : s.hand.part = some line) :
    engineStep s g i f early =
      let t := updCmd v.s1 v.c.id s.hand.member g v.x.e.seq fun y => { y with got := readAhead v.s1.mem y.got line }
      if t == s then wait s else done t := by
  obtain ⟨h1, h2, h3, h4, h5, h6, h7, h8, h9, h10⟩ := h
  unfold engineStep
  rw [withCtx_some h1]
  dsimp only
  rw [h2]
  dsimp only
  rw [h3]
  dsimp only
  have hg : (v.c0.switch != SwitchPhase.inside || g == Engine.matrix && (v.c0.revoked || !bankFor s v.c0 v.mb0)) = false := by
    rw [h5]
    by_cases hm : g = .matrix
    · obtain ⟨a, b⟩ := h6 hm
      rw [a, b]; simp
    · simp [hm]
  rw [hg, if_neg Bool.false_ne_true, h7]
  dsimp only
  rw [h8, h9]
  dsimp only
  unfold runOrRead
  rw [← h8, bindBank_hand, ensureBoard_hand h7, engineMemory_hand, h8, hpart]
  rfl

/-- A copy that something earlier stands against: its early checks, then it waits and keeps its entry. -/
theorem engineStep_blocked {s s0 : State} {c0 : Ctx} {mb0 : Member} {y : Cmd} {i : Instr} {f : State → Ctx → Nat → Member → Cmd → EngRes}
    {early : State → Ctx → Nat → Member → Option (Cause × Nat)} (h1 : s.ctxOf s.hand.ctx = some c0) (h2 : c0.member s.hand.member = some mb0)
    (h3 : cmdInHand s mb0 .copy i = some y) (h4 : c0.switch = .inside)
    (h5 : ensureBoard (engineMemory s .copy) c0 s.hand.member mb0 y.e i = some (s0, false)) :
    engineStep s .copy i f early = match early s0 c0 s.hand.member mb0 with
      | some (cause, addr) => .next (engineFaulted s0 c0.id s.hand.member .copy y cause addr 0)
      | none =>
        let listed := ((ensureBoard s c0 s.hand.member mb0 y.e i).map fun z => z.1).getD s
        if listed == s then wait s else done listed := by
  unfold engineStep
  rw [withCtx_some h1]
  dsimp only
  rw [h2]
  dsimp only
  rw [h3]
  dsimp only
  have hg : (c0.switch != SwitchPhase.inside || Engine.copy == Engine.matrix && (c0.revoked || !bankFor s c0 mb0)) = false := by
    rw [h4]
    rfl
  rw [hg, if_neg Bool.false_ne_true, h5]
  rfl

/-- Settles O41, through what a run of the copy engine comes to. -/
theorem copyCommand : Obligations.CopyCommand := by
  unfold Obligations.CopyCommand
  intro s s0 s2 v x dst src m n die
  refine ⟨fun hturn hrange hdst hsrc htouch hclean => ?_, fun a hturn hrange => ?_, fun e va hturn hrange hpage => ?_,
    fun h1 h2 h3 h4 h5 hrange => ⟨fun e va hpage => ?_, fun hdst hsrc => ?_⟩, fun z c m mb e => ?_, fun line hfront hpart => ?_,
    fun z c m => ?_, fun z c m mb b o n hmb => placeOf_isSome b o n hmb, by decide⟩
  · intro bytes
    refine (engineStep_turn hturn).trans ?_
    rewrite [runCpy_ok hrange hdst hsrc htouch hclean]
    cases cpyDst x.fn <;> rfl
  · exact engineStep_fault hturn (runCpy_crange hrange)
  · exact engineStep_fault hturn (runCpy_page hrange hpage)
  · refine (engineStep_blocked h1 h2 h3 h4 h5).trans ?_
    rewrite [cpyEarly_page hrange hpage]
    rfl
  · refine (engineStep_blocked h1 h2 h3 h4 h5).trans ?_
    rewrite [cpyEarly_none hrange hdst hsrc]
    exact waitOrDone_eq _ _
  · exact ensureBoard_cpy z c m mb e x
  · exact (engineStep_ahead hfront hpart).trans (waitOrDone_eq _ _)
  · exact ⟨cpyRangeBad_length, cpyRangeBad_offsets⟩

end Sys2Proof.Machine

/-! ## FHDL and FGAT (R244, R245, R246, R247, R359) -/

namespace Sys2Proof.Machine
open Sys2Proof.Safety

/-! ### Reads of the fetch unit (R235) -/

theorem translateN_length {s : State} {d : Nat} {user : Bool} {k : Access} : ∀ {n va : Nat} {ls : List GLoc},
    translateN s d user k va n = .ok ls → ls.length = n := by
  intro n
  induction n with
  | zero =>
    intro va ls h
    cases h
    rfl
  | succ n ih =>
    intro va ls h
    unfold translateN at h
    split at h
    · cases h
    · split at h
      · cases h
      · next hrest =>
        cases h
        exact congrArg (· + 1) (ih hrest)

theorem fetchRead_page {s : State} {c : Ctx} {port : ReadPort} {va n a : Nat} {e : XErr}
    (h : translateN s c.domain true .load va n = .error (e, a)) : fetchRead s c port va n = .error (e.cause, a) := by
  unfold fetchRead
  rw [h]

/-- What a read gives are so many bytes, each of the line that was read ahead or at home. -/
theorem fetchRead_eq_ok {s : State} {c : Ctx} {port : ReadPort} {va n : Nat} {bytes : List Byte} (h : fetchRead s c port va n = .ok bytes) :
    ∃ ls, translateN s c.domain true .load va n = .ok ls ∧ bytes = port.read s.mem ls := by
  unfold fetchRead at h
  split at h
  · cases h
  · next ls hls =>
    split at h
    · cases h
    · exact ⟨ls, hls, (Except.ok.inj h).symm⟩

theorem fetchRead_length {s : State} {c : Ctx} {port : ReadPort} {va n : Nat} {bytes : List Byte} (h : fetchRead s c port va n = .ok bytes) :
    bytes.length = n := by
  obtain ⟨ls, hls, rfl⟩ := fetchRead_eq_ok h
  exact (List.length_map _).trans (translateN_length hls)

/-! ### Blocks (R245) -/

section Block
variable {s : State} {c : Ctx} {port : ReadPort} {h : HandleDesc} {n b : Nat} {verify : Bool}

/-- The block that the bytes read stand for, by the handle's kind. -/
def decoded (h : HandleDesc) (raw : List Byte) : Option (List Byte) :=
  match h.kind with
  | 0 => some raw
  | 1 => xbcDecode raw h.logb
  | _ => lz4Decode raw h.logb

/-- A block decoded, of the size that the handle states, and checked. -/
def checkedBlock (h : HandleDesc) (b : Nat) (raw : List Byte) (crc : Option Nat) (verify : Bool) : Except FetchErr (List Byte) :=
  match decoded h raw with
  | none => .error (.decf, b)
  | some out =>
    if out.length != 2 ^ h.logb then .error (.decf, b)
    else match crc with
      | some v => if verify && crc32c out != v then .error (.crcf, b) else .ok out
      | none => .ok out

theorem decoded_eq (h : HandleDesc) (raw : List Byte) :
    (if h.kind == 0 then some raw else if h.kind == 1 then xbcDecode raw h.logb else lz4Decode raw h.logb) = decoded h raw := by
  unfold decoded
  match h.kind with
  | 0 => rfl
  | 1 => rfl
  | k + 2 => rfl

theorem checkedBlock_decf {raw : List Byte} {crc : Option Nat} (hout : ∀ out, decoded h raw = some out → out.length ≠ 2 ^ h.logb) :
    checkedBlock h b raw crc verify = .error (.decf, b) := by
  unfold checkedBlock
  cases hd : decoded h raw with
  | none => rfl
  | some out => exact if_pos (bne_iff_ne.2 (hout out hd))

theorem checkedBlock_some {raw out : List Byte} {w : Nat} (hd : decoded h raw = some out) (hlen : out.length = 2 ^ h.logb) :
    checkedBlock h b raw (some w) verify = if verify = true ∧ crc32c out ≠ w then .error (.crcf, b) else .ok out := by
  unfold checkedBlock
  rw [hd]
  dsimp only
  rw [if_neg (by simp [hlen])]
  exact if_congr (by simp) rfl rfl

theorem checkedBlock_none {raw out : List Byte} (hd : decoded h raw = some out) (hlen : out.length = 2 ^ h.logb) :
    checkedBlock h b raw none verify = .ok out := by
  unfold checkedBlock
  rw [hd]
  exact if_neg (by simp [hlen])

theorem fetchBlock_eq : fetchBlock s c port h n b verify =
    if h.dir = 0 then
      if verify = true then .error (.hdlbad, n)
      else match fetchRead s c port (h.data + b * 2 ^ h.logb) (2 ^ h.logb) with
        | .error e => .error e
        | .ok raw => checkedBlock h b raw none verify
    else match fetchRead s c port (h.dir + 16 * b) 16 with
      | .error e => .error e
      | .ok ent =>
        if 2 ^ 57 ≤ leNat (ent.take 8) ∨ 2 ^ 32 ≤ leNat (ent.drop 8) ∨ leNat (ent.take 8) / 2 ^ 40 % 2 ^ 17 = 0 then .error (.decf, b)
        else match fetchRead s c port (h.data + leNat (ent.take 8) % 2 ^ 40) (leNat (ent.take 8) / 2 ^ 40 % 2 ^ 17) with
          | .error e => .error e
          | .ok raw => checkedBlock h b raw (some (leNat (ent.drop 8))) verify := by
  have hfinish : ∀ raw crc, (match (if h.kind == 0 then some raw else if h.kind == 1 then xbcDecode raw h.logb else lz4Decode raw h.logb) with
      | none => Except.error (Cause.decf, b)
      | some out =>
        if out.length != 2 ^ h.logb then .error (.decf, b)
        else match crc with
          | some v => if verify && crc32c out != v then .error (.crcf, b) else .ok out
          | none => .ok out) = checkedBlock h b raw crc verify := fun raw crc => by
    rewrite [decoded_eq]
    rfl
  unfold fetchBlock
  refine if_congr beq_iff_eq (if_congr Iff.rfl rfl ?_) ?_
  · cases fetchRead s c port (h.data + b * 2 ^ h.logb) (2 ^ h.logb) with
    | error e => rfl
    | ok raw => exact hfinish raw none
  · cases fetchRead s c port (h.dir + 16 * b) 16 with
    | error e => rfl
    | ok ent =>
      refine if_congr (by simp [or_assoc]) rfl ?_
      cases fetchRead s c port (h.data + leNat (ent.take 8) % 2 ^ 40) (leNat (ent.take 8) / 2 ^ 40 % 2 ^ 17) with
      | error e => rfl
      | ok raw => exact hfinish raw (some (leNat (ent.drop 8)))

theorem fetchBlock_plain (hdir : h.dir = 0) (hverify : verify = false) (hkind : h.kind = 0) :
    fetchBlock s c port h n b verify = fetchRead s c port (h.data + b * 2 ^ h.logb) (2 ^ h.logb) := by
  rw [fetchBlock_eq, if_pos hdir, if_neg (by rw [hverify]; exact Bool.false_ne_true)]
  cases hread : fetchRead s c port (h.data + b * 2 ^ h.logb) (2 ^ h.logb) with
  | error e => rfl
  | ok raw => exact checkedBlock_none (by unfold decoded; rewrite [hkind]; rfl) (fetchRead_length hread)

/-- A block found through its directory entry. -/
theorem fetchBlock_entry (hdir : h.dir ≠ 0) {ent : List Byte} (hent : fetchRead s c port (h.dir + 16 * b) 16 = .ok ent) :
    fetchBlock s c port h n b verify =
      if 2 ^ 57 ≤ leNat (ent.take 8) ∨ 2 ^ 32 ≤ leNat (ent.drop 8) ∨ leNat (ent.take 8) / 2 ^ 40 % 2 ^ 17 = 0 then .error (.decf, b)
      else match fetchRead s c port (h.data + leNat (ent.take 8) % 2 ^ 40) (leNat (ent.take 8) / 2 ^ 40 % 2 ^ 17) with
        | .error e => .error e
        | .ok raw => checkedBlock h b raw (some (leNat (ent.drop 8))) verify := by
  rw [fetchBlock_eq, if_neg hdir, hent]

end Block

/-! ### FHDL -/

section Handle
variable {s : State} {v : EngineView} {x : EForm}

theorem exec_fhdl_read (h : EngineTurn s .fetch (.fhdl x) v) (halign : pval x.p0 % 32 = 0) {bytes : List Byte}
    (hread : fetchRead v.s1 v.c (v.x.port v.mb) (pval x.p0) 32 = .ok bytes) :
    exec (.fhdl x) s = if handleBad (BitVec.ofNat 256 (leNat bytes)) = true
      then .next (engineFaulted v.s1 v.c0.id s.hand.member .fetch v.x .hdlbad (x.head.toNat % 64) 0)
      else .next (engineDone (v.s1.updMember v.c.id s.hand.member fun mb =>
        { mb with handles := mb.handles.setIfInBounds (x.head.toNat % 64) (BitVec.ofNat 256 (leNat bytes)) }) v.c0.id s.hand.member .fetch v.x []) := by
  show execFhdl x s = _
  refine (engineStep_turn h).trans ?_
  dsimp only
  rw [if_neg (by simp [halign]), hread]
  dsimp only
  cases handleBad (BitVec.ofNat 256 (leNat bytes)) <;> rfl

theorem exec_fhdl_fault (h : EngineTurn s .fetch (.fhdl x) v) (halign : pval x.p0 % 32 = 0) {k : Cause} {va : Nat}
    (hread : fetchRead v.s1 v.c (v.x.port v.mb) (pval x.p0) 32 = .error (k, va)) :
    exec (.fhdl x) s = .next (engineFaulted v.s1 v.c0.id s.hand.member .fetch v.x k va 0) := by
  show execFhdl x s = _
  refine engineStep_fault h ?_
  dsimp only
  rw [if_neg (by simp [halign]), hread]

theorem exec_fhdl_align (h : EngineTurn s .fetch (.fhdl x) v) (halign : pval x.p0 % 32 ≠ 0) :
    exec (.fhdl x) s = .next (engineFaulted v.s1 v.c0.id s.hand.member .fetch v.x .hdlbad (x.head.toNat % 64) 0) := by
  show execFhdl x s = _
  refine engineStep_fault h ?_
  dsimp only
  rw [if_pos (bne_iff_ne.2 halign)]

end Handle

/-! ### FGAT (R246, R247) -/

theorem fgatBad_eq (z : State) (c : Ctx) (m : Nat) (x : EForm) : fgatBad z c m x =
    if pval x.p0 % 4 ≠ 0 then some (pval x.p0) else if pval x.p1 % 4 ≠ 0 ∨ pval x.p1 < 4 ∨ 65536 < pval x.p1 then some (pval x.p1)
      else if pval x.p2 < 1 ∨ 64 * ((x.head.extractLsb' 24 3).toNat + 1) < pval x.p2 then some (pval x.p2)
      else if placeOf z c m (if x.fn = 0 then .ab else .wb) (pval x.p0) (pval x.p2 * pval x.p1) = none then some (pval x.p0) else none := by
  have hgroups : (x.head.extractLsb' 24 3).toNat = x.head.toNat / 2 ^ 24 % 8 := by
    rw [BitVec.extractLsb'_toNat, Nat.shiftRight_eq_div_pow]
  rw [hgroups]
  unfold fgatBad
  dsimp only
  refine if_congr bne_iff_ne rfl ?_
  by_cases h4 : pval x.p1 % 4 = 0
  · rw [if_neg (by simp [h4])]
    refine if_congr (by simp [h4]) rfl (if_congr decide_eq_true_iff rfl (if_congr ?_ rfl rfl))
    rw [Option.isNone_iff_eq_none, show (if x.fn == 0 then Buf.ab else Buf.wb) = if x.fn = 0 then .ab else .wb from if_congr beq_iff_eq rfl rfl]
  · rw [if_pos (bne_iff_ne.2 h4), if_pos (Or.inl h4)]

section Pieces
variable (x : EForm) (c : Ctx) (m : Nat) (port : ReadPort) (n : Nat) (h : HandleDesc) (regs : List Lanes) (blk : Nat → List Byte) (s : State)

/-- The block and the offset that the copied registers name for a piece. -/
def pieceBlock (j : Nat) : Nat := ((regs.getD (2 * (j / 64)) (Lanes.fill 0)).get (j % 64)).toNat
def pieceOffset (j : Nat) : Nat := ((regs.getD (2 * (j / 64) + 1) (Lanes.fill 0)).get (j % 64)).toNat

/-- The state with the first pieces written. -/
def gathered (k : Nat) : State := (List.range k).foldl (fun s j =>
  bufStore s c m (if x.fn = 0 then .ab else .wb) (pval x.p0 + j * pval x.p1) (((blk j).drop (pieceOffset regs j)).take (pval x.p1))) s

/-- A piece that lies in its block. -/
def pieceFits (j : Nat) : Prop := pieceBlock regs j < h.count ∧ pieceOffset regs j + pval x.p1 ≤ 2 ^ h.logb

variable {x c m port n h regs blk s}

theorem fgatPieces_succ (k j : Nat) (s : State) : fgatPieces x c m port n h regs (k + 1) j s =
    if h.count ≤ pieceBlock regs j then .fault s .frange (pieceBlock regs j) (1#64 <<< (j % 64))
    else if 2 ^ h.logb < pieceOffset regs j + pval x.p1 then .fault s .frange (pieceOffset regs j) (1#64 <<< (j % 64))
    else match fetchBlock s c port h n (pieceBlock regs j) (x.head.getLsbD 0) with
      | .error (cause, a) => .fault s cause a (if cause = .decf ∨ cause = .crcf then 1#64 <<< (j % 64) else 0)
      | .ok blk => fgatPieces x c m port n h regs k (j + 1) (bufStore s c m (if x.fn = 0 then .ab else .wb) (pval x.p0 + j * pval x.p1)
          ((blk.drop (pieceOffset regs j)).take (pval x.p1))) := by
  rw [fgatPieces]
  refine if_congr Iff.rfl rfl (if_congr Iff.rfl rfl ?_)
  show (match fetchBlock s c port h n (pieceBlock regs j) (x.head.getLsbD 0) with
    | .error (cause, a) => _
    | .ok blk => _) = _
  cases fetchBlock s c port h n (pieceBlock regs j) (x.head.getLsbD 0) with
  | error e => exact congrArg (EngRes.fault s e.1 e.2) (if_congr (by simp) rfl rfl)
  | ok blk =>
    have hbuf : (if x.fn == 0 then Buf.ab else Buf.wb) = if x.fn = 0 then .ab else .wb := if_congr beq_iff_eq rfl rfl
    dsimp only
    rewrite [hbuf]
    rfl

theorem fgatPieces_block {k j : Nat} {s : State} (hblock : h.count ≤ pieceBlock regs j) : fgatPieces x c m port n h regs (k + 1) j s =
    .fault s .frange (pieceBlock regs j) (1#64 <<< (j % 64)) := (fgatPieces_succ k j s).trans (if_pos hblock)

theorem fgatPieces_offset {k j : Nat} {s : State} (hblock : pieceBlock regs j < h.count) (hoff : 2 ^ h.logb < pieceOffset regs j + pval x.p1) :
    fgatPieces x c m port n h regs (k + 1) j s = .fault s .frange (pieceOffset regs j) (1#64 <<< (j % 64)) :=
  (fgatPieces_succ k j s).trans ((if_neg (Nat.not_le.2 hblock)).trans (if_pos hoff))

theorem fgatPieces_fetch {k j a : Nat} {s : State} {cause : Cause} (hfits : pieceFits x h regs j)
    (hfetch : fetchBlock s c port h n (pieceBlock regs j) (x.head.getLsbD 0) = .error (cause, a)) :
    fgatPieces x c m port n h regs (k + 1) j s = .fault s cause a (if cause = .decf ∨ cause = .crcf then 1#64 <<< (j % 64) else 0) := by
  obtain ⟨hblock, hoff⟩ := hfits
  refine (fgatPieces_succ k j s).trans ((if_neg (Nat.not_le.2 hblock)).trans ((if_neg (Nat.not_lt.2 hoff)).trans ?_))
  rewrite [hfetch]
  rfl

/-- The run passes the pieces that can be fetched. -/
theorem fgatPieces_skip (k r : Nat) (hgood : ∀ j, j < k → pieceFits x h regs j ∧
      fetchBlock (gathered x c m regs blk s j) c port h n (pieceBlock regs j) (x.head.getLsbD 0) = .ok (blk j)) :
    fgatPieces x c m port n h regs (k + r) 0 s = fgatPieces x c m port n h regs r k (gathered x c m regs blk s k) := by
  induction k generalizing r with
  | zero => rw [Nat.zero_add]; rfl
  | succ k ih =>
    obtain ⟨⟨hblock, hoff⟩, hfetch⟩ := hgood k k.lt_succ_self
    have hnext : gathered x c m regs blk s (k + 1) = bufStore (gathered x c m regs blk s k) c m (if x.fn = 0 then .ab else .wb)
        (pval x.p0 + k * pval x.p1) (((blk k).drop (pieceOffset regs k)).take (pval x.p1)) := by
      unfold gathered
      rw [List.range_succ, List.foldl_append]
      rfl
    rw [show k + 1 + r = k + (r + 1) by omega, ih (r + 1) fun j hj => hgood j (Nat.lt_succ_of_lt hj), fgatPieces_succ, if_neg (by omega),
      if_neg (by omega), hfetch, hnext]

end Pieces

/-- What a turn of an engine leaves, by what the run of the command came to. -/
def turnResult (s : State) (g : Engine) (v : EngineView) (r : EngRes) : Out :=
  match r with
  | .wait => wait s
  | .moved s2 => if s2 == s then wait s else done s2
  | .ok s2 lines => .next (engineDone s2 v.c0.id s.hand.member g v.x lines)
  | .fault s2 cause addr mask => .next (engineFaulted s2 v.c0.id s.hand.member g v.x cause addr mask)

theorem exec_fgat_run {s s2 : State} {v : EngineView} {x : EForm} (hturn : EngineTurn s .fetch (.fgat x) v)
    (hbad : fgatBad v.s1 v.c s.hand.member x = none) (hspoiled : v.x.spoiled = none)
    (htouch : touchRanges v.c s.hand.member [(if x.fn = 0 then Buf.ab else Buf.wb, pval x.p0, pval x.p1 * pval x.p2)] v.s1 = .ready s2)
:
    exec (.fgat x) s = turnResult s .fetch v (fgatPieces x v.c s.hand.member (v.x.port v.mb) (x.head.toNat / 256 % 64)
      (handleOf (handleAt v.mb (x.head.toNat / 256 % 64))) v.x.copied (pval x.p2) 0 s2) := by
  have hbuf : (if x.fn == 0 then Buf.ab else Buf.wb) = if x.fn = 0 then .ab else .wb := if_congr beq_iff_eq rfl rfl
  show execFgat x s = _
  refine (engineStep_turn hturn).trans ?_
  dsimp only
  rw [hbad, hspoiled, hbuf]
  dsimp only
  rewrite [htouch]
  rfl

theorem exec_fgat_frange {s : State} {v : EngineView} {x : EForm} {a : Nat} (hturn : EngineTurn s .fetch (.fgat x) v)
    (hbad : fgatBad v.s1 v.c s.hand.member x = some a) :
    exec (.fgat x) s = .next (engineFaulted v.s1 v.c0.id s.hand.member .fetch v.x .frange a 0) := by
  show execFgat x s = _
  refine engineStep_fault hturn ?_
  dsimp only
  rw [hbad]

/-- Settles O42, through what a fetch of a block comes to and by induction over the pieces. -/
theorem handleAndGatherCommands : Obligations.HandleAndGatherCommands := by
  unfold Obligations.HandleAndGatherCommands
  intro s v x m port n
  refine ⟨fun bytes hturn halign hread => ⟨fun hgood => ?_, fun hbad => ?_⟩, exec_fhdl_align, fun k va hturn halign hread => exec_fhdl_fault hturn halign hread,
    fun a hturn hbad => exec_fgat_frange hturn hbad, fun z c m => fgatBad_eq z c m x, ?_, ?_⟩
  · rw [exec_fhdl_read hturn halign hread, if_neg (by rw [hgood]; exact Bool.false_ne_true)]
  · rw [exec_fhdl_read hturn halign hread, if_pos hbad]
  · intro s2 blk hturn hbad hspoiled b l htouch n h blockNo off good written
    have hrun := exec_fgat_run hturn hbad hspoiled htouch
    refine ⟨fun hgood => hrun.trans (congrArg (turnResult s .fetch v) (fgatPieces_skip (pval x.p2) 0 hgood)), fun k hk hgood => ?_⟩
    have hstop : ∀ r, fgatPieces x v.c m port n h v.x.copied (pval x.p2 - k - 1 + 1) k (written k) = r → exec (.fgat x) s = turnResult s .fetch v r :=
      fun r hr => by
        have hskip := (fgatPieces_skip k (pval x.p2 - k - 1 + 1) hgood).trans hr
        rw [show k + (pval x.p2 - k - 1 + 1) = pval x.p2 by omega] at hskip
        exact hrun.trans (congrArg (turnResult s .fetch v) hskip)
    exact ⟨fun hblock => hstop _ (fgatPieces_block hblock), fun hblock hoff => hstop _ (fgatPieces_offset hblock hoff),
      fun cause a hfits hfetch => hstop _ (fgatPieces_fetch hfits hfetch)⟩
  · intro s c port h b verify fetched whole
    refine ⟨fun hdir hverify => ?_, fun hdir hverify hkind => fetchBlock_plain hdir hverify hkind, fun hdir ent hent _ => ?_, fun hdir e he => ?_,
      fun va len e a ht => fetchRead_page ht⟩
    · exact fetchBlock_eq.trans ((if_pos hdir).trans (if_pos hverify))
    · intro w0 w1 clen
      have hentry := fetchBlock_entry (n := n) (verify := verify) hdir hent
      refine ⟨fun hbad => hentry.trans (if_pos hbad), fun h0 h1 hc => ?_⟩
      have hgood := hentry.trans (if_neg (by omega : ¬(2 ^ 57 ≤ w0 ∨ 2 ^ 32 ≤ w1 ∨ clen = 0)))
      refine ⟨fun e he => ?_, fun raw hraw => ⟨fun hout => ?_, fun out hout hlen => ?_⟩⟩
      · refine hgood.trans ?_
        rewrite [he]
        rfl
      · refine hgood.trans ?_
        rewrite [hraw]
        exact checkedBlock_decf hout
      · refine hgood.trans ?_
        rewrite [hraw]
        exact checkedBlock_some hout hlen
    · refine fetchBlock_eq.trans ((if_neg hdir).trans ?_)
      rewrite [he]
      rfl

end Sys2Proof.Machine

/-! ## The merges, SPRD and SCHK (R252, R254, R255, R259, R260, R261, R262, R403, R404) -/

namespace Sys2Proof.Machine
open Sys2Proof.Safety

/-! ### Their ranges (R259) -/

theorem rangeBad_fit {s : State} {c : Ctx} {m : Nat} {l : List (Buf × Nat × Nat)} (h : RangesFit s c m l) : rangeBad s c m l = none := by
  unfold rangeBad
  rw [List.find?_eq_none.2 fun y hy => ?_, Option.map_none]
  obtain ⟨halign, hplace⟩ := h y hy
  simp [halign, Option.isSome_iff_ne_none.1 hplace]

/-- The first range that does not fit. -/
theorem rangeBad_first {s : State} {c : Ctx} {m : Nat} {pre post : List (Buf × Nat × Nat)} {b : Buf} {off n : Nat} (h : RangesFit s c m pre)
    (hbad : off % 4 ≠ 0 ∨ placeOf s c m b off n = none) : rangeBad s c m (pre ++ (b, off, n) :: post) = some off := by
  have hpre := rangeBad_fit h
  unfold rangeBad at hpre ⊢
  rw [List.find?_append, Option.map_eq_none_iff.1 hpre, Option.none_or, List.find?_cons_of_pos ?_]
  · rfl
  · simpa using hbad

/-! ### The merges (R255, R403) -/

section Merge
variable {s s2 : State} {c : Ctx} {m : Nat} {mb : Member} {cmd : Cmd} {x : EForm} {op : MergeOp} {p q : StreamPos}

/-- The bytes of an output entry of a merge of two streams. -/
def entryBytes (p q : StreamPos) : Nat := if p.val && q.val then 8 else 4

theorem mergeEntry_two (p q : StreamPos) : mergeEntry [p, q] = entryBytes p q := by
  unfold mergeEntry entryBytes
  simp

/-- The destination of a merge is aligned and lies in its buffer. -/
def MergeFits (s : State) (c : Ctx) (m : Nat) (x : EForm) (p q : StreamPos) : Prop :=
  pval x.p0 % 8 = 0 ∧ pval x.p1 ≤ 2 ^ 20 ∧ (placeOf s c m .ab (pval x.p0) (8 + pval x.p1 * entryBytes p q)).isSome = true

theorem runMerge_frange (hst : cmd.e.streams = [p, q]) (h : ¬MergeFits s c m x p q) :
    runMerge op x s c m mb cmd = .fault s .frange (pval x.p0) 0 := by
  unfold runMerge
  dsimp only
  rw [hst, mergeEntry_two, if_pos]
  by_contra hfit
  refine h ?_
  simp only [Bool.or_eq_true, bne_iff_ne, decide_eq_true_eq, Option.isNone_iff_eq_none, not_or, not_not, not_lt] at hfit
  obtain ⟨⟨halign, hcap⟩, hplace⟩ := hfit
  exact ⟨halign, hcap, Option.isSome_iff_ne_none.2 hplace⟩

theorem mergeFits_cond (h : MergeFits s c m x p q) :
    ¬(pval x.p0 % 8 != 0 || decide (2 ^ 20 < pval x.p1) || (placeOf s c m .ab (pval x.p0) (8 + pval x.p1 * entryBytes p q)).isNone) = true := by
  obtain ⟨halign, hcap, hplace⟩ := h
  simp only [Bool.or_eq_true, bne_iff_ne, decide_eq_true_eq, Option.isNone_iff_eq_none, not_or, not_not, not_lt]
  exact ⟨⟨halign, hcap⟩, Option.isSome_iff_ne_none.1 hplace⟩

theorem runMerge_strbad_first (hst : cmd.e.streams = [p, q]) (h : MergeFits s c m x p q) (hp : p.val = false) :
    runMerge .madd x s c m mb cmd = .fault s .strbad (x.head.toNat % 8) 0 := by
  unfold runMerge
  dsimp only
  rw [hst, mergeEntry_two, if_neg (mergeFits_cond h), if_pos]
  exact congrArg (!·) hp

theorem runMerge_strbad_second (hst : cmd.e.streams = [p, q]) (h : MergeFits s c m x p q) (hp : p.val = true) (hq : q.val = false) :
    runMerge .madd x s c m mb cmd = .fault s .strbad (x.head.toNat / 8 % 8) 0 := by
  have hfirst : ¬(MergeOp.madd == .madd && !p.val) = true := by
    rw [hp]
    exact Bool.false_ne_true
  have hsecond : (MergeOp.madd == .madd && !q.val) = true := congrArg (!·) hq
  unfold runMerge
  dsimp only
  rw [hst, mergeEntry_two, if_neg (mergeFits_cond h)]
  exact (if_neg hfirst).trans (if_pos hsecond)

/-- The entries of a merge as bytes. -/
def entriesBytes (p q : StreamPos) (l : List (Nat × Nat)) : List Byte :=
  l.flatMap fun y => leBytes 4 y.1 ++ if entryBytes p q = 8 then leBytes 4 y.2 else []

/-- What a merge comes to behind its walk: the entries written, then the count or the fault. -/
def mergeOutcome (s : State) (c : Ctx) (m : Nat) (x : EForm) (p q : StreamPos) (r : MergeState × Option FetchErr) : EngRes :=
  let s := bufStore s c m .ab (pval x.p0 + 8) (entriesBytes p q r.1.out.reverse)
  match r.2 with
  | some (cause, a) => .fault s cause a 0
  | none => .ok (bufStore s c m .ab (pval x.p0) (leBytes 8 r.1.count)) []

theorem runMerge_walk (hst : cmd.e.streams = [p, q]) (h : MergeFits s c m x p q) (hval : op = .madd → p.val = true ∧ q.val = true)
    (htouch : touchRanges c m [(.ab, pval x.p0, 8 + pval x.p1 * entryBytes p q)] s = .ready s2) :
    runMerge op x s c m mb cmd = mergeOutcome s2 c m x p q
      (mergeWalk s2 c (cmd.port mb) op (pval x.p1) p q (p.len + q.len + 1) ⟨p.cur, q.cur, none, none, [], 0⟩) := by
  have hfirst : ¬(op == .madd && !p.val) = true := by
    intro hbad
    obtain ⟨hop, hp⟩ := Bool.and_eq_true_iff.1 hbad
    rw [(hval (beq_iff_eq.1 hop)).1] at hp
    cases hp
  have hsecond : ¬(op == .madd && !q.val) = true := by
    intro hbad
    obtain ⟨hop, hq⟩ := Bool.and_eq_true_iff.1 hbad
    rw [(hval (beq_iff_eq.1 hop)).2] at hq
    cases hq
  have hbytes : ∀ l : List (Nat × Nat), (l.flatMap fun y => leBytes 4 y.1 ++ if (entryBytes p q == 8) = true then leBytes 4 y.2 else []) =
      entriesBytes p q l := fun l => by
    unfold entriesBytes
    simp only [beq_iff_eq]
  unfold runMerge
  dsimp only
  simp only [hst, mergeEntry_two, List.getD_cons_zero, List.getD_cons_succ]
  rw [if_neg (mergeFits_cond h), if_neg hfirst, if_neg hsecond]
  rewrite [htouch]
  dsimp only
  generalize mergeWalk s2 c (cmd.port mb) op (pval x.p1) p q (p.len + q.len + 1) ⟨p.cur, q.cur, none, none, [], 0⟩ = r
  obtain ⟨t, err⟩ := r
  dsimp only
  rewrite [hbytes]
  cases err <;> rfl

end Merge

theorem exec_merge {s : State} {v : EngineView} {x : EForm} {i : Instr} {op : MergeOp}
    (hi : (i, op) ∈ [(Instr.sisec x, MergeOp.isec), (.sunion x, .union), (.sdiff x, .diff), (.smadd x, .madd)])
    (hturn : EngineTurn s .fetch i v) : exec i s = turnResult s .fetch v (runMerge op x v.s1 v.c s.hand.member v.mb v.x) := by
  simp only [List.mem_cons, Prod.mk.injEq, List.not_mem_nil, or_false] at hi
  rcases hi with ⟨rfl, rfl⟩ | ⟨rfl, rfl⟩ | ⟨rfl, rfl⟩ | ⟨rfl, rfl⟩
  · exact (engineStep_turn hturn : execSisec x s = _)
  · exact (engineStep_turn hturn : execSunion x s = _)
  · exact (engineStep_turn hturn : execSdiff x s = _)
  · exact (engineStep_turn hturn : execSmadd x s = _)

/-! ### The walk of SISEC over streams without values (R255) -/

/-- A stream without values whose keys are a list. -/
structure KeyStream (s : State) (c : Ctx) (port : ReadPort) (p : StreamPos) (a : List Nat) : Prop where
  val : p.val = false
  len : p.len = a.length
  sorted : a.Pairwise (· < ·)
  small : ∀ k ∈ a, k < 2 ^ 32
  read : ∀ k, k < a.length → fetchRead s c port (p.base + k * 4) 4 = .ok (leBytes 4 (a.getD k 0))

section Walk
variable {s : State} {c : Ctx} {port : ReadPort} {p q : StreamPos} {a b : List Nat}

/-- The next key of a sorted stream is above the last one. -/
theorem nextElem_key (h : KeyStream s c port p a) {i : Nat} {last : Option Nat} (hlast : ∀ l ∈ last, ∀ k ∈ a.drop i, l < k) :
    nextElem s c port p i last = .ok (a[i]?.map fun k => (k, 0)) := by
  unfold nextElem
  rw [h.len]
  by_cases hi : i < a.length
  · have hkey : a.getD i 0 = a[i] := List.getD_eq_getElem _ _ hi
    have hmem : a[i] ∈ a.drop i := by
      rw [List.drop_eq_getElem_cons hi]
      exact List.mem_cons_self ..
    have helem : streamElem s c port p i = .ok (a[i], 0) := by
      unfold streamElem
      rw [h.val, if_neg Bool.false_ne_true]
      dsimp only
      rw [h.read i hi, hkey]
      dsimp only
      rw [List.take_of_length_le (leBytes_length 4 _).le, List.drop_of_length_le (leBytes_length 4 _).le, leNat_leBytes,
        Nat.mod_eq_of_lt (show a[i] < 256 ^ 4 from h.small _ (List.getElem_mem hi))]
      rfl
    rw [if_neg (Nat.not_le.2 hi), helem, List.getElem?_eq_getElem hi]
    refine if_neg ?_
    cases last with
    | none => exact Bool.false_ne_true
    | some l => simpa using hlast l rfl a[i] hmem
  · rw [if_pos (Nat.not_lt.1 hi), List.getElem?_eq_none (Nat.not_lt.1 hi)]
    rfl

theorem above_next (h : a.Pairwise (· < ·)) {i k : Nat} (hk : a[i]? = some k) : a.drop i = k :: a.drop (i + 1) ∧ ∀ y ∈ a.drop (i + 1), k < y := by
  obtain ⟨hi, rfl⟩ := List.getElem?_eq_some_iff.1 hk
  have hdrop := List.drop_eq_getElem_cons hi
  refine ⟨hdrop, ?_⟩
  have htail := h.drop (i := i)
  rw [hdrop] at htail
  exact (List.pairwise_cons.1 htail).1

/-- What the walk of SISEC comes to from a state of the walk on. -/
theorem mergeWalk_isec (ha : KeyStream s c port p a) (hb : KeyStream s c port q b) (n : Nat) : ∀ t : MergeState,
    (∀ l ∈ t.la, ∀ k ∈ a.drop t.i, l < k) → (∀ l ∈ t.lb, ∀ k ∈ b.drop t.j, l < k) → t.count ≤ t.i →
    (a.length - t.i) + (b.length - t.j) < n →
    let r := mergeWalk s c port .isec (a.length + b.length) p q n t
    r.2 = none ∧ r.1.out.reverse.map (fun y => y.1) = t.out.reverse.map (fun y => y.1) ++ (a.drop t.i).filter fun k => (b.drop t.j).contains k := by
  induction n with
  | zero => exact fun t _ _ _ h => absurd h (Nat.not_lt_zero _)
  | succ n ih =>
    intro t hla hlb hcount hfuel
    dsimp only
    unfold mergeWalk
    rw [nextElem_key ha hla, nextElem_key hb hlb]
    cases hi : a[t.i]? with
    | none =>
      have hnil : a.drop t.i = [] := List.drop_eq_nil_of_le (List.getElem?_eq_none_iff.1 hi)
      cases hj : b[t.j]? with
      | none => simp [hnil]
      | some y =>
        -- only the second stream goes on; nothing is written
        obtain ⟨hdropb, haboveb⟩ := above_next hb.sorted hj
        have hjlt := (List.getElem?_eq_some_iff.1 hj).1
        obtain ⟨hnone, hout⟩ := ih ⟨t.i, t.j + 1, t.la, some y, if t.count < a.length + b.length then [] ++ t.out else t.out, t.count + 0⟩
          hla (fun l hl => Option.some.inj hl ▸ haboveb) hcount (by dsimp only; omega)
        refine ⟨hnone, hout.trans ?_⟩
        simp [hnil]
    | some x =>
      obtain ⟨hdropa, habovea⟩ := above_next ha.sorted hi
      have hilt := (List.getElem?_eq_some_iff.1 hi).1
      cases hj : b[t.j]? with
      | none =>
        have hnil : b.drop t.j = [] := List.drop_eq_nil_of_le (List.getElem?_eq_none_iff.1 hj)
        obtain ⟨hnone, hout⟩ := ih ⟨t.i + 1, t.j, some x, t.lb, if t.count < a.length + b.length then [] ++ t.out else t.out, t.count + 0⟩
          (fun l hl => Option.some.inj hl ▸ habovea) hlb (Nat.le_succ_of_le hcount) (by dsimp only; omega)
        refine ⟨hnone, hout.trans ?_⟩
        simp [hnil]
      | some y =>
        obtain ⟨hdropb, haboveb⟩ := above_next hb.sorted hj
        have hjlt := (List.getElem?_eq_some_iff.1 hj).1
        rcases lt_trichotomy x y with hxy | hxy | hxy
        · -- the key of the first stream alone is passed over
          obtain ⟨hnone, hout⟩ := ih ⟨t.i + 1, t.j, some x, t.lb, if t.count < a.length + b.length then [] ++ t.out else t.out, t.count + 0⟩
            (fun l hl => Option.some.inj hl ▸ habovea) hlb (Nat.le_succ_of_le hcount) (by dsimp only; omega)
          have hmissing : ((b.drop t.j).contains x) = false := by
            rw [hdropb]
            simp only [List.contains_eq_mem, List.mem_cons, decide_eq_false_iff_not, not_or]
            exact ⟨hxy.ne, fun hmem => absurd (hxy.trans (haboveb x hmem)) (lt_irrefl x)⟩
          simp only [Option.map_some, hxy.le, Nat.not_le.2 hxy, decide_true, decide_false, if_true, Bool.false_eq_true, if_false, mergeOut]
          refine ⟨hnone, hout.trans ?_⟩
          rw [hdropa, List.filter_cons_of_neg (by rw [hmissing]; exact Bool.false_ne_true), List.nil_append, ite_self]
        · -- the key stands in both streams and is written
          subst hxy
          obtain ⟨hnone, hout⟩ := ih ⟨t.i + 1, t.j + 1, some x, some x, if t.count < a.length + b.length then [(x, 0)] ++ t.out else t.out,
              t.count + 1⟩ (fun l hl => Option.some.inj hl ▸ habovea) (fun l hl => Option.some.inj hl ▸ haboveb) (Nat.succ_le_succ hcount)
            (by dsimp only; omega)
          have hpresent : ((b.drop t.j).contains x) = true := by
            rw [hdropb]
            simp
          have hrest : ((a.drop (t.i + 1)).filter fun k => (b.drop (t.j + 1)).contains k) =
              (a.drop (t.i + 1)).filter fun k => (b.drop t.j).contains k := by
            refine List.filter_congr fun k hk => ?_
            have hne : k ≠ x := (habovea k hk).ne'
            rw [hdropb]
            simp [hne]
          simp only [Option.map_some, le_refl, decide_true, if_true, mergeOut]
          refine ⟨hnone, hout.trans ?_⟩
          rw [hdropa, List.filter_cons_of_pos (p := fun k => (b.drop t.j).contains k) hpresent, ← hrest, if_pos (by omega)]
          simp
        · -- the key of the second stream alone is passed over
          obtain ⟨hnone, hout⟩ := ih ⟨t.i, t.j + 1, t.la, some y, if t.count < a.length + b.length then [] ++ t.out else t.out, t.count + 0⟩
            hla (fun l hl => Option.some.inj hl ▸ haboveb) hcount (by dsimp only; omega)
          have hrest : ((a.drop t.i).filter fun k => (b.drop (t.j + 1)).contains k) = (a.drop t.i).filter fun k => (b.drop t.j).contains k := by
            refine List.filter_congr fun k hk => ?_
            have hne : k ≠ y := by
              rw [hdropa] at hk
              rcases List.mem_cons.1 hk with rfl | hk
              · exact hxy.ne'
              · exact (hxy.trans (habovea k hk)).ne'
            rw [hdropb]
            simp [hne]
          simp only [Option.map_some, hxy.le, Nat.not_le.2 hxy, decide_true, decide_false, if_true, Bool.false_eq_true, if_false, mergeOut]
          refine ⟨hnone, hout.trans ?_⟩
          rw [← hrest, List.nil_append, ite_self]

end Walk

/-! ### SPRD (R259, R260) -/

section Predictor
variable {s s2 : State} {v : EngineView} {x : EForm}

/-- The operands of SPRD and of SCHK. -/
def sprdRanges (x : EForm) : List (Buf × Nat × Nat) :=
  [(.ab, pval x.p0, 2 * headD x.head), (.wb, pval x.p1, headR x.head * (headD x.head / 16) * 12),
    (.wb, pval x.p2, headF x.head * (headR x.head / 16) * 12), (.ab, pval x.p3, maskBytes (headF x.head) + 4 + 4 * headF x.head)]
def schkRanges (x : EForm) : List (Buf × Nat × Nat) :=
  [(.ab, pval x.p0, 2 * headD x.head), (.ab, pval x.p1, maskBytes (headF x.head)), (.ab, pval x.p2, 4 + 4 * headF x.head)]

/-- The neurons that SPRD predicts active. -/
def sprdActive (x : EForm) (s : State) (c : Ctx) (m : Nat) : List Bool :=
  let d := headD x.head
  let r := headR x.head
  let xs := f16Row (bufRead s c m .ab (pval x.p0) (2 * d))
  let z := (List.range r).map fun j => a36Decode (a36Dot xs (sxRow 2 (bufRead s c m .wb (pval x.p1 + 12 * j * (d / 16)) (12 * (d / 16)))))
  (List.range (headF x.head)).map fun k =>
    positive (a36Decode (a36Dot z (sxRow 2 (bufRead s c m .wb (pval x.p2 + 12 * k * (r / 16)) (12 * (r / 16))))))

/-- The mask of the active neurons, and their list behind it. -/
def sprdWrites (x : EForm) (s : State) (c : Ctx) (m : Nat) : State :=
  let active := sprdActive x s c m
  let list := (active.zipIdx.filter fun y => y.1).map fun y => y.2
  bufStore (bufStore s c m .ab (pval x.p3) (leBytes (maskBytes (headF x.head)) (active.zipIdx.map fun y => if y.1 then 2 ^ y.2 else 0).sum)) c m .ab
    (pval x.p3 + maskBytes (headF x.head)) (leBytes 4 list.length ++ list.flatMap (leBytes 4))

theorem exec_sprd_frange {off : Nat} (hturn : EngineTurn s .fetch (.sprd x) v)
    (hbad : rangeBad v.s1 v.c s.hand.member (sprdRanges x) = some off) :
    exec (.sprd x) s = .next (engineFaulted v.s1 v.c0.id s.hand.member .fetch v.x .frange off 0) := by
  show execSprd x s = _
  refine engineStep_fault hturn ?_
  dsimp only
  rw [show rangeBad v.s1 v.c s.hand.member [_, _, _, _] = _ from hbad]

theorem exec_sprd_run (hturn : EngineTurn s .fetch (.sprd x) v) (hfit : RangesFit v.s1 v.c s.hand.member (sprdRanges x))
    (htouch : touchRanges v.c s.hand.member (sprdRanges x) v.s1 = .ready s2)
    (hclean : enginePoison s2 v.c s.hand.member ((sprdRanges x).take 3) = none) :
    exec (.sprd x) s = .next (engineDone (sprdWrites x s2 v.c s.hand.member) v.c0.id s.hand.member .fetch v.x []) := by
  show execSprd x s = _
  refine engineStep_ok hturn ?_
  dsimp only
  rewrite [show rangeBad v.s1 v.c s.hand.member [_, _, _, _] = _ from rangeBad_fit hfit]
  dsimp only
  rewrite [show touchRanges v.c s.hand.member [_, _, _, _] v.s1 = _ from htouch]
  dsimp only
  rewrite [show enginePoison s2 v.c s.hand.member (List.take 3 [_, _, _, _]) = _ from hclean]
  rfl

/-! ### SCHK (R261, R262, R404) -/

theorem exec_schk_frange {off : Nat} (hturn : EngineTurn s .fetch (.schk x) v)
    (hbad : rangeBad v.s1 v.c s.hand.member (schkRanges x) = some off) :
    exec (.schk x) s = .next (engineFaulted (failVote v.s1 v.c.id v.x.e.esn) v.c0.id s.hand.member .fetch v.x .frange off 0) := by
  show execSchk x s = _
  refine engineStep_fault hturn ?_
  dsimp only
  rw [show rangeBad v.s1 v.c s.hand.member [_, _, _] = _ from hbad]

/-- The handle of the coarse copy that SCHK names. -/
def schkHandle (x : EForm) (v : EngineView) : HandleDesc := handleOf (handleAt v.mb (x.head.toNat / 2 ^ 22 % 64))

theorem exec_schk_hdlbad (hturn : EngineTurn s .fetch (.schk x) v) (hfit : RangesFit v.s1 v.c s.hand.member (schkRanges x))
    (hbad : (schkHandle x v).kind ≠ 0 ∨ (schkHandle x v).dir ≠ 0 ∨ (schkHandle x v).count = 0) :
    exec (.schk x) s = .next (engineFaulted (failVote v.s1 v.c.id v.x.e.esn) v.c0.id s.hand.member .fetch v.x .hdlbad
      (x.head.toNat / 2 ^ 22 % 64) 0) := by
  show execSchk x s = _
  refine engineStep_fault hturn ?_
  dsimp only
  rewrite [show rangeBad v.s1 v.c s.hand.member [_, _, _] = _ from rangeBad_fit hfit]
  refine if_pos ?_
  simpa [or_assoc, schkHandle] using hbad

theorem exec_schk_run {l : List Nat} (hturn : EngineTurn s .fetch (.schk x) v) (hfit : RangesFit v.s1 v.c s.hand.member (schkRanges x))
    (hkind : (schkHandle x v).kind = 0) (hdir : (schkHandle x v).dir = 0) (hcount : (schkHandle x v).count ≠ 0)
    (htouch : touchRanges v.c s.hand.member (schkRanges x) v.s1 = .ready s2)
    (hclean : enginePoison s2 v.c s.hand.member ((schkRanges x).take 2) = none)
    (hrows : schkRows s2 v.c (v.x.port v.mb) (schkHandle x v) (headD x.head)
      (f16Row (bufRead s2 v.c s.hand.member .ab (pval x.p0) (2 * headD x.head)))
      (leNat (bufRead s2 v.c s.hand.member .ab (pval x.p1) (maskBytes (headF x.head)))) (FVal.decode fmtF16 v.x.e.beta.toNat) (headF x.head) 0 [] =
        .ok l) :
    exec (.schk x) s = .next (engineDone (answerVote (bufStore s2 v.c s.hand.member .ab (pval x.p2)
      (leBytes 4 l.length ++ l.reverse.flatMap (leBytes 4))) v.c.id v.x.e.esn.toNat l.length) v.c0.id s.hand.member .fetch v.x []) := by
  have hhandle : ¬((schkHandle x v).kind != 0 || (schkHandle x v).dir != 0 || (schkHandle x v).count == 0) = true := by
    simp [hkind, hdir, hcount]
  show execSchk x s = _
  refine engineStep_ok hturn ?_
  dsimp only
  rewrite [show rangeBad v.s1 v.c s.hand.member [_, _, _] = _ from rangeBad_fit hfit]
  refine (if_neg hhandle).trans ?_
  rewrite [show touchRanges v.c s.hand.member [_, _, _] v.s1 = _ from htouch]
  dsimp only
  rewrite [show enginePoison s2 v.c s.hand.member (List.take 2 [_, _, _]) = _ from hclean]
  dsimp only
  rewrite [show schkRows s2 v.c _ (handleOf _) _ _ _ _ _ _ _ = _ from hrows]
  dsimp only
  unfold indexList
  rw [List.length_reverse]

end Predictor

/-- Settles O43: each command through what its run comes to, the walk of SISEC by induction over its steps. -/
theorem sparseCommands : Obligations.SparseCommands := by
  unfold Obligations.SparseCommands
  refine ⟨fun s s2 v x => ?_, fun s c port p q a b hp hq hpcur hqcur hplen hqlen hasort hbsort haread hbread hsmall => ?_⟩
  · intro m port
    refine ⟨fun i op p q hi hturn hst => ?_, ⟨fun pre post b off n hturn hranges hpre hbad => ?_, fun hturn hfit htouch hclean => ?_⟩,
      fun l hturn hfit hkind hdir hcount htouch hclean hrows => exec_schk_run hturn hfit hkind hdir hcount htouch hclean hrows,
      fun pre post b off n hturn hranges hpre hbad => ?_, fun hturn hfit hbad => exec_schk_hdlbad hturn hfit hbad⟩
    · intro cap w
      have hrun := exec_merge hi hturn
      refine ⟨fun hbad => ?_, fun hop halign hcap hplace => ⟨fun hp => ?_, fun hp hq => ?_⟩, fun halign hcap hplace hval htouch => ?_⟩
      · refine hrun.trans (congrArg (turnResult s .fetch v) (runMerge_frange hst fun hfit => ?_))
        obtain ⟨halign, hcap, hplace⟩ := hfit
        rcases hbad with h | h | h
        · exact h halign
        · exact absurd hcap (Nat.not_le.2 h)
        · exact Option.isSome_iff_ne_none.1 hplace h
      · subst hop
        exact hrun.trans (congrArg (turnResult s .fetch v) (runMerge_strbad_first hst ⟨halign, hcap, hplace⟩ hp))
      · subst hop
        exact hrun.trans (congrArg (turnResult s .fetch v) (runMerge_strbad_second hst ⟨halign, hcap, hplace⟩ hp hq))
      · intro r bytes s3
        have hout : exec i s = turnResult s .fetch v (mergeOutcome s2 v.c m x p q r) :=
          hrun.trans (congrArg (turnResult s .fetch v) (runMerge_walk hst ⟨halign, hcap, hplace⟩ hval htouch))
        clear_value r
        obtain ⟨t, err⟩ := r
        refine ⟨fun herr => ?_, fun k a herr => ?_⟩
        · cases herr
          exact hout
        · cases herr
          exact hout
    · exact exec_sprd_frange hturn ((congrArg (rangeBad v.s1 v.c m) hranges).trans (rangeBad_first hpre hbad))
    · exact exec_sprd_run hturn hfit htouch hclean
    · exact exec_schk_frange hturn ((congrArg (rangeBad v.s1 v.c m) hranges).trans (rangeBad_first hpre hbad))
  · obtain ⟨hnone, hout⟩ := mergeWalk_isec ⟨hp, hplen, hasort, fun k hk => hsmall k (List.mem_append_left b hk), haread⟩
      ⟨hq, hqlen, hbsort, fun k hk => hsmall k (List.mem_append_right a hk), hbread⟩ (a.length + b.length + 1) ⟨0, 0, none, none, [], 0⟩
      (fun l hl => nomatch hl) (fun l hl => nomatch hl) le_rfl (Nat.lt_succ_self _)
    exact ⟨hnone, hout⟩

end Sys2Proof.Machine
